-- ==== Sys2Proof/Word.lean ====
section
/-! DEFINITION. The word types of the machine and their plainest arithmetic (R2, R3, R7). -/

namespace Sys2Proof

/-- A 64-bit scalar (R42). -/
abbrev Word := BitVec 64
/-- One stored byte (R3). -/
abbrev Byte := BitVec 8
/-- A 48-bit instruction word (R36). -/
abbrev IWord := BitVec 48

/-- n / d rounded up. -/
def ceilDiv (n d : Nat) : Nat := (n + d - 1) / d

/-- Adds up to a saturating count of the given width. -/
def satAdd (width x y : Nat) : Nat := min (x + y) (2 ^ width - 1)

end Sys2Proof
end

