-- ==== Sys2Proof/Syntax.lean ====
section
/-! DEFINITION. The instructions: 166 words of the program text and 93 steps that the part takes by itself
or on an outside event (spec/opcode_table.json, spec/95_what_each_step_holds.md). Each row is a constructor
of `Instr`. -/

namespace Sys2Proof

/-- The six walkers, in the tag order C, V, M, X, G, F (02, table; R36). -/
inductive Walker | C | V | M | X | G | F
deriving DecidableEq, Repr, Inhabited

/-- The read-only specials 0xC8 to 0xCF (R42). -/
inductive Special | core | gang | vf | gen | step | clk | slipnow | bankloss
deriving DecidableEq, Repr

/-- A register name (R42); 0xD0 to 0xFF have no constructor. -/
inductive Name
  | x (n : BitVec 6)
  | v (n : BitVec 6)
  | a (n : BitVec 4)
  | p (n : BitVec 4)
  | q (n : BitVec 5)
  | k (n : BitVec 3)
  | sp (r : Special)
deriving DecidableEq, Repr

/-- Scopes (R40, R218). -/
inductive Scope | core | chip | ten | dom | sys
deriving DecidableEq, Repr

/-- Rounding modes (R94). -/
inductive Rnd | rne | rz | ru | rd
deriving DecidableEq, Repr

/-- The wait and post fields of a word (R36). -/
structure Hdr where
  wait : BitVec 4
  post : BitVec 4
deriving DecidableEq, Repr

/-- The trap-if-empty bits of a format-R word (R23). -/
structure Te where
  a : Bool
  b : Bool
deriving DecidableEq, Repr

/-- The amount of a rotation or broadcast: a value, or with .X a scalar source (R183). -/
inductive Amount
  | val (n : BitVec 6)
  | reg (r : Name)
deriving DecidableEq, Repr

/-- What MOPD names (R133). -/
inductive MSrc
  | tensor (t : BitVec 12)
  | view (n : BitVec 6)
  | port (n : BitVec 4)
  | acc (n : BitVec 4)
deriving DecidableEq, Repr

/-- The seven atomic operators (R44). -/
inductive AtomOp | add | min | max | and | or | xchg | cas
deriving DecidableEq, Repr

/-- Reduction operators (R169). -/
inductive RedOp | add | max | min | and | or | maxu | minu
deriving DecidableEq, Repr

/-- Comparison conditions of VCMP (R169). -/
inductive CmpOp | eq | ne | lt | le | gt | ge | un
deriving DecidableEq, Repr

/-- Key modes of VSFC (R169). -/
inductive SfcMode | morton2 | hilbert2 | morton3 | hilbert3
deriving DecidableEq, Repr

/-- Trap and record classes (R320). -/
inductive TrapClass | rsvd | fe | sem | addr | txlate | scope | queue | trap | priv | entropy | error
deriving DecidableEq, Repr

/-- A tag (R307): firmware bit, VF and generation; generation 0 is the void tag. -/
structure Tag where
  fw : Bool
  vf : BitVec 6
  gen : BitVec 8
deriving DecidableEq, Repr

/-- Where a result or a post comes from: the word, its walker and its core, with its post field and that of a
REP that ends with it (R19, R21, R53), its place in core order (R215) and its walker's step count (R125). -/
structure Origin where
  core : Nat
  walker : Walker
  index : Nat
  rep : Nat
  age : Nat
  steps : Nat
  post : BitVec 4
  post2 : BitVec 4
deriving DecidableEq, Repr

/-- A request held by the arbitrated ports (R27): its age in issue order and the banks it needs. -/
structure BankReq where
  age : Nat
  banks : BitVec 32
deriving DecidableEq, Repr

/-- What waits on a release (R221). -/
inductive RelWork
  | fence
  | ffence
  | launch (rcb patch : Nat) (queue : BitVec 4) (dest : Name)
  | galley (id : Nat)
  | advance (gang : Nat) (n : BitVec 8) (vf : BitVec 6) (gen : BitVec 8)
  | fbar (group : BitVec 4)
  /-- No release: an FGRP or FBAR that waits at its core has been sent a message. -/
  | heard
  | stop (vf : BitVec 6) (report : Nat) (dest : Name)
  | stopped (vf : BitVec 6) (dest : Name)
deriving DecidableEq, Repr

/-- A line of the operand cache: tensor, plane (scale plane or codes), coordinates and the
256-byte-aligned offset along dimension 0 (R142). -/
structure LineKey where
  tensor : BitVec 12
  scale : Bool
  d1 : Nat
  d2 : Nat
  d3 : Nat
  off : Nat
deriving DecidableEq, Repr

/-- An atomic on its way to a write queue (R249). -/
structure AtomicReq where
  vf : BitVec 6
  gen : BitVec 8
  key : Nat
  op : AtomOp
  dbl : Bool
  uns : Bool
  opnd : Word
  expected : Word
deriving DecidableEq, Repr

/-- A tagged unit the resurfacer meets (R307, R310). -/
inductive UnitRef
  | line (key : Nat)
  | tensor (vf : BitVec 6) (t : BitVec 12)
  | sem (core : Nat) (n : BitVec 4)
  | queueEntry (core : Nat) (q : BitVec 5) (i : Nat)
  | codebook (core : Nat) (k : BitVec 3)
  | counter (core : Nat) (n : BitVec 4)
  | gibbsCells (core : Nat) (group : Nat)
  | gibbsList (core : Nat) (cell : Nat)
  | gibbsHalo (core : Nat)
  | gibbsControl (core : Nat)
  | cacheLine (core : Nat) (key : LineKey)
  | translation (core : Nat) (page : Nat)
  | dispenser (vf : BitVec 6) (n : BitVec 8)
  | reply (i : Nat)
  | keySlot (vf : BitVec 6) (n : BitVec 8)
  | macCell (core row col : Nat)
deriving DecidableEq, Repr

/-- Operations of a packet (R351). -/
inductive PktOp | put | atom | pull | coll | plough | echo
deriving DecidableEq, Repr

/-- A packet (R351): the request header and its data segments. -/
structure Packet where
  op : PktOp
  rv : Bool
  vc : BitVec 2
  reissue : Bool
  opflags : BitVec 4
  dstMod : BitVec 12
  dstCore : BitVec 8
  srcCore : BitVec 8
  srcMod : BitVec 12
  vf : BitVec 6
  gen : BitVec 8
  tag : BitVec 16
  hops : BitVec 8
  addr : Word
  opnd0 : Word
  opnd1 : Word
  stamp : BitVec 32
  opword : BitVec 32
  data : List (BitVec 8)
  poisoned : Bool
deriving DecidableEq, Repr

/-- Kinds of response (R352). -/
inductive RespKind | none | ack | result | rack | busy
deriving DecidableEq, Repr

/-- A response (R352). -/
structure Response where
  kind : RespKind
  status : BitVec 8
  dstMod : BitVec 12
  dstCore : BitVec 8
  vf : BitVec 6
  gen : BitVec 8
  tag : BitVec 16
  value : Word
deriving DecidableEq, Repr

/-- The key of a reply-cache entry (R360). -/
structure ReplyKey where
  srcMod : BitVec 12
  srcCore : BitVec 8
  tag : BitVec 16
  vf : BitVec 6
  gen : BitVec 8
deriving DecidableEq, Repr

/-- One row of a WIDE or FP32 partial sum of FRED (R383): exact, without limit. -/
structure PartialRow where
  e : Int
  cells : List (Int × BitVec 2)
  rse : Int
  rs : Int × BitVec 2
  status : BitVec 16
deriving DecidableEq, Repr

/-- One record as RPART's histogram passes see it: key, weight, source index and row (R343). -/
structure KeyRec where
  key : Nat
  weight : Nat
  src : Nat
  row : Nat
deriving DecidableEq, Repr

/-- Which word a group message belongs to (R380). -/
inductive CollKind | fgrp | fbar | fred | fbcst | fa2a | rpart
deriving DecidableEq, Repr

/-- What a group message carries (R413). -/
inductive CollBody
  | digest (d : List (BitVec 8))
  /-- The arrival of a member's word, with what must match or fit between members. -/
  | arrive (shape : List Nat)
  /-- A sum on its way up the tree, sealed, or the failure that takes its place. -/
  | part (code : BitVec 8) (keygen : BitVec 8) (mac : List (BitVec 8)) (rows : List PartialRow)
  | result (code : BitVec 8) (rows : List PartialRow)
  /-- A string, with bit i of `bad` for a poisoned line i. -/
  | bytes (bad : Nat) (data : List (BitVec 8))
  /-- The arrival of an RPART with its receive tensor's base and capacity and its records' keys and weights. -/
  | keys (shape : List Nat) (base cap : Nat) (recs : List KeyRec)
  /-- A record for the row of the receiver that stands at a vault address. -/
  | row (addr : Nat) (bad : Bool) (data : List (BitVec 8))
  /-- The answer to bytes or to a row. -/
  | ack (code : BitVec 8)
  | close (code : BitVec 8)
deriving DecidableEq, Repr

/-- A group message from one member to another (R380, R413). -/
structure CollMsg where
  vf : BitVec 6
  gen : BitVec 8
  dstMod : BitVec 12
  dstCore : Nat
  srcMod : BitVec 12
  srcCore : Nat
  group : BitVec 4
  srcIndex : Nat
  seq : Nat
  kind : CollKind
  tag : BitVec 16
  stamp : BitVec 32
  body : CollBody
deriving DecidableEq, Repr

/-- Why a gang is frozen (R314, R318, R328). -/
inductive FreezeCause | dispatcher | owner | trap
deriving DecidableEq, Repr

/-- The instructions and steps of spec/opcode_table.json, in its order. A word carries its header and the
fields of its format (R38); a step carries the unit it acts on and the data that moves in it. -/
inductive Instr
  -- control words
  | nop (h : Hdr)
  | halt (h : Hdr)
  | li (h : Hdr) (d : Name) (imm : BitVec 23)
  | liu (h : Hdr) (d : Name) (imm : BitVec 23)
  | trap (h : Hdr) (code : BitVec 23)
  | semi (h : Hdr) (sem : BitVec 8) (val : BitVec 8)
  | slipw (h : Hdr) (window : BitVec 13)
  | view (h : Hdr) (d a : Name) (fmt : BitVec 8)
  | add (h : Hdr) (d a b : Name)
  | sub (h : Hdr) (d a b : Name)
  | mul (h : Hdr) (d a b : Name)
  | mulh (h : Hdr) (uns : Bool) (d a b : Name)
  | and (h : Hdr) (d a b : Name)
  | or (h : Hdr) (d a b : Name)
  | xor (h : Hdr) (d a b : Name)
  | shl (h : Hdr) (d a b : Name)
  | shr (h : Hdr) (d a b : Name)
  | sar (h : Hdr) (d a b : Name)
  | min (h : Hdr) (uns : Bool) (d a b : Name)
  | max (h : Hdr) (uns : Bool) (d a b : Name)
  | slt (h : Hdr) (d a b : Name)
  | sltu (h : Hdr) (d a b : Name)
  | sel (h : Hdr) (d a b : Name)
  | clz (h : Hdr) (d a : Name)
  | popc (h : Hdr) (d a : Name)
  | addi (h : Hdr) (d a : Name) (imm : BitVec 15)
  | andi (h : Hdr) (d a : Name) (imm : BitVec 15)
  | ori (h : Hdr) (d a : Name) (imm : BitVec 15)
  | br (h : Hdr) (cond : BitVec 4) (r : Name) (off : BitVec 19)
  | call (h : Hdr) (cond : BitVec 4) (r : Name) (off : BitVec 19)
  | ret (h : Hdr) (cond : BitVec 4) (r : Name)
  | loop (h : Hdr) (cond : BitVec 4) (r : Name) (off : BitVec 19)
  | ld (h : Hdr) (size : BitVec 2) (sx rs : Bool) (d a b : Name)
  | st (h : Hdr) (size : BitVec 2) (rs : Bool) (d a b : Name)
  | lda (h : Hdr) (size : BitVec 2) (sx rs : Bool) (sc : Scope) (d a : Name)
  | stl (h : Hdr) (size : BitVec 2) (rs : Bool) (sc : Scope) (d a : Name)
  | mark (h : Hdr)
  | fence (h : Hdr) (sc : Scope)
  | spl (h : Hdr) (size : BitVec 8) (d : Name) (off : BitVec 15)
  | fil (h : Hdr) (size : BitVec 8) (d : Name) (off : BitVec 15)
  | tdef (h : Hdr) (card : Name) (t : BitVec 12)
  | trd (h : Hdr) (d : Name) (t : BitVec 12) (field : BitVec 5)
  | launch (h : Hdr) (d a b : Name) (queue : BitVec 4)
  | waitl (h : Hdr) (d a : Name)
  | aadd (h : Hdr) (dbl : Bool) (d a b : Name)
  | amin (h : Hdr) (dbl uns : Bool) (d a b : Name)
  | amax (h : Hdr) (dbl uns : Bool) (d a b : Name)
  | aand (h : Hdr) (dbl : Bool) (d a b : Name)
  | aor (h : Hdr) (dbl : Bool) (d a b : Name)
  | axchg (h : Hdr) (dbl : Bool) (d a b : Name)
  | acas (h : Hdr) (dbl : Bool) (d a b : Name)
  | tktake (h : Hdr) (d : Name) (n : BitVec 8)
  | tkwait (h : Hdr) (sc : Scope) (n : BitVec 8) (a : Name)
  | tknext (h : Hdr) (sc : Scope) (n : BitVec 8)
  -- privileged control words
  | genadv (h : Hdr) (d a : Name)
  | psetRun (h : Hdr) (d a : Name)
  | psetStop (h : Hdr) (d a b : Name)
  | psetMap (h : Hdr) (d a b : Name)
  | frz (h : Hdr) (d a b : Name)
  | thaw (h : Hdr) (d a b : Name)
  | keyld (h : Hdr) (d a b : Name)
  | keyerase (h : Hdr) (all : Bool) (d a b : Name)
  | lapw (h : Hdr) (d : Name)
  | polset (h : Hdr) (d a b : Name)
  -- all tags and all walkers
  | rep (h : Hdr) (tag : BitVec 3) (count : BitVec 8) (regstep : BitVec 8) (addrstep : BitVec 15)
  | fork (h : Hdr)
  | rdv (h : Hdr)
  | ssb (h : Hdr)
  -- vector words
  | vadd (h : Hdr) (te : Te) (bx sat : Bool) (rnd : Rnd) (d a b : Name)
  | vsub (h : Hdr) (te : Te) (bx sat : Bool) (rnd : Rnd) (d a b : Name)
  | vmul (h : Hdr) (te : Te) (bx sat : Bool) (rnd : Rnd) (d a b : Name)
  | vfma (h : Hdr) (te : Te) (bx sat : Bool) (rnd : Rnd) (d a b : Name)
  | vmin (h : Hdr) (te : Te) (bx uns : Bool) (d a b : Name)
  | vmax (h : Hdr) (te : Te) (bx uns : Bool) (d a b : Name)
  | vabs (h : Hdr) (tea sat : Bool) (rnd : Rnd) (d a : Name)
  | vneg (h : Hdr) (tea sat : Bool) (rnd : Rnd) (d a : Name)
  | vand (h : Hdr) (te : Te) (bx : Bool) (d a b : Name)
  | vor (h : Hdr) (te : Te) (bx : Bool) (d a b : Name)
  | vxor (h : Hdr) (te : Te) (bx : Bool) (d a b : Name)
  | vshl (h : Hdr) (te : Te) (bx : Bool) (d a b : Name)
  | vshr (h : Hdr) (te : Te) (bx : Bool) (d a b : Name)
  | vsar (h : Hdr) (te : Te) (bx : Bool) (d a b : Name)
  | vcmp (h : Hdr) (te : Te) (bx : Bool) (cond : CmpOp) (uns : Bool) (d a b : Name)
  | vsel (h : Hdr) (te : Te) (d a b : Name)
  | vcvt (h : Hdr) (tea sat : Bool) (rnd : Rnd) (d a : Name)
  | vrnd (h : Hdr) (tea : Bool) (rnd : Rnd) (d a : Name)
  | vexp2 (h : Hdr) (tea sat : Bool) (rnd : Rnd) (d a : Name)
  | vlog2 (h : Hdr) (tea sat : Bool) (rnd : Rnd) (d a : Name)
  | vrcp (h : Hdr) (tea sat : Bool) (rnd : Rnd) (d a : Name)
  | vrsq (h : Hdr) (tea sat : Bool) (rnd : Rnd) (d a : Name)
  | vmov (h : Hdr) (tea : Bool) (d a : Name)
  | vsplat (h : Hdr) (d a : Name)
  | viota (h : Hdr) (flat : Bool) (d a : Name)
  | vgets (h : Hdr) (tea : Bool) (d a b : Name)
  | vgetsSt (h : Hdr) (clr : Bool) (d : Name)
  | vrotr (h : Hdr) (tea : Bool) (d a : Name) (n : Amount)
  | vrotc (h : Hdr) (tea : Bool) (d a : Name) (n : Amount)
  | vbcr (h : Hdr) (tea : Bool) (d a : Name) (n : Amount)
  | vbcc (h : Hdr) (tea : Bool) (d a : Name) (n : Amount)
  | vredr (h : Hdr) (tea : Bool) (op : RedOp) (sat : Bool) (d a : Name)
  | vredc (h : Hdr) (tea : Bool) (op : RedOp) (sat : Bool) (d a : Name)
  | vscanr (h : Hdr) (tea : Bool) (op : RedOp) (sat ex : Bool) (d a : Name)
  | vcomp (h : Hdr) (te : Te) (d a b : Name)
  | vlut (h : Hdr) (tea sat hi : Bool) (d a k : Name)
  | vacc (h : Hdr) (tea : Bool) (d a : Name)
  | vsfc (h : Hdr) (te : Te) (mode : SfcMode) (d a b : Name)
  | vld (h : Hdr) (d base : Name) (step : BitVec 8) (count : BitVec 7)
  | vst (h : Hdr) (d base : Name) (step : BitVec 8) (count : BitVec 7)
  -- matrix words
  | mnest (h : Hdr) (level : BitVec 8) (a b : Name)
  | mopd (h : Hdr) (card : Name) (isB : Bool) (src : MSrc)
  | mfmt (h : Hdr) (afmt bfmt : BitVec 8) (zp : Bool) (cb : BitVec 3) (cbsel : Bool)
  | mdst (h : Hdr) (d : Name)
  | mgo (h : Hdr) (acc : Bool)
  | minit (h : Hdr) (d : Name) (imm : BitVec 15)
  | mzero (h : Hdr) (d : Name)
  | mnorm (h : Hdr) (d : Name)
  | mdrain (h : Hdr) (te : Te) (fmt : BitVec 3) (zp sat : Bool) (d a : Name) (vs : Option (BitVec 6))
  | mstat (h : Hdr) (d a : Name) (row : BitVec 5)
  | merrq (h : Hdr) (clr : Bool) (d : Name)
  | mcbld (h : Hdr) (d a : Name)
  | mocinv (h : Hdr)
  | mrsum (h : Hdr) (sat : Bool) (rnd : Rnd) (d a : Name)
  -- copy words
  | xcopy (h : Hdr) (rel : Option Scope) (card : Name) (t : BitVec 12)
  | xcopyv (h : Hdr) (rel : Option Scope) (card : Name) (t : BitVec 12)
  | xgath (h : Hdr) (rel : Option Scope) (card : Name) (t : BitVec 12)
  | xscat (h : Hdr) (rel : Option Scope) (card : Name) (t : BitVec 12)
  | xfill (h : Hdr) (rel : Option Scope) (card : Name) (t : BitVec 12)
  | xpref (h : Hdr) (card : Name) (t : BitVec 12)
  | xfence (h : Hdr)
  | xstat (h : Hdr) (clr : Bool) (d : Name)
  -- Gibbs words
  | gload (h : Hdr) (card : Name) (t : BitVec 12)
  | gbias (h : Hdr) (card : Name) (t : BitVec 12)
  | gcolr (h : Hdr) (tea : Bool) (c : BitVec 8) (a b : Name)
  | gbeta (h : Hdr) (a : Name)
  | gmode (h : Hdr) (replay bip : Bool) (n : BitVec 15)
  | gseed (h : Hdr) (a : Name)
  | gclmp (h : Hdr) (te : Te) (a b : Name)
  | gfree (h : Hdr) (tea : Bool) (a : Name)
  | gswp (h : Hdr) (k : BitVec 15)
  | grds (h : Hdr) (d : Name)
  | gcntc (h : Hdr)
  | grdc (h : Hdr) (d a : Name)
  | grdf (h : Hdr) (d a : Name)
  | gxch (h : Hdr) (card : Name)
  | gstat (h : Hdr) (clr : Bool) (sel : BitVec 3) (d : Name)
  -- fabric words
  | fput (h : Hdr) (rel : Option Scope) (card : Name) (t : BitVec 12) (n : BitVec 4)
  | fatom (h : Hdr) (op : AtomOp) (dbl uns : Bool) (d a b : Name)
  | fpull (h : Hdr) (card : Name) (n : BitVec 4)
  | ffence (h : Hdr) (sc : Scope)
  | fcnt (h : Hdr) (clr : Bool) (d : Name) (n : BitVec 4)
  | fbar (h : Hdr) (sc : Scope) (g : BitVec 4)
  | fgrp (h : Hdr) (card : Name) (g : BitVec 4)
  | fred (h : Hdr) (card : Name) (t : BitVec 12) (g n : BitVec 4)
  | fbcst (h : Hdr) (card : Name) (t : BitVec 12) (g n : BitVec 4)
  | fa2a (h : Hdr) (card : Name) (t : BitVec 12) (g n : BitVec 4)
  | rpart (h : Hdr) (card : Name) (t : BitVec 12) (g n : BitVec 4)
  | fstat (h : Hdr) (sel : BitVec 3) (d : Name)
  | frout (h : Hdr) (d a : Name)
  | froutLd (h : Hdr) (d a b : Name)
  | fplow (h : Hdr) (d a b : Name)
  | fplowFree (h : Hdr) (d a b : Name)
  | flnkDown (h : Hdr) (d a b : Name)
  | flnkTrain (h : Hdr) (d a b : Name)
  | flnkDrain (h : Hdr) (d a b : Name)
  | flnkRelock (h : Hdr) (d a b : Name)
  | flnkQuery (h : Hdr) (d a b : Name)
  -- steps of the part
  | trapFreeze (o : Origin) (cls : TrapClass) (code addr : Nat)
  | gangFreezeFollow (gang : Nat)
  | scalarResultLands (o : Origin) (d : Name) (val : Word)
  | vectorResultLands (o : Origin) (off : Nat) (bytes : List (BitVec 8)) (flags : BitVec 7)
  | longLatencyWriteComplete (o : Origin) (off : Nat) (bytes : List (BitVec 8))
  | queueEntryArrives (core : Nat) (q : BitVec 5) (age : Nat) (val : Word) (tag : Tag)
  | portPrefetch (core : Nat) (p : BitVec 4)
  | bankArbitration (core : Nat) (reqs : List BankReq)
  | loadPerforms (core : Nat)
  | storePerforms (core : Nat)
  | releaseTakesEffect (o : Origin) (sc : Scope) (age : Nat) (work : RelWork)
  | nestStep (core : Nat)
  | nestEnd (core : Nat)
  | operandCacheFill (core : Nat) (key : LineKey)
  | pageWalkComplete (core : Nat) (vf : BitVec 6) (space : BitVec 2) (write : Bool) (addr : Nat)
  | translationRemoval (vf : BitVec 6) (page : Nat)
  | galleyStart (id : Nat)
  | galleyAccept (id : Nat)
  | galleyLineWrite (id : Nat)
  | galleyRetire (id : Nat)
  | coalescerSend (line : Nat)
  | poolAck (line : Nat)
  | atomicAtWriteQueue (o : Origin) (req : AtomicReq) (d : Name) (remaining : Nat)
  | atomicResultLands (o : Origin) (d : Name) (val : Word)
  | tktakeAtDispenser (o : Origin) (tag : Tag) (n : BitVec 8) (d : Name)
  | ticketLands (o : Origin) (d : Name) (val : Word)
  | dispenserAdvance (core : Nat) (tag : Tag) (n : BitVec 8)
  | nowServingBroadcast (vf : BitVec 6) (n : BitVec 8) (val : BitVec 32)
  | tkwaitWake (o : Origin)
  | launchHandleReady (o : Origin) (d : Name) (val : Word)
  | waitlWake (o : Origin) (d : Name) (handle : Word)
  | kick (vf : BitVec 6) (val : Word)
  | registerWrite (vf : BitVec 6) (off : Nat) (val : Word)
  | kickAccept (vf : BitVec 6) (q : BitVec 4)
  | gangStart (launch : Nat)
  | kernelEnd (core : Nat)
  | launchRetire (launch : Nat)
  | graphChildStart (launch : Nat)
  | sliceEnd (gang : Nat)
  | priorityPreempt (gang launch : Nat)
  | gangResume (gang : Nat)
  | freezeGate (gang : Nat) (cause : FreezeCause) (o : Origin) (d : Name)
  | saveWritten (gang : Nat) (cause : FreezeCause) (o : Origin) (d : Name)
  | barrierClose (gang : Nat)
  | exchangePhaseEnd (gang : Nat)
  | gxchPublish (id : Nat)
  | gxchFetch (id : Nat)
  | gxchRetire (id : Nat)
  | colourPhase (core : Nat)
  | resurfaceUnit (u : UnitRef)
  | lapEnd
  | faultActionThaw (vf : BitVec 6) (area : Nat)
  | faultActionRestart (vf : BitVec 6) (area : Nat)
  | faultActionAbort (vf : BitVec 6) (area : Nat)
  | sharedStructureError (structureId : BitVec 8) (q : BitVec 2) (u : UnitRef)
  | hostMemAccess (vf : BitVec 6) (addr : Nat) (write : Option (List (BitVec 8))) (len : Nat)
  | frequencyChange (gang : Nat) (level : BitVec 4)
  | poolPortDown (port : BitVec 4)
  | bootPhase (ok : Bool)
  | mailboxProofRequest (cmd : BitVec 8) (req : List (BitVec 8))
  | mailboxComplete (code : BitVec 16) (rsp : List (BitVec 8))
  | flitReceive (port : BitVec 7) (flit : List (BitVec 8))
  | drainDone (port : BitVec 7)
  | flitReplay (port : BitVec 7)
  | replayTimeout (port : BitVec 7)
  | putArrive (p : Packet)
  | atomArrive (p : Packet)
  | pullArrive (p : Packet)
  | collArrive (m : CollMsg)
  | ploughArrive (port : BitVec 7) (p : Packet)
  | echoSend (port : BitVec 7) (vc : BitVec 2) (version : Bool) (round : BitVec 4)
  | echoArrive (port : BitVec 7) (p : Packet)
  | responseArrive (r : Response)
  | rackArrive (key : ReplyKey)
  | replyCacheFree (key : ReplyKey)
  | reissue (core : Nat) (tag : BitVec 16)
  | timeout (core : Nat) (tag : BitVec 16)
  | circuitReported (port : BitVec 7)
  | thermalEmergency
  | sensorTrip
  | mailboxLoad (patch press config : Nat × Nat)
  | mailboxAttest (nonce : List (BitVec 8)) (vf : BitVec 8)
  | mailboxLimit (watts : Nat)
  | mailboxThermal
  | coarsenedCounterSample
  | hostReset
  | supplyEmergency (level : BitVec 4)
  | thermalEmergencyEnd
  | poolPortRetrain (port : BitVec 4)
  | lossOfLight (port : BitVec 7) (group : BitVec 2)
  | retrainStart (port : BitVec 7) (wavelength : BitVec 4)
  | retrainDone (port : BitVec 7) (group : BitVec 2)
  | trainingDone (port : BitVec 7) (ok : Bool)
deriving DecidableEq, Repr

end Sys2Proof
end

