-- ==== Sys2Proof/Config.lean ====
section
/-! DEFINITION. What an implementation or a foreign standard fixes and the spec does not: free values, which have
no body, and the standards' functions the spec names without giving them (log entries 4, 5, 6, 30). -/

namespace Sys2Proof.Config

/-- The 16-bit value of draw n from a core's noise cells in entropy mode (R266): a free value. -/
opaque noise : Nat → BitVec 16

/-- The outcome of health test n of a noise source (R266): a free value; the cutoffs are not given. -/
opaque healthOk : Nat → Bool

/-- Which of the two FP32 values that bracket the exact result a special function returns (R114): true is the
greater. A fixed function of the function (0 exp2, 1 log2, 2 rcp, 3 rsq) and the input bits. -/
opaque faithfulUp : Nat → BitVec 32 → Bool

/-- The module's wrapping key (R329, R339), derived from a secret unique to the module. -/
opaque wrappingKey : List (BitVec 8)

/-- ECDSA P-521 under the vendor's key or the signing key (R332, R340): (r, s) of a digest, 132 bytes. -/
opaque attestSignature : List (BitVec 8) → List (BitVec 8)

/-- Whether an image's ECDSA P-521 signature verifies under the vendor public key in ROM (R332). -/
opaque signatureValid : List (BitVec 8) → Bool

/-- The bytes of the Proof ROM, which attestation hashes (R340). -/
opaque proofRom : List (BitVec 8)

/-- What the Proof patch answers to a mailbox command 0x10 to 0x7F, in a format that the patch sets (R402):
result code, response data, and the bytes it brings into Proof's management memory (offset, bytes). -/
opaque proofPatch : BitVec 8 → List (BitVec 8) → BitVec 16 × List (BitVec 8) × Nat × List (BitVec 8)

/-- Walker cycles that a line on its way to or from the pool or the host takes (R198, R242: set by the device), by the
number of the line. -/
opaque deviceDelay : Nat → Nat

/-- The 64-byte lines in which a partial sum travels between the members of a FRED (R384 seals each; no rule gives their
layout: log entry 53). -/
opaque partialLines : List PartialRow → List (List (BitVec 8))

/-- What the time of the domain that a module joins is ahead of its own, in nanoseconds, by the free value's number (R358: link
training distributes it; log entry 17). -/
opaque domainOffset : Nat → Nat

/-- Whether a line between two cores of a quarter, with so many hops still to go after the next, crosses a link of its row
next (R304 and R415 give the distance and no path; log entry 64). -/
opaque lateralRow : Nat → Nat → Nat → Bool

/-- The port of a pool physical address that lies in none of the interleave sets that Press has configured (R397 gives it
none; log entry 43). -/
opaque strayPort : Nat → Nat

/-- Walker cycles that the write coalescer keeps a line before it sends it (R233: in any order), by its number. -/
opaque coalescerDelay : Nat → Nat

/-- Whether the operand cache serves a unit from its line, or the vault as it stands (R142): by cycle, core and vault
address of the unit. -/
opaque cacheServes : Nat → Nat → Nat → Bool

/-- The payloads of the packets in which a group message other than a string travels between modules, and what the packets of
one tag say once they are whole: the sender's index, the kind of its word and the body (R351, R380: the headers are given and no
rule lays the payload out; log entry 47). -/
opaque collData : CollMsg → List (List (BitVec 8))
opaque collOf : List Packet → Option (Nat × CollKind × CollBody)

/-- The temperatures that the sensors read at reading n: junction maximum and coolant inlet, in 0.1 °C (R402). -/
opaque thermal : Nat → BitVec 16 × BitVec 16

/-- The module identifier that a configuration record gives (R347). -/
opaque moduleIdOf : List (BitVec 8) → BitVec 12

/-- Press's default slice, in µs (R291). -/
opaque defaultSlice : Nat

/-- Walker cycles of lap n of the resurfacer, at most 1 ms (R287) and never below 128 µs (R358). -/
opaque lapLength : Nat → Nat

/-- Whether Press finds a word of a core's status block at an address of its management window: the core and the word (R28,
R167: no rule gives the place; log entry 39). -/
opaque coreStatusAt : Nat → Option (Nat × Nat)

/-- Whether Press finds the telemetry of a VF at an address of its management window: the VF, and 0 for its traffic or 1 for
its power (R341: no rule gives the place; log entry 39). -/
opaque telemetryAt : Nat → Option (Nat × Nat)

/-- What Press's telemetry has measured of a VF at a cycle: its traffic and its power (R341: no rule says how; log entry
39). -/
opaque telemetry : Nat → Nat → Nat × Nat

/-- A byte of a save slot at an offset from 0x4_7000 on, in a save at a cycle (R315: the slot's layout names the state, not
its bytes). -/
opaque savedByte : Nat → Nat → BitVec 8

end Sys2Proof.Config
end

