-- ==== Sys2Proof/WellFormed.lean ====
section
/-! DEFINITION. The checks of R49 on the fields of an instruction, each with its place in the order of R49. An
instruction is well formed in a context when none fails. -/

namespace Sys2Proof

/-- The context a walker runs in (R331). -/
inductive Ctx | tenant | proof | press
deriving DecidableEq, Repr

/-- What decoding depends on besides the word: the context (check 2) and which lateral neighbours a queue
may name, bit 0 north, 1 east, 2 south, 3 west (check 6, R31). -/
structure DCtx where
  ctx : Ctx
  lateral : BitVec 4
deriving DecidableEq, Repr

/-- The classes a register field accepts (R59, R159, R191). -/
inductive Kind
  | src | dst | xAny | xNonzero | viewSrc | view | acc | viewOrAcc | codebook
deriving DecidableEq, Repr

/-- Whether a field of kind k accepts the name. -/
def Kind.accepts : Kind → Name → Bool
  | .src, .x _ | .src, .q _ | .src, .sp _ => true
  | .dst, .x _ | .dst, .q _ => true
  | .xAny, .x _ => true
  | .xNonzero, .x n => n ≠ 0
  | .viewSrc, .v _ | .viewSrc, .p _ => true
  | .view, .v _ => true
  | .acc, .a _ => true
  | .viewOrAcc, .v _ | .viewOrAcc, .a _ => true
  | .codebook, .k _ => true
  | _, _ => false

/-- Whether a field of kind k is a destination, so that a read-only special there fails check 4 of R49. -/
def Kind.isDst : Kind → Bool
  | .dst | .view | .acc | .viewOrAcc | .codebook => true
  | _ => false

def Name.isQueue : Name → Bool
  | .q _ => true
  | _ => false

def Name.isSpecial : Name → Bool
  | .sp _ => true
  | _ => false

/-- A failing check, by its place in R49; nothing when it holds. -/
def req (level : Nat) (ok : Bool) : List Nat := if ok then [] else [level]

/-- Checks 4, 5 and 6 of R49 on one register field. DESIGN CHOICE (log entry 67): a queue named in a field that takes no queue is
check 6, QUEUE, in a codebook field too, which R31 and R59 do not list and check 5 leaves out. -/
def Kind.check (k : Kind) (n : Name) : List Nat :=
  if k.accepts n then []
  else if k.isDst && n.isSpecial then [4]
  else if n.isQueue then [6] else [5]

/-- The direction of a lateral queue: 0 north, 1 east, 2 south, 3 west (R30). -/
def lateralDir (q : BitVec 5) : Nat := (q.toNat - 16) / 4

/-- Check 6 on the queues a word names: no lateral queue without a neighbour, and none both read and
written (R31). -/
def lateralCheck (c : DCtx) (reads writes : List Name) : List Nat :=
  let lat := fun n : Name => match n with
    | .q q => decide (16 ≤ q.toNat)
    | _ => false
  let bad := fun n : Name => match n with
    | .q q => decide (16 ≤ q.toNat) && !(c.lateral.getLsbD (lateralDir q))
    | _ => false
  req 6 (!((reads ++ writes).any bad) && !(reads.any (fun n => lat n && writes.contains n)))

/-- Checks of a word of scalar fields: a destination and sources. -/
def scalarCheck (c : DCtx) (d : List Name) (s : List Name) : List Nat :=
  d.flatMap Kind.dst.check ++ s.flatMap Kind.src.check ++ lateralCheck c s d

/-- Operand b under .X is a scalar source, otherwise a view source; TE.b only for a view (R160, check 7). -/
def bCheck (c : DCtx) (bx : Bool) (te : Te) (b : Name) : List Nat :=
  if bx then Kind.src.check b ++ lateralCheck c [b] [] ++ req 7 (!te.b) else Kind.viewSrc.check b

/-- The condition codes BR, CALL and RET accept, and the reserved reg field of cond 0 (R41). -/
def condCheck (c : DCtx) (cond : BitVec 4) (r : Name) : List Nat :=
  (if cond = 0 then req 3 (r = .x 0) else Kind.src.check r ++ lateralCheck c [r] [])
    ++ req 8 (cond.toNat < 8)

/-- Checks of a repeated M-format word (R39, R191): the names stay in their class. -/
def repeatCheck (d base : Name) (count : BitVec 7) : List Nat :=
  Kind.viewOrAcc.check d ++ Kind.xAny.check base ++
    req 8 (match d with
      | .v n => decide (n.toNat + count.toNat < 64)
      | .a n => decide (n.toNat + count.toNat < 16)
      | _ => true)

/-- The operand-format pairs MFMT accepts (R134). -/
def mfmtPairOk (a b : BitVec 8) : Bool :=
  if a = 5 then b = 5
  else (a = 2 || a = 3 || a = 4) && (b = 2 || b = 3 || b = 4 || b = 5 || b = 8 || b = 9)

/-- The context check of a privileged word (R49 check 2, R325, R389). -/
def privCheck (c : DCtx) (proof press : Bool) : List Nat :=
  req 2 (match c.ctx with
    | .tenant => false
    | .proof => proof
    | .press => press)

/-- A scalar or vector amount of a rotation or broadcast (R183): 0 to 63 along a row, 0 to 15 down a column. -/
def amountCheck (c : DCtx) (limit : Nat) : Amount → List Nat
  | .val n => req 8 (n.toNat < limit)
  | .reg r => Kind.src.check r ++ lateralCheck c [r] []

/-- The spill offset and data field of SPL and FIL (R72). -/
def spillCheck (size : BitVec 8) (d : Name) (off : BitVec 15) : List Nat :=
  (match size.toNat, d with
    | 0, d => Kind.xAny.check d
    | 1, .x n => req 5 (n.toNat % 8 = 0)
    | 2, d => Kind.xNonzero.check d
    | _, d => Kind.xAny.check d)
  ++ req 8 (size.toNat ≤ 2)
  ++ req 8 (off.toNat + 2 ^ (3 * (size.toNat + 1)) ≤ 2 ^ 14
      && off.toNat % 2 ^ (3 * (size.toNat + 1)) = 0)

/-- The failing checks 2 to 8 of R49 on an instruction's fields. The checks on bits that no field of the
instruction holds stand in Decode. A step of the part has no fields to check. -/
def Instr.check (c : DCtx) : Instr → List Nat
  | .nop _ | .halt _ | .trap _ _ | .mark _ | .fence _ _ | .fork _ | .rdv _ | .ssb _ => []
  | .mocinv _ | .xfence _ | .gcntc _ | .ffence _ _ | .tknext _ _ _ | .mgo _ _ | .fbar _ _ _ => []
  | .li _ d _ => scalarCheck c [d] []
  | .liu _ d _ => Kind.xNonzero.check d
  | .semi _ n _ => req 8 (1 ≤ n.toNat && n.toNat ≤ 15)
  | .slipw _ w => req 8 (16 ≤ w.toNat && w.toNat ≤ 4096)
  | .view _ d a f => Kind.viewOrAcc.check d ++ scalarCheck c [] [a] ++
      req 8 (match d with
        | .a _ => f = 0x0A
        | _ => f = 1 || f = 2 || f = 3 || f = 4 || f = 5 || f = 6 || f = 0x0B)
  | .add _ d a b | .sub _ d a b | .mul _ d a b | .mulh _ _ d a b | .and _ d a b | .or _ d a b
  | .xor _ d a b | .shl _ d a b | .shr _ d a b | .sar _ d a b | .min _ _ d a b | .max _ _ d a b
  | .slt _ d a b | .sltu _ d a b => scalarCheck c [d] [a, b]
  | .sel _ d a b => Kind.xNonzero.check d ++ scalarCheck c [] [a, b]
  | .clz _ d a | .popc _ d a | .addi _ d a _ | .andi _ d a _ | .ori _ d a _ => scalarCheck c [d] [a]
  | .br _ cd r _ | .call _ cd r _ | .ret _ cd r => condCheck c cd r
  | .loop _ cd r _ => (if cd = 0 then req 3 (r = .x 0) else Kind.xNonzero.check r) ++ req 8 (cd = 2 || cd = 5)
  | .ld _ size sx _ d a b => req 3 (!(sx && size = 3)) ++ scalarCheck c [d] [a, b]
  | .st _ _ _ d a b => scalarCheck c [] [d, a, b]
  | .lda _ size sx _ _ d a => req 3 (!(sx && size = 3)) ++ scalarCheck c [d] [a]
  | .stl _ _ _ _ d a => scalarCheck c [] [d, a]
  | .spl _ size d off | .fil _ size d off => spillCheck size d off
  | .tdef _ card _ => Kind.xNonzero.check card
  | .trd _ d _ f => scalarCheck c [d] [] ++ req 8 (f.toNat ≤ 18)
  | .launch _ d a b _ => scalarCheck c [d] [a, b]
  | .waitl _ d a => scalarCheck c [d] [a]
  | .aadd _ _ d a b | .amin _ _ _ d a b | .amax _ _ _ d a b | .aand _ _ d a b | .aor _ _ d a b
  | .axchg _ _ d a b => scalarCheck c [d] [a, b]
  | .acas _ _ d a b => Kind.xNonzero.check d ++ scalarCheck c [] [a, b]
  | .tktake _ d _ => scalarCheck c [d] []
  | .tkwait _ _ _ a => scalarCheck c [] [a]
  | .genadv _ d a => privCheck c true false ++ [d, a].flatMap Kind.xAny.check
  | .psetRun _ d a => privCheck c true false ++ [d, a].flatMap Kind.xAny.check
  | .psetStop _ d a b | .psetMap _ d a b | .keyld _ d a b | .polset _ d a b =>
      privCheck c true false ++ [d, a, b].flatMap Kind.xAny.check
  | .frz _ d a b | .thaw _ d a b => privCheck c true true ++ [d, a, b].flatMap Kind.xAny.check
  | .keyerase _ all d a b => privCheck c true false ++ [d, a, b].flatMap Kind.xAny.check
      ++ req 3 (!all || b = .x 0)
  | .lapw _ d => privCheck c true true ++ Kind.xAny.check d
  | .rep h tag _ _ _ => req 1 (tag ≠ 7) ++ req 3 (!(tag = 6) || (h.wait = 0 && h.post = 0))
  | .vadd _ te bx _ _ d a b | .vsub _ te bx _ _ d a b | .vmul _ te bx _ _ d a b | .vfma _ te bx _ _ d a b
  | .vmin _ te bx _ d a b | .vmax _ te bx _ d a b | .vand _ te bx d a b | .vor _ te bx d a b
  | .vxor _ te bx d a b | .vshl _ te bx d a b | .vshr _ te bx d a b | .vsar _ te bx d a b =>
      Kind.view.check d ++ Kind.viewSrc.check a ++ bCheck c bx te b
  | .vcmp _ te bx _ _ d a b => Kind.view.check d ++ Kind.viewSrc.check a ++ bCheck c bx te b
  | .vsel _ _ d a b | .vcomp _ _ d a b | .vsfc _ _ _ d a b =>
      Kind.view.check d ++ Kind.viewSrc.check a ++ Kind.viewSrc.check b
  | .vabs _ _ _ _ d a | .vneg _ _ _ _ d a | .vcvt _ _ _ _ d a | .vexp2 _ _ _ _ d a
  | .vlog2 _ _ _ _ d a | .vrcp _ _ _ _ d a | .vrsq _ _ _ _ d a | .vrnd _ _ _ d a
  | .vmov _ _ d a | .vredr _ _ _ _ d a | .vredc _ _ _ _ d a => Kind.view.check d ++ Kind.viewSrc.check a ++ []
  | .vscanr _ _ _ _ _ d a => Kind.view.check d ++ Kind.viewSrc.check a
  | .vsplat _ d a | .viota _ _ d a => Kind.view.check d ++ scalarCheck c [] [a]
  | .vgets _ _ d a b => scalarCheck c [d] [b] ++ Kind.view.check a
  | .vgetsSt _ _ d => scalarCheck c [d] []
  | .vrotr _ _ d a n | .vbcr _ _ d a n => Kind.view.check d ++ Kind.viewSrc.check a ++ amountCheck c 64 n
  | .vrotc _ _ d a n | .vbcc _ _ d a n => Kind.view.check d ++ Kind.viewSrc.check a ++ amountCheck c 16 n
  | .vlut _ _ _ _ d a k => Kind.view.check d ++ Kind.viewSrc.check a ++ Kind.codebook.check k
  | .vacc _ _ d a => Kind.acc.check d ++ Kind.viewSrc.check a
  | .vld _ d b _ n | .vst _ d b _ n => repeatCheck d b n
  | .mnest _ l a b => [a, b].flatMap Kind.xAny.check ++ req 8 (l.toNat ≤ 5)
  | .mopd _ card isB src => Kind.xAny.check card ++ req 8 (match isB, src with
      | true, .port _ => false
      | true, .acc _ => false
      | _, _ => true)
  | .mfmt _ a b _ _ _ => req 8 (mfmtPairOk a b)
  | .mdst _ d | .minit _ d _ | .mzero _ d | .mnorm _ d => Kind.acc.check d
  | .mdrain _ te f zp _ d a vs => Kind.view.check d ++ Kind.acc.check a ++ req 7 (!te.b || vs.isSome)
      ++ req 8 (f.toNat ≤ 4) ++ req 8 (!zp || (match vs with
        | some v => v.toNat < 63
        | none => false))
  | .mstat _ d a row => scalarCheck c [d] [] ++ Kind.acc.check a ++ req 8 (row.toNat ≤ 16)
  | .merrq _ _ d | .xstat _ _ d => scalarCheck c [d] []
  | .mcbld _ d a => Kind.codebook.check d ++ Kind.xAny.check a
  | .mrsum _ _ _ d a => Kind.view.check d ++ Kind.acc.check a
  | .xcopy _ _ card _ | .xgath _ _ card _ | .xscat _ _ card _ | .xcopyv _ _ card _
  | .xfill _ _ card _ => Kind.xNonzero.check card
  | .xpref _ card _ => Kind.xNonzero.check card
  | .gload _ card _ | .gbias _ card _ => Kind.xAny.check card
  | .gcolr _ _ n a b => Kind.view.check a ++ Kind.xAny.check b ++ req 8 (1 ≤ n.toNat && n.toNat ≤ 16)
  | .gbeta _ a | .gseed _ a => scalarCheck c [] [a]
  | .gmode _ _ _ n => req 8 (1 ≤ n.toNat && n.toNat ≤ 8192)
  | .gclmp _ _ a b => Kind.view.check a ++ Kind.view.check b
  | .gfree _ _ a => Kind.view.check a
  | .gswp _ k => req 8 (1 ≤ k.toNat && k.toNat < 2 ^ 14)
  | .grds _ d => Kind.view.check d
  | .grdc _ d a | .grdf _ d a => Kind.view.check d ++ Kind.xAny.check a
  | .gxch _ card => Kind.xNonzero.check card
  | .gstat _ clr s d => scalarCheck c [d] [] ++ req 8 (s.toNat ≤ 4 && (!clr || s = 0))
  | .fput _ _ card _ _ | .fpull _ card _ | .fred _ card _ _ _ | .fbcst _ card _ _ _ | .fa2a _ card _ _ _
  | .rpart _ card _ _ _ => Kind.xNonzero.check card
  | .fatom _ op _ _ d a b => (match op with
      | .cas => Kind.xNonzero.check d ++ scalarCheck c [] [a, b]
      | _ => scalarCheck c [d] [a, b])
  | .fcnt _ _ d _ => scalarCheck c [d] []
  | .fgrp _ card _ => Kind.xAny.check card
  | .fstat _ s d => scalarCheck c [d] [] ++ req 8 (s.toNat ≤ 2)
  | .frout _ d a => privCheck c false true ++ [d, a].flatMap Kind.xAny.check
  | .froutLd _ d a b | .fplow _ d a b | .fplowFree _ d a b | .flnkDown _ d a b | .flnkTrain _ d a b
  | .flnkDrain _ d a b | .flnkRelock _ d a b | .flnkQuery _ d a b =>
      privCheck c false true ++ [d, a, b].flatMap Kind.xAny.check
  | .trapFreeze .. | .gangFreezeFollow .. | .scalarResultLands .. | .vectorResultLands ..
  | .longLatencyWriteComplete .. | .queueEntryArrives .. | .portPrefetch .. | .bankArbitration ..
  | .loadPerforms .. | .storePerforms .. | .releaseTakesEffect .. | .nestStep .. | .nestEnd ..
  | .operandCacheFill .. | .pageWalkComplete .. | .translationRemoval .. | .galleyStart ..
  | .galleyAccept .. | .galleyLineWrite .. | .galleyRetire .. | .coalescerSend .. | .poolAck ..
  | .atomicAtWriteQueue .. | .atomicResultLands .. | .tktakeAtDispenser .. | .ticketLands ..
  | .dispenserAdvance .. | .nowServingBroadcast .. | .tkwaitWake .. | .launchHandleReady ..
  | .waitlWake .. | .kick .. | .registerWrite .. | .kickAccept .. | .gangStart .. | .kernelEnd ..
  | .launchRetire .. | .graphChildStart .. | .sliceEnd .. | .priorityPreempt .. | .gangResume ..
  | .freezeGate .. | .saveWritten .. | .barrierClose .. | .exchangePhaseEnd .. | .gxchPublish ..
  | .gxchFetch .. | .gxchRetire .. | .colourPhase .. | .resurfaceUnit .. | .lapEnd
  | .faultActionThaw .. | .faultActionRestart .. | .faultActionAbort .. | .sharedStructureError ..
  | .hostMemAccess .. | .sensorTrip | .thermalEmergency | .frequencyChange .. | .poolPortDown ..
  | .bootPhase .. | .mailboxLoad .. | .mailboxAttest .. | .mailboxLimit .. | .mailboxThermal
  | .mailboxProofRequest .. | .mailboxComplete .. | .flitReceive .. | .flitReplay .. | .replayTimeout ..
  | .putArrive .. | .atomArrive .. | .pullArrive .. | .collArrive .. | .ploughArrive .. | .echoSend ..
  | .echoArrive .. | .responseArrive .. | .rackArrive .. | .replyCacheFree .. | .reissue .. | .timeout ..
  | .lossOfLight .. | .retrainStart .. | .retrainDone .. | .trainingDone .. | .drainDone ..
  | .circuitReported .. | .coarsenedCounterSample | .hostReset | .supplyEmergency ..
  | .thermalEmergencyEnd | .poolPortRetrain .. => []

/-- Well formed in a context: no check of R49 on its fields fails. -/
def Instr.WellFormed (c : DCtx) (i : Instr) : Prop := i.check c = []

/-- The check as a Bool. -/
def Instr.wellFormed (c : DCtx) (i : Instr) : Bool := (i.check c).isEmpty

end Sys2Proof
end

