-- ==== Sys2Proof/Decode.lean ====
section
/-! DEFINITION. Decoding a 48-bit word into an instruction or a trap (R36 to R49), and after it the encoder,
written from the same tables. The checks that rest on bits no field of the instruction holds stand here; those on
its fields stand in WellFormed. -/

namespace Sys2Proof

/-! ## Fields of numbers, sign extension and byte order (R2, R3, R8) -/

/-- `bits x h l` of R2, on a natural number: bits h down to l. -/
def bitsOf (x h l : Nat) : Nat := (x / 2 ^ l) % 2 ^ (h + 1 - l)

/-- A single bit of a natural number. -/
def bitOf (x n : Nat) : Bool := (x / 2 ^ n) % 2 = 1

/-- The n low bits of x read as two's complement (the value `sext` of R8 extends). -/
def signedOf (n x : Nat) : Int :=
  let y := x % 2 ^ n
  if 2 * y < 2 ^ n then (y : Int) else (y : Int) - (2 ^ n : Nat)

/-- `sext` of R8: the low n bits as a signed value, in 64 bits. -/
def sextWord (n : Nat) (x : Nat) : Word := BitVec.ofInt 64 (signedOf n x)

/-- `zext` of R8: the low n bits as an unsigned value, in 64 bits. -/
def zextWord (n : Nat) (x : Nat) : Word := BitVec.ofNat 64 (x % 2 ^ n)

/-- The number that bytes hold, the first the least significant (R3). -/
def leNat : List Byte → Nat
  | [] => 0
  | b :: bs => b.toNat + 256 * leNat bs

/-- n bytes of a number, the least significant first (R3). -/
def leBytes : Nat → Nat → List Byte
  | 0, _ => []
  | n + 1, x => BitVec.ofNat 8 x :: leBytes n (x / 256)

/-! ## Codes of the small fields -/

/-- R42. -/
def Special.code : Special → BitVec 3
  | .core => 0 | .gang => 1 | .vf => 2 | .gen => 3 | .step => 4 | .clk => 5 | .slipnow => 6 | .bankloss => 7

def Special.ofCode (b : BitVec 3) : Special :=
  if b = 0 then .core else if b = 1 then .gang else if b = 2 then .vf else if b = 3 then .gen
  else if b = 4 then .step else if b = 5 then .clk else if b = 6 then .slipnow else .bankloss

/-- The 8-bit name of a register (R42). -/
def Name.code : Name → BitVec 8
  | .x n => 0#2 ++ n
  | .v n => 1#2 ++ n
  | .a n => 8#4 ++ n
  | .p n => 9#4 ++ n
  | .q n => 5#3 ++ n
  | .k n => 24#5 ++ n
  | .sp r => 25#5 ++ r.code

/-- The register an 8-bit name names; 0xD0 to 0xFF are reserved (R42). -/
def Name.ofCode (b : BitVec 8) : Option Name :=
  if b.extractLsb' 6 2 = 0 then some (.x (b.extractLsb' 0 6))
  else if b.extractLsb' 6 2 = 1 then some (.v (b.extractLsb' 0 6))
  else if b.extractLsb' 4 4 = 8 then some (.a (b.extractLsb' 0 4))
  else if b.extractLsb' 4 4 = 9 then some (.p (b.extractLsb' 0 4))
  else if b.extractLsb' 5 3 = 5 then some (.q (b.extractLsb' 0 5))
  else if b.extractLsb' 3 5 = 24 then some (.k (b.extractLsb' 0 3))
  else if b.extractLsb' 3 5 = 25 then some (.sp (Special.ofCode (b.extractLsb' 0 3)))
  else none

/-- The name in a field; x0 stands in for a reserved name, which `badName` reports. -/
def nameIn (b : BitVec 8) : Name := (Name.ofCode b).getD (.x 0)

/-- Check 4 of R49 on a register field. -/
def badName (b : BitVec 8) : List Nat := req 4 (Name.ofCode b).isSome

/-- R40. -/
def Scope.code : Scope → BitVec 3
  | .core => 0 | .chip => 1 | .ten => 2 | .dom => 3 | .sys => 4

def Scope.ofCode (b : BitVec 3) : Option Scope :=
  if b = 0 then some .core else if b = 1 then some .chip else if b = 2 then some .ten
  else if b = 3 then some .dom else if b = 4 then some .sys else none

def scopeIn (b : BitVec 3) : Scope := (Scope.ofCode b).getD .core

/-- Check 8 of R49 on a scope. -/
def badScope (b : BitVec 3) : List Nat := req 8 (Scope.ofCode b).isSome

/-- R94. -/
def Rnd.code : Rnd → BitVec 2
  | .rne => 0 | .rz => 1 | .ru => 2 | .rd => 3

def Rnd.ofCode (b : BitVec 2) : Rnd :=
  if b = 0 then .rne else if b = 1 then .rz else if b = 2 then .ru else .rd

/-- R44. -/
def AtomOp.code : AtomOp → BitVec 3
  | .add => 0 | .min => 1 | .max => 2 | .and => 3 | .or => 4 | .xchg => 5 | .cas => 6

def AtomOp.ofCode (b : BitVec 3) : AtomOp :=
  if b = 0 then .add else if b = 1 then .min else if b = 2 then .max else if b = 3 then .and
  else if b = 4 then .or else if b = 5 then .xchg else .cas

/-- R169. -/
def RedOp.code : RedOp → BitVec 3
  | .add => 0 | .max => 1 | .min => 2 | .and => 3 | .or => 4 | .maxu => 5 | .minu => 6

def RedOp.ofCode (b : BitVec 3) : RedOp :=
  if b = 0 then .add else if b = 1 then .max else if b = 2 then .min else if b = 3 then .and
  else if b = 4 then .or else if b = 5 then .maxu else .minu

/-- R169. -/
def CmpOp.code : CmpOp → BitVec 3
  | .eq => 0 | .ne => 1 | .lt => 2 | .le => 3 | .gt => 4 | .ge => 5 | .un => 6

def CmpOp.ofCode (b : BitVec 3) : CmpOp :=
  if b = 0 then .eq else if b = 1 then .ne else if b = 2 then .lt else if b = 3 then .le
  else if b = 4 then .gt else if b = 5 then .ge else .un

/-- R169. -/
def SfcMode.code : SfcMode → BitVec 2
  | .morton2 => 0 | .hilbert2 => 1 | .morton3 => 2 | .hilbert3 => 3

def SfcMode.ofCode (b : BitVec 2) : SfcMode :=
  if b = 0 then .morton2 else if b = 1 then .hilbert2 else if b = 2 then .morton3 else .hilbert3

/-- The tag of a walker's own words (R36). -/
def Walker.tag : Walker → BitVec 3
  | .C => 0 | .V => 1 | .M => 2 | .X => 3 | .G => 4 | .F => 5

/-! ## Fields (R36, R38) -/

def fTag (w : IWord) : BitVec 3 := w.extractLsb' 45 3
def fOp (w : IWord) : BitVec 6 := w.extractLsb' 39 6
def fWait (w : IWord) : BitVec 4 := w.extractLsb' 35 4
def fPost (w : IWord) : BitVec 4 := w.extractLsb' 31 4
/-- Bits 30:23: dest, data, card or count. -/
def fD (w : IWord) : BitVec 8 := w.extractLsb' 23 8
/-- Bits 22:15: a, base or register step. -/
def fA (w : IWord) : BitVec 8 := w.extractLsb' 15 8
/-- Bits 14:7: b, or the signed step of format M. -/
def fB (w : IWord) : BitVec 8 := w.extractLsb' 7 8
def fTeA (w : IWord) : BitVec 1 := w.extractLsb' 6 1
def fTeB (w : IWord) : BitVec 1 := w.extractLsb' 5 1
def fMod (w : IWord) : BitVec 5 := w.extractLsb' 0 5
def fImm15 (w : IWord) : BitVec 15 := w.extractLsb' 0 15
def fImm23 (w : IWord) : BitVec 23 := w.extractLsb' 0 23
def fCount (w : IWord) : BitVec 7 := w.extractLsb' 0 7
def fCond (w : IWord) : BitVec 4 := w.extractLsb' 27 4
def fReg (w : IWord) : BitVec 8 := w.extractLsb' 19 8
def fOff (w : IWord) : BitVec 19 := w.extractLsb' 0 19
def fTensor (w : IWord) : BitVec 12 := w.extractLsb' 11 12
def fGMod (w : IWord) : BitVec 11 := w.extractLsb' 0 11
def fLow (w : IWord) : BitVec 31 := w.extractLsb' 0 31

/-- The header of a word. -/
def hdrOf (w : IWord) : Hdr := ⟨fWait w, fPost w⟩

def teOf (w : IWord) : Te := ⟨fTeA w = 1, fTeB w = 1⟩

/-- Check 7 of R49 where an operand can be no view. -/
def noTeA (w : IWord) : List Nat := req 7 (fTeA w = 0)
def noTeB (w : IWord) : List Nat := req 7 (fTeB w = 0)
def noTe (w : IWord) : List Nat := noTeA w ++ noTeB w

/-- Check 3 of R49: bits that must be zero. -/
def zero3 {n : Nat} (b : BitVec n) : List Nat := req 3 (b = 0)

/-! ## Parsing: the instruction of a word and the checks that fail on bits its fields do not hold -/

abbrev Parsed := Option (Instr × List Nat)

/-- The register fields of a format-R word. -/
def badDAB (w : IWord) : List Nat := badName (fD w) ++ badName (fA w) ++ badName (fB w)
def badDA (w : IWord) : List Nat := badName (fD w) ++ badName (fA w)

/-- Three register names and mod all zero, without TE bits. -/
def rDAB (w : IWord) (f : Name → Name → Name → Instr) : Parsed :=
  some (f (nameIn (fD w)) (nameIn (fA w)) (nameIn (fB w)), badDAB w ++ noTe w ++ zero3 (fMod w))

/-- As `rDAB`, with .U in mod bit 0. -/
def rDABU (w : IWord) (f : Bool → Name → Name → Name → Instr) : Parsed :=
  some (f ((fMod w).getLsbD 0) (nameIn (fD w)) (nameIn (fA w)) (nameIn (fB w)),
    badDAB w ++ noTe w ++ zero3 ((fMod w).extractLsb' 1 4))

/-- Two register names, b and mod zero. -/
def rDA (w : IWord) (f : Name → Name → Instr) : Parsed :=
  some (f (nameIn (fD w)) (nameIn (fA w)), badDA w ++ zero3 (fB w) ++ noTe w ++ zero3 (fMod w))

/-- One register name in dest, a and b zero, .CLR in mod bit 0. -/
def rDClr (w : IWord) (f : Bool → Name → Instr) : Parsed :=
  some (f ((fMod w).getLsbD 0) (nameIn (fD w)),
    badName (fD w) ++ zero3 (fA w) ++ zero3 (fB w) ++ noTe w ++ zero3 ((fMod w).extractLsb' 1 4))

/-- One register name in dest, everything else zero. -/
def rD (w : IWord) (f : Name → Instr) : Parsed :=
  some (f (nameIn (fD w)), badName (fD w) ++ zero3 (fA w) ++ zero3 (fB w) ++ noTe w ++ zero3 (fMod w))

/-- Format I with two names. -/
def iDA (w : IWord) (f : Name → Name → BitVec 15 → Instr) : Parsed :=
  some (f (nameIn (fD w)) (nameIn (fA w)) (fImm15 w), badDA w)

/-- The scope word in b (R40). -/
def scopeWord (w : IWord) : List Nat := zero3 ((fB w).extractLsb' 3 5) ++ badScope ((fB w).extractLsb' 0 3)
def scopeB (w : IWord) : Scope := scopeIn ((fB w).extractLsb' 0 3)

/-- Format B. -/
def bWord (w : IWord) (f : BitVec 4 → Name → BitVec 19 → Instr) : Parsed :=
  some (f (fCond w) (nameIn (fReg w)) (fOff w),
    if fCond w = 0 then zero3 (fReg w) else badName (fReg w))

/-- An atomic of R44 or R374, its operator in mod bits 4:2. -/
def atomWord (w : IWord) (f : AtomOp → Bool → Bool → Name → Name → Name → Instr) : Parsed :=
  let o := (fMod w).extractLsb' 2 3
  some (f (AtomOp.ofCode o) ((fMod w).getLsbD 1) ((fMod w).getLsbD 0)
      (nameIn (fD w)) (nameIn (fA w)) (nameIn (fB w)),
    badDAB w ++ noTe w ++ req 8 (o ≠ 7) ++ req 3 (o = 1 || o = 2 || !(fMod w).getLsbD 0))

/-- Tag C (R43). -/
def parseC (op : BitVec 6) (h : Hdr) (w : IWord) : Parsed :=
  if op = 0x00 then some (.nop h, zero3 (fLow w))
  else if op = 0x01 then some (.halt h, zero3 (fLow w))
  else if op = 0x02 then some (.li h (nameIn (fD w)) (fImm23 w), badName (fD w))
  else if op = 0x03 then some (.liu h (nameIn (fD w)) (fImm23 w), badName (fD w))
  else if op = 0x04 then some (.trap h (fImm23 w), zero3 (fD w))
  else if op = 0x05 then some (.semi h (fD w) ((fImm15 w).extractLsb' 0 8),
    zero3 (fA w) ++ zero3 ((fImm15 w).extractLsb' 8 7))
  else if op = 0x06 then some (.slipw h ((fImm15 w).extractLsb' 0 13),
    zero3 (fD w) ++ zero3 (fA w) ++ zero3 ((fImm15 w).extractLsb' 13 2))
  else if op = 0x07 then some (.view h (nameIn (fD w)) (nameIn (fA w)) ((fImm15 w).extractLsb' 0 8),
    badDA w ++ zero3 ((fImm15 w).extractLsb' 8 7))
  else if op = 0x08 then rDAB w (.add h)
  else if op = 0x09 then rDAB w (.sub h)
  else if op = 0x0A then rDAB w (.mul h)
  else if op = 0x0B then rDABU w (.mulh h)
  else if op = 0x0C then rDAB w (.and h)
  else if op = 0x0D then rDAB w (.or h)
  else if op = 0x0E then rDAB w (.xor h)
  else if op = 0x0F then rDAB w (.shl h)
  else if op = 0x10 then rDAB w (.shr h)
  else if op = 0x11 then rDAB w (.sar h)
  else if op = 0x12 then rDABU w (.min h)
  else if op = 0x13 then rDABU w (.max h)
  else if op = 0x14 then rDAB w (.slt h)
  else if op = 0x15 then rDAB w (.sltu h)
  else if op = 0x16 then rDAB w (.sel h)
  else if op = 0x17 then rDA w (.clz h)
  else if op = 0x18 then rDA w (.popc h)
  else if op = 0x19 then iDA w (.addi h)
  else if op = 0x1A then iDA w (.andi h)
  else if op = 0x1B then iDA w (.ori h)
  else if op = 0x1C then bWord w (.br h)
  else if op = 0x1D then bWord w (.call h)
  else if op = 0x1E then some (.ret h (fCond w) (nameIn (fReg w)),
    (if fCond w = 0 then zero3 (fReg w) else badName (fReg w)) ++ zero3 (fOff w))
  else if op = 0x1F then bWord w (.loop h)
  else if op = 0x20 then some (.ld h ((fMod w).extractLsb' 0 2) ((fMod w).getLsbD 3) ((fMod w).getLsbD 2)
      (nameIn (fD w)) (nameIn (fA w)) (nameIn (fB w)),
    badDAB w ++ noTe w ++ zero3 ((fMod w).extractLsb' 4 1))
  else if op = 0x21 then some (.st h ((fMod w).extractLsb' 0 2) ((fMod w).getLsbD 2)
      (nameIn (fD w)) (nameIn (fA w)) (nameIn (fB w)),
    badDAB w ++ noTe w ++ zero3 ((fMod w).extractLsb' 3 2))
  else if op = 0x22 then some (.lda h ((fMod w).extractLsb' 0 2) ((fMod w).getLsbD 3) ((fMod w).getLsbD 2)
      (scopeB w) (nameIn (fD w)) (nameIn (fA w)),
    badDA w ++ scopeWord w ++ noTe w ++ zero3 ((fMod w).extractLsb' 4 1))
  else if op = 0x23 then some (.stl h ((fMod w).extractLsb' 0 2) ((fMod w).getLsbD 2)
      (scopeB w) (nameIn (fD w)) (nameIn (fA w)),
    badDA w ++ scopeWord w ++ noTe w ++ zero3 ((fMod w).extractLsb' 3 2))
  else if op = 0x24 then some (.mark h, zero3 (fLow w))
  else if op = 0x25 then some (.fence h (scopeB w),
    zero3 (fD w) ++ zero3 (fA w) ++ scopeWord w ++ noTe w ++ zero3 (fMod w))
  else if op = 0x26 then some (.spl h (fA w) (nameIn (fD w)) (fImm15 w), badName (fD w))
  else if op = 0x27 then some (.fil h (fA w) (nameIn (fD w)) (fImm15 w), badName (fD w))
  else if op = 0x28 then some (.tdef h (nameIn (fD w)) (fTensor w), badName (fD w) ++ zero3 (fGMod w))
  else if op = 0x29 then some (.trd h (nameIn (fD w)) (fTensor w) ((fGMod w).extractLsb' 0 5),
    badName (fD w) ++ zero3 ((fGMod w).extractLsb' 5 6))
  else if op = 0x2A then some (.launch h (nameIn (fD w)) (nameIn (fA w)) (nameIn (fB w))
      ((fMod w).extractLsb' 0 4),
    badDAB w ++ noTe w ++ zero3 ((fMod w).extractLsb' 4 1))
  else if op = 0x2B then rDA w (.waitl h)
  else if op = 0x2C then atomWord w (fun o dbl u d a b => match o with
    | .add => .aadd h dbl d a b
    | .min => .amin h dbl u d a b
    | .max => .amax h dbl u d a b
    | .and => .aand h dbl d a b
    | .or => .aor h dbl d a b
    | .xchg => .axchg h dbl d a b
    | .cas => .acas h dbl d a b)
  else if op = 0x2D then some (.tktake h (nameIn (fD w)) (fA w),
    badName (fD w) ++ zero3 (fB w) ++ noTe w ++ zero3 (fMod w))
  else if op = 0x2E then some (.tkwait h (scopeB w) (fD w) (nameIn (fA w)),
    badName (fA w) ++ scopeWord w ++ noTe w ++ zero3 (fMod w))
  else if op = 0x2F then some (.tknext h (scopeB w) (fD w),
    zero3 (fA w) ++ scopeWord w ++ noTe w ++ zero3 (fMod w))
  else if op = 0x30 then rDA w (.genadv h)
  else if op = 0x31 then
    let form := (fMod w).extractLsb' 0 2
    if form = 0 then some (.psetRun h (nameIn (fD w)) (nameIn (fA w)),
      badDA w ++ zero3 (fB w) ++ noTe w ++ zero3 ((fMod w).extractLsb' 2 3))
    else if form = 1 then some (.psetStop h (nameIn (fD w)) (nameIn (fA w)) (nameIn (fB w)),
      badDAB w ++ noTe w ++ zero3 ((fMod w).extractLsb' 2 3))
    else some (.psetMap h (nameIn (fD w)) (nameIn (fA w)) (nameIn (fB w)),
      badDAB w ++ noTe w ++ zero3 ((fMod w).extractLsb' 2 3) ++ req 8 (form ≠ 3))
  else if op = 0x32 then rDAB w (.frz h)
  else if op = 0x33 then rDAB w (.thaw h)
  else if op = 0x34 then rDAB w (.keyld h)
  else if op = 0x35 then rDABU w (.keyerase h)
  else if op = 0x36 then rD w (.lapw h)
  else if op = 0x37 then rDAB w (.polset h)
  else none

/-- Operand words of two view sources with .X in mod bit 4 (R169). -/
def vBin (w : IWord) (f : Te → Bool → Name → Name → Name → Instr) (free : List Nat) : Parsed :=
  some (f (teOf w) ((fMod w).getLsbD 4) (nameIn (fD w)) (nameIn (fA w)) (nameIn (fB w)), badDAB w ++ free)

/-- VADD, VSUB, VMUL, VFMA. -/
def vArith (w : IWord) (f : Te → Bool → Bool → Rnd → Name → Name → Name → Instr) : Parsed :=
  some (f (teOf w) ((fMod w).getLsbD 4) ((fMod w).getLsbD 2) (Rnd.ofCode ((fMod w).extractLsb' 0 2))
      (nameIn (fD w)) (nameIn (fA w)) (nameIn (fB w)),
    badDAB w ++ zero3 ((fMod w).extractLsb' 3 1))

/-- VABS, VNEG, VCVT and the special functions. -/
def vUnary (w : IWord) (f : Bool → Bool → Rnd → Name → Name → Instr) : Parsed :=
  some (f (teOf w).a ((fMod w).getLsbD 2) (Rnd.ofCode ((fMod w).extractLsb' 0 2))
      (nameIn (fD w)) (nameIn (fA w)),
    badDA w ++ zero3 (fB w) ++ noTeB w ++ zero3 ((fMod w).extractLsb' 3 2))

/-- The amount of a rotation or broadcast (R183). -/
def amountIn (w : IWord) : Amount :=
  if (fMod w).getLsbD 4 then .reg (nameIn (fB w)) else .val ((fB w).extractLsb' 0 6)

def vRot (w : IWord) (f : Bool → Name → Name → Amount → Instr) : Parsed :=
  some (f (teOf w).a (nameIn (fD w)) (nameIn (fA w)) (amountIn w),
    badDA w ++ (if (fMod w).getLsbD 4 then badName (fB w) else req 8 ((fB w).extractLsb' 6 2 = 0))
      ++ noTeB w ++ zero3 ((fMod w).extractLsb' 0 4))

/-- VREDR and VREDC. -/
def vRed (w : IWord) (f : Bool → RedOp → Bool → Name → Name → Instr) : Parsed :=
  some (f (teOf w).a (RedOp.ofCode ((fMod w).extractLsb' 2 3)) ((fMod w).getLsbD 1)
      (nameIn (fD w)) (nameIn (fA w)),
    badDA w ++ zero3 (fB w) ++ noTeB w ++ req 8 ((fMod w).extractLsb' 2 3 ≠ 7)
      ++ zero3 ((fMod w).extractLsb' 0 1))

/-- VSEL and VCOMP. -/
def vTwo (w : IWord) (f : Te → Name → Name → Name → Instr) : Parsed :=
  some (f (teOf w) (nameIn (fD w)) (nameIn (fA w)) (nameIn (fB w)), badDAB w ++ zero3 (fMod w))

/-- VLD and VST (R191). -/
def mWord (w : IWord) (f : Name → Name → BitVec 8 → BitVec 7 → Instr) : Parsed :=
  some (f (nameIn (fD w)) (nameIn (fA w)) (fB w) (fCount w), badDA w)

/-- Tag V (R45). DESIGN CHOICE (log entry 63): field b of VSFC may name a port; R189 grants a port to a only and calls b an
FP32 view, where the chapter's notation lets a b source be a port. -/
def parseV (op : BitVec 6) (h : Hdr) (w : IWord) : Parsed :=
  if op = 0x00 then vArith w (.vadd h)
  else if op = 0x01 then vArith w (.vsub h)
  else if op = 0x02 then vArith w (.vmul h)
  else if op = 0x03 then vArith w (.vfma h)
  else if op = 0x04 then vBin w (fun te x => .vmin h te x ((fMod w).getLsbD 3)) (zero3 ((fMod w).extractLsb' 0 3))
  else if op = 0x05 then vBin w (fun te x => .vmax h te x ((fMod w).getLsbD 3)) (zero3 ((fMod w).extractLsb' 0 3))
  else if op = 0x06 then vUnary w (.vabs h)
  else if op = 0x07 then vUnary w (.vneg h)
  else if op = 0x08 then vBin w (.vand h) (zero3 ((fMod w).extractLsb' 0 4))
  else if op = 0x09 then vBin w (.vor h) (zero3 ((fMod w).extractLsb' 0 4))
  else if op = 0x0A then vBin w (.vxor h) (zero3 ((fMod w).extractLsb' 0 4))
  else if op = 0x0B then vBin w (.vshl h) (zero3 ((fMod w).extractLsb' 0 4))
  else if op = 0x0C then vBin w (.vshr h) (zero3 ((fMod w).extractLsb' 0 4))
  else if op = 0x0D then vBin w (.vsar h) (zero3 ((fMod w).extractLsb' 0 4))
  else if op = 0x0E then vBin w (fun te x => .vcmp h te x (CmpOp.ofCode ((fMod w).extractLsb' 1 3))
      ((fMod w).getLsbD 0)) (req 8 ((fMod w).extractLsb' 1 3 ≠ 7))
  else if op = 0x0F then vTwo w (.vsel h)
  else if op = 0x10 then vUnary w (.vcvt h)
  else if op = 0x11 then vUnary w (.vexp2 h)
  else if op = 0x12 then vUnary w (.vlog2 h)
  else if op = 0x13 then vUnary w (.vrcp h)
  else if op = 0x14 then vUnary w (.vrsq h)
  else if op = 0x15 then some (.vrnd h (teOf w).a (Rnd.ofCode ((fMod w).extractLsb' 0 2))
      (nameIn (fD w)) (nameIn (fA w)),
    badDA w ++ zero3 (fB w) ++ noTeB w ++ zero3 ((fMod w).extractLsb' 2 3))
  else if op = 0x16 then some (.vlut h (teOf w).a ((fMod w).getLsbD 2) ((fMod w).getLsbD 0)
      (nameIn (fD w)) (nameIn (fA w)) (nameIn (fB w)),
    badDAB w ++ noTeB w ++ zero3 ((fMod w).extractLsb' 3 2) ++ zero3 ((fMod w).extractLsb' 1 1))
  else if op = 0x17 then some (.vacc h (teOf w).a (nameIn (fD w)) (nameIn (fA w)),
    badDA w ++ zero3 (fB w) ++ noTeB w ++ zero3 (fMod w))
  else if op = 0x18 then vRot w (.vrotr h)
  else if op = 0x19 then vRot w (.vrotc h)
  else if op = 0x1A then vRot w (.vbcr h)
  else if op = 0x1B then vRot w (.vbcc h)
  else if op = 0x1C then vRed w (.vredr h)
  else if op = 0x1D then vRed w (.vredc h)
  else if op = 0x1E then some (.vscanr h (teOf w).a (RedOp.ofCode ((fMod w).extractLsb' 2 3))
      ((fMod w).getLsbD 1) ((fMod w).getLsbD 0) (nameIn (fD w)) (nameIn (fA w)),
    badDA w ++ zero3 (fB w) ++ noTeB w ++ req 8 ((fMod w).extractLsb' 2 3 ≠ 7))
  else if op = 0x1F then vTwo w (.vcomp h)
  else if op = 0x20 then mWord w (.vld h)
  else if op = 0x21 then mWord w (.vst h)
  else if op = 0x22 then some (.vmov h (teOf w).a (nameIn (fD w)) (nameIn (fA w)),
    badDA w ++ zero3 (fB w) ++ noTeB w ++ zero3 (fMod w))
  else if op = 0x23 then rDA w (.vsplat h)
  else if op = 0x24 then
    if (fMod w).getLsbD 0 then some (.vgetsSt h ((fMod w).getLsbD 1) (nameIn (fD w)),
      badName (fD w) ++ zero3 (fA w) ++ zero3 (fB w) ++ noTe w ++ zero3 ((fMod w).extractLsb' 2 3))
    else some (.vgets h (teOf w).a (nameIn (fD w)) (nameIn (fA w)) (nameIn (fB w)),
      badDAB w ++ noTeB w ++ zero3 ((fMod w).extractLsb' 1 4))
  else if op = 0x25 then some (.viota h ((fMod w).getLsbD 0) (nameIn (fD w)) (nameIn (fA w)),
    badDA w ++ zero3 (fB w) ++ noTe w ++ zero3 ((fMod w).extractLsb' 1 4))
  else if op = 0x26 then some (.vsfc h (teOf w) (SfcMode.ofCode ((fMod w).extractLsb' 3 2))
      (nameIn (fD w)) (nameIn (fA w)) (nameIn (fB w)),
    badDAB w ++ zero3 ((fMod w).extractLsb' 0 3))
  else none

/-- A name that the kind of an MOPD does not take: RSVD (R133), and QUEUE for a queue named as a view or an
accumulator (R31, check 6 of R49; R133 alone would give RSVD, log entry 61). -/
def mopdBad (refuse : Bool) (nb : BitVec 8) : List Nat :=
  badName nb ++ (match nameIn nb with
    | .q _ => if refuse then [6] else [5]
    | _ => [5])

/-- What MOPD names, by the kind in mod bits 2:1 (R133). -/
def mopdSource (w : IWord) : MSrc × List Nat :=
  let kind := (fGMod w).extractLsb' 1 2
  let nb := (fTensor w).extractLsb' 0 8
  let n := nameIn nb
  let hi := zero3 ((fTensor w).extractLsb' 8 4)
  if kind = 0 then (.tensor (fTensor w), [])
  else if kind = 1 then (match n with
    | .v k => (.view k, hi)
    | _ => (.view 0, hi ++ mopdBad true nb))
  else if kind = 2 then (match n with
    | .p k => (.port k, hi)
    | _ => (.port 0, hi ++ mopdBad false nb))
  else (match n with
    | .a k => (.acc k, hi)
    | _ => (.acc 0, hi ++ mopdBad true nb))

/-- The scale view of MDRAIN: field b is 0 for none (R153). -/
def drainScale (w : IWord) : Option (BitVec 6) × List Nat :=
  if fB w = 0 then (none, []) else match nameIn (fB w) with
    | .v k => (some k, [])
    | n => (none, badName (fB w) ++ Kind.view.check n)

/-- Tag M (R46). -/
def parseM (op : BitVec 6) (h : Hdr) (w : IWord) : Parsed :=
  if op = 0x00 then some (.mnest h (fD w) (nameIn (fA w)) (nameIn (fB w)),
    badName (fA w) ++ badName (fB w) ++ noTe w ++ zero3 (fMod w))
  else if op = 0x01 then some (.mopd h (nameIn (fD w)) ((fGMod w).getLsbD 0) (mopdSource w).1,
    badName (fD w) ++ (mopdSource w).2 ++ zero3 ((fGMod w).extractLsb' 3 8))
  else if op = 0x02 then some (.mfmt h (fD w) (fA w) ((fImm15 w).getLsbD 0) ((fImm15 w).extractLsb' 1 3)
      ((fImm15 w).getLsbD 4),
    zero3 ((fImm15 w).extractLsb' 5 10))
  else if op = 0x03 then rD w (.mdst h)
  else if op = 0x04 then some (.mgo h ((fImm15 w).getLsbD 0),
    zero3 (fD w) ++ zero3 (fA w) ++ zero3 ((fImm15 w).extractLsb' 1 14))
  else if op = 0x05 then some (.minit h (nameIn (fD w)) (fImm15 w), badName (fD w) ++ zero3 (fA w))
  else if op = 0x06 then rD w (.mzero h)
  else if op = 0x07 then rD w (.mnorm h)
  else if op = 0x08 then some (.mdrain h (teOf w) ((fMod w).extractLsb' 2 3) ((fMod w).getLsbD 1)
      ((fMod w).getLsbD 0) (nameIn (fD w)) (nameIn (fA w)) (drainScale w).1,
    badDA w ++ (drainScale w).2)
  else if op = 0x09 then some (.mstat h (nameIn (fD w)) (nameIn (fA w)) (fMod w),
    badDA w ++ zero3 (fB w) ++ noTe w)
  else if op = 0x0A then rDClr w (.merrq h)
  else if op = 0x0B then rDA w (.mcbld h)
  else if op = 0x0C then some (.mocinv h, zero3 (fLow w))
  else if op = 0x0D then some (.mrsum h ((fMod w).getLsbD 2) (Rnd.ofCode ((fMod w).extractLsb' 0 2))
      (nameIn (fD w)) (nameIn (fA w)),
    badDA w ++ zero3 (fB w) ++ noTe w ++ zero3 ((fMod w).extractLsb' 3 2))
  else none

/-- The release clause of a galley word: REL and its scope (R235, R371). -/
def relIn (rel : Bool) (sc : BitVec 3) : Option Scope := if rel then some (scopeIn sc) else none
def badRel (rel : Bool) (sc : BitVec 3) : List Nat := if rel then badScope sc else zero3 sc

/-- The galley words of R235, with REL in mod bit 10. -/
def xWord (w : IWord) (f : Option Scope → Name → BitVec 12 → Instr) : Parsed :=
  some (f (relIn ((fGMod w).getLsbD 10) ((fGMod w).extractLsb' 7 3)) (nameIn (fD w)) (fTensor w),
    badName (fD w) ++ badRel ((fGMod w).getLsbD 10) ((fGMod w).extractLsb' 7 3)
      ++ zero3 ((fGMod w).extractLsb' 0 7))

/-- Format G with mod all zero. -/
def gWord (w : IWord) (f : Name → BitVec 12 → Instr) : Parsed :=
  some (f (nameIn (fD w)) (fTensor w), badName (fD w) ++ zero3 (fGMod w))

/-- Tag X (R46). -/
def parseX (op : BitVec 6) (h : Hdr) (w : IWord) : Parsed :=
  if op = 0x00 then xWord w (.xcopy h)
  else if op = 0x01 then xWord w (.xcopyv h)
  else if op = 0x02 then xWord w (.xgath h)
  else if op = 0x03 then xWord w (.xscat h)
  else if op = 0x04 then xWord w (.xfill h)
  else if op = 0x05 then gWord w (.xpref h)
  else if op = 0x06 then some (.xfence h, zero3 (fLow w))
  else if op = 0x07 then rDClr w (.xstat h)
  else none

/-- Tag G (R46, R272 to R283). -/
def parseG (op : BitVec 6) (h : Hdr) (w : IWord) : Parsed :=
  if op = 0x00 then gWord w (.gload h)
  else if op = 0x01 then gWord w (.gbias h)
  else if op = 0x02 then some (.gcolr h (teOf w).a (fD w) (nameIn (fA w)) (nameIn (fB w)),
    badName (fA w) ++ badName (fB w) ++ noTeB w ++ zero3 (fMod w))
  else if op = 0x03 then some (.gbeta h (nameIn (fA w)),
    zero3 (fD w) ++ badName (fA w) ++ zero3 (fB w) ++ noTe w ++ zero3 (fMod w))
  else if op = 0x04 then some (.gmode h ((fD w).getLsbD 1) ((fD w).getLsbD 0) (fImm15 w),
    zero3 ((fD w).extractLsb' 2 6) ++ zero3 (fA w))
  else if op = 0x05 then some (.gseed h (nameIn (fA w)),
    zero3 (fD w) ++ badName (fA w) ++ zero3 (fB w) ++ noTe w ++ zero3 (fMod w))
  else if op = 0x06 then some (.gclmp h (teOf w) (nameIn (fA w)) (nameIn (fB w)),
    zero3 (fD w) ++ badName (fA w) ++ badName (fB w) ++ zero3 (fMod w))
  else if op = 0x07 then some (.gfree h (teOf w).a (nameIn (fA w)),
    zero3 (fD w) ++ badName (fA w) ++ zero3 (fB w) ++ noTeB w ++ zero3 (fMod w))
  else if op = 0x08 then some (.gswp h (fImm15 w), zero3 (fD w) ++ zero3 (fA w))
  else if op = 0x09 then rD w (.grds h)
  else if op = 0x0A then some (.gcntc h, zero3 (fLow w))
  else if op = 0x0B then rDA w (.grdc h)
  else if op = 0x0C then rDA w (.grdf h)
  else if op = 0x0D then some (.gxch h (nameIn (fD w)), badName (fD w) ++ zero3 (fTensor w) ++ zero3 (fGMod w))
  else if op = 0x0E then some (.gstat h ((fMod w).getLsbD 3) ((fMod w).extractLsb' 0 3) (nameIn (fD w)),
    badName (fD w) ++ zero3 (fA w) ++ zero3 (fB w) ++ noTe w ++ zero3 ((fMod w).extractLsb' 4 1))
  else none

/-- The collectives of R371: group and counter in mod. -/
def fWord (w : IWord) (f : Name → BitVec 12 → BitVec 4 → BitVec 4 → Instr) : Parsed :=
  some (f (nameIn (fD w)) (fTensor w) ((fGMod w).extractLsb' 4 4) ((fGMod w).extractLsb' 0 4),
    badName (fD w) ++ zero3 ((fGMod w).extractLsb' 8 3))

/-- Tag F (R46, R371 to R392). FPLOW and FLNK decode to one constructor each; the form of theirs that a register
value selects is found when the word issues. -/
def parseF (op : BitVec 6) (h : Hdr) (w : IWord) : Parsed :=
  if op = 0x00 then some (.fput h (relIn ((fGMod w).getLsbD 7) ((fGMod w).extractLsb' 4 3)) (nameIn (fD w))
      (fTensor w) ((fGMod w).extractLsb' 0 4),
    badName (fD w) ++ badRel ((fGMod w).getLsbD 7) ((fGMod w).extractLsb' 4 3)
      ++ zero3 ((fGMod w).extractLsb' 8 3))
  else if op = 0x01 then atomWord w (fun o dbl u d a b => .fatom h o dbl u d a b)
  else if op = 0x02 then some (.fpull h (nameIn (fD w)) ((fGMod w).extractLsb' 0 4),
    badName (fD w) ++ zero3 (fTensor w) ++ zero3 ((fGMod w).extractLsb' 4 7))
  else if op = 0x03 then some (.ffence h (scopeB w),
    zero3 (fD w) ++ zero3 (fA w) ++ scopeWord w ++ noTe w ++ zero3 (fMod w))
  else if op = 0x04 then some (.fcnt h ((fMod w).getLsbD 0) (nameIn (fD w)) ((fA w).extractLsb' 0 4),
    badName (fD w) ++ req 8 ((fA w).extractLsb' 4 4 = 0) ++ zero3 (fB w) ++ noTe w
      ++ zero3 ((fMod w).extractLsb' 1 4))
  else if op = 0x05 then some (.fbar h (scopeB w) ((fD w).extractLsb' 0 4),
    req 8 ((fD w).extractLsb' 4 4 = 0) ++ zero3 (fA w) ++ scopeWord w ++ noTe w ++ zero3 (fMod w))
  else if op = 0x06 then some (.fgrp h (nameIn (fD w)) ((fTensor w).extractLsb' 0 4),
    badName (fD w) ++ zero3 ((fTensor w).extractLsb' 4 8) ++ zero3 (fGMod w))
  else if op = 0x07 then fWord w (.fred h)
  else if op = 0x08 then fWord w (.fbcst h)
  else if op = 0x09 then fWord w (.fa2a h)
  else if op = 0x0A then fWord w (.rpart h)
  else if op = 0x0B then some (.fstat h ((fMod w).extractLsb' 0 3) (nameIn (fD w)),
    badName (fD w) ++ zero3 (fA w) ++ zero3 (fB w) ++ noTe w ++ zero3 ((fMod w).extractLsb' 3 2))
  else if op = 0x30 then
    if (fMod w).getLsbD 0 then some (.froutLd h (nameIn (fD w)) (nameIn (fA w)) (nameIn (fB w)),
      badDAB w ++ noTe w ++ zero3 ((fMod w).extractLsb' 1 4))
    else some (.frout h (nameIn (fD w)) (nameIn (fA w)),
      badDA w ++ zero3 (fB w) ++ noTe w ++ zero3 ((fMod w).extractLsb' 1 4))
  else if op = 0x31 then rDAB w (.fplow h)
  else if op = 0x32 then rDAB w (.flnkDown h)
  else none

/-- Tag A (R47). -/
def parseA (op : BitVec 6) (h : Hdr) (w : IWord) : Parsed :=
  if op = 0x00 then some (.fork h, zero3 (fLow w))
  else if op = 0x01 then some (.rdv h, zero3 (fLow w))
  else if op = 0x02 then some (.ssb h, zero3 (fLow w))
  else none

/-- A REP word, of any tag but 0b111 (R51). -/
def parseRep (h : Hdr) (w : IWord) : Parsed := some (.rep h (fTag w) (fD w) (fA w) (fImm15 w), [])

/-- The instruction of a word and its failing checks; none for a reserved tag or opcode (check 1 of R49). -/
def parse (w : IWord) : Parsed :=
  let h := hdrOf w
  if fTag w = 7 then none
  else if fOp w = 0x3F then parseRep h w
  else if fTag w = 0 then parseC (fOp w) h w
  else if fTag w = 1 then parseV (fOp w) h w
  else if fTag w = 2 then parseM (fOp w) h w
  else if fTag w = 3 then parseX (fOp w) h w
  else if fTag w = 4 then parseG (fOp w) h w
  else if fTag w = 5 then parseF (fOp w) h w
  else parseA (fOp w) h w

/-- The trap of a check of R49. -/
def levelTrap (n : Nat) : TrapClass := if n = 2 then .priv else if n = 6 then .queue else .rsvd

/-- The lowest of the failing checks. -/
def lowest : List Nat → Option Nat
  | [] => none
  | n :: ns => match lowest ns with
    | none => some n
    | some m => some (Nat.min n m)

/-- The result of the checks of R49 in their order. -/
def checked (i : Instr) (bad : List Nat) : Except TrapClass Instr :=
  match lowest bad with
  | none => .ok i
  | some n => .error (levelTrap n)

/-- Decodes a word: the instruction, or the trap of the first check of R49 that fails. -/
def decodeWord (c : DCtx) (w : IWord) : Except TrapClass Instr :=
  match parse w with
  | none => .error .rsvd
  | some (i, bad) => checked i (bad ++ i.check c)

/-- Decodes 6 bytes, the least significant first (R3, R37). -/
def decodeBytes (c : DCtx) (bs : List Byte) : Except TrapClass Instr :=
  decodeWord c (BitVec.ofNat 48 (leNat (bs.take 6)))

/-- The host's question: the instruction of a 48-bit word. A word of the text is one 6-byte unit whose first byte
is bits 7:0. The word is decoded where every check on the context holds: in the firmware context that its privileged
words need, with all four lateral neighbours present. -/
def decodeTableWord (nbits w : Nat) : Option Instr :=
  let bs := leBytes 6 (w % 2 ^ nbits)
  let try1 := fun c : Ctx => decodeBytes ⟨c, 15⟩ bs
  match try1 .proof with
  | .ok i => some i
  | .error _ => match try1 .press with
    | .ok i => some i
    | .error _ => none

/-! ## The encoder -/

/-- Format R. -/
def packR (tag : BitVec 3) (op : BitVec 6) (h : Hdr) (d a b : BitVec 8) (te : Te) (m : BitVec 5) : IWord :=
  tag ++ op ++ h.wait ++ h.post ++ d ++ a ++ b ++ BitVec.ofBool te.a ++ BitVec.ofBool te.b ++ m

/-- Format I. -/
def packI (tag : BitVec 3) (op : BitVec 6) (h : Hdr) (d a : BitVec 8) (imm : BitVec 15) : IWord :=
  tag ++ op ++ h.wait ++ h.post ++ d ++ a ++ imm

/-- Format L. -/
def packL (tag : BitVec 3) (op : BitVec 6) (h : Hdr) (d : BitVec 8) (imm : BitVec 23) : IWord :=
  tag ++ op ++ h.wait ++ h.post ++ d ++ imm

/-- Format M. -/
def packM (tag : BitVec 3) (op : BitVec 6) (h : Hdr) (d base step : BitVec 8) (count : BitVec 7) : IWord :=
  tag ++ op ++ h.wait ++ h.post ++ d ++ base ++ step ++ count

/-- Format B. -/
def packB (op : BitVec 6) (h : Hdr) (cond : BitVec 4) (r : BitVec 8) (off : BitVec 19) : IWord :=
  (0 : BitVec 3) ++ op ++ h.wait ++ h.post ++ cond ++ r ++ off

/-- Format G. -/
def packG (tag : BitVec 3) (op : BitVec 6) (h : Hdr) (card : BitVec 8) (t : BitVec 12) (m : BitVec 11) : IWord :=
  tag ++ op ++ h.wait ++ h.post ++ card ++ t ++ m

/-- Five mod bits, the highest first. -/
def m5 (b4 b3 b2 b1 b0 : Bool) : BitVec 5 :=
  BitVec.ofBool b4 ++ BitVec.ofBool b3 ++ BitVec.ofBool b2 ++ BitVec.ofBool b1 ++ BitVec.ofBool b0

/-- Two mod bits of a rounding field below three others. -/
def mRnd (b4 b3 b2 : Bool) (r : Rnd) : BitVec 5 :=
  BitVec.ofBool b4 ++ BitVec.ofBool b3 ++ BitVec.ofBool b2 ++ r.code

/-- Three mod bits above two flags. -/
def mOp (o : BitVec 3) (b1 b0 : Bool) : BitVec 5 := o ++ BitVec.ofBool b1 ++ BitVec.ofBool b0

/-- mod of the loads and stores (R69). -/
def mMem (sx rs : Bool) (size : BitVec 2) : BitVec 5 := 0#1 ++ BitVec.ofBool sx ++ BitVec.ofBool rs ++ size

def noTeBits : Te := ⟨false, false⟩

def scopeByte (s : Scope) : BitVec 8 := 0#5 ++ s.code

/-- REL and its scope in four bits (R235, R371). -/
def relBits : Option Scope → BitVec 4
  | none => 0
  | some s => 1#1 ++ s.code

def MSrc.tensorField : MSrc → BitVec 12
  | .tensor t => t
  | .view n => 0#4 ++ (Name.v n).code
  | .port n => 0#4 ++ (Name.p n).code
  | .acc n => 0#4 ++ (Name.a n).code

def MSrc.kind : MSrc → BitVec 2
  | .tensor _ => 0 | .view _ => 1 | .port _ => 2 | .acc _ => 3

def Amount.isReg : Amount → Bool
  | .reg _ => true
  | .val _ => false

def Amount.byte : Amount → BitVec 8
  | .val n => 0#2 ++ n
  | .reg r => r.code

/-- The word of an instruction; none for a step of the part, which no word encodes. -/
def encode : Instr → Option IWord
  | .nop h => some (packL 0 0x00 h 0 0)
  | .halt h => some (packL 0 0x01 h 0 0)
  | .li h d i => some (packL 0 0x02 h d.code i)
  | .liu h d i => some (packL 0 0x03 h d.code i)
  | .trap h c => some (packL 0 0x04 h 0 c)
  | .semi h n v => some (packI 0 0x05 h n 0 (0#7 ++ v))
  | .slipw h n => some (packI 0 0x06 h 0 0 (0#2 ++ n))
  | .view h d a f => some (packI 0 0x07 h d.code a.code (0#7 ++ f))
  | .add h d a b => some (packR 0 0x08 h d.code a.code b.code noTeBits 0)
  | .sub h d a b => some (packR 0 0x09 h d.code a.code b.code noTeBits 0)
  | .mul h d a b => some (packR 0 0x0A h d.code a.code b.code noTeBits 0)
  | .mulh h u d a b => some (packR 0 0x0B h d.code a.code b.code noTeBits (m5 false false false false u))
  | .and h d a b => some (packR 0 0x0C h d.code a.code b.code noTeBits 0)
  | .or h d a b => some (packR 0 0x0D h d.code a.code b.code noTeBits 0)
  | .xor h d a b => some (packR 0 0x0E h d.code a.code b.code noTeBits 0)
  | .shl h d a b => some (packR 0 0x0F h d.code a.code b.code noTeBits 0)
  | .shr h d a b => some (packR 0 0x10 h d.code a.code b.code noTeBits 0)
  | .sar h d a b => some (packR 0 0x11 h d.code a.code b.code noTeBits 0)
  | .min h u d a b => some (packR 0 0x12 h d.code a.code b.code noTeBits (m5 false false false false u))
  | .max h u d a b => some (packR 0 0x13 h d.code a.code b.code noTeBits (m5 false false false false u))
  | .slt h d a b => some (packR 0 0x14 h d.code a.code b.code noTeBits 0)
  | .sltu h d a b => some (packR 0 0x15 h d.code a.code b.code noTeBits 0)
  | .sel h d a b => some (packR 0 0x16 h d.code a.code b.code noTeBits 0)
  | .clz h d a => some (packR 0 0x17 h d.code a.code 0 noTeBits 0)
  | .popc h d a => some (packR 0 0x18 h d.code a.code 0 noTeBits 0)
  | .addi h d a i => some (packI 0 0x19 h d.code a.code i)
  | .andi h d a i => some (packI 0 0x1A h d.code a.code i)
  | .ori h d a i => some (packI 0 0x1B h d.code a.code i)
  | .br h c r o => some (packB 0x1C h c r.code o)
  | .call h c r o => some (packB 0x1D h c r.code o)
  | .ret h c r => some (packB 0x1E h c r.code 0)
  | .loop h c r o => some (packB 0x1F h c r.code o)
  | .ld h z sx rs d a b => some (packR 0 0x20 h d.code a.code b.code noTeBits (mMem sx rs z))
  | .st h z rs d a b => some (packR 0 0x21 h d.code a.code b.code noTeBits (mMem false rs z))
  | .lda h z sx rs s d a => some (packR 0 0x22 h d.code a.code (scopeByte s) noTeBits (mMem sx rs z))
  | .stl h z rs s d a => some (packR 0 0x23 h d.code a.code (scopeByte s) noTeBits (mMem false rs z))
  | .mark h => some (packL 0 0x24 h 0 0)
  | .fence h s => some (packR 0 0x25 h 0 0 (scopeByte s) noTeBits 0)
  | .spl h z d o => some (packI 0 0x26 h d.code z o)
  | .fil h z d o => some (packI 0 0x27 h d.code z o)
  | .tdef h c t => some (packG 0 0x28 h c.code t 0)
  | .trd h d t f => some (packG 0 0x29 h d.code t (0#6 ++ f))
  | .launch h d a b q => some (packR 0 0x2A h d.code a.code b.code noTeBits (0#1 ++ q))
  | .waitl h d a => some (packR 0 0x2B h d.code a.code 0 noTeBits 0)
  | .aadd h z d a b => some (packR 0 0x2C h d.code a.code b.code noTeBits (mOp 0 z false))
  | .amin h z u d a b => some (packR 0 0x2C h d.code a.code b.code noTeBits (mOp 1 z u))
  | .amax h z u d a b => some (packR 0 0x2C h d.code a.code b.code noTeBits (mOp 2 z u))
  | .aand h z d a b => some (packR 0 0x2C h d.code a.code b.code noTeBits (mOp 3 z false))
  | .aor h z d a b => some (packR 0 0x2C h d.code a.code b.code noTeBits (mOp 4 z false))
  | .axchg h z d a b => some (packR 0 0x2C h d.code a.code b.code noTeBits (mOp 5 z false))
  | .acas h z d a b => some (packR 0 0x2C h d.code a.code b.code noTeBits (mOp 6 z false))
  | .tktake h d n => some (packR 0 0x2D h d.code n 0 noTeBits 0)
  | .tkwait h s n a => some (packR 0 0x2E h n a.code (scopeByte s) noTeBits 0)
  | .tknext h s n => some (packR 0 0x2F h n 0 (scopeByte s) noTeBits 0)
  | .genadv h d a => some (packR 0 0x30 h d.code a.code 0 noTeBits 0)
  | .psetRun h d a => some (packR 0 0x31 h d.code a.code 0 noTeBits 0)
  | .psetStop h d a b => some (packR 0 0x31 h d.code a.code b.code noTeBits 1)
  | .psetMap h d a b => some (packR 0 0x31 h d.code a.code b.code noTeBits 2)
  | .frz h d a b => some (packR 0 0x32 h d.code a.code b.code noTeBits 0)
  | .thaw h d a b => some (packR 0 0x33 h d.code a.code b.code noTeBits 0)
  | .keyld h d a b => some (packR 0 0x34 h d.code a.code b.code noTeBits 0)
  | .keyerase h all d a b => some (packR 0 0x35 h d.code a.code b.code noTeBits (m5 false false false false all))
  | .lapw h d => some (packR 0 0x36 h d.code 0 0 noTeBits 0)
  | .polset h d a b => some (packR 0 0x37 h d.code a.code b.code noTeBits 0)
  | .rep h tag c r s => some (packI tag 0x3F h c r s)
  | .fork h => some (packL 6 0x00 h 0 0)
  | .rdv h => some (packL 6 0x01 h 0 0)
  | .ssb h => some (packL 6 0x02 h 0 0)
  | .vadd h te x s r d a b => some (packR 1 0x00 h d.code a.code b.code te (mRnd x false s r))
  | .vsub h te x s r d a b => some (packR 1 0x01 h d.code a.code b.code te (mRnd x false s r))
  | .vmul h te x s r d a b => some (packR 1 0x02 h d.code a.code b.code te (mRnd x false s r))
  | .vfma h te x s r d a b => some (packR 1 0x03 h d.code a.code b.code te (mRnd x false s r))
  | .vmin h te x u d a b => some (packR 1 0x04 h d.code a.code b.code te (m5 x u false false false))
  | .vmax h te x u d a b => some (packR 1 0x05 h d.code a.code b.code te (m5 x u false false false))
  | .vabs h t s r d a => some (packR 1 0x06 h d.code a.code 0 ⟨t, false⟩ (mRnd false false s r))
  | .vneg h t s r d a => some (packR 1 0x07 h d.code a.code 0 ⟨t, false⟩ (mRnd false false s r))
  | .vand h te x d a b => some (packR 1 0x08 h d.code a.code b.code te (m5 x false false false false))
  | .vor h te x d a b => some (packR 1 0x09 h d.code a.code b.code te (m5 x false false false false))
  | .vxor h te x d a b => some (packR 1 0x0A h d.code a.code b.code te (m5 x false false false false))
  | .vshl h te x d a b => some (packR 1 0x0B h d.code a.code b.code te (m5 x false false false false))
  | .vshr h te x d a b => some (packR 1 0x0C h d.code a.code b.code te (m5 x false false false false))
  | .vsar h te x d a b => some (packR 1 0x0D h d.code a.code b.code te (m5 x false false false false))
  | .vcmp h te x c u d a b =>
      some (packR 1 0x0E h d.code a.code b.code te (BitVec.ofBool x ++ c.code ++ BitVec.ofBool u))
  | .vsel h te d a b => some (packR 1 0x0F h d.code a.code b.code te 0)
  | .vcvt h t s r d a => some (packR 1 0x10 h d.code a.code 0 ⟨t, false⟩ (mRnd false false s r))
  | .vrnd h t r d a => some (packR 1 0x15 h d.code a.code 0 ⟨t, false⟩ (mRnd false false false r))
  | .vexp2 h t s r d a => some (packR 1 0x11 h d.code a.code 0 ⟨t, false⟩ (mRnd false false s r))
  | .vlog2 h t s r d a => some (packR 1 0x12 h d.code a.code 0 ⟨t, false⟩ (mRnd false false s r))
  | .vrcp h t s r d a => some (packR 1 0x13 h d.code a.code 0 ⟨t, false⟩ (mRnd false false s r))
  | .vrsq h t s r d a => some (packR 1 0x14 h d.code a.code 0 ⟨t, false⟩ (mRnd false false s r))
  | .vmov h t d a => some (packR 1 0x22 h d.code a.code 0 ⟨t, false⟩ 0)
  | .vsplat h d a => some (packR 1 0x23 h d.code a.code 0 noTeBits 0)
  | .viota h f d a => some (packR 1 0x25 h d.code a.code 0 noTeBits (m5 false false false false f))
  | .vgets h t d a b => some (packR 1 0x24 h d.code a.code b.code ⟨t, false⟩ 0)
  | .vgetsSt h c d => some (packR 1 0x24 h d.code 0 0 noTeBits (m5 false false false c true))
  | .vrotr h t d a n => some (packR 1 0x18 h d.code a.code n.byte ⟨t, false⟩ (m5 n.isReg false false false false))
  | .vrotc h t d a n => some (packR 1 0x19 h d.code a.code n.byte ⟨t, false⟩ (m5 n.isReg false false false false))
  | .vbcr h t d a n => some (packR 1 0x1A h d.code a.code n.byte ⟨t, false⟩ (m5 n.isReg false false false false))
  | .vbcc h t d a n => some (packR 1 0x1B h d.code a.code n.byte ⟨t, false⟩ (m5 n.isReg false false false false))
  | .vredr h t o s d a => some (packR 1 0x1C h d.code a.code 0 ⟨t, false⟩ (mOp o.code s false))
  | .vredc h t o s d a => some (packR 1 0x1D h d.code a.code 0 ⟨t, false⟩ (mOp o.code s false))
  | .vscanr h t o s e d a => some (packR 1 0x1E h d.code a.code 0 ⟨t, false⟩ (mOp o.code s e))
  | .vcomp h te d a b => some (packR 1 0x1F h d.code a.code b.code te 0)
  | .vlut h t s hi d a k => some (packR 1 0x16 h d.code a.code k.code ⟨t, false⟩ (m5 false false s false hi))
  | .vacc h t d a => some (packR 1 0x17 h d.code a.code 0 ⟨t, false⟩ 0)
  | .vsfc h te m d a b => some (packR 1 0x26 h d.code a.code b.code te (m.code ++ 0#3))
  | .vld h d b s c => some (packM 1 0x20 h d.code b.code s c)
  | .vst h d b s c => some (packM 1 0x21 h d.code b.code s c)
  | .mnest h l a b => some (packR 2 0x00 h l a.code b.code noTeBits 0)
  | .mopd h c o s => some (packG 2 0x01 h c.code s.tensorField (0#8 ++ s.kind ++ BitVec.ofBool o))
  | .mfmt h a b z c s => some (packI 2 0x02 h a b (0#10 ++ BitVec.ofBool s ++ c ++ BitVec.ofBool z))
  | .mdst h d => some (packR 2 0x03 h d.code 0 0 noTeBits 0)
  | .mgo h a => some (packI 2 0x04 h 0 0 (0#14 ++ BitVec.ofBool a))
  | .minit h d i => some (packI 2 0x05 h d.code 0 i)
  | .mzero h d => some (packR 2 0x06 h d.code 0 0 noTeBits 0)
  | .mnorm h d => some (packR 2 0x07 h d.code 0 0 noTeBits 0)
  | .mdrain h te f z s d a v => some (packR 2 0x08 h d.code a.code
      (match v with
        | none => 0
        | some n => (Name.v n).code) te (mOp f z s))
  | .mstat h d a r => some (packR 2 0x09 h d.code a.code 0 noTeBits r)
  | .merrq h c d => some (packR 2 0x0A h d.code 0 0 noTeBits (m5 false false false false c))
  | .mcbld h d a => some (packR 2 0x0B h d.code a.code 0 noTeBits 0)
  | .mocinv h => some (packL 2 0x0C h 0 0)
  | .mrsum h s r d a => some (packR 2 0x0D h d.code a.code 0 noTeBits (mRnd false false s r))
  | .xcopy h r c t => some (packG 3 0x00 h c.code t (relBits r ++ 0#7))
  | .xcopyv h r c t => some (packG 3 0x01 h c.code t (relBits r ++ 0#7))
  | .xgath h r c t => some (packG 3 0x02 h c.code t (relBits r ++ 0#7))
  | .xscat h r c t => some (packG 3 0x03 h c.code t (relBits r ++ 0#7))
  | .xfill h r c t => some (packG 3 0x04 h c.code t (relBits r ++ 0#7))
  | .xpref h c t => some (packG 3 0x05 h c.code t 0)
  | .xfence h => some (packL 3 0x06 h 0 0)
  | .xstat h c d => some (packR 3 0x07 h d.code 0 0 noTeBits (m5 false false false false c))
  | .gload h c t => some (packG 4 0x00 h c.code t 0)
  | .gbias h c t => some (packG 4 0x01 h c.code t 0)
  | .gcolr h t n a b => some (packR 4 0x02 h n a.code b.code ⟨t, false⟩ 0)
  | .gbeta h a => some (packR 4 0x03 h 0 a.code 0 noTeBits 0)
  | .gmode h r b n => some (packI 4 0x04 h (0#6 ++ BitVec.ofBool r ++ BitVec.ofBool b) 0 n)
  | .gseed h a => some (packR 4 0x05 h 0 a.code 0 noTeBits 0)
  | .gclmp h te a b => some (packR 4 0x06 h 0 a.code b.code te 0)
  | .gfree h t a => some (packR 4 0x07 h 0 a.code 0 ⟨t, false⟩ 0)
  | .gswp h k => some (packI 4 0x08 h 0 0 k)
  | .grds h d => some (packR 4 0x09 h d.code 0 0 noTeBits 0)
  | .gcntc h => some (packL 4 0x0A h 0 0)
  | .grdc h d a => some (packR 4 0x0B h d.code a.code 0 noTeBits 0)
  | .grdf h d a => some (packR 4 0x0C h d.code a.code 0 noTeBits 0)
  | .gxch h c => some (packG 4 0x0D h c.code 0 0)
  | .gstat h c s d => some (packR 4 0x0E h d.code 0 0 noTeBits (0#1 ++ BitVec.ofBool c ++ s))
  | .fput h r c t n => some (packG 5 0x00 h c.code t (0#3 ++ relBits r ++ n))
  | .fatom h o z u d a b => some (packR 5 0x01 h d.code a.code b.code noTeBits (mOp o.code z
      (match o with
        | .min | .max => u
        | _ => false)))
  | .fpull h c n => some (packG 5 0x02 h c.code 0 (0#7 ++ n))
  | .ffence h s => some (packR 5 0x03 h 0 0 (scopeByte s) noTeBits 0)
  | .fcnt h c d n => some (packR 5 0x04 h d.code (0#4 ++ n) 0 noTeBits (m5 false false false false c))
  | .fbar h s g => some (packR 5 0x05 h (0#4 ++ g) 0 (scopeByte s) noTeBits 0)
  | .fgrp h c g => some (packG 5 0x06 h c.code (0#8 ++ g) 0)
  | .fred h c t g n => some (packG 5 0x07 h c.code t (0#3 ++ g ++ n))
  | .fbcst h c t g n => some (packG 5 0x08 h c.code t (0#3 ++ g ++ n))
  | .fa2a h c t g n => some (packG 5 0x09 h c.code t (0#3 ++ g ++ n))
  | .rpart h c t g n => some (packG 5 0x0A h c.code t (0#3 ++ g ++ n))
  | .fstat h s d => some (packR 5 0x0B h d.code 0 0 noTeBits (0#2 ++ s))
  | .frout h d a => some (packR 5 0x30 h d.code a.code 0 noTeBits 0)
  | .froutLd h d a b => some (packR 5 0x30 h d.code a.code b.code noTeBits 1)
  | .fplow h d a b | .fplowFree h d a b => some (packR 5 0x31 h d.code a.code b.code noTeBits 0)
  | .flnkDown h d a b | .flnkTrain h d a b | .flnkDrain h d a b | .flnkRelock h d a b | .flnkQuery h d a b =>
      some (packR 5 0x32 h d.code a.code b.code noTeBits 0)
  | .trapFreeze .. | .gangFreezeFollow .. | .scalarResultLands .. | .vectorResultLands ..
  | .longLatencyWriteComplete .. | .queueEntryArrives .. | .portPrefetch .. | .bankArbitration ..
  | .loadPerforms .. | .storePerforms .. | .releaseTakesEffect .. | .nestStep .. | .nestEnd ..
  | .operandCacheFill .. | .pageWalkComplete .. | .translationRemoval .. | .galleyStart ..
  | .galleyAccept .. | .galleyLineWrite .. | .galleyRetire .. | .coalescerSend .. | .poolAck ..
  | .atomicAtWriteQueue .. | .atomicResultLands .. | .tktakeAtDispenser .. | .ticketLands ..
  | .dispenserAdvance .. | .nowServingBroadcast .. | .tkwaitWake .. | .launchHandleReady ..
  | .waitlWake .. | .kick .. | .registerWrite .. | .kickAccept .. | .gangStart .. | .kernelEnd ..
  | .launchRetire .. | .graphChildStart .. | .sliceEnd .. | .priorityPreempt .. | .gangResume ..
  | .freezeGate .. | .saveWritten .. | .barrierClose .. | .exchangePhaseEnd .. | .gxchPublish ..
  | .gxchFetch .. | .gxchRetire .. | .colourPhase .. | .resurfaceUnit .. | .lapEnd
  | .faultActionThaw .. | .faultActionRestart .. | .faultActionAbort .. | .sharedStructureError ..
  | .hostMemAccess .. | .sensorTrip | .thermalEmergency | .frequencyChange .. | .poolPortDown ..
  | .bootPhase .. | .mailboxLoad .. | .mailboxAttest .. | .mailboxLimit .. | .mailboxThermal
  | .mailboxProofRequest .. | .mailboxComplete .. | .flitReceive .. | .flitReplay .. | .replayTimeout ..
  | .putArrive .. | .atomArrive .. | .pullArrive .. | .collArrive .. | .ploughArrive .. | .echoSend ..
  | .echoArrive .. | .responseArrive .. | .rackArrive .. | .replyCacheFree .. | .reissue .. | .timeout ..
  | .lossOfLight .. | .retrainStart .. | .retrainDone .. | .trainingDone .. | .drainDone ..
  | .circuitReported .. | .coarsenedCounterSample | .hostReset | .supplyEmergency ..
  | .thermalEmergencyEnd | .poolPortRetrain .. => none

/-- The fields of a word that decoding cannot tell apart from another constructor's: which form of FPLOW and FLNK
stands is a register's value, and .U has no bit outside AMIN and AMAX. -/
def Instr.canonical : Instr → Bool
  | .fplowFree .. | .flnkTrain .. | .flnkDrain .. | .flnkRelock .. | .flnkQuery .. => false
  | .fatom _ o _ u _ _ _ => !u || o = .min || o = .max
  | _ => true

end Sys2Proof
end

