-- ==== Sys2Proof/Machine/State.lean ====
section
/-! DEFINITION. The state of the machine: one module with its 256 cores and five management cores, everything the
spec names on it, and the queues through which the world outside reaches it. All of it is plain data. -/

namespace Sys2Proof.Machine

/-- A table by number: entries in increasing number; a number not listed reads as the reader's default. -/
abbrev Tbl (α : Type) := List (Nat × α)

/-- Memory: bytes by physical key, in increasing key, none equal to what an unlisted key reads as. -/
abbrev Memory := List Host.Cell

/-- What a byte that nothing has written reads as (log entry 2). -/
def unlistedByte : Byte := 0

/-- Walker states (R15). -/
inductive WState | idle | running | rendezvous | halted | barrier
deriving DecidableEq, Repr

/-- A REP in progress (R53, R54). -/
structure RepSt where
  count : Nat
  iter : Nat
  regstep : Int
  addrstep : Int
  post : BitVec 4
deriving DecidableEq, Repr

/-- An outcome of a control transfer, with the core cycle of its push (R14, R66). -/
structure Outc where
  pushed : Nat
  taken : Bool
  target : Nat
deriving DecidableEq, Repr

/-- One walker (R15, R16). `readyAt` is the core cycle from which its last word's issue cost has passed;
`pend` counts its issued words whose effect is not complete; `tried` and `passes` are the attempt and the skips
made in the present cycle (R13, R416); `access` is the next access of a repeated format-M word, `grant` its next
grant (R39, R193), `baseVal` the base that its access 0 read and `run` the run that the first grant of an access resolved
(R74); `asked` is the age of the word's first request of a bank
that was lost (R27). -/
structure WalkerSt where
  st : WState
  index : Nat
  steps : Nat
  readyAt : Nat
  passes : Nat
  tried : Bool
  outcomes : List Outc
  rep : Option RepSt
  access : Nat
  grant : Nat
  baseVal : Word
  run : Option ((Nat × Nat) × Bool)
  addrAdd : Int
  blocked : Bool
  pend : Nat
  asked : Option Nat
deriving DecidableEq, Repr

def WalkerSt.start : WalkerSt :=
  { st := .idle, index := 0, steps := 0, readyAt := 0, passes := 0, tried := false, outcomes := [], rep := none,
    access := 0, grant := 0, baseVal := 0, run := none, addrAdd := 0, blocked := false, pend := 0, asked := none }

/-- What takes effect at the end of a cycle (R17, R20, R22, R34, R74, R390). -/
inductive Latch
  | sem (n : BitVec 4) (v : Byte)
  | slip (w : Nat)
  | view (n : BitVec 6) (page : BitVec 6) (fmt : Byte)
  | aview (n : BitVec 4) (page : BitVec 6)
  | xreg (n : BitVec 6) (v : Word)
  | fill (off n : Nat)
  | version (v : Bool)
  | tidy (o : Origin)
deriving DecidableEq, Repr

/-- A semaphore (R18). -/
structure Sem where
  tag : Tag
  val : Nat
deriving DecidableEq, Repr

/-- A queue entry (R29). `wait` is the age of the word that pushed it while its value is still to come. -/
structure QEntry where
  tag : Tag
  val : Word
  wait : Option Nat
deriving DecidableEq, Repr

/-- A view register (R123). -/
structure ViewReg where
  fmt : Byte
  page : BitVec 6
deriving DecidableEq, Repr

/-- A codebook register (R129): sixteen BF16 entries. -/
structure Codebook where
  tag : Tag
  entries : List (BitVec 16)
deriving DecidableEq, Repr

/-- A port (R126 to R128): its latched descriptor, position, and the vault blocks fetched ahead, each with its
index among the blocks of the nest and its bytes that are uncorrectable. -/
structure PortSt where
  armed : Bool
  desc : List Byte
  pos : Nat
  fetched : List (Nat × List Byte × List Nat)
  fetching : List Nat
deriving DecidableEq, Repr

/-- One level of a nest configuration (R131). -/
structure NestLevel where
  count : BitVec 16
  astep : BitVec 16
  bstep : BitVec 16
  cstep : BitVec 16
  arow : BitVec 8
  bcol : BitVec 8
deriving DecidableEq, Repr

/-- A nest configuration (R131). -/
structure NestCfg where
  levels : List NestLevel
  asrc : Option MSrc
  bsrc : Option MSrc
  aorgk : BitVec 32
  aorgr : BitVec 32
  borgk : BitVec 32
  borgc : BitVec 32
  afmt : Byte
  bfmt : Byte
  zp : Bool
  cbsel : Bool
  cb : BitVec 3
  dest : BitVec 4
deriving DecidableEq, Repr

/-- A range of bytes by physical key. -/
structure Rng where
  key : Nat
  len : Nat
deriving DecidableEq, Repr

/-- A running nest (R137 to R141): its running copy, the sources resolved at its MGO (tensor entries, codebooks, the runs of
view and accumulator sources), their snapshots and which bytes of them are uncorrectable, its read ranges, its tiles (number
and offset), the port block in use, and the steps taken. -/
structure NestRun where
  cfg : NestCfg
  acc : Bool
  o : Origin
  aent : List Byte
  bent : List Byte
  arun : Option (Nat × Nat)
  brun : Option (Nat × Nat)
  asnap : List Byte
  bsnap : List Byte
  abad : List Nat
  bbad : List Nat
  cba : List (BitVec 16)
  cbb : List (BitVec 16)
  reads : List Rng
  tiles : List (Nat × Nat)
  block : List Byte
  blockBad : List Nat
  taken : Nat
  started : Bool
deriving DecidableEq, Repr

/-- A word of the matrix walker on a tile, or a drain, after its issue (R140). -/
inductive MatOp
  | init (e : Int)
  | zero
  | norm
  | stat (d : Name) (row : Nat)
  | rsum (off : Nat) (mode : Rnd) (sat : Bool)
  | drain (fmt : Byte) (sat : Bool) (dst : Nat) (vs vz : Option Nat)
deriving DecidableEq, Repr

/-- Such a word waiting for its tile: the tile's offset, and for one that has begun to write, the cycle it lands. -/
structure MatWait where
  o : Origin
  tile : Nat
  op : MatOp
  lands : Option Nat
deriving DecidableEq, Repr

/-- A line of the operand cache (R142); `bad` are the units that read with an uncorrectable error. -/
structure OLine where
  vf : BitVec 6
  gen : BitVec 8
  key : LineKey
  bytes : List Byte
  bad : List Nat
deriving DecidableEq, Repr

/-- The memory operations of the control walker's queues (R216). Addresses are physical keys. -/
inductive MemOp
  | load (n : Nat) (sx : Bool) (key : Nat) (d : Name) (acq : Bool)
  | store (n : Nat) (key : Nat) (val : Word) (rel : Option Scope)
  | atom (req : AtomicReq) (d : Name) (dist : Nat)
  | tktake (n : Byte) (d : Name)
  | tknext (n : Byte) (sc : Scope)
  | tkwait (n : Byte) (t : BitVec 32)
  | mark
  /-- A TKNEXT that the dispenser has taken and that performs some cycles later (R217). -/
  | advanced
  /-- An entry that has left for its target, or an acquire that has read its value, and is not complete. -/
  | away
deriving DecidableEq, Repr

/-- An entry of the load or store queue. `ready` is the core cycle from which its latency has passed (for a
release, none until the release holds). -/
structure QOp where
  o : Origin
  op : MemOp
  ready : Option Nat
deriving DecidableEq, Repr

/-- A translation (R208): `big` for a 2 MiB page, `page` its base address, `phys` the key of its first byte, `count` the
galleys that hold it, `gone` that Press has removed it, `id` the name under which galleys hold it. -/
structure TEnt where
  vf : BitVec 6
  gen : BitVec 8
  space : BitVec 2
  page : Nat
  big : Bool
  w : Bool
  phys : Nat
  count : Nat
  gone : Bool
  id : Nat
deriving DecidableEq, Repr

/-- 64 cells of the array (R257, R258), one tag unit. -/
structure CellGroup where
  tag : Tag
  s : BitVec 64
  clamp : BitVec 64
  colour : Tbl Nat
  bias : Tbl Int
  count : Tbl Nat
deriving DecidableEq, Repr

/-- A coupling list, one tag unit (R258, R260): entries (weight, halo, index). -/
structure CList where
  tag : Tag
  entries : List (Int × Bool × Nat)
deriving DecidableEq, Repr

/-- The control block of the array (R259). -/
structure GCtl where
  tag : Tag
  beta : BitVec 32
  seed : Word
  sweep : Word
  bip : Bool
  replay : Bool
  forced : Bool
  nact : Nat
  gates : Nat
deriving DecidableEq, Repr

/-- The sticky status bits (R270). -/
structure GStatus where
  conflict : Option (Nat × Nat)
  health : Nat
  loaderr : Bool
  badentry : Bool
  cmfull : Bool
  cntsat : Bool
  clip : Bool
  uncoloured : Bool
deriving DecidableEq, Repr

/-- A sweep in progress (R263, R269): the word, the sweeps left, the gate, and the halo as it stood at the gate's start,
under its tag. -/
structure Sweep where
  o : Origin
  left : Nat
  gate : Nat
  h0Tag : Tag
  h0 : List Byte
deriving DecidableEq, Repr

/-- An array word between its issue and its completion (R268, R271); `check` is the colouring check at its end. -/
inductive GibbsOp
  | mode (bip replay : Bool) (n : Nat)
  | load (ent : List Byte) (first : Nat)
  | bias (ent : List Byte) (first : Nat)
  | colour (gates first : Nat) (vals : List Byte)
  | beta (v : BitVec 32)
  | seed (v : Word)
  | clamp (mask states : List Byte)
  | free (mask : List Byte)
  | clear
  | skip (k : Nat)
  | check
deriving DecidableEq, Repr

/-- The Gibbs array (R257 to R270). -/
structure Gibbs where
  groups : Tbl CellGroup
  lists : Tbl CList
  haloTag : Tag
  halo : List Byte
  ctl : GCtl
  status : GStatus
  sweep : Option Sweep
  word : Option GibbsOp
deriving DecidableEq, Repr

/-- A completion counter (R370). -/
structure Counter where
  tag : Tag
  done : Nat
  errs : Nat
  last : Byte
deriving DecidableEq, Repr

/-- A group (R379, R380): members as (module, core), the digest, the digests that have arrived (by member index),
whether it is invalid, and the next sequence number. -/
structure Group where
  members : List (BitVec 12 × BitVec 8)
  me : Nat
  digest : List Byte
  got : List (Nat × List Byte)
  defined : Bool
  invalid : Bool
  seq : Nat
deriving DecidableEq, Repr

/-- A request on the arbitrated ports (R27). -/
structure Claim where
  age : Nat
  banks : BitVec 32
deriving DecidableEq, Repr

/-- A galley or fabric line held for a frozen core (R284): key, bytes, tag of its write, poison, and what it is
the line of: a galley, or the last of a PUT, to be answered when it is written. -/
structure HeldLine where
  key : Nat
  bytes : List Byte
  vf : BitVec 6
  gen : BitVec 8
  poison : Bool
  galley : Option Nat
  put : Option Packet
deriving DecidableEq, Repr

/-- A blocked control walker's wait for a launch (R81). -/
structure WaitSt where
  o : Origin
  d : Name
  handle : Word
deriving DecidableEq, Repr

/-- A core. Times in it are core cycles, which stand still while it is frozen; `popped` counts the pops of the present
cycle by queue, `granted` the waits granted in it by semaphore (R20), `moves` are the ages of the accesses of VLD and VST
between views that have not landed (R217). `claimed` are the banks granted in the cycle, `standing` the requests replayed
in it and `asking` those to be replayed in the next (R27). `running` is the running copy of the nest configuration (R131),
`macBad` the cells of the MAC array, by row and column, that show a parity error in the next step (R144). -/
structure Core where
  ctx : Ctx
  live : Bool
  vf : BitVec 6
  gang : Nat
  gangIndex : BitVec 8
  gangCount : BitVec 8
  base : Nat
  words : Nat
  time : Nat
  clk : Word
  step : Word
  frozen : Option FreezeCause
  wC : WalkerSt
  wV : WalkerSt
  wM : WalkerSt
  wX : WalkerSt
  wG : WalkerSt
  wF : WalkerSt
  x : Tbl Word
  scoreboard : List Nat
  retStack : List Nat
  slip : Nat
  stalls : Nat
  slipHeld : Bool
  latches : List Latch
  sems : Tbl Sem
  queues : Tbl (List QEntry)
  popped : Tbl Nat
  granted : Tbl Nat
  views : Tbl ViewReg
  aviews : Tbl ViewReg
  codebooks : Tbl Codebook
  ports : Tbl PortSt
  vstat : BitVec 7
  vpend : List (Nat × Nat × Nat)
  moves : List Nat
  fixedNow : List (Nat × Nat × Nat)
  shadow : NestCfg
  running : NestCfg
  nest : Option NestRun
  busyTiles : List (Nat × Nat × Nat)
  matq : List MatWait
  macBad : List (Nat × Nat)
  merrlog : Word
  ocache : List OLine
  lq : List QOp
  sq : List QOp
  xpoison : Nat
  xoor : Nat
  empty : List Nat
  gibbs : Gibbs
  counters : Tbl Counter
  groups : Tbl Group
  mismatch : Bool
  bankLoss : Tbl Nat
  claimed : BitVec 32
  standing : List Claim
  asking : List Claim
  held : List HeldLine
  tcache : List TEnt
  nextTrans : Nat
  walkFault : List (Nat × BitVec 2 × Bool)
  tickets : Option (Byte × BitVec 32)
  waitl : Option WaitSt
  xfence : Option Origin
  agenda : List (Nat × Instr)
deriving DecidableEq, Repr

/-- Reset of a tag: the void tag (R307). -/
def voidTag : Tag := ⟨false, 0, 0⟩

/-- A port at kernel start: armed, at its first block (R126). -/
def PortSt.reset : PortSt := ⟨true, [], 0, [], []⟩

def NestLevel.reset : NestLevel := ⟨1, 0, 0, 0, 0, 0⟩

/-- R131: counts 1, steps 0, sources unset, formats 0x02, destination a0. -/
def NestCfg.reset : NestCfg :=
  { levels := List.replicate 6 NestLevel.reset, asrc := none, bsrc := none, aorgk := 0, aorgr := 0, borgk := 0,
    borgc := 0, afmt := 2, bfmt := 2, zp := false, cbsel := false, cb := 0, dest := 0 }

def GCtl.reset : GCtl := ⟨voidTag, 0, 0, 0, false, false, false, 0, 0⟩

def GStatus.reset : GStatus := ⟨none, 0, false, false, false, false, false, false⟩

def Gibbs.reset : Gibbs := ⟨[], [], voidTag, [], GCtl.reset, GStatus.reset, none, none⟩

/-- A core after reset: no kernel, every register at the value of R294, R295 or log entry 1. -/
def Core.reset : Core :=
  { ctx := .tenant, live := false, vf := 0, gang := 0, gangIndex := 0, gangCount := 0, base := 0, words := 0,
    time := 0, clk := 0, step := 0, frozen := none, wC := WalkerSt.start, wV := WalkerSt.start,
    wM := WalkerSt.start, wX := WalkerSt.start, wG := WalkerSt.start, wF := WalkerSt.start, 
    x := [], scoreboard := [], retStack := [], slip := 256, stalls := 0, slipHeld := false, latches := [],
    sems := [], queues := [], popped := [], granted := [], views := [], aviews := [], codebooks := [], ports := [], vstat := 0,
    vpend := [], moves := [], fixedNow := [], shadow := NestCfg.reset, running := NestCfg.reset, nest := none, busyTiles := [], matq := [], macBad := [],
    merrlog := 0, ocache := [], lq := [], sq := [], xpoison := 0, xoor := 0, empty := [],
    gibbs := Gibbs.reset, counters := [], groups := [], mismatch := false, bankLoss := [], claimed := 0, standing := [], asking := [],
    held := [], tcache := [], nextTrans := 0, walkFault := [], tickets := none, waitl := none, xfence := none, agenda := [] }

/-- The state of a VF in its status word (R311). -/
inductive VfState | running | stopping | stopped
deriving DecidableEq, Repr

/-- The field values of a region control block after resolution (R291, R292). -/
structure Rcb where
  kind : Nat
  prio : Nat
  faultdom : Bool
  text : Nat
  textlen : Nat
  textoff : Nat
  words : Nat
  param : Nat
  paramlen : Nat
  paramoff : Nat
  fault : Nat
  exch : Nat
  coreset : Nat
  ncores : Nat
  power : Nat
  fabric : Nat
  vault : Nat
  slice : Nat
  children : List Nat
deriving DecidableEq, Repr

/-- A kick in a ring (R298): from the host, or of a LAUNCH, whose launch it names. `taken` is what its acceptance
has read so far: the cycle in which it goes on, the block, none where that fails a check, and the patch once it is copied, with the
offsets of its granules that came poisoned (R291, R398, R414). -/
structure Kick where
  patch : Nat
  pv : Bool
  bad : Bool
  fromLaunch : Option Nat
  taken : Option (Nat × Option Rcb × Option (List Byte × List Nat))
deriving DecidableEq, Repr

/-- One VF: its partition record (R306), generation and sets (R287), status word (R311), counters (R308), kick
page (R297), policy (R219), count of uncorrectable vault errors (R322), the microsecond in which it last injected and its flits
then, by launch, 0 for the whole VF (R356), dirty bits (R312), held host accesses (R313), and what Press sees of its counters,
telemetry included (R341). -/
structure Vf where
  created : Bool
  gen : BitVec 8
  pend : List Nat
  old : List Nat
  status : VfState
  statusGen : BitVec 8
  stops : Nat
  record : List Byte
  policy : BitVec 2
  staledrop : Nat
  voiddrop : Nat
  qrcb : Tbl Word
  rings : Tbl (List Kick)
  accepted : Tbl Nat
  retired : Tbl Nat
  dropped : Tbl Nat
  refused : Tbl Nat
  vaultErrors : Nat
  injected : Nat × Tbl Nat
  dirty : List Nat
  heldHost : List (Nat × Option (List Byte) × Nat)
  coarse : Tbl Nat
deriving DecidableEq, Repr

/-- A VF after reset: not created, generation 1 (R323). -/
def Vf.reset : Vf :=
  { created := false, gen := 1, pend := [], old := [], status := .running, statusGen := 0, stops := 0, record := [],
    policy := 0, staledrop := 0, voiddrop := 0, qrcb := [], rings := [], accepted := [], retired := [],
    dropped := [], refused := [], vaultErrors := 0, injected := (0, []), dirty := [], heldHost := [], coarse := [] }

/-- Where a launch stands (R299); `refused` is one whose block failed a check when it was accepted (R293). -/
inductive LaunchSt | waiting | running | retired | aborted | refused
deriving DecidableEq, Repr

/-- A launch in the tree (R292, R296, R299, R300): its block resolved, the node above it, whether that node lists it,
the gang of the LAUNCH that made it, its depth, the patch it captured and the offsets of the patch's poisoned granules, and the reason for which its
acceptance refuses its block (R80). `order` is its place in the order of
acceptance, `ready` the cycle from which its gang may be placed. -/
structure Launch where
  vf : BitVec 6
  gen : BitVec 8
  queue : BitVec 4
  addr : Nat
  rcb : Rcb
  parent : Option Nat
  listed : Bool
  byGang : Option Nat
  depth : Nat
  st : LaunchSt
  patch : Option (List Byte)
  patchBad : List Nat
  reason : Nat
  collected : Bool
  nextChild : Nat
  order : Nat
  ready : Nat
deriving DecidableEq, Repr

/-- The exchange phase of a gang (R302 to R304): the uncore cycle of the gang's first core that it began in, so that a freeze
suspends it, its planned length, its slots (start, source, destination, lines) and those that a galley has taken, and the
GXCHs that have published. -/
structure Phase where
  began : Nat
  len : Nat
  slots : List (Nat × Nat × Nat × Nat)
  used : List Nat
  published : List Nat
deriving DecidableEq, Repr

/-- A gang of cores in gang order (R296, R299): what freezes it and whether its save is written, its fault area, the
cores whose kernel has ended, where its superstep stands, the end of its slice, its frequency level and the one that the
governor has set for its next exchange phase (R305), its place among launches of its priority, and the trap records still to
be written, each with its word (R318). `thaw` are the THAWs that have asked for its resumption (R328). -/
structure Gang where
  vf : BitVec 6
  gen : BitVec 8
  launch : Nat
  cores : List Nat
  frozen : Option FreezeCause
  saved : Bool
  area : Nat
  areaHost : Bool
  ended : List Nat
  closing : Bool
  phase : Option Phase
  sliceAt : Nat
  level : BitVec 4
  nextLevel : BitVec 4
  order : Nat
  records : List (Origin × List Byte)
  thaw : List (Origin × Name)
deriving DecidableEq, Repr

/-- Bytes a galley piece takes from: memory by key, zeros or a fill, or the pieces put together. -/
inductive PieceSrc
  | mem (parts : List Rng)
  | fill (b : Byte) (n : Nat)
  | data (bs : List Byte) (poison : Bool)
  /-- Bytes on their way from the pool, and the pool ports they come by. -/
  | pooled (ports : List Nat) (bs : List Byte) (poison : Bool)
deriving DecidableEq, Repr

/-- One line a galley moves: what it takes, its target, the target's device virtual address in the pool or the host,
the cycle from which it may be sent, or when it lands, the places in it that it leaves as they are (offset and length), and
once it is sent the delay of its acknowledgement. -/
structure Piece where
  src : PieceSrc
  dst : Nat
  va : Nat
  due : Nat
  holes : List (Nat × Nat)
  ack : Nat
deriving DecidableEq, Repr

/-- A line as a plan begins with it. -/
def Piece.of (src : PieceSrc) (dst va due : Nat) : Piece := ⟨src, dst, va, due, [], 0⟩

/-- An encrypted side of a copy (R333 to R336): the key, version, tensor, base and extent. -/
structure Crypt where
  key : List Byte
  version : BitVec 32
  tensor : BitVec 12
  base : Nat
  extent : Nat
  live : Bool
deriving DecidableEq, Repr

/-- What a galley does (R237 to R241, R281, R371). -/
inductive Job
  | copy (src dst : List Byte) (sc dc : Option Crypt)
  | copyv
  | gath (ent : List Byte) (count pitch : Nat) (sc : Option Crypt)
  | scat (ent : List Byte) (count pitch : Nat)
  | fill (b : Byte)
  | pref (ent : List Byte) (t : BitVec 12) (first count : Nat)
  | gxch
  | put (dstMod : BitVec 12) (dstCore : BitVec 8) (rs : Bool) (daddr : Nat)
  | coll (kind : CollKind) (group : BitVec 4) (seq : Nat)
deriving DecidableEq, Repr

/-- A source line that a galley has read, whole (R213, R230, R236): its key, its bytes, and whether it was uncorrectable. -/
structure SrcLine where
  key : Nat
  bytes : List Byte
  bad : Bool
deriving DecidableEq, Repr

/-- A galley in flight (R206, R210, R211, R236): `plan` are the lines not yet read, due in its core's cycles, `flight`
those on their way, due in the module's, `lines` the source lines read that some line of the plan takes more bytes of,
`pages` the translations it holds (R208),
`lastAt` the last landing planned, `ack` the cycle of the last acknowledgement, `waitAck` the lines that the pool, the
host or a frozen core still holds, `farAge` the age of its acceptance by another core (R194). -/
structure Galley where
  core : Nat
  gang : Nat
  o : Origin
  vf : BitVec 6
  gen : BitVec 8
  job : Job
  reads : List Rng
  writes : List Rng
  disp : BitVec 16
  rel : Option Scope
  exch : Bool
  accepted : Bool
  started : Bool
  moved : Bool
  plan : List Piece
  flight : List Piece
  lines : List SrcLine
  pages : List Nat
  stream : Bool
  counter : Option (BitVec 4)
  code : Byte
  lastAt : Nat
  ack : Nat
  waitAck : Nat
  farAge : Option Nat
deriving DecidableEq, Repr

/-- The age of a galley's requests at a core: at its own that of its enqueue (R27), at another that of its acceptance
(R194). -/
def Galley.ageAt (g : Galley) (c : Nat) : Nat := if c = g.core then g.o.age else g.farAge.getD g.o.age

/-- A dispenser (R252, R254). `seen` is what quarters other than its home have been told. -/
structure Dispenser where
  tag : Tag
  next : BitVec 32
  serving : BitVec 32
  home : Nat
  seen : BitVec 32
deriving DecidableEq, Repr

/-- A key slot (R329). -/
structure KeySlot where
  tag : Tag
  key : List Byte
  sharing : Bool
  publisher : Nat
deriving DecidableEq, Repr

/-- A line on its way to the pool or the host (R217, R233): in the pool write coalescer until it is sent, then until
the device acknowledges it. `owners` are the galleys' cores, ages and gangs, `galley` one that waits for the
acknowledgement (a galley that does not stream). -/
structure CoalLine where
  key : Nat
  bytes : List (Option Byte)
  va : Nat
  host : Bool
  owners : List (Nat × Nat × Nat)
  vf : BitVec 6
  poison : Bool
  sent : Bool
  galley : Option Nat
deriving DecidableEq, Repr

/-- A save slot in use (R315): the gang, its VF and generation, the core, the slot's vault address, the core's state that
no byte of the slot is laid out for, and, once another gang has the core, the marks of its register space (R214). -/
structure Save where
  gang : Nat
  vf : BitVec 6
  gen : BitVec 8
  core : Nat
  addr : Nat
  image : Core
  poison : List Nat
  badLines : List Nat
deriving DecidableEq, Repr

/-- A reply-cache entry (R360). -/
structure Reply where
  key : ReplyKey
  tag : Tag
  resp : Response
  rack : Bool
  stamp : BitVec 32
deriving DecidableEq, Repr

/-- Port states (R367). -/
inductive PortState | down | training | active | draining | dark | relock
deriving DecidableEq, Repr

/-- A fabric port (R348, R353, R355, R367, R392). `mask` are the wavelengths in use. `tx` holds the flits sent and not
acknowledged, oldest first, as (sequence number, cycle of sending, bytes as first sent), `rest` the flits of a packet begun,
`restOf` the arrival of that packet when it is relayed (R365), `replaying` that a replay is to go first. By VC: `allow` are the units left,
`segs` the segments in flight, oldest first, each with the VF and generation that injected it here, `freed` and
`credited` the counts of units freed here and received through CREDIT, `sure` the counts that the peer is known to have
received, and `queue` the packets that wait to be sent, each with the port and the VC it came by and its place in the order of
arrival. `resps` are the responses that wait, each with the port and the number of the segment it came by, and `halves` the
responses of each such segment of this port that are still here. `partials` are the packets not yet whole: header, lines
to come, lines. `waiter` is the FLNK that drives the port. -/
structure FPort where
  st : PortState
  mask : BitVec 16
  retraining : Option (BitVec 2)
  late : Nat
  err : Nat
  tx : List (Nat × Nat × List Byte)
  rest : List (Bool × List (Nat × List Byte))
  restOf : Option Nat
  replaying : Bool
  nextSeq : Nat
  lastRx : Nat
  rreq : Bool
  allow : Tbl Nat
  segs : Tbl (List (Option (BitVec 6 × BitVec 8)))
  freed : Tbl Nat
  credited : Tbl Nat
  sure : Tbl Nat
  partials : List (List Byte × Nat × List Byte)
  queue : Tbl (List (Option (Nat × Nat) × Nat × Packet))
  resps : List (Option (Nat × Nat) × Response)
  halves : Tbl Nat
  ploughed : List Nat
  newCircuit : Bool
  waiter : Option (Origin × Name)
deriving DecidableEq, Repr

def FPort.reset : FPort :=
  { st := .down, mask := 0, retraining := none, late := 0, err := 0, tx := [], rest := [], restOf := none
    replaying := false, nextSeq := 1, lastRx := 0, rreq := false, allow := [], segs := [], freed := [], credited := [], sure := [], partials := [], queue := [], resps := [], halves := []
    ploughed := []
    newCircuit := false, waiter := none }

/-- A routing table (R363, R390): the hop bound, GMASK by group and MPORT by member; `used` once it has been put in
force and until it is ploughed out. -/
structure RouteTbl where
  loaded : Bool
  used : Bool
  hops : Nat
  gmask : Tbl (BitVec 64)
  mport : Tbl Byte
deriving DecidableEq, Repr

/-- What an outstanding operation completes (R358, R361). -/
inductive OpFor
  | galley (id : Nat)
  | atom (o : Origin) (d : Name)
  | pull (o : Origin) (n : BitVec 4)
  | coll (m : CollMsg)
deriving DecidableEq, Repr

/-- An operation its source keeps until it is answered (R358, R359): `acked` is the answer of a PUT that was reissued. -/
structure FabOp where
  core : Nat
  gang : Nat
  pkt : Packet
  tries : Nat
  acked : Option Byte
  what : OpFor
deriving DecidableEq, Repr

/-- A group word in progress at a member (R379 to R386): FGRP, FBAR or a collective. `got` are the messages that have
reached it, by member, `inRows` the strings that have and are not taken up, and `seen` the addresses of the rows written; `mine` this
member's contribution to a sum, `own` a code that stays its own, `recs` and `rows`
its records and their bytes, `waiting` the strings or rows not yet answered, `landed` the rows or strings received, `read` the bytes of its string read,
`todo` the lines still to be written, each with its key and whether it is poisoned, `stage` how far it has come. -/
structure Coll where
  core : Nat
  gang : Nat
  vf : BitVec 6
  gen : BitVec 8
  group : BitVec 4
  seq : Nat
  kind : CollKind
  galley : Option Nat
  o : Origin
  members : List (BitVec 12 × BitVec 8)
  me : Nat
  card : List Byte
  ents : List Byte × List Byte
  shape : List Nat
  got : List (Nat × CollKind × CollBody)
  inRows : List CollMsg
  seen : List Nat
  mine : List PartialRow
  own : Byte
  recs : List KeyRec
  rows : List (Nat × List Byte)
  waiting : Nat
  landed : Nat
  read : Nat
  todo : List (Nat × List Byte × Bool)
  code : Byte
  stage : Nat
deriving DecidableEq, Repr

/-- What the module has sent to the world outside (log entry 3). -/
inductive Sent
  | flit (port : BitVec 7) (bytes : List Byte)
  | msix (vf : Option (BitVec 6)) (vector : Nat)
  | hostRead (vf : BitVec 6) (addr : Nat) (bytes : List Byte)
  | pressLog (rec : List Byte)
  | poolLine (key : Nat) (bytes : List Byte)
  | hostLine (key : Nat) (bytes : List Byte)
deriving DecidableEq, Repr

/-- The machine. `joined` says that link training has brought the time of the domain (R358); `collParts` are the packets of group messages
that are not whole; `coarseBanks` are the bank-loss counters of the cores as Press sees them in a window (R28, R341). -/
structure State where
  now : Nat
  cur : Nat
  curW : Walker
  mem : Memory
  tags : Tbl Tag
  poison : List Nat
  badLines : List Nat
  cores : Tbl Core
  vfs : Tbl Vf
  coarseBanks : Tbl (List Nat)
  dispensers : Tbl Dispenser
  keys : Tbl KeySlot
  galleys : Tbl Galley
  nextGalley : Nat
  launches : Tbl Launch
  nextLaunch : Nat
  gangs : Tbl Gang
  nextGang : Nat
  saves : Tbl Save
  coalescer : Tbl CoalLine
  nextLine : Nat
  laps : Nat
  lapWaiters : List (Origin × Name)
  genWaiters : List (Origin × Name × BitVec 6)
  poolDown : List Nat
  islands : Tbl (BitVec 4)
  forcedHot : Bool
  supply : BitVec 4
  limit : Nat
  phase : BitVec 4
  q0up : Bool
  reduced : List Nat
  resp : Word
  reqbuf : List Byte
  rspbuf : List Byte
  events : Tbl (List Byte)
  eventHead : Nat
  digestPatch : List Byte
  digestPress : List Byte
  digestConfig : List Byte
  configRecord : List Byte
  moduleId : BitVec 12
  domainTime : Nat
  joined : Bool
  fports : Tbl FPort
  route0 : RouteTbl
  route1 : RouteTbl
  rv : Bool
  ploughRound : Nat
  ploughVersion : Bool
  ploughOut : List (Nat × Nat)
  ploughWait : Option (Origin × Name)
  roundsEnded : Nat
  ploughedIn : List (Nat × BitVec 2 × Bool × BitVec 4 × Nat)
  replies : List Reply
  ops : Tbl FabOp
  rackTo : Tbl Packet
  tagUse : Tbl Nat
  arrivals : Nat
  colls : Tbl Coll
  nextColl : Nat
  collWaits : List CollMsg
  collParts : List Packet
  nextFree : Nat
  outbox : List Sent
  agenda : List (Nat × Instr)
  inputs : List Instr
deriving DecidableEq, Repr

/-- Why the machine stops with a fault. -/
inductive Fault
  /-- Raised by the fabric steps (a flit, a lost light, a retraining, a circuit) that name a port the module does not
  have (R348). No run of the machine's own schedules one: it comes only of an input that names no port. Safe: the
  hardware has no such event. -/
  | noSuchUnit (what : String)
deriving DecidableEq, Repr

/-- Why the machine refuses. -/
inductive Refusal
  /-- Answered by an instruction that has no meaning in the model yet. Safe: nothing is claimed of it. -/
  | notModelled (mnemonic : String)
deriving DecidableEq, Repr

def RouteTbl.reset : RouteTbl := ⟨false, false, 0, [], []⟩

/-- The module after power-on: PHASE is RESET (R399), nothing is loaded, no VF is created, no kernel runs. -/
def State.reset : State :=
  { now := 0, cur := 0, curW := .C, mem := [], tags := [], poison := [], badLines := [], cores := [], vfs := [], coarseBanks := [], dispensers := [],
    keys := [], galleys := [], nextGalley := 0, launches := [], nextLaunch := 1, gangs := [], nextGang := 1,
    saves := [], coalescer := [], nextLine := 0, laps := 0, lapWaiters := [], genWaiters := [], poolDown := [],
    islands := [], forcedHot := false, supply := 0, limit := 2400, phase := 0,
    q0up := false, reduced := [], resp := 0, reqbuf := [], rspbuf := [], events := [],
    eventHead := 0, digestPatch := [], digestPress := [], digestConfig := [], configRecord := [],
    moduleId := 0, domainTime := 0, joined := false, fports := [], route0 := RouteTbl.reset, route1 := RouteTbl.reset, rv := false,
    ploughRound := 0, ploughVersion := false, ploughOut := [], ploughWait := none, roundsEnded := 0,
    ploughedIn := [], replies := [], ops := [], rackTo := [], tagUse := [], arrivals := 0, colls := [], nextColl := 0, collWaits := [], collParts := [],
    nextFree := 0, outbox := [], agenda := [], inputs := [] }

end Sys2Proof.Machine
end

