-- ==== Sys2Proof/Machine/Ops.lean ====
section
/-! DEFINITION. The shared operations of the machine: tables, memory and its tags, cores and walkers, semaphores
and completion, queues, traps, and the issue of a word. -/

namespace Sys2Proof.Machine

/-! ## Tables -/

/-- The entry of a number. -/
def Tbl.find {α : Type} : Tbl α → Nat → Option α
  | [], _ => none
  | (k, v) :: m, n => if k = n then some v else Tbl.find m n

/-- The entry of a number, or a default. -/
def Tbl.get {α : Type} (m : Tbl α) (n : Nat) (d : α) : α := (Tbl.find m n).getD d

/-- Sets the entry of a number, keeping the numbers in order. -/
def Tbl.put {α : Type} : Tbl α → Nat → α → Tbl α
  | [], n, v => [(n, v)]
  | (k, w) :: m, n, v =>
    if n < k then (n, v) :: (k, w) :: m
    else if k = n then (n, v) :: m
    else (k, w) :: Tbl.put m n v

/-- Removes the entry of a number. -/
def Tbl.del {α : Type} (m : Tbl α) (n : Nat) : Tbl α := m.filter (fun e => e.1 ≠ n)

/-- Changes the entry of a number, or a default. -/
def Tbl.upd {α : Type} (m : Tbl α) (n : Nat) (d : α) (f : α → α) : Tbl α := Tbl.put m n (f (Tbl.get m n d))

/-! ## Physical keys: one memory holds every space (R198) -/

def keyRS (core : Nat) (off : Nat) : Nat := 2 ^ 36 + core * 2 ^ 18 + off
def keySpill (core : Nat) (off : Nat) : Nat := 2 ^ 37 + core * 2 ^ 14 + off
/-- Management memory: context 0 Proof, 1 Press (R324). -/
def keyMgmt (c : Nat) (off : Nat) : Nat := 2 ^ 38 + c * 2 ^ 19 + off
def keyVault (vault : Nat) (off : Nat) : Nat := vault * 2 ^ 27 + off
def keyHost (a : Nat) : Nat := 2 ^ 53 + a
def keyPool (a : Nat) : Nat := 2 ^ 54 + a
/-- Press's translation tables, which Press's stores write in its own management memory (R207, R331; log entry 10). -/
def keyTable (a : Nat) : Nat := keyMgmt 1 (a % 2 ^ 19)
/-- The tensor table's SRAM (R116). -/
def keyTensor (vf t : Nat) : Nat := 2 ^ 56 + vf * 2 ^ 18 + t * 64

def isVault (k : Nat) : Bool := k < 2 ^ 35
def isRS (k : Nat) : Bool := 2 ^ 36 ≤ k && k < 2 ^ 37
def isSpill (k : Nat) : Bool := 2 ^ 37 ≤ k && k < 2 ^ 38
/-- Keys with tags (R307). -/
def isTagged (k : Nat) : Bool := isVault k || isRS k || isSpill k
def rsCore (k : Nat) : Nat := (k - 2 ^ 36) / 2 ^ 18
def rsOff (k : Nat) : Nat := (k - 2 ^ 36) % 2 ^ 18

/-- Bytes of a tag unit: 128 in register space, 64 elsewhere (R307). -/
def unitSize (k : Nat) : Nat := if isRS k then 128 else 64
/-- The first key of the tag unit that holds a key. -/
def unitOf (k : Nat) : Nat := k - k % unitSize k

/-! ## Bytes -/

/-- The byte at a key. -/
def memByte : Memory → Nat → Byte
  | [], _ => unlistedByte
  | (a, b) :: m, k => if a = k then b else memByte m k

/-- The cells of a run of bytes, leaving out what an unlisted key reads as. -/
def runCells : Nat → List Byte → Memory
  | _, [] => []
  | k, b :: bs => if b = unlistedByte then runCells (k + 1) bs else (k, b) :: runCells (k + 1) bs

/-- n bytes from a key, out of cells that hold the run. -/
def readFrom (m : Memory) (k n : Nat) : List Byte := (List.range n).map (fun i => memByte m (k + i))

/-- The cells of a run. -/
def window (m : Memory) (k n : Nat) : Memory := m.filter (fun c => k ≤ c.1 && c.1 < k + n)

/-- n bytes from a key: of the run's own cells only, and a long run in pieces of 64. -/
def memRead (m : Memory) (k n : Nat) : List Byte :=
  let win := window m k n
  if n ≤ 64 then readFrom win k n
  else (List.range (n / 64)).flatMap (fun b => readFrom (window win (k + 64 * b) 64) (k + 64 * b) 64) ++
    readFrom (window win (k + 64 * (n / 64)) (n % 64)) (k + 64 * (n / 64)) (n % 64)

/-- Writes a run of bytes from a key. -/
def memWrite (m : Memory) (k : Nat) (bs : List Byte) : Memory :=
  m.filter (fun c => c.1 < k) ++ runCells k bs ++ m.filter (fun c => k + bs.length ≤ c.1)

/-- Keys strictly rise. -/
def Memory.rising : Memory → Bool
  | [] => true
  | [_] => true
  | a :: b :: m => a.1 < b.1 && Memory.rising (b :: m)

/-- The canonical form: keys strictly rise and no cell holds what an unlisted key reads as. -/
def Memory.wf (m : Memory) : Bool := Memory.rising m && m.all (fun c => c.2 ≠ unlistedByte)

/-- The bytes zero. -/
def zeros (n : Nat) : List Byte := List.replicate n 0

/-- n bytes of a record from an offset, as a number (R3). -/
def field (bs : List Byte) (off n : Nat) : Nat := leNat ((bs.drop off).take n)

/-- A signed field. -/
def fieldS (bs : List Byte) (off n : Nat) : Int := signedOf (8 * n) (field bs off n)

/-- Splits a run of bytes into pieces that stay within blocks of a size: (key, length). -/
def splitAt (size : Nat) : Nat → Nat → Nat → List (Nat × Nat)
  | 0, _, _ => []
  | fuel + 1, k, n =>
    if n = 0 then [] else
      let l := min n (size - k % size)
      (k, l) :: splitAt size fuel (k + l) (n - l)

/-- The parts of a register-space run that single grants move: up to all banks once each (R26). -/
def grantRuns (off n : Nat) : List (Nat × Nat) := splitAt 4096 (n / 4096 + 2) off n

/-- The pieces of a run within its tag units. -/
def unitRuns (k n : Nat) : List (Nat × Nat) := splitAt (unitSize k) (n / 64 + 2) k n

/-! ## Cores and walkers -/

/-- Core numbers of the management cores (R331): Proof, then four of Press. -/
def proofCore : Nat := 256

/-- A core that nothing has touched: a tenant's, or a management core in its context. -/
def coreDefault (c : Nat) : Core :=
  if c = proofCore then { Core.reset with ctx := .proof }
  else if 256 < c then { Core.reset with ctx := .press } else Core.reset

def State.core (s : State) (c : Nat) : Core := Tbl.get s.cores c (coreDefault c)
def State.setCore (s : State) (c : Nat) (k : Core) : State := { s with cores := Tbl.put s.cores c k }
def State.modCore (s : State) (c : Nat) (f : Core → Core) : State := s.setCore c (f (s.core c))

def Core.w (k : Core) : Walker → WalkerSt
  | .C => k.wC | .V => k.wV | .M => k.wM | .X => k.wX | .G => k.wG | .F => k.wF

def Core.setW (k : Core) (w : Walker) (v : WalkerSt) : Core :=
  match w with
  | .C => { k with wC := v }
  | .V => { k with wV := v }
  | .M => { k with wM := v }
  | .X => { k with wX := v }
  | .G => { k with wG := v }
  | .F => { k with wF := v }

def Core.modW (k : Core) (w : Walker) (f : WalkerSt → WalkerSt) : Core := k.setW w (f (k.w w))
def State.modW (s : State) (c : Nat) (w : Walker) (f : WalkerSt → WalkerSt) : State :=
  s.modCore c (fun k => k.modW w f)

def allWalkers : List Walker := [.C, .V, .M, .X, .G, .F]

def walkerNum : Walker → Nat
  | .C => 0 | .V => 1 | .M => 2 | .X => 3 | .G => 4 | .F => 5

/-! ## VFs, generations and tags -/

def State.vf (s : State) (v : Nat) : Vf := Tbl.get s.vfs v Vf.reset
def State.modVf (s : State) (v : Nat) (f : Vf → Vf) : State := { s with vfs := Tbl.upd s.vfs v Vf.reset f }

/-- gen_of (R8). -/
def State.gen (s : State) (v : BitVec 6) : BitVec 8 := (s.vf v.toNat).gen

/-- The tag under which a core writes (R307; the firmware contexts' tags are log entry 7). -/
def State.ownTag (s : State) (c : Nat) : Tag :=
  let k := s.core c
  match k.ctx with
  | .tenant => ⟨false, k.vf, s.gen k.vf⟩
  | .proof => ⟨true, 0, 1⟩
  | .press => ⟨true, 1, 1⟩

/-- tag_ok of R8 for a tenant, and its counterpart for a firmware context: the tag is the reader's own. -/
def tagOk (own t : Tag) : Bool := t = own && t.gen ≠ 0

/-- Whether a tag is current for its VF (R310). -/
def State.tagCurrent (s : State) (t : Tag) : Bool := t.fw || (t.gen ≠ 0 && s.gen t.vf = t.gen)

def State.tagAt (s : State) (k : Nat) : Tag := Tbl.get s.tags (unitOf k) voidTag

/-- Adds to STALEDROP of a VF (R308). -/
def State.staleDrop (s : State) (v : BitVec 6) (n : Nat) : State :=
  s.modVf v.toNat (fun f => { f with staledrop := satAdd 64 f.staledrop n })

/-- Adds to VOIDDROP of a VF (R308). -/
def State.voidDrop (s : State) (v : BitVec 6) (n : Nat) : State :=
  s.modVf v.toNat (fun f => { f with voiddrop := satAdd 64 f.voiddrop n })

/-! ## Reads and writes of tagged bytes -/

/-- What a poison mark or an uncorrectable error stands on: a granule of register space, a line elsewhere (R22, R214;
log entry 62). -/
def markOf (k : Nat) : Nat := if isRS k then k - k % 4 else k - k % 64

/-- A line, or a granule of register space, that reads with an uncorrectable error or carries a poison mark (R214). -/
def State.lineBad (s : State) (k : Nat) : Bool := s.poison.contains (markOf k) || s.badLines.contains (markOf k)

/-- Marks and errors that a property names are gone. -/
def State.clearMarks (s : State) (p : Nat → Bool) : State :=
  { s with poison := s.poison.filter (fun k => !p k), badLines := s.badLines.filter (fun k => !p k) }


/-- n bytes from a key as a reader of the given tag sees them: zeros where the tag is not its own (R9). -/
def State.read (s : State) (own : Tag) (k n : Nat) : List Byte :=
  if isTagged k then
    (unitRuns k n).flatMap (fun r => if tagOk own (s.tagAt r.1) then memRead s.mem r.1 r.2 else zeros r.2)
  else memRead s.mem k n

/-- As `read`, with a vault line that is poisoned or in error read as zeros (R214). -/
def State.readClean (s : State) (own : Tag) (k n : Nat) : List Byte :=
  if isVault k then
    (unitRuns k n).flatMap (fun r =>
      if tagOk own (s.tagAt r.1) && !s.lineBad r.1 then memRead s.mem r.1 r.2 else zeros r.2)
  else s.read own k n

/-- Whether some line of a vault run is poisoned or in error, under the reader's own tag. -/
def State.anyBad (s : State) (own : Tag) (k n : Nat) : Bool :=
  isVault k && (unitRuns k n).any (fun r => tagOk own (s.tagAt r.1) && s.lineBad r.1)

/-- Whether a register-space run touches the descriptor of a port (R126). -/
def touchesPort (off n i : Nat) : Bool := off < 0x3FC00 + 64 * i + 64 && 0x3FC00 + 64 * i < off + n

/-- Ports of a core whose descriptors a register-space run touches are armed again, and what they were fetching is dropped
(R126, R128). -/
def rearm (k : Core) (off n : Nat) : Core :=
  if off + n ≤ 0x3FC00 then k else
    { k with
      ports := (List.range 16).foldl (fun m i => if touchesPort off n i then Tbl.put m i PortSt.reset else m) k.ports
      agenda := k.agenda.filter (fun e => match e.2 with
        | .portPrefetch _ p => !(touchesPort off n p.toNat)
        | _ => true) }

/-- Writes bytes within one tag unit: a unit under another tag is first all zero, and full (R22, R249, R258). A vault line that
is written whole is free of marks, and one that is written in part keeps them (R214). -/
def State.writeUnit (s : State) (tag : Tag) (k : Nat) (bs : List Byte) : State :=
  let u := unitOf k
  let fresh := s.tagAt k ≠ tag
  let mem0 := if fresh then memWrite s.mem u (zeros (unitSize k)) else s.mem
  let s1 := { s with mem := memWrite mem0 k bs, tags := Tbl.put s.tags u tag }
  if isRS k then
    s1.modCore (rsCore k) (fun c =>
      let c1 := if fresh then
          { c with empty := c.empty.filter (fun g => !(rsOff u ≤ 4 * g && 4 * g < rsOff u + 128)) } else c
      rearm c1 (rsOff k) bs.length) |>.clearMarks (fun m => isRS m &&
        ((fresh && u ≤ m && m < u + 128) || (k ≤ m && m + 4 ≤ k + bs.length)))
  else if isVault k && bs.length = 64 then s1.clearMarks (· = u)
  else s1

/-- Writes a run of bytes under a tag; pool, host and management bytes carry none. -/
def State.write (s : State) (tag : Tag) (k : Nat) (bs : List Byte) : State :=
  if isTagged k then
    ((unitRuns k bs.length).foldl (fun (a : State × List Byte) r =>
      (a.1.writeUnit tag r.1 (a.2.take r.2), a.2.drop r.2)) (s, bs)).1
  else { s with mem := memWrite s.mem k bs }

/-! ## Full bits (R22 to R24) -/

/-- Whether every granule of a register-space run of a core is full; a stale granule counts as full. -/
def State.full (s : State) (c off n : Nat) : Bool :=
  let own := s.ownTag c
  ((s.core c).empty).all (fun g =>
    !(off < 4 * g + 4 && 4 * g < off + n) || !tagOk own (s.tagAt (keyRS c (4 * g))))

/-- The granules of a run. -/
def granules (off n : Nat) : List Nat :=
  if n = 0 then [] else (List.range ((off + n - 1) / 4 - off / 4 + 1)).map (· + off / 4)

/-- Marks the granules of a run empty; stale units are first zero, full and tagged (R22). -/
def State.markEmpty (s : State) (tag : Tag) (c off n : Nat) : State :=
  let s1 := (unitRuns (keyRS c off) n).foldl (fun (a : State) r =>
    if a.tagAt r.1 ≠ tag then a.writeUnit tag (unitOf r.1) (zeros 128) else a) s
  s1.modCore c (fun k => { k with
    empty := k.empty.filter (fun g => !(off < 4 * g + 4 && 4 * g < off + n)) ++ granules off n })

/-- Marks the granules of a run full. -/
def State.markFull (s : State) (c off n : Nat) : State :=
  s.modCore c (fun k => { k with empty := k.empty.filter (fun g => !(off < 4 * g + 4 && 4 * g < off + n)) })

/-! ## Agendas -/

/-- Walker cycles of one uncore cycle (R5). -/
def uncore : Nat := 2

/-- Adds an event after those due no later. -/
def addDue (t : Nat) (i : Instr) : List (Nat × Instr) → List (Nat × Instr)
  | [] => [(t, i)]
  | (u, j) :: l => if u ≤ t then (u, j) :: addDue t i l else (t, i) :: (u, j) :: l

/-- Schedules an event of the module. -/
def State.after (s : State) (d : Nat) (i : Instr) : State := { s with agenda := addDue (s.now + d) i s.agenda }

/-- Schedules an event inside a core, in its own cycles, so that a freeze keeps what remains (R314, R317). -/
def State.later (s : State) (c d : Nat) (i : Instr) : State :=
  s.modCore c (fun k => { k with agenda := addDue (k.time + d) i k.agenda })

/-! ## Partitions and vault addresses (R200, R306) -/

/-- The physical vault of a slot of a VF. -/
def State.slotVault (s : State) (v : BitVec 6) (slot : Nat) : Option Nat :=
  let r := (s.vf v.toNat).record
  if bitOf (field r 576 32) slot then some (field r (288 + slot) 1) else none

/-- A run of partition-relative vault bytes as runs of keys; none when it leaves the vault map. -/
def State.vaultRuns (s : State) (v : BitVec 6) (a n : Nat) : Option (List Rng) :=
  if 2 ^ 35 < a + n then none
  else (splitAt (2 ^ 27) (n / 2 ^ 27 + 2) a n).foldr (fun r acc =>
    match s.slotVault v (r.1 / 2 ^ 27), acc with
    | some p, some l => some (⟨keyVault p (r.1 % 2 ^ 27), r.2⟩ :: l)
    | _, _ => none) (some [])

/-- The key of one partition-relative vault byte. -/
def State.vaultKey (s : State) (v : BitVec 6) (a : Nat) : Option Nat :=
  if 2 ^ 35 ≤ a then none
  else (s.slotVault v (a / 2 ^ 27)).map (fun p => keyVault p (a % 2 ^ 27))

/-- The key of a run wholly in the core's local vault (R70, R199); vault c is core c's. -/
def State.localKey (s : State) (c : Nat) (a n : Nat) : Option Nat :=
  if a / 2 ^ 27 = (a + n - 1) / 2 ^ 27 then
    match s.vaultKey (s.core c).vf a with
    | some k => if k / 2 ^ 27 = c then some k else none
    | none => none
  else none

/-- The partition record's cores (R306). -/
def State.vfCores (s : State) (v : Nat) : Nat := field (s.vf v).record 256 32

/-- Whether reduced service holds for a core: while the module is brought up, and after READY until the next superstep
boundary of its gang (R400). -/
def State.inReduced (s : State) (c : Nat) : Bool :=
  (s.q0up && 3 ≤ s.phase.toNat && s.phase.toNat ≤ 5) || s.reduced.contains (s.core c).gang

/-! ## Footprints (R210, R212) -/

def Rng.overlaps (a b : Rng) : Bool := a.key < b.key + b.len && b.key < a.key + a.len

/-- The write ranges that stand in a core's range scoreboard: its galleys', its nest's tiles and its VACCs', and
other cores' galleys accepted at its vault. Galleys of a gang that another has displaced count with their core's
(log entry 64). -/
def State.footprints (s : State) (c : Nat) : List Rng :=
  let k := s.core c
  s.galleys.flatMap (fun g =>
    if g.2.core = c then g.2.writes
    else if g.2.accepted && !g.2.moved then g.2.writes.filter (fun r => isVault r.key && r.key / 2 ^ 27 = c)
    else [])
  ++ (match k.nest with
    | some n => n.tiles.map (fun t => ⟨keyRS c t.2, 12288⟩)
    | none => [])
  ++ k.busyTiles.map (fun t => ⟨keyRS c t.1, t.2.1⟩)

/-- Whether a run overlaps the range scoreboard. -/
def State.hits (s : State) (c key n : Nat) : Bool := (s.footprints c).any (Rng.overlaps ⟨key, n⟩)

/-- Whether a register-space run overlaps the running text (R71). -/
def Core.inText (k : Core) (off n : Nat) : Bool := off < k.base + 6 * k.words && k.base < off + n

/-! ## Semaphores, posts and completion (R18 to R21) -/

/-- A semaphore's value as the core reads it. -/
def State.semVal (s : State) (c : Nat) (n : BitVec 4) : Nat :=
  let m := Tbl.get (s.core c).sems n.toNat ⟨voidTag, 0⟩
  if tagOk (s.ownTag c) m.tag then m.val else 0

def State.setSem (s : State) (c : Nat) (n : BitVec 4) (v : Nat) : State :=
  let t := s.ownTag c
  s.modCore c (fun k => { k with sems := Tbl.put k.sems n.toNat ⟨t, v⟩ })

/-- Whether a walker's word has lost its request of banks in this cycle: it makes none before the next (R27). -/
def Core.lostNow (k : Core) (v : WalkerSt) : Bool := v.asked.any (fun a => k.asking.any (fun r => r.age = a))

/-- Walkers that a refusal of this cycle holds are tried again (R20, R29), but those whose request of banks has lost (R27). -/
def Core.retry (k : Core) : Core :=
  allWalkers.foldl (fun k w => k.modW w (fun v => if k.lostNow v then v else { v with tried := false })) k

/-! ## Traps (R50, R318, R319) -/

def trapCode : TrapClass → Nat
  | .rsvd => 1 | .fe => 2 | .sem => 3 | .addr => 4 | .txlate => 5 | .scope => 6 | .queue => 7 | .trap => 8
  | .priv => 9 | .entropy => 0x10 | .error => 0x11

/-- The 100 ms window of a time (R341), in walker cycles of 2.7 GHz. -/
def windowOf (t : Nat) : Nat := t / 270000000

/-- A trap record (R319), in full or in the reduced form of R342. -/
def recordBytes (reduced : Bool) (cls : TrapClass) (o : Origin) (k : Core) (gen : BitVec 8) (code addr now : Nat) :
    List Byte :=
  let page := cls = .txlate
  if reduced then
    [BitVec.ofNat 8 (trapCode cls), 0, BitVec.ofNat 8 o.core, 0] ++ leBytes 8 0 ++
      leBytes 4 (if cls = .error then code else 0) ++ leBytes 8 (if page then addr / 2 ^ 21 else 0) ++
      leBytes 8 (windowOf now) ++ leBytes 8 0 ++ [gen, k.vf.setWidth 8] ++ zeros 22
  else
    [BitVec.ofNat 8 (trapCode cls), BitVec.ofNat 8 (walkerNum o.walker), BitVec.ofNat 8 o.core, k.gangIndex] ++
      leBytes 4 o.index ++ leBytes 2 o.rep ++ leBytes 2 0 ++ leBytes 4 code ++
      leBytes 8 (if page then addr - addr % 2 ^ 16 else addr) ++
      leBytes 8 k.clk.toNat ++ leBytes 8 k.step.toNat ++ [gen, k.vf.setWidth 8] ++ zeros 22

def State.gang (s : State) (g : Nat) : Option Gang := Tbl.find s.gangs g
def State.modGang (s : State) (g : Nat) (f : Gang → Gang) : State :=
  match s.gang g with
  | some v => { s with gangs := Tbl.put s.gangs g (f v) }
  | none => s

def State.send (s : State) (m : Sent) : State := { s with outbox := s.outbox ++ [m] }

/-- An entry of Press's error log about a vault line or a pool port (R342): VF, GEN, window, and the vault slot or the port
and 2 MiB page, at the places that a reduced trap record has for them, slot or port in place of the core (log entry 36). -/
def errorEntry (v : BitVec 6) (gen : BitVec 8) (unit page now : Nat) : List Byte :=
  [BitVec.ofNat 8 (trapCode .error), 0, BitVec.ofNat 8 unit, 0] ++ leBytes 8 0 ++ leBytes 4 0 ++ leBytes 8 page ++
    leBytes 8 (windowOf now) ++ leBytes 8 0 ++ [gen, v.setWidth 8] ++ zeros 22

/-- An uncorrectable error in a vault line is found: it is counted for its owner and logged (R249, R322). -/
def State.vaultError (s : State) (k : Nat) : State :=
  let t := s.tagAt k
  let slot := ((List.range 256).find? (fun i => s.slotVault t.vf i = some (k / 2 ^ 27))).getD 0
  (s.modVf t.vf.toNat (fun f => { f with vaultErrors := satAdd 64 f.vaultErrors 1 })).send
    (.pressLog (errorEntry t.vf t.gen slot 0 s.now))

/-- The bytes of a run, by their places in it, that are uncorrectable under the reader's own tag (R144). -/
def State.badBytes (s : State) (own : Tag) (k n : Nat) : List Nat :=
  ((s.poison ++ s.badLines).filter (fun m => k < m + 64 && m < k + n && tagOk own (s.tagAt m))).flatMap (fun m =>
    ((List.range (if isRS m then 4 else 64)).map (· + m)).filterMap (fun b => if k ≤ b && b < k + n then some (b - k) else none))

/-- A read of a run finds the uncorrectable errors of its vault lines, under the reader's own tag. -/
def State.noteBad (s : State) (own : Tag) (k n : Nat) : State :=
  if !isVault k then s
  else (unitRuns k n).foldl (fun (t : State) r =>
    if tagOk own (s.tagAt r.1) && s.badLines.contains (markOf r.1) then t.vaultError (markOf r.1) else t) s

/-- Writes a record into a fault area of a VF: at the next free place, COUNT after it, or LOST when full (R319).
The host is told of a record that is written when the area is the root's (R395). -/
def State.putRecord (s : State) (v : BitVec 6) (area : Nat) (host : Bool) (bytes : List Byte) : State :=
  let tag : Tag := ⟨false, v, s.gen v⟩
  match s.vaultKey v area with
  | none => s
  | some k =>
    let hdr := s.read tag k 8
    let count := field hdr 1 1
    let lost := field hdr 2 1
    let s1 := if count < 3 then
        (s.write tag (k + 64 * (1 + count)) bytes).write tag k
          ([hdr.headD 0, BitVec.ofNat 8 (count + 1), BitVec.ofNat 8 lost] ++ hdr.drop 3)
      else s.write tag k ([hdr.headD 0, BitVec.ofNat 8 count, BitVec.ofNat 8 (min 255 (lost + 1))] ++ hdr.drop 3)
    if count < 3 && (host || field (s.vf v.toNat).record 40 8 = area) then s1.send (.msix (some v) 0) else s1

/-- Whether a launch is over. -/
def Launch.over (l : Launch) : Bool := l.st = .retired || l.st = .aborted || l.st = .refused

/-- The keys of the fault areas of a VF: that of its partition record, those of its gangs, and those that its launches give
(R291, R296, R319; log entry 26). -/
def State.faultAreas (s : State) (v : BitVec 6) : List Nat :=
  ((if (s.vf v.toNat).created then [field (s.vf v.toNat).record 40 8] else [])
    ++ s.gangs.filterMap (fun e => if e.2.vf = v then some e.2.area else none)
    ++ s.launches.filterMap (fun e => if e.2.vf = v && !e.2.over && e.2.rcb.faultdom then some e.2.rcb.fault else none)).filterMap
      (s.vaultKey v)

/-- Whether a key is one of COUNT, LOST and the records of the fault area at a key (R319). -/
def inRecords (area key : Nat) : Bool :=
  area ≤ key && key < area + 256 && (key = area + 1 || key = area + 2 || area + 64 ≤ key)

/-- Whether a vault byte is one of COUNT, LOST and the records of a fault area of a VF, which are read-only (R319). -/
def State.recordByte (s : State) (v : BitVec 6) (key : Nat) : Bool := (s.faultAreas v).any (inRecords · key)

/-- A write of a program or the host: a read-only byte of a fault area keeps its value. -/
def State.writeUser (s : State) (tag : Tag) (key : Nat) (bytes : List Byte) : State :=
  if isVault key && (s.faultAreas tag.vf).any (fun a => key < a + 256 && a < key + bytes.length) then
    s.write tag key (List.zipWith (fun (i : Nat) (b : Byte) =>
      if s.recordByte tag.vf (key + i) then (s.read tag (key + i) 1).headD 0 else b) (List.range bytes.length) bytes)
  else s.write tag key bytes

/-- A save slot of a VF that is free, as its vault address (R315). -/
def State.freeSlot (s : State) (v : BitVec 6) : Option Nat :=
  let r := (s.vf v.toNat).record
  let base := field r 544 8
  ((List.range (field r 552 2)).map (fun i => base + i * 2 ^ 20)).find? (fun a =>
    !(s.saves.any (fun e => e.2.vf = v && e.2.gen = s.gen v && e.2.addr = a)))

/-- The bytes of a save slot (R315): the register-space image, its full bits, the spill memory and the queues, as the gang
reads them (R314), and from 0x4_7000 on the state that the slot layout names without its bytes (log entry 35). -/
def State.saveBytes (s : State) (c : Nat) : List (Nat × List Byte) :=
  let own := s.ownTag c
  let k := s.core c
  let runs := (s.mem.filter (fun e => keyRS c 0 ≤ e.1 && e.1 < keyRS (c + 1) 0 || keySpill c 0 ≤ e.1
      && e.1 < keySpill (c + 1) 0)).filter (fun e => tagOk own (s.tagAt e.1))
  let places := runs.map (fun e => if isRS e.1 then (rsOff e.1, [e.2])
    else (0x42000 + (e.1 - keySpill c 0), [e.2]))
  let bits := (List.range 8192).map (fun i =>
    BitVec.ofNat 8 ((List.range 8).foldl (fun a j => if s.full c (4 * (8 * i + j)) 4 then a + 2 ^ j else a) 0))
  let qs := (List.range 32).flatMap (fun q => ((Tbl.get k.queues q []).zipIdx).map (fun e =>
    (0x46000 + 128 * q + 8 * e.2, leBytes 8 (if tagOk own e.1.tag && e.1.wait.isNone then e.1.val.toNat else 0))))
  places ++ [(0x40000, bits)] ++ qs ++ [(0x47000, (List.range 0x16000).map (Config.savedByte s.now))]

/-- Saves a core to a slot, lines tagged (VF, gen_of(VF)); without a free slot it keeps its state where it stands
(R315). -/
def State.saveCore (s : State) (c g : Nat) : State :=
  let k := s.core c
  match s.freeSlot k.vf with
  | none => s
  | some a =>
    let tag : Tag := ⟨false, k.vf, s.gen k.vf⟩
    let s1 := ((0, zeros 0x47000) :: s.saveBytes c).foldl (fun (t : State) p =>
      match t.vaultKey k.vf (a + p.1) with
      | some key => t.write tag key p.2
      | none => t) s
    { s1 with saves := Tbl.put s1.saves (g * 512 + c) ⟨g, k.vf, s.gen k.vf, c, a, k, [], []⟩ }

/-- The walker cycles in which a save is written: about 1 µs (R315; log entry 35). -/
def saveCycles : Nat := 2700

/-- TAKING A TRAP (R318): the core freezes in this cycle and is saved, and its record waits for the owner's fault area, into
which it goes as a release once the save is written; the gang's other cores follow 16 uncore cycles later. A frozen core
raises none. A management core freezes and its record goes to Press's log. -/
def State.takeTrap (s : State) (o : Origin) (cls : TrapClass) (code addr : Nat) : State :=
  let k := s.core o.core
  if k.frozen.isSome then s
  else
    let s1 := s.modCore o.core (fun k => { k with frozen := some .trap })
    let g := s.gang k.gang
    match k.ctx, g with
    | .tenant, some gv =>
      let bytes := recordBytes gv.areaHost cls o k (s.gen k.vf) code addr s.now
      let s2 := (s1.saveCore o.core k.gang).modGang k.gang (fun v =>
        { v with frozen := some .trap, records := v.records ++ [(o, bytes)] })
      if gv.frozen.isSome then s2
      else if gv.cores.length ≤ 1 then s2.after saveCycles (.saveWritten k.gang .trap o (.x 0))
      else s2.after 32 (.gangFreezeFollow k.gang)
    | _, _ => s1.send (.pressLog (recordBytes true cls o k (s.gen k.vf) code addr s.now))

/-- The waits granted on a semaphore in this cycle. -/
def State.grantedWaits (s : State) (c : Nat) (n : BitVec 4) : Nat := Tbl.get (s.core c).granted n.toNat 0

/-- A wait is granted: one unit (R19, R20). -/
def State.takeWait (s : State) (c : Nat) (n : BitVec 4) : State :=
  if n = 0 then s
  else (s.setSem c n (s.semVal c n - 1)).modCore c (fun k => { k with granted := Tbl.upd k.granted n.toNat 0 (· + 1) })

/-- A post landing on a core's semaphore; above 255 it raises SEM naming the posting word (R19, R21). Posts are added
before the waits of their cycle (R20), so the waits already granted in it count to the 255. The post of a frozen core's
word goes to its saved state, and SEM waits for the first cycle after THAW (R316). -/
def State.post (s : State) (o : Origin) (n : BitVec 4) : State :=
  if n = 0 then s
  else
    let v := s.semVal o.core n
    let w := s.grantedWaits o.core n
    if v + w < 255 then (s.setSem o.core n (v + 1)).modCore o.core Core.retry
    else
      let s1 := s.setSem o.core n (255 - w)
      if (s.core o.core).frozen.isSome then s1.later o.core 1 (.trapFreeze o .sem n.toNat 0)
      else s1.takeTrap o .sem n.toNat 0

/-- The effect of a word is complete: its post lands, and that of a REP it ends (R19, R53). -/
def State.complete (s : State) (o : Origin) : State := (s.post o o.post).post o o.post2

/-- An issued word is not yet complete. -/
def State.begin (s : State) (o : Origin) : State := s.modW o.core o.walker (fun v => { v with pend := v.pend + 1 })

/-- The effect of a word begun earlier is complete. -/
def State.finish (s : State) (o : Origin) : State :=
  (s.modW o.core o.walker (fun v => { v with pend := v.pend - 1 })).complete o

/-- A walker whose blocking word is complete issues again from the next cycle on. -/
def Core.goOn (k : Core) (w : Walker) : Core :=
  k.modW w (fun v => { v with blocked := false, tried := false, readyAt := max v.readyAt (k.time + 1) })

/-- The blocking word of a walker is complete. -/
def State.unblock (s : State) (o : Origin) : State := s.modCore o.core (fun k => k.goOn o.walker)

/-! ## Queues (R29, R30) -/

/-- The neighbour a lateral queue faces (R30): its core and the queue it lands in. -/
def lateral (c : Nat) (q : BitVec 5) : Option (Nat × Nat) :=
  let i := q.toNat % 4
  let row := c / 8 % 8
  let col := c % 8
  match lateralDir q with
  | 0 => if row = 0 then none else some (c - 8, 24 + i)
  | 1 => if col = 7 then none else some (c + 1, 28 + i)
  | 2 => if row = 7 then none else some (c + 8, 16 + i)
  | _ => if col = 0 then none else some (c - 1, 20 + i)

/-- Whether the neighbour is in the quarter, the gang and the VF (R31). -/
def State.lateralOk (s : State) (c : Nat) (dir : Nat) : Bool :=
  if 256 ≤ c then false else
  match lateral c (BitVec.ofNat 5 (16 + 4 * dir)) with
  | none => false
  | some (d, _) => (s.core d).live && (s.core d).gang = (s.core c).gang && (s.core d).vf = (s.core c).vf

/-- What decoding depends on at a core. -/
def State.dctx (s : State) (c : Nat) : DCtx :=
  ⟨(s.core c).ctx, BitVec.ofNat 4 ((List.range 4).foldl (fun a d => if s.lateralOk c d then a + 2 ^ d else a) 0)⟩

def State.queue (s : State) (c q : Nat) : List QEntry := Tbl.get (s.core c).queues q []

/-- Where a push to a queue name of a core ends: its own queue, or the neighbour's (R29, R30). -/
def State.queueEnd (_ : State) (c : Nat) (q : BitVec 5) : Option (Nat × Nat) :=
  if q.toNat < 16 then some (c, q.toNat) else lateral c q

/-- Room for one more push to a queue of a core: the place of a value to come is taken, and pops of the same cycle
act after the push (R29). -/
def State.queueRoom (s : State) (c : Nat) (q : BitVec 5) : Bool :=
  match s.queueEnd c q with
  | some (d, n) => (s.queue d n).length + Tbl.get (s.core d).popped n 0 < 16
  | none => false

/-- An entry at the end of a queue. -/
def State.enqueueAt (s : State) (d n : Nat) (e : QEntry) : State :=
  s.modCore d (fun k => Core.retry { k with queues := Tbl.upd k.queues n [] (fun l => l ++ [e]) })

/-- The value of an entry that waits for the word of an age. -/
def QEntry.fill (age : Nat) (tag : Tag) (v : Word) (e : QEntry) : QEntry :=
  if e.wait = some age then ⟨tag, v, none⟩ else e

/-- The value of a place that the word of an age holds has come (R29). -/
def State.fillPlace (s : State) (d n age : Nat) (tag : Tag) (v : Word) : State :=
  s.modCore d (fun k => Core.retry { k with queues := Tbl.upd k.queues n [] (fun l => l.map (QEntry.fill age tag v)) })

/-- The value of a push is known: it is in a queue of the core at once, and reaches a neighbour 4 cycles later (R30). -/
def State.sendEntry (s : State) (o : Origin) (q : BitVec 5) (v : Word) : State :=
  match s.queueEnd o.core q with
  | some (d, n) =>
    if q.toNat < 16 then s.fillPlace d n o.age (s.ownTag o.core) v
    else s.later o.core 4 (.queueEntryArrives d (BitVec.ofNat 5 n) o.age v (s.ownTag o.core))
  | none => s

/-- A push takes its place in issue order (R29). -/
def State.holdPlace (s : State) (o : Origin) (q : BitVec 5) : State :=
  match s.queueEnd o.core q with
  | some (d, n) => s.enqueueAt d n ⟨s.ownTag o.core, 0, some o.age⟩
  | none => s

/-- A push whose value is known at issue. -/
def State.push (s : State) (o : Origin) (q : BitVec 5) (v : Word) : State := (s.holdPlace o q).sendEntry o q v

/-! ## Where a word stops before it issues -/

/-- Why a word does not issue: it stalls, its request of an age on some banks loses (R27), it waits for a block of a vault port,
whose fetch begins (R128), or for an event that it starts (a page walk, R207), or it traps. -/
inductive Stop
  | stall
  | lost (age : Nat) (banks : BitVec 32)
  | prefetch (p : BitVec 4)
  | await (d : Nat) (i : Instr)
  | trap (cls : TrapClass) (code addr : Nat)
deriving DecidableEq, Repr

/-- An operation on the machine that may stop before any effect. -/
abbrev Op (α : Type) := StateT State (Except Stop) α

def stall {α : Type} : Op α := throw .stall
def trapNow {α : Type} (cls : TrapClass) (code addr : Nat) : Op α := throw (.trap cls code addr)
/-- Stalls unless a condition holds. -/
def need (b : Bool) : Op Unit := if b then pure () else stall
/-- Raises a trap unless a condition holds. -/
def demand (b : Bool) (cls : TrapClass) (addr : Nat) : Op Unit := if b then pure () else trapNow cls 0 addr

/-- The banks of a register-space run (R26). -/
def banksOf (off n : Nat) : BitVec 32 :=
  if 4096 ≤ n then BitVec.allOnes 32
  else (List.range ((off + n - 1) / 128 - off / 128 + 1)).foldl (fun m i =>
    m ||| (1#32 <<< ((off / 128 + i) % 32))) 0

/-- Adds a loss to the counters of banks (R28). -/
def Core.loseBanks (k : Core) (b : BitVec 32) : Core :=
  { k with bankLoss := (List.range 32).foldl (fun m i =>
      if b.getLsbD i then Tbl.upd m i 0 (fun n => satAdd 32 n 1) else m) k.bankLoss }

/-- The banks that a request of an age loses in this cycle: those granted, and those of an older request that is
replayed in it (R27). -/
def Core.banksLost (k : Core) (age : Nat) (b : BitVec 32) : BitVec 32 :=
  k.standing.foldl (fun m r => if r.age < age then m ||| (r.banks &&& b) else m) (k.claimed &&& b)

/-- A request is granted all its banks. -/
def Core.winBanks (k : Core) (age : Nat) (b : BitVec 32) : Core :=
  { k with claimed := k.claimed ||| b, standing := k.standing.filter (fun r => r.age ≠ age) }

/-- A request that is made in the next cycle, before any younger one. -/
def Core.askNext (k : Core) (age : Nat) (b : BitVec 32) : Core := { k with asking := ⟨age, b⟩ :: k.asking }

/-- A request that is not granted: each bank it lost counts, and it is replayed in the next cycle (R27, R28). -/
def Core.missBanks (k : Core) (age : Nat) (b : BitVec 32) : Core := (k.loseBanks (k.banksLost age b)).askNext age b

/-- A request made now: granted all its banks, or none. -/
def Core.requestBanks (k : Core) (age : Nat) (b : BitVec 32) : Option Core :=
  if k.banksLost age b = 0 then some (k.winBanks age b) else none

/-- The age of a word's requests: that of its first one that was lost, else of its issue (R27). -/
def Core.wordAge (k : Core) (o : Origin) : Nat := (k.w o.walker).asked.getD o.age

/-- A request of a core, granted or not, with what the core then holds of it. -/
def State.grant (s : State) (c age : Nat) (b : BitVec 32) : Bool × State :=
  match (s.core c).requestBanks age b with
  | some k => (true, s.setCore c k)
  | none => (false, s.modCore c (fun k => k.missBanks age b))

/-- Wins the banks of a word's request for this cycle, or loses (R27). -/
def claimBanks (o : Origin) (b : BitVec 32) : Op Unit := fun s =>
  let k := s.core o.core
  match k.requestBanks (k.wordAge o) b with
  | some k1 => .ok ((), s.setCore o.core k1)
  | none => .error (.lost (k.wordAge o) b)

/-- Wins further banks in the grant in which a word has won some: an access of a bank serves its word once. -/
def claimMore (o : Origin) (won b : BitVec 32) : Op Unit := claimBanks o (b &&& ~~~won)

/-! ## The issue of a word -/

/-- The lowest step count among walkers that count: running or at barrier (R16). -/
def Core.lowest (k : Core) : Nat :=
  (allWalkers.filterMap (fun w =>
    if (k.w w).st = .running || (k.w w).st = .barrier then some (k.w w).steps else none)).foldl min
    (2 ^ 64 - 1)

/-- Whether the slip window lets a walker pass its next word (R16). -/
def Core.slipOk (k : Core) (w : Walker) : Bool := (k.w w).steps ≤ k.lowest + k.slip

/-- The origin of the word a walker issues now. -/
def Core.origin (k : Core) (c : Nat) (w : Walker) (post : BitVec 4) : Origin :=
  let v := k.w w
  match v.rep with
  | some r => ⟨c, w, v.index, r.iter, k.time * 8 + walkerNum w, v.steps, post,
      if r.iter + 1 = r.count then r.post else 0⟩
  | none => ⟨c, w, v.index, 0, k.time * 8 + walkerNum w, v.steps, post, 0⟩

/-- The walker after its word has issued: the next word, or the next iteration of a REP (R16, R53). -/
def WalkerSt.advance (v : WalkerSt) (ready : Nat) : WalkerSt :=
  match v.rep with
  | some r =>
    if r.iter + 1 < r.count then
      { v with rep := some { r with iter := r.iter + 1 }, readyAt := ready, access := 0, grant := 0, run := none, asked := none }
    else { v with rep := none, index := v.index + 1, steps := v.steps + 1, readyAt := ready, access := 0, grant := 0
                  run := none, asked := none }
  | none => { v with
      index := v.index + 1, steps := v.steps + 1, readyAt := ready, access := 0, grant := 0, run := none, asked := none }

/-- A walker's attempt of this cycle has stalled. -/
def State.stalled (s : State) (c : Nat) (w : Walker) : State := s.modW c w (fun v => { v with tried := true })

/-- What an issued word leaves of its walker: the next word, or what the body has set itself. -/
inductive Flow | seq | own
deriving DecidableEq, Repr

/-- A word's conditions and effect without the slip window: R13's wait and issue cost, the body's own conditions,
and its effect. `nowait` is for the accesses after the first of a repeated word (R39). -/
def tryWord (c : Nat) (w : Walker) (h : Hdr) (nowait : Bool) (body : Origin → Op Flow) (s : State) :
    Except Stop (Flow × State) :=
  let k := s.core c
  let v := k.w w
  if v.readyAt ≤ k.time && v.st = .running && !v.blocked && k.frozen.isNone then
    if h.wait = 0 || nowait then (body (k.origin c w h.post)).run s
    else if s.semVal c h.wait = 0 then .error .stall
    else (body (k.origin c w h.post)).run (s.takeWait c h.wait)
  else .error .stall

/-- The descriptor of a port (R126). -/
def portDesc (p : BitVec 4) : Nat := 0x3FC00 + 64 * p.toNat

/-- Blocks of a port's nest. -/
def portTotal (d : List Byte) : Nat := field d 16 4 * field d 20 4 * field d 24 4 * field d 28 4

/-- The block of a nest that a port fetches next: that at its position or the one after, not yet fetched (R128). -/
def PortSt.nextBlock (t : PortSt) : Option Nat :=
  [t.pos, t.pos + 1].find? (fun i => !(t.fetched.any (fun e => e.1 = i))
    && (bitOf (field t.desc 9 1) 1 || i < portTotal t.desc))

/-- The banks of the descriptor that an armed port is to take (R26, R126). -/
def Core.descBanks (k : Core) (p : BitVec 4) : BitVec 32 :=
  if (Tbl.get k.ports p.toNat PortSt.reset).armed then banksOf (portDesc p) 64 else 0

/-- A request of an age for the descriptor that a port is to take, granted when it takes none. -/
def State.grantDesc (s : State) (c age : Nat) (p : BitVec 4) : Bool × State :=
  if (s.core c).descBanks p = 0 then (true, s) else s.grant c age ((s.core c).descBanks p)

/-- An armed port takes its descriptor, and the fetch of its next vault block begins (R126, R128). -/
def State.startPrefetch (s : State) (c : Nat) (p : BitVec 4) : State :=
  let k := s.core c
  let t := Tbl.get k.ports p.toNat PortSt.reset
  let t1 := if t.armed then
      ⟨false, s.read (s.ownTag c) (keyRS c (portDesc p)) 64, 0, [], []⟩ else t
  match t1.fetching, t1.nextBlock with
  | [], some i => (s.setCore c { k with ports := Tbl.put k.ports p.toNat { t1 with fetching := [i] } }).later c 20
      (.portPrefetch c p)
  | _, _ => s

/-- The word of a walker has lost its request of an age. -/
def Core.loseWord (k : Core) (w : Walker) (age : Nat) : Core := k.modW w (fun v => { v with asked := some age })

/-- A word waits for a block of a port, whose descriptor is read through the arbitrated ports when the port takes it. -/
def State.awaitBlock (s : State) (c : Nat) (w : Walker) (o : Origin) (p : BitVec 4) : State :=
  let age := (s.core c).wordAge o
  let g := s.grantDesc c age p
  if g.1 then g.2.startPrefetch c p else g.2.modCore c (fun k => k.loseWord w age)

/-- The issue of a word by a walker of a core (R13, R16, R19, R27, R50): the word issues with its effect, or stalls,
or traps; in the last two its wait is not taken. `cost` is the issue cost of R34. -/
def issueAt (c : Nat) (w : Walker) (h : Hdr) (cost : Nat) (nowait : Bool) (body : Origin → Op Flow) (s : State) :
    State :=
  let k := s.core c
  let r := tryWord c w h nowait body s
  if k.slipOk w then
    match r with
    | .ok (.seq, t) => t.modW c w (fun v => v.advance (k.time + cost))
    | .ok (.own, t) => t
    | .error .stall => s.stalled c w
    | .error (.lost age b) => (s.modCore c (fun k => (k.missBanks age b).loseWord w age)).stalled c w
    | .error (.prefetch p) => (s.awaitBlock c w (k.origin c w h.post) p).stalled c w
    | .error (.await d i) => (s.after d i).stalled c w
    | .error (.trap cls code addr) => (s.takeTrap { k.origin c w h.post with post2 := 0 } cls code addr).stalled c w
  else
    match r with
    | .ok _ => (s.modCore c (fun k => { k with slipHeld := true })).stalled c w
    | _ => s.stalled c w

/-- The answer of a word's meaning on the walker of its tag. -/
def issue (w : Walker) (h : Hdr) (cost : Nat) (body : Origin → Op Flow) (s : State) :
    Host.Outcome State Fault Refusal :=
  .next (issueAt s.cur w h cost false body s)

/-- Reads and changes of the issuing core inside a body. -/
def getCore (o : Origin) : Op Core := do return (← get).core o.core
def modifyCore (o : Origin) (f : Core → Core) : Op Unit := modify (fun s => s.modCore o.core f)

/-- The word is complete at its issue. -/
def doneNow (o : Origin) : Op Flow := do
  modify (fun s => s.complete o)
  return .seq

/-- The word's setting is in force, and its post lands, in the next cycle (R19). -/
def doneNext (o : Origin) (l : List Latch) : Op Flow := do
  modifyCore o (fun k => { k with latches := k.latches ++ l ++ [.tidy o] })
  modify (fun s => s.begin o)
  return .seq

/-- The word completes by an event inside its core, some cycles after its issue. -/
def doneLater (o : Origin) (d : Nat) (i : Instr) : Op Flow := do
  modify (fun s => (s.begin o).later o.core d i)
  return .seq

end Sys2Proof.Machine
end

