-- ==== Sys2Proof/Machine/Operands.lean ====
section
/-! DEFINITION. Operands: scalar sources and destinations, specials, views, ports and codebooks. -/

namespace Sys2Proof.Machine

/-! ## Scalars (R59 to R61) -/

/-- The bank with the highest count, the lowest on a tie (R28). -/
def worstBank (k : Core) : Nat × Nat :=
  (List.range 32).foldl (fun (a : Nat × Nat) i =>
    let n := Tbl.get k.bankLoss i 0
    if a.2 < n then (i, n) else a) (0, 0)

/-- BANKLOSS (R28). -/
def bankLossWord (k : Core) : Word :=
  let total := (List.range 32).foldl (fun a i => satAdd 32 a (Tbl.get k.bankLoss i 0)) 0
  let w := worstBank k
  BitVec.ofNat 64 (w.1 * 2 ^ 48 + min 0xFFFF w.2 * 2 ^ 32 + total)

/-- The walkers that count for SLIPNOW, in tag order (R417). -/
def Core.counted (k : Core) : List Walker :=
  allWalkers.filter (fun w => (k.w w).st = .running || (k.w w).st = .barrier)

/-- SLIPNOW (R17, R417). -/
def slipNow (k : Core) : Word :=
  match k.counted with
  | [] => BitVec.ofNat 64 (k.stalls * 2 ^ 13)
  | w :: ws =>
    let hi := ws.foldl (fun a b => if (k.w a).steps < (k.w b).steps then b else a) w
    let lo := ws.foldl (fun a b => if (k.w b).steps < (k.w a).steps then b else a) w
    let gap := (k.w hi).steps - (k.w lo).steps
    BitVec.ofNat 64 (walkerNum hi * 2 ^ 45 + walkerNum lo * 2 ^ 42 + k.stalls * 2 ^ 13 + min 0x1FFF gap)

/-- A read-only special, computed at each read (R61). -/
def readSpecial (s : State) (c : Nat) (r : Special) : Word :=
  let k := s.core c
  match r with
  | .core => BitVec.ofNat 64 (c % 256)
  | .gang => BitVec.ofNat 64 (k.gangCount.toNat * 256 + k.gangIndex.toNat)
  | .vf => k.vf.setWidth 64
  | .gen => (s.gen k.vf).setWidth 64
  | .step => k.step
  | .clk => k.clk
  | .slipnow => slipNow k
  | .bankloss => bankLossWord k

/-- An x register as it stands (R42). -/
def Core.readX (k : Core) (n : BitVec 6) : Word := if n = 0 then 0 else Tbl.get k.x n.toNat 0

/-- Writes an x register; a write to x0 is discarded (R42). -/
def Core.writeX (k : Core) (n : BitVec 6) (v : Word) : Core :=
  if n = 0 then k else { k with x := Tbl.put k.x n.toNat v }

/-- Pops the oldest entry of a queue; it stalls while there is none or its value is still to come, and a stale entry
reads zero (R29). -/
def popQueue (o : Origin) (q : BitVec 5) : Op Word := do
  let s ← get
  match s.queue o.core q.toNat with
  | [] => stall
  | e :: es =>
    need e.wait.isNone
    modifyCore o (fun k => { k with
      queues := Tbl.put k.queues q.toNat es, popped := Tbl.upd k.popped q.toNat 0 (· + 1) })
    return if tagOk (s.ownTag o.core) e.tag then e.val else 0

/-- An x register read at issue; it stalls while a write of it is pending (R60). -/
def srcX (o : Origin) (n : BitVec 6) : Op Word := do
  let k ← getCore o
  need (!k.scoreboard.contains n.toNat)
  return k.readX n

/-- src of R59. -/
def src (o : Origin) (n : Name) : Op Word :=
  match n with
  | .x r => srcX o r
  | .q q => popQueue o q
  | .sp r => do return readSpecial (← get) o.core r
  | _ => stall

/-- The number of an x register name. -/
def xNum : Name → BitVec 6
  | .x n => n
  | _ => 0

/-- dst of R59 for a Scalar-class result: read from the next cycle on (R34); a queue is pushed at issue (R29). -/
def dst (o : Origin) (n : Name) (v : Word) : Op Unit :=
  match n with
  | .x r => do
    let k ← getCore o
    need (!k.scoreboard.contains r.toNat)
    modifyCore o (fun k => if r = 0 then k else { k with latches := k.latches ++ [.xreg r v] })
  | .q q => do
    need ((← get).queueRoom o.core q)
    modify (fun s => s.push o q v)
  | _ => stall

/-- Holds a destination whose value comes later: an x register in the scoreboard (R60), a place in a queue. -/
def reserve (o : Origin) (n : Name) : Op Unit :=
  match n with
  | .x r => do
    let k ← getCore o
    need (!k.scoreboard.contains r.toNat)
    modifyCore o (fun k => if r = 0 then k else { k with scoreboard := k.scoreboard ++ [r.toNat] })
  | .q q => do
    need ((← get).queueRoom o.core q)
    modify (fun s => s.holdPlace o q)
  | _ => stall

/-- The stalls of a destination whose value comes later, which precede every trap of its word (R50). -/
def destReady (o : Origin) (n : Name) : Op Unit :=
  match n with
  | .x r => do need (!(← getCore o).scoreboard.contains r.toNat)
  | .q q => do need ((← get).queueRoom o.core q)
  | _ => stall

/-- A reserved destination receives its value. -/
def State.land (s : State) (o : Origin) (n : Name) (v : Word) : State :=
  match n with
  | .x r => s.modCore o.core (fun k =>
      Core.retry ({ k with scoreboard := k.scoreboard.filter (· ≠ r.toNat) }.writeX r v))
  | .q q => s.sendEntry o q v
  | _ => s

/-- A scalar result that lands some cycles after issue (R34, R60). -/
def resultLater (o : Origin) (d : Name) (lat : Nat) (v : Word) : Op Flow := do
  reserve o d
  doneLater o lat (.scalarResultLands o d v)

/-! ## Formats of views (R73, R124) -/

/-- The element size of a vector-view format, 0 for a code that is none. -/
def fmtSize (f : Byte) : Nat :=
  if f = 1 || f = 6 then 4 else if f = 2 then 2
  else if f = 3 || f = 4 || f = 5 || f = 0x0B then 1 else 0

/-- The three format classes of R161. -/
inductive FmtClass | float | int | bit
deriving DecidableEq, Repr

def fmtClass (f : Byte) : FmtClass :=
  if f = 5 || f = 6 then .int else if f = 0x0B then .bit else .float

/-- Elements of s bytes, in order. -/
def elems (s : Nat) : Nat → List Byte → List Nat
  | 0, _ => []
  | n + 1, bs => leNat (bs.take s) :: elems s n (bs.drop s)

/-- The bytes of elements of s bytes. -/
def unelems (s : Nat) (l : List Nat) : List Byte := l.flatMap (leBytes s)

/-- A source as a word reads it: its format, its bytes, the register-space runs they come from, and its uncorrectable
bytes. -/
structure Source where
  fmt : Byte
  bytes : List Byte
  runs : List (Nat × Nat)
  bad : List Nat
deriving DecidableEq, Repr

/-- No source. -/
def Source.none : Source := ⟨0, [], [], []⟩

/-- Whether some of n bytes at a place are among uncorrectable ones. -/
def badAt (bad : List Nat) (p n : Nat) : Bool := bad.any (fun b => p ≤ b && b < p + n)

/-- The uncorrectable bytes of register-space runs put together. -/
def State.badRuns (s : State) (own : Tag) (c : Nat) (runs : List (Nat × Nat)) : List Nat :=
  (runs.foldl (fun (a : Nat × List Nat) r =>
    (a.1 + r.2, a.2 ++ (s.badBytes own (keyRS c r.1) r.2).map (· + a.1))) (0, [])).2

def Source.elems (v : Source) : List Nat := Machine.elems (fmtSize v.fmt) 1024 v.bytes

def Core.viewReg (k : Core) (n : BitVec 6) : ViewReg := Tbl.get k.views n.toNat ⟨0, 0⟩
def Core.aviewReg (k : Core) (n : BitVec 4) : ViewReg := Tbl.get k.aviews n.toNat ⟨0, 0⟩

/-- The run of a bound vector view. -/
def ViewReg.run (v : ViewReg) : Nat × Nat := (4096 * v.page.toNat, 1024 * fmtSize v.fmt)

/-- Overlap of two register-space runs. -/
def runsMeet (a b : Nat × Nat) : Bool := a.1 < b.1 + b.2 && b.1 < a.1 + a.2

/-! ## Ports (R126 to R128) -/

/-- A port's descriptor: latched, or read from register space when the port is armed. -/
def portRecord (s : State) (c : Nat) (p : BitVec 4) : List Byte × PortSt :=
  let t := Tbl.get (s.core c).ports p.toNat PortSt.reset
  if t.armed then (s.read (s.ownTag c) (keyRS c (portDesc p)) 64, ⟨false, [], 0, [], []⟩) else (t.desc, t)

/-- A descriptor's checks (R128). DESIGN CHOICE (log entry 63): BASE bits 63:35, which R127 says are zero, raise RSVD when they
are not, as reserved bits do. -/
def portBad (d : List Byte) : Bool :=
  let f := BitVec.ofNat 8 (field d 8 1)
  let s := fmtSize f
  field d 48 16 ≠ 0 || field d 10 2 ≠ 0 || 4 ≤ field d 9 1 || s = 0
  || (List.range 4).any (fun i => field d (16 + 4 * i) 4 = 0 || field d (32 + 4 * i) 4 % s ≠ 0)
  || field d 0 8 % s ≠ 0 || field d 12 4 % s ≠ 0 || 2 ^ 35 ≤ field d 0 8

/-- Where row r of the block at a position starts. -/
def portRow (d : List Byte) (pos r : Nat) : Int :=
  let n0 := field d 16 4
  let n1 := field d 20 4
  let n2 := field d 24 4
  let p := pos % portTotal d
  (field d 0 8 : Int) + (p % n0 : Nat) * fieldS d 32 4 + (p / n0 % n1 : Nat) * fieldS d 36 4
    + (p / (n0 * n1) % n2 : Nat) * fieldS d 40 4 + (p / (n0 * n1 * n2) : Nat) * fieldS d 44 4
    + (r : Int) * (field d 12 4 : Int)

/-- The rows of a block as starts, when every byte of it lies in its space. -/
def portRows (s : State) (c : Nat) (d : List Byte) (pos : Nat) : Option (List Nat) :=
  let len := 64 * fmtSize (BitVec.ofNat 8 (field d 8 1))
  let rows := (List.range 16).map (portRow d pos)
  if rows.all (fun a => 0 ≤ a &&
      (if bitOf (field d 9 1) 0 then (s.localKey c a.toNat len).isSome else a.toNat + len ≤ 0x40000)) then
    some (rows.map Int.toNat)
  else none

/-- The bytes of a vault block as they stand, and which are uncorrectable (R128, R144). -/
def portVaultBlock (s : State) (c : Nat) (d : List Byte) (rows : List Nat) : List Byte × List Nat :=
  let len := 64 * fmtSize (BitVec.ofNat 8 (field d 8 1))
  let own := s.ownTag c
  (rows.flatMap (fun a => match s.localKey c a len with
    | some k => s.readClean own k len
    | none => zeros len),
   rows.zipIdx.flatMap (fun e => match s.localKey c e.1 len with
    | some k => (s.badBytes own k len).map (· + e.2 * len)
    | none => []))

/-- What a pop meets (R128): a stall, a trap, a block not yet fetched, or the block with the port after it. For a
register-space block the runs to be read are given, and the bytes are read at the word's issue. -/
inductive PopResult
  | stall
  | trap (cls : TrapClass)
  | fetch
  | block (fmt : Byte) (runs : List (Nat × Nat)) (bytes : List Byte × List Nat) (after : PortSt)

def popPort (s : State) (c : Nat) (p : BitVec 4) : PopResult :=
  let (d, t) := portRecord s c p
  let armed := (Tbl.get (s.core c).ports p.toNat PortSt.reset).armed
  if armed && !(s.full c (portDesc p) 64) then .stall
  else if portBad d then .trap .rsvd
  else
    let wrap := bitOf (field d 9 1) 1
    let f := BitVec.ofNat 8 (field d 8 1)
    if !wrap && portTotal d ≤ t.pos then .trap .queue
    else match portRows s c d t.pos with
      | none => .trap .addr
      | some rows =>
        let next := { t with armed := false, desc := d, pos := t.pos + 1,
                             fetched := t.fetched.filter (fun e => t.pos < e.1) }
        if bitOf (field d 9 1) 0 then
          match t.fetched.find? (fun e => e.1 = t.pos) with
          | some e => .block f [] e.2 next
          | none => .fetch
        else .block f (rows.map (fun a => (a, 64 * fmtSize f))) ([], []) next

/-- The port has advanced; further vault blocks are fetched, up to two ahead. -/
def State.setPort (s : State) (c : Nat) (p : BitVec 4) (t : PortSt) : State :=
  let s1 := s.modCore c (fun k => { k with ports := Tbl.put k.ports p.toNat t })
  if bitOf (field t.desc 9 1) 0 then s1.startPrefetch c p else s1

/-! ## View sources and destinations -/

/-- A source operand of a vector or matrix word, before its read. -/
structure Operand where
  name : Name
  te : Bool
deriving DecidableEq, Repr

/-- The state of an operand: the stall or trap it brings, or what it will read. -/
inductive Found
  | stall
  | trap (cls : TrapClass)
  | fetch (p : BitVec 4)
  | view (fmt : Byte) (run : Nat × Nat)
  | port (p : BitVec 4) (fmt : Byte) (runs : List (Nat × Nat)) (bytes : List Byte × List Nat) (after : PortSt)

def findOperand (s : State) (c : Nat) (n : Name) : Found :=
  match n with
  | .v i =>
    let r := (s.core c).viewReg i
    if r.fmt = 0 then .trap .rsvd else .view r.fmt r.run
  | .p i => match popPort s c i with
    | .stall => .stall
    | .trap t => .trap t
    | .fetch => .fetch i
    | .block f runs bs t => .port i f runs bs t
  | _ => .trap .rsvd

def Found.runs : Found → List (Nat × Nat)
  | .view _ r => [r]
  | .port _ _ rs _ _ => rs
  | _ => []

/-- Whether a run meets bytes that an issued vector word will write and has not yet written (R165). -/
def Core.pendMeets (k : Core) (r : Nat × Nat) : Bool := k.vpend.any (fun e => runsMeet r (e.1, e.2.1))

/-- An issued vector word will write a run. -/
def Core.pendAdd (k : Core) (key n age : Nat) : Core := { k with vpend := k.vpend ++ [(key, n, age)] }

/-- Whether a register-space run may be read or written by a vector word: it meets no result to come of an earlier
vector word (R165) and no write footprint (R166, R212). -/
def runFree (s : State) (c : Nat) (r : Nat × Nat) : Bool :=
  !((s.core c).pendMeets (keyRS c r.1, r.2)) && !(s.hits c (keyRS c r.1) r.2)

/-- The stall an operand brings: a block not fetched, a run held, or empty granules where its TE bit is clear. -/
def operandStall (s : State) (c : Nat) (te : Bool) (f : Found) : Except Stop Unit :=
  match f with
  | .stall => .error .stall
  | .fetch p => .error (.prefetch p)
  | _ =>
    if !f.runs.all (runFree s c) then .error .stall
    else if !te && !(f.runs.all (fun r => s.full c r.1 r.2)) then .error .stall
    else .ok ()

/-- Reads what was found; ports advance, an operand's empty granules with TE set raise FE with the operand's
number (R25). -/
def takeOperand (o : Origin) (te : Bool) (code : Nat) (f : Found) : Op Source := do
  let s ← get
  match f with
  | .trap t => trapNow t 0 0
  | .view fmt r =>
    if te && !(s.full o.core r.1 r.2) then trapNow .fe code 0
    let own := s.ownTag o.core
    return ⟨fmt, s.read own (keyRS o.core r.1) r.2, [r], s.badRuns own o.core [r]⟩
  | .port p fmt runs bs t =>
    if te && !(runs.all (fun r => s.full o.core r.1 r.2)) then trapNow .fe code 0
    set (s.setPort o.core p t)
    let own := s.ownTag o.core
    return if runs.isEmpty then ⟨fmt, bs.1, [], bs.2⟩
      else ⟨fmt, runs.flatMap (fun r => s.read own (keyRS o.core r.1) r.2), runs, s.badRuns own o.core runs⟩
  | _ => stall

/-- The destination view: its format and run. An unbound one is a trap, raised after every stall (R50, R123). -/
def destView (s : State) (c : Nat) (d : Name) : Option (Byte × (Nat × Nat)) :=
  match d with
  | .v i =>
    let r := (s.core c).viewReg i
    if r.fmt = 0 then none else some (r.fmt, r.run)
  | _ => none

/-- Stalls of a destination run: an empty granule (R24), an earlier result to come, a footprint. -/
def destFree (s : State) (c : Nat) (r : Nat × Nat) : Bool := runFree s c r && s.full c r.1 r.2

/-- What the operands of a word meet, in order: a port named twice gives its block and the one after it (R159). -/
def findOperands (s : State) (c : Nat) : List (Name × Bool) → List (Found × Bool)
  | [] => []
  | e :: es =>
    let f := findOperand s c e.1
    let t := match f with
      | .port p _ _ _ after => s.modCore c (fun k => { k with ports := Tbl.put k.ports p.toNat after })
      | _ => s
    (f, e.2) :: findOperands t c es

/-- The banks of the descriptors that the ports among a word's operands take as it issues (R26, R126). -/
def Core.portBanks (k : Core) (ns : List Name) : BitVec 32 :=
  ns.foldl (fun m n => match n with
    | .p i => m ||| k.descBanks i
    | _ => m) 0

/-- The sources and destination of a vector word, found and read in one grant: every stall first, then the traps of
R50 in operand order, then the reads. Two ports popped by one word pop in the order a, b (R159). -/
def vectorOperands (o : Origin) (d : Name) (readD : Bool) (ops : List (Name × Bool)) :
    Op (Byte × (Nat × Nat) × List Nat × List Source) := do
  let s ← get
  let c := o.core
  let dv := destView s c d
  match dv with
  | some (_, r) => need (destFree s c r)
  | none => pure ()
  let _ ← (findOperands s c ops).foldlM (fun (_ : Unit) f => (liftM (operandStall s c f.2 f.1) : Op Unit)) ()
  match dv with
  | none => trapNow .rsvd 0 0
  | some (fmt, r) =>
    let srcs ← ops.zipIdx.foldlM (fun (acc : List Source) e => do
      let f := findOperand (← get) c e.1.1
      (liftM (operandStall s c e.1.2 f) : Op Unit)
      return acc ++ [← takeOperand o e.1.2 e.2 f]) []
    let dOld := if readD then elems (fmtSize fmt) 1024 (s.read (s.ownTag c) (keyRS c r.1) r.2) else []
    let banks := (srcs.flatMap Source.runs ++ (if readD then [r] else [])).foldl
      (fun m q => m ||| banksOf q.1 q.2) ((s.core c).portBanks (ops.map Prod.fst))
    claimBanks o banks
    return (fmt, r, dOld, srcs)

/-- A result on its way through the fixed write port (R164): the bytes and the VSTAT bits land together, some cycles
after issue. -/
def fixedResult (o : Origin) (r : Nat × Nat) (lat : Nat) (bytes : List Byte) (flags : BitVec 7) : Op Flow := do
  let k ← getCore o
  demand (!k.inText r.1 r.2) .addr r.1
  modifyCore o (fun k => k.pendAdd (keyRS o.core r.1) r.2 o.age)
  doneLater o lat (.vectorResultLands o (keyRS o.core r.1) bytes flags)

/-- Fixed-port bytes landing in this cycle at a key: a byte another walker has written in this cycle keeps the value
of the word with the higher step count, then the later tag (R125). -/
def State.writeFixed (s : State) (o : Origin) (key : Nat) (bytes : List Byte) : State :=
  let k := s.core o.core
  let rank := o.steps * 8 + walkerNum o.walker
  let tag := s.ownTag o.core
  let s1 := if k.fixedNow.any (fun e => rank < e.2.2 && key < e.1 + e.2.1 && e.1 < key + bytes.length) then
      bytes.zipIdx.foldl (fun (t : State) b =>
        if k.fixedNow.any (fun e => rank < e.2.2 && e.1 ≤ key + b.2 && key + b.2 < e.1 + e.2.1) then t
        else t.writeUser tag (key + b.2) [b.1]) s
    else s.writeUser tag key bytes
  s1.modCore o.core (fun k => { k with fixedNow := k.fixedNow ++ [(key, bytes.length, rank)] })

/-! ## Codebooks (R102, R129) -/

/-- The sixteen BF16 entries a codebook supplies: +0 under a stale tag. -/
def State.codebook (s : State) (c : Nat) (n : BitVec 3) : List (BitVec 16) :=
  let k := Tbl.get (s.core c).codebooks n.toNat ⟨voidTag, []⟩
  if tagOk (s.ownTag c) k.tag then k.entries else List.replicate 16 0

/-! ## Scopes -/

/-- POLICY's answer to a scope (R219): the firmware contexts are not held to it. -/
def State.scopeOk (s : State) (c : Nat) (sc : Scope) : Bool :=
  let k := s.core c
  if k.ctx = .tenant then
    match sc with
    | .dom => (s.vf k.vf.toNat).policy.getLsbD 0
    | .sys => (s.vf k.vf.toNat).policy.getLsbD 1
    | _ => true
  else true

/-- A refused scope raises SCOPE (R219). -/
def demandScope (o : Origin) (sc : Scope) : Op Unit := do
  demand ((← get).scopeOk o.core sc) .scope 0

end Sys2Proof.Machine
end

