-- ==== Sys2Proof/Machine/Fetch.lean ====
section
/-! DEFINITION. Fetching: the words of the running text, the skip logic and the outcome queues (R12 to R14, R37,
R48, R416), the fields a REP steps (R51 to R54), the choice of what happens next, and the end of a cycle. -/

namespace Sys2Proof.Machine

/-- The word at an index of a core's text (R37). -/
def State.textWord (s : State) (c idx : Nat) : IWord :=
  BitVec.ofNat 48 (leNat (s.read (s.ownTag c) (keyRS c ((s.core c).base + 6 * idx)) 6))

/-- Whether a walker executes a word: its own tag, tag A, and 0b111 for the control walker (R12, R48). -/
def mine (w : Walker) (word : IWord) : Bool :=
  fTag word = w.tag || fTag word = 6 || (fTag word = 7 && w = .C)

/-- A control-transfer word: BR, CALL, RET, LOOP (R43). -/
def isTransfer (word : IWord) : Bool :=
  fTag word = 0 && 0x1C ≤ (fOp word).toNat && (fOp word).toNat ≤ 0x1F

/-! ## REP -/

/-- Which of dest, a and b a word gives as a register name, and whether its tensor field steps (R53); none of a word whose
opcode is reserved. -/
def steppable (word : IWord) : Bool × Bool × Bool × Bool :=
  let op := (fOp word).toNat
  match (fTag word).toNat with
  | 0 =>
    if op = 0x02 || op = 0x03 || op = 0x26 || op = 0x27 || op = 0x2D then (true, false, false, false)
    else if op = 0x36 then (true, false, false, false)
    else if op = 0x07 || (0x17 ≤ op && op ≤ 0x1B) || op = 0x22 || op = 0x23 || op = 0x2B || op = 0x30
        || (op = 0x31 && (fMod word).extractLsb' 0 2 = 0) then (true, true, false, false)
    else if (0x08 ≤ op && op ≤ 0x16) || op = 0x20 || op = 0x21 || op = 0x2A || op = 0x2C
        || (0x31 ≤ op && op ≤ 0x37) then (true, true, true, false)
    else if op = 0x28 || op = 0x29 then (true, false, false, true)
    else if op = 0x2E then (false, true, false, false)
    else (false, false, false, false)
  | 1 =>
    if op = 0x06 || op = 0x07 || (0x10 ≤ op && op ≤ 0x15) || op = 0x17 || (0x1C ≤ op && op ≤ 0x1E)
        || (0x20 ≤ op && op ≤ 0x23) || op = 0x25 then (true, true, false, false)
    else if 0x18 ≤ op && op ≤ 0x1B then (true, true, (fMod word).getLsbD 4, false)
    else if op = 0x24 && (fMod word).getLsbD 0 then (true, false, false, false)
    else if op ≤ 0x26 then (true, true, true, false)
    else (false, false, false, false)
  | 2 =>
    if op = 0x00 then (false, true, true, false)
    else if op = 0x01 then (true, false, false, (fGMod word).extractLsb' 1 2 = 0)
    else if op = 0x02 || op = 0x04 || op = 0x0C then (false, false, false, false)
    else if op = 0x08 then (true, true, true, false)
    else if op = 0x09 || op = 0x0B || op = 0x0D then (true, true, false, false)
    else (op ≤ 0x0A, false, false, false)
  | 3 => if op ≤ 5 then (true, false, false, true) else (op = 7, false, false, false)
  | 4 =>
    if op = 0x00 || op = 0x01 || op = 0x0D then (true, false, false, true)
    else if op = 0x02 || op = 0x06 then (false, true, true, false)
    else if op = 0x03 || op = 0x05 || op = 0x07 then (false, true, false, false)
    else if op = 0x09 || op = 0x0E then (true, false, false, false)
    else if op = 0x0B || op = 0x0C then (true, true, false, false)
    else (false, false, false, false)
  | 5 =>
    if op = 0x30 && !(fMod word).getLsbD 0 then (true, true, false, false)
    else if op = 0x01 || (0x30 ≤ op && op ≤ 0x32) then (true, true, true, false)
    else if op = 0x04 || op = 0x0B then (true, false, false, false)
    else if op = 0x03 || op = 0x05 || 0x0C ≤ op then (false, false, false, false)
    else (true, false, false, true)
  | _ => (false, false, false, false)

/-- Whether a word has a stepped address (R53): a load or store of format R, a format-M word, SPL, FIL, or a
format-G word whose card holds an offset. -/
def hasAddress (word : IWord) : Bool :=
  let op := (fOp word).toNat
  match (fTag word).toNat with
  | 0 => (0x20 ≤ op && op ≤ 0x23) || op = 0x26 || op = 0x27 || op = 0x28
  | 1 => op = 0x20 || op = 0x21
  | 3 => op ≤ 5
  | 4 => op = 0x0D
  | 5 => op = 0x00 || op = 0x02 || (0x06 ≤ op && op ≤ 0x0A)
  | _ => false

/-- A register name stepped within its class: x1 to x63, v0 to v63, a0 to a15; other names stay (R53). -/
def stepName (b : BitVec 8) (d : Int) : Option (BitVec 8) :=
  let n := b.toNat
  let go := fun (lo hi : Nat) => let m := (n : Int) + d
    if (lo : Int) ≤ m ∧ m ≤ (hi : Int) then some (BitVec.ofInt 8 m) else none
  if 1 ≤ n ∧ n ≤ 0x3F then go 1 0x3F
  else if 0x40 ≤ n ∧ n ≤ 0x7F then go 0x40 0x7F
  else if 0x80 ≤ n ∧ n ≤ 0x8F then go 0x80 0x8F
  else some b

/-- A word with 8 bits replaced from a bit position. -/
def setField (word : IWord) (pos n v : Nat) : IWord :=
  BitVec.ofNat 48 (word.toNat - (word.toNat / 2 ^ pos % 2 ^ n) * 2 ^ pos + v * 2 ^ pos)

/-- The repeated word with its steppable fields moved by d; none when one leaves its class (R52, R53). -/
def steppedWord (word : IWord) (d : Int) : Option IWord :=
  let (sd, sa, sb, st) := steppable word
  let one := fun (on : Bool) (pos : Nat) (w : IWord) =>
    if on then (stepName (w.extractLsb' pos 8) d).map (fun b => setField w pos 8 b.toNat) else some w
  do
    let w1 ← one sd 23 word
    let w2 ← one sa 15 w1
    let w3 ← one sb 7 w2
    if st then
      let t := ((fTensor w3).toNat : Int) + d
      if 0 ≤ t ∧ t < 4096 then some (setField w3 11 12 t.toNat) else none
    else some w3

/-- The index of the next word from idx that a walker would issue, when no control transfer lies before it
(R52). -/
def repTarget (s : State) (c : Nat) (w : Walker) (words : Nat) : Nat → Nat → Option Nat
  | 0, _ => none
  | fuel + 1, idx =>
    if words ≤ idx then none
    else
      let word := s.textWord c idx
      if isTransfer word then none
      else if mine w word then some idx
      else repTarget s c w words fuel (idx + 1)

/-- The checks of R52 on a REP and its repeated word. -/
def repOk (word : IWord) (count : Nat) (regstep addrstep : Int) : Bool :=
  !(fOp word = 0x3F && fTag word ≠ 7) && !(fTag word = 6 && (fOp word).toNat ≤ 2) && !isTransfer word
  && !(fTag word = 0 && fOp word = 0x01)
  && (List.range count).all (fun i => (steppedWord word ((i : Int) * regstep)).isSome)
  && (addrstep = 0 || hasAddress word)
  && (regstep = 0 || !(fTag word = 2 && fOp word = 0x01 && (fGMod word).extractLsb' 1 2 ≠ 0))

/-! ## Forms that a register value selects -/

/-- FPLOW and FLNK: the form that the value of b selects (R391, R392). A command that is none is left as QUERY's
opposite end: DOWN, whose meaning refuses it. -/
def resolve (s : State) (c : Nat) (i : Instr) : Instr :=
  let k := s.core c
  match i with
  | .fplow h d a b => if k.readX (xNum b) = 0 then .fplowFree h d a b else i
  | .flnkDown h d a b =>
    let v := k.readX (xNum b)
    if v = 1 then .flnkTrain h d a b else if v = 2 then .flnkDrain h d a b
    else if v = 3 then .flnkRelock h d a b else if v = 4 then .flnkQuery h d a b else i
  | _ => i

/-! ## What happens next -/

/-- The age at which an event asks for banks of register space (R27); none for one that asks for none. -/
def State.requestAge (s : State) (i : Instr) : Option Nat :=
  match i with
  | .longLatencyWriteComplete o _ _ => some o.age
  | .loadPerforms c => (s.core c).lq.head?.bind (fun e => match e.op with
      | .load _ _ key _ _ => if isRS key then some e.o.age else none
      | _ => none)
  | .galleyLineWrite id => (Tbl.find s.galleys id).bind (fun g => match g.flight.find? (fun p => p.due ≤ s.now) with
      | some p => if isRS p.dst then some (g.ageAt (rsCore p.dst)) else none
      | none => if (g.reads ++ g.writes).any (fun r => isRS r.key) then some g.o.age else none)
  | .galleyStart id => (Tbl.find s.galleys id).bind (fun g => if g.reads.any (fun r => isRS r.key) then some g.o.age else none)
  | .putArrive p => if p.addr.getLsbD 63 && !p.data.isEmpty then
      some (if p.opnd0 = 0 then (s.core p.dstCore.toNat).time * 8 + 7 else p.opnd0.toNat - 1) else none
  | .bankArbitration c reqs => (reqs.find? (fun r => r.banks ≠ 0
      || (s.core c).matq.any (fun e => e.o.age = r.age && e.lands.isNone))).map (fun r => r.age)
  | .nestStep c => (s.core c).nest.map (fun n => n.o.age)
  | _ => none

/-- The events due of a list in order of time, each with its place in it. -/
def dueOf (now : Nat) (l : List (Nat × Instr)) : List (Nat × Instr) :=
  ((l.takeWhile (fun e => decide (e.1 ≤ now))).map (fun e => e.2)).zipIdx.map (fun e => (e.2, e.1))

/-- The events due: those of the module, then those inside running cores, lowest core first; each with the list it
stands in. -/
def State.dueEvents (s : State) : List (Option Nat × Nat × Instr) :=
  (dueOf s.now s.agenda).map (fun e => (none, e)) ++
    s.cores.flatMap (fun c => if c.2.frozen.isNone then (dueOf c.2.time c.2.agenda).map (fun e => (some c.1, e)) else [])

/-- Of the events due the one that happens next: the first that asks for no banks, else the one whose request is the
oldest (R27). -/
def dueEvent (s : State) : Option (Instr × State) :=
  (s.dueEvents.foldl (fun (a : Option (Nat × Option Nat × Nat × Instr)) e =>
      let k := ((s.requestAge e.2.2).map (· + 1)).getD 0
      match a with
      | none => some (k, e)
      | some b => if k < b.1 then some (k, e) else a) none).map (fun e => match e.2 with
    | (none, n, i) => (i, { s with agenda := s.agenda.eraseIdx n })
    | (some c, n, i) => (i, s.modCore c (fun k => { k with agenda := k.agenda.eraseIdx n })))

/-- The walkers of a core that may still act in this cycle, those with fewer steps first (R20). -/
def readyWalker (k : Core) : Option Walker :=
  (allWalkers.filter (fun w => (k.w w).st = .running && !(k.w w).tried)).foldl (fun (a : Option Walker) w =>
    match a with
    | none => some w
    | some b => if (k.w w).steps < (k.w b).steps then some w else some b) none

/-- The next core and walker to act. -/
def nextWalker (s : State) : Option (Nat × Walker) :=
  (s.cores.find? (fun e => e.2.live && e.2.frozen.isNone && (readyWalker e.2).isSome)).bind (fun e =>
    (readyWalker e.2).map (fun w => (e.1, w)))

/-- A core whose kernel ends: its control walker is halted, every issued word of every walker has completed
(R15, R82), and it has not been counted yet. -/
def endedCore (s : State) : Option Nat :=
  (s.cores.find? (fun e => e.2.live && e.2.frozen.isNone && e.2.wC.st = .halted
    && allWalkers.all (fun w => (e.2.w w).pend = (if w = .C then 1 else 0) && (e.2.w w).rep.isNone)
    && e.2.latches.isEmpty
    && !(s.galleys.any (fun g => g.2.core = e.1 && g.2.gang = e.2.gang))
    && (match s.gang e.2.gang with
      | some g => !g.ended.contains e.1
      | none => true))).map (fun e => e.1)

/-- What a walker's attempt comes to: a new state without an instruction, or an instruction to run. -/
inductive Attempt
  | done (s : State)
  | run (i : Instr) (s : State)
  | probe (i : Instr) (p s : State)

/-- A walker passes a word: skipped, or followed by an outcome (R13, R14, R16, R416). -/
def passWord (s : State) (c : Nat) (w : Walker) (target : Nat) (outs : List Outc) : State :=
  s.modW c w (fun v => { v with index := target, steps := v.steps + 1, passes := v.passes + 1, outcomes := outs })

/-- The next instruction of a walker at its index, with a REP's fields stepped (R50, R53, R54). -/
def decodeNext (s : State) (c : Nat) (w : Walker) : Except TrapClass Instr :=
  let v := (s.core c).w w
  let word := s.textWord c v.index
  match v.rep with
  | none => (decodeWord (s.dctx c) word).map (resolve s c)
  | some r => match steppedWord word ((r.iter : Int) * r.regstep) with
    | none => .error .rsvd
    | some word' => (decodeWord (s.dctx c) word').map (resolve s c)

/-- The stepped address of the next word (R53). -/
def stepAdd (v : WalkerSt) : Int :=
  match v.rep with
  | none => 0
  | some r => (r.iter : Int) * r.addrstep * 16

/-- The walker moved, without the slip window, to the word it would reach in this cycle (R418). -/
def reach (s : State) (c : Nat) (w : Walker) : Nat → Option State
  | 0 => none
  | fuel + 1 =>
    let k := s.core c
    let v := k.w w
    let word := s.textWord c v.index
    if k.words ≤ v.index then none
    else if isTransfer word && w ≠ .C then
      match v.outcomes with
      | o :: os => if o.pushed < k.time then
          reach (passWord s c w (if o.taken then o.target else v.index + 1) os) c w fuel else none
      | [] => none
    else if mine w word then some s
    else reach (passWord s c w (v.index + 1) v.outcomes) c w fuel

/-- One attempt of a walker in a cycle (R13, R14, R16, R37, R48, R50, R416, R418). -/
def attempt (s0 : State) (c : Nat) (w : Walker) : Attempt :=
  let s := { s0 with cur := c, curW := w }
  let k := s.core c
  let v := k.w w
  if v.blocked || k.time < v.readyAt || 4 ≤ v.passes then .done (s.stalled c w)
  else if !k.slipOk w then
    match reach s c w (4 - v.passes) with
    | none => .done (s.stalled c w)
    | some p =>
      let p1 := p.modCore c (fun k => { k with slip := 2 ^ 64 })
      match decodeNext p1 c w with
      | .ok i => .probe i (p1.modW c w (fun v => { v with addrAdd := stepAdd v })) (s.stalled c w)
      | .error _ => .done (s.stalled c w)
  else if k.words ≤ v.index then
    .done ((s.takeTrap { k.origin c w 0 with rep := 0, post2 := 0 } .addr 0 (k.base + 6 * v.index)).stalled c w)
  else
    let word := s.textWord c v.index
    if isTransfer word && w ≠ .C then
      match v.outcomes with
      | o :: os => if o.pushed < k.time then
          .done (passWord s c w (if o.taken then o.target else v.index + 1) os) else .done (s.stalled c w)
      | [] => .done (s.stalled c w)
    else if !mine w word then .done (passWord s c w (v.index + 1) v.outcomes)
    else match decodeNext s c w with
      | .ok i => .run i (s.modW c w (fun v => { v with addrAdd := stepAdd v }))
      | .error t =>
        if fWait word = 0 || (fTag word = 6 && (fOp word).toNat ≤ 2 && w ≠ .C) || s.semVal c (fWait word) ≠ 0 then
          .done ((s.takeTrap { k.origin c w 0 with post2 := 0 } t 0 0).stalled c w)
        else .done (s.stalled c w)

/-- A probe of R418 has shown whether the window alone holds the walker. -/
def probed (s : State) (c : Nat) (w : Walker) (r : State) : State :=
  if ((r.core c).w w).tried then s else s.modCore c (fun k => { k with slipHeld := true })

/-! ## The end of a cycle -/

/-- What a latch sets (R17, R20, R22, R34, R74, R390); with the word that is complete its bytes are no longer awaited (R165). -/
def applyLatch (s : State) (c : Nat) (l : Latch) : State :=
  match l with
  | .sem n v => s.setSem c n v.toNat
  | .slip w => s.modCore c (fun k => { k with slip := w })
  | .view n p f => s.modCore c (fun k => { k with views := Tbl.put k.views n.toNat ⟨f, p⟩ })
  | .aview n p => s.modCore c (fun k => { k with aviews := Tbl.put k.aviews n.toNat ⟨0x0A, p⟩ })
  | .xreg n v => s.modCore c (fun k => k.writeX n v)
  | .fill off n => s.markFull c off n
  | .version v => { s with rv := v }
  | .tidy o => s.modCore c (fun k => { k with vpend := k.vpend.filter (fun e => e.2.2 ≠ o.age) })

def Latch.isTidy : Latch → Bool
  | .tidy _ => true
  | _ => false

/-- A walker at the start of a cycle. -/
def WalkerSt.fresh (v : WalkerSt) : WalkerSt := { v with tried := false, passes := 0 }

/-- A running core moves to its next cycle: latches apply, then CLK advances, then the words they belong to are
complete (R19, R61). -/
def tickCore (s : State) (c : Nat) : State :=
  let k := s.core c
  if k.frozen.isSome then s
  else
    let s1 := k.latches.foldl (fun t l => applyLatch t c l) s
    let s2 := s1.modCore c (fun k => { k with
      latches := [], time := k.time + 1, clk := if k.live then k.clk + 1 else k.clk,
      claimed := 0, standing := k.asking, asking := [], granted := [], fixedNow := [], popped := [], slipHeld := false, walkFault := [],
      stalls := if k.slipHeld then satAdd 29 k.stalls 1 else k.stalls,
      wC := k.wC.fresh, wV := k.wV.fresh, wM := k.wM.fresh, wX := k.wX.fresh, wG := k.wG.fresh, wF := k.wF.fresh })
    k.latches.foldl (fun t l => match l with
      | .tidy o => t.finish o
      | _ => t) s2

/-- Whether a core stands at its superstep's barrier: every started walker has arrived and every word issued before
has completed (R87). Galleys of the exchange phase are not waited for (R303). -/
def coreArrived (s : State) (c : Nat) : Bool :=
  let k := s.core c
  k.wC.st = .barrier && allWalkers.all (fun w => (k.w w).st ≠ .running && (k.w w).st ≠ .rendezvous
    && (k.w w).pend = s.galleys.foldl (fun n g => if g.2.core = c && g.2.gang = k.gang && g.2.o.walker = w && g.2.exch then n + 1 else n) 0)
  && !(s.galleys.any (fun g => g.2.core = c && g.2.gang = k.gang && !g.2.exch))
  && k.latches.isEmpty

/-- The quarter of a core (R61). -/
def quarter (c : Nat) : Nat := c / 64 % 4

/-- A gang whose cores have all arrived at the barrier, those halted left out: its compute phase closes (R82, R87). -/
def gangArrived (g : Gang) (s : State) : Bool :=
  !g.closing && g.phase.isNone && g.frozen.isNone
  && g.cores.any (fun c => (s.core c).wC.st = .barrier)
  && g.cores.all (fun c => coreArrived s c || (s.core c).wC.st = .halted || g.ended.contains c)

/-- Whether the writes that a halted core has issued have performed: its queued stores, its moves between views, its nest
and the matrix words that wait for their tiles, and its galleys but those of an exchange phase (R302). Those of a core that has arrived have (R87). -/
def haltedWritesDone (s : State) (c : Nat) : Bool :=
  let k := s.core c
  k.wC.st ≠ .halted || (k.sq.isEmpty && k.moves.isEmpty && k.nest.isNone && k.matq.isEmpty
    && k.agenda.all (fun e => match e.2 with
      | .longLatencyWriteComplete _ _ _ => false
      | .vectorResultLands _ _ _ _ => false
      | _ => true)
    && !(s.galleys.any (fun g => g.2.core = c && g.2.gang = k.gang && !g.2.exch)))

/-- A gang whose compute phase has closed and whose writes of the superstep have performed at chip scope (R302). -/
def barrierReady (g : Gang) (s : State) : Bool := gangArrived g s && g.cores.all (haltedWritesDone s)

/-- Walker cycles of the barrier network: 8 or 24 uncore cycles (R302). -/
def barrierDelay (g : Gang) : Nat :=
  if g.cores.all (fun c => quarter c = quarter (g.cores.headD 0)) then 16 else 48

/-- A group of 64 cells as the core reads it. -/
def State.cells (s : State) (c g : Nat) : CellGroup :=
  let own := s.ownTag c
  let v := Tbl.get (s.core c).gibbs.groups g ⟨voidTag, 0, 0, [], [], []⟩
  if tagOk own v.tag then v else ⟨own, 0, 0, [], [], []⟩

/-- The image of all 8192 states (R92, R280). -/
def State.stateImage (s : State) (c : Nat) : List Byte :=
  (List.range 128).flatMap (fun g => leBytes 8 (s.cells c g).s.toNat)

/-- As a compute phase closes, a GXCH that has not published takes the states that it is to publish (R282). -/
def State.holdStates (s : State) (gang : Nat) : State :=
  { s with galleys := s.galleys.map (fun e =>
      if e.2.gang = gang && e.2.job = .gxch && !e.2.started && e.2.plan.isEmpty then
        (e.1, { e.2 with plan := [.of (.data (s.stateImage e.2.core) false) (2 ^ 63) 0 0] })
      else e) }

/-- Compute phases that close, and barriers: the phase after begins on the uncore cycle after the last core has arrived and
the writes have performed, and the 8 or 24 of the network (R302), counted in the cycles of the gang's first core so that a
freeze suspends them (R317). -/
def watchBarriers (s : State) : State :=
  s.gangs.foldl (fun t e =>
    if gangArrived e.2 t then
      let u := t.holdStates e.1
      let c := e.2.cores.headD 0
      if barrierReady e.2 t then
        (u.modGang e.1 (fun g => { g with closing := true })).later c (barrierDelay e.2 + (u.core c).time % 2) (.barrierClose e.1)
      else u
    else t) s

/-- The end of a walker cycle: every core that runs moves on. -/
def tick (s : State) : State :=
  watchBarriers (s.cores.foldl (fun t e => tickCore t e.1) { s with now := s.now + 1 })

/-- Domain time in nanoseconds (R358): 10 ns for 27 walker cycles, from what training distributed. -/
def State.domainNs (s : State) : Nat := s.domainTime + s.now * 10 / 27

end Sys2Proof.Machine
end

