-- ==== Sys2Proof/Machine/Control.lean ====
section
/-! DEFINITION. The control walker's scalar words, control transfers, spill, setup and halting (R59 to R76, R82, R83),
and the landing of scalar results (R60). -/

namespace Sys2Proof.Machine

/-! ## Immediates and integer arithmetic (R62 to R65) -/

def execNop (h : Hdr) (s : State) : Host.Outcome State Fault Refusal :=
  issue .C h 1 (fun o => doneNow o) s

def execLi (h : Hdr) (d : Name) (imm : BitVec 23) (s : State) : Host.Outcome State Fault Refusal :=
  issue .C h 1 (fun o => do
    dst o d (sextWord 23 imm.toNat)
    doneNext o []) s

def execLiu (h : Hdr) (d : Name) (imm : BitVec 23) (s : State) : Host.Outcome State Fault Refusal :=
  issue .C h 1 (fun o => do
    let v ← src o d
    dst o d (v <<< 23 + imm.setWidth 64)
    doneNext o []) s

/-- A register form of the Scalar class (R64). -/
def scalar2 (h : Hdr) (d a b : Name) (f : Word → Word → Word) (s : State) : Host.Outcome State Fault Refusal :=
  issue .C h 1 (fun o => do
    let x ← src o a
    let y ← src o b
    dst o d (f x y)
    doneNext o []) s

/-- A form of one source. -/
def scalar1 (h : Hdr) (d a : Name) (f : Word → Word) (s : State) : Host.Outcome State Fault Refusal :=
  issue .C h 1 (fun o => do
    let x ← src o a
    dst o d (f x)
    doneNext o []) s

def execAdd (h : Hdr) (d a b : Name) (s : State) : Host.Outcome State Fault Refusal := scalar2 h d a b (· + ·) s
def execSub (h : Hdr) (d a b : Name) (s : State) : Host.Outcome State Fault Refusal := scalar2 h d a b (· - ·) s
def execAnd (h : Hdr) (d a b : Name) (s : State) : Host.Outcome State Fault Refusal := scalar2 h d a b (· &&& ·) s
def execOr (h : Hdr) (d a b : Name) (s : State) : Host.Outcome State Fault Refusal := scalar2 h d a b (· ||| ·) s
def execXor (h : Hdr) (d a b : Name) (s : State) : Host.Outcome State Fault Refusal := scalar2 h d a b (· ^^^ ·) s

def execShl (h : Hdr) (d a b : Name) (s : State) : Host.Outcome State Fault Refusal :=
  scalar2 h d a b (fun x y => x <<< (y.toNat % 64)) s
def execShr (h : Hdr) (d a b : Name) (s : State) : Host.Outcome State Fault Refusal :=
  scalar2 h d a b (fun x y => x >>> (y.toNat % 64)) s
def execSar (h : Hdr) (d a b : Name) (s : State) : Host.Outcome State Fault Refusal :=
  scalar2 h d a b (fun x y => x.sshiftRight (y.toNat % 64)) s

/-- The order of MIN, MAX and SLT: signed, or unsigned with .U. -/
def wordLt (uns : Bool) (x y : Word) : Bool := if uns then x.ult y else x.slt y

def execMin (h : Hdr) (uns : Bool) (d a b : Name) (s : State) : Host.Outcome State Fault Refusal :=
  scalar2 h d a b (fun x y => if wordLt uns y x then y else x) s
def execMax (h : Hdr) (uns : Bool) (d a b : Name) (s : State) : Host.Outcome State Fault Refusal :=
  scalar2 h d a b (fun x y => if wordLt uns x y then y else x) s
def execSlt (h : Hdr) (d a b : Name) (s : State) : Host.Outcome State Fault Refusal :=
  scalar2 h d a b (fun x y => if wordLt false x y then 1 else 0) s
def execSltu (h : Hdr) (d a b : Name) (s : State) : Host.Outcome State Fault Refusal :=
  scalar2 h d a b (fun x y => if wordLt true x y then 1 else 0) s

def execSel (h : Hdr) (d a b : Name) (s : State) : Host.Outcome State Fault Refusal :=
  issue .C h 1 (fun o => do
    let c ← src o d
    let x ← src o a
    let y ← src o b
    dst o d (if c ≠ 0 then x else y)
    doneNext o []) s

/-- Leading zero bits of a word, 0 to 64. -/
def leadingZeros (x : Word) : Nat := if x = 0 then 64 else 63 - Nat.log2 x.toNat

/-- One bits of a word. -/
def popCount (x : Nat) : Nat → Nat
  | 0 => 0
  | n + 1 => (if bitOf x n then 1 else 0) + popCount x n

def execClz (h : Hdr) (d a : Name) (s : State) : Host.Outcome State Fault Refusal :=
  scalar1 h d a (fun x => BitVec.ofNat 64 (leadingZeros x)) s
def execPopc (h : Hdr) (d a : Name) (s : State) : Host.Outcome State Fault Refusal :=
  scalar1 h d a (fun x => BitVec.ofNat 64 (popCount x.toNat 64)) s

def execAddi (h : Hdr) (d a : Name) (imm : BitVec 15) (s : State) : Host.Outcome State Fault Refusal :=
  scalar1 h d a (fun x => x + sextWord 15 imm.toNat) s
def execAndi (h : Hdr) (d a : Name) (imm : BitVec 15) (s : State) : Host.Outcome State Fault Refusal :=
  scalar1 h d a (fun x => x &&& sextWord 15 imm.toNat) s
def execOri (h : Hdr) (d a : Name) (imm : BitVec 15) (s : State) : Host.Outcome State Fault Refusal :=
  scalar1 h d a (fun x => x ||| sextWord 15 imm.toNat) s

def execMul (h : Hdr) (d a b : Name) (s : State) : Host.Outcome State Fault Refusal :=
  issue .C h 1 (fun o => do
    let x ← src o a
    let y ← src o b
    resultLater o d 3 (x * y)) s

/-- The high half of a product, signed or unsigned (R64). -/
def mulHigh (uns : Bool) (x y : Word) : Word :=
  if uns then BitVec.ofNat 64 (x.toNat * y.toNat / 2 ^ 64) else BitVec.ofInt 64 (x.toInt * y.toInt / 2 ^ 64)

def execMulh (h : Hdr) (uns : Bool) (d a b : Name) (s : State) : Host.Outcome State Fault Refusal :=
  issue .C h 1 (fun o => do
    let x ← src o a
    let y ← src o b
    resultLater o d 3 (mulHigh uns x y)) s

/-- A pending x-register or queue write lands, its scoreboard entry clears, and the word is complete (R60). An
acquire that has read its value completes with it (R220); a walker that this word alone holds goes on (R325). -/
def execScalarResultLands (o : Origin) (d : Name) (val : Word) (s : State) : Host.Outcome State Fault Refusal :=
  let w := (s.core o.core).w o.walker
  let s1 := (s.land o d val).modCore o.core (fun k => { k with
    lq := k.lq.filter (fun e => !(e.op = .away && e.o.age = o.age)) })
  .next ((if w.blocked && w.pend = 1 then s1.unblock o else s1).finish o)

/-! ## Control transfer (R66 to R68) -/

/-- A condition of R41 on a value. -/
def condHolds (c : BitVec 4) (v : Word) : Bool :=
  match c.toNat with
  | 0 => true
  | 1 => v = 0
  | 2 => v ≠ 0
  | 3 => v.slt 0
  | 4 => !v.slt 0
  | 5 => (0 : Word).slt v
  | 6 => !(0 : Word).slt v
  | _ => v.getLsbD 0

/-- The walkers other than the control walker that are started (R15). -/
def Core.started (k : Core) : List Walker := [.V, .M, .X, .G, .F].filter (fun w => (k.w w).st ≠ .idle)

/-- Pushes an outcome to every started walker; it can be popped from the next cycle on (R14, R66). -/
def Core.pushOutcome (k : Core) (taken : Bool) (target : Nat) : Core :=
  k.started.foldl (fun k w => k.modW w (fun v => { v with outcomes := v.outcomes ++ [⟨k.time, taken, target⟩] })) k

/-- The control walker continues: at the target when the transfer is taken, else at the next word. -/
def Core.continueAt (k : Core) (taken : Bool) (target : Nat) : Core :=
  { k with wC := { k.wC.advance (k.time + (if taken then 3 else 1)) with
      index := if taken then target else k.wC.index + 1 } }

/-- A control transfer whose condition is known: `to?` is the target when taken (none: outside the text, or the
return stack refuses), `stack` the return stack after it (R66, R67). -/
def transfer (o : Origin) (taken : Bool) (to? : Option Nat) (stack : List Nat) : Op Flow := do
  let k ← getCore o
  need (k.started.all (fun w => (k.w w).outcomes.length < 64))
  match taken, to? with
  | true, none => trapNow .addr 0 (k.base + 6 * o.index)
  | taken, t =>
    let target := t.getD 0
    modifyCore o (fun k => { (k.pushOutcome taken target).continueAt taken target with
      retStack := if taken then stack else k.retStack })
    modify (fun s => s.complete o)
    return .own

/-- The target of an offset, when it lies in the text. -/
def Core.target (k : Core) (idx : Nat) (off : BitVec 19) : Option Nat :=
  let t := (idx : Int) + off.toInt
  if 0 ≤ t && t < k.words then some t.toNat else none

def condSrc (o : Origin) (cond : BitVec 4) (r : Name) : Op Word := if cond = 0 then pure 0 else src o r

def execBr (h : Hdr) (cond : BitVec 4) (r : Name) (off : BitVec 19) (s : State) : Host.Outcome State Fault Refusal :=
  issue .C h 1 (fun o => do
    let v ← condSrc o cond r
    let k ← getCore o
    transfer o (condHolds cond v) (k.target o.index off) k.retStack) s

def execCall (h : Hdr) (cond : BitVec 4) (r : Name) (off : BitVec 19) (s : State) : Host.Outcome State Fault Refusal :=
  issue .C h 1 (fun o => do
    let v ← condSrc o cond r
    let k ← getCore o
    transfer o (condHolds cond v) (if k.retStack.length < 16 then k.target o.index off else none)
      ((o.index + 1) :: k.retStack)) s

def execRet (h : Hdr) (cond : BitVec 4) (r : Name) (s : State) : Host.Outcome State Fault Refusal :=
  issue .C h 1 (fun o => do
    let v ← condSrc o cond r
    let k ← getCore o
    transfer o (condHolds cond v) (match k.retStack with
      | t :: _ => if t < k.words then some t else none
      | [] => none) k.retStack.tail) s

def execLoop (h : Hdr) (cond : BitVec 4) (r : Name) (off : BitVec 19) (s : State) : Host.Outcome State Fault Refusal :=
  issue .C h 1 (fun o => do
    let v ← src o r
    let k ← getCore o
    dst o r (v - 1)
    transfer o (condHolds cond (v - 1)) (k.target o.index off) k.retStack) s

/-! ## Spill and fill (R72) -/

/-- The stepped spill offset (R53); out of range or misaligned it raises RSVD (R72). -/
def spillPlace (o : Origin) (size : BitVec 8) (off : BitVec 15) : Op (Nat × Nat) := do
  let k ← getCore o
  let n : Nat := 2 ^ (3 * (size.toNat + 1))
  let a := (off.toNat : Int) + (k.w o.walker).addrAdd
  demand (0 ≤ a && a + n ≤ 2 ^ 14 && a % (n : Int) = 0) .rsvd 0
  return (a.toNat, n)

/-- The register-space offset of a 512-byte spill or fill (R72). -/
def spillBlock (o : Origin) (d : Name) : Op Nat := do
  let a := (← src o d).toNat
  demand (a % 512 = 0 && a + 512 ≤ 0x40000) .addr a
  return a

/-- Whether an acquire of the control walker is not complete: a later access waits for it (R217, R220). -/
def Core.acquiring (k : Core) : Bool :=
  k.lq.any (fun e => match e.op with
    | .away => true
    | .load _ _ _ _ acq => acq
    | .tkwait _ _ => true
    | _ => false)

/-- Whether a load or store that has not performed touches a run: a spill or fill of it keeps the core's order (R232). -/
def Core.queuesMeet (k : Core) (key n : Nat) : Bool :=
  (k.lq ++ k.sq).any (fun e => match e.op with
    | .load m _ q _ _ => runsMeet (key, n) (q, m)
    | .store m q _ _ => runsMeet (key, n) (q, m)
    | _ => false)

/-- The word without its posts, for what it does before its last result. -/
def quiet (o : Origin) : Origin := { o with post := 0, post2 := 0 }

/-- The eight registers from a register on. -/
def eightFrom (d : Name) : List (BitVec 6) := (List.range 8).map (fun i => xNum d + BitVec.ofNat 6 i)

/-- A word with nothing left to write completes some cycles after its issue. -/
def completeLater (o : Origin) (lat : Nat) : Op Flow := doneLater o lat (.scalarResultLands o (.x 0) 0)

def execSpl (h : Hdr) (size : BitVec 8) (d : Name) (off : BitVec 15) (s : State) : Host.Outcome State Fault Refusal :=
  issue .C h (if size = 2 then 8 else 1) (fun o => do
    if size = 2 then
      let x ← src o d
      let s ← get
      let a := x.toNat
      let okA := a % 512 = 0 && a + 512 ≤ 0x40000
      need (!okA || (s.full o.core a 512 && !(s.hits o.core (keyRS o.core a) 512)))
      need (!((s.core o.core).acquiring || (s.core o.core).queuesMeet (keyRS o.core a) 512))
      let p ← spillPlace o size off
      let _ ← spillBlock o d
      claimBanks o (banksOf a 512)
      modify (fun t => t.write (t.ownTag o.core) (keySpill o.core p.1) (t.read (t.ownTag o.core) (keyRS o.core a) 512))
      completeLater o 8
    else
      let vs ← (if size = 0 then [xNum d] else eightFrom d).mapM (srcX o)
      need (!(← getCore o).acquiring)
      let p ← spillPlace o size off
      modify (fun t => t.write (t.ownTag o.core) (keySpill o.core p.1) (vs.flatMap (fun v => leBytes 8 v.toNat)))
      doneNext o []) s

def execFil (h : Hdr) (size : BitVec 8) (d : Name) (off : BitVec 15) (s : State) : Host.Outcome State Fault Refusal :=
  issue .C h (if size = 2 then 8 else 1) (fun o => do
    if size = 2 then
      let x ← src o d
      let s ← get
      let a := x.toNat
      let okA := a % 512 = 0 && a + 512 ≤ 0x40000
      let k ← getCore o
      need (!okA || (s.full o.core a 512 && !(s.hits o.core (keyRS o.core a) 512)))
      need (!(k.acquiring || k.queuesMeet (keyRS o.core a) 512))
      let p ← spillPlace o size off
      let _ ← spillBlock o d
      demand (!k.inText a 512) .addr a
      doneLater o 8 (.vectorResultLands o (keyRS o.core a) (s.read (s.ownTag o.core) (keySpill o.core p.1) 512) 0)
    else
      let rs := if size = 0 then [xNum d] else eightFrom d
      let _ ← rs.mapM (fun r => destReady o (.x r))
      need (!(← getCore o).acquiring)
      let p ← spillPlace o size off
      let s ← get
      let _ ← rs.zipIdx.mapM (fun e => resultLater (if e.2 + 1 = rs.length then o else quiet o) (.x e.1) 1 (BitVec.ofNat 64
        (leNat (s.read (s.ownTag o.core) (keySpill o.core (p.1 + 8 * e.2)) 8))))
      return .seq) s

/-! ## Views, slip, semaphores (R73 to R76) -/

def execView (h : Hdr) (d a : Name) (fmt : BitVec 8) (s : State) : Host.Outcome State Fault Refusal :=
  issue .C h 1 (fun o => do
    let v := (← src o a).toNat
    let ext := match d with
      | .a _ => 12288
      | _ => 4096
    demand (v % 4096 = 0 && v + ext ≤ 0x40000) .addr v
    let page := BitVec.ofNat 6 (v / 4096)
    doneNext o (match d with
      | .v n => [.view n page fmt]
      | .a n => [.aview n page]
      | _ => [])) s

def execSlipw (h : Hdr) (window : BitVec 13) (s : State) : Host.Outcome State Fault Refusal :=
  issue .C h 1 (fun o => doneNext o [.slip window.toNat]) s

def execSemi (h : Hdr) (sem : BitVec 8) (val : BitVec 8) (s : State) : Host.Outcome State Fault Refusal :=
  issue .C h 1 (fun o => doneNext o [.sem (sem.setWidth 4) val]) s

/-! ## Halting and deliberate traps (R82, R83) -/

/-- HALT issues once every other walker is idle; its post lands when the kernel ends. -/
def execHalt (h : Hdr) (s : State) : Host.Outcome State Fault Refusal :=
  issue .C h 1 (fun o => do
    let k ← getCore o
    need (k.started.isEmpty)
    modify (fun s => (s.begin o).modW o.core .C (fun v => { v with st := .halted, readyAt := k.time + 1 }))
    return .own) s

/-- TRAP takes its wait, posts, and raises its trap; after THAW the walker goes on at the next word. -/
def execTrap (h : Hdr) (code : BitVec 23) (s : State) : Host.Outcome State Fault Refusal :=
  issue .C h 1 (fun o => do
    let k ← getCore o
    modify (fun s => ((s.complete o).modW o.core .C (fun v => v.advance (k.time + 1))).takeTrap o .trap code.toNat 0)
    return .own) s

end Sys2Proof.Machine
end

