-- ==== Sys2Proof/Machine/AllWalkers.lean ====
section
/-! DEFINITION. REP, and the words of all walkers: FORK, RDV and SSB (R51 to R54, R84 to R87). -/

namespace Sys2Proof.Machine

/-- REP: the checks of R52 on the word it repeats, then the repetition begins at the walker's next word (R53). -/
def execRep (h : Hdr) (tag : BitVec 3) (count : BitVec 8) (regstep : BitVec 8) (addrstep : BitVec 15) (s : State) :
    Host.Outcome State Fault Refusal :=
  let w := s.curW
  issue w h 1 (fun o => do
    let s ← get
    let k ← getCore o
    let n := count.toNat + 1
    let ok := (tag = w.tag || tag = 6) && (match repTarget s o.core w k.words (k.words + 1) (o.index + 1) with
      | some i => repOk (s.textWord o.core i) n regstep.toInt addrstep.toInt
      | none => false)
    demand ok .rsvd 0
    modify (fun s => s.modW o.core w (fun v => { v.advance (k.time + 1) with
      rep := some ⟨n, 0, regstep.toInt, addrstep.toInt, h.post⟩ }))
    return .own) s

/-- Only the control walker acts on the wait and post fields of FORK, RDV and SSB (R84). -/
def allHdr (w : Walker) (h : Hdr) : Hdr := if w = .C then h else ⟨0, 0⟩

/-- A walker that FORK starts: at the word after it, issuing from the second cycle after it (R85). -/
def WalkerSt.fork (v : WalkerSt) (index ready : Nat) : WalkerSt :=
  { v with st := .running, index := index, steps := 0, readyAt := ready, outcomes := [], rep := none, access := 0,
           grant := 0, addrAdd := 0, blocked := false, asked := none }

/-- FORK (R85). -/
def execFork (h : Hdr) (s : State) : Host.Outcome State Fault Refusal :=
  let w := s.curW
  issue w (allHdr w h) 1 (fun o => do
    let k ← getCore o
    let running := [Walker.V, .M, .X, .G, .F].any (fun w => (k.w w).st = .running)
    if w ≠ .C || running then trapNow .rsvd 0 0
    else do
      need (k.wC.pend = 0)
      modify (fun s => (s.begin o).later o.core 2 (.scalarResultLands o (.x 0) 0))
      modifyCore o (fun k =>
        let i := k.wC.index + 1
        let t := k.time + 2
        { k with retStack := []
                 wC := { k.wC.advance (k.time + 1) with steps := 0, outcomes := [] }
                 wV := k.wV.fork i t, wM := k.wM.fork i t, wX := k.wX.fork i t
                 wG := k.wG.fork i t, wF := k.wF.fork i t })
      return .own) s

/-- The control walker's word as an origin, when it has arrived at an RDV or SSB. -/
def State.arrivedOrigin (s : State) (c : Nat) : Origin :=
  let k := s.core c
  k.origin c .C (fPost (s.textWord c k.wC.index))

/-- The rendezvous releases once every started walker has arrived: the control walker runs again 2 cycles later and
the others become idle (R86). -/
def State.release (s : State) (c : Nat) : State :=
  let k := s.core c
  if k.wC.st = .rendezvous && [Walker.V, .M, .X, .G, .F].all (fun w => (k.w w).st ≠ .running) then
    let o := s.arrivedOrigin c
    let idle := fun v : WalkerSt => if v.st = .rendezvous then { v with st := .idle } else v
    ((s.modCore c (fun k => { k with
      wC := { k.wC.advance (k.time + 2) with st := .running }
      wV := idle k.wV, wM := idle k.wM, wX := idle k.wX, wG := idle k.wG, wF := idle k.wF })).begin o).later c 2
        (.scalarResultLands o (.x 0) 0)
  else s

/-- RDV: the walker arrives and issues nothing past it (R86). -/
def execRdv (h : Hdr) (s : State) : Host.Outcome State Fault Refusal :=
  let w := s.curW
  issue w (allHdr w h) 1 (fun o => do
    modify (fun s => (s.modW o.core w (fun v => { v with st := .rendezvous })).release o.core)
    return .own) s

/-- A table of the exchange phase that raises RSVD at the SSB (R304), read at the gang's table address. -/
def State.exchangeBad (s : State) (c : Nat) : Bool :=
  let k := s.core c
  match s.gang k.gang with
  | none => false
  | some g =>
    let a := ((Tbl.find s.launches g.launch).map (fun l => l.rcb.exch)).getD 0
    if a = 0 then false
    else
      let tag := s.ownTag c
      let rd := fun (x n : Nat) => match s.vaultRuns k.vf x n with
        | some rs => rs.flatMap (fun r => s.read tag r.key r.len)
        | none => zeros n
      let hdr := rd a 8
      let n := field hdr 0 2
      let slots := rd (a + 8) (8 * n)
      field hdr 6 2 ≠ 0 || 1024 < n || (List.range n).any (fun i =>
        field slots (8 * i + 6) 2 ≠ 0 || g.cores.length ≤ field slots (8 * i + 2) 1
        || g.cores.length ≤ field slots (8 * i + 3) 1)

/-- SSB: the walker arrives at the barrier (R87); a bad exchange table raises RSVD here (R304). -/
def execSsb (h : Hdr) (s : State) : Host.Outcome State Fault Refusal :=
  let w := s.curW
  issue w (allHdr w h) 1 (fun o => do
    demand (!((← get).exchangeBad o.core)) .rsvd 0
    modify (fun s => s.modW o.core w (fun v => { v with st := .barrier }))
    return .own) s

end Sys2Proof.Machine
end

