-- ==== Sys2Proof/Machine/Crypto.lean ====
section
/-! DEFINITION. The standards the spec names: AES-256, AES-CMAC, AES key unwrap (R329, R333, R334) and SHA-512 (R332,
R340), each from its standard (PRESUMED, log entry 9). -/

namespace Sys2Proof.Machine

/-! ## AES-256 (FIPS 197) -/

/-- Doubling in the field of AES. -/
def xtime (x : Byte) : Byte := (x <<< 1) ^^^ (if x.getLsbD 7 then 0x1B else 0)

/-- A product in the field of AES, over the low n bits of y. -/
def gmulFrom (x : Byte) (y : Byte) : Nat → Byte
  | 0 => 0
  | n + 1 => xtime (gmulFrom x y n) ^^^ (if y.getLsbD (7 - n) then x else 0)

def gmul (x y : Byte) : Byte := gmulFrom x y 8

/-- x to the 254th: the inverse, and 0 of 0. -/
def ginv (x : Byte) : Byte :=
  let x2 := gmul x x
  let x4 := gmul x2 x2
  let x8 := gmul x4 x4
  let x16 := gmul x8 x8
  let x32 := gmul x16 x16
  let x64 := gmul x32 x32
  let x128 := gmul x64 x64
  gmul x128 (gmul x64 (gmul x32 (gmul x16 (gmul x8 (gmul x4 x2)))))

def subByte (x : Byte) : Byte :=
  let i := ginv x
  i ^^^ i.rotateLeft 1 ^^^ i.rotateLeft 2 ^^^ i.rotateLeft 3 ^^^ i.rotateLeft 4 ^^^ 0x63

def invSubByte (y : Byte) : Byte :=
  ginv (y.rotateLeft 1 ^^^ y.rotateLeft 3 ^^^ y.rotateLeft 6 ^^^ 0x05)

def xorBytes (a b : List Byte) : List Byte := List.zipWith (· ^^^ ·) a b

/-- The key schedule: n further words of 4 bytes after those given. -/
def expandKey : Nat → List (List Byte) → List (List Byte)
  | 0, w => w
  | n + 1, w =>
    let i := w.length
    let t := w.getD (i - 1) []
    let u := if i % 8 = 0 then
        let r := (t.drop 1 ++ t.take 1).map subByte
        let c := (List.range (i / 8 - 1)).foldl (fun (a : Byte) _ => xtime a) 1
        xorBytes r [c, 0, 0, 0]
      else if i % 8 = 4 then t.map subByte else t
    expandKey n (w ++ [xorBytes (w.getD (i - 8) []) u])

/-- The fifteen round keys of a 32-byte key. -/
def roundKeys (key : List Byte) : List (List Byte) :=
  let w := expandKey 52 ((List.range 8).map (fun i => (key.drop (4 * i)).take 4))
  (List.range 15).map (fun r => ((w.drop (4 * r)).take 4).flatten)

def byteAt (b : List Byte) (i : Nat) : Byte := b.getD i 0

def shiftRows (b : List Byte) : List Byte :=
  (List.range 16).map (fun i => byteAt b ((i + 4 * (i % 4)) % 16))

def invShiftRows (b : List Byte) : List Byte :=
  (List.range 16).map (fun i => byteAt b ((i + 16 - 4 * (i % 4)) % 16))

/-- A column map given by the first row of its circulant matrix. -/
def mixWith (m : List Byte) (b : List Byte) : List Byte :=
  (List.range 16).map (fun i =>
    (List.range 4).foldl (fun (a : Byte) j => a ^^^ gmul (byteAt m ((j + 4 - i % 4) % 4)) (byteAt b (4 * (i / 4) + j))) 0)

def mixColumns (b : List Byte) : List Byte := mixWith [2, 3, 1, 1] b
def invMixColumns (b : List Byte) : List Byte := mixWith [14, 11, 13, 9] b

/-- AES-256 of a 16-byte block. -/
def aes (key block : List Byte) : List Byte :=
  let ks := roundKeys key
  let k := fun i => ks.getD i []
  let mid := (List.range 13).foldl (fun b r => xorBytes (mixColumns (shiftRows (b.map subByte))) (k (r + 1)))
    (xorBytes block (k 0))
  xorBytes (shiftRows (mid.map subByte)) (k 14)

/-- The inverse cipher. -/
def aesInv (key block : List Byte) : List Byte :=
  let ks := roundKeys key
  let k := fun i => ks.getD i []
  let mid := (List.range 13).foldl (fun b r =>
    invMixColumns (xorBytes ((invShiftRows b).map invSubByte) (k (13 - r)))) (xorBytes block (k 14))
  xorBytes ((invShiftRows mid).map invSubByte) (k 0)

/-! ## CMAC (SP 800-38B) -/

/-- A block as a 128-bit number, most significant byte first, doubled in the field of CMAC. -/
def cmacDouble (b : List Byte) : List Byte :=
  let n := leNat b.reverse
  let d := (2 * n) % 2 ^ 128
  (leBytes 16 (if 2 ^ 127 ≤ n then d ^^^ 0x87 else d)).reverse

/-- CMAC of whole blocks, the last under a subkey. -/
def cmacBlocks (key sub : List Byte) : List (List Byte) → List Byte → List Byte
  | [], x => x
  | [b], x => aes key (xorBytes (xorBytes b sub) x)
  | b :: bs, x => cmacBlocks key sub bs (aes key (xorBytes b x))

/-- AES-CMAC of a message. -/
def cmac (key msg : List Byte) : List Byte :=
  let k1 := cmacDouble (aes key (zeros 16))
  let n := msg.length / 16
  let whole := (List.range n).map (fun i => (msg.drop (16 * i)).take 16)
  if msg.length % 16 = 0 ∧ 0 < n then cmacBlocks key k1 whole (zeros 16)
  else cmacBlocks key (cmacDouble k1) (whole ++ [(msg.drop (16 * n) ++ [0x80] ++ zeros 15).take 16]) (zeros 16)

/-! ## Lines of encrypted tensors (R333 to R335) -/

/-- The input block P(n, j) with its last byte. -/
def padInput (t : BitVec 12) (v : BitVec 32) (n j last : Nat) : List Byte :=
  leBytes 2 t.toNat ++ leBytes 4 v.toNat ++ leBytes 8 n ++ [BitVec.ofNat 8 j, BitVec.ofNat 8 last]

/-- A line in counter mode: encryption and decryption alike. -/
def cryptLine (key : List Byte) (t : BitVec 12) (v : BitVec 32) (n : Nat) (line : List Byte) : List Byte :=
  xorBytes line ((List.range 4).flatMap (fun j => aes key (padInput t v n j 0)))

/-- A key derived from two blocks: AES-256(K, Di) followed by AES-256(K, Dj). -/
def derivedKey (key : List Byte) (i j : Byte) : List Byte := aes key (zeros 15 ++ [i]) ++ aes key (zeros 15 ++ [j])

/-- The MAC key. -/
def macKey (key : List Byte) : List Byte := derivedKey key 2 3

/-- The 8-byte MAC of a line's ciphertext. -/
def lineMac (key : List Byte) (t : BitVec 12) (v : BitVec 32) (n : Nat) (cipher : List Byte) : List Byte :=
  (cmac (macKey key) (padInput t v n 0 1 ++ cipher)).take 8

/-- The seal of a contribution's line (R384), over the group digest, the sequence number, KGEN, the sender's index, the
line's index and its bytes. -/
def sealOf (key digest : List Byte) (seq kgen index line : Nat) (data : List Byte) : List Byte :=
  (cmac (derivedKey key 6 7) (digest.take 8 ++ leBytes 4 seq ++ leBytes 1 kgen ++ leBytes 2 index ++ leBytes 4 line ++ data)).take 8

/-! ## Key unwrap (RFC 3394) -/

/-- One step of the unwrap: A and the registers R[1..4] after step t. -/
def unwrapStep (kek : List Byte) (st : List Byte × List (List Byte)) (t : Nat) : List Byte × List (List Byte) :=
  let i := (t - 1) % 4
  let b := aesInv kek (xorBytes st.1 (leBytes 8 t).reverse ++ st.2.getD i [])
  (b.take 8, st.2.set i (b.drop 8))

/-- The 32-byte key wrapped in 40 bytes, or none when the integrity check fails. -/
def keyUnwrap (kek wrapped : List Byte) : Option (List Byte) :=
  let r := (List.range 24).foldl (fun st k => unwrapStep kek st (24 - k))
    (wrapped.take 8, (List.range 4).map (fun i => (wrapped.drop (8 + 8 * i)).take 8))
  if r.1 = List.replicate 8 0xA6 then some r.2.flatten else none

/-! ## SHA-512 (FIPS 180-4) -/

/-- The greatest r with r ^ k ≤ x, bit by bit from n bits down. -/
def rootFrom (k x : Nat) : Nat → Nat → Nat
  | 0, r => r
  | n + 1, r => rootFrom k x n (if (r + 2 ^ n) ^ k ≤ x then r + 2 ^ n else r)

/-- The first n primes from a candidate on. -/
def primesFrom : Nat → Nat → List Nat
  | 0, _ => []
  | fuel + 1, p =>
    if (List.range p).all (fun d => d < 2 || p % d ≠ 0) then p :: primesFrom fuel (p + 1) else primesFrom fuel (p + 1)

/-- The first 64 bits of the fraction of a prime's k-th root. -/
def rootBits (k p : Nat) : Word := BitVec.ofNat 64 (rootFrom k (p * 2 ^ (64 * k)) 72 0)

/-- The 80 round constants. -/
def shaK : List Word := (primesFrom 408 2).map (rootBits 3)

/-- The message schedule, extended by n words. -/
def shaSchedule : Nat → List Word → List Word
  | 0, w => w
  | n + 1, w =>
    let t := w.length
    let at? := fun i => w.getD (t - i) 0
    let s0 := (at? 15).rotateRight 1 ^^^ (at? 15).rotateRight 8 ^^^ (at? 15) >>> 7
    let s1 := (at? 2).rotateRight 19 ^^^ (at? 2).rotateRight 61 ^^^ (at? 2) >>> 6
    shaSchedule n (w ++ [s1 + at? 7 + s0 + at? 16])

/-- One round on the eight working words. -/
def shaRound (h : List Word) (kw : Word × Word) : List Word :=
  match h with
  | [a, b, c, d, e, f, g, x] =>
    let s1 := e.rotateRight 14 ^^^ e.rotateRight 18 ^^^ e.rotateRight 41
    let s0 := a.rotateRight 28 ^^^ a.rotateRight 34 ^^^ a.rotateRight 39
    let t1 := x + s1 + ((e &&& f) ^^^ (~~~e &&& g)) + kw.1 + kw.2
    let t2 := s0 + ((a &&& b) ^^^ (a &&& c) ^^^ (b &&& c))
    [t1 + t2, a, b, c, d + t1, e, f, g]
  | l => l

/-- A big-endian word. -/
def beWord (bs : List Byte) : Word := BitVec.ofNat 64 (leNat bs.reverse)

def shaBlock (k : List Word) (h : List Word) (blk : List Byte) : List Word :=
  let w := shaSchedule 64 ((List.range 16).map (fun i => beWord ((blk.drop (8 * i)).take 8)))
  List.zipWith (· + ·) h ((k.zip w).foldl shaRound h)

/-- SHA-512, its digest most significant byte first. -/
def sha512 (msg : List Byte) : List Byte :=
  let p := msg ++ [0x80] ++ zeros ((239 - msg.length % 128) % 128) ++ (leBytes 16 (8 * msg.length)).reverse
  let k := shaK
  let h := (List.range (p.length / 128)).foldl (fun h i => shaBlock k h ((p.drop (128 * i)).take 128))
    ((primesFrom 19 2).map (rootBits 2))
  h.flatMap (fun w => (leBytes 8 w.toNat).reverse)

end Sys2Proof.Machine
end

