-- ==== Sys2Proof/Machine/MemOrder.lean ====
section
/-! DEFINITION. The control walker's memory operations: loads and stores and their queues, acquires, releases, MARK
and FENCE, atomics and tickets (R69, R70, R215 to R224, R245 to R254), and the management window (R323). -/

namespace Sys2Proof.Machine

/-! ## The management window (R323, R341) -/

/-- Keys of the management window. -/
def keyWindow (a : Nat) : Nat := 2 ^ 57 + a

def vfStateCode : VfState → Nat
  | .running => 0 | .stopping => 1 | .stopped => 2

/-- Frozen gangs of a VF. -/
def State.frozenGangs (s : State) (v : Nat) : Nat :=
  (s.gangs.filter (fun g => g.2.vf.toNat = v && g.2.frozen.isSome)).length

/-- A counter of a VF record: exact for Proof, the held sample for Press (R331, R341). -/
def State.windowCounter (s : State) (press : Bool) (v i : Nat) : Nat :=
  let f := s.vf v
  if press then Tbl.get f.coarse i 0
  else if i = 0 then s.frozenGangs v else if i = 1 then f.stops else if i = 2 then f.staledrop else f.voiddrop

/-- A set of generation values as 32 bytes. -/
def genSet (l : List Nat) : Nat := l.eraseDups.foldl (fun a k => a + 2 ^ (k % 256)) 0

/-- A word of a core's status block (R28, R167): the loss counters of its banks, to Proof exact and to Press coarsened and
sampled (R341), then VSTAT. -/
def State.coreStatus (s : State) (press : Bool) (c w : Nat) : Nat :=
  if w < 32 then (if press then (Tbl.get s.coarseBanks c []).getD w 0 else Tbl.get (s.core c).bankLoss w 0)
  else if w = 32 then (s.core c).vstat.toNat else 0

/-- The traffic of a VF, or its power: to Proof exact, to Press coarsened and sampled (R341). -/
def State.telemetryOf (s : State) (press : Bool) (v i : Nat) : Nat :=
  if press then Tbl.get (s.vf v).coarse (4 + i) 0
  else let t := Config.telemetry v s.now; if i = 0 then t.1 else t.2

/-- The 8-byte word of the window that holds an address. -/
def State.windowWord (s : State) (press : Bool) (a : Nat) : Nat :=
  let a := a - a % 8
  if 0x10000 ≤ a ∧ a < 0x11000 then
    let v := (a - 0x10000) / 64
    let f := s.vf v
    match a % 64 with
    | 0 => f.gen.toNat + vfStateCode f.status * 2 ^ 8 + s.windowCounter press v 0 % 256 * 2 ^ 16
    | 8 => s.windowCounter press v 1
    | 16 => s.windowCounter press v 2
    | 24 => s.windowCounter press v 3
    | _ => 0
  else if 0x20000 ≤ a ∧ a < 0x21000 then
    let f := s.vf ((a - 0x20000) / 64)
    (genSet (if a % 64 < 32 then f.pend else f.old)) / 2 ^ (8 * (a % 32)) % 2 ^ 64
  else if a = 0x30000 then s.laps
  else match Config.coreStatusAt a, Config.telemetryAt a with
    | some (c, w), _ => s.coreStatus press c w
    | none, some (v, i) => s.telemetryOf press v i
    | none, none => 0

/-- The bytes a load reads at a key. -/
def State.loadBytes (s : State) (c key n : Nat) : List Byte :=
  if 2 ^ 57 ≤ key then
    let a := key - 2 ^ 57
    leBytes n (s.windowWord ((s.core c).ctx = .press) a / 2 ^ (8 * (a % 8)))
  else s.readClean (s.ownTag c) key n

/-- Where a load or store leads (R70): register space, the local vault, or in a firmware context its window and its
management memory (R323, R324). -/
def memPlace (s : State) (c : Nat) (rs store : Bool) (ea n : Nat) : Option Nat :=
  if ea % n ≠ 0 then none
  else if rs then (if ea + n ≤ 0x40000 then some (keyRS c ea) else none)
  else match (s.core c).ctx with
    | .tenant => s.localKey c ea n
    | ctx =>
      if ea < 0x80000 then (if store then none else some (keyWindow ea))
      else if ea + n ≤ 0x100000 then some (keyMgmt (if ctx = .proof then 0 else 1) (ea - 0x80000)) else none

/-- Result latency of an access at a key (R34). -/
def memLatency (key : Nat) : Nat := if isRS key then 3 else 12

/-! ## Releases (R221) -/

/-- The age of a VST to the vault, a VLD from it, a FIL into register space, a drain or another long-latency producer that has
not landed. Results of other vector words are no accesses of R217 and hold no release. -/
def pendingAge : Instr → Option Nat
  | .vectorResultLands o key _ _ => if isVault key || (isRS key && o.walker = .C) then some o.age else none
  | .longLatencyWriteComplete o _ _ => some o.age
  | _ => none

/-- Whether a galley's write ranges lie in the core's own register space or local vault. -/
def ownWrites (c : Nat) (g : Galley) : Bool :=
  g.writes.any (fun r => (isRS r.key && rsCore r.key = c) || (isVault r.key && r.key / 2 ^ 27 = c))

/-- Whether a galley has bytes still to read: its operations precede a release at every scope until their values are fixed (R217,
R221, R226). -/
def Galley.reading (g : Galley) : Bool :=
  match g.job with
  | .fill _ => false
  | .pref _ _ _ _ | .gxch | .coll _ _ _ => true
  | _ => !(g.started && g.plan.isEmpty)

/-- The galleys that a release of a core at a scope waits for (R221), those of the fabric walker at .TEN and wider
(R227, R228): at .CORE those that write to the core's bytes or have not done reading. -/
def State.galleysHold (s : State) (c gang age : Nat) (sc : Scope) (self : Option Nat) : Bool :=
  s.galleys.any (fun e => e.2.core = c && e.2.gang = gang && e.2.o.age < age && some e.1 ≠ self
    && (ownWrites c e.2 || (match sc with
      | .core => e.2.reading
      | .chip => e.2.o.walker ≠ .F
      | _ => true)))

/-- The word whose atomic or pull an operation is. -/
def FabOp.word (f : FabOp) : Option Origin :=
  match f.what with
  | .atom o _ => some o
  | .pull o _ => some o
  | _ => none

/-- The fabric atomics and pulls that a release waits for, at .TEN and wider (R221, R228, R369). -/
def State.opsHold (s : State) (c gang age : Nat) (sc : Scope) : Bool :=
  sc ≠ .core && sc ≠ .chip && s.ops.any (fun e => e.2.core = c && e.2.gang = gang
    && e.2.word.any (fun o => o.age < age))

/-- The streaming lines a release waits for: of the pool at .TEN and wider, of the host at .SYS (R221, R233). -/
def State.linesHold (s : State) (c age : Nat) (sc : Scope) : Bool :=
  s.coalescer.any (fun e => e.2.owners.any (fun w => w.1 = c && w.2.1 < age) &&
    (match sc with
      | .core | .chip => false
      | .ten | .dom => !e.2.host
      | .sys => true))

/-- Whether a GLOAD or GBIAS older than an age has still to read its tensor (R217). -/
def Core.arrayReads (k : Core) (age : Nat) : Bool :=
  (match k.gibbs.word with
    | some (.load _ _) | some (.bias _ _) => true
    | _ => false) && k.agenda.any (fun e => match e.2 with
    | .vectorResultLands o key _ _ => 2 ^ 61 ≤ key && o.age < age
    | _ => false)

/-- Whether every operation that precedes an age in a core's order has performed at a scope (R221); `k` is the core as
it stands or is saved, and `self` a galley that is itself the release. -/
def State.relHoldsAt (s : State) (k : Core) (c age : Nat) (sc : Scope) (self : Option Nat) : Bool :=
  !(k.lq.any (fun e => e.o.age < age)) && !(k.sq.any (fun e => e.o.age < age))
  && !(k.agenda.any (fun e => match pendingAge e.2 with
      | some a => a < age
      | none => false))
  && (match k.nest with
      | some n => age ≤ n.o.age
      | none => true)
  && !(k.arrayReads age) && !(k.matq.any (fun e => e.o.age < age)) && !(k.moves.any (fun a => a < age))
  && !(s.galleysHold c k.gang age sc self) && !(s.opsHold c k.gang age sc) && !(s.linesHold c age sc)

/-- As `relHoldsAt`, of the core where it stands. -/
def State.relHolds (s : State) (c age : Nat) (sc : Scope) (self : Option Nat) : Bool :=
  s.relHoldsAt (s.core c) c age sc self

/-! ## The queues (R216) -/

/-- An entry joins the load queue; the queue's head is tried in the same cycle. -/
def State.pushL (s : State) (c : Nat) (e : QOp) : State :=
  let t := s.modCore c (fun k => { k with lq := k.lq ++ [e] })
  if (s.core c).lq.isEmpty then t.later c 0 (.loadPerforms c) else t

/-- An entry joins the store queue. -/
def State.pushS (s : State) (c : Nat) (e : QOp) : State :=
  let t := s.modCore c (fun k => { k with sq := k.sq ++ [e] })
  if (s.core c).sq.isEmpty then t.later c 0 (.storePerforms c) else t

/-- The entry at a queue's head leaves it, or is replaced. -/
def setHead (e : Option QOp) : List QOp → List QOp
  | [] => []
  | _ :: l => match e with
    | some x => x :: l
    | none => l

/-- The queue's head is tried again after d cycles, while the queue holds anything. -/
def State.againL (s : State) (c d : Nat) : State := if (s.core c).lq.isEmpty then s else s.later c d (.loadPerforms c)
def State.againS (s : State) (c d : Nat) : State := if (s.core c).sq.isEmpty then s else s.later c d (.storePerforms c)

/-- The bytes a store-queue entry will write: key and length. -/
def QOp.bytes (e : QOp) : Option (Nat × Nat) :=
  match e.op with
  | .store n key _ _ => some (key, n)
  | .atom req _ _ => some (req.key, if req.dbl then 8 else 4)
  | _ => none

/-- Whether two runs share an 8-byte granule. -/
def shareGranule (k n k' n' : Nat) : Bool := k / 8 ≤ (k' + n' - 1) / 8 && k' / 8 ≤ (k + n - 1) / 8

/-- What a load at the head finds in the older store-queue entries (R216): it must wait, it takes its bytes from a
store, or it reads memory. -/
inductive Forward
  | wait
  | from? (bytes : List Byte)
  | memory

def forward (sq : List QOp) (age key n : Nat) : Forward :=
  match sq.filter (fun e => e.o.age < age && (match e.bytes with
    | some (k, m) => shareGranule key n k m
    | none => false)) with
  | [] => .memory
  | [e] => match e.op with
    | .store m k v _ => if k ≤ key && key + n ≤ k + m then
        .from? (((leBytes 8 v.toNat).drop (key - k)).take n) else .wait
    | _ => .wait
  | _ => .wait

/-- Entries of the load queue: a read acquire has left it (R216). -/
def Core.loads (k : Core) : Nat := (k.lq.filter (fun e => e.op ≠ .away)).length

/-- Whether an entry has left the store queue for its target and is not complete (R251, R254). -/
def QOp.left (e : QOp) : Bool :=
  match e.op with
  | .atom _ _ _ | .tktake _ _ | .tknext _ _ => e.ready.isSome
  | .advanced => true
  | _ => false

/-- Entries of the store queue. -/
def Core.stores (k : Core) : Nat := (k.sq.filter (fun e => !e.left)).length

/-- Whether the bytes of an access are full and outside every write footprint (R23, R24, R212); an address that leads
nowhere waits for nothing. -/
def State.accessFree (s : State) (c : Nat) (place : Option Nat) (n : Nat) : Bool :=
  match place with
  | some key => (!isRS key || s.full c (rsOff key) n) && !(s.hits c key n)
  | none => true

/-- LD, and LDA with its scope (R70, R245): every stall comes before the traps (R50). -/
def loadBody (o : Origin) (size : BitVec 2) (sx rs : Bool) (d : Name) (ea : Word) (acq : Option Scope) : Op Flow := do
  let s ← get
  let k ← getCore o
  let n := 2 ^ size.toNat
  let place := memPlace s o.core rs false ea.toNat n
  need (k.loads < 16)
  destReady o d
  need (s.accessFree o.core place n)
  (match acq with
    | some sc => demandScope o sc
    | none => pure ())
  match place with
  | none => trapNow .addr 0 ea.toNat
  | some key =>
    reserve o d
    modify (fun t => (t.begin o).pushL o.core ⟨o, .load n sx key d acq.isSome, none⟩)
    return .seq

/-- The stepped effective address of a load or store (R53). -/
def stepped (o : Origin) (a : Word) : Op Word := do
  let k ← getCore o
  return a + BitVec.ofInt 64 (k.w o.walker).addrAdd

def execLd (h : Hdr) (size : BitVec 2) (sx rs : Bool) (d a b : Name) (s : State) :
    Host.Outcome State Fault Refusal :=
  issue .C h 1 (fun o => do
    let x ← src o a
    let y ← src o b
    loadBody o size sx rs d (← stepped o (x + y)) none) s

def execLda (h : Hdr) (size : BitVec 2) (sx rs : Bool) (sc : Scope) (d a : Name) (s : State) :
    Host.Outcome State Fault Refusal :=
  issue .C h 1 (fun o => do
    let x ← src o a
    loadBody o size sx rs d (← stepped o x) (some sc)) s

/-- ST, and STL with its scope (R70, R245). -/
def storeBody (o : Origin) (size : BitVec 2) (rs : Bool) (v ea : Word) (rel : Option Scope) : Op Flow := do
  let s ← get
  let k ← getCore o
  let n := 2 ^ size.toNat
  let place := memPlace s o.core rs true ea.toNat n
  need (k.stores < 16)
  need (s.accessFree o.core place n)
  (match rel with
    | some sc => demandScope o sc
    | none => pure ())
  match place with
  | none => trapNow .addr 0 ea.toNat
  | some key =>
    demand (!(rs && k.inText ea.toNat n)) .addr ea.toNat
    modify (fun t => (t.begin o).pushS o.core
      ⟨o, .store n key v rel, if rel.isNone then some (k.time + memLatency key) else none⟩)
    return .seq

def execSt (h : Hdr) (size : BitVec 2) (rs : Bool) (d a b : Name) (s : State) : Host.Outcome State Fault Refusal :=
  issue .C h 1 (fun o => do
    let v ← src o d
    let x ← src o a
    let y ← src o b
    storeBody o size rs v (← stepped o (x + y)) none) s

def execStl (h : Hdr) (size : BitVec 2) (rs : Bool) (sc : Scope) (d a : Name) (s : State) :
    Host.Outcome State Fault Refusal :=
  issue .C h 1 (fun o => do
    let v ← src o d
    let x ← src o a
    storeBody o size rs v (← stepped o x) (some sc)) s

/-- MARK enters both queues (R246). -/
def execMark (h : Hdr) (s : State) : Host.Outcome State Fault Refusal :=
  issue .C h 1 (fun o => do
    let k ← getCore o
    need (k.loads < 16 && k.stores < 16)
    modify (fun t => ((t.begin o).pushS o.core ⟨o, .mark, none⟩).pushL o.core ⟨o, .mark, none⟩)
    return .seq) s

/-- FENCE: no later word issues until it completes, 2 cycles after issue at the earliest (R222, R247). -/
def execFence (h : Hdr) (sc : Scope) (s : State) : Host.Outcome State Fault Refusal :=
  issue .C h 1 (fun o => do
    demandScope o sc
    modify (fun t => ((t.begin o).modW o.core .C (fun v => { v with blocked := true })).later o.core 2
      (.releaseTakesEffect o sc o.age .fence))
    return .seq) s

/-! ## Dispensers (R252 to R254)

A firmware context reaches none: its TKTAKE returns 0, its TKNEXT advances nothing, and its TKWAIT reads 0 (R331). -/

def dispenserKey (v : BitVec 6) (n : Byte) : Nat := v.toNat * 256 + n.toNat

/-- A dispenser as a context sees it: 0 and 0 under a stale tag. -/
def State.dispenser (s : State) (t : Tag) (n : Byte) : Dispenser :=
  let d := Tbl.get s.dispensers (dispenserKey t.vf n) ⟨voidTag, 0, 0, 0, 0⟩
  if tagOk t d.tag then d else ⟨voidTag, 0, 0, 0, 0⟩

/-- The dispenser, retagged by its first write under a tag with that core's quarter as its home. -/
def State.ownDispenser (s : State) (c : Nat) (t : Tag) (n : Byte) : Dispenser :=
  let d := s.dispenser t n
  if d.tag = t then d else ⟨t, 0, 0, quarter c, 0⟩

def State.setDispenser (s : State) (n : Byte) (d : Dispenser) : State :=
  { s with dispensers := Tbl.put s.dispensers (dispenserKey d.tag.vf n) d }

/-- Ticket t is served by a now-serving value (R252). -/
def served (serving t : BitVec 32) : Bool := (serving - t).toNat < 2 ^ 31

/-- The now-serving value as a core sees it: at once in the home quarter, as broadcast elsewhere. -/
def State.nowServing (s : State) (c : Nat) (n : Byte) : BitVec 32 :=
  let d := s.dispenser (s.ownTag c) n
  if d.tag = voidTag || quarter c = d.home then d.serving else d.seen

def execTktake (h : Hdr) (d : Name) (n : BitVec 8) (s : State) : Host.Outcome State Fault Refusal :=
  issue .C h 1 (fun o => do
    let k ← getCore o
    need (k.stores < 16)
    reserve o d
    modify (fun t => (t.begin o).pushS o.core ⟨o, .tktake n d, none⟩)
    return .seq) s

def execTkwait (h : Hdr) (sc : Scope) (n : BitVec 8) (a : Name) (s : State) : Host.Outcome State Fault Refusal :=
  issue .C h 1 (fun o => do
    let t ← src o a
    let k ← getCore o
    need (k.loads < 16)
    demandScope o sc
    modify (fun s => ((s.begin o).modW o.core .C (fun v => { v with blocked := true })).pushL o.core
      ⟨o, .tkwait n (t.setWidth 32), none⟩)
    return .seq) s

def execTknext (h : Hdr) (sc : Scope) (n : BitVec 8) (s : State) : Host.Outcome State Fault Refusal :=
  issue .C h 1 (fun o => do
    let k ← getCore o
    need (k.stores < 16)
    demandScope o sc
    modify (fun t => (t.begin o).pushS o.core ⟨o, .tknext n sc, none⟩)
    return .seq) s

/-! ## Atomics (R248 to R251) -/

/-- Rows plus columns between two cores of a quarter (R415). -/
def hops (a b : Nat) : Nat :=
  let d := fun x y : Nat => if x < y then y - x else x - y
  d (a / 8 % 8) (b / 8 % 8) + d (a % 8) (b % 8)

/-- Line latency between a core and a vault (R198, R415). -/
def lineLatency (c v : Nat) : Nat :=
  if c = v then 12
  else if quarter c = quarter v then (2 * (390 + 30 * (hops c v - 1)) + 13) / 26
  else 110

/-- Result latency of an atomic (R251). -/
def atomLatency (c v : Nat) : Nat := if c = v then 14 else lineLatency c v + 4

/-- An atomic word (R248). -/
def atomWord (h : Hdr) (op : AtomOp) (dbl uns : Bool) (d a b : Name) (s : State) :
    Host.Outcome State Fault Refusal :=
  issue .C h 1 (fun o => do
    let e ← if op = .cas then src o d else pure 0
    let x ← src o a
    let v ← src o b
    let s ← get
    let k ← getCore o
    let n := if dbl then 8 else 4
    let place := if k.ctx = .tenant && x.toNat % n = 0 then s.vaultKey k.vf x.toNat else none
    need (k.stores < 16)
    destReady o d
    need (s.accessFree o.core place n)
    match place with
    | none => trapNow .addr 0 x.toNat
    | some key =>
      reserve o d
      modify (fun t => (t.begin o).pushS o.core
        ⟨o, .atom ⟨k.vf, s.gen k.vf, key, op, dbl, uns, v, e⟩ d (key / 2 ^ 27), none⟩)
      return .seq) s

def execAadd (h : Hdr) (dbl : Bool) (d a b : Name) (s : State) : Host.Outcome State Fault Refusal :=
  atomWord h .add dbl false d a b s
def execAmin (h : Hdr) (dbl uns : Bool) (d a b : Name) (s : State) : Host.Outcome State Fault Refusal :=
  atomWord h .min dbl uns d a b s
def execAmax (h : Hdr) (dbl uns : Bool) (d a b : Name) (s : State) : Host.Outcome State Fault Refusal :=
  atomWord h .max dbl uns d a b s
def execAand (h : Hdr) (dbl : Bool) (d a b : Name) (s : State) : Host.Outcome State Fault Refusal :=
  atomWord h .and dbl false d a b s
def execAor (h : Hdr) (dbl : Bool) (d a b : Name) (s : State) : Host.Outcome State Fault Refusal :=
  atomWord h .or dbl false d a b s
def execAxchg (h : Hdr) (dbl : Bool) (d a b : Name) (s : State) : Host.Outcome State Fault Refusal :=
  atomWord h .xchg dbl false d a b s
def execAcas (h : Hdr) (dbl : Bool) (d a b : Name) (s : State) : Host.Outcome State Fault Refusal :=
  atomWord h .cas dbl false d a b s

/-- The new value of an atomic (R249), on n-byte numbers. -/
def atomNew (op : AtomOp) (n : Nat) (uns : Bool) (old v exp : Nat) : Nat :=
  let lt := fun a b : Nat => if uns then decide (a < b) else decide (signedOf (8 * n) a < signedOf (8 * n) b)
  match op with
  | .add => (old + v) % 2 ^ (8 * n)
  | .min => if lt v old then v else old
  | .max => if lt old v then v else old
  | .and => old &&& v
  | .or => old ||| v
  | .xchg => v
  | .cas => if old = exp then v else old

/-- A write to the ACTION byte of a fault area that a kernel owns, performed while the area's gang is frozen by a
trap: the dispatcher acts (R321). -/
def State.noteAction (s : State) (key n : Nat) : State :=
  s.gangs.foldl (fun t e =>
    let g := e.2
    match g.frozen, s.vaultKey g.vf g.area with
    | some .trap, some k =>
      if !g.areaHost && key ≤ k && k < key + n then
        match field (t.read ⟨false, g.vf, s.gen g.vf⟩ k 1) 0 1 with
        | 1 => t.after 0 (.faultActionThaw g.vf g.area)
        | 2 => t.after 0 (.faultActionRestart g.vf g.area)
        | 3 => t.after 0 (.faultActionAbort g.vf g.area)
        | _ => t
      else t
    | _, _ => t) s

/-- An atomic on n bytes at a key under its tag: the state after it and the old value (R249). -/
def State.atomicAt (s : State) (req : AtomicReq) : State × Nat :=
  let n := if req.dbl then 8 else 4
  let tag : Tag := ⟨false, req.vf, req.gen⟩
  if s.gen req.vf ≠ req.gen then (s.staleDrop req.vf 1, 0)
  else if s.anyBad tag req.key n then (s.vaultError (markOf req.key), 0)
  else
    let old := leNat (s.read tag req.key n)
    let new := atomNew req.op n req.uns old (req.opnd.toNat % 2 ^ (8 * n)) (req.expected.toNat % 2 ^ (8 * n))
    ((s.writeUser tag req.key (leBytes n new)).noteAction req.key n, old)

/-- The store-queue entry of an origin has performed. -/
def State.popAway (s : State) (o : Origin) : State :=
  s.modCore o.core (fun k => { k with sq := k.sq.filter (fun e => e.o.age ≠ o.age) })

/-- Whether another core's event of the same moment goes first: a lower core at the same unit (R250, R253). -/
def State.lowerFirst (s : State) (p : Instr → Bool) : Bool := s.agenda.any (fun e => e.1 ≤ s.now && p e.2)

/-- An atomic acts at the target's write queue, and its old value returns in the remaining time (R249 to R251). -/
def execAtomicAtWriteQueue (o : Origin) (req : AtomicReq) (d : Name) (remaining : Nat) (s : State) :
    Host.Outcome State Fault Refusal :=
  if s.lowerFirst (fun i => match i with
      | .atomicAtWriteQueue o' r _ _ => o'.core < o.core && r.key / 64 = req.key / 64
      | _ => false) then
    .next (s.after 0 (.atomicAtWriteQueue o req d remaining))
  else
    let (t, old) := s.atomicAt req
    .next ((t.popAway o).later o.core remaining (.atomicResultLands o d (BitVec.ofNat 64 old)))

def execAtomicResultLands (o : Origin) (d : Name) (val : Word) (s : State) : Host.Outcome State Fault Refusal :=
  .next ((s.land o d val).finish o)

/-- Whether an event is an operation of a lower core on a dispenser (R253, R254). -/
def atDispenser (core : Nat) (vf : BitVec 6) (n : BitVec 8) (i : Instr) : Bool :=
  match i with
  | .tktakeAtDispenser o t m _ => o.core < core && t.vf = vf && m = n
  | .dispenserAdvance c t m => c < core && t.vf = vf && m = n
  | _ => false

/-- TKTAKE at its dispenser: NEXT is returned and incremented in one action; a stale one is discarded (R253, R254). -/
def execTktakeAtDispenser (o : Origin) (tag : Tag) (n : BitVec 8) (d : Name) (s : State) :
    Host.Outcome State Fault Refusal :=
  if s.lowerFirst (atDispenser o.core tag.vf n) then
    .next (s.after 0 (.tktakeAtDispenser o tag n d))
  else if !(s.tagCurrent tag) then
    .next (((s.staleDrop tag.vf 1).popAway o).later o.core 12 (.ticketLands o d 0))
  else if tag.fw then .next ((s.popAway o).later o.core 12 (.ticketLands o d 0))
  else
    let p := s.ownDispenser o.core tag n
    .next (((s.setDispenser n { p with next := p.next + 1 }).popAway o).later o.core 12
      (.ticketLands o d (p.next.setWidth 64)))

/-- The entry of a TKNEXT that has advanced its dispenser stays in the store queue until it has performed. -/
def State.advancedAt (s : State) (o : Origin) : State :=
  s.modCore o.core (fun k => { k with sq := k.sq.map (fun e => if e.o.age = o.age then { e with op := .advanced } else e) })

/-- A ticket lands in its destination. A TKNEXT that has advanced its dispenser is complete, and performs 4 uncore cycles later
(R217, R254). -/
def execTicketLands (o : Origin) (d : Name) (val : Word) (s : State) : Host.Outcome State Fault Refusal :=
  let op : Option MemOp := ((s.core o.core).sq.find? (fun e => e.o.age = o.age)).map (fun e => e.op)
  .next (match op with
    | some (.tknext _ _) => ((s.advancedAt o).finish o).later o.core (4 * uncore) (.ticketLands o d val)
    | some .advanced => s.popAway o
    | _ => ((s.popAway o).land o d val).finish o)

/-- The advance of a dispenser, after operations of lower cores on it in the same cycle, and its broadcast to the other
quarters 4 uncore cycles later (R253, R254). -/
def execDispenserAdvance (core : Nat) (tag : Tag) (n : BitVec 8) (s : State) : Host.Outcome State Fault Refusal :=
  if s.lowerFirst (atDispenser core tag.vf n) then .next (s.after 0 (.dispenserAdvance core tag n))
  else if tag.fw then .next s
  else if !(s.tagCurrent tag) then .next (s.staleDrop tag.vf 1)
  else
    let p := s.ownDispenser core tag n
    .next ((s.setDispenser n { p with serving := p.serving + 1 }).after 8
      (.nowServingBroadcast tag.vf n (p.serving + 1)))

/-- A now-serving value reaches the cores of the other quarters. -/
def execNowServingBroadcast (vf : BitVec 6) (n : BitVec 8) (val : BitVec 32) (s : State) :
    Host.Outcome State Fault Refusal :=
  .next { s with dispensers := (s.dispensers.map (fun e =>
    if e.1 = dispenserKey vf n then (e.1, { e.2 with seen := val }) else e)) }

/-- A sleeping TKWAIT completes: its walker goes on (R253). -/
def execTkwaitWake (o : Origin) (s : State) : Host.Outcome State Fault Refusal :=
  .next (((s.modCore o.core (fun k => { k with
    tickets := none, lq := k.lq.filter (fun e => !(e.op = .away && e.o.age = o.age)) })).unblock o).finish o)

/-! ## Performing -/

/-- A MARK at the head of both queues leaves them (R246). -/
def State.marksMeet (s : State) (c : Nat) : Option State :=
  match (s.core c).lq, (s.core c).sq with
  | a :: l, b :: q =>
    if a.op = .mark && b.op = .mark && a.o.age = b.o.age then
      some ((s.modCore c (fun k => { k with lq := l, sq := q })).finish a.o)
    else none
  | _, _ => none

/-- A release of the store queue, for which later acquires wait (R226). -/
def QOp.releases (e : QOp) : Bool :=
  match e.op with
  | .store _ _ _ rel => rel.isSome
  | .tknext _ _ | .advanced => true
  | _ => false

/-- A TKTAKE of a dispenser, for which later TKWAITs of it wait (note 2 of R226). -/
def QOp.takes (e : QOp) (n : Byte) : Bool :=
  match e.op with
  | .tktake m _ => m = n
  | _ => false

/-- The head of the load queue performs, if it can (R216, R217). An acquire waits for earlier releases of the store queue
(R226). -/
def execLoadPerforms (core : Nat) (s : State) : Host.Outcome State Fault Refusal :=
  let k := s.core core
  match k.lq with
  | [] => .next s
  | e :: _ =>
    let wait := s.later core 1 (.loadPerforms core)
    match e.op with
    | .mark => match s.marksMeet core with
      | some t => .next (t.againL core 0)
      | none => .next wait
    | .load n sx key d acq =>
      let fw := forward k.sq e.o.age key n
      let acquired := acq && k.sq.any (fun x => x.o.age < e.o.age && x.releases)
      let go := fun (t : State) (bs : List Byte) =>
        let v := if sx then sextWord (8 * n) (leNat bs) else BitVec.ofNat 64 (leNat bs)
        let t1 := t.modCore core (fun k => { k with
          lq := setHead (if acq then some { e with op := .away } else none) k.lq })
        Host.Outcome.next ((t1.later core (memLatency key) (.scalarResultLands e.o d v)).againL core (if acq then 1 else 0))
      if acquired then .next wait
      else match fw with
      | .wait => .next wait
      | .from? bs => go s bs
      | .memory =>
        if isRS key then
          if !(s.full core (rsOff key) n) then .next wait
          else
            let (won, t) := s.grant core e.o.age (banksOf (rsOff key) n)
            if won then go t (s.loadBytes core key n) else .next (t.later core 1 (.loadPerforms core))
        else go (s.noteBad (s.ownTag core) key n) (s.loadBytes core key n)
    | .tkwait n t =>
      if k.sq.any (fun x => x.o.age < e.o.age && (x.releases || x.takes n)) then .next wait
      else if served (s.nowServing core n) t then
        .next (((s.modCore core (fun k => { k with lq := setHead (some { e with op := .away }) k.lq })).later core
          (if e.ready.isSome then 2 else e.o.age / 8 + 8 - k.time) (.tkwaitWake e.o)).later core 1 (.loadPerforms core))
      else .next (wait.modCore core (fun k => { k with
        tickets := some (n, t), lq := setHead (some { e with ready := some 0 }) k.lq }))
    | _ => .next wait

/-- The head of the store queue performs, or leaves for its target, if it can (R216, R221, R251, R254): after the acquires
before it (R220), and after earlier loads of its granules (R226). -/
def execStorePerforms (core : Nat) (s : State) : Host.Outcome State Fault Refusal :=
  let k := s.core core
  match k.sq with
  | [] => .next s
  | e :: _ =>
    let wait := s.later core 1 (.storePerforms core)
    let acquired := !(k.lq.any (fun x => x.o.age < e.o.age && (match x.op with
      | .away => true
      | .load n _ key _ acq => acq || (match e.bytes with
        | some (q, m) => shareGranule key n q m
        | none => false)
      | .tkwait _ _ => true
      | _ => false)))
    let leave := fun (t : State) =>
      (t.modCore core (fun k => { k with sq := setHead (some { e with ready := some k.time }) k.sq })).later core 1
        (.storePerforms core)
    if !acquired then .next wait
    else match e.op with
    | .mark => match s.marksMeet core with
      | some t => .next (t.againS core 0)
      | none => .next wait
    | .store n key v rel =>
      match e.ready with
      | some r =>
        if r ≤ k.time then
          let bs := leBytes n v.toNat
          let t := if isRS key then s.writeFixed e.o key bs else (s.writeUser (s.ownTag core) key bs).noteAction key n
          .next (((t.modCore core (fun k => { k with sq := setHead none k.sq })).finish e.o).againS core 0)
        else .next wait
      | none =>
        if s.relHolds core e.o.age (rel.getD .core) none then
          .next (wait.modCore core (fun k => { k with
            sq := setHead (some { e with ready := some (k.time + memLatency key) }) k.sq }))
        else .next wait
    | .atom req d v =>
      let lat := atomLatency core v
      if e.ready.isSome then .next wait
      else .next ((leave s).after (lat / 2) (.atomicAtWriteQueue e.o req d (lat - lat / 2)))
    | .tktake n d =>
      if e.ready.isSome then .next wait
      else .next ((leave s).after 4 (.tktakeAtDispenser e.o (s.ownTag core) n d))
    | .tknext n sc =>
      if e.ready.isNone && s.relHolds core e.o.age sc none then
        .next (((leave s).after 4 (.dispenserAdvance core (s.ownTag core) n)).later core 4 (.ticketLands e.o (.x 0) 0))
      else .next wait
    | _ => .next wait

end Sys2Proof.Machine
end

