-- ==== Sys2Proof/Machine/Tensors.lean ====
section
/-! DEFINITION. The tensor table: entries, their checks, the units and extents they reach (R116 to R122), and TDEF and
TRD (R77 to R79). -/

namespace Sys2Proof.Machine

/-- A tensor entry's fields (R116). -/
structure Ent where
  base : Nat
  fmt : Nat
  flags : Nat
  sbase : Int
  version : Nat
  size : List Nat
  stride : List Nat
  scaleOff : Nat
  block : Nat
  cb : Nat
  keySlot : Nat
  gen : Nat
  vf : Nat
deriving DecidableEq, Repr

def entOf (b : List Byte) : Ent :=
  { base := field b 0 8, fmt := field b 8 1, flags := field b 9 1, sbase := fieldS b 10 2, version := field b 12 4,
    size := elems 4 4 ((b.drop 16).take 16), stride := elems 4 4 ((b.drop 32).take 16), scaleOff := field b 48 4,
    block := field b 52 1, cb := field b 53 1, keySlot := field b 54 1, gen := field b 55 1, vf := field b 56 2 }

def Ent.sz (e : Ent) (i : Nat) : Nat := e.size.getD i 1
def Ent.st (e : Ent) (i : Nat) : Nat := e.stride.getD i 0
def Ent.space (e : Ent) : Nat := e.flags % 4
def Ent.ro (e : Ent) : Bool := bitOf e.flags 2
def Ent.shared (e : Ent) : Bool := bitOf e.flags 3
def Ent.enc (e : Ent) : Bool := bitOf e.flags 4
def Ent.stream (e : Ent) : Bool := bitOf e.flags 5

/-- Bytes of a format's storage unit (R121). -/
def unitBytes (f : Nat) : Nat :=
  match f with
  | 1 | 6 => 4
  | 2 => 2
  | 7 => 8
  | 10 => 64
  | _ => 1

/-- Elements a unit holds (R121). -/
def perUnit (f : Nat) : Nat :=
  match f with
  | 8 | 9 => 2
  | 11 => 8
  | _ => 1

/-- The checks of R118 on a record whose format is not 0. -/
def tdefOk (b : List Byte) : Bool :=
  let e := entOf b
  let u := unitBytes e.fmt
  1 ≤ e.fmt && e.fmt ≤ 11
  && field b 58 6 = 0 && e.flags < 64 && e.space ≠ 3
  && (if e.space = 0 then e.base < 2 ^ 35 else e.base < 2 ^ 52) && e.base % u = 0
  && e.size.all (fun n => 1 ≤ n) && (!(e.fmt = 8 || e.fmt = 9) || e.sz 0 % 2 = 0)
  && e.stride.all (fun n => n % u = 0)
  && (e.fmt ≠ 10 || (e.sz 0 = 64 && e.sz 1 = 16 && e.st 0 = 0 && e.st 1 = 0))
  && (if e.fmt = 8 then e.block = 5 else e.block = 0 && e.scaleOff = 0 && e.sbase = 0)
  && (if e.fmt = 9 then e.cb < 8 else e.cb = 0)
  && (!e.enc || e.space = 1) && (e.enc || e.keySlot = 0)
  && (!e.stream || e.space = 1 || e.space = 2) && (!e.shared || e.ro)

/-- An entry's 64 bytes as they stand, its tag in bytes 55 to 57 (R116). -/
def State.tensorBytes (s : State) (v : BitVec 6) (t : BitVec 12) : List Byte :=
  memRead s.mem (keyTensor v.toNat t.toNat) 64

/-- Whether an entry names bytes for a core: neither void nor stale (R119). -/
def State.entryLive (s : State) (v : BitVec 6) (b : List Byte) : Bool :=
  let e := entOf b
  e.fmt ≠ 0 && e.gen ≠ 0 && e.gen = (s.gen v).toNat && e.vf = v.toNat

/-- The record as TDEF writes it: bytes 55 to 57 are the writer's tag (R77). -/
def tdefBytes (b : List Byte) (v : BitVec 6) (g : BitVec 8) : List Byte :=
  b.take 55 ++ [g] ++ leBytes 2 v.toNat ++ b.drop 58

/-- The offset of a record in register space named by an x register, which a REP may step (R53): aligned and within the space,
or ADDR; the record is waited for until it is full and clear of the range scoreboard (R77, R206, R212). -/
def recordAt (o : Origin) (card : Name) (align n : Nat) : Op Nat := do
  let a ← srcX o (xNum card)
  let k ← getCore o
  let off := (a.toNat : Int) + (k.w o.walker).addrAdd
  let s ← get
  if !(off % (align : Int) = 0 && 0 ≤ off && off + n ≤ 0x40000) then trapNow .addr 0 (off % 2 ^ 64).toNat
  else do
    need (s.full o.core off.toNat n && !(s.hits o.core (keyRS o.core off.toNat) n))
    return off.toNat

/-- Such a record, read. -/
def steppedRecord (o : Origin) (card : Name) (align n : Nat) : Op (List Byte) := do
  let p ← recordAt o card align n
  claimBanks o (banksOf p n)
  let s ← get
  return s.read (s.ownTag o.core) (keyRS o.core p) n

/-- TDEF (R77, R118): the entry is replaced whole 8 cycles after issue. In a firmware context it reaches no entry (R331). -/
def execTdef (h : Hdr) (card : Name) (t : BitVec 12) (s : State) : Host.Outcome State Fault Refusal :=
  issue .C h 1 (fun o => do
    need (!(← getCore o).acquiring)
    let b ← steppedRecord o card 64 64
    demand (field b 8 1 = 0 || tdefOk b) .rsvd 0
    let s ← get
    let k ← getCore o
    let v := k.vf
    if k.ctx ≠ .tenant then completeLater o 8
    else doneLater o 8 (.vectorResultLands o (keyTensor v.toNat t.toNat) (tdefBytes b v (s.gen v)) 0)) s

/-- Whether a TDEF of an entry by this core has not completed yet. -/
def Core.tdefPending (k : Core) (t : BitVec 12) : Bool :=
  k.agenda.any (fun e => match e.2 with
    | .vectorResultLands _ key _ _ => key = keyTensor k.vf.toNat t.toNat
    | _ => false)

/-- The value TRD reads from a field (R78). -/
def trdField (b : List Byte) (f : Nat) : Word :=
  let p := #[(0, 8), (8, 1), (9, 1), (10, 2), (12, 4), (16, 4), (20, 4), (24, 4), (28, 4), (32, 4), (36, 4), (40, 4),
    (44, 4), (48, 4), (52, 1), (53, 1), (54, 1), (55, 1), (56, 2)].getD f (0, 0)
  if f = 3 then sextWord 16 (field b p.1 p.2) else BitVec.ofNat 64 (field b p.1 p.2)

/-- TRD: a stale or void entry returns 0 (R78). It waits for the control walker's earlier TDEF of the entry (R79). -/
def execTrd (h : Hdr) (d : Name) (t : BitVec 12) (field : BitVec 5) (s : State) : Host.Outcome State Fault Refusal :=
  issue .C h 1 (fun o => do
    let s ← get
    let k ← getCore o
    need (!k.tdefPending t)
    let b := s.tensorBytes k.vf t
    resultLater o d 4 (if k.ctx = .tenant && s.entryLive k.vf b then trdField b field.toNat else 0)) s

/-! ## Units and extents (R121, R122) -/

/-- Offset from BASE of a unit (u, d1, d2, d3). -/
def Ent.unitOff (e : Ent) (u d1 d2 d3 : Nat) : Nat := u * e.st 0 + d1 * e.st 1 + d2 * e.st 2 + d3 * e.st 3

/-- Units along dimension 0. -/
def Ent.units (e : Ent) : Nat := ceilDiv (e.sz 0) (perUnit e.fmt)

/-- Blocks along dimension 1 of a Q4B scale plane, and the plane's bytes (R98). -/
def Ent.blocks (e : Ent) : Nat := ceilDiv (e.sz 1) 32
def Ent.scaleLen (e : Ent) : Nat := e.sz 3 * e.sz 2 * e.blocks * e.sz 0

/-- Byte of the scale plane for (d0, d1, d2, d3) (R98). -/
def Ent.scaleIdx (e : Ent) (d0 d1 d2 d3 : Nat) : Nat := ((d3 * e.sz 2 + d2) * e.blocks + d1 / 32) * e.sz 0 + d0

/-- One past the highest byte offset that sizes, strides and the scale plane reach. -/
def Ent.reachOf (e : Ent) (n3 : Nat) : Nat :=
  if e.fmt = 10 then e.unitOff 0 0 (e.sz 2 - 1) (n3 - 1) + 12288
  else max (e.unitOff (e.units - 1) (e.sz 1 - 1) (e.sz 2 - 1) (n3 - 1) + unitBytes e.fmt)
    (if e.fmt = 8 then e.scaleOff + e.scaleLen else 0)

def Ent.reach (e : Ent) : Nat := e.reachOf (e.sz 3)

/-- Runs of the tensor along the dimensions: offsets from BASE and lengths, dimension 0 gathered where it is dense. -/
def Ent.rows (e : Ent) : List (Nat × Nat) :=
  if e.fmt = 10 then
    (List.range (e.sz 3)).flatMap (fun d3 => (List.range (e.sz 2)).map (fun d2 => (e.unitOff 0 0 d2 d3, 12288)))
  else
    let u := unitBytes e.fmt
    (List.range (e.sz 3)).flatMap (fun d3 => (List.range (e.sz 2)).flatMap (fun d2 =>
      (List.range (e.sz 1)).flatMap (fun d1 =>
        if e.st 0 = u then [(e.unitOff 0 d1 d2 d3, u * e.units)]
        else (List.range e.units).map (fun i => (e.unitOff i d1 d2 d3, u)))))

/-- The bytes an entry's index space reaches, the scale plane included. -/
def Ent.runs (e : Ent) : List (Nat × Nat) := e.rows ++ (if e.fmt = 8 then [(e.scaleOff, e.scaleLen)] else [])

/-- Whether every byte of a vault tensor lies in the VF's vault map (R122). -/
def State.extentMapped (s : State) (v : BitVec 6) (e : Ent) : Bool :=
  e.runs.all (fun r => (s.vaultRuns v (e.base + r.1) r.2).isSome)

/-- Whether every byte lies in the core's local vault (R122). -/
def State.extentLocal (s : State) (c : Nat) (e : Ent) : Bool :=
  e.runs.all (fun r => (s.localKey c (e.base + r.1) r.2).isSome)

end Sys2Proof.Machine
end

