-- ==== Sys2Proof/Machine/Flags.lean ====
section
/-! DEFINITION. The status bits: VSTAT of the vector walker (R167) and the STATUS of an accumulator row (R106). -/

namespace Sys2Proof.Machine

def vInexact : BitVec 7 := 1
def vUnderflow : BitVec 7 := 2
def vOverflow : BitVec 7 := 4
def vDivzero : BitVec 7 := 8
def vInvalid : BitVec 7 := 16
def vSaturate : BitVec 7 := 32
def vLoaderr : BitVec 7 := 64

/-- A bit when its condition holds. -/
def flagIf {n : Nat} (b : Bool) (f : BitVec n) : BitVec n := if b then f else 0

/-- The bits of a list of results together. -/
def orFlags {n : Nat} (l : List (BitVec n)) : BitVec n := l.foldl (· ||| ·) 0

def stInexact : BitVec 16 := 1
def stOvf : BitVec 16 := 2
def stNan : BitVec 16 := 4
def stPinf : BitVec 16 := 8
def stNinf : BitVec 16 := 16
def stMerr : BitVec 16 := 32
def stHeadwarn : BitVec 16 := 64

end Sys2Proof.Machine
end

