-- ==== Sys2Proof/Machine/Numbers.lean ====
section
/-! DEFINITION. Numbers: exact values, the formats, the one rounding of R95 and R96, exact sums and products with
their classes, Q4B codes, and the special functions (R88 to R102, R107, R114, R115). -/

namespace Sys2Proof.Machine

/-- An exact value or class: NaN, an infinity, or (−1)^neg × m × 2^e; a zero keeps its sign (R91). -/
inductive Val
  | nan
  | inf (neg : Bool)
  | fin (neg : Bool) (m : Nat) (e : Int)
deriving DecidableEq, Repr

def Val.zero : Val := .fin false 0 0

/-- x × 2^n, rounded toward −∞. -/
def shiftInt (x : Int) (n : Int) : Int := if 0 ≤ n then x * (2 : Int) ^ n.toNat else x / (2 : Int) ^ (-n).toNat

/-- The value n × 2^e; zero is +0. -/
def Val.ofInt (n : Int) (e : Int) : Val := .fin (n < 0) n.natAbs e

/-- The signed significand of a finite value. -/
def Val.sig : Val → Int
  | .fin neg m _ => if neg then -(m : Int) else m
  | _ => 0

def Val.exp : Val → Int
  | .fin _ _ e => e
  | _ => 0

def Val.isNan : Val → Bool
  | .nan => true
  | _ => false

def Val.isFin : Val → Bool
  | .fin _ _ _ => true
  | _ => false

def Val.neg? : Val → Bool
  | .nan => false
  | .inf n => n
  | .fin n _ _ => n

def Val.isZero : Val → Bool
  | .fin _ m _ => m = 0
  | _ => false

/-! ## Formats (R88, R89, R92) -/

/-- A float format: exponent and fraction widths, bias, its largest finite encoding, its infinity where it has one,
and its canonical NaN. -/
structure Fmt where
  ebits : Nat
  fbits : Nat
  bias : Int
  maxMag : Nat
  infMag : Option Nat
  nanMag : Nat
deriving DecidableEq, Repr

def fp32 : Fmt := ⟨8, 23, 127, 0x7F7FFFFF, some 0x7F800000, 0x7FC00000⟩
def bf16 : Fmt := ⟨8, 7, 127, 0x7F7F, some 0x7F80, 0x7FC0⟩
def e4m3 : Fmt := ⟨4, 3, 7, 0x7E, none, 0x7F⟩
def e5m2 : Fmt := ⟨5, 2, 15, 0x7B, some 0x7C, 0x7E⟩

/-- The float format of a code (R93). -/
def floatFmt (f : Byte) : Fmt := if f = 1 then fp32 else if f = 2 then bf16 else if f = 3 then e4m3 else e5m2

/-- The sign bit of a format. -/
def Fmt.sign (f : Fmt) (neg : Bool) : Nat := if neg then 2 ^ (f.ebits + f.fbits) else 0

/-- The value of an encoding (R88, R89). -/
def Fmt.decode (f : Fmt) (b : Nat) : Val :=
  let neg := bitOf b (f.ebits + f.fbits)
  let mag := b % 2 ^ (f.ebits + f.fbits)
  let ef := mag / 2 ^ f.fbits
  let fr := mag % 2 ^ f.fbits
  if f.maxMag < mag then (if f.infMag = some mag then .inf neg else .nan)
  else if ef = 0 then .fin neg fr (1 - f.bias - f.fbits)
  else .fin neg (2 ^ f.fbits + fr) ((ef : Int) - f.bias - f.fbits)

/-- A magnitude with its low bits dropped in a rounding mode, and whether any was set (R94). -/
def roundMag (mode : Rnd) (neg : Bool) (m sh : Nat) : Nat × Bool :=
  let q := m / 2 ^ sh
  let r := m % 2 ^ sh
  let up := match mode with
    | .rne => decide (2 ^ sh < 2 * r ∨ 2 ^ sh = 2 * r ∧ q % 2 = 1)
    | .rz => false
    | .ru => !neg
    | .rd => neg
  (if r ≠ 0 && up then q + 1 else q, r ≠ 0)

/-- What an overflow leaves (the table of R95), as an encoding. -/
def Fmt.over (f : Fmt) (mode : Rnd) (sat neg : Bool) : Nat :=
  let toInf := !sat && (match mode with
    | .rne => true
    | .rz => false
    | .ru => !neg
    | .rd => neg)
  f.sign neg + (if toInf then f.infMag.getD f.nanMag else f.maxMag)

/-- rnd of R95, with the flags of R167: INEXACT, UNDERFLOW and OVERFLOW. A zero keeps its sign: what adds and multiplies gives
+0 for an exactly zero result itself (R91), and a conversion of −0 gives −0 (log entry 67). -/
def Fmt.round (f : Fmt) (mode : Rnd) (sat : Bool) (v : Val) : Nat × BitVec 7 :=
  match v with
  | .nan => (f.nanMag, 0)
  | .inf neg => (f.sign neg + (if sat then f.maxMag else f.infMag.getD f.nanMag), 0)
  | .fin neg m e =>
    if m = 0 then (f.sign neg, 0)
    else
      let emin : Int := 1 - f.bias
      let top : Int := e + (Nat.log2 m : Nat)
      let q : Int := (if top < emin then emin else top) - f.fbits
      let r := if q ≤ e then (m * 2 ^ (e - q).toNat, false) else roundMag mode neg m (q - e).toNat
      let mag := (q - (emin - f.fbits)).toNat * 2 ^ f.fbits + r.1
      if f.maxMag < mag then (f.over mode sat neg, vInexact ||| vOverflow)
      else (f.sign neg + mag, flagIf r.2 vInexact ||| flagIf (r.2 && top < emin) vUnderflow)

/-- Width of an integer format in bits (R92). -/
def intBits (f : Byte) : Nat := if f = 5 then 8 else if f = 6 then 32 else 64

/-- A value rounded to an integer, with whether a fraction was discarded. -/
def Val.toInt (mode : Rnd) (v : Val) : Int × Bool :=
  match v with
  | .fin neg m e =>
    let r := if 0 ≤ e then (m * 2 ^ e.toNat, false) else roundMag mode neg m (-e).toNat
    (if neg then -(r.1 : Int) else r.1, r.2)
  | _ => (0, false)

/-- Clamps to a signed range of w bits. -/
def clampInt (w : Nat) (x : Int) : Int := max (-(2 : Int) ^ (w - 1)) (min ((2 : Int) ^ (w - 1) - 1) x)

/-- An integer as the low w bits of its two's complement. -/
def lowBits (w : Nat) (x : Int) : Nat := (x % (2 : Int) ^ w).toNat

/-- R96, with the flags of R176. -/
def roundInt (w : Nat) (mode : Rnd) (v : Val) : Nat × BitVec 7 :=
  match v with
  | .nan => (0, vInvalid)
  | .inf neg => (if neg then 2 ^ (w - 1) else 2 ^ (w - 1) - 1, vInvalid)
  | .fin _ _ _ =>
    let r := v.toInt mode
    let c := clampInt w r.1
    (lowBits w c, flagIf r.2 vInexact ||| flagIf (c ≠ r.1) vSaturate)

/-- The value of an element of a view format, or of INT64. -/
def elemVal (f : Byte) (b : Nat) : Val :=
  if f = 5 || f = 6 || f = 7 then .ofInt (signedOf (intBits f) b) 0 else (floatFmt f).decode b

/-! ## Sums and products -/

/-- The exact product and whether the operation is invalid (R107, R168). -/
def Val.mul (a b : Val) : Val × Bool :=
  let neg := a.neg? != b.neg?
  match a, b with
  | .nan, _ | _, .nan => (.nan, false)
  | .inf _, b => if b.isZero then (.nan, true) else (.inf neg, false)
  | a, .inf _ => if a.isZero then (.nan, true) else (.inf neg, false)
  | .fin _ m e, .fin _ n d => (.fin neg (m * n) (e + d), false)

/-- Two finite values on the lesser exponent. -/
def alignPair (a b : Val) : Int × Int × Int :=
  let e := min a.exp b.exp
  (shiftInt a.sig (a.exp - e), shiftInt b.sig (b.exp - e), e)

/-- The exact sum and whether it is ∞ − ∞; a sum that is exactly zero is +0 (R91). -/
def Val.add (a b : Val) : Val × Bool :=
  match a, b with
  | .nan, _ | _, .nan => (.nan, false)
  | .inf n, .inf m => if n = m then (.inf n, false) else (.nan, true)
  | .inf n, _ | _, .inf n => (.inf n, false)
  | .fin na ma ea, .fin nb mb eb =>
    let p := alignPair (.fin na ma ea) (.fin nb mb eb)
    let t := p.1 + p.2.1
    (.ofInt t p.2.2, false)

/-- The negative; of a zero it is +0 (R91). -/
def Val.negate : Val → Val
  | .nan => .nan
  | .inf n => .inf (!n)
  | .fin n m e => .fin (!n && m ≠ 0) m e

def Val.abs : Val → Val
  | .nan => .nan
  | .inf _ => .inf false
  | .fin _ m e => .fin false m e

/-- Order of two values that are no NaN; −0 equals +0 (R174). -/
def Val.lt (a b : Val) : Bool :=
  match a, b with
  | .nan, _ | _, .nan => false
  | .inf n, .inf m => n && !m
  | .inf n, _ => n
  | _, .inf m => !m
  | a, b => let p := alignPair a b; p.1 < p.2.1

/-- The order of VMIN, VMAX and the reductions: −0 lies below +0 (R171, R184). -/
def Val.below (a b : Val) : Bool := a.lt b || (a.isZero && b.isZero && a.neg? && !b.neg?)

def Val.least (a b : Val) : Val := if a.isNan || b.isNan then .nan else if b.below a then b else a
def Val.greatest (a b : Val) : Val := if a.isNan || b.isNan then .nan else if a.below b then b else a

/-- The exact sum of a run of elements, and whether both infinities stand among them (R184). -/
def sumVals (l : List Val) : Val × Bool :=
  let pinf := l.contains (.inf false)
  let ninf := l.contains (.inf true)
  let both := pinf && ninf
  if l.any Val.isNan || both then (.nan, both)
  else if pinf then (.inf false, false) else if ninf then (.inf true, false)
  else if l.all (fun v => v.isZero && v.neg?) && !l.isEmpty then (.fin true 0 0, false)
  else (l.foldl (fun a v => (a.add v).1) Val.zero, false)

/-- Rounds through BF16 (R101). -/
def Val.toBf16 (v : Val) : Val := bf16.decode (bf16.round .rne false v).1

/-! ## Q4B (R99, R100) -/

/-- code_value of R100 for types 1 to 3, as a magnitude and an exponent. -/
def codeMag (ty c : Nat) : Nat × Int :=
  let i := c % 8
  if ty = 2 then (if i = 0 then (0, 0) else (2 ^ (i - 1), -3))
  else (#[0, 1, 2, 3, 4, 6, 8, 12].getD i 0, if ty = 1 then -1 else 0)

/-- The value of a Q4B element: its code, its scale byte and the tensor's scale base. -/
def q4bVal (code scale : Nat) (sbase : Int) : Val :=
  let e : Int := (scale % 64 : Nat) - 32 + sbase
  if scale / 64 % 4 = 0 then .ofInt (signedOf 4 code) e
  else
    let p := codeMag (scale / 64 % 4) code
    .fin (8 ≤ code % 16) p.1 (p.2 + e)

/-! ## Special functions (R114, R115)

Each is formed as m × 2^e rounded down with more bits than any FP32 boundary needs; the result is one of the two
FP32 values that bracket it, chosen by Config.faithfulUp. -/

/-- Bits after the point of the working values. -/
def workBits : Nat := 400

/-- ln 2 in working bits. -/
def ln2Work : Nat := (List.range workBits).foldl (fun a i => a + 2 ^ workBits / ((i + 1) * 2 ^ (i + 1))) 0

/-- exp of y in [0, 1), both in working bits. -/
def expWork (y : Nat) : Nat :=
  ((List.range 90).foldl (fun (p : Nat × Nat) i =>
    let t := p.2 * y / 2 ^ workBits / (i + 1)
    (p.1 + t, t)) (2 ^ workBits, 2 ^ workBits)).1

/-- ln of m / 2^k in [1, 2), in working bits. -/
def lnWork (m k : Nat) : Nat :=
  let z := 2 ^ workBits * (m - 2 ^ k) / (m + 2 ^ k)
  let zz := z * z / 2 ^ workBits
  2 * ((List.range 140).foldl (fun (p : Nat × Nat) i =>
    (p.1 + p.2 / (2 * i + 1), p.2 * zz / 2 ^ workBits)) (0, z)).1

/-- Integer square root, bit by bit from bit n. -/
def isqrt (x : Nat) : Nat → Nat → Nat
  | 0, acc => if (acc + 1) * (acc + 1) ≤ x then acc + 1 else acc
  | n + 1, acc => let t := acc + 2 ^ (n + 1); if t * t ≤ x then isqrt x n t else isqrt x n acc

/-- One of the two FP32 values about a positive magnitude that is no FP32 value itself: function number, input bits,
sign, and m × 2^e below it. -/
def bracket (fn : Nat) (x : Nat) (neg : Bool) (m : Nat) (e : Int) : Nat :=
  let down := (fp32.round .rz false (.fin false m e)).1
  let up := Config.faithfulUp fn (BitVec.ofNat 32 x) != neg
  fp32.sign neg + (if up then down + 1 else down)

def fpNan : Nat := 0x7FC00000
def fpInf (neg : Bool) : Nat := if neg then 0xFF800000 else 0x7F800000

/-- A power of two as its exponent. -/
def pow2Of (m : Nat) (e : Int) : Option Int := if m = 2 ^ Nat.log2 m then some (e + (Nat.log2 m : Nat)) else none

/-- exp2 of a finite non-zero argument. -/
def exp2Fin (x : Nat) (neg : Bool) (m : Nat) (e : Int) : Nat × BitVec 7 :=
  let v : Val := .fin neg m e
  let fl := shiftInt v.sig e
  let whole := 0 ≤ e || fl * (2 : Int) ^ (-e).toNat = v.sig
  if 128 ≤ fl then (fpInf false, vOverflow ||| vInexact)
  else if fl < -149 then (0, vUnderflow ||| vInexact)
  else if whole then ((fp32.round .rne false (.fin false 1 fl)).1, 0)
  else
    let frac := (shiftInt v.sig (e + workBits) - fl * (2 : Int) ^ workBits).toNat
    let w := expWork (frac * ln2Work / 2 ^ workBits)
    (bracket 0 x false (if w ≤ 2 ^ workBits then w + 1 else w) (fl - workBits),
     vInexact ||| flagIf (fl < -126) vUnderflow)

/-- log2 of a positive finite argument. -/
def log2Fin (x m : Nat) (e : Int) : Nat × BitVec 7 :=
  match pow2Of m e with
  | some n => ((fp32.round .rne false (.ofInt n 0)).1, 0)
  | none =>
    let k := Nat.log2 m
    let t : Int := (e + (k : Nat)) * (2 : Int) ^ workBits + ((lnWork m k * 2 ^ workBits / ln2Work : Nat) : Int)
    (bracket 1 x (t < 0) t.natAbs (-(workBits : Int)), vInexact)

/-- 1/x of a finite non-zero argument. -/
def rcpFin (x : Nat) (neg : Bool) (m : Nat) (e : Int) : Nat × BitVec 7 :=
  match pow2Of m e with
  | some n => if n ≤ -128 then (fpInf neg, vOverflow ||| vInexact)
    else ((fp32.round .rne false (.fin neg 1 (-n))).1, 0)
  | none =>
    if (e + (Nat.log2 m : Nat)) < -128 then (fpInf neg, vOverflow ||| vInexact)
    else (bracket 2 x neg (2 ^ workBits / m) (-e - workBits),
      vInexact ||| flagIf (126 ≤ e + (Nat.log2 m : Nat)) vUnderflow)

/-- 1/√x of a positive finite argument. -/
def rsqFin (x m : Nat) (e : Int) : Nat × BitVec 7 :=
  match pow2Of m e with
  | some n => if n % 2 = 0 then ((fp32.round .rne false (.fin false 1 (-(n / 2)))).1, 0) else odd
  | none => odd
where
  odd : Nat × BitVec 7 :=
    let h := if e % 2 = 0 then m else 2 * m
    let g := if e % 2 = 0 then e else e - 1
    (bracket 3 x false (isqrt (2 ^ (2 * workBits) / h) workBits 0) (-(g / 2) - workBits), vInexact)

/-- The FP32 result and flags of a special function: 0 exp2, 1 log2, 2 rcp, 3 rsq (R115). -/
def special (fn : Nat) (x : Nat) : Nat × BitVec 7 :=
  match fp32.decode x, fn with
  | .nan, _ => (fpNan, 0)
  | .inf neg, 0 => (if neg then 0 else fpInf false, 0)
  | .fin neg m e, 0 => if m = 0 then (0x3F800000, 0) else exp2Fin x neg m e
  | .inf neg, 1 => if neg then (fpNan, vInvalid) else (fpInf false, 0)
  | .fin neg m e, 1 => if m = 0 then (fpInf true, vDivzero) else if neg then (fpNan, vInvalid) else log2Fin x m e
  | .inf neg, 2 => (fp32.sign neg, 0)
  | .fin neg m e, 2 => if m = 0 then (fpInf neg, vDivzero) else rcpFin x neg m e
  | .inf neg, _ => if neg then (fpNan, vInvalid) else (0, 0)
  | .fin neg m e, _ => if m = 0 then (fpInf neg, vDivzero) else if neg then (fpNan, vInvalid) else rsqFin x m e

/-! ## Space-filling keys (R189, R190) -/

/-- A coordinate quantised to 21 bits, and whether it is invalid. -/
def quantise (c lo hi : Val) : Nat × Bool :=
  if !c.isFin || !lo.isFin || !hi.isFin || !(lo.lt hi) then (0, true)
  else
    let e := min c.exp (min lo.exp hi.exp)
    let n := fun v : Val => shiftInt v.sig (v.exp - e)
    ((max 0 (min (2 ^ 21 - 1) ((n c - n lo) * 2 ^ 21 / (n hi - n lo)))).toNat, false)

/-- Places bit k of each coordinate t at key bit n·k + place t. -/
def interleave (q : List Nat) (place : Nat → Nat) : Nat :=
  (List.range 21).foldl (fun a k => q.zipIdx.foldl (fun a e =>
    if bitOf e.1 k then a + 2 ^ (q.length * k + place e.2) else a) a) 0

/-- One level of "undo excess work" of R190. -/
def hilbertLevel (X : List Nat) (lv : Nat) : List Nat :=
  (List.range X.length).foldl (fun (X : List Nat) t =>
    let p := 2 ^ lv - 1
    let x0 := X.getD 0 0
    let xt := X.getD t 0
    if bitOf xt lv then X.set 0 (x0 ^^^ p)
    else
      let s := (x0 ^^^ xt) &&& p
      let Y := X.set 0 (x0 ^^^ s)
      Y.set t (Y.getD t 0 ^^^ s)) X

/-- The Hilbert transform of R190. -/
def hilbert (q : List Nat) : List Nat :=
  let n := q.length
  let levels := (List.range 20).map (fun i => 20 - i)
  let X := levels.foldl hilbertLevel q
  let Y := (List.range (n - 1)).foldl (fun (X : List Nat) i => X.set (i + 1) (X.getD (i + 1) 0 ^^^ X.getD i 0)) X
  let s := levels.foldl (fun s lv => if bitOf (Y.getD (n - 1) 0) lv then s ^^^ (2 ^ lv - 1) else s) 0
  Y.map (· ^^^ s)

/-- The key of quantised coordinates in a mode. -/
def sfcKey (mode : SfcMode) (q : List Nat) : Nat :=
  match mode with
  | .morton2 | .morton3 => interleave q (fun t => t)
  | .hilbert2 | .hilbert3 => interleave (hilbert q) (fun t => q.length - 1 - t)

def sfcAxes : SfcMode → Nat
  | .morton2 | .hilbert2 => 2
  | _ => 3

end Sys2Proof.Machine
end

