-- ==== Sys2Proof/Machine/GibbsArray.lean ====
section
/-! DEFINITION. The Gibbs array: its tagged units, fields and updates, random draws, the colouring check, and what an
array word does at its completion (R257 to R270). -/

namespace Sys2Proof.Machine

/-- The key under which an array word's completion lands. -/
def keyGibbs : Nat := 2 ^ 61

/-! ## The tagged units (R258) -/

def State.modGibbs (s : State) (c : Nat) (f : Gibbs → Gibbs) : State :=
  s.modCore c (fun k => { k with gibbs := f k.gibbs })

/-- Writes part of a group. -/
def State.modCells (s : State) (c g : Nat) (f : CellGroup → CellGroup) : State :=
  s.modGibbs c (fun a => { a with groups := Tbl.put a.groups g (f (s.cells c g)) })

/-- The coupling list of a cell; a stale list is empty. -/
def State.couplings (s : State) (c i : Nat) : List (Int × Bool × Nat) :=
  let v := Tbl.get (s.core c).gibbs.lists i ⟨voidTag, []⟩
  if tagOk (s.ownTag c) v.tag then v.entries else []

def State.setCouplings (s : State) (c i : Nat) (l : List (Int × Bool × Nat)) : State :=
  s.modGibbs c (fun a => { a with lists := Tbl.put a.lists i ⟨s.ownTag c, l⟩ })

/-- Entries of the coupling memory in use (R260). -/
def State.couplingsUsed (s : State) (c : Nat) : Nat :=
  (s.core c).gibbs.lists.foldl (fun n e => n + (if tagOk (s.ownTag c) e.2.tag then e.2.entries.length else 0)) 0

/-- The control block as the core reads it (R259). -/
def State.gctl (s : State) (c : Nat) : GCtl :=
  let v := (s.core c).gibbs.ctl
  if tagOk (s.ownTag c) v.tag then v else GCtl.reset

/-- The sticky bits; 0 under a stale control block (R270). -/
def State.gstatus (s : State) (c : Nat) : GStatus :=
  if tagOk (s.ownTag c) (s.core c).gibbs.ctl.tag then (s.core c).gibbs.status else GStatus.reset

/-- Writes part of the control block and its status bits. -/
def State.setCtl (s : State) (c : Nat) (f : GCtl → GCtl) (g : GStatus → GStatus) : State :=
  s.modGibbs c (fun a => { a with
    ctl := { f (s.gctl c) with tag := s.ownTag c }
    status := g (s.gstatus c) })

def State.modCtl (s : State) (c : Nat) (f : GCtl → GCtl) : State := s.setCtl c f id
def State.modStatus (s : State) (c : Nat) (g : GStatus → GStatus) : State := s.setCtl c id g

/-! ## Cells -/

def State.cellS (s : State) (c i : Nat) : Bool := (s.cells c (i / 64)).s.getLsbD (i % 64)
def State.cellClamp (s : State) (c i : Nat) : Bool := (s.cells c (i / 64)).clamp.getLsbD (i % 64)
def State.cellColour (s : State) (c i : Nat) : Nat := Tbl.get (s.cells c (i / 64)).colour (i % 64) 0
def State.cellBias (s : State) (c i : Nat) : Int := Tbl.get (s.cells c (i / 64)).bias (i % 64) 0
def State.cellCount (s : State) (c i : Nat) : Nat := Tbl.get (s.cells c (i / 64)).count (i % 64) 0

/-- Halo bit h (R267). -/
def State.haloBit (s : State) (c h : Nat) : Bool :=
  let a := (s.core c).gibbs
  tagOk (s.ownTag c) a.haloTag && ((a.halo.getD (h / 8) 0).getLsbD (h % 8))

/-- A 64-bit word with one bit set to a value. -/
def setBit (w : BitVec 64) (j : Nat) (b : Bool) : BitVec 64 :=
  if b then w ||| (1#64 <<< j) else w &&& ~~~(1#64 <<< j)

def State.setS (s : State) (c i : Nat) (b : Bool) : State :=
  s.modCells c (i / 64) (fun v => { v with s := setBit v.s (i % 64) b })

/-! ## The field and the update (R261, R262) -/

/-- The field of cell i. -/
def State.gibbsField (s : State) (c i : Nat) : Int :=
  let bip := (s.gctl c).bip
  let m := fun b : Bool => if bip then (if b then (1 : Int) else -1) else (if b then 1 else 0)
  (s.couplings c i).foldl (fun x e =>
    x + e.1 * m (if e.2.1 then s.haloBit c e.2.2 else s.cellS c e.2.2)) (s.cellBias c i)

/-- P16 of a value z: 65536 × sigmoid(z), to the nearest integer (R262). -/
def sigmoid16 : Val → Nat
  | .nan => 0
  | .inf neg => if neg then 0 else 65536
  | .fin neg m e =>
    if m = 0 then 32768
    else if 64 ≤ shiftInt m e then (if neg then 0 else 65536)
    else
      let y := (shiftInt m (e + workBits)).toNat
      let one := 2 ^ workBits
      let t := (List.range (y / one)).foldl (fun a _ => a * expWork (one - 1) / one) (expWork (y % one))
      let num := if neg then one else t
      (2 * 65536 * num + (t + one)) / (2 * (t + one))

/-- P16 of a field under BETA. -/
def gibbsP16 (beta : BitVec 32) (x : Int) : Nat :=
  sigmoid16 (fp32.decode (fp32.round .rne false ((fp32.decode beta.toNat).mul (Val.ofInt x 0)).1).1)

/-- The replay generator (R265). -/
def replayDraw (seed n : Word) (i : Nat) : BitVec 16 :=
  let w0 := seed ^^^ (n <<< 16) ^^^ BitVec.ofNat 64 i
  let w1 := (w0 ^^^ (w0 >>> 31)) * 0x9E3779B97F4A7C15
  (w1 ^^^ (w1 >>> 29)).extractLsb' 48 16

/-! ## The colouring check (R264) -/

/-- The first conflict, by the lowest cell, then the lowest neighbour. -/
def State.firstConflict (s : State) (c : Nat) : Option (Nat × Nat) :=
  (List.range (s.gctl c).nact).findSome? (fun i =>
    let l := (s.couplings c i).filterMap (fun e =>
      if !e.2.1 && e.2.2 ≠ i && s.cellColour c e.2.2 = s.cellColour c i then some e.2.2 else none)
    match l with
    | [] => none
    | x :: xs => some (i, xs.foldl min x))

def State.colouringCheck (s : State) (c : Nat) : State :=
  let v := s.gctl c
  let conf := s.firstConflict c
  let un := (List.range v.nact).any (fun i => v.gates ≤ s.cellColour c i)
  if conf.isSome || un then
    s.modStatus c (fun t => { t with
      conflict := t.conflict.or conf, uncoloured := t.uncoloured || un })
  else s

/-- Entries in the lists of the active cells. -/
def State.activeEntries (s : State) (c : Nat) : Nat :=
  (List.range (s.gctl c).nact).foldl (fun n i => n + (s.couplings c i).length) 0

/-! ## Loads (R273, R274) -/

/-- The elements of a row of an INT32 tensor that starts at an offset from BASE, as the array reads them, with whether
a line read with an uncorrectable error. -/
def State.intRow (s : State) (c : Nat) (e : Ent) (off : Nat) : List Nat × Bool :=
  let own := s.ownTag c
  let cells := (List.range (e.sz 0)).map (fun d0 => s.localKey c (e.base + off + d0 * e.st 0) 4)
  (cells.map (fun k => match k with
      | some k => leNat (s.readClean own k 4)
      | none => 0),
    cells.any (fun k => match k with
      | some k => s.anyBad own k 4
      | none => false))

/-- The rows that GLOAD and GBIAS read. -/
def loadShape (ent : List Byte) (rows : Bool) : Ent :=
  let e := entOf ent
  { e with size := [e.sz 0, if rows then e.sz 1 else 1, 1, 1] }

/-- Whether a tensor's bytes still meet the range scoreboard (R212). -/
def State.loadHeld (s : State) (c : Nat) (e : Ent) : Bool :=
  e.rows.any (fun r => match s.localKey c (e.base + r.1) r.2 with
    | some k => s.hits c k r.2
    | none => false)

/-- The coupling entry of an INT32 (R260). -/
def couplingOf (w : Nat) : Int × Bool × Nat := (signedOf 8 (bitsOf w 23 16), bitOf w 13, bitsOf w 12 0)

/-- GLOAD: row r gives the list of cell first + r. -/
def State.loadCouplings (s : State) (c : Nat) (e : Ent) (first : Nat) : State :=
  (List.range (e.sz 1)).foldl (fun (t : State) r =>
    let i := first + r
    let (ws, bad) := t.intRow c e (r * e.st 1)
    let valid := ws.filter (fun w => bitOf w 31)
    let l := (valid.filter (fun w => bitsOf w 30 24 = 0 && bitsOf w 15 14 = 0)).map couplingOf
    let t0 := t.setCouplings c i []
    let full := 131072 < t0.couplingsUsed c + l.length
    let t1 := if full then t0 else t0.setCouplings c i l
    let badE := l.length ≠ valid.length
    if bad || full || badE then
      t1.modStatus c (fun u => { u with
        loaderr := u.loaderr || bad, cmfull := u.cmfull || full, badentry := u.badentry || badE })
    else t1) s

/-- GBIAS: element d0 is the bias of cell first + d0. -/
def State.loadBiases (s : State) (c : Nat) (e : Ent) (first : Nat) : State :=
  let (ws, bad) := s.intRow c e 0
  let vals := ws.map (signedOf 32)
  let s1 := vals.zipIdx.foldl (fun (t : State) v =>
    let i := first + v.2
    t.modCells c (i / 64) (fun g => { g with bias := Tbl.put g.bias (i % 64) (clampInt 16 v.1) })) s
  let clip := vals.any (fun v => clampInt 16 v ≠ v)
  if bad || clip then
    s1.modStatus c (fun u => { u with loaderr := u.loaderr || bad, clip := u.clip || clip })
  else s1

/-! ## Completion of array words (R268, R271) -/

/-- 64 bits of a BIT image, for the cells of a group. -/
def groupBits (img : List Byte) (g : Nat) : BitVec 64 := BitVec.ofNat 64 (field img (8 * g) 8)

/-- Changes the groups in which a mask has a bit. -/
def State.maskCells (s : State) (c : Nat) (mask : List Byte) (f : Nat → BitVec 64 → CellGroup → CellGroup) : State :=
  (List.range 128).foldl (fun (t : State) g =>
    let m := groupBits mask g
    if m = 0 then t else t.modCells c g (f g m)) s

/-- The end of k sweeps that change no state: active cells at 1 count each time, and SWEEP advances (R263). -/
def State.countSweeps (s : State) (c k : Nat) : State :=
  let ones := (List.range (s.gctl c).nact).filter (s.cellS c)
  let lost := ones.any (fun i => 65535 < s.cellCount c i + k)
  let s1 := ones.foldl (fun (t : State) i => t.modCells c (i / 64) (fun g => { g with
    count := Tbl.upd g.count (i % 64) 0 (satAdd 16 k) })) s
  s1.setCtl c (fun v => { v with sweep := v.sweep + BitVec.ofNat 64 k }) (fun t => { t with cntsat := t.cntsat || lost })

/-- The word's effect on the array. -/
def State.gibbsDo (s : State) (c : Nat) (op : GibbsOp) : State :=
  match op with
  | .mode bip replay n => s.modCtl c (fun v => { v with
      bip := bip, replay := replay, nact := n, forced := v.forced && replay })
  | .load ent first => s.loadCouplings c (loadShape ent true) first
  | .bias ent first => s.loadBiases c (loadShape ent false) first
  | .colour gates first vals =>
    ((List.range 16).foldl (fun (t : State) q =>
      t.modCells c (first / 64 + q) (fun g => { g with
        colour := (((vals.drop (64 * q)).take 64).map (fun b => b.toNat % 16)).zipIdx.filterMap (fun e =>
          if e.1 = 0 then none else some (e.2, e.1)) })) s).modCtl c (fun v => { v with gates := gates })
  | .beta v => s.modCtl c (fun t => { t with beta := v })
  | .seed v => s.modCtl c (fun t => { t with seed := v, sweep := 0 })
  | .clamp mask states => s.maskCells c mask (fun g m v => { v with
      clamp := v.clamp ||| m, s := (v.s &&& ~~~m) ||| (groupBits states g &&& m) })
  | .free mask => s.maskCells c mask (fun _ m v => { v with clamp := v.clamp &&& ~~~m })
  | .clear =>
    (s.core c).gibbs.groups.foldl (fun (t : State) g =>
      t.modCells c g.1 (fun v => { v with count := [] })) s
  | .skip k => s.countSweeps c k
  | .check => s.colouringCheck c

/-- Whether the colouring check runs at the completion of a word (R264). -/
def GibbsOp.checks (op : GibbsOp) (gates : Nat) : Bool :=
  match op with
  | .mode _ _ _ | .load _ _ => 1 ≤ gates
  | .colour _ _ _ => true
  | _ => false

/-- The end of an array word: its vault bytes are read once they are clear of the scoreboard; where the colouring check
runs it takes its own cycles, and the word is complete after it. -/
def State.gibbsLands (s : State) (o : Origin) : State :=
  let c := o.core
  match (s.core c).gibbs.word with
  | none => s
  | some op =>
    let again := fun (t : State) (d : Nat) => t.later c d (.vectorResultLands o keyGibbs [] 0)
    let held := match op with
      | .load ent _ => s.loadHeld c (loadShape ent true)
      | .bias ent _ => s.loadHeld c (loadShape ent false)
      | _ => false
    if held then again s 1
    else
      let t := s.gibbsDo c op
      if op.checks (t.gctl c).gates then
        again (t.modGibbs c (fun a => { a with word := some .check })) (ceilDiv (t.activeEntries c) 64)
      else (t.modGibbs c (fun a => { a with word := none })).finish o

end Sys2Proof.Machine
end

