-- ==== Sys2Proof/Machine/Wide.lean ====
section
/-! DEFINITION. The WIDE accumulator (R103 to R112): tiles as rows of exact elements, the one add, normalising, and
conversion out. -/

namespace Sys2Proof.Machine

/-- The class of an element (R104): 0 finite, 1 +inf, 2 −inf, 3 NaN. -/
abbrev Cls := BitVec 2

/-- An element: T and its class. -/
abbrev WEl := Int × Cls

/-- One row of a tile: E, RSE, STATUS, the row sum, the 64 elements, and the reserved bits of its row word block. -/
structure WRow where
  e : Int
  rse : Int
  status : BitVec 16
  sum : WEl
  els : List WEl
  res : List Byte
deriving DecidableEq, Repr

/-- An element from its M and G words (R104). -/
def wel (m g : Nat) : WEl :=
  let c : Cls := BitVec.ofNat 2 (g / 2 ^ 14)
  (if c = 0 then signedOf 64 m * 2 ^ 14 + (g % 2 ^ 14 : Nat) else 0, c)

/-- The M word of an element. -/
def WEl.m (x : WEl) : Nat := if x.2 = 0 then lowBits 64 (x.1 / 2 ^ 14) else 0
/-- The G word of an element. -/
def WEl.g (x : WEl) : Nat := x.2.toNat * 2 ^ 14 + (if x.2 = 0 then (x.1 % 2 ^ 14).toNat else 0)

/-- Row i of a tile image (R103, R105). -/
def wrow (img : List Byte) (i : Nat) : WRow :=
  let b := (img.drop (0x2800 + 32 * i)).take 32
  let ms := elems 8 64 ((img.drop (512 * i)).take 512)
  let gs := elems 2 64 ((img.drop (0x2000 + 128 * i)).take 128)
  { e := fieldS b 0 2, rse := fieldS b 4 2, status := BitVec.ofNat 16 (field b 2 2),
    sum := wel (field b 8 8) (field b 16 2), els := List.zipWith wel ms gs,
    res := (b.drop 6).take 2 ++ b.drop 18 }

def wtile (img : List Byte) : List WRow := (List.range 16).map (wrow img)

/-- The 32-byte row word block around the 10 bytes of a row sum. -/
def WRow.blockOf (r : WRow) (sum : List Byte) : List Byte :=
  leBytes 2 (lowBits 16 r.e) ++ leBytes 2 r.status.toNat ++ leBytes 2 (lowBits 16 r.rse) ++ r.res.take 2 ++ sum ++
    r.res.drop 2

/-- The 32-byte row word block. -/
def WRow.block (r : WRow) : List Byte := r.blockOf (leBytes 8 r.sum.m ++ leBytes 2 r.sum.g)

/-- The first 0x2A00 bytes of a tile; what lies above is never written (R103). -/
def tileBytes (t : List WRow) : List Byte :=
  t.flatMap (fun r => r.els.flatMap (fun x => leBytes 8 x.m)) ++
    t.flatMap (fun r => r.els.flatMap (fun x => leBytes 2 x.g)) ++ t.flatMap WRow.block

/-- The first 0x2A00 bytes of a tile in which the row sums of some rows keep the bytes of an image. -/
def tileOver (img : List Byte) (keep : Nat → Bool) (t : List WRow) : List Byte :=
  t.flatMap (fun r => r.els.flatMap (fun x => leBytes 8 x.m)) ++ t.flatMap (fun r => r.els.flatMap (fun x => leBytes 2 x.g)) ++
    t.zipIdx.flatMap (fun e => if keep e.2 then e.1.blockOf ((img.drop (0x2808 + 32 * e.2)).take 10) else e.1.block)

/-- The exact value of an element under an exponent (R104, R112). -/
def wval (e : Int) (x : WEl) : Val :=
  if x.2 = 0 then .ofInt x.1 (e - 14) else if x.2 = 1 then .inf false else if x.2 = 2 then .inf true else .nan

/-- The class of an addend. -/
def Val.cls : Val → Cls
  | .nan => 3
  | .inf neg => if neg then 2 else 1
  | .fin _ _ _ => 0

/-- combine of R109. -/
def combine (l : List Cls) : Cls :=
  if l.contains 3 || (l.contains 1 && l.contains 2) then 3
  else if l.contains 1 then 1 else if l.contains 2 then 2 else 0

/-- An addend in units of u, truncated toward −∞, and whether it lost bits (R108). -/
def units (k : Int) (a : Val) : Int × Bool :=
  let q := shiftInt a.sig (a.exp - k)
  (q, a.exp < k && q * (2 : Int) ^ (k - a.exp).toNat ≠ a.sig)

/-- One add with its addends into an element of a row with exponent e (R108). -/
def wideAdd (e : Int) (x : WEl) (as : List Val) : WEl × BitVec 16 :=
  let us := (as.filter Val.isFin).map (units (e - 14))
  let cs := as.map Val.cls
  let c := combine (x.2 :: cs)
  let st := flagIf (us.any (fun u => u.2)) stInexact ||| flagIf (cs.contains 3) stNan |||
    flagIf (cs.contains 1) stPinf ||| flagIf (cs.contains 2) stNinf
  if c = 0 then
    let t := us.foldl (fun a u => a + u.1) x.1
    let t1 := max (-(2 : Int) ^ 77) (min ((2 : Int) ^ 77 - 1) t)
    let m := t1 / 2 ^ 14
    ((t1, 0), st ||| flagIf (t1 ≠ t) stOvf ||| flagIf (m < -(2 : Int) ^ 56 || (2 : Int) ^ 56 ≤ m) stHeadwarn)
  else ((0, c), st ||| flagIf (c = 3) stNan)

/-- The greatest shift that keeps T × 2^d within −2^62 to 2^62 − 1. -/
def roomOf (t : Int) : Int :=
  if 0 < t then 61 - (Nat.log2 t.natAbs : Nat)
  else 62 - (if t.natAbs ≤ 1 then 0 else (Nat.log2 (t.natAbs - 1) + 1 : Nat))

/-- The exponent MNORM chooses for the elements of a row (R111); none when no finite element is non-zero. -/
def normExp (e : Int) (l : List WEl) : Option Int :=
  match (l.filter (fun x => x.2 = 0 && x.1 ≠ 0)).map (fun x => roomOf x.1) with
  | [] => none
  | r :: rs => some (max (-32768) (min 32767 (e - rs.foldl min r)))

/-- An element rewritten to a new exponent, and whether it lost bits. -/
def rescale (e e' : Int) (x : WEl) : WEl × Bool :=
  if x.2 = 0 then
    let t := shiftInt x.1 (e - e')
    ((t, 0), e < e' && t * (2 : Int) ^ (e' - e).toNat ≠ x.1)
  else (x, false)

/-- MNORM on a row and on its row sum (R111, R150). -/
def WRow.norm (r : WRow) : WRow :=
  let e' := (normExp r.e r.els).getD r.e
  let els := r.els.map (rescale r.e e')
  let s' := (normExp r.rse [r.sum]).getD r.rse
  let sum := rescale r.rse s' r.sum
  { r with e := e', els := els.map (fun x => x.1), rse := s', sum := sum.1,
           status := r.status ||| flagIf (els.any (fun x => x.2) || sum.2) stInexact }

/-- MNORM on a tile image: the elements of a row, and a row sum, of which none is finite and non-zero keep their bytes
(R111). -/
def normImage (img : List Byte) : List Byte :=
  let rows := (wtile img).zipIdx
  let els := fun (base w : Nat) (f : WEl → Nat) => rows.flatMap (fun e =>
    if (normExp e.1.e e.1.els).isNone then (img.drop (base + 64 * w * e.2)).take (64 * w)
    else e.1.norm.els.flatMap (fun x => leBytes w (f x)))
  els 0 8 WEl.m ++ els 0x2000 2 WEl.g ++ rows.flatMap (fun e =>
    if (normExp e.1.rse [e.1.sum]).isNone then e.1.norm.blockOf ((img.drop (0x2808 + 32 * e.2)).take 10)
    else e.1.norm.block)

/-- Clears a row for a nest: elements, row sum and STATUS, E and RSE kept (R139). -/
def WRow.clear (r : WRow) : WRow :=
  { r with status := 0, sum := (0, 0), els := List.replicate 64 (0, 0) }

end Sys2Proof.Machine
end

