-- ==== Sys2Proof/Machine/Vector.lean ====
section
/-! DEFINITION. The vector walker's words (R159 to R193) and the landing of its results (R164). -/

namespace Sys2Proof.Machine

/-- A view word: its operands are read at issue, its formats checked, and its result lands `lat` cycles later
(R161, R163, R164). DESIGN CHOICE (log entry 67): a trap on formats, or on a destination in the text, waits for the banks of the
word's reads as its issue does; FE, an unbound view and the ADDR of a load or store do not. `f` takes the destination's format,
its old elements and the sources. -/
def viewWord (o : Origin) (d : Name) (readD : Bool) (ops : List (Name × Bool)) (lat : Nat)
    (chk : Byte → List Byte → Bool) (f : Byte → List Nat → List Source → List Nat × BitVec 7) : Op Flow := do
  let (fmt, r, dOld, srcs) ← vectorOperands o d readD ops
  demand (chk fmt (srcs.map Source.fmt)) .rsvd 0
  let res := f fmt dOld srcs
  fixedResult o r lat (unelems (fmtSize fmt) res.1) res.2

/-- A word of one source: the check on (destination, source) formats, and the elements. -/
def viewUnary (o : Origin) (d a : Name) (tea : Bool) (lat : Nat) (chk : Byte → Byte → Bool)
    (f : Byte → Byte → List Nat → List Nat × BitVec 7) : Op Flow :=
  viewWord o d false [(a, tea)] lat (fun fd fs => chk fd (fs.headD 0))
    (fun fd _ ss => f fd (ss.headD Source.none).fmt ((ss.headD Source.none).elems))

/-- A word of two sources, of which b may be a scalar with .X (R160). `f` takes the formats of the destination, a and
b, then the elements of a, b and the old destination. -/
def viewBinary (o : Origin) (d a b : Name) (te : Te) (bx readD : Bool) (lat : Nat) (chk : Byte → Byte → Byte → Bool)
    (f : Byte → Byte → Byte → List Nat → List Nat → List Nat → List Nat × BitVec 7) : Op Flow :=
  if bx then do
    let v ← src o b
    viewWord o d readD [(a, te.a)] lat (fun fd fs => chk fd (fs.headD 0) (fs.headD 0)) (fun fd old ss =>
      let sa := ss.headD Source.none
      f fd sa.fmt sa.fmt sa.elems (List.replicate 1024 (v.toNat % 2 ^ (8 * fmtSize sa.fmt))) old)
  else
    viewWord o d readD [(a, te.a), (b, te.b)] lat (fun fd fs => chk fd (fs.headD 0) (fs.getD 1 0)) (fun fd old ss =>
      let sa := ss.headD Source.none
      let sb := ss.getD 1 Source.none
      f fd sa.fmt sb.fmt sa.elems sb.elems old)

/-- Results with their flags, together. -/
def gather (l : List (Nat × BitVec 7)) : List Nat × BitVec 7 := (l.map (fun x => x.1), orFlags (l.map (fun x => x.2)))

/-- All operands in the float class, or all in the integer class (R170). -/
def sameClass (fd fa fb : Byte) : Bool :=
  fmtClass fd = fmtClass fa && fmtClass fa = fmtClass fb && fmtClass fa ≠ .bit

def isFloat (f : Byte) : Bool := fmtClass f = .float

/-- The integer an element holds, unsigned or signed. -/
def elemInt (uns : Bool) (f : Byte) (b : Nat) : Int := if uns then (b : Int) else signedOf (intBits f) b

/-- An integer result: wrapped, or clamped with .SAT (R162). -/
def intResult (f : Byte) (sat : Bool) (x : Int) : Nat × BitVec 7 :=
  if sat then (lowBits (intBits f) (clampInt (intBits f) x), flagIf (clampInt (intBits f) x ≠ x) vSaturate)
  else (lowBits (intBits f) x, 0)

/-- An exact float result with whether the operation was invalid, rounded (R162, R168). -/
def floatResult (f : Byte) (mode : Rnd) (sat : Bool) (v : Val × Bool) : Nat × BitVec 7 :=
  let r := (floatFmt f).round mode sat v.1
  (r.1, r.2 ||| flagIf v.2 vInvalid)

/-- VADD, VSUB, VMUL, VFMA, VMIN, VMAX element by element (R170, R171). -/
def arith (opF : Val → Val → Val → Val × Bool) (opI : Int → Int → Int → Int) (uns : Bool) (mode : Rnd) (sat : Bool)
    (fd fa fb : Byte) (as bs ds : List Nat) : List Nat × BitVec 7 :=
  gather ((List.zipWith (fun (ab : Nat × Nat) (z : Nat) =>
    if isFloat fd then floatResult fd mode sat (opF (elemVal fa ab.1) (elemVal fb ab.2) (elemVal fd z))
    else intResult fd sat (opI (elemInt uns fa ab.1) (elemInt uns fb ab.2) (elemInt uns fd z)))
    (as.zip bs) (if ds.isEmpty then List.replicate 1024 0 else ds)))

def execVadd (h : Hdr) (te : Te) (bx sat : Bool) (rnd : Rnd) (d a b : Name) (s : State) :
    Host.Outcome State Fault Refusal :=
  issue .V h 4 (fun o => viewBinary o d a b te bx false 6 sameClass
    (arith (fun x y _ => x.add y) (fun x y _ => x + y) false rnd sat)) s

def execVsub (h : Hdr) (te : Te) (bx sat : Bool) (rnd : Rnd) (d a b : Name) (s : State) :
    Host.Outcome State Fault Refusal :=
  issue .V h 4 (fun o => viewBinary o d a b te bx false 6 sameClass
    (arith (fun x y _ => x.add y.negate) (fun x y _ => x - y) false rnd sat)) s

def execVmul (h : Hdr) (te : Te) (bx sat : Bool) (rnd : Rnd) (d a b : Name) (s : State) :
    Host.Outcome State Fault Refusal :=
  issue .V h 4 (fun o => viewBinary o d a b te bx false 6 sameClass
    (arith (fun x y _ => x.mul y) (fun x y _ => x * y) false rnd sat)) s

/-- a × b + d with one rounding; both of its invalid cases are flagged (R171). -/
def fma (x y z : Val) : Val × Bool :=
  let p := x.mul y
  let t := p.1.add z
  (t.1, p.2 || t.2)

def execVfma (h : Hdr) (te : Te) (bx sat : Bool) (rnd : Rnd) (d a b : Name) (s : State) :
    Host.Outcome State Fault Refusal :=
  issue .V h 4 (fun o => viewBinary o d a b te bx true 8 sameClass
    (arith fma (fun x y z => x * y + z) false rnd sat)) s

/-- VMIN and VMAX refuse .U with float views (R170). -/
def minmaxOk (uns : Bool) (fd fa fb : Byte) : Bool := sameClass fd fa fb && !(uns && isFloat fd)

def execVmin (h : Hdr) (te : Te) (bx uns : Bool) (d a b : Name) (s : State) : Host.Outcome State Fault Refusal :=
  issue .V h 4 (fun o => viewBinary o d a b te bx false 6 (minmaxOk uns)
    (arith (fun x y _ => (x.least y, false)) (fun x y _ => min x y) uns .rne false)) s

def execVmax (h : Hdr) (te : Te) (bx uns : Bool) (d a b : Name) (s : State) : Host.Outcome State Fault Refusal :=
  issue .V h 4 (fun o => viewBinary o d a b te bx false 6 (minmaxOk uns)
    (arith (fun x y _ => (x.greatest y, false)) (fun x y _ => max x y) uns .rne false)) s

/-- VABS and VNEG (R170, R171). -/
def unaryArith (opF : Val → Val) (opI : Int → Int) (mode : Rnd) (sat : Bool) (fd fa : Byte) (as : List Nat) :
    List Nat × BitVec 7 :=
  gather (as.map (fun x =>
    if isFloat fd then floatResult fd mode sat (opF (elemVal fa x), false)
    else intResult fd sat (opI (elemInt false fa x))))

def execVabs (h : Hdr) (tea sat : Bool) (rnd : Rnd) (d a : Name) (s : State) : Host.Outcome State Fault Refusal :=
  issue .V h 4 (fun o => viewUnary o d a tea 6 (fun fd fa => sameClass fd fa fa)
    (unaryArith Val.abs (fun x => (x.natAbs : Int)) rnd sat)) s

def execVneg (h : Hdr) (tea sat : Bool) (rnd : Rnd) (d a : Name) (s : State) : Host.Outcome State Fault Refusal :=
  issue .V h 4 (fun o => viewUnary o d a tea 6 (fun fd fa => sameClass fd fa fa)
    (unaryArith Val.negate (fun x => -x) rnd sat)) s

/-! ## Logic and shifts -/

/-- Equal element sizes (R172, R175, R179). -/
def sameSize (fd fa fb : Byte) : Bool := fmtSize fd = fmtSize fa && fmtSize fa = fmtSize fb

/-- A word on raw bits. -/
def bitwise (f : Nat → Nat → Nat) (_ _ _ : Byte) (as bs _ : List Nat) : List Nat × BitVec 7 := (List.zipWith f as bs, 0)

def execVand (h : Hdr) (te : Te) (bx : Bool) (d a b : Name) (s : State) : Host.Outcome State Fault Refusal :=
  issue .V h 4 (fun o => viewBinary o d a b te bx false 6 sameSize (bitwise (· &&& ·))) s

def execVor (h : Hdr) (te : Te) (bx : Bool) (d a b : Name) (s : State) : Host.Outcome State Fault Refusal :=
  issue .V h 4 (fun o => viewBinary o d a b te bx false 6 sameSize (bitwise (· ||| ·))) s

def execVxor (h : Hdr) (te : Te) (bx : Bool) (d a b : Name) (s : State) : Host.Outcome State Fault Refusal :=
  issue .V h 4 (fun o => viewBinary o d a b te bx false 6 sameSize (bitwise (· ^^^ ·))) s

/-- Shifts take INT8 and INT32, into a's format (R173). -/
def shiftOk (fd fa fb : Byte) : Bool := fmtClass fa = .int && fmtClass fb = .int && fd = fa

/-- An element shifted by the low 3 or 5 bits of a count (R173). -/
def shifted (f : Nat → Nat → Nat → Nat) (_ fa _ : Byte) (as bs _ : List Nat) : List Nat × BitVec 7 :=
  let w := intBits fa
  (List.zipWith (fun x n => f w x (n % w)) as bs, 0)

def execVshl (h : Hdr) (te : Te) (bx : Bool) (d a b : Name) (s : State) : Host.Outcome State Fault Refusal :=
  issue .V h 4 (fun o => viewBinary o d a b te bx false 6 shiftOk (shifted (fun w x n => x * 2 ^ n % 2 ^ w))) s

def execVshr (h : Hdr) (te : Te) (bx : Bool) (d a b : Name) (s : State) : Host.Outcome State Fault Refusal :=
  issue .V h 4 (fun o => viewBinary o d a b te bx false 6 shiftOk (shifted (fun _ x n => x / 2 ^ n))) s

def execVsar (h : Hdr) (te : Te) (bx : Bool) (d a b : Name) (s : State) : Host.Outcome State Fault Refusal :=
  issue .V h 4 (fun o => viewBinary o d a b te bx false 6 shiftOk
    (shifted (fun w x n => lowBits w (signedOf w x / 2 ^ n)))) s

/-! ## Compare, select, convert -/

/-- All ones of an element size. -/
def allOnes (f : Byte) : Nat := 2 ^ (8 * fmtSize f) - 1

/-- A condition of VCMP on two integers (R174). -/
def cmpInt (c : CmpOp) (x y : Int) : Bool :=
  match c with
  | .eq => x = y | .ne => x ≠ y | .lt => x < y | .le => x ≤ y | .gt => y < x | .ge => y ≤ x | .un => false

/-- A condition of VCMP on two floats (R174). -/
def cmpVal (c : CmpOp) (x y : Val) : Bool :=
  if x.isNan || y.isNan then (match c with
    | .ne | .un => true
    | _ => false)
  else match c with
    | .eq => !x.lt y && !y.lt x | .ne => x.lt y || y.lt x | .lt => x.lt y | .le => !y.lt x
    | .gt => y.lt x | .ge => !x.lt y | .un => false

def cmpOk (c : CmpOp) (uns : Bool) (fd fa fb : Byte) : Bool :=
  fmtClass fa ≠ .bit && fmtClass fa = fmtClass fb && fmtClass fd ≠ .bit && fmtSize fd = fmtSize fa
    && (if isFloat fa then !uns else c ≠ .un)

def execVcmp (h : Hdr) (te : Te) (bx : Bool) (cond : CmpOp) (uns : Bool) (d a b : Name) (s : State) :
    Host.Outcome State Fault Refusal :=
  issue .V h 4 (fun o => viewBinary o d a b te bx false 6 (cmpOk cond uns) (fun fd fa fb as bs _ =>
    (List.zipWith (fun x y =>
      if (if isFloat fa then cmpVal cond (elemVal fa x) (elemVal fb y)
          else cmpInt cond (elemInt uns fa x) (elemInt uns fb y)) then allOnes fd else 0) as bs, 0))) s

def execVsel (h : Hdr) (te : Te) (d a b : Name) (s : State) : Host.Outcome State Fault Refusal :=
  issue .V h 4 (fun o => viewBinary o d a b te false true 6 sameSize (fun _ _ _ as bs ds =>
    (List.zipWith (fun (m : Nat) (ab : Nat × Nat) => if m ≠ 0 then ab.1 else ab.2) ds (as.zip bs), 0))) s

/-- One conversion (R176). DESIGN CHOICE (log entry 67): −0 converts to −0; R91 gives +0 to exactly zero results of arithmetic, and
neither it nor R176 says whether a conversion is one. -/
def convert (mode : Rnd) (sat : Bool) (fd fa : Byte) (x : Nat) : Nat × BitVec 7 :=
  if isFloat fd then (floatFmt fd).round mode sat (elemVal fa x)
  else if isFloat fa then roundInt (intBits fd) mode (elemVal fa x)
  else intResult fd sat (elemInt false fa x)

def execVcvt (h : Hdr) (tea sat : Bool) (rnd : Rnd) (d a : Name) (s : State) : Host.Outcome State Fault Refusal :=
  issue .V h 4 (fun o => viewUnary o d a tea 6 (fun fd fa => fmtClass fd ≠ .bit && fmtClass fa ≠ .bit)
    (fun fd fa as => gather (as.map (convert rnd sat fd fa)))) s

/-- A float element rounded to an integral value, its sign kept (R177). -/
def integral (mode : Rnd) (fa : Byte) (x : Nat) : Nat :=
  let v := elemVal fa x
  ((floatFmt fa).round .rne false (match v with
    | .fin neg _ _ => .fin neg (v.toInt mode).1.natAbs 0
    | v => v)).1

def execVrnd (h : Hdr) (tea : Bool) (rnd : Rnd) (d a : Name) (s : State) : Host.Outcome State Fault Refusal :=
  issue .V h 16 (fun o => viewUnary o d a tea 20 (fun fd fa => isFloat fa && fd = fa)
    (fun _ fa as => (as.map (integral rnd fa), 0))) s

/-! ## Special functions (R178) -/

/-- The three steps of R178. DESIGN CHOICE (log entry 21): with an FP32 destination step 3 changes nothing, with .SAT too, so
that an infinite result stays infinite. -/
def specialElem (fn : Nat) (mode : Rnd) (sat : Bool) (fd fa : Byte) (x : Nat) : Nat × BitVec 7 :=
  let r := special fn (fp32.round .rne false (elemVal fa x)).1
  if fd = 1 then r
  else
    let t := (floatFmt fd).round mode sat (fp32.decode r.1)
    (t.1, r.2 ||| t.2)

def specialWord (fn : Nat) (h : Hdr) (tea sat : Bool) (rnd : Rnd) (d a : Name) (s : State) :
    Host.Outcome State Fault Refusal :=
  issue .V h 16 (fun o => viewUnary o d a tea 20 (fun fd fa => isFloat fd && isFloat fa)
    (fun fd fa as => gather (as.map (specialElem fn rnd sat fd fa)))) s

def execVexp2 (h : Hdr) (tea sat : Bool) (rnd : Rnd) (d a : Name) (s : State) : Host.Outcome State Fault Refusal :=
  specialWord 0 h tea sat rnd d a s
def execVlog2 (h : Hdr) (tea sat : Bool) (rnd : Rnd) (d a : Name) (s : State) : Host.Outcome State Fault Refusal :=
  specialWord 1 h tea sat rnd d a s
def execVrcp (h : Hdr) (tea sat : Bool) (rnd : Rnd) (d a : Name) (s : State) : Host.Outcome State Fault Refusal :=
  specialWord 2 h tea sat rnd d a s
def execVrsq (h : Hdr) (tea sat : Bool) (rnd : Rnd) (d a : Name) (s : State) : Host.Outcome State Fault Refusal :=
  specialWord 3 h tea sat rnd d a s

/-! ## Moves, fills and scalars -/

def execVmov (h : Hdr) (tea : Bool) (d a : Name) (s : State) : Host.Outcome State Fault Refusal :=
  issue .V h 4 (fun o => viewUnary o d a tea 6 (fun fd fa => fmtSize fd = fmtSize fa) (fun _ _ as => (as, 0))) s

def execVsplat (h : Hdr) (d a : Name) (s : State) : Host.Outcome State Fault Refusal :=
  issue .V h 4 (fun o => do
    let v ← src o a
    viewWord o d false [] 6 (fun _ _ => true)
      (fun fd _ _ => (List.replicate 1024 (v.toNat % 2 ^ (8 * fmtSize fd)), 0))) s

/-- Element n of VIOTA from a base (R181). -/
def iotaElem (fd : Byte) (base : Int) (flat : Bool) (n : Nat) : Nat × BitVec 7 :=
  let x := base + (if flat then n else n % 64 : Nat)
  if isFloat fd then (floatFmt fd).round .rne false (.ofInt x 0) else (lowBits (intBits fd) x, 0)

def execViota (h : Hdr) (flat : Bool) (d a : Name) (s : State) : Host.Outcome State Fault Refusal :=
  issue .V h 4 (fun o => do
    let v ← src o a
    viewWord o d false [] 6 (fun fd _ => fmtClass fd ≠ .bit)
      (fun fd _ _ => gather ((List.range 1024).map (iotaElem fd v.toInt flat)))) s

/-- The value VGETS gives for an element: sign-extended for integers, zero-extended otherwise (R182). -/
def getsWord (f : Byte) (x : Nat) : Word :=
  if fmtClass f = .int then sextWord (intBits f) x else BitVec.ofNat 64 x

def execVgets (h : Hdr) (tea : Bool) (d a b : Name) (s : State) : Host.Outcome State Fault Refusal :=
  issue .V h 1 (fun o => do
    let n ← src o b
    destReady o d
    let s ← get
    let f := findOperand s o.core a
    (liftM (operandStall s o.core tea f) : Op Unit)
    let v ← takeOperand o tea 0 f
    claimBanks o (v.runs.foldl (fun m r => m ||| banksOf r.1 r.2) 0#32)
    resultLater o d 3 (getsWord v.fmt (v.elems.getD (n.toNat % 1024) 0))) s

def execVgetsSt (h : Hdr) (clr : Bool) (d : Name) (s : State) : Host.Outcome State Fault Refusal :=
  issue .V h 1 (fun o => do
    let k ← getCore o
    need (k.wV.pend = 0)
    if clr then modifyCore o (fun k => { k with vstat := 0 })
    resultLater o d 3 (k.vstat.setWidth 64)) s

/-! ## Rotations, broadcasts, reductions, scans, compress (R183 to R186) -/

/-- The amount of a rotation or broadcast: a value, or the low bits of a scalar. -/
def amount (o : Origin) (limit : Nat) : Amount → Op Nat
  | .val n => pure n.toNat
  | .reg r => do return (← src o r).toNat % limit

/-- A word that moves element (i, j) from where `from?` says. -/
def moveWord (o : Origin) (d a : Name) (tea : Bool) (lat : Nat) (place : Nat → Nat → Nat × Nat) : Op Flow :=
  viewUnary o d a tea lat (fun fd fa => fmtSize fd = fmtSize fa) (fun _ _ as =>
    let arr := as.toArray
    ((List.range 1024).map (fun k => let p := place (k / 64) (k % 64); arr.getD (64 * p.1 + p.2) 0), 0))

def execVrotr (h : Hdr) (tea : Bool) (d a : Name) (n : Amount) (s : State) : Host.Outcome State Fault Refusal :=
  issue .V h 2 (fun o => do
    let n ← amount o 64 n
    moveWord o d a tea 4 (fun i j => (i, (j + 64 - n) % 64))) s

def execVrotc (h : Hdr) (tea : Bool) (d a : Name) (n : Amount) (s : State) : Host.Outcome State Fault Refusal :=
  issue .V h 6 (fun o => do
    let n ← amount o 16 n
    moveWord o d a tea 8 (fun i j => ((i + 16 - n) % 16, j))) s

def execVbcr (h : Hdr) (tea : Bool) (d a : Name) (n : Amount) (s : State) : Host.Outcome State Fault Refusal :=
  issue .V h 2 (fun o => do
    let n ← amount o 64 n
    moveWord o d a tea 4 (fun i _ => (i, n))) s

def execVbcc (h : Hdr) (tea : Bool) (d a : Name) (n : Amount) (s : State) : Host.Outcome State Fault Refusal :=
  issue .V h 6 (fun o => do
    let n ← amount o 16 n
    moveWord o d a tea 8 (fun _ j => (n, j))) s

/-- The formats of R184 for an operator, and where .SAT stands. -/
def redOk (op : RedOp) (sat : Bool) (fd fa : Byte) : Bool :=
  (!sat || (op = .add && fmtClass fa = .int)) &&
  (match op with
    | .add => (isFloat fa && isFloat fd) || (fmtClass fa = .int && fd = fa)
    | .max | .min => fmtClass fa ≠ .bit && fd = fa
    | .maxu | .minu => fmtClass fa = .int && fd = fa
    | .and | .or => fmtSize fd = fmtSize fa)

/-- The reduction of a run of elements (R184); of none, the identity of R185. -/
def reduce (op : RedOp) (sat : Bool) (fd fa : Byte) (l : List Nat) : Nat × BitVec 7 :=
  let ext := fun (uns less : Bool) => match l with
    | [] => 0
    | x :: xs => xs.foldl (fun m y =>
        if (if less then elemInt uns fa y < elemInt uns fa m else elemInt uns fa m < elemInt uns fa y) then y else m) x
  match op with
  | .add =>
    if isFloat fa then floatResult fd .rne false (sumVals (l.map (elemVal fa)))
    else intResult fd sat (l.foldl (fun a x => a + elemInt false fa x) 0)
  | .max =>
    if isFloat fa then (match l with
      | [] => (floatFmt fa).sign true + (floatFmt fa).infMag.getD (floatFmt fa).maxMag
      | x :: xs => ((floatFmt fa).round .rne false
          (xs.foldl (fun m y => m.greatest (elemVal fa y)) ((elemVal fa x).greatest (elemVal fa x)))).1, 0)
    else (if l.isEmpty then 2 ^ (intBits fa - 1) else ext false false, 0)
  | .min =>
    if isFloat fa then (match l with
      | [] => (floatFmt fa).infMag.getD (floatFmt fa).maxMag
      | x :: xs => ((floatFmt fa).round .rne false
          (xs.foldl (fun m y => m.least (elemVal fa y)) ((elemVal fa x).least (elemVal fa x)))).1, 0)
    else (if l.isEmpty then 2 ^ (intBits fa - 1) - 1 else ext false true, 0)
  | .maxu => (ext true false, 0)
  | .minu => (if l.isEmpty then allOnes fa else ext true true, 0)
  | .and => (l.foldl (· &&& ·) (allOnes fa), 0)
  | .or => (l.foldl (· ||| ·) 0, 0)

/-- Row i of 1024 elements. -/
def rowOf (l : List Nat) (i : Nat) : List Nat := (l.drop (64 * i)).take 64

/-- Column j of 1024 elements. -/
def colOf (l : List Nat) (j : Nat) : List Nat := (List.range 16).map (fun i => l.getD (64 * i + j) 0)

def execVredr (h : Hdr) (tea : Bool) (op : RedOp) (sat : Bool) (d a : Name) (s : State) :
    Host.Outcome State Fault Refusal :=
  issue .V h 5 (fun o => viewUnary o d a tea 7 (redOk op sat) (fun fd fa as =>
    let r := (List.range 16).map (fun i => reduce op sat fd fa (rowOf as i))
    (r.flatMap (fun x => List.replicate 64 x.1), orFlags (r.map (fun x => x.2))))) s

def execVredc (h : Hdr) (tea : Bool) (op : RedOp) (sat : Bool) (d a : Name) (s : State) :
    Host.Outcome State Fault Refusal :=
  issue .V h 8 (fun o => viewUnary o d a tea 10 (redOk op sat) (fun fd fa as =>
    let r := (List.range 64).map (fun j => reduce op sat fd fa (colOf as j))
    ((List.replicate 16 (r.map (fun x => x.1))).flatten, orFlags (r.map (fun x => x.2))))) s

def execVscanr (h : Hdr) (tea : Bool) (op : RedOp) (sat ex : Bool) (d a : Name) (s : State) :
    Host.Outcome State Fault Refusal :=
  issue .V h 5 (fun o => viewUnary o d a tea 7 (redOk op sat) (fun fd fa as =>
    gather ((List.range 1024).map (fun n =>
      reduce op sat fd fa ((rowOf as (n / 64)).take (if ex then n % 64 else n % 64 + 1)))))) s

def execVcomp (h : Hdr) (te : Te) (d a b : Name) (s : State) : Host.Outcome State Fault Refusal :=
  issue .V h 5 (fun o => viewBinary o d a b te false false 7
    (fun fd fa fb => fmtSize fd = fmtSize fa && fmtClass fb ≠ .bit) (fun _ _ _ as bs _ =>
      ((List.range 16).flatMap (fun i =>
        let kept := ((rowOf as i).zip (rowOf bs i)).filterMap (fun p => if p.2 ≠ 0 then some p.1 else none)
        kept ++ List.replicate (64 - kept.length) 0), 0))) s

/-! ## Codebook lookup, exact accumulation, spatial keys -/

/-- The element a codebook entry gives (R187); −0 stays −0, as in a conversion (log entry 67). -/
def lutElem (fd : Byte) (sat : Bool) (e : BitVec 16) : Nat × BitVec 7 :=
  if fd = 2 then (e.toNat, 0)
  else if fd = 1 then ((fp32.round .rne false (bf16.decode e.toNat)).1, 0)
  else (floatFmt fd).round .rne sat (bf16.decode e.toNat)

def execVlut (h : Hdr) (tea sat hi : Bool) (d a k : Name) (s : State) : Host.Outcome State Fault Refusal :=
  issue .V h 4 (fun o => do
    let s ← get
    let book := s.codebook o.core (match k with
      | .k n => n
      | _ => 0)
    viewUnary o d a tea 6 (fun fd fa => fmtClass fa = .int && isFloat fd) (fun fd _ as =>
      gather (as.map (fun x => lutElem fd sat (book.getD (if hi then x / 16 % 16 else x % 16) 0))))) s

/-- The tile run of a bound accumulator view. -/
def Core.tileRun (k : Core) (n : BitVec 4) : Option (Nat × Nat) :=
  if (k.aviewReg n).fmt = 0 then none else some (4096 * (k.aviewReg n).page.toNat, 12288)

def accNum : Name → BitVec 4
  | .a n => n
  | _ => 0

/-- One add of one addend per element; an uncorrectable one is +0 and sets MERR in its row (R188). -/
def accumulate (fa : Byte) (as : List Nat) (bad : List Nat) (t : List WRow) : List WRow :=
  let n := fmtSize fa
  t.zipIdx.map (fun e =>
    let r := e.1
    let bads := (List.range 64).filter (fun j => badAt bad ((64 * e.2 + j) * n) n)
    let outs := List.zipWith (fun (x : WEl) (a : Nat × Nat) =>
      wideAdd r.e x [if bads.contains a.2 then Val.zero else elemVal fa a.1]) r.els (rowOf as e.2).zipIdx
    { r with els := outs.map (fun x => x.1)
             status := r.status ||| orFlags (outs.map (fun x => x.2)) ||| flagIf (!bads.isEmpty) stMerr })

def execVacc (h : Hdr) (tea : Bool) (d a : Name) (s : State) : Host.Outcome State Fault Refusal :=
  issue .V h 4 (fun o => do
    let s ← get
    let k ← getCore o
    let tile := k.tileRun (accNum d)
    (match tile with
      | some r => need (destFree s o.core r)
      | none => pure ())
    let f := findOperand s o.core a
    (liftM (operandStall s o.core tea f) : Op Unit)
    match tile with
    | none => trapNow .rsvd 0 0
    | some r =>
      let v ← takeOperand o tea 0 f
      demand (fmtClass v.fmt ≠ .bit) .rsvd 0
      claimBanks o (BitVec.allOnes 32)
      let img := (← get).read (s.ownTag o.core) (keyRS o.core r.1) r.2
      modifyCore o (fun k => { k with busyTiles := k.busyTiles ++ [(r.1, r.2, o.age)] })
      fixedResult o r 8 (tileOver img (fun _ => true) (accumulate v.fmt v.elems v.bad (wtile img))) 0) s

/-- The INT32 elements of one row of keys (R189). -/
def keyRow (mode : SfcMode) (row box : List Nat) : List Nat × Bool :=
  let n := sfcAxes mode
  let step := if n = 2 then 2 else 4
  let c := fun (l : List Nat) i => fp32.decode (l.getD i 0)
  let pts := (List.range (64 / step)).map (fun p =>
    let q := (List.range n).map (fun t => quantise (c row (step * p + t)) (c box t) (c box (4 + t)))
    let key := sfcKey mode (q.map (fun x => x.1))
    ([key % 2 ^ 32, key / 2 ^ 32] ++ List.replicate (step - 2) 0, q.any (fun x => x.2)))
  (pts.flatMap (fun x => x.1), pts.any (fun x => x.2))

/-- VSFC (R189). DESIGN CHOICE (log entry 63): b may be a port, as a source of any vector word may. -/
def execVsfc (h : Hdr) (te : Te) (mode : SfcMode) (d a b : Name) (s : State) : Host.Outcome State Fault Refusal :=
  issue .V h 16 (fun o => viewBinary o d a b te false false 20 (fun fd fa fb => fd = 6 && fa = 1 && fb = 1)
    (fun _ _ _ as bs _ =>
      let rows := (List.range 16).map (fun i => keyRow mode (rowOf as i) (rowOf bs 0))
      (rows.flatMap (fun x => x.1), flagIf (rows.any (fun x => x.2)) vInvalid))) s

/-! ## View loads and stores (R191 to R193) -/

/-- Where a vector address leads: a register-space offset, or the key of local vault bytes (R192). -/
def viewPlace (s : State) (c : Nat) (a : Word) (n : Nat) (acc : Bool) : Option (Nat ⊕ Nat) :=
  let x := a.toNat
  if 2 ^ 36 ≤ x then none
  else if 2 ^ 35 ≤ x then
    if x % 64 = 0 then (s.localKey c (x - 2 ^ 35) n).map Sum.inr else none
  else if x + n ≤ 0x40000 && x % 128 = 0 && !acc then some (Sum.inl x) else none

/-- The run that view k of a format-M word binds, and whether it is an accumulator view. -/
def viewRun (k : Core) (d : Name) (i : Nat) : Option ((Nat × Nat) × Bool) :=
  match d with
  | .v n =>
    let r := k.viewReg (n + BitVec.ofNat 6 i)
    if r.fmt = 0 then none else some (r.run, false)
  | .a n => (k.tileRun (n + BitVec.ofNat 4 i)).map (fun r => (r, true))
  | _ => none

/-- The address of access i (R39, R53). -/
def viewAddr (base : Word) (i : Nat) (step : BitVec 8) (n : Nat) (add : Int) : Word :=
  base + BitVec.ofInt 64 ((i : Int) * step.toInt * (n : Int) + add)

/-- What remains of a format-M word after a grant: the next grant, the next access, or the next word. -/
def afterAccess (o : Origin) (last : Bool) (cost : Nat) (f : WalkerSt → WalkerSt) : Op Flow := do
  if last then return .seq
  else
    let k ← getCore o
    modify (fun s => s.modW o.core o.walker (fun v => f { v with readyAt := k.time + cost, asked := none }))
    return .own

/-- One access of VLD or VST (R193). The grants of an accumulator view after its first wait for their banks only, and keep the run
that the first resolved (R74). DESIGN CHOICE (log entry 67): each part of an accumulator view lands 20 − g cycles after its own
grant g, so that where a later grant loses its banks the parts before it land on time. DESIGN CHOICE
(log entry 63): where the views of a repeated word have different extents, the size in the address of access k is the extent of
access k's own view (R39, R191). -/
def viewAccess (o0 : Origin) (load : Bool) (d base : Name) (step : BitVec 8) (count : BitVec 7) : Op Flow := do
  let s ← get
  let k ← getCore o0
  let w := k.w o0.walker
  let c := o0.core
  let b ← if w.access = 0 && w.grant = 0 then srcX o0 (xNum base) else pure w.baseVal
  modify (fun s => s.modW c o0.walker (fun v => { v with baseVal := b }))
  let last := w.access = count.toNat
  let o := if last then o0 else { o0 with post := 0, post2 := 0 }
  match (if w.grant = 0 then viewRun k d w.access else w.run) with
  | none => trapNow .rsvd 0 0
  | some (r, acc) =>
    let addr := viewAddr b w.access step r.2 w.addrAdd
    need (w.grant ≠ 0 || (if load then destFree s c r else runFree s c r && s.full c r.1 r.2))
    match viewPlace s c addr r.2 acc with
    | none => trapNow .addr 0 addr.toNat
    | some (Sum.inl off) =>
      let next := afterAccess o last 4 (fun v => { v with access := v.access + 1 })
      if load then do
        need (runFree s c (off, r.2) && s.full c off r.2)
        demand (!k.inText r.1 r.2) .addr r.1
        claimBanks o (banksOf off r.2)
        let bytes := s.read (s.ownTag c) (keyRS c off) r.2
        let _ ← fixedResult o r 6 bytes 0
        modifyCore o (fun k => { k with moves := k.moves ++ [o.age] })
        next
      else do
        need (destFree s c (off, r.2))
        demand (!k.inText off r.2) .addr off
        claimBanks o (banksOf r.1 r.2)
        let bytes := s.read (s.ownTag c) (keyRS c r.1) r.2
        let _ ← fixedResult o (off, r.2) 6 bytes 0
        modifyCore o (fun k => { k with moves := k.moves ++ [o.age] })
        next
    | some (Sum.inr key) =>
      need (w.grant ≠ 0 || (!(s.hits c key r.2) && !(k.pendMeets (key, r.2))))
      if load then do
        demand (!k.inText r.1 r.2) .addr r.1
        let own := s.ownTag c
        let bytes := s.readClean own key r.2
        if s.anyBad own key r.2 then modifyCore o (fun k => { k with vstat := k.vstat ||| vLoaderr })
        modify (fun t => (t.noteBad own key r.2).markEmpty own c r.1 r.2)
        modifyCore o (fun k => k.pendAdd (keyRS c r.1) r.2 o.age)
        let _ ← doneLater o 19 (.longLatencyWriteComplete o r.1 bytes)
        afterAccess o last 8 (fun v => { v with access := v.access + 1 })
      else do
        let part := if acc then 4096 else r.2
        let g := w.grant
        let lastG := (g + 1) * part = r.2
        let og := if lastG then o else { o with post := 0, post2 := 0 }
        claimBanks o (banksOf (r.1 + g * part) part)
        let bytes := s.read (s.ownTag c) (keyRS c (r.1 + g * part)) part
        modifyCore o (fun k => k.pendAdd (key + g * part) part o.age)
        let _ ← doneLater og (20 - g) (.vectorResultLands og (key + g * part) bytes 0)
        if lastG then afterAccess o last (8 - g) (fun v => { v with access := v.access + 1, grant := 0, run := none })
        else do
          modifyCore o (fun k' => k'.askNext (k.wordAge o) (banksOf (r.1 + (g + 1) * part) part))
          afterAccess o false 1 (fun v => { v with grant := g + 1, run := some (r, acc), asked := some (k.wordAge o) })

/-- The cycles an access costs: 8 at the local vault, 4 in register space (R34). -/
def viewCost (s : State) (base : Name) (acc load : Bool) : Nat :=
  let k := s.core s.cur
  let w := k.w .V
  let b := if w.access = 0 && w.grant = 0 then k.readX (xNum base) else w.baseVal
  if bitOf b.toNat 35 then (if acc && !load then 6 else 8) else 4

def isAcc : Name → Bool
  | .a _ => true
  | _ => false

def execVld (h : Hdr) (d base : Name) (step : BitVec 8) (count : BitVec 7) (s : State) :
    Host.Outcome State Fault Refusal :=
  .next (issueAt s.cur .V h (viewCost s base (isAcc d) true) (0 < ((s.core s.cur).wV.access + (s.core s.cur).wV.grant))
    (fun o => viewAccess o true d base step count) s)

def execVst (h : Hdr) (d base : Name) (step : BitVec 8) (count : BitVec 7) (s : State) :
    Host.Outcome State Fault Refusal :=
  .next (issueAt s.cur .V h (viewCost s base (isAcc d) false) (0 < ((s.core s.cur).wV.access + (s.core s.cur).wV.grant))
    (fun o => viewAccess o false d base step count) s)

/-! ## Results landing -/

/-- The first entry that matches leaves a list. -/
def dropFirst {α : Type} (p : α → Bool) : List α → List α
  | [] => []
  | x :: xs => if p x then xs else x :: dropFirst p xs

/-- The operand-cache lines of an identifier of a VF are invalidated (R142). -/
def Core.dropTensor (k : Core) (v : BitVec 6) (t : BitVec 12) : Core :=
  { k with ocache := k.ocache.filter (fun l => !(l.vf = v && l.key.tensor = t)) }

/-- A TDEF's entry has been written: its identifier's lines leave every operand cache, whatever kernel its core now runs, and
those that are saved (R142). -/
def State.entryWritten (s : State) (key : Nat) : State :=
  if 2 ^ 56 ≤ key && key < 2 ^ 57 then
    let v := BitVec.ofNat 6 ((key - 2 ^ 56) / 2 ^ 18)
    let t := BitVec.ofNat 12 ((key - 2 ^ 56) % 2 ^ 18 / 64)
    { s with
      cores := s.cores.map (fun (e : Nat × Core) => (e.1, e.2.dropTensor v t))
      saves := s.saves.map (fun (e : Nat × Save) => (e.1, { e.2 with image := e.2.image.dropTensor v t })) }
  else s

/-- What lands at a key: bytes of register space or a vault, a tensor entry, a codebook register (keys from 2^58 on,
eight to a core, R156), or the invalidation of an operand cache (keys from 2^59 on, R143). -/
def State.landAt (s : State) (o : Origin) (key : Nat) (bytes : List Byte) : State :=
  if 2 ^ 59 ≤ key then s.modCore o.core (fun k => { k with ocache := [] })
  else if 2 ^ 58 ≤ key then
    let tag := s.ownTag o.core
    s.modCore o.core (fun k => { k with
      codebooks := Tbl.put k.codebooks (key % 8) ⟨tag, (elems 2 16 bytes).map (BitVec.ofNat 16)⟩ })
  else (s.writeFixed o key bytes).entryWritten key

/-- A fixed-latency result lands: bytes and VSTAT bits together, and the word is complete (R164). -/
def execVectorResultLands (o : Origin) (off : Nat) (bytes : List Byte) (flags : BitVec 7) (s : State) :
    Host.Outcome State Fault Refusal :=
  if off = keyGibbs then .next (s.gibbsLands o)
  else .next (((s.landAt o off bytes).modCore o.core (fun k => { k with
    vpend := dropFirst (fun e => e.1 = off && e.2.2 = o.age) k.vpend, moves := k.moves.filter (· ≠ o.age),
    busyTiles := k.busyTiles.filter (fun e => e.2.2 ≠ o.age),
    vstat := k.vstat ||| flags })).finish o)

/-- A long-latency producer's bytes are written through the arbitrated ports, in the cycle before they may be read;
with the end of that cycle their granules are full, no word waits for them, and the word is complete (R34, R165). A request that loses a bank is replayed in
the next cycle (R22, R26, R27). -/
def execLongLatencyWriteComplete (o : Origin) (off : Nat) (bytes : List Byte) (s : State) :
    Host.Outcome State Fault Refusal :=
  let (won, t) := s.grant o.core o.age (banksOf off bytes.length)
  .next (if won then
    (t.modCore o.core (fun k => { k with latches := k.latches ++ [.fill off bytes.length, .tidy o] })).write (s.ownTag o.core) (keyRS o.core off) bytes
  else t.later o.core 1 (.longLatencyWriteComplete o off bytes))

end Sys2Proof.Machine
end

