-- ==== Sys2Proof/Machine/Matrix.lean ====
section
/-! DEFINITION. The matrix walker: the nest configuration, running a nest, the operand cache, the words on accumulator
tiles, drains and codebook loads (R131 to R156). -/

namespace Sys2Proof.Machine

/-! ## The nest configuration (R131 to R135) -/

/-- Writes the shadow copy at issue; the word completes one cycle later. -/
def setShadow (o : Origin) (f : NestCfg → NestCfg) : Op Flow := do
  modifyCore o (fun k => { k with shadow := f k.shadow })
  doneNext o []

/-- A level from the strides register (R132). -/
def levelOf (count strides : Word) : NestLevel :=
  { count := count.setWidth 16, astep := strides.setWidth 16, bstep := strides.extractLsb' 16 16,
    cstep := strides.extractLsb' 32 16, arow := strides.extractLsb' 48 8, bcol := strides.extractLsb' 56 8 }

def execMnest (h : Hdr) (level : BitVec 8) (a b : Name) (s : State) : Host.Outcome State Fault Refusal :=
  issue .M h 1 (fun o => do
    let n ← srcX o (xNum a)
    let st ← srcX o (xNum b)
    demand (n.toNat < 2 ^ 16) .rsvd 0
    setShadow o (fun c => { c with levels := c.levels.set level.toNat (levelOf n st) })) s

def execMopd (h : Hdr) (card : Name) (isB : Bool) (src : MSrc) (s : State) : Host.Outcome State Fault Refusal :=
  issue .M h 1 (fun o => do
    let v ← srcX o (xNum card)
    setShadow o (fun c =>
      if isB then { c with bsrc := some src, borgk := v.setWidth 32, borgc := v.extractLsb' 32 32 }
      else { c with asrc := some src, aorgk := v.setWidth 32, aorgr := v.extractLsb' 32 32 })) s

def execMfmt (h : Hdr) (afmt bfmt : BitVec 8) (zp : Bool) (cb : BitVec 3) (cbsel : Bool) (s : State) :
    Host.Outcome State Fault Refusal :=
  issue .M h 1 (fun o => do
    demand (!((← get).inReduced o.core) || (afmt = 2 && bfmt = 2) || (afmt = 5 && bfmt = 5)) .rsvd 0
    setShadow o (fun c => { c with afmt := afmt, bfmt := bfmt, zp := zp, cb := cb, cbsel := cbsel })) s

def execMdst (h : Hdr) (d : Name) (s : State) : Host.Outcome State Fault Refusal :=
  issue .M h 1 (fun o => setShadow o (fun c => { c with dest := accNum d })) s

/-! ## Index space (R136, R137) -/

/-- Steps of a nest. -/
def NestCfg.total (c : NestCfg) : Nat := c.levels.foldl (fun a l => a * l.count.toNat) 1

/-- The level indices of step t, level 0 fastest. -/
def digits : List NestLevel → Nat → List Nat
  | [], _ => []
  | l :: ls, t => t % l.count.toNat :: digits ls (t / l.count.toNat)

/-- Σ idx_n × step_n at step t. -/
def NestCfg.sum (c : NestCfg) (t : Nat) (f : NestLevel → Int) : Int :=
  ((digits c.levels t).zip c.levels).foldl (fun a e => a + (e.1 : Int) * f e.2) 0

/-- An interval, its end excluded, put into disjoint intervals in increasing order. -/
def insertIv (iv : Int × Int) : List (Int × Int) → List (Int × Int)
  | [] => [iv]
  | x :: xs =>
    if iv.2 < x.1 then iv :: x :: xs
    else if x.2 < iv.1 then x :: insertIv iv xs
    else insertIv (min iv.1 x.1, max iv.2 x.2) xs

/-- Intervals repeated n times at a step. -/
def stretch (n : Nat) (d : Int) (l : List (Int × Int)) : List (Int × Int) :=
  match l with
  | [iv] =>
    let m := ((n : Int) - 1) * d
    if d ≤ iv.2 - iv.1 ∧ iv.1 - iv.2 ≤ d then [(min iv.1 (iv.1 + m), max iv.2 (iv.2 + m))]
    else (List.range n).foldl (fun a (i : Nat) => insertIv (iv.1 + (i : Int) * d, iv.2 + (i : Int) * d) a) []
  | l => (List.range n).foldl (fun a (i : Nat) => l.foldl (fun a iv => insertIv (iv.1 + (i : Int) * d, iv.2 + (i : Int) * d) a) a) []

/-- The indices from 0 that levels reach with their steps, for a block of w. -/
def reachIv (ls : List NestLevel) (f : NestLevel → Int) (w : Int) : List (Int × Int) :=
  ls.foldl (fun a l => stretch l.count.toNat (f l) a) [(0, w)]

/-- The pairs of shifts of levels that move two indices together. -/
def shifts (ls : List NestLevel) (f g : NestLevel → Int) : List (Int × Int) :=
  ls.foldl (fun (a : List (Int × Int)) l => (a.flatMap (fun p => (List.range l.count.toNat).map (fun i : Nat =>
    (p.1 + (i : Int) * f l, p.2 + (i : Int) * g l)))).eraseDups) [(0, 0)]

/-- The blocks of n by m that Σ idx_n × step_n reaches in two indices over a non-empty range: their intervals (R122, R136). -/
def NestCfg.blocks (c : NestCfg) (f g : NestLevel → Int) (n m : Int) : List ((Int × Int) × (Int × Int)) :=
  let both := fun l : NestLevel => f l ≠ 0 ∧ g l ≠ 0
  let single := c.levels.filter (fun l => !(decide (both l)))
  let ks := reachIv (single.filter (fun l => f l ≠ 0)) f n
  let rs := reachIv (single.filter (fun l => g l ≠ 0)) g m
  (shifts (c.levels.filter (fun l => decide (both l))) f g).flatMap (fun p => ks.flatMap (fun k => rs.map (fun r =>
    ((p.1 + k.1, p.1 + k.2), (p.2 + r.1, p.2 + r.2)))))

/-- The tile names reached, or none when one lies outside a0 to a15; a level of count 0 takes the index 0. -/
def reachTiles : List NestLevel → List Int → Option (List Int)
  | [], l => some l
  | n :: ls, l =>
    let next := (l.flatMap (fun c => (List.range (max 1 (min n.count.toNat 17))).map (fun i : Nat =>
      c + (i : Int) * n.cstep.toInt))).eraseDups
    if next.all (fun c => 0 ≤ c && c < 16) then reachTiles ls next else none

def NestCfg.tiles (c : NestCfg) : Option (List Nat) := (reachTiles c.levels [(c.dest.toNat : Int)]).map (·.map Int.toNat)

/-! ## Sources (R122, R138) -/

/-- The format of a view, port or accumulator source; 0 when unbound. -/
def srcFmt (s : State) (c : Nat) : MSrc → Byte
  | .view n => ((s.core c).viewReg n).fmt
  | .port p => BitVec.ofNat 8 (field (portRecord s c p).1 8 1)
  | .acc n => if ((s.core c).aviewReg n).fmt = 0 then 0 else 2
  | .tensor _ => 0

/-- Check 2 of R136. -/
def srcOk (s : State) (c : Nat) (fmt : Byte) (m : MSrc) : Bool :=
  match m with
  | .tensor _ => true
  | m => srcFmt s c m ≠ 0 && srcFmt s c m = fmt

/-- A tensor source's entry, empty when void or stale (R119). -/
def srcEntry (s : State) (c : Nat) (m : MSrc) : List Byte :=
  match m with
  | .tensor t =>
    let b := s.tensorBytes (s.core c).vf t
    if s.entryLive (s.core c).vf b then b else []
  | _ => []

/-- An interval of indices, shifted, within a size. -/
def clipRange (o : Int) (iv : Int × Int) (n : Nat) : Nat × Nat := ((max 0 (o + iv.1)).toNat, (min (n : Int) (o + iv.2)).toNat)

/-- The bytes of a tensor that d0 and d1 in the given ranges reach, as offsets from BASE and lengths. -/
def Ent.box (e : Ent) (d0 d1 : Nat × Nat) : List (Nat × Nat) :=
  if d0.2 ≤ d0.1 || d1.2 ≤ d1.1 then []
  else
    let p := perUnit e.fmt
    let u := unitBytes e.fmt
    let u0 := d0.1 / p
    let un := ceilDiv d0.2 p
    let rows := (List.range (d1.2 - d1.1)).map (· + d1.1)
    rows.flatMap (fun r =>
      if e.st 0 = u then [(e.unitOff u0 r 0 0, (un - u0) * u)]
      else (List.range (un - u0)).map (fun i => (e.unitOff (u0 + i) r 0 0, u)))
    ++ (if e.fmt = 8 then
        (List.range ((d1.2 - 1) / 32 + 1 - d1.1 / 32)).map (fun b =>
          (e.scaleOff + (d1.1 / 32 + b) * e.sz 0 + d0.1, d0.2 - d0.1))
      else [])

/-- The vault bytes a tensor source reaches, or none when some leave the local vault (R122, R140). -/
def srcReads (s : State) (c : Nat) (cfg : NestCfg) (isB : Bool) (ent : List Byte) : Option (List Rng) :=
  if ent.isEmpty || cfg.total = 0 then some []
  else
    let e := entOf ent
    let runs := if isB then
        (cfg.blocks (fun l => 64 * l.bcol.toInt) (fun l => l.bstep.toInt) 64 4).flatMap (fun b =>
          e.box (clipRange cfg.borgc.toInt b.1 (e.sz 0)) (clipRange cfg.borgk.toInt b.2 (e.sz 1)))
      else
        (cfg.blocks (fun l => l.astep.toInt) (fun l => 16 * l.arow.toInt) 4 16).flatMap (fun b =>
          e.box (clipRange cfg.aorgk.toInt b.1 (e.sz 0)) (clipRange cfg.aorgr.toInt b.2 (e.sz 1)))
    if e.space ≠ 0 then (if runs.isEmpty then some [] else none)
    else runs.foldr (fun q acc => match s.localKey c (e.base + q.1) q.2, acc with
      | some key, some l => some (⟨key, q.2⟩ :: l)
      | _, _ => none) (some [])

/-- The codebook of an L4 source (R134). -/
def srcBook (s : State) (c : Nat) (cfg : NestCfg) (ent : List Byte) : List (BitVec 16) :=
  s.codebook c (if cfg.cbsel then cfg.cb else BitVec.ofNat 3 (entOf ent).cb)

/-- The tile run of accumulator number n. -/
def Core.tileOff (k : Core) (n : Nat) : Nat := 4096 * (k.aviewReg (BitVec.ofNat 4 n)).page.toNat

/-- The register-space run of a view or accumulator source, by the binding in force (R74). -/
def Core.srcRun (k : Core) : MSrc → Option (Nat × Nat)
  | .view v => some (k.viewReg v).run
  | .acc a => some (k.tileOff a.toNat, 12288)
  | _ => none

/-! ## MGO (R136) -/

/-- Whether an MOCINV issued before an age is not yet complete (R143). -/
def Core.invalidating (k : Core) (age : Nat) : Bool :=
  k.agenda.any (fun e => match e.2 with
    | .vectorResultLands o key _ _ => o.walker = .M && 2 ^ 59 ≤ key && o.age < age
    | _ => false)

/-- An event that a codebook load of the core still owes. -/
def keyBook (c : Nat) (n : BitVec 3) : Nat := 2 ^ 58 + 8 * c + n.toNat

/-- The key of a whole invalidation of a core's operand cache. -/
def keyCache (c : Nat) : Nat := 2 ^ 59 + c

def Core.bookPending (k : Core) : Bool :=
  k.agenda.any (fun e => match e.2 with
    | .vectorResultLands _ key _ _ => 2 ^ 58 ≤ key && key < 2 ^ 59
    | _ => false)

def isPort : Option MSrc → Bool
  | some (.port _) => true
  | _ => false

/-- Whether two tiles of a list overlap. -/
def tilesMeet (l : List (Nat × Nat)) : Bool :=
  l.any (fun a => l.any (fun b => a.1 ≠ b.1 && runsMeet (a.2, 12288) (b.2, 12288)))

/-- The checks of R136 in their order: the trap, or the nest to be started. -/
def nestOf (s : State) (o : Origin) (acc : Bool) : Except TrapClass NestRun :=
  let c := o.core
  let k := s.core c
  let cfg := k.shadow
  match cfg.asrc, cfg.bsrc with
  | some a, some b =>
    let ea := srcEntry s c a
    let eb := srcEntry s c b
    if !(srcOk s c cfg.afmt a && srcOk s c cfg.bfmt b) then .error .rsvd
    else if (!ea.isEmpty && (entOf ea).fmt ≠ cfg.afmt.toNat) || (!eb.isEmpty && (entOf eb).fmt ≠ cfg.bfmt.toNat) then
      .error .rsvd
    else match cfg.tiles with
      | none => .error .rsvd
      | some ts =>
        let tiles := ts.map (fun n => (n, k.tileOff n))
        if ts.any (fun n => (k.aviewReg (BitVec.ofNat 4 n)).fmt = 0 || a = .acc (BitVec.ofNat 4 n)) || tilesMeet tiles then
          .error .rsvd
        else match srcReads s c cfg false ea, srcReads s c cfg true eb with
          | some ra, some rb =>
            if tiles.any (fun t => k.inText t.2 12288) then .error .addr
            else .ok { cfg := cfg, acc := acc, o := o, aent := ea, bent := eb, arun := k.srcRun a, brun := k.srcRun b,
                       asnap := [], bsnap := [], abad := [], bbad := [], cba := srcBook s c cfg ea, cbb := srcBook s c cfg eb, reads := ra ++ rb, tiles := tiles,
                       block := [], blockBad := [], taken := 0, started := false }
          | _, _ => .error .addr
  | _, _ => .error .rsvd

/-- MGO issues once any running nest has ended, and after codebook loads before it (R136, R156), with the banks of the descriptor
of an armed port that it checks (R26); the running copy is loaded (R131). -/
def execMgo (h : Hdr) (acc : Bool) (s : State) : Host.Outcome State Fault Refusal :=
  issue .M h 1 (fun o => do
    let s ← get
    let k ← getCore o
    need (k.nest.isNone && !k.bookPending)
    need (match k.shadow.asrc with
      | some (.port p) => !(Tbl.get k.ports p.toNat PortSt.reset).armed || s.full o.core (portDesc p) 64
      | _ => true)
    match nestOf s o acc with
    | .error t => trapNow t 0 0
    | .ok n =>
      claimBanks o (match k.shadow.asrc with
        | some (.port p) => k.descBanks p
        | _ => 0)
      modifyCore o (fun k => { k with nest := some n, running := n.cfg })
      doneLater o 0 (.nestStep o.core)) s

/-! ## The operand cache (R142) -/

/-- The units of a line of a tensor, as offsets from BASE with the bytes of each. -/
def lineUnits (e : Ent) (key : LineKey) : List (Nat × Nat) :=
  if key.scale then
    (List.range (min 256 (e.sz 0 - key.off))).map (fun i =>
      (e.scaleOff + ((key.d3 * e.sz 2 + key.d2) * e.blocks + key.d1) * e.sz 0 + key.off + i, 1))
  else
    let u := unitBytes e.fmt
    (List.range (min (256 / u) (e.units - key.off / u))).map (fun i =>
      (e.unitOff (key.off / u + i) key.d1 key.d2 key.d3, u))

/-- A line filled whole, from the bytes as they stand; the oldest of 256 makes room. -/
def State.fillLine (s : State) (c : Nat) (key : LineKey) (e : Ent) : State :=
  let own := s.ownTag c
  let us := (lineUnits e key).map (fun u => (s.localKey c (e.base + u.1) u.2, u.2))
  let bytes := us.flatMap (fun u => match u.1 with
    | some k => s.readClean own k u.2
    | none => zeros u.2)
  let s := us.foldl (fun (t : State) u => match u.1 with
    | some k => t.noteBad own k u.2
    | none => t) s
  let bad := us.zipIdx.filterMap (fun u => match u.1.1 with
    | some k => if s.anyBad own k u.1.2 then some u.2 else none
    | none => none)
  s.modCore c (fun k =>
    let rest := k.ocache.filter (fun l => l.key ≠ key)
    { k with ocache := rest.drop (rest.length - 255) ++ [⟨k.vf, s.gen k.vf, key, bytes, bad⟩] })

/-- The entry from which a line of a tensor is filled: that of the running nest's source, or of a prefetch, as long as no TDEF
has replaced it (R241). -/
def State.lineEntry (s : State) (c : Nat) (t : BitVec 12) : Option (List Byte) :=
  let fromNest := (s.core c).nest.bind (fun n =>
    if n.cfg.asrc = some (.tensor t) && !n.aent.isEmpty then some n.aent
    else if n.cfg.bsrc = some (.tensor t) && !n.bent.isEmpty then some n.bent else none)
  match fromNest with
  | some e => some e
  | none => (s.galleys.find? (fun g => g.2.core = c && (match g.2.job with
      | .pref e t' _ _ => t' = t && s.tensorBytes (s.core c).vf t = e
      | _ => false))).bind (fun g => match g.2.job with
        | .pref e _ _ _ => some e
        | _ => none)

def execOperandCacheFill (core : Nat) (key : LineKey) (s : State) : Host.Outcome State Fault Refusal :=
  .next (match s.lineEntry core key.tensor with
    | some e => s.fillLine core key (entOf e)
    | none => s)

/-- A line that hits (R142). -/
def State.line (s : State) (c : Nat) (key : LineKey) : Option OLine :=
  let k := s.core c
  k.ocache.find? (fun l => l.key = key && l.vf = k.vf && l.gen = s.gen k.vf)

/-! ## Operand elements (R138, R144) -/

/-- An operand element: lines that must be fetched first, or its value with whether it is uncorrectable. -/
inductive Elem
  | miss (keys : List LineKey)
  | val (v : Val) (bad : Bool)

def Elem.keys : Elem → List LineKey
  | .miss l => l
  | .val _ _ => []

def Elem.v : Elem → Val
  | .val v false => v
  | _ => Val.zero

def Elem.bad : Elem → Bool
  | .val _ b => b
  | _ => false

/-- One byte-sized or wider unit of a cached line. -/
def OLine.unit (l : OLine) (pos n : Nat) : Nat × Bool :=
  (leNat ((l.bytes.drop (pos - l.key.off)).take n), l.bad.contains ((pos - l.key.off) / n))

/-- A unit of a line that hits: R142 gives the bytes as they stood at the fill or as they stand, and which of the two is
free, one choice for a line in a nest. `base` is the address of the line's first unit. -/
def State.servedUnit (s : State) (c age : Nat) (l : OLine) (base addr pos n : Nat) : Nat × Bool :=
  if Config.cacheServes age c base then l.unit pos n
  else match s.localKey c addr n with
    | some k => (leNat (s.readClean (s.ownTag c) k n), s.anyBad (s.ownTag c) k n)
    | none => (0, false)

/-- Element (d0, d1, 0, 0) of a tensor source, widened to BF16. -/
def tensorElem (s : State) (c age : Nat) (t : BitVec 12) (e : Ent) (book : List (BitVec 16)) (d0 d1 : Int) : Elem :=
  if d0 < 0 || d1 < 0 || (e.sz 0 : Int) ≤ d0 || (e.sz 1 : Int) ≤ d1 then .val Val.zero false
  else
    let x := d0.toNat
    let y := d1.toNat
    let n := unitBytes e.fmt
    let pos := x / perUnit e.fmt * n
    let key : LineKey := ⟨t, false, y, 0, 0, pos - pos % 256⟩
    let skey : LineKey := ⟨t, true, y / 32, 0, 0, x - x % 256⟩
    let half := fun b : Nat => if x % 2 = 0 then b % 16 else b / 16
    match s.line c key, if e.fmt = 8 then s.line c skey else s.line c key with
    | some l, some sl =>
      let u := s.servedUnit c age l (e.base + e.unitOff (key.off / n) y 0 0) (e.base + e.unitOff (x / perUnit e.fmt) y 0 0) pos n
      if e.fmt = 8 then
        let sc := s.servedUnit c age sl (e.base + e.scaleOff + e.scaleIdx skey.off y 0 0)
          (e.base + e.scaleOff + e.scaleIdx x y 0 0) x 1
        .val (q4bVal (half u.1) sc.1 e.sbase).toBf16 (u.2 || sc.2)
      else if e.fmt = 9 then .val (bf16.decode (book.getD (half u.1) 0).toNat) u.2
      else .val (elemVal (BitVec.ofNat 8 e.fmt) u.1).toBf16 u.2
    | a, b => .miss ((if a.isNone then [key] else []) ++ (if e.fmt = 8 && b.isNone then [skey] else []))

/-- Whether the bytes of element (i, j) of a tile image are uncorrectable. -/
def tileBad (bad : List Nat) (i j : Nat) : Bool := badAt bad (8 * (64 * i + j)) 8 || badAt bad (0x2000 + 2 * (64 * i + j)) 2

/-- Element (i, j) of a view snapshot, or of an accumulator's (R138, R144). -/
def snapElem (acc : Bool) (fmt : Byte) (snap : List Byte) (bad : List Nat) (i j : Int) : Elem :=
  if i < 0 || j < 0 || 16 ≤ i || 64 ≤ j then .val Val.zero false
  else if acc then
    let r := wrow snap i.toNat
    .val (wval r.e (r.els.getD j.toNat (0, 0))).toBf16 (tileBad bad i.toNat j.toNat || badAt bad (0x2800 + 32 * i.toNat) 2)
  else
    let n := fmtSize fmt
    let p := (64 * i.toNat + j.toNat) * n
    .val (elemVal fmt (leNat ((snap.drop p).take n))).toBf16 (badAt bad p n)

/-- A(i, q) of the step: its place in the source and the element. -/
def aElem (s : State) (c : Nat) (n : NestRun) (i q : Nat) : (Int × Int) × Elem :=
  let r := n.cfg.aorgr.toInt + 16 * n.cfg.sum n.taken (fun l => l.arow.toInt) + (i : Int)
  let k := n.cfg.aorgk.toInt + n.cfg.sum n.taken (fun l => l.astep.toInt) + (q : Int)
  match n.cfg.asrc with
  | some (.tensor t) =>
    ((r, k), if n.aent.isEmpty then .val Val.zero false else tensorElem s c n.o.age t (entOf n.aent) n.cba k r)
  | some (.view _) => ((r, k), snapElem false n.cfg.afmt n.asnap n.abad r k)
  | some (.acc _) => ((r, k), snapElem true n.cfg.afmt n.asnap n.abad r k)
  | _ =>
    let j : Int := (4 * (n.taken % 16) + q : Nat)
    (((i : Int), j), snapElem false n.cfg.afmt n.block n.blockBad i j)

/-- B(q, j) of the step. -/
def bElem (s : State) (c : Nat) (n : NestRun) (q j : Nat) : (Int × Int) × Elem :=
  let k := n.cfg.borgk.toInt + n.cfg.sum n.taken (fun l => l.bstep.toInt) + (q : Int)
  let cl := n.cfg.borgc.toInt + 64 * n.cfg.sum n.taken (fun l => l.bcol.toInt) + (j : Int)
  match n.cfg.bsrc with
  | some (.tensor t) =>
    ((k, cl), if n.bent.isEmpty then .val Val.zero false else tensorElem s c n.o.age t (entOf n.bent) n.cbb cl k)
  | _ => ((k, cl), snapElem false n.cfg.bfmt n.bsnap n.bbad k cl)

/-! ## One step (R137) -/

/-- The name of a tensor source in MERRLOG. -/
def srcName : Option MSrc → Nat
  | some (.tensor t) => t.toNat
  | some (.view n) => 0x40 + n.toNat
  | some (.acc n) => 0x80 + n.toNat
  | some (.port n) => 0x90 + n.toNat
  | none => 0

/-- An entry of MERRLOG (R145). -/
def merrWord (kind dest source : Nat) (row col : Int) : Word :=
  BitVec.ofNat 64 (2 ^ 63 + kind * 2 ^ 59 + dest * 2 ^ 55 + source * 2 ^ 43 + lowBits 21 row * 2 ^ 22 + lowBits 22 col)

/-- The first error is logged, a later one sets MORE (R144). -/
def logErr (log e : Word) : Word := if log.getLsbD 63 then log ||| 0x4000000000000000 else e

/-- One row of the tile after a step; `cells` are the columns whose cells show a parity error, whose products are +0
(R144). -/
def stepRow (zp : Bool) (bErr : Bool) (cells : List Nat) (as : List Elem) (bs : List (List Elem)) (r : WRow) : WRow :=
  let av := as.map Elem.v
  let outs := (List.range 64).map (fun j =>
    wideAdd r.e (r.els.getD j (0, 0)) (List.zipWith (fun a (b : List Elem) =>
      if cells.contains j then Val.zero else (a.mul ((b.map Elem.v).getD j Val.zero)).1) av bs))
  let sum := if zp then wideAdd r.rse r.sum av else (r.sum, 0)
  { r with els := outs.map (fun x => x.1), sum := sum.1,
           status := r.status ||| orFlags (outs.map (fun x => x.2)) ||| sum.2 |||
             flagIf (bErr || as.any Elem.bad || !cells.isEmpty) stMerr }

/-- Whether the result of a register-space run owed by an earlier word of the matrix walker is still to come. -/
def Core.matOwed (k : Core) (c off n : Nat) : Bool :=
  k.agenda.any (fun e => match e.2 with
    | .vectorResultLands o key bs _ => o.walker = .M && runsMeet (keyRS c off, n) (key, bs.length)
    | _ => false)

/-- As `matOwed`, the words that still wait for their tiles among them. -/
def Core.matPending (k : Core) (c off n : Nat) : Bool :=
  k.matOwed c off n || k.matq.any (fun e => match e.op with
    | .rsum d _ _ => runsMeet (off, n) (d, 4096)
    | _ => false)

/-- What begins after an earlier word has performed on a tile. -/
def MatOp.writes : MatOp → Bool
  | .init _ | .zero | .norm => true
  | _ => false

/-- Row 0 of the views that a drain takes its scales and zero points from, as runs. -/
def MatOp.rows (op : MatOp) : List (Nat × Nat) :=
  match op with
  | .drain _ _ _ vs vz => (vs.map (fun v => (v, 256))).toList ++ (vz.map (fun v => (v, 64))).toList
  | _ => []

/-- The register-space runs of a nest's snapshots, by the bindings in force at its MGO (R74). -/
def nestSnaps (n : NestRun) : List (Nat × Nat) := n.arun.toList ++ n.brun.toList

/-- Whether an edge of R210 joins a job of the given ranges to an earlier galley or nest of the core. -/
def State.edgeHolds (s : State) (c age : Nat) (reads writes : List Rng) : Bool :=
  let meets := fun (a b : List Rng) => a.any (fun x => b.any (Rng.overlaps x))
  let joined := fun (r w : List Rng) => meets writes w || meets writes r || meets reads w
  s.galleys.any (fun g => g.2.core = c && g.2.o.age < age && joined g.2.reads g.2.writes)
  || (match (s.core c).nest with
    | some n => n.o.age < age && joined n.reads (n.tiles.map (fun t => ⟨keyRS c t.2, 12288⟩))
    | none => false)

/-- Whether a nest may begin: its edges have cleared, earlier words have done with its tiles, and its snapshots and
tiles are full (R138, R140). -/
def State.nestFree (s : State) (c : Nat) (n : NestRun) : Bool :=
  let k := s.core c
  let tiles := n.tiles.map (fun t => (t.2, 12288))
  let snaps := nestSnaps n
  !(s.edgeHolds c n.o.age n.reads (tiles.map (fun t => ⟨keyRS c t.1, 12288⟩)))
  && !(k.matq.any (fun e => e.o.age < n.o.age && (tiles.any (runsMeet (e.tile, 12288)) || e.op.rows.any (fun r => tiles.any (runsMeet r))
      || (e.op.writes && snaps.any (runsMeet (e.tile, 12288))))))
  && (tiles ++ snaps).all (fun r => s.full c r.1 r.2 && !(k.busyTiles.any (fun b => runsMeet r (b.1, b.2.1)))
      && !(k.matPending c r.1 r.2))

/-- A tile as the core reads it. -/
def State.tile (s : State) (c off : Nat) : List WRow := wtile (s.read (s.ownTag c) (keyRS c off) 0x2A00)

/-- A tile written under the core's tag. -/
def State.putTile (s : State) (c off : Nat) (t : List WRow) : State :=
  s.write (s.ownTag c) (keyRS c off) (tileBytes t)

/-- A tile written under the core's tag but for the row sums of some rows, whose bytes stay. -/
def State.putTileBut (s : State) (c off : Nat) (keep : Nat → Bool) (t : List WRow) : State :=
  s.write (s.ownTag c) (keyRS c off) (tileOver (s.read (s.ownTag c) (keyRS c off) 0x2A00) keep t)

/-- Elements of a tile to be added to whose bytes are uncorrectable, by row and column; column 64 is the row sum. DESIGN CHOICE
(log entry 67): R139 speaks of elements; an uncorrectable row sum counts as 0, sets MERR and is logged in the same way, with ZP
clear too. -/
def badCells (bad : List Nat) : List (Nat × Nat) :=
  if bad.isEmpty then []
  else (List.range 16).flatMap (fun i =>
    ((List.range 64).filter (tileBad bad i)).map (fun j => (i, j)) ++ (if badAt bad (0x2808 + 32 * i) 10 then [(i, 64)] else []))

/-- A row in which such elements are finite 0, with MERR (R139, R144). -/
def WRow.mend (r : WRow) (i : Nat) (cells : List (Nat × Nat)) : WRow :=
  if cells.any (fun x => x.1 = i) then
    { r with els := r.els.zipIdx.map (fun e => if cells.contains (i, e.2) then (0, 0) else e.1)
             sum := if cells.contains (i, 64) then (0, 0) else r.sum
             status := r.status ||| stMerr }
  else r

/-- A tile at the start of a nest with ACC = 1: what is uncorrectable in it counts as 0 and is logged (R139, R145). -/
def State.mendTile (s : State) (c : Nat) (t : Nat × Nat) : State :=
  let cells := badCells (s.badBytes (s.ownTag c) (keyRS c t.2) 0x2A00)
  if cells.isEmpty then s
  else (s.putTileBut c t.2 (fun i => !cells.contains (i, 64)) ((s.tile c t.2).zipIdx.map (fun r => r.1.mend r.2 cells))).modCore c (fun k => { k with
    merrlog := (cells.map (fun x => merrWord 5 t.1 (0x80 + t.1) x.1 x.2)).foldl logErr k.merrlog })

/-- The start of a nest: snapshots, and with ACC 0 cleared tiles (R138, R139). An empty one with ACC 1 changes nothing (R137). -/
def State.nestBegin (s : State) (c : Nat) (n : NestRun) : State × NestRun :=
  let own := s.ownTag c
  let snap := fun r : Option (Nat × Nat) => match r with
    | some r => s.read own (keyRS c r.1) (if r.2 = 12288 then 0x2A00 else r.2)
    | none => []
  let n1 := { n with asnap := snap n.arun, bsnap := snap n.brun, abad := s.badRuns own c n.arun.toList
                     bbad := s.badRuns own c n.brun.toList, started := true }
  let s1 := n.tiles.foldl (fun t e =>
    if n.acc then (if n.cfg.total = 0 then t else t.mendTile c e) else t.putTile c e.2 ((t.tile c e.2).map WRow.clear)) s
  (s1.modCore c (fun k => { k with nest := some n1 }), n1)

/-- The KIND of an uncorrectable operand in MERRLOG (R145). -/
def merrKind (isB : Bool) (m : Option MSrc) : Nat :=
  (match m with
    | some (.tensor _) => 0
    | _ => 2) + (if isB then 1 else 0)

/-- One step with its operands at hand: the tile is written, its row sums only with ZP, errors are logged, and the next step or
the end follows. DESIGN CHOICE (log entry 67): R145 gives KIND 0b100 the name of a register and does not say which; SOURCE is
the destination accumulator's. -/
def State.nestAdd (s : State) (c : Nat) (n : NestRun) (as bs : List (List ((Int × Int) × Elem))) : State :=
  let t := (n.cfg.dest.toNat + n.cfg.sum n.taken (fun l => l.cstep.toInt)).toNat
  let off := Tbl.get n.tiles t 0
  let cells := (s.core c).macBad
  let be := bs.map (·.map (fun x => x.2))
  let bErr := be.any (·.any Elem.bad)
  let rows := List.zipWith (fun (a : List ((Int × Int) × Elem) × Nat) r =>
      stepRow n.cfg.zp bErr ((cells.filter (fun x => x.1 = a.2)).map (fun x => x.2)) (a.1.map (fun x => x.2)) be r)
    as.zipIdx (s.tile c off)
  let log := fun (isB : Bool) (m : Option MSrc) (l : List (List ((Int × Int) × Elem))) =>
    (l.flatten.filter (fun x => x.2.bad)).map (fun x => merrWord (merrKind isB m) t (srcName m) x.1.1 x.1.2)
  let errs := log false n.cfg.asrc as ++ log true n.cfg.bsrc bs ++
    cells.map (fun x => merrWord 4 t (0x80 + t) x.1 x.2)
  let s1 := (s.putTileBut c off (fun _ => !n.cfg.zp) rows).modCore c (fun k => { k with
    nest := some { n with taken := n.taken + 1 }, macBad := [], merrlog := errs.foldl logErr k.merrlog })
  if n.taken + 1 = n.cfg.total then s1.later c 11 (.nestEnd c) else s1.later c 1 (.nestStep c)

/-- The port block of a step (R138, R141): none yet, a trap, or the nest with the block it uses. -/
inductive Block
  | wait (s : State)
  | trap (cls : TrapClass)
  | ready (s : State) (n : NestRun)

def State.nestBlock (s : State) (c : Nat) (n : NestRun) : Block :=
  match n.cfg.asrc with
  | some (.port p) =>
    if n.taken % 16 ≠ 0 then .ready s n
    else match popPort s c p with
      | .stall => .wait s
      | .trap t => .trap t
      | .fetch =>
        let g := s.grantDesc c n.o.age p
        .wait (if g.1 then g.2.startPrefetch c p else g.2)
      | .block _ runs bs t =>
        if runs.all (fun r => s.full c r.1 r.2) then
          let own := s.ownTag c
          let g := s.grant c n.o.age (runs.foldl (fun m r => m ||| banksOf r.1 r.2) ((s.core c).descBanks p))
          if g.1 then .ready (g.2.setPort c p t) { n with
              block := if runs.isEmpty then bs.1 else runs.flatMap (fun r => s.read own (keyRS c r.1) r.2)
              blockBad := if runs.isEmpty then bs.2 else s.badRuns own c runs }
          else .wait g.2
        else .wait s
  | _ => .ready s n

/-- The next step of a running nest: operands that miss are fetched and the step is tried again. -/
def State.nestGo (s : State) (c : Nat) (n : NestRun) : State :=
  let bs := (List.range 4).map (fun q => (List.range 64).map (bElem s c n q))
  let as0 := if isPort n.cfg.asrc then [] else (List.range 16).map (fun i => (List.range 4).map (aElem s c n i))
  let keys := ((as0 ++ bs).flatMap (·.flatMap (fun x => x.2.keys))).eraseDups
  if !keys.isEmpty then
    (keys.foldl (fun t k => t.later c 12 (.operandCacheFill c k)) s).later c 12 (.nestStep c)
  else match s.nestBlock c n with
    | .wait t => t.later c 1 (.nestStep c)
    | .trap cls => (s.later c 1 (.nestStep c)).takeTrap { n.o with post := 0, post2 := 0, rep := 0 } cls 0 0
    | .ready t n1 => t.nestAdd c n1 ((List.range 16).map (fun i => (List.range 4).map (aElem t c n1 i))) bs

/-- NEST_STEP: a nest that may not begin yet waits; the one that begins reads its snapshots in one grant and takes its first
step at once (R26, R137, R138, R140, R141). -/
def execNestStep (core : Nat) (s : State) : Host.Outcome State Fault Refusal :=
  match (s.core core).nest with
  | none => .next s
  | some n =>
    if n.started then .next (s.nestGo core n)
    else if !(s.core core).invalidating n.o.age && s.nestFree core n then
      let g := s.grant core n.o.age ((nestSnaps n).foldl (fun m r => m ||| banksOf r.1 r.2) 0#32)
      if g.1 then
        let (t, n1) := g.2.nestBegin core n
        .next (if n.cfg.total = 0 then t.later core 10 (.nestEnd core) else t.nestGo core n1)
      else .next (g.2.later core 1 (.nestStep core))
    else .next (s.later core 1 (.nestStep core))

/-! ## Words on tiles (R140, R148 to R155) -/

/-- Cycles a word on a tile takes from the time its tile is free (R34). -/
def MatOp.latency : MatOp → Nat
  | .init _ => 1
  | .zero => 8
  | .norm => 6
  | .stat _ _ | .rsum _ _ _ => 3
  | .drain _ _ _ vs vz => if vs.isSome || vz.isSome then 28 else 24

/-- What MINIT and MZERO make of a row (R148, R149). -/
def MatOp.row (op : MatOp) (r : WRow) : WRow :=
  let blank := List.replicate 16 (0 : Byte)
  match op with
  | .init e => { r with e := e, rse := e, sum := (0, 0), status := 0, res := blank }
  | .zero => { r with els := List.replicate 64 (0, 0), sum := (0, 0), status := 0, res := blank }
  | _ => r

/-- What MINIT, MZERO and MNORM write through the fixed port, from the tile's image: MINIT leaves the elements untouched (R125,
R148 to R150). -/
def State.matLand (s : State) (o : Origin) (off : Nat) (op : MatOp) : State :=
  let c := o.core
  let img := s.read (s.ownTag c) (keyRS c off) 0x2A00
  match op with
  | .init e => s.writeFixed o (keyRS c (off + 0x2800)) ((wtile img).flatMap (fun r => ((MatOp.init e).row r).block))
  | .norm => s.writeFixed o (keyRS c off) (normImage img)
  | op => s.writeFixed o (keyRS c off) (tileBytes ((wtile img).map op.row))

/-- The banks of what a word on a tile reads at the arbitrated ports (R26): the row words, or the tile. -/
def MatOp.banks (op : MatOp) (tile : Nat) : BitVec 32 :=
  match op with
  | .init _ | .zero => 0
  | .stat _ _ | .rsum _ _ _ => banksOf (tile + 0x2800) 512
  | .norm | .drain _ _ _ _ _ => BitVec.allOnes 32

/-- The run that a word on a tile writes. -/
def MatWait.target (e : MatWait) : Option (Nat × Nat) :=
  match e.op with
  | .init _ | .zero | .norm => some (e.tile, 12288)
  | .rsum off _ _ => some (off, 4096)
  | _ => none

/-- MSTAT's word (R151). -/
def statWord (t : List WRow) (row : Nat) : Word :=
  if row = 16 then (orFlags (t.map (fun r => r.status))).setWidth 64
  else match t[row]? with
    | some r => BitVec.ofNat 64 (lowBits 16 r.rse * 2 ^ 32 + lowBits 16 r.e * 2 ^ 16 + r.status.toNat)
    | none => 0

/-- MRSUM's elements (R152). -/
def rsumElems (t : List WRow) (mode : Rnd) (sat : Bool) : List Nat :=
  t.flatMap (fun r => List.replicate 64 (fp32.round mode sat (wval r.rse r.sum)).1)

/-- One drained element (R154). -/
def drainElem (fmt : Byte) (sat : Bool) (x sum : Val) (s z : Option Val) : Nat :=
  let x1 := match z with
    | some z => if z.isZero then x else (x.add (z.mul sum).1.negate).1
    | none => x
  let x2 := match s with
    | some s => (s.mul x1).1
    | none => x1
  let x3 := if x2.isZero then Val.zero else x2
  if fmt = 5 then (roundInt 8 .rne x3).1 else ((floatFmt fmt).round .rne sat x3).1

/-- A drained tile (R154). -/
def drainElems (t : List WRow) (fmt : Byte) (sat : Bool) (s z : Option (List Val)) : List Nat :=
  t.flatMap (fun r => r.els.zipIdx.map (fun e =>
    drainElem fmt sat (wval r.e e.1) (wval r.rse r.sum) (s.map (·.getD e.2 Val.zero)) (z.map (·.getD e.2 Val.zero))))

/-- Row 0 of a vector view, as values. -/
def State.viewRow0 (s : State) (c : Nat) (fmt : Byte) (off : Nat) : List Val :=
  (elems (fmtSize fmt) 64 (s.read (s.ownTag c) (keyRS c off) (64 * fmtSize fmt))).map (elemVal fmt)

/-- Removes a word from those that wait for their tiles. -/
def State.dropWait (s : State) (c : Nat) (e : MatWait) : State :=
  s.modCore c (fun k => { k with matq := k.matq.filter (fun x => x.o.age ≠ e.o.age) })

/-- Whether a register-space run is full, the granules of another run of the same word's aside (R125, R155). -/
def State.fullBut (s : State) (c : Nat) (r own : Nat × Nat) : Bool :=
  let tag := s.ownTag c
  ((s.core c).empty).all (fun g => !(runsMeet r (4 * g, 4)) || runsMeet own (4 * g, 4) || !tagOk tag (s.tagAt (keyRS c (4 * g))))

/-- Whether a word on a tile is held: by an earlier word or nest on what it reads or writes (R140), by an earlier MRSUM, as
fixed-port writes land in issue order (R125), or by bytes of its sources that are not full (R23, R155). -/
def State.matHeld (s : State) (c : Nat) (e : MatWait) : Bool :=
  let k := s.core c
  let uses := (e.tile, 12288) :: e.op.rows
  let isSum := fun op : MatOp => match op with
    | .rsum _ _ _ => true
    | _ => false
  k.matq.any (fun x => x.o.age < e.o.age && (runsMeet (e.tile, 12288) (x.tile, 12288) || (isSum x.op && isSum e.op)
    || (x.target.toList).any (fun w => (uses ++ e.target.toList).any (runsMeet w))
    || (e.target.toList).any (fun w => (x.op.rows).any (runsMeet w))))
  || (match k.nest with
    | some n => n.o.age < e.o.age && n.tiles.any (fun t => uses.any (runsMeet (t.2, 12288)))
    | none => false)
  || (match e.op with
    | .drain fmt _ off _ _ =>
      let own := (off, 1024 * fmtSize fmt)
      !(uses.all (fun r => s.fullBut c r own)) || e.op.rows.any (fun r => k.matOwed c r.1 r.2)
    | .init _ | .zero | .norm => k.matOwed c e.tile 12288
    | _ => false)

/-- A word on a tile that nothing holds reads what it needs and is on its way, or begins to write (R34). -/
def State.matStart (s : State) (c : Nat) (e : MatWait) : State :=
  let img := s.tile c e.tile
  match e.op with
  | .stat d row => (s.dropWait c e).later c e.op.latency (.scalarResultLands e.o d (statWord img row))
  | .rsum off mode sat => (s.dropWait c e).later c e.op.latency
      (.vectorResultLands e.o (keyRS c off) (unelems 4 (rsumElems img mode sat)) 0)
  | .drain fmt sat off vs vz => (s.dropWait c e).later c (e.op.latency - 1)
      (.longLatencyWriteComplete e.o off (unelems (fmtSize fmt)
        (drainElems img fmt sat (vs.map (s.viewRow0 c 1)) (vz.map (s.viewRow0 c 5)))))
  | op => s.modCore c (fun k => { k with matq := k.matq.map (fun x =>
      if x.o.age = e.o.age then { x with lands := some (k.time + op.latency) } else x) })

/-- One word that waits for its tile goes on, if it can: its reads take their banks together (R26), a writer lands. -/
def State.matTry (s : State) (c : Nat) (e : MatWait) : State :=
  let k := s.core c
  match e.lands with
  | some t => if t ≤ k.time then ((s.dropWait c e).matLand e.o e.tile e.op).finish e.o else s
  | none =>
    if s.matHeld c e || k.frozen.isSome then s
    else
      let g := s.grant c e.o.age (e.op.rows.foldl (fun m r => m ||| banksOf r.1 r.2) (e.op.banks e.tile))
      if g.1 then g.2.matStart c e else g.2

/-- The range scoreboard without the core's own nest, for which the words on tiles wait after issue. -/
def State.hitsBut (s : State) (c off n : Nat) : Bool :=
  (s.modCore c (fun k => { k with nest := none })).hits c (keyRS c off) n

/-- A word on a tile enters the wait for it: it is tried at once, and in each cycle after, in order of age (R27), until it is
on its way. -/
def tileWait (o : Origin) (tile : Nat) (op : MatOp) : Op Flow := do
  let e : MatWait := ⟨o, tile, op, none⟩
  modifyCore o (fun k => { k with matq := k.matq ++ [e] })
  modify (fun s => ((s.begin o).matTry o.core e).later o.core 1 (.bankArbitration o.core [⟨o.age, 0⟩]))
  return .seq

/-- A word that writes a tile (R148, R149, R150): unbound it raises RSVD (R123). -/
def tileWord (h : Hdr) (d : Name) (op : MatOp) (s : State) : Host.Outcome State Fault Refusal :=
  issue .M h 1 (fun o => do
    let s ← get
    let k ← getCore o
    match k.tileRun (accNum d) with
    | none => trapNow .rsvd 0 0
    | some r =>
      need (!(s.hitsBut o.core r.1 r.2) && s.full o.core r.1 r.2)
      demand (!k.inText r.1 r.2) .addr r.1
      tileWait o r.1 op) s

def execMinit (h : Hdr) (d : Name) (imm : BitVec 15) (s : State) : Host.Outcome State Fault Refusal :=
  tileWord h d (.init imm.toInt) s
def execMzero (h : Hdr) (d : Name) (s : State) : Host.Outcome State Fault Refusal := tileWord h d .zero s
def execMnorm (h : Hdr) (d : Name) (s : State) : Host.Outcome State Fault Refusal := tileWord h d .norm s

def execMstat (h : Hdr) (d a : Name) (row : BitVec 5) (s : State) : Host.Outcome State Fault Refusal :=
  issue .M h 1 (fun o => do
    let s ← get
    let k ← getCore o
    match k.tileRun (accNum a) with
    | none => do
      reserve o d
      trapNow .rsvd 0 0
    | some r =>
      need (!(s.hitsBut o.core r.1 r.2) && s.full o.core r.1 r.2)
      reserve o d
      tileWait o r.1 (.stat d row.toNat)) s

def execMrsum (h : Hdr) (sat : Bool) (rnd : Rnd) (d a : Name) (s : State) : Host.Outcome State Fault Refusal :=
  issue .M h 1 (fun o => do
    let s ← get
    let k ← getCore o
    let tile := k.tileRun (accNum a)
    let dv := destView s o.core d
    need (match tile with
      | some r => !(s.hitsBut o.core r.1 r.2) && s.full o.core r.1 r.2
      | none => true)
    need (match dv with
      | some (_, r) => !(s.hits o.core (keyRS o.core r.1) r.2) && s.full o.core r.1 r.2
      | none => true)
    match tile, dv with
    | some r, some (fmt, dr) => do
      demand (fmt = 1) .rsvd 0
      demand (!k.inText dr.1 dr.2) .addr dr.1
      tileWait o r.1 (.rsum dr.1 rnd sat)
    | _, _ => trapNow .rsvd 0 0) s

/-- The view-format code of an MDRAIN output format (R153). -/
def drainFmt (f : BitVec 3) : Byte := BitVec.ofNat 8 (f.toNat + 1)

/-- MDRAIN (R153, R155): the destination is empty from issue on, and the sources are read once the tile is free. -/
def execMdrain (h : Hdr) (te : Te) (fmt : BitVec 3) (zp sat : Bool) (d a : Name) (vs : Option (BitVec 6)) (s : State) :
    Host.Outcome State Fault Refusal :=
  issue .M h 1 (fun o => do
    let s ← get
    let k ← getCore o
    let tile := k.tileRun (accNum a)
    let dv := destView s o.core d
    let sv := vs.map (fun v => k.viewReg v)
    let zv := if zp then vs.map (fun v => k.viewReg (v + 1)) else none
    let rows := (sv.map (fun v => (v.run.1, 256))).toList ++ (zv.map (fun v => (v.run.1, 64))).toList
    need (match tile with
      | some r => !(s.hitsBut o.core r.1 r.2) && rows.all (fun r => !(s.hitsBut o.core r.1 r.2))
      | none => true)
    need (match dv with
      | some (_, r) => !(s.hits o.core (keyRS o.core r.1) r.2) && s.full o.core r.1 r.2
      | none => true)
    match tile, dv with
    | some r, some (df, dr) => do
      demand (df = drainFmt fmt) .rsvd 0
      demand (match sv with
        | some v => v.fmt = 1
        | none => true) .rsvd 0
      demand (match zv with
        | some v => v.fmt = 5
        | none => true) .rsvd 0
      if te.a && !(s.full o.core r.1 r.2) then trapNow .fe 0 0
      if te.b && !(rows.all (fun x => s.full o.core x.1 x.2)) then trapNow .fe 1 0
      demand (!k.inText dr.1 dr.2) .addr dr.1
      modify (fun t => t.markEmpty (t.ownTag o.core) o.core dr.1 dr.2)
      tileWait o r.1 (.drain df sat dr.1 (sv.map (fun v => v.run.1)) (zv.map (fun v => v.run.1)))
    | _, _ => trapNow .rsvd 0 0) s

/-- MERRQ (R146). DESIGN CHOICE (log entry 63): MERRLOG is read, and with .CLR cleared, in the cycle of issue. -/
def execMerrq (h : Hdr) (clr : Bool) (d : Name) (s : State) : Host.Outcome State Fault Refusal :=
  issue .M h 1 (fun o => do
    let k ← getCore o
    if clr then modifyCore o (fun k => { k with merrlog := 0 })
    resultLater o d 3 k.merrlog) s

/-- MCBLD (R156). -/
def execMcbld (h : Hdr) (d a : Name) (s : State) : Host.Outcome State Fault Refusal :=
  issue .M h 1 (fun o => do
    let x := (← srcX o (xNum a)).toNat
    let s ← get
    need (!(x % 32 = 0 && x + 32 ≤ 0x40000) || (s.full o.core x 32 && !(s.hits o.core (keyRS o.core x) 32)))
    demand (x % 32 = 0 && x + 32 ≤ 0x40000) .addr x
    claimBanks o (banksOf x 32)
    doneLater o 3 (.vectorResultLands o (keyBook o.core (match d with
      | .k n => n
      | _ => 0)) (s.read (s.ownTag o.core) (keyRS o.core x) 32) 0)) s

/-- MOCINV (R143). -/
def execMocinv (h : Hdr) (s : State) : Host.Outcome State Fault Refusal :=
  issue .M h 1 (fun o =>
    doneLater o 4 (.vectorResultLands o (keyCache o.core) [] 0)) s

/-- NEST_END (R141): the tiles leave the scoreboard, and what waits for them goes on. Lines of an entry that a TDEF
has replaced meanwhile do not outlive the nest (R142). -/
def execNestEnd (core : Nat) (s : State) : Host.Outcome State Fault Refusal :=
  match (s.core core).nest with
  | none => .next s
  | some n =>
    let vf := (s.core core).vf
    let stale := fun (m : Option MSrc) (e : List Byte) (k : Core) => match m with
      | some (.tensor t) => if !e.isEmpty && s.tensorBytes vf t ≠ e then k.dropTensor vf t else k
      | _ => k
    let s1 := s.modCore core (fun k =>
      Core.retry (stale n.cfg.asrc n.aent (stale n.cfg.bsrc n.bent { k with nest := none })))
    .next (s1.finish n.o)

end Sys2Proof.Machine
end

