-- ==== Sys2Proof/Machine/Galley.lean ====
section
/-! DEFINITION. Galleys: the card, the enqueue, translation, starting, moving lines, acceptance, the pool write
coalescer and retirement (R201 to R214, R223, R233, R236, R242, R284). -/

namespace Sys2Proof.Machine

/-! ## Keys of a plan that no memory holds -/

/-- A device virtual address of the pool (space 1) or the host (space 2). -/
def keyVirt (space va : Nat) : Nat := 2 ^ 60 + space * 2 ^ 56 + va
/-- Bytes that are zero. -/
def keyGap : Nat := 2 ^ 62
/-- A target that discards: void or stale entries (R119), by the address the entry gives. -/
def keyVoid (a : Nat) : Nat := 2 ^ 63 + a

def isVirt (k : Nat) : Bool := 2 ^ 60 ≤ k && k < 2 ^ 62
def isVoid (k : Nat) : Bool := 2 ^ 63 ≤ k
def virtSpace (k : Nat) : Nat := (k - 2 ^ 60) / 2 ^ 56
def virtAddr (k : Nat) : Nat := (k - 2 ^ 60) % 2 ^ 56

/-- Bytes of a galley line at a key: 128 in register space, 64 elsewhere (R230). -/
def lineSize (k : Nat) : Nat := if isRS k then 128 else 64

/-! ## The card (R201 to R203) -/

/-- A range word: its first byte and its length. -/
def cardRange (b : List Byte) (off : Nat) : Nat × Nat :=
  let w := field b off 8
  (w % 2 ^ 35, w / 2 ^ 35)

def readRanges (b : List Byte) : List (Nat × Nat) := [16, 24, 32, 40].map (cardRange b)
def writeRanges (b : List Byte) : List (Nat × Nat) := [48, 56].map (cardRange b)

/-- A scope by its encoding (R40). -/
def scopeOf (n : Nat) : Option Scope := [Scope.core, .chip, .ten, .dom, .sys][n]?

/-- The dispenser word's form (R203). -/
def dispOk (d : Nat) : Bool := if bitOf d 15 then bitsOf d 14 11 = 0 && (scopeOf (bitsOf d 10 8)).isSome else d = 0

/-- The card (R206). -/
def cardRecord (o : Origin) (card : Name) : Op (List Byte) := steppedRecord o card 64 64

/-- A declared range as runs of keys, in a core's register space or in the partition's vaults; none when it passes the
end of its space or the vault map (R202). -/
def State.rangeKeys (s : State) (v : BitVec 6) (rs : Option Nat) (r : Nat × Nat) : Option (List Rng) :=
  if r.2 = 0 then some []
  else match rs with
    | some c => if r.1 + r.2 ≤ 0x40000 then some [⟨keyRS c r.1, r.2⟩] else none
    | none => s.vaultRuns v r.1 r.2

/-- Ranges together; a bad one raises ADDR. -/
def declare (o : Origin) (l : List (Option Nat × (Nat × Nat))) : Op (List Rng) := do
  let s ← get
  match l.foldr (fun e acc => match s.rangeKeys (s.core o.core).vf e.1 e.2, acc with
      | some a, some b => some (a ++ b)
      | _, _ => none) (some []) with
  | some r => return r
  | none => trapNow .addr 0 0

/-- Whether ranges cover a run of bytes. -/
def coveredBy (rs : List Rng) : Nat → Rng → Bool
  | 0, r => r.len = 0
  | fuel + 1, r =>
    r.len = 0 || (match rs.find? (fun q => q.key ≤ r.key && r.key < q.key + q.len) with
      | some q => coveredBy rs fuel ⟨q.key + q.len, r.key + r.len - (q.key + q.len)⟩
      | none => false)

/-! ## Translation (R207 to R209) -/

/-- What a walk finds: the levels it read, and whether the page is 2 MiB, is writable, and where it is. -/
abbrev Walk := Nat × Option (Bool × Bool × Nat)

/-- The address bits that index a level. -/
def levelBits (l : Nat) : Nat × Nat := [(48, 4), (39, 9), (30, 9), (21, 9), (16, 5)].getD l (16, 5)

/-- A walk from a level down. -/
def walkFrom (s : State) (space : Nat) (write : Bool) (addr : Nat) : Nat → Nat → Nat → Walk
  | 0, l, _ => (l, none)
  | fuel + 1, l, table =>
    let ix := addr / 2 ^ (levelBits l).1 % 2 ^ (levelBits l).2
    let e := leNat (memRead s.mem (keyTable (table + 8 * ix)) 8)
    let leaf := bitOf e 1
    let a := bitsOf e 51 12 * 2 ^ 12
    if !(bitOf e 0) || bitsOf e 63 58 ≠ 0 || bitsOf e 55 52 ≠ 0 || bitsOf e 11 3 ≠ 0
      || bitsOf e 57 56 + 1 ≠ space || (leaf && l < 3) || (!leaf && l = 4) then (l + 1, none)
    else if leaf then
      if a % (if l = 3 then 2 ^ 21 else 2 ^ 16) ≠ 0 || (write && !(bitOf e 2)) then (l + 1, none)
      else (l + 1, some (l = 3, bitOf e 2, a))
    else walkFrom s space write addr fuel (l + 1) a

/-- The walk of a VF's tree, whose root is word v of Press's management memory (R207; log entry 10). -/
def State.walk (s : State) (v : BitVec 6) (space : Nat) (write : Bool) (addr : Nat) : Walk :=
  walkFrom s space write addr 5 0 (leNat (memRead s.mem (keyTable (8 * v.toNat)) 8))

/-- Whether an entry maps an address. -/
def TEnt.covers (t : TEnt) (space : Nat) (addr : Nat) : Bool :=
  t.space.toNat = space && (if t.big then t.page / 2 ^ 21 = addr / 2 ^ 21 else t.page / 2 ^ 16 = addr / 2 ^ 16)

/-- A hit under the reader's own tag (R208). -/
def State.translation (s : State) (c space addr : Nat) (write : Bool) : Option TEnt :=
  let k := s.core c
  k.tcache.find? (fun t => t.vf = k.vf && t.gen = s.gen k.vf && !t.gone && t.covers space addr && (!write || t.w))

/-- Translates pages: a fault raises TXLATE, a page that the cache does not hold is walked for, four walks at once in
a quarter. The answer is the entries to be held, by their names. -/
def translate (o : Origin) (pages : List (Nat × Nat × Bool)) : Op (List Nat) := do
  let s ← get
  let k ← getCore o
  match pages.find? (fun p => k.walkFault.contains (p.2.1, BitVec.ofNat 2 p.1, p.2.2)) with
  | some p => trapNow .txlate 0 p.2.1
  | none =>
    match pages.filter (fun p => (s.translation o.core p.1 p.2.1 p.2.2).isNone) with
    | [] => return (pages.filterMap (fun p => (s.translation o.core p.1 p.2.1 p.2.2).map (fun t => t.id))).eraseDups
    | missing =>
      let walks := s.agenda.filterMap (fun e => match e.2 with
        | .pageWalkComplete c _ sp w a => some (c, sp.toNat, a, w)
        | _ => none)
      match missing.find? (fun p => !walks.contains (o.core, p)) with
      | some p =>
        if (walks.filter (fun w => quarter w.1 = quarter o.core)).length < 4 then
          throw (.await (60 * (s.walk k.vf p.1 p.2.2 p.2.1).1) (.pageWalkComplete o.core k.vf (BitVec.ofNat 2 p.1) p.2.2 p.2.1))
        else stall
      | none => stall

/-- A walk ends: the translation enters the cache in place of one that no galley holds, or the fault is found by the
word that waits (R207 to R209). DESIGN CHOICE (log entry 68): of several that no galley holds the oldest gives way. -/
def execPageWalkComplete (core : Nat) (vf : BitVec 6) (space : BitVec 2) (write : Bool) (addr : Nat) (s : State) :
    Host.Outcome State Fault Refusal :=
  .next (match (s.walk vf space.toNat write addr).2 with
    | none => s.modCore core (fun k => { k with walkFault := k.walkFault ++ [(addr, space, write)] })
    | some (big, w, phys) =>
      let page := if big then addr / 2 ^ 21 * 2 ^ 21 else addr / 2 ^ 16 * 2 ^ 16
      s.modCore core (fun k =>
        let t : TEnt := ⟨vf, s.gen vf, space, page, big, w, phys, 0, false, k.nextTrans⟩
        let rest := k.tcache.filter (fun e => !(e.count = 0 && e.vf = vf && e.space = space && e.page = page && e.big = big))
        if rest.length < 256 then { k with tcache := rest ++ [t], nextTrans := k.nextTrans + 1 }
        else match rest.findIdx? (fun e => e.count = 0) with
          | some i => { k with tcache := rest.eraseIdx i ++ [t], nextTrans := k.nextTrans + 1 }
          | none => k))

/-- Whether an entry maps a page that Press removes. -/
def TEnt.removedBy (t : TEnt) (vf : BitVec 6) (page : Nat) : Bool :=
  t.vf = vf && (if t.big then t.page / 2 ^ 21 = page / 2 ^ 21 else t.page / 2 ^ 16 = page / 2 ^ 16)

/-- Matching entries of a core serve no new lookup; those that no galley holds are gone. -/
def Core.removePage (k : Core) (vf : BitVec 6) (page : Nat) : Core :=
  let marked := k.tcache.map (fun t => if t.removedBy vf page then { t with gone := true } else t)
  { k with tcache := marked.filter (fun t => !(t.gone && t.count = 0)) }

/-- Press removes a translation: the entries that match serve no new lookup from now on. The removal completes when the
last of them that a galley holds leaves, with that galley's retirement; an entry walked for later is not one of them
(R208). A core's cache stays with the core when its gang is displaced. -/
def execTranslationRemoval (vf : BitVec 6) (page : Nat) (s : State) : Host.Outcome State Fault Refusal :=
  .next { s with cores := s.cores.map (fun (e : Nat × Core) => (e.1, e.2.removePage vf page)) }

/-- 64 KiB pages that runs of device virtual addresses touch. -/
def pagesOf (space : Nat) (write : Bool) (runs : List (Nat × Nat)) : List (Nat × Nat × Bool) :=
  (runs.flatMap (fun r => if r.2 = 0 then [] else
    (List.range ((r.1 + r.2 - 1) / 2 ^ 16 + 1 - r.1 / 2 ^ 16)).map (fun i => (space, (r.1 / 2 ^ 16 + i) * 2 ^ 16, write)))).eraseDups

/-! ## Plans -/

def PieceSrc.len : PieceSrc → Nat
  | .mem ps => ps.foldl (fun a r => a + r.len) 0
  | .fill _ n => n
  | .data bs _ => bs.length
  | .pooled _ bs _ => bs.length

/-- Two lines that are parts of one target line, put together. -/
def Piece.join (p q : Piece) : Option Piece :=
  match p.src, q.src with
  | .mem a, .mem b =>
    if q.dst = p.dst + p.src.len && q.dst % lineSize q.dst ≠ 0 then some { p with src := .mem (a ++ b) } else none
  | _, _ => none

/-- Pieces of one target line put together. -/
def mergePieces (l : List Piece) : List Piece :=
  l.foldr (fun p acc => match acc with
    | q :: qs => match p.join q with
      | some r => r :: qs
      | none => p :: acc
    | [] => [p]) []

/-- A target byte by its offset: its key, its room within its line. -/
def State.targetKey (s : State) (v : BitVec 6) (live : Bool) (e : Ent) (off : Nat) : Nat :=
  if !live then keyVoid (e.base + off)
  else if e.space = 0 then (s.vaultKey v (e.base + off)).getD (keyVoid (e.base + off))
  else keyVirt e.space (e.base + off)

/-- Source bytes of a tensor by offset and length: zeros through an entry that is void or stale (R119). -/
def State.sourceParts (s : State) (v : BitVec 6) (live : Bool) (e : Ent) (off n : Nat) : List Rng :=
  if !live then [⟨keyGap, n⟩]
  else if e.space = 0 then (s.vaultRuns v (e.base + off) n).getD [⟨keyGap, n⟩]
  else [⟨keyVirt e.space (e.base + off), n⟩]

/-- A run of a tensor as pieces within its target lines, from source bytes given by offset and length. -/
def State.toTensor (s : State) (v : BitVec 6) (live : Bool) (e : Ent) (off n : Nat) (parts : Nat → Nat → List Rng) :
    List Piece :=
  (splitAt 64 (n / 64 + 2) (e.base + off) n).map (fun r =>
    let d := r.1 - (e.base + off)
    .of (.mem (parts d r.2)) (s.targetKey v live e (off + d)) (e.base + off + d) 0)

/-- The parts of source parts from an offset on. -/
def cutParts : List Rng → Nat → Nat → List Rng
  | [], _, _ => []
  | r :: rs, off, n =>
    if n = 0 then []
    else if r.len ≤ off then cutParts rs (off - r.len) n
    else
      let m := min n (r.len - off)
      ⟨if r.key = keyGap then keyGap else r.key + off, m⟩ :: cutParts rs 0 (n - m)

/-- A run of register space as pieces within its lines. -/
def toRegister (c off n : Nat) (parts : Nat → Nat → List Rng) : List Piece :=
  (splitAt 128 (n / 128 + 2) off n).map (fun r => .of (.mem (parts (r.1 - off) r.2)) (keyRS c r.1) 0 0)

/-- The source of one target byte of a piece. -/
def Piece.byteSrc (p : Piece) (a : Nat) : Option Rng :=
  match p.src with
  | .mem ps => if p.dst ≤ a then (cutParts ps (a - p.dst) 1).head? else none
  | _ => none

/-- Runs put together where one follows on the other. -/
def joinRuns (l : List Rng) : List Rng :=
  l.foldr (fun r acc => match acc with
    | q :: qs => if (if r.key = keyGap then q.key = keyGap else q.key = r.key + r.len) then ⟨r.key, r.len + q.len⟩ :: qs else r :: acc
    | [] => [r]) []

/-- The source of each byte of n at a target, from the pieces that write there: a byte that several write is the last one's,
and one that none writes has none. -/
def lineSources (l : List Piece) (key n : Nat) : List (Option Rng) :=
  (List.range n).map (fun i => l.reverse.findSome? (fun p => p.byteSrc (key + i)))

/-- Sources of single bytes put together, zeros where there is none. -/
def joinSources (l : List (Option Rng)) : PieceSrc := .mem (joinRuns (l.map (fun b => b.getD ⟨keyGap, 1⟩)))

/-- A whole line from the pieces that lie in it: a byte that none writes is zero (R336). -/
def wholeLine (key : Nat) (l : List Piece) : Piece := .of (joinSources (lineSources l key 64)) key (virtAddr key) 0

/-- The runs of places that are set, as offset and length. -/
def runsOf (l : List Bool) : List (Nat × Nat) :=
  (l.zipIdx.foldl (fun (a : List (Nat × Nat)) e =>
    if !e.1 then a
    else match a with
      | r :: rs => if r.1 + r.2 = e.2 then (r.1, r.2 + 1) :: rs else (e.2, 1) :: a
      | [] => [(e.2, 1)]) []).reverse

/-- The first key of the target line of a piece. -/
def Piece.line (p : Piece) : Nat := p.dst - p.dst % lineSize p.dst

/-- Whether a piece is its target line. -/
def Piece.whole (p : Piece) : Bool := p.dst = p.line && p.src.len = lineSize p.dst

/-- The pieces of one target line as one line that leaves what none of them writes as it is. -/
def oneLine (p : Piece) (l : List Piece) : Piece :=
  let n := lineSize p.dst
  let blank := (List.range n).map (fun i => !(l.any (fun q => q.dst ≤ p.line + i && p.line + i < q.dst + q.src.len)))
  let src := match p.src with
    | .fill b _ => .fill b n
    | _ => joinSources (lineSources l p.line n)
  { p with src := src, dst := p.line, va := p.va - (p.dst - p.line), holes := runsOf blank }

/-- A plan in which each target line that pieces fill in part is written once (R230). -/
def groupLines (l : List Piece) : List Piece :=
  let part := (l.filter (fun p => !p.whole)).map Piece.line
  (l.foldl (fun (a : List Piece × List Nat) p =>
    if !part.contains p.line then (p :: a.1, a.2)
    else if a.2.contains p.line then a
    else match l.filter (fun q => q.line = p.line) with
      | _ :: _ :: _ => (oneLine p (l.filter (fun q => q.line = p.line)) :: a.1, p.line :: a.2)
      | _ => (p :: a.1, a.2)) ([], [])).1.reverse

/-- The bytes that a line writes, as runs by their places in it. -/
def writtenRuns : Nat → List Byte → List (Nat × Nat) → List (Nat × List Byte)
  | off, bs, [] => if bs.isEmpty then [] else [(off, bs)]
  | off, bs, h :: hs =>
    (if h.1 = off then [] else [(off, bs.take (h.1 - off))]) ++ writtenRuns (h.1 + h.2) (bs.drop (h.1 + h.2 - off)) hs

/-! ## The enqueue (R206) -/

/-- What a galley word asks for, after its own checks: its job, the declared ranges, the on-module bytes it touches,
the pages, the lines to move, and the register-space ranges of its own core to be marked empty; `pool` that it names a
pool tensor (R400), `dests` further destinations in register space, marked empty only as they are written (R24). -/
structure Order where
  job : Job
  reads : List Rng
  writes : List Rng
  touchR : List Rng
  touchW : List Rng
  pages : List (Nat × Nat × Bool)
  plan : List Piece
  empties : List (Nat × Nat)
  stream : Bool
  counter : Option (BitVec 4)
  entry : Option (BitVec 12 × List Byte)
  coll : Option Coll := none
  pool : Bool := false
  dests : List (Nat × Nat) := []

/-- Changes the in-flight counts of translations, by their names; one that Press has removed leaves with the last. -/
def Core.holdPages (k : Core) (pages : List Nat) (f : Nat → Nat) : Core :=
  { k with tcache := (k.tcache.map (fun t =>
      if pages.contains t.id then { t with count := f t.count } else t)).filter (fun t => !(t.gone && t.count = 0)) }

/-- Registers a galley: its footprints stand from here on, its register-space targets on this core are empty, and it
starts when it can (R206, R236). -/
def registerGalley (o : Origin) (rel : Option Scope) (card : List Byte) (ord : Order) (pages : List Nat) :
    Op Flow := do
  let s ← get
  let k ← getCore o
  let id := s.nextGalley
  let g : Galley := { core := o.core, gang := k.gang, o := o, vf := k.vf, gen := s.gen k.vf, job := ord.job, reads := ord.reads,
                      writes := ord.writes, disp := BitVec.ofNat 16 (field card 4 2), rel := rel, exch := bitOf (field card 1 1) 0,
                      accepted := false, started := false, moved := false, plan := ord.plan, flight := [], lines := [], pages := pages,
                      stream := ord.stream, counter := ord.counter, code := 0, lastAt := 0, ack := 0, waitAck := 0, farAge := none }
  modify (fun s => { s with galleys := Tbl.put s.galleys id g, nextGalley := id + 1 })
  modifyCore o (fun k => k.holdPages pages (· + 1))
  modify (fun s => ord.empties.foldl (fun t r => t.markEmpty (t.ownTag o.core) o.core r.1 r.2) s)
  (match ord.entry with
    | some (t, b) => modify (fun s => { s with mem := memWrite s.mem (keyTensor k.vf.toNat t.toNat) b })
    | none => pure ())
  (match ord.coll with
    | some c => do
      modify (fun s => { s with colls := Tbl.put s.colls s.nextColl { c with galley := some id }, nextColl := s.nextColl + 1 })
      modifyCore o (fun k => if c.code = 0 then { k with groups := k.groups.map (fun e =>
        if e.1 = c.group.toNat then (e.1, { e.2 with seq := e.2.seq + 1 }) else e) } else k)
    | none => pure ())
  (match rel with
    | some sc => modify (fun s => s.after 0 (.releaseTakesEffect o sc o.age (.galley id)))
    | none => pure ())
  modify (fun s => (s.begin o).after 0 (.galleyStart id))
  return .seq

/-- A galley word's enqueue in the order of R206; the first step that fails raises its trap. The 64 galleys are those of
the core's present gang (log entry 64). DESIGN CHOICE (log entry 68): R206 gives a refused scope no place in its order; SCOPE is
raised before the RSVD checks of the kind itself. -/
def enqueue (o : Origin) (rel : Option Scope) (card : Name) (kind : Nat) (exch : Bool) (mk : List Byte → Op Order) :
    Op Flow := do
  let b ← cardRecord o card
  let k ← getCore o
  demand (k.ctx = .tenant) .addr 0
  let disp := field b 4 2
  demand (field b 0 1 = kind && field b 1 1 < (if kind = 0x0C then 1 else 2) && (!exch || field b 1 1 = 1) && dispOk disp
    && (readRanges b ++ writeRanges b).all (fun r => r.2 ≠ 0 || r.1 = 0)) .rsvd 0
  (match rel with
    | some sc => demandScope o sc
    | none => pure ())
  (match (if bitOf disp 15 then scopeOf (bitsOf disp 10 8) else none) with
    | some sc => demandScope o sc
    | none => pure ())
  let ord ← mk b
  let s ← get
  demand (ord.writes.all (fun r => !isRS r.key || !((s.core (rsCore r.key)).inText (rsOff r.key) r.len))) .addr 0
  demand (ord.touchR.all (coveredBy ord.reads 8) && ord.touchW.all (coveredBy ord.writes 8)) .addr 0
  demand (!(s.inReduced o.core && ord.pool)) .addr 0
  let pages ← translate o ord.pages
  need ((s.galleys.filter (fun g => g.2.core = o.core && g.2.gang = k.gang)).length < 64)
  need ((ord.empties ++ ord.dests).all (fun r => s.full o.core r.1 r.2))
  registerGalley o rel b ord pages

/-! ## Where a galley's core stands -/

/-- A change to a gang's core: where it stands, or in its saved image while another gang has the core (R316). -/
def State.modHome (s : State) (gang c : Nat) (f : Core → Core) : State :=
  if (s.core c).gang = gang then s.modCore c f
  else { s with saves := s.saves.map (fun e =>
    if e.2.core = c && e.2.gang = gang then (e.1, { e.2 with image := f e.2.image }) else e) }

def State.home (s : State) (gang c : Nat) : Core :=
  if (s.core c).gang = gang then s.core c
  else match s.saves.find? (fun e => e.2.core = c && e.2.gang = gang) with
    | some e => e.2.image
    | none => s.core c

/-- A semaphore post on a saved image. -/
def Core.postImage (k : Core) (tag : Tag) (o : Origin) (n : BitVec 4) : Core :=
  if n = 0 then k
  else
    let m := Tbl.get k.sems n.toNat ⟨voidTag, 0⟩
    let v := if tagOk tag m.tag then m.val else 0
    let k1 := { k with sems := Tbl.put k.sems n.toNat ⟨tag, min 255 (v + 1)⟩ }
    if v < 255 then k1 else { k1 with agenda := addDue (k.time + 1) (.trapFreeze o .sem n.toNat 0) k1.agenda }

/-- The completion of a word of a gang, wherever its core's state stands. -/
def State.finishHome (s : State) (gang : Nat) (o : Origin) : State :=
  if (s.core o.core).gang = gang then s.finish o
  else s.modHome gang o.core (fun k =>
    let tag : Tag := ⟨false, k.vf, s.gen k.vf⟩
    ((k.modW o.walker (fun v => { v with pend := v.pend - 1 })).postImage tag o o.post).postImage tag o o.post2)

/-! ## Timing (R242) -/

/-- The core whose site a key lies at; none for the pool, the host and zeros. -/
def siteOf (k : Nat) : Option Nat :=
  if isRS k then some (rsCore k) else if isVault k then some (k / 2 ^ 27) else none

/-- The path of a line: latency, cycles between landings, acknowledgement, and bytes sent per cycle. -/
structure Path where
  lat : Nat
  space : Nat
  ack : Nat
  rate : Nat

/-- The path between two sites of the module. -/
def pathOf (a b : Nat) (toRS : Bool) : Path :=
  if a = b then ⟨0, 0, 2, 128⟩
  else if quarter a ≠ quarter b then ⟨110, 1, 110, 64⟩
  else if toRS then ⟨4 * hops a b + 1, 2, 4 * hops a b, 128⟩
  else ⟨lineLatency a b, 1, lineLatency a b, 64⟩

/-- The core from which a galley of a core takes a line. -/
def Piece.site (core : Nat) (p : Piece) : Nat :=
  match p.src with
  | .mem ps => ((ps.filterMap (fun r => siteOf r.key)).find? (· ≠ core)).getD core
  | _ => core

def Piece.path (core : Nat) (p : Piece) : Path :=
  let d := (siteOf p.dst).getD core
  let src := p.site core
  if src ≠ d && src ≠ core then pathOf src d false else pathOf core d (isRS p.dst)

/-- The acknowledgement of a line once it has landed: in an exchange phase two uncore cycles a hop (R304). -/
def Piece.ackTime (p : Piece) (g : Galley) : Nat :=
  let a := p.site g.core
  match siteOf p.dst with
  | some d => if g.exch && d ≠ a && quarter d = quarter a then 4 * hops a d else (p.path g.core).ack
  | none => (p.path g.core).ack

/-- The cycles from which the lines of a plan may be sent, at the rate of their path. -/
def paced (core start : Nat) (l : List Piece) : List Piece :=
  (l.foldl (fun (a : Nat × List Piece) p =>
    let n := p.src.len
    let w := p.path core
    (a.1 + n, a.2 ++ [{ p with due := start + (a.1 + n + w.rate - 1) / w.rate }])) (0, [])).2

/-! ## Reading a line -/

/-- The physical key of a device virtual address, by the page that the galley holds (R208). -/
def State.physOf (s : State) (g : Galley) (k : Nat) : Nat :=
  let a := virtAddr k
  match (s.core g.core).tcache.find? (fun t => g.pages.contains t.id && t.covers (virtSpace k) a) with
  | some t =>
    let p := t.phys + (if t.big then a % 2 ^ 21 else a % 2 ^ 16)
    if virtSpace k = 1 then keyPool p else keyHost p
  | none => keyVoid a

/-- The eight interleave sets that Press configures (R397). DESIGN CHOICE (log entry 68): they stand in Press's management
memory after the roots of its translation tables, 16 bytes each: the set's first address, its length in 256-byte granules in
4 bytes, its first port, and the logarithm of the ports it spans. -/
def State.poolSets (s : State) : List (List Byte) := (List.range 8).map (fun i => memRead s.mem (keyTable (512 + 16 * i)) 16)

/-- Whether a pool physical address lies in an interleave set. -/
def inSet (a : Nat) (e : List Byte) : Bool :=
  field e 0 8 ≤ a && a < field e 0 8 + 256 * field e 8 4 && field e 13 1 ≤ 4

/-- The pool port of a pool line: consecutive granules of 256 bytes on consecutive ports of the set (R397); of an address that
lies in none, a free value. -/
def State.poolPort (s : State) (key : Nat) : Nat :=
  let a := key - 2 ^ 54
  match s.poolSets.find? (inSet a) with
  | some e => (field e 12 1 + (a - field e 0 8) / 256 % 2 ^ field e 13 1) % 16
  | none => Config.strayPort a % 16

def isPool (k : Nat) : Bool := 2 ^ 54 ≤ k && k < 2 ^ 55

/-- A line of the pool or the host as readers on the module see it, and whether it is uncorrectable: what the coalescer
holds of it over what the device has; a line of a port that is down, held not whole, is lost (R214, R233, R398). -/
def State.deviceLine (s : State) (key : Nat) : List Byte × Bool :=
  let l := (s.coalescer.filter (fun e => e.2.galley.isNone && e.2.key = key)).foldl (fun (a : List Byte × Bool) e =>
      (List.zipWith (fun (b : Byte) (h : Option Byte) => h.getD b) a.1 e.2.bytes,
        e.2.poison || (a.2 && !(e.2.bytes.all Option.isSome))))
    (memRead s.mem key 64, s.lineBad key || (isPool key && s.poolDown.contains (s.poolPort key)))
  if l.2 then (zeros 64, true) else l

/-- A line of an encrypted tensor, decrypted; a MAC that does not match is an uncorrectable error (R335), and a key
that is absent gives zeros (R329). -/
def State.plainLine (s : State) (g : Galley) (c : Crypt) (line : Nat) : List Byte × Bool :=
  let n := (line - c.base) / 64
  let cipher := s.deviceLine (s.physOf g (keyVirt 1 line))
  let m := c.base + c.extent + 8 * n
  let macs := s.deviceLine (s.physOf g (keyVirt 1 (m - m % 64)))
  if !c.live then (zeros 64, false)
  else if (macs.1.drop (m % 64)).take 8 = lineMac c.key c.tensor c.version n cipher.1 && !cipher.2 && !macs.2 then
    (cryptLine c.key c.tensor c.version n cipher.1, false)
  else (zeros 64, true)

/-- The encrypted source of a job. -/
def Job.crypt (j : Job) : Option Crypt :=
  match j with
  | .copy _ _ c _ => c
  | .gath _ _ _ c => c
  | _ => none

/-- The lines that a run of source bytes lies in. -/
def srcLines (r : Rng) : List Nat :=
  let n := lineSize r.key
  if r.key = keyGap || r.len = 0 then []
  else (List.range ((r.key % n + r.len + n - 1) / n)).map (fun i => r.key - r.key % n + n * i)

/-- A source line as it stands now, read whole (R230, R236): decrypted where its tensor is encrypted; uncorrectable where
what the galley reads of it is (R214). -/
def State.readLine (s : State) (g : Galley) (k : Nat) : SrcLine :=
  if isVirt k then
    let l := match g.job.crypt with
      | some c => s.plainLine g c (virtAddr k)
      | none => s.deviceLine (s.physOf g k)
    ⟨k, l.1, l.2⟩
  else
    let own : Tag := ⟨false, g.vf, g.gen⟩
    ⟨k, s.readClean own k (lineSize k),
      (s.badBytes own k (lineSize k)).any (fun i => g.reads.any (fun q => q.key ≤ k + i && k + i < q.key + q.len))⟩

/-- A source line that the galley has read already, else as it stands now. -/
def State.lineOf (s : State) (g : Galley) (k : Nat) : SrcLine :=
  (g.lines.find? (fun l => l.key = k)).getD (s.readLine g k)

/-- The bytes of one part of a line, from source lines read whole, and whether one of them is uncorrectable (R9, R214). -/
def State.partBytes (s : State) (g : Galley) (r : Rng) : List Byte × Bool :=
  if r.key = keyGap then (zeros r.len, false)
  else
    let ls := (srcLines r).map (s.lineOf g)
    (((ls.flatMap (fun l => l.bytes)).drop (r.key % lineSize r.key)).take r.len, ls.any (fun l => l.bad))

/-- The source lines of a piece that the galley has not read yet. -/
def Galley.fresh (g : Galley) (p : Piece) : List Nat :=
  match p.src with
  | .mem rs => ((rs.flatMap srcLines).filter (fun k => !(g.lines.any (fun l => l.key = k)))).eraseDups
  | _ => []

/-- Whether a piece takes bytes of a source line. -/
def Piece.takes (p : Piece) (k : Nat) : Bool :=
  match p.src with
  | .mem rs => rs.any (fun r => r.key ≠ keyGap && r.key < k + lineSize k && k < r.key + r.len)
  | _ => false

/-- The pool ports by which a source line comes, that of its MAC among them (R334). -/
def State.linePorts (s : State) (g : Galley) (k : Nat) : List Nat :=
  if !(isVirt k && virtSpace k = 1) then []
  else (s.physOf g k :: (match g.job.crypt with
      | some c => [s.physOf g (keyVirt 1 (c.base + c.extent + 8 * ((virtAddr k - c.base) / 64)))]
      | none => [])).filterMap (fun k => if isPool k then some (s.poolPort k) else none)

/-- The bytes of a line on its way. -/
def PieceSrc.got : PieceSrc → Option (List Byte × Bool)
  | .data bs x => some (bs, x)
  | .pooled _ bs x => some (bs, x)
  | _ => none

/-- Whether a source line can be read whole: of a line of register space every granule that the galley reads is full; the
galley's own targets do not hold it (R23, R24, R236, R238). -/
def State.lineReady (s : State) (g : Galley) (k : Nat) : Bool :=
  !isRS k || g.lines.any (fun l => l.key = k) || ((s.core (rsCore k)).frozen.isNone && (granules (rsOff k) 128).all (fun q =>
    let r : Rng := ⟨keyRS (rsCore k) (4 * q), 4⟩
    s.full (rsCore k) (4 * q) 4 || !(g.reads.any (Rng.overlaps r)) || g.writes.any (Rng.overlaps r)))

/-- Whether the lines of a run can be read. -/
def State.partReady (s : State) (g : Galley) (r : Rng) : Bool := (srcLines r).all (s.lineReady g)

/-! ## Landing a line -/

def State.modGalley (s : State) (id : Nat) (f : Galley → Galley) : State :=
  match Tbl.find s.galleys id with
  | some g => { s with galleys := Tbl.put s.galleys id (f g) }
  | none => s

/-- A line to the pool or the host: merged into one that the coalescer still holds, or a new one (R233). -/
def State.toDevice (s : State) (id : Nat) (g : Galley) (key va : Nat) (bytes : List (Option Byte)) (poison : Bool) : State :=
  let line := key - key % 64
  let cells := List.replicate (key % 64) none ++ bytes ++ List.replicate (64 - key % 64 - bytes.length) none
  let old := s.coalescer.find? (fun e => g.stream && e.2.key = line && !e.2.sent && e.2.galley.isNone)
  match old with
  | some (n, l) =>
    { s with coalescer := Tbl.put s.coalescer n { l with
        bytes := List.zipWith (fun (a b : Option Byte) => b.or a) l.bytes cells
        owners := l.owners ++ [(g.core, g.o.age, g.gang)], poison := poison || (l.poison && !(cells.all Option.isSome)) } }
  | none =>
    let n := s.nextLine
    let l : CoalLine := ⟨line, cells, va - va % 64, key < 2 ^ 54,
      [(g.core, g.o.age, g.gang)], g.vf, poison, false, if g.stream then none else some id⟩
    let s1 := { s with coalescer := Tbl.put s.coalescer n l, nextLine := n + 1 }
    let s2 := if g.stream then s1 else s1.modGalley id (fun g => { g with waitAck := g.waitAck + 1 })
    s2.after (if g.stream then Config.coalescerDelay n else 0) (.coalescerSend n)

/-- Poison marks on a line that was read with an uncorrectable error (R214): on the line, or on the granules of a
register-space line that the galley writes (log entry 62). -/
def State.mark (s : State) (key n : Nat) (poison : Bool) : State :=
  let ms := if isRS key then (granules key n).map (4 * ·) else [key - key % 64]
  if poison then { s with poison := ms ++ s.poison.filter (fun k => !ms.contains k) } else s

/-- Whether a register-space line of a galley or a PUT is written: its generation is current (R9, R284), and no byte of the
running text is (R71). -/
def State.lineStands (s : State) (key n : Nat) (vf : BitVec 6) (gen : BitVec 8) : Bool :=
  s.gen vf = gen && !((s.core (rsCore key)).inText (rsOff key) n)

/-- A register-space line of a galley or a PUT: written under its tag, with what then fills its granules, or discarded when its
generation is not current (R9, R194, R284). -/
def State.putLine (s : State) (key : Nat) (bytes : List Byte) (vf : BitVec 6) (gen : BitVec 8) (poison : Bool)
    (filled : State → State) : State :=
  if s.lineStands key bytes.length vf gen then filled ((s.write ⟨false, vf, gen⟩ key bytes).mark key bytes.length poison)
  else if s.gen vf ≠ gen then s.staleDrop vf 1
  else s

/-- A register-space line that lands: its granules are full from the next cycle on (R22, R34). -/
def State.writeLine (s : State) (key : Nat) (bytes : List Byte) (vf : BitVec 6) (gen : BitVec 8) (poison : Bool) : State :=
  s.putLine key bytes vf gen poison (fun t => t.modCore (rsCore key) (fun k =>
    { k with latches := k.latches ++ [.fill (rsOff key) bytes.length] }))

/-- A register-space line that cannot be written yet waits in the receive buffer of a frozen core (R284), or with the
saved state of a gang that another has displaced (R316). Where its gang has neither, nothing holds it. The line may be cut
into runs. -/
def State.heldAt (s : State) (gang c : Nat) (l : List HeldLine) : Option State :=
  let f := fun k : Core => { k with held := k.held ++ l }
  if (s.core c).gang ≠ gang && (Tbl.find s.saves (gang * 512 + c)).isSome then some (s.modHome gang c f)
  else if (s.core c).frozen.isSome then some (s.modCore c f)
  else none

/-- Whether no line that is still to come is discarded in the same 64-byte line of a void target: the line counts once
(R119, R308). -/
def Galley.lastVoid (g : Galley) (dst : Nat) : Bool :=
  !((g.flight.drop 1 ++ g.plan).any (fun p => isVoid p.dst && p.dst / 64 = dst / 64))

/-- A line that a galley writes poisoned counts in POISON of its core (R244). -/
def State.notePoison (s : State) (g : Galley) (poison : Bool) : State :=
  if poison then s.modHome g.gang g.core (fun k => { k with xpoison := satAdd 16 k.xpoison 1 }) else s

/-- A line reaches its target, or does not win its banks there, or finds its galley not yet accepted, and must be tried again
in the next cycle (R194). -/
def State.landLine (s : State) (id : Nat) (g : Galley) (p : Piece) (bytes : List Byte) (poison : Bool) : Except State State :=
  let dst := p.dst
  let runs := writtenRuns 0 bytes p.holes
  if isVoid dst then .ok (if g.lastVoid dst then s.voidDrop g.vf 1 else s)
  else if isVirt dst then
    let key := s.physOf g dst
    let s0 := s.notePoison g poison
    if isVoid key then .ok s
    else match g.job with
    | .copy _ _ _ (some c) =>
      if !c.live then .ok (s.voidDrop g.vf 1)
      else
        let n := (virtAddr dst - c.base) / 64
        let cipher := cryptLine c.key c.tensor c.version n bytes
        let m := c.base + c.extent + 8 * n
        .ok ((s0.toDevice id g key p.va (cipher.map some) poison).toDevice id g (s.physOf g (keyVirt 1 m)) m
          ((lineMac c.key c.tensor c.version n cipher).map some) false)
    | _ => .ok (s0.toDevice id g key p.va (bytes.zipIdx.map (fun b =>
        if p.holes.any (fun h => h.1 ≤ b.2 && b.2 < h.1 + h.2) then none else some b.1)) poison)
  else if isRS dst then
    let c := rsCore dst
    match s.heldAt g.gang c (runs.map (fun r => ⟨dst + r.1, r.2, g.vf, g.gen, poison, some id, none⟩)) with
    | some t => .ok (t.modGalley id (fun g => { g with waitAck := g.waitAck + runs.length }))
    | none =>
      if !g.accepted then .error s
      else match s.grant c (g.ageAt c) (runs.foldl (fun m r => m ||| banksOf (rsOff dst + r.1) r.2.length) 0) with
      | (false, t) => .error t
      | (true, t) => .ok (runs.foldl (fun (u : State) r => u.writeLine (dst + r.1) r.2 g.vf g.gen poison)
          (t.notePoison g (poison && runs.any (fun r => s.lineStands (dst + r.1) r.2.length g.vf g.gen))))
  else if s.gen g.vf ≠ g.gen then .ok (s.staleDrop g.vf 1)
  else .ok ((runs.foldl (fun (u : State) r => u.writeUser ⟨false, g.vf, g.gen⟩ (dst + r.1) r.2) (s.notePoison g poison)).mark dst
    bytes.length poison)

/-! ## Moving lines (R236) -/

/-- The cycle of the module in which a galley next has something to do: a line lands, or the next is sent, which is due
in a cycle of its core. -/
def Galley.next (g : Galley) (now time : Nat) : Option Nat :=
  match (g.flight.map (fun p => p.due)) ++ (g.plan.head?.map (fun p => now + (p.due - time))).toList with
  | [] => none
  | t :: ts => some (ts.foldl min t)

/-- What a galley waits for next: its next line, or, with none left, its retirement. -/
def State.galleyGo (s : State) (id : Nat) : State :=
  match Tbl.find s.galleys id with
  | none => s
  | some g => match g.next s.now (s.home g.gang g.core).time with
    | some t => s.after (t - s.now) (.galleyLineWrite id)
    | none => if g.job = .gxch then s.after (g.ack - s.now) (.gxchFetch id)
      else (s.modGalley id (fun g => { g with moved := true })).after (g.ack - s.now) (.galleyRetire id)

/-- The head of the plan is read and goes on its way: each source line that it takes bytes of and that has not been read
is read whole, and kept while a later line of the plan takes bytes of it (R230, R236). -/
def State.sendLine (s : State) (id : Nat) (g : Galley) (p : Piece) (ps : List Piece) : State :=
  let time := (s.core g.core).time
  let later := fun q : Piece => { q with due := max q.due (time + (q.due - p.due)) }
  let rest := match ps with
    | q :: qs => later q :: qs
    | [] => []
  let fresh := g.fresh p
  let (bytes, poison) := match p.src with
    | .mem rs =>
      let bs := rs.map (s.partBytes g)
      (bs.flatMap (fun b => b.1), bs.any (fun b => b.2))
    | .fill b n => (List.replicate n b, false)
    | .data bs x => (bs, x)
    | .pooled _ bs x => (bs, x)
  let w := p.path g.core
  let device := fresh.any isVirt
  let ports := fresh.flatMap (s.linePorts g)
  let lat := if g.exch || ports.any s.poolDown.contains then 0 else if device then Config.deviceDelay (s.now + p.dst) else w.lat
  let land := max (s.now + lat) (if g.exch then 0 else g.lastAt + w.space)
  let found := fresh.foldl (fun (t : State) k => t.noteBad ⟨false, g.vf, g.gen⟩ k 64) s
  found.modGalley id (fun g => { g with
    plan := rest, flight := g.flight ++ [{ p with src := if device then .pooled ports bytes poison else .data bytes poison, due := land, ack := p.ackTime g }]
    lastAt := land, lines := (g.lines ++ fresh.map (s.readLine g)).filter (fun l => rest.any (fun q => q.takes l.key)) })

/-- A line that has arrived is written, or the next line is read and sent (R236, R242, R284). -/
def moveLine (id : Nat) (s : State) : Host.Outcome State Fault Refusal :=
  match Tbl.find s.galleys id with
  | none => .next s
  | some g =>
    let again := fun t : State => Host.Outcome.next (t.after 1 (.galleyLineWrite id))
    match g.flight with
    | p :: fs =>
      if p.due ≤ s.now then
        match p.src.got with
        | some (bs, poison) =>
          match s.landLine id g p bs poison with
          | .error t => again t
          | .ok t => .next ((t.modGalley id (fun g => { g with
              flight := fs, ack := max g.ack (t.now + p.ack) })).galleyGo id)
        | none => again s
      else sendNext g again
    | [] => sendNext g again
where
  sendNext (g : Galley) (again : State → Host.Outcome State Fault Refusal) : Host.Outcome State Fault Refusal :=
    match g.plan with
    | p :: ps =>
      if (s.home g.gang g.core).time < p.due then .next (s.galleyGo id)
      else if (s.home g.gang g.core).frozen.isSome || (s.core g.core).gang ≠ g.gang then again s
      else match p.src with
        | .mem rs =>
          let b := ((g.fresh p).filter isRS).foldl (fun m k => m ||| banksOf (rsOff k) 128) 0
          if !(rs.all (s.partReady g)) then again s
          else match (if b = 0 then (true, s) else s.grant g.core g.o.age b) with
            | (true, t) => .next ((t.sendLine id g p ps).galleyGo id)
            | (false, t) => again t
        | _ => .next ((s.sendLine id g p ps).galleyGo id)
    | [] => .next (s.galleyGo id)

/-- The write ranges of a galley in other cores' register space. -/
def Galley.far (g : Galley) : List Rng := g.writes.filter (fun r => isRS r.key && rsCore r.key ≠ g.core)

/-- Whether the targets of a galley can accept it: they run, and no granule is empty (R194, R236). -/
def State.acceptable (s : State) (g : Galley) : Bool :=
  g.far.all (fun r => let k := s.core (rsCore r.key)
    k.frozen.isNone && k.gang = g.gang && s.full (rsCore r.key) (rsOff r.key) r.len)

/-- A galley is accepted: the granules of its targets become empty, and its line requests carry the age of this cycle there,
older than those of every word issued after it (R194). -/
def State.accept (s : State) (id : Nat) (g : Galley) : State :=
  (g.far.foldl (fun t r => t.markEmpty ⟨false, g.vf, g.gen⟩ (rsCore r.key) (rsOff r.key) r.len) s).modGalley id
    (fun g => { g with accepted := true, farAge := g.far.head?.map (fun r => (s.core (rsCore r.key)).time * 8 + 7) })

/-- GALLEY_ACCEPT: the header reaches the target, which accepts the galley once it can. A galley whose generation is no longer
current is accepted for its lines to be discarded, and one whose gang has been released for its lines to land (R9, R284). -/
def execGalleyAccept (id : Nat) (s : State) : Host.Outcome State Fault Refusal :=
  match Tbl.find s.galleys id with
  | none => .next s
  | some g =>
    if g.accepted then .next s
    else if s.gen g.vf ≠ g.gen || (s.gang g.gang).isNone then .next (s.modGalley id (fun g => { g with accepted := true }))
    else if s.acceptable g then .next (s.accept id g)
    else .next (s.after 1 (.galleyAccept id))

/-! ## The pool write coalescer (R233) and device lines -/

/-- A line to a pool port that is down counts as acknowledged, is lost, and counts in its galleys' POISON (R398). -/
def State.loseLine (s : State) (line : Nat) (l : CoalLine) : State :=
  let s1 : State := { s with coalescer := Tbl.del s.coalescer line }
  let s2 := l.owners.foldl (fun (t : State) w => t.modHome w.2.2 w.1 (fun k => { k with xpoison := satAdd 16 k.xpoison 1 })) s1
  match l.galley with
  | some id => (s2.modGalley id (fun g => { g with waitAck := g.waitAck - 1 })).after 0 (.galleyRetire id)
  | none => s2

/-- A line leaves for the pool or the host, after any earlier line to its address has been acknowledged. -/
def execCoalescerSend (line : Nat) (s : State) : Host.Outcome State Fault Refusal :=
  match Tbl.find s.coalescer line with
  | none => .next s
  | some l =>
    if s.coalescer.any (fun e => e.1 < line && e.2.key = l.key) then .next (s.after 1 (.coalescerSend line))
    else if !l.host && s.poolDown.contains (s.poolPort l.key) then
      .next (s.after 0 (.poolPortDown (BitVec.ofNat 4 (s.poolPort l.key))))
    else
      let bytes := l.bytes.map (fun b => b.getD 0)
      .next (({ s with coalescer := Tbl.put s.coalescer line { l with sent := true } }.send
        (if l.host then .hostLine l.key bytes else .poolLine l.key bytes)).after (Config.deviceDelay line) (.poolAck line))

/-- The device acknowledges a line: it has performed there at every scope (R217); a pool page it lies in is dirty
(R312). -/
def execPoolAck (line : Nat) (s : State) : Host.Outcome State Fault Refusal :=
  match Tbl.find s.coalescer line with
  | none => .next s
  | some l =>
    let old := memRead s.mem l.key 64
    let bytes := List.zipWith (fun (a : Byte) (b : Option Byte) => b.getD a) old l.bytes
    let whole := l.bytes.all Option.isSome
    let rec' := (s.vf l.vf.toNat).record
    let base := field rec' 560 8
    let page := (l.va - base) / 2 ^ 21
    let s1 := { s with mem := memWrite s.mem l.key bytes, coalescer := Tbl.del s.coalescer line,
                       poison := if whole then s.poison.filter (· ≠ l.key) else s.poison }
    let s2 := s1.mark l.key 64 l.poison
    let s3 := if !l.host && base ≤ l.va && page < field rec' 568 4 then
        s2.modVf l.vf.toNat (fun v => { v with dirty := page :: v.dirty.filter (· ≠ page) }) else s2
    .next (match l.galley with
      | some id => ((s3.modGalley id (fun g => { g with waitAck := g.waitAck - 1 }))).after 0 (.galleyRetire id)
      | none => s3)

/-! ## Retirement (R211, R223, R243) -/

/-- A completion in a counter of a core (R361, R370). -/
def Core.count (k : Core) (tag : Tag) (n : BitVec 4) (code : Byte) : Core :=
  let c := Tbl.get k.counters n.toNat ⟨voidTag, 0, 0, 0⟩
  let c := if tagOk tag c.tag then c else ⟨tag, 0, 0, 0⟩
  let c1 : Counter := { c with done := satAdd 32 c.done 1 }
  let c2 : Counter := if code = 0 then c1 else { c1 with errs := satAdd 16 c1.errs 1, last := code }
  { k with counters := Tbl.put k.counters n.toNat c2 }

/-- A completion counted where the core's state stands (R316, R388). -/
def State.countHome (s : State) (gang c : Nat) (n : BitVec 4) (code : Byte) : State :=
  s.modHome gang c (fun k => k.count ⟨false, k.vf, s.gen k.vf⟩ n code)

/-- An XFENCE whose galleys have all retired completes: the operand cache is emptied and the copy walker goes on. -/
def State.fenceDone (s : State) (gang c : Nat) : State :=
  match (s.home gang c).xfence with
  | none => s
  | some o =>
    if s.galleys.any (fun g => g.2.core = c && g.2.gang = gang && g.2.o.walker = .X && g.2.o.age < o.age) then s
    else ((s.modHome gang c (fun k => { k.goOn .X with
      ocache := [], xfence := none }))).finishHome gang o

/-- GALLEY_RETIRE: footprints leave, translation counts fall, a dispenser advance is sent, the post lands. -/
def execGalleyRetire (id : Nat) (s : State) : Host.Outcome State Fault Refusal :=
  match Tbl.find s.galleys id with
  | none => .next s
  | some g =>
    let fills := match g.job with
      | .pref _ t _ _ => (s.home g.gang g.core).agenda.any (fun e => match e.2 with
        | .operandCacheFill _ k => k.tensor = t
        | _ => false)
      | _ => false
    if fills then .next (s.after 1 (.galleyRetire id))
    else if !(g.plan.isEmpty && g.flight.isEmpty && g.started && g.waitAck = 0 && g.ack ≤ s.now) then .next s
    else
      let s1 := { s with galleys := Tbl.del s.galleys id }
      let s2 := (s1.modCore g.core (fun k => k.holdPages g.pages (· - 1))).modHome g.gang g.core Core.retry
      let s2 := match g.counter with
        | some n => s2.countHome g.gang g.core n g.code
        | none => s2
      let s3 := match (if g.disp.getLsbD 15 then scopeOf (bitsOf g.disp.toNat 10 8) else none) with
        | some sc => s2.after 0 (.releaseTakesEffect g.o sc (g.o.age + 1) (.advance g.gang (g.disp.setWidth 8) g.vf g.gen))
        | none => s2
      .next ((s3.finishHome g.gang g.o).fenceDone g.gang g.core)

/-- A held line has been written or discarded: its galley is told, or, with its last line, its PUT is answered. -/
def State.lineDone (s : State) (l : HeldLine) : State :=
  let s1 := match l.galley with
    | some id => ((s.modGalley id (fun g => { g with waitAck := g.waitAck - 1 })).after 0 (.galleyRetire id))
    | none => s
  match l.put with
  | some p => s1.after 0 (.putArrive p)
  | none => s1

/-- A held line whose galley its core could not accept yet is on its way again, after those that were held before it. -/
def State.returnLine (s : State) (id : Nat) (l : HeldLine) : State :=
  match Tbl.find s.galleys id with
  | none => s
  | some g =>
    let back := g.flight.takeWhile (fun p => p.due = 0)
    let t := s.modGalley id (fun g => { g with waitAck := g.waitAck - 1, moved := false
                                               flight := back ++ [.of (.data l.bytes l.poison) l.key 0 0] ++ g.flight.drop back.length })
    if g.moved then t.after 0 (.galleyLineWrite id) else t

/-- Held lines are written in order of arrival, or discarded, before the core issues: their granules are full for its first
word (R284, R317). A line of a galley that the core has not accepted is written once it is (R194). DESIGN CHOICE (log entry
68): a stale PUT that was held adds 1 to STALEDROP for each of its 64-byte lines, one that arrives unheld 1 for its packet. -/
def State.releaseHeld (s : State) (c : Nat) : State :=
  (s.core c).held.foldl (fun (t : State) (l : HeldLine) =>
    let g := l.galley.bind (fun id => (Tbl.find t.galleys id).map (fun g => (id, g)))
    let written := fun u : State => (u.putLine l.key l.bytes l.vf l.gen l.poison (fun v =>
      (match g with
        | some (_, g) => v.notePoison g l.poison
        | none => v).markFull c (rsOff l.key) l.bytes.length)).lineDone l
    match g with
    | some (id, g) =>
      if g.accepted || t.gen g.vf ≠ g.gen || (t.gang g.gang).isNone then written t
      else if t.acceptable g then written (t.accept id g)
      else t.returnLine id l
    | none => written t) (s.modCore c (fun k => { k with held := [] }))

end Sys2Proof.Machine
end

