-- ==== Sys2Proof/Machine/Copy.lean ====
section
/-! DEFINITION. The copy walker's words (R235 to R244) and the start of their galleys (R210, R236, R303, R304). -/

namespace Sys2Proof.Machine

/-! ## Entries as a galley resolves them -/

/-- Whether the entry that a galley resolved named bytes at its enqueue (R119). -/
def Ent.liveFor (e : Ent) (vf : BitVec 6) (gen : BitVec 8) : Bool :=
  e.fmt ≠ 0 && e.gen ≠ 0 && e.gen = gen.toNat && e.vf = vf.toNat

/-- The part of a tensor with d3 = 0. -/
def Ent.flat (e : Ent) : Ent := { e with size := e.size.take 3 ++ [1] }

/-- Runs of a tensor by key, when it lies in vaults and names bytes. -/
def State.touches (s : State) (v : BitVec 6) (live : Bool) (e : Ent) : List Rng :=
  if live && e.space = 0 then e.runs.flatMap (fun r => (s.vaultRuns v (e.base + r.1) r.2).getD []) else []

/-- Pages of a pool or host tensor that runs of it touch. -/
def Ent.pages (e : Ent) (live write : Bool) (runs : List (Nat × Nat)) : List (Nat × Nat × Bool) :=
  if live && e.space ≠ 0 then pagesOf e.space write (runs.map (fun r => (e.base + r.1, r.2))) else []

/-- The first byte and the extent of an encrypted tensor's lines (R333, R334). -/
def Ent.lineBase (e : Ent) : Nat := e.base - e.base % 64
def Ent.lineExtent (e : Ent) : Nat := (e.base + e.reach - e.lineBase + 63) / 64 * 64

/-- The pages of the part with d3 = 0 of an encrypted tensor and of the MACs of its lines (R239, R334). -/
def Ent.flatPages (e : Ent) (live : Bool) : List (Nat × Nat × Bool) :=
  if live then pagesOf e.space false [(e.lineBase, e.flat.lineExtent), (e.lineBase + e.lineExtent, e.flat.lineExtent / 8)] else []

/-- The runs of an encrypted tensor with its MAC region, as offsets from BASE's line. -/
def Ent.cryptPages (e : Ent) (live write : Bool) : List (Nat × Nat × Bool) :=
  if live then pagesOf e.space write [(e.lineBase, e.lineExtent + e.lineExtent / 8)] else []

/-- The key slot of a VF, under the reader's own tag (R329). -/
def State.keySlot (s : State) (v : BitVec 6) (n : Nat) : Option KeySlot :=
  match Tbl.find s.keys (v.toNat * 256 + n) with
  | some k => if tagOk ⟨false, v, s.gen v⟩ k.tag then some k else none
  | none => none

/-- The encrypted side of a copy, as resolved at enqueue. -/
def State.cryptOf (s : State) (v : BitVec 6) (t : BitVec 12) (e : Ent) (version : Nat) : Crypt :=
  let k := s.keySlot v e.keySlot
  { key := (k.map (fun k => k.key)).getD [], version := BitVec.ofNat 32 version, tensor := t, base := e.lineBase, extent := e.lineExtent, live := k.isSome }

/-! ## XCOPY (R237, R336) -/

/-- Corresponding runs of two tensors of one shape: source offset, target offset, length. -/
def copyRuns (a b : Ent) : List (Nat × Nat × Nat) :=
  let d32 := (List.range (a.sz 3)).flatMap (fun d3 => (List.range (a.sz 2)).map (fun d2 => (d2, d3)))
  if a.fmt = 10 then d32.map (fun d => (a.unitOff 0 0 d.1 d.2, b.unitOff 0 0 d.1 d.2, 12288))
  else
    let u := unitBytes a.fmt
    d32.flatMap (fun d => (List.range (a.sz 1)).flatMap (fun d1 =>
      if a.st 0 = u && b.st 0 = u then [(a.unitOff 0 d1 d.1 d.2, b.unitOff 0 d1 d.1 d.2, u * a.units)]
      else (List.range a.units).map (fun i => (a.unitOff i d1 d.1 d.2, b.unitOff i d1 d.1 d.2, u))))
    ++ (if a.fmt = 8 then [(a.scaleOff, b.scaleOff, a.scaleLen)] else [])

/-- The lines of a copy; an encrypted target is written whole, line by line (R336). -/
def State.copyPlan (s : State) (v : BitVec 6) (ls ld : Bool) (a b : Ent) : List Piece :=
  let ps := (copyRuns a b).flatMap (fun r => s.toTensor v ld b r.2.1 r.2.2 (fun d n => s.sourceParts v ls a (r.1 + d) n))
  if ld && b.enc then
    (List.range (b.lineExtent / 64)).map (fun i =>
      let key := keyVirt b.space (b.lineBase + 64 * i)
      wholeLine key (ps.filter (fun p => p.dst / 64 = key / 64)))
  else groupLines (mergePieces ps)

/-- XCOPY's own checks. -/
def copyOrder (o : Origin) (t : BitVec 12) (c : List Byte) : Op Order := do
  let s ← get
  let v := (s.core o.core).vf
  let arg := field c 2 2
  demand (arg < 4096 && field c 6 10 = 0) .rsvd 0
  let sb := s.tensorBytes v (BitVec.ofNat 12 arg)
  let db := s.tensorBytes v t
  let a := entOf sb
  let b := entOf db
  demand (a.fmt = b.fmt && a.size = b.size && a.block = b.block) .rsvd 0
  let ls := s.entryLive v sb
  let ld := s.entryLive v db
  demand (!(ld && b.ro)) .addr 0
  demand ((!(ls && a.space = 0) || s.extentMapped v a) && (!(ld && b.space = 0) || s.extentMapped v b)) .addr 0
  demand (!(ld && b.enc) || (b.version ≠ 2 ^ 32 - 1 && (match s.keySlot v b.keySlot with
    | some k => !k.sharing || k.publisher = v.toNat
    | none => true))) .addr 0
  let reads ← declare o ((readRanges c).map (fun r => (none, r)))
  let writes ← declare o ((writeRanges c).map (fun r => (none, r)))
  let version := BitVec.ofNat 32 (b.version + 1)
  return { job := .copy sb db (if ls && a.enc then some (s.cryptOf v (BitVec.ofNat 12 arg) a a.version) else none)
             (if ld && b.enc then some (s.cryptOf v t b (b.version + 1)) else none)
           reads := reads, writes := writes, touchR := s.touches v ls a, touchW := s.touches v ld b
           pages := (if a.enc then a.cryptPages ls false else a.pages ls false a.runs) ++
             (if b.enc then b.cryptPages ld true else b.pages ld true b.runs)
           plan := s.copyPlan v ls ld a b, empties := [], stream := ld && b.stream, counter := none
           entry := if ld && b.enc then some (t, db.take 12 ++ leBytes 4 version.toNat ++ db.drop 16) else none
           pool := (ls && a.space = 1) || (ld && b.space = 1) }

def execXcopy (h : Hdr) (rel : Option Scope) (card : Name) (t : BitVec 12) (s : State) :
    Host.Outcome State Fault Refusal :=
  issue .X h 1 (fun o => enqueue o rel card 1 false (copyOrder o t)) s

/-! ## XCOPYV (R238) -/

/-- The lines of a string of ranges. -/
def rangeLines (l : List (Nat × Nat)) : List Nat :=
  l.flatMap (fun r => (List.range (r.2 / 128)).map (fun i => r.1 + 128 * i))

def copyvOrder (o : Origin) (t : BitVec 12) (c : List Byte) : Op Order := do
  let s ← get
  let k := s.core o.core
  let d := field c 2 2
  let rd := readRanges c
  let wr := writeRanges c
  let total := fun (l : List (Nat × Nat)) => l.foldl (fun a r => a + r.2) 0
  demand (t = 0 && field c 6 10 = 0 && total rd = total wr && (rd ++ wr).all (fun r => r.1 % 128 = 0 && r.2 % 128 = 0)) .rsvd 0
  demand (d = o.core || (d < 256 && (s.core d).live && (s.core d).gang = k.gang && (s.core d).vf = k.vf)) .addr 0
  let reads ← declare o (rd.map (fun r => (some o.core, r)))
  let writes ← declare o (wr.map (fun r => (some d, r)))
  return { job := .copyv, reads := reads, writes := writes, touchR := [], touchW := [], pages := []
           plan := List.zipWith (fun a b => .of (.mem [⟨keyRS o.core a, 128⟩]) (keyRS d b) 0 0) (rangeLines rd) (rangeLines wr)
           empties := if d = o.core then wr.filter (fun r => r.2 ≠ 0) else []
           stream := false, counter := none, entry := none }

def execXcopyv (h : Hdr) (rel : Option Scope) (card : Name) (t : BitVec 12) (s : State) :
    Host.Outcome State Fault Refusal :=
  issue .X h 1 (fun o => enqueue o rel card 2 false (copyvOrder o t)) s

/-! ## XGATH and XSCAT (R239) -/

/-- Bytes of a row of a tensor as items hold it. -/
def Ent.rowBytes (e : Ent) : Nat := e.units * unitBytes e.fmt

/-- A Q4B tensor as its items hold it: codes without scales (R239; log entry 64). -/
def Ent.codes (e : Ent) : Ent := { e with fmt := if e.fmt = 8 then 9 else e.fmt }

/-- The checks that XGATH and XSCAT share: the tensor, COUNT and PITCH, and the ranges in register space. -/
def itemOrder (o : Origin) (scatter : Bool) (t : BitVec 12) (c : List Byte) : Op Order := do
  let s ← get
  let v := (s.core o.core).vf
  let count := field c 6 2
  let pitch := field c 8 4
  let rd := readRanges c
  let wr := writeRanges c
  let r := fun i : Nat => rd.getD i (0, 0)
  let w := fun i : Nat => wr.getD i (0, 0)
  let lst := if scatter then r 1 else r 0
  let items := if scatter then r 0 else w 0
  let tb := s.tensorBytes v t
  let e := (entOf tb).codes
  let live := s.entryLive v tb
  let away := live && e.space ≠ 0
  demand (field c 2 2 = t.toNat && count ≠ 0 && field c 12 4 = 0 && e.fmt ≠ 10 && pitch % 4 = 0 && e.rowBytes ≤ pitch
    && lst.2 = 8 * count && items.2 = count * pitch && lst.1 % 4 = 0 && items.1 % 4 = 0
    && (if scatter then (r 2).2 = 0 && (r 3).2 = 0 else (w 1).2 = 0)
    && !(away && (if scatter then (w 0).2 ≠ 0 || (w 1).2 ≠ 0 else (r 1).2 ≠ 0 || (r 2).2 ≠ 0 || (r 3).2 ≠ 0))) .rsvd 0
  demand (!(scatter && live && (e.ro || e.enc))) .addr 0
  demand (!(live && e.space = 0) || s.extentMapped v e.flat) .addr 0
  let own := some o.core
  let reads ← declare o (if scatter then [(own, r 0), (own, r 1)] else [(own, r 0), (none, r 1), (none, r 2), (none, r 3)])
  let writes ← declare o (if scatter then [(none, w 0), (none, w 1)] else [(own, w 0)])
  let flat := s.touches v live e.flat
  return { job := if scatter then .scat tb count pitch
             else .gath tb count pitch (if live && e.enc then some (s.cryptOf v t (entOf tb) (entOf tb).version) else none)
           reads := reads, writes := writes, touchR := if scatter then [] else flat, touchW := if scatter then flat else []
           pages := if !scatter && e.enc then (entOf tb).flatPages live else e.pages live scatter [(0, e.flat.reach)]
           plan := [], empties := if scatter then [] else [items], stream := scatter && live && e.stream, counter := none
           entry := none, pool := live && e.space = 1 }

def execXgath (h : Hdr) (rel : Option Scope) (card : Name) (t : BitVec 12) (s : State) :
    Host.Outcome State Fault Refusal :=
  issue .X h 1 (fun o => enqueue o rel card 3 false (itemOrder o false t)) s

def execXscat (h : Hdr) (rel : Option Scope) (card : Name) (t : BitVec 12) (s : State) :
    Host.Outcome State Fault Refusal :=
  issue .X h 1 (fun o => enqueue o rel card 4 false (itemOrder o true t)) s

/-- The entries of an index list: (d1, d2). -/
def indexList (bs : List Byte) : List (Nat × Nat) := (elems 8 (bs.length / 8) bs).map (fun w => (w % 2 ^ 32, w / 2 ^ 32))

/-- The lines of a gather, item by item: the row, or zeros for an index outside the sizes, then zeros to PITCH. -/
def State.gatherPlan (s : State) (g : Galley) (e : Ent) (pitch items : Nat) (idx : List (Nat × Nat)) : List Piece :=
  let live := e.liveFor g.vf g.gen
  let u := unitBytes e.fmt
  mergePieces (idx.zipIdx.flatMap (fun x =>
    let row := if x.1.1 < e.sz 1 && x.1.2 < e.sz 2 then
        (if e.st 0 = u then s.sourceParts g.vf live e (e.unitOff 0 x.1.1 x.1.2 0) e.rowBytes
         else (List.range e.units).flatMap (fun i => s.sourceParts g.vf live e (e.unitOff i x.1.1 x.1.2 0) u))
      else [⟨keyGap, e.rowBytes⟩]
    let all := row ++ [⟨keyGap, pitch - e.rowBytes⟩]
    toRegister g.core (items + x.2 * pitch) pitch (cutParts all)))

/-- The lines of a scatter, in the order of the list. -/
def State.scatterPlan (s : State) (g : Galley) (e : Ent) (pitch items : Nat) (idx : List (Nat × Nat)) : List Piece :=
  let live := e.liveFor g.vf g.gen
  let u := unitBytes e.fmt
  groupLines (idx.zipIdx.flatMap (fun x =>
    if x.1.1 < e.sz 1 && x.1.2 < e.sz 2 then
      let item := keyRS g.core (items + x.2 * pitch)
      if e.st 0 = u then s.toTensor g.vf live e (e.unitOff 0 x.1.1 x.1.2 0) e.rowBytes (fun d n => [⟨item + d, n⟩])
      else (List.range e.units).flatMap (fun i =>
        s.toTensor g.vf live e (e.unitOff i x.1.1 x.1.2 0) u (fun d n => [⟨item + i * u + d, n⟩]))
    else []))

/-! ## XFILL (R240) -/

def fillOrder (o : Origin) (t : BitVec 12) (c : List Byte) : Op Order := do
  let b := field c 2 1
  let rs := bitOf (field c 6 1) 0
  let wr := writeRanges c
  demand (t = 0 && field c 3 1 = 0 && field c 6 1 < 2 && field c 7 9 = 0 && (readRanges c).all (fun r => r.1 = 0 && r.2 = 0)
    && (!rs || wr.all (fun r => r.1 % 4 = 0 && r.2 % 4 = 0))) .rsvd 0
  let writes ← declare o (wr.map (fun r => (if rs then some o.core else none, r)))
  return { job := .fill (BitVec.ofNat 8 b), reads := [], writes := writes, touchR := [], touchW := [], pages := []
           plan := groupLines (writes.flatMap (fun r => (splitAt (lineSize r.key) (r.len / 64 + 2) r.key r.len).map (fun p =>
             .of (.fill (BitVec.ofNat 8 b) p.2) p.1 0 0)))
           empties := if rs then wr.filter (fun r => r.2 ≠ 0) else []
           stream := false, counter := none, entry := none }

def execXfill (h : Hdr) (rel : Option Scope) (card : Name) (t : BitVec 12) (s : State) :
    Host.Outcome State Fault Refusal :=
  issue .X h 1 (fun o => enqueue o rel card 5 false (fillOrder o t)) s

/-! ## XPREF (R241) -/

/-- The lines that a prefetch fills. -/
def prefLines (e : Ent) (t : BitVec 12) (first count : Nat) : List LineKey :=
  let rows := (List.range (min (first + count) (e.sz 1) - first)).map (· + first)
  let cuts := fun n : Nat => (List.range ((n + 255) / 256)).map (· * 256)
  rows.flatMap (fun d1 => (cuts e.rowBytes).map (fun off => ⟨t, false, d1, 0, 0, off⟩)) ++
    (if e.fmt = 8 then ((rows.map (· / 32)).eraseDups).flatMap (fun b => (cuts (e.sz 0)).map (fun off => ⟨t, true, b, 0, 0, off⟩))
     else [])

/-- XPREF's own checks. Its table gives no write ranges and the spec says nothing of a card that has some; they are
accepted and stand as footprints of the vault (log entry 64). -/
def prefOrder (o : Origin) (t : BitVec 12) (c : List Byte) : Op Order := do
  let s ← get
  let v := (s.core o.core).vf
  let first := field c 6 4
  let count := field c 10 2
  let tb := s.tensorBytes v t
  let e := entOf tb
  let live := s.entryLive v tb
  demand (field c 2 2 = t.toNat && count ≠ 0 && field c 12 4 = 0) .rsvd 0
  demand (!live || (e.space = 0 && s.extentLocal o.core e)) .addr 0
  let reads ← declare o ((readRanges c).map (fun r => (none, r)))
  let writes ← declare o ((writeRanges c).map (fun r => (none, r)))
  let touched := if live then (prefLines e t first count).flatMap (fun k => (lineUnits e k).flatMap (fun u =>
      (s.vaultRuns v (e.base + u.1) u.2).getD [])) else []
  return { job := .pref (if live then tb else []) t first count, reads := reads, writes := writes, touchR := touched
           touchW := [], pages := [], plan := [], empties := [], stream := false, counter := none, entry := none }

def execXpref (h : Hdr) (card : Name) (t : BitVec 12) (s : State) : Host.Outcome State Fault Refusal :=
  issue .X h 1 (fun o => enqueue o none card 6 false (prefOrder o t)) s

/-! ## XFENCE and XSTAT (R243, R244) -/

def execXfence (h : Hdr) (s : State) : Host.Outcome State Fault Refusal :=
  issue .X h 1 (fun o => do
    let s ← get
    if s.galleys.any (fun g => g.2.core = o.core && g.2.o.walker = .X && g.2.gang = (s.core o.core).gang) then
      modify (fun t => (t.begin o).modCore o.core (fun k => { k.modW .X (fun v => { v with blocked := true }) with xfence := some o }))
      return .seq
    else doneLater o 1 (.vectorResultLands o (keyCache o.core) [] 0)) s

def execXstat (h : Hdr) (clr : Bool) (d : Name) (s : State) : Host.Outcome State Fault Refusal :=
  issue .X h 1 (fun o => do
    let s ← get
    let k ← getCore o
    let n := (s.galleys.filter (fun g => g.2.core = o.core && g.2.gang = k.gang)).length
    if clr then modifyCore o (fun k => { k with xpoison := 0, xoor := 0 })
    resultLater o d 3 (BitVec.ofNat 64 (k.xpoison * 2 ^ 32 + k.xoor * 2 ^ 16 + n))) s

/-! ## The start of a copy galley -/

/-- A core's index in a gang. -/
def Gang.index (g : Gang) (c : Nat) : Option Nat := g.cores.findIdx? (· = c)

/-- The links that a line crosses between two cores of a quarter, in order: along a row, along a column, or, where both
remain, as Config.lateralRow says (log entry 64). -/
def lateralPath (a b : Nat) : Nat → Nat → List (Nat × Nat)
  | 0, _ => []
  | fuel + 1, c =>
    if quarter a ≠ quarter b || c = b then []
    else
      let col := c % 8 ≠ b % 8 && (c / 8 = b / 8 || Config.lateralRow a b fuel)
      let d := if col then (if c % 8 < b % 8 then c + 1 else c - 1) else (if c < b then c + 8 else c - 8)
      (c, d) :: lateralPath a b fuel d

/-- The first n cycles from t on that no busy interval takes, as intervals. -/
def freeRuns : Nat → Nat → Nat → List (Nat × Nat) → List (Nat × Nat)
  | 0, t, n, _ => [(t, n)]
  | fuel + 1, t, n, busy =>
    if n = 0 then []
    else match busy.find? (fun b => b.1 ≤ t && t < b.1 + b.2) with
      | some b => freeRuns fuel (b.1 + b.2) n busy
      | none =>
        let m := busy.foldl (fun a b => if t < b.1 then min a (b.1 - t) else a) n
        (t, m) :: freeRuns fuel (t + m) (n - m) busy

/-- The uncore cycles of the phase in which the lines of each slot set out. A line crosses a link every second cycle; the
lines of a slot wait while an earlier slot of the table has a link that they share (R304). -/
def Phase.departures (ph : Phase) (gv : Gang) : List (List (Nat × Nat)) :=
  (ph.slots.foldl (fun (a : List (List (Nat × Nat)) × List ((Nat × Nat) × Nat × Nat)) e =>
    let src := gv.cores.getD e.2.1 0
    let path := (lateralPath src (gv.cores.getD e.2.2.1 0) 14 src).zipIdx
    let busy := a.2.flatMap (fun b => path.filterMap (fun l =>
      if l.1 = b.1 && 2 * l.2 < b.2.1 + b.2.2 then some (b.2.1 - 2 * l.2, b.2.1 + b.2.2 - 2 * l.2 - (b.2.1 - 2 * l.2)) else none))
    let runs := freeRuns (2 * busy.length + 2) e.1 e.2.2.2 busy
    (a.1 ++ [runs], a.2 ++ path.flatMap (fun l => runs.map (fun r => (l.1, r.1 + 2 * l.2, r.2))))) ([], [])).1

/-- The n-th cycle of a list of intervals. -/
def nthCycle : List (Nat × Nat) → Nat → Nat
  | [], n => n
  | r :: rs, n => if n < r.2 then r.1 + n else nthCycle rs (n - r.2)

/-- Whether a slot carries lines from one gang index to another. -/
def slotFor (e : Nat × Nat × Nat × Nat) (a b : Nat) : Bool := e.2.1 = a && e.2.2.1 = b

/-- The slot that carries a galley's next line from one gang index to another (R304): that which the galley has taken,
while it carries more, else the first that no galley has taken; with the number of the line in it. -/
def Phase.slot (p : Phase) (cur : List (Nat × Nat)) (a b : Nat) : Option (Nat × Nat) :=
  let mine := cur.find? (fun e => match p.slots[e.1]? with
    | some t => slotFor t a b && e.2 < t.2.2.2
    | none => false)
  mine.or ((p.slots.zipIdx.find? (fun e => slotFor e.1 a b && !p.used.contains e.2 && e.1.2.2.2 ≠ 0)).map (fun e => (e.2, 0)))

/-- Pieces in the order in which they land. -/
def insertDue (p : Piece) : List Piece → List Piece
  | [] => [p]
  | q :: qs => if p.due < q.due then p :: q :: qs else q :: insertDue p qs

/-- The lines of an exchange galley with the cycles of its core in which they land, in that order: by the table's slots,
or after its length at the ordinary rates (R304). `start` is the core's cycle in which the phase began. -/
def exchPlan (gv : Gang) (ph : Phase) (g : Galley) (start : Nat) : List Piece × Phase :=
  let out := ph.departures gv
  let r := g.plan.foldl (fun (a : List Piece × List Piece × Phase × List (Nat × Nat)) p =>
    let d := (siteOf p.dst).getD g.core
    let src := p.site g.core
    match (gv.index src).bind (fun i => (gv.index d).bind (fun j => a.2.2.1.slot a.2.2.2 i j)) with
    | some (n, line) =>
      (insertDue { p with due := start + 2 * (nthCycle (out.getD n []) line + 2 * hops src d) } a.1, a.2.1,
        { a.2.2.1 with used := n :: a.2.2.1.used.filter (· ≠ n) }, (n, line + 1) :: a.2.2.2.filter (fun e => e.1 ≠ n))
    | none => (a.1, a.2.1 ++ [p], a.2.2)) ([], [], ph, [])
  let rest := (paced g.core (start + 2 * ph.len) r.2.1).foldl (fun (a : Nat × List Piece) p =>
    let w := p.path g.core
    let due := max (p.due + w.lat) a.1
    (due + w.space, a.2 ++ [{ p with due := due }])) (0, [])
  (r.1 ++ rest.2, r.2.2.1)

/-- The register-space range that holds an index list. -/
def Job.listRange (j : Job) (reads : List Rng) : Option Rng :=
  match j with
  | .gath _ count _ _ => reads.find? (fun r => isRS r.key && r.len = 8 * count)
  | .scat _ _ _ => (reads.filter (fun r => isRS r.key))[1]?
  | _ => none

/-- A full index list is read through the arbitrated ports, up to all banks a grant (R23, R26): its bytes with the grant that
reads the last of them; what is read before stays with the galley. -/
def State.readList (s : State) (id : Nat) (g : Galley) (r : Rng) : Option (List Byte) × State :=
  let c := rsCore r.key
  let parts := grantRuns (rsOff r.key) r.len
  match parts[g.lines.length]? with
  | none => (none, s)
  | some p =>
    if !(s.full c (rsOff r.key) r.len) then (none, s)
    else match s.grant c g.o.age (banksOf p.1 p.2) with
      | (false, t) => (none, t)
      | (true, t) =>
        let lines := g.lines ++ [⟨keyRS c p.1, s.read ⟨false, g.vf, g.gen⟩ (keyRS c p.1) p.2, false⟩]
        if lines.length = parts.length then
          (some (lines.flatMap (fun l => l.bytes)), t.modGalley id (fun g => { g with lines := [] }))
        else (none, t.modGalley id (fun g => { g with lines := lines }))

/-- The lines of a galley with its index list, and the entries out of range. -/
def State.startPlan (s : State) (g : Galley) (list : List Byte) : List Piece × Nat :=
  let idx := indexList list
  let oor := fun e : Ent => (idx.filter (fun x => !(x.1 < e.sz 1 && x.2 < e.sz 2))).length
  match g.job with
  | .gath tb _ pitch _ =>
    let items := ((g.writes.head?).map (fun w => rsOff w.key)).getD 0
    (s.gatherPlan g (entOf tb) pitch items idx, oor (entOf tb))
  | .scat tb _ pitch =>
    let items := ((g.reads.head?).map (fun w => rsOff w.key)).getD 0
    (s.scatterPlan g (entOf tb) pitch items idx, oor (entOf tb))
  | _ => (g.plan, 0)

/-- The cycle in which a galley's header reaches its target. -/
def Galley.headerTime (g : Galley) : Nat :=
  g.writes.foldl (fun a r => match siteOf r.key with
    | some d => if d = g.core then a
      else if quarter d ≠ quarter g.core then max a 110
      else if isRS r.key then max a (4 * hops g.core d) else max a (lineLatency g.core d)
    | none => a) 0

/-- Whether a galley crosses the lateral links of its quarter to another core's register space. -/
def Galley.lateral (g : Galley) : Bool :=
  !g.exch && g.writes.any (fun r => isRS r.key && rsCore r.key ≠ g.core && quarter (rsCore r.key) = quarter g.core)

/-- The cycle from which the links that leave a core are free: its lateral galleys cross them one after another. -/
def State.linkFree (s : State) (c : Nat) : Nat :=
  s.galleys.foldl (fun a e =>
    let g := e.2
    if g.core = c && g.started && g.lateral then
      let last := match g.plan with
        | [] => g.lastAt
        | p :: _ => max g.lastAt (s.now + (p.due - (s.home g.gang c).time) + g.headerTime - 1) + 2 * g.plan.length
      max a (last - g.headerTime)
    else a) 0

/-- A copy galley starts: its lines are laid out in time, its header sets out, and a prefetch's fills begin. -/
def State.startCopy (s : State) (id : Nat) (g : Galley) (plan : List Piece) (oor : Nat) : State :=
  let s1 := if oor = 0 then s else s.modCore g.core (fun k => { k with xoor := satAdd 16 k.xoor oor })
  let begins := if g.lateral then max s.now (s.linkFree g.core) else s.now
  let time := (s.core g.core).time
  let ordinary := paced g.core (time + (begins - s.now)) plan
  let (timed, s2) := match (if g.exch then s.gang g.gang else none) with
    | some gv => match gv.phase with
      | some ph =>
        let past := (s.core (gv.cores.headD g.core)).time - uncore * ph.began
        let r := exchPlan gv ph { g with plan := plan } (time - past)
        (r.1, s1.modGang g.gang (fun v => { v with phase := some r.2 }))
      | none => (ordinary, s1)
    | none => (ordinary, s1)
  let near := g.headerTime = 0
  let s3 := s2.modGalley id (fun g => { g with started := true, plan := timed, accepted := near, ack := s.now })
  let s4 := if near then s3 else s3.after (begins - s.now + g.headerTime) (.galleyAccept id)
  match g.job with
  | .pref tb t first count =>
    let lines := if tb.isEmpty then [] else prefLines (entOf tb) t first count
    (lines.zipIdx.foldl (fun (a : State) l => a.later g.core (12 + 2 * l.2) (.operandCacheFill g.core l.1)) s4).after
      (12 + 2 * lines.length) (.galleyRetire id)
  | _ => s4.galleyGo id

/-- A copy galley that may start does so, or first goes on reading its index list. -/
def State.tryCopy (s : State) (id : Nat) (g : Galley) : State :=
  match g.job.listRange g.reads with
  | none => s.startCopy id g g.plan 0
  | some r => match s.readList id g r with
    | (none, t) => t.after 1 (.galleyStart id)
    | (some list, t) => let p := t.startPlan g list; t.startCopy id g p.1 p.2

/-- Whether a galley may start: its release has taken effect, its phase runs, its edges have cleared and its core runs
(R210, R236, R303). -/
def State.mayStart (s : State) (g : Galley) : Bool :=
  g.rel.isNone && !(s.edgeHolds g.core g.o.age g.reads g.writes) && (s.core g.core).gang = g.gang
  && (s.core g.core).frozen.isNone
  && (!g.exch || (match s.gang g.gang with
    | some gv => gv.phase.isSome
    | none => false))

end Sys2Proof.Machine
end

