-- ==== Sys2Proof/Machine/Gibbs.lean ====
section
/-! DEFINITION. The Gibbs walker's words, its sweeps, and the exchange of halos (R263, R266, R271 to R283). -/

namespace Sys2Proof.Machine

/-! ## Sweeps (R263, R266) -/

/-- Cells that a gate updates: active, of its colour, not clamped. -/
def State.gateCells (s : State) (c gate : Nat) : List Nat :=
  (List.range (s.gctl c).nact).filter (fun i => s.cellColour c i = gate && !s.cellClamp c i)

/-- A failed health test: replay is forced, and an ENTROPY record goes to the kernel's fault area and to Press (R266). -/
def State.healthFail (s : State) (o : Origin) : State :=
  let k := s.core o.core
  let s1 := s.setCtl o.core (fun v => { v with replay := true, forced := true })
    (fun t => { t with health := satAdd 8 t.health 1 })
  let s2 := match s.gang k.gang with
    | some g => s1.putRecord k.vf g.area g.areaHost (recordBytes g.areaHost .entropy o k (s.gen k.vf) 0 0 s.now)
    | none => s1
  s2.send (.pressLog (recordBytes true .entropy o k (s.gen k.vf) 0 0 s.now))

/-- A colour phase begins: the halo is held as it stands (R263); in entropy mode the health tests are taken first (R266). -/
def State.beginPhase (s : State) (w : Sweep) : State :=
  let c := w.o.core
  let s1 := if (s.gctl c).replay then s
    else
      let t := { s with nextFree := s.nextFree + 1 }
      if Config.healthOk s.nextFree then t else t.healthFail w.o
  let e := (s1.gateCells c w.gate).foldl (fun n i => n + (s1.couplings c i).length) 0
  (s1.modGibbs c (fun a => { a with sweep := some { w with h0Tag := a.haloTag, h0 := a.halo } })).later c (8 + ceilDiv e 64)
    (.colourPhase c)

/-- The draw of a cell: the replay generator, or the next value of the noise cells (R265, R266). -/
def State.draw (s : State) (c i : Nat) : BitVec 16 × State :=
  let v := s.gctl c
  if v.replay then (replayDraw v.seed v.sweep i, s)
  else (Config.noise s.nextFree, { s with nextFree := s.nextFree + 1 })

/-- The cells of a sweep's gate take their new states together, from the states and the halo as they stood at its start
(R263). -/
def State.updateGate (s : State) (c : Nat) (w : Sweep) : State :=
  let beta := (s.gctl c).beta
  let s0 := s.modGibbs c (fun a => { a with haloTag := w.h0Tag, halo := w.h0 })
  (s.gateCells c w.gate).foldl (fun (t : State) i =>
    let (u, t1) := t.draw c i
    t1.setS c i (u.toNat < gibbsP16 beta (s0.gibbsField c i))) s

/-- COLOUR_PHASE: the gate's cells update at once; after the last gate the sweep ends, after the last sweep the word
is complete. -/
def execColourPhase (core : Nat) (s : State) : Host.Outcome State Fault Refusal :=
  match (s.core core).gibbs.sweep with
  | none => .next s
  | some w =>
    let s1 := s.updateGate core w
    if w.gate + 1 < (s.gctl core).gates then .next (s1.beginPhase { w with gate := w.gate + 1 })
    else
      let s2 := s1.countSweeps core 1
      if 1 < w.left then .next (s2.beginPhase { w with left := w.left - 1, gate := 0 })
      else .next ((s2.modGibbs core (fun a => { a with sweep := none })).finish w.o)

/-! ## Issue (R271) -/

/-- GXCHs of a core in flight. -/
def State.gxchs (s : State) (c : Nat) : Nat :=
  (s.galleys.filter (fun g => g.2.core = c && g.2.gang = (s.core c).gang && g.2.job = .gxch)).length

/-- Every earlier Gibbs word other than GXCH has completed. -/
def gibbsTurn (o : Origin) : Op Unit := do
  let s ← get
  need ((s.core o.core).wG.pend = s.gxchs o.core)

/-- An array word goes on its way, its effect to come. -/
def gibbsLater (o : Origin) (lat : Nat) (op : GibbsOp) : Op Flow := do
  modify (fun s => s.modGibbs o.core (fun a => { a with word := some op }))
  doneLater o lat (.vectorResultLands o keyGibbs [] 0)

/-- A first cell named by an x register. -/
def firstCell (o : Origin) (n : Name) : Op Nat := do return (← srcX o (xNum n)).toNat

/-- View operands of one format, read in one grant: stalls first, then the traps of R50 in operand order. -/
def gibbsViews (o : Origin) (fmt : Byte) (ops : List (Name × Bool)) : Op (List (List Byte)) := do
  let s ← get
  let views := ops.map (fun e => (destView s o.core e.1, e.2))
  need (views.all (fun v => match v.1 with
    | some (_, r) => !(s.hits o.core (keyRS o.core r.1) r.2) && (v.2 || s.full o.core r.1 r.2)
    | none => true))
  demand (views.all (fun v => match v.1 with
    | some (f, _) => f = fmt
    | none => false)) .rsvd 0
  let runs := views.filterMap (fun v => v.1.map (fun x => (x.2, v.2)))
  let _ ← runs.zipIdx.mapM (fun e =>
    if e.1.2 && !(s.full o.core e.1.1.1 e.1.1.2) then trapNow .fe e.2 0 else pure ())
  claimBanks o (runs.foldl (fun m e => m ||| banksOf e.1.1 e.1.2) 0#32)
  return runs.map (fun e => s.read (s.ownTag o.core) (keyRS o.core e.1.1) e.1.2)

/-! ## The words -/

def execGmode (h : Hdr) (replay bip : Bool) (n : BitVec 15) (s : State) : Host.Outcome State Fault Refusal :=
  issue .G h 1 (fun o => do
    gibbsTurn o
    gibbsLater o 2 (.mode bip replay n.toNat)) s

/-- GLOAD and GBIAS: a void or stale entry is read as zeros; a live one is INT32, of an allowed size, and wholly in the
local vault (R122, R273, R274). -/
def loadWord (h : Hdr) (rows : Bool) (card : Name) (t : BitVec 12) (mk : List Byte → Nat → GibbsOp) (s : State) :
    Host.Outcome State Fault Refusal :=
  issue .G h 1 (fun o => do
    gibbsTurn o
    let first ← firstCell o card
    let s ← get
    let v := (s.core o.core).vf
    let b := s.tensorBytes v t
    if s.entryLive v b then do
      let e := loadShape b rows
      demand (e.fmt = 6 && (if rows then 1 ≤ e.sz 0 && e.sz 0 ≤ 64 && first + e.sz 1 ≤ 8192
        else 1 ≤ e.sz 0 && first + e.sz 0 ≤ 8192)) .rsvd 0
      demand (e.space = 0 && s.extentLocal o.core e) .addr 0
      gibbsLater o (12 + ceilDiv (4 * e.sz 0 * e.sz 1) 64) (mk b first)
    else gibbsLater o 12 (mk (zeros 64) first)) s

def execGload (h : Hdr) (card : Name) (t : BitVec 12) (s : State) : Host.Outcome State Fault Refusal :=
  loadWord h true card t .load s
def execGbias (h : Hdr) (card : Name) (t : BitVec 12) (s : State) : Host.Outcome State Fault Refusal :=
  loadWord h false card t .bias s

/-- The limit on a first cell of 1024: a multiple of 1024 below 8192. -/
def firstOk (first : Nat) : Bool := first % 1024 = 0 && first < 8192

def execGcolr (h : Hdr) (tea : Bool) (c : BitVec 8) (a b : Name) (s : State) : Host.Outcome State Fault Refusal :=
  issue .G h 1 (fun o => do
    gibbsTurn o
    let first ← firstCell o b
    let vs ← gibbsViews o 5 [(a, tea)]
    demand (firstOk first) .rsvd 0
    gibbsLater o 4 (.colour c.toNat first (vs.headD []))) s

def execGbeta (h : Hdr) (a : Name) (s : State) : Host.Outcome State Fault Refusal :=
  issue .G h 1 (fun o => do
    gibbsTurn o
    let v ← src o a
    demand ((fp32.decode (v.toNat % 2 ^ 32)).isFin) .rsvd 0
    gibbsLater o 2 (.beta (v.setWidth 32))) s

def execGseed (h : Hdr) (a : Name) (s : State) : Host.Outcome State Fault Refusal :=
  issue .G h 1 (fun o => do
    gibbsTurn o
    let v ← src o a
    gibbsLater o 2 (.seed v)) s

def execGclmp (h : Hdr) (te : Te) (a b : Name) (s : State) : Host.Outcome State Fault Refusal :=
  issue .G h 1 (fun o => do
    gibbsTurn o
    let vs ← gibbsViews o 0x0B [(a, te.a), (b, te.b)]
    gibbsLater o 2 (.clamp (vs.headD []) (vs.getD 1 []))) s

def execGfree (h : Hdr) (tea : Bool) (a : Name) (s : State) : Host.Outcome State Fault Refusal :=
  issue .G h 1 (fun o => do
    gibbsTurn o
    let vs ← gibbsViews o 0x0B [(a, tea)]
    gibbsLater o 2 (.free (vs.headD []))) s

/-- GSWP (R278): with GATES 0 no sweep has a colour phase, and SWEEP alone advances (R268). -/
def execGswp (h : Hdr) (k : BitVec 15) (s : State) : Host.Outcome State Fault Refusal :=
  issue .G h 1 (fun o => do
    gibbsTurn o
    let s ← get
    if (s.gctl o.core).gates = 0 then gibbsLater o 1 (.skip k.toNat)
    else do
      modify (fun t => (t.begin o).beginPhase ⟨o, k.toNat, 0, voidTag, []⟩)
      return .seq) s

def execGcntc (h : Hdr) (s : State) : Host.Outcome State Fault Refusal :=
  issue .G h 1 (fun o => do
    gibbsTurn o
    gibbsLater o 2 .clear) s

/-- A word that reads the array into a view: its granules are empty until the image is written (R280). -/
def readArray (h : Hdr) (d : Name) (fmt : Byte) (first : Option Name)
    (image : State → Nat → Nat → List Byte × Nat) (s : State) : Host.Outcome State Fault Refusal :=
  issue .G h 1 (fun o => do
    gibbsTurn o
    let f ← (match first with
      | some n => firstCell o n
      | none => pure 0)
    let s ← get
    let dv := destView s o.core d
    need (match dv with
      | some (_, r) => !(s.hits o.core (keyRS o.core r.1) r.2) && s.full o.core r.1 r.2
      | none => true)
    match dv with
    | none => trapNow .rsvd 0 0
    | some (df, r) => do
      demand (df = fmt && firstOk f) .rsvd 0
      demand (!(s.core o.core).inText r.1 r.2) .addr r.1
      modify (fun t => t.markEmpty (t.ownTag o.core) o.core r.1 r.2)
      let (bytes, lat) := image s o.core f
      doneLater o (lat - 1) (.longLatencyWriteComplete o r.1 bytes)) s

def execGrds (h : Hdr) (d : Name) (s : State) : Host.Outcome State Fault Refusal :=
  readArray h d 0x0B none (fun s c _ => (s.stateImage c, 8)) s

def execGrdc (h : Hdr) (d a : Name) (s : State) : Host.Outcome State Fault Refusal :=
  readArray h d 6 (some a) (fun s c f =>
    ((List.range 1024).flatMap (fun n => leBytes 4 (s.cellCount c (f + n))), 8)) s

def execGrdf (h : Hdr) (d a : Name) (s : State) : Host.Outcome State Fault Refusal :=
  readArray h d 6 (some a) (fun s c f =>
    ((List.range 1024).flatMap (fun n => leBytes 4 (lowBits 32 (s.gibbsField c (f + n)))),
     8 + ceilDiv ((List.range 1024).foldl (fun t n => t + (s.couplings c (f + n)).length) 0) 64)) s

/-- The status word (R270). -/
def gstatWord (v : GCtl) (t : GStatus) : Word :=
  let b := fun (x : Bool) (n : Nat) => if x then 2 ^ n else 0
  let (i, j) := t.conflict.getD (0, 0)
  BitVec.ofNat 64 (j * 2 ^ 43 + i * 2 ^ 30 + t.health * 2 ^ 16 + b t.loaderr 10 + b t.badentry 9 + b t.cmfull 8
    + b t.cntsat 7 + b t.clip 6 + b t.uncoloured 5 + b t.conflict.isSome 4 + b v.forced 3 + b v.replay 2 + b v.bip 1)

def execGstat (h : Hdr) (clr : Bool) (sel : BitVec 3) (d : Name) (s : State) : Host.Outcome State Fault Refusal :=
  issue .G h 1 (fun o => do
    gibbsTurn o
    let s ← get
    let v := s.gctl o.core
    let c := o.core
    let value : Word := match sel.toNat with
      | 0 => gstatWord v (s.gstatus c)
      | 1 => v.sweep
      | 2 => v.seed
      | 3 => BitVec.ofNat 64 (v.gates * 2 ^ 48 + v.nact * 2 ^ 32 + v.beta.toNat)
      | _ => BitVec.ofNat 64 (s.couplingsUsed c)
    if clr && s.gstatus c ≠ GStatus.reset then
      modify (fun t => t.modStatus c (fun _ => GStatus.reset))
    resultLater o d 3 value) s

/-! ## GXCH (R281, R282) -/

def gxchOrder (o : Origin) (c : List Byte) : Op Order := do
  let rd := readRanges c
  let w := fun i : Nat => (writeRanges c).getD i (0, 0)
  let total := rd.foldl (fun a r => a + r.2) 0
  demand (field c 2 2 = 0 && field c 6 10 = 0 && ((w 0).2 = 0 || (w 0).2 = 1024) && (w 1).2 = 0 && total ≤ 1024
    && (total ≠ 0 || (w 0).2 ≠ 0)) .rsvd 0
  let s ← get
  let v := (s.core o.core).vf
  demand ((rd ++ [w 0]).all (fun r => (s.rangeKeys v none r).isSome)) .rsvd 0
  let reads ← declare o (rd.map (fun r => (none, r)))
  let writes ← declare o [(none, w 0)]
  return { job := .gxch, reads := reads, writes := writes, touchR := [], touchW := [], pages := [], plan := []
           empties := [], stream := false, counter := none, entry := none }

def execGxch (h : Hdr) (card : Name) (s : State) : Host.Outcome State Fault Refusal :=
  issue .G h 1 (fun o => enqueue o none card 8 true (gxchOrder o)) s

/-- GXCH_PUBLISH: the image of the core's states as the compute phase closed goes to WR0 (R282). -/
def execGxchPublish (id : Nat) (s : State) : Host.Outcome State Fault Refusal :=
  match Tbl.find s.galleys id with
  | none => .next s
  | some g =>
    let img := match g.plan.head?.map (fun p => p.src) with
      | some (.data bs _) => bs
      | _ => s.stateImage g.core
    let plan := (g.writes.foldl (fun (a : Nat × List Piece) w =>
      (a.1 + w.len, a.2 ++ (splitAt 64 (w.len / 64 + 2) w.key w.len).map (fun p =>
        .of (.data ((img.drop (a.1 + (p.1 - w.key))).take p.2) false) p.1 0 0))) (0, [])).2
    .next (s.startCopy id g plan 0)

/-- GXCH_FETCH: once every GXCH of the gang in this phase has published, the strings are read (R282). DESIGN CHOICE (log entry
67): R268 sends its time to R242, which has no row for the halo memory; a fetch of the core's own vault takes 12 cycles and one
for each 64 bytes. -/
def execGxchFetch (id : Nat) (s : State) : Host.Outcome State Fault Refusal :=
  match Tbl.find s.galleys id with
  | none => .next s
  | some g =>
    match (s.gang g.gang).bind (fun v => v.phase) with
    | none => .next (s.after 1 (.gxchFetch id))
    | some ph =>
      let published := if ph.published.contains id then ph.published else ph.published ++ [id]
      let s1 := s.modGang g.gang (fun v => { v with phase := some { ph with published := published } })
      if !(s1.galleys.all (fun e => !(e.2.gang = g.gang && e.2.job = .gxch) || published.contains e.1)) then
        .next (s1.after 1 (.gxchFetch id))
      else
        let own : Tag := ⟨false, g.vf, g.gen⟩
        let bytes := g.reads.flatMap (fun r => s.readClean own r.key r.len)
        let bad := g.reads.any (fun r => s.anyBad own r.key r.len)
        let lat := g.reads.foldl (fun a r => match siteOf r.key with
          | some d => max a (if d = g.core then 12 else lineLatency g.core d)
          | none => a) 0
        let n := ceilDiv (g.reads.foldl (fun a r => a + r.len) 0) 64
        let s2 := if bad then s1.modHome g.gang g.core (fun k => { k with xpoison := satAdd 16 k.xpoison 1 }) else s1
        .next ((s2.modGalley id (fun g => { g with flight := [.of (.data bytes bad) 0 0 0] })).after (lat + n)
          (.gxchRetire id))

/-- GXCH_RETIRE: the halo memory is replaced whole, and the galley retires (R267, R282). -/
def execGxchRetire (id : Nat) (s : State) : Host.Outcome State Fault Refusal :=
  match Tbl.find s.galleys id with
  | none => .next s
  | some g =>
    let bytes := match g.flight with
      | p :: _ => (match p.src with
        | .data bs _ => bs
        | _ => [])
      | [] => []
    let tag : Tag := ⟨false, g.vf, g.gen⟩
    let s1 := if s.gen g.vf ≠ g.gen then s.staleDrop g.vf 1
      else s.modHome g.gang g.core (fun k => { k with gibbs := { k.gibbs with halo := bytes, haloTag := tag } })
    .next ((s1.modGalley id (fun g => { g with flight := [], moved := true })).after 0 (.galleyRetire id))

end Sys2Proof.Machine
end

