-- ==== Sys2Proof/Machine/Launches.lean ====
section
/-! DEFINITION. Regions and launches: the region control block, kicks, acceptance, gangs and kernel start, kernel end,
retirement, groups and graphs, LAUNCH and WAITL (R80, R81, R291 to R301, R414). -/

namespace Sys2Proof.Machine

/-! ## Vault bytes of a VF -/

/-- n bytes at a vault address of a VF, as it reads them; zeros outside its vault map. -/
def State.vaultBytes (s : State) (v : BitVec 6) (a n : Nat) : List Byte :=
  match s.vaultRuns v a n with
  | some rs => rs.flatMap (fun r => s.readClean ⟨false, v, s.gen v⟩ r.key r.len)
  | none => zeros n

/-- Whether a run of vault addresses is mapped. -/
def State.mapped (s : State) (v : BitVec 6) (a n : Nat) : Bool := (s.vaultRuns v a n).isSome

/-! ## The region control block (R291, R292) -/

/-- The OVR bits of a block. -/
def rcbOvr (b : List Byte) (i : Nat) : Bool := bitOf (field b 2 2) i

/-- A block resolved against its parent. -/
def resolveRcb (b : List Byte) (p : Rcb) : Rcb :=
  let pick := fun (i off n up : Nat) => if rcbOvr b i then field b off n else up
  { kind := field b 0 1
    prio := if rcbOvr b 0 then bitsOf (field b 0 2) 10 8 else p.prio
    faultdom := rcbOvr b 1 && bitOf (field b 0 2) 11
    text := pick 2 8 8 p.text
    textlen := pick 2 16 4 p.textlen
    textoff := pick 2 20 4 p.textoff
    words := pick 2 180 4 p.words
    param := pick 3 24 8 p.param
    paramlen := pick 3 32 4 p.paramlen
    paramoff := pick 3 36 4 p.paramoff
    fault := pick 4 40 8 p.fault
    exch := pick 5 48 8 p.exch
    coreset := pick 6 128 32 p.coreset
    ncores := pick 7 160 2 p.ncores
    power := pick 8 162 2 p.power
    fabric := pick 9 164 4 p.fabric
    vault := pick 10 168 8 p.vault
    slice := pick 11 176 4 p.slice
    children := (List.range 8).map (fun i => field b (64 + 8 * i) 8) }

/-- The root of a VF: every field as the partition record gives it, and the VF's cores (R292). -/
def State.rootRcb (s : State) (v : Nat) : Rcb :=
  let r := (s.vf v).record
  let ones := [255, 255, 255, 255]
  { resolveRcb (r.take 2 ++ ones.take 2 ++ r.drop 4) (resolveRcb r
      ⟨0, 0, false, 0, 0, 0, 0, 0, 0, 0, 0, 0, 0, 0, 0, 0, 0, 0, []⟩) with
    faultdom := bitOf (field r 0 2) 11, coreset := s.vfCores v, children := [] }

/-- The section records of an image: offsets and bytes (R294). DESIGN CHOICE (log entry 68): the padding after a section's bytes,
and what follows the header that ends the list, is not looked at. -/
def sectionsFrom (img : List Byte) : Nat → Nat → Option (List (Nat × List Byte))
  | 0, _ => none
  | fuel + 1, pos =>
    if img.length < pos + 64 then none
    else
      let off := field img pos 4 % 2 ^ 18
      let n := field img (pos + 4) 4
      if field img pos 4 / 2 ^ 18 ≠ 0 || field img (pos + 8) 8 ≠ 0 then none
      else if n = 0 then some []
      else
        let next := pos + 64 * ceilDiv (16 + n) 64
        if img.length < next then none
        else (sectionsFrom img fuel next).map (fun l => (off, (img.drop (pos + 16)).take n) :: l)

def sectionsOf (img : List Byte) (words : Nat) : Option (List (Nat × List Byte)) :=
  sectionsFrom img (img.length / 64 + 1) (64 * ceilDiv (6 * words) 64)

/-- Reserved bits of a block are zero. -/
def rcbReserved (b : List Byte) : Bool :=
  bitsOf (field b 0 2) 15 12 = 0 && field b 4 4 = 0 && bitsOf (field b 2 2) 15 12 = 0 && field b 56 8 = 0
    && field b 184 72 = 0

/-- The limits of R291 and the last row of the table of R293. -/
def State.rcbLimits (s : State) (v : BitVec 6) (r : Rcb) : Bool :=
  let text := (r.textoff, 6 * r.words)
  r.text % 64 = 0 && r.textoff % 64 = 0 && r.paramoff % 64 = 0 && r.paramlen % 64 = 0 && r.paramlen ≤ 4096
  && r.fault % 256 = 0 && r.exch % 8 = 0 && r.children.all (fun a => a % 256 = 0)
  && 1 ≤ r.ncores && r.ncores ≤ 256
  && s.mapped v r.text r.textlen && s.mapped v r.param r.paramlen && s.mapped v r.fault 256
  && (r.exch = 0 || s.mapped v r.exch 8) && r.children.all (fun a => a = 0 || s.mapped v a 256)
  && (r.kind ≠ 2 ||
    (1 ≤ r.words && 6 * r.words ≤ r.textlen
      && r.textoff + r.textlen ≤ 0x40000 && r.paramoff + r.paramlen ≤ 0x40000
      && (r.paramlen = 0 || !(runsMeet text (r.paramoff, r.paramlen)))
      && (match sectionsOf (s.vaultBytes v r.text r.textlen) r.words with
        | some l => l.all (fun x => x.1 + x.2.length ≤ 0x40000 && !(runsMeet text (x.1, x.2.length)))
        | none => false)))

/-- The block at an address, read whole and checked: refused with a reason, or resolved (R293). -/
def State.readRcb (s : State) (v : BitVec 6) (a : Nat) (p : Rcb) (depth : Nat) (byLaunch : Bool) : Except Nat Rcb :=
  if a % 256 ≠ 0 || !(s.mapped v a 256) then .error 5
  else
    let b := s.vaultBytes v a 256
    let r := resolveRcb b p
    if !(1 ≤ r.kind && r.kind ≤ 3) || (byLaunch && r.kind = 1) then .error 1
    else if 6 < depth || (r.children.any (· ≠ 0) && 6 < depth + 1) then .error 2
    else if r.coreset &&& p.coreset ≠ r.coreset || p.ncores < r.ncores || popCount r.coreset 256 < r.ncores
        || p.vault < r.vault || p.fabric < r.fabric || p.power < r.power then .error 3
    else if !(rcbReserved b && s.rcbLimits v r) then .error 5
    else .ok r

/-! ## Launch records -/

def State.modLaunch (s : State) (id : Nat) (f : Launch → Launch) : State :=
  match Tbl.find s.launches id with
  | some l => { s with launches := Tbl.put s.launches id (f l) }
  | none => s

/-- Whether the module serves launches: in full or in reduced service (R399). -/
def State.serving (s : State) : Bool := s.phase = 6 || (s.q0up && 3 ≤ s.phase.toNat && s.phase.toNat ≤ 5)

/-- Whether the dispatcher schedules a VF (R311, R312, R327). -/
def State.scheduled (s : State) (v : BitVec 6) : Bool :=
  let f := s.vf v.toNat
  f.created && f.status = .running && s.serving

/-- Adds to a counter of a queue. -/
def bump (t : Tbl Nat) (q : BitVec 4) : Tbl Nat := Tbl.upd t q.toNat 0 (satAdd 64 1)

/-! ## Kicks (R297, R298) -/

/-- An entry joins a ring, whose head the dispatcher may take 8 uncore cycles later (R414). -/
def State.joinRing (s : State) (vf : BitVec 6) (q : BitVec 4) (k : Kick) : State :=
  (s.modVf vf.toNat (fun f => { f with rings := Tbl.upd f.rings q.toNat [] (fun l => l ++ [k]) })).after (uncore * 8)
    (.kickAccept vf q)

/-- Whether a ring is full. -/
def State.ringFull (s : State) (vf : BitVec 6) (q : BitVec 4) : Bool :=
  16 ≤ (Tbl.get (s.vf vf.toNat).rings q.toNat []).length

def State.countDropped (s : State) (v : BitVec 6) (q : BitVec 4) : State :=
  s.modVf v.toNat (fun f => { f with dropped := bump f.dropped q })

/-- KICK: the entry joins its ring, or is dropped when the ring is full. -/
def execKick (vf : BitVec 6) (val : Word) (s : State) : Host.Outcome State Fault Refusal :=
  let q : BitVec 4 := val.setWidth 4
  let bad := bitsOf val.toNat 11 5 ≠ 0 || bitsOf val.toNat 63 52 ≠ 0
  .next (if !(s.vf vf.toNat).created then s
    else if s.ringFull vf q then s.countDropped vf q
    else s.joinRing vf q ⟨val.toNat / 4096 * 4096, val.getLsbD 4, bad, none, none⟩)

/-- A device virtual address of the pool or the host, translated (R207). -/
def State.deviceKey (s : State) (v : BitVec 6) (va : Nat) : Option Nat :=
  match (s.walk v 1 false va).2, (s.walk v 2 false va).2 with
  | some (big, _, p), _ => some (keyPool (p + va % (if big then 2 ^ 21 else 2 ^ 16)))
  | none, some (big, _, p) => some (keyHost (p + va % (if big then 2 ^ 21 else 2 ^ 16)))
  | none, none => none

/-- The offsets of the granules of a run that begins at an offset. -/
def granuleOffsets (off n : Nat) : List Nat := (List.range (ceilDiv n 4)).map (fun i => off + 4 * i)

/-- The parameter patch of a kick: PARAMLEN bytes of the pool or the host, each line read whole (R298), and the offsets of the
granules whose line came poisoned (R398). -/
def State.patchBytes (s : State) (v : BitVec 6) (va n : Nat) : Option (List Byte × List Nat) :=
  (splitAt 64 (n / 64 + 2) va n).foldr (fun r acc =>
    match s.deviceKey v r.1, acc with
    | some k, some l =>
      let d := s.deviceLine (k - k % 64)
      some ((d.1.drop (k % 64)).take r.2 ++ l.1, if d.2 then granuleOffsets (r.1 - va) r.2 ++ l.2 else l.2)
    | _, _ => none) (some ([], []))

/-- The patch that an entry names: of a kick in the pool or the host, of a LAUNCH in the vault (R80, R298). -/
def State.kickPatch (s : State) (v : BitVec 6) (k : Kick) (n : Nat) : Option (List Byte × List Nat) :=
  if k.fromLaunch.isNone then s.patchBytes v k.patch n
  else some (s.vaultBytes v k.patch n, (splitAt 64 (n / 64 + 2) k.patch n).flatMap (fun r =>
    if (s.vaultKey v r.1).any (fun key => s.anyBad ⟨false, v, s.gen v⟩ key r.2) then granuleOffsets (r.1 - k.patch) r.2 else []))

/-- Walker cycles of the copy of a patch: a galley's, with the walks of its pages (R207, R242, R414); that of a LAUNCH takes
the latency and the rate of a vault (log entry 66). -/
def State.patchTime (s : State) (v : BitVec 6) (k : Kick) (n : Nat) : Nat :=
  if k.fromLaunch.isSome then 20 + ceilDiv n 128
  else Config.deviceDelay s.now + (pagesOf 1 false [(k.patch, n)]).foldl (fun a p =>
    a + 60 * max (s.walk v 1 false p.2.1).1 (s.walk v 2 false p.2.1).1) 0

/-- What begins a launch's run: its gang, or for a group or graph its children. -/
def Launch.begin (l : Launch) (id : Nat) : Instr := if l.rcb.kind = 2 then .gangStart id else .graphChildStart id

/-- Replays of a graph object accepted and not yet retired (R301). -/
def State.replays (s : State) (v : BitVec 6) (a : Nat) : Nat :=
  (s.launches.filter (fun e => e.2.vf = v && e.2.addr = a && e.2.rcb.kind = 3 && e.2.order ≠ 0 && !e.2.over)).length

/-- Whether a block that would be accepted is a third replay of its graph object, which waits (R301). -/
def State.thirdReplay (s : State) (v : BitVec 6) (a : Nat) (r : Rcb) : Bool := r.kind = 3 && 2 ≤ s.replays v a

/-- The head of a ring leaves it. -/
def State.popRing (s : State) (v : BitVec 6) (q : BitVec 4) : State :=
  s.modVf v.toNat (fun f => { f with rings := Tbl.upd f.rings q.toNat [] List.tail })

def State.countRefused (s : State) (v : BitVec 6) (q : BitVec 4) : State :=
  s.modVf v.toNat (fun f => { f with refused := bump f.refused q })

def State.countAccepted (s : State) (v : BitVec 6) (q : BitVec 4) : State :=
  s.modVf v.toNat (fun f => { f with accepted := bump f.accepted q })

/-- Whether a launch of a queue has been accepted and waits to start. -/
def State.queueWaits (s : State) (v : BitVec 6) (q : BitVec 4) : Bool :=
  s.launches.any (fun e => e.2.vf = v && e.2.queue = q && !e.2.listed && e.2.order ≠ 0 && e.2.st = .waiting)

/-- The control walkers that sleep in a WAITL on a launch are woken 4 cycles after it retires, or in the first cycle
after a freeze (R81, R317). -/
def State.wakeWaiters (s : State) (id : Nat) (l : Launch) : State :=
  match l.byGang.bind (fun g => (s.gang g).map (fun v => (g, v))) with
  | none => s
  | some (g, gv) => gv.cores.foldl (fun (t : State) c =>
      t.modHome g c (fun k => match k.waitl with
        | some w => if w.handle.toNat = id then
            { k with agenda := addDue (k.time + (if k.frozen.isSome then 1 else 4)) (.waitlWake w.o w.d w.handle) k.agenda } else k
        | none => k)) s

/-- Where the block of an entry stands: of a LAUNCH at the address it gave, of a kick at that bound to its queue. -/
def State.kickAddr (s : State) (vf : BitVec 6) (q : BitVec 4) (k : Kick) : Nat :=
  match k.fromLaunch.bind (Tbl.find s.launches) with
  | some l => l.addr
  | none => (Tbl.get (s.vf vf.toNat).qrcb q.toNat 0).toNat

/-- The block of an entry, read whole in this cycle, resolved against its parent and checked (R291 to R293). A malformed
kick and an unbound queue have none (R297, R298). -/
def State.kickBlock (s : State) (vf : BitVec 6) (q : BitVec 4) (k : Kick) : Except Nat Rcb :=
  let a := s.kickAddr vf q k
  match k.fromLaunch.bind (Tbl.find s.launches) with
  | some l => s.readRcb vf a (((l.parent.bind (Tbl.find s.launches)).map (fun p => p.rcb)).getD (s.rootRcb vf.toNat)) l.depth true
  | none => if k.bad || a = 0 then .error 5 else s.readRcb vf a (s.rootRcb vf.toNat) 1 false

/-- The head of a ring is refused: REFUSED counts a kick, and a LAUNCH is over, so that who waits for it goes on (R81,
R293; log entry 66). -/
def State.refuseKick (s : State) (vf : BitVec 6) (q : BitVec 4) (k : Kick) : State :=
  let t := s.popRing vf q
  match k.fromLaunch.bind (fun id => (Tbl.find s.launches id).map (fun l => (id, l))) with
  | none => t.countRefused vf q
  | some (id, l) => (t.modLaunch id (fun l => { l with st := .refused })).wakeWaiters id l

/-- The head of a ring is accepted with its block and patch, under the present generation (R285, R298, R300). -/
def State.acceptKick (s : State) (vf : BitVec 6) (q : BitVec 4) (k : Kick) (r : Rcb) (patch : Option (List Byte × List Nat)) :
    State :=
  let t := s.popRing vf q
  let bytes := patch.map (fun p => p.1)
  let bad := (patch.map (fun p => p.2)).getD []
  let fresh : Launch := { vf := vf, gen := s.gen vf, queue := q, addr := s.kickAddr vf q k, rcb := r, parent := none
                          listed := false, byGang := none, depth := 1, st := .waiting, patch := bytes
                          patchBad := bad, reason := 0, collected := false, nextChild := 0, order := s.nextLaunch, ready := s.now }
  let (id, l) := match k.fromLaunch.bind (fun id => (Tbl.find s.launches id).map (fun l => (id, l))) with
    | some (id, l) => (id, { l with
        gen := s.gen vf, rcb := r, patch := bytes, patchBad := bad, order := s.nextLaunch, ready := s.now })
    | none => (s.nextLaunch, fresh)
  let u : State := { t with launches := Tbl.put t.launches id l, nextLaunch := s.nextLaunch + 1 }
  (u.countAccepted vf q).after 0 (l.begin id)

/-- What an acceptance has read of the head of a ring is kept, and it goes on some cycles later. -/
def State.takeKick (s : State) (vf : BitVec 6) (q : BitVec 4) (r : Option Rcb) (patch : Option (List Byte × List Nat)) (d : Nat) :
    State :=
  (s.modVf vf.toNat (fun f => { f with rings := Tbl.upd f.rings q.toNat [] (fun l => match l with
    | [] => []
    | k :: ks => { k with taken := some (s.now + d, r, patch) } :: ks) })).after d (.kickAccept vf q)

/-- The reason of a LAUNCH whose block fails a check. -/
def State.noteReason (s : State) (k : Kick) (e : Nat) : State :=
  match k.fromLaunch with
  | some id => s.modLaunch id (fun l => { l with reason := e })
  | none => s

/-- KICK_ACCEPT: the dispatcher takes the head of a ring while the VF is scheduled, no earlier launch of the queue waits to
start and R301 allows; it reads the block, once, and has it checked in 64 uncore cycles, copies the patch, and counts (R291, R298,
R414). -/
def execKickAccept (vf : BitVec 6) (q : BitVec 4) (s : State) : Host.Outcome State Fault Refusal :=
  let again := s.after 1 (.kickAccept vf q)
  .next (match Tbl.get (s.vf vf.toNat).rings q.toNat [] with
  | [] => s
  | k :: _ =>
    if !(s.scheduled vf) || s.queueWaits vf q then again
    else match k.taken with
    | none => match s.kickBlock vf q k with
      | .error e => (s.noteReason k e).takeKick vf q none none (uncore * 64)
      | .ok r => if s.thirdReplay vf (s.kickAddr vf q k) r then again else s.takeKick vf q (some r) none (uncore * 64)
    | some (due, ro, patch) =>
      if s.now < due then again
      else match ro with
      | none => s.refuseKick vf q k
      | some r =>
        if s.thirdReplay vf (s.kickAddr vf q k) r then again
        else if !k.pv || patch.isSome then s.acceptKick vf q k r patch
        else match s.kickPatch vf k r.paramlen with
          | none => s.refuseKick vf q k
          | some p => s.takeKick vf q (some r) (some p) (s.patchTime vf k r.paramlen))

/-! ## Who runs next (R296, R299) -/

/-- Whether the launches before this one in its queue have retired. -/
def State.queueTurn (s : State) (id : Nat) (l : Launch) : Bool :=
  l.listed || s.launches.all (fun e => e.1 = id || e.2.vf ≠ l.vf || e.2.queue ≠ l.queue || e.2.listed
    || e.2.order = 0 || l.order ≤ e.2.order || e.2.over)

/-- A launch that could run if it had cores. -/
def State.runnable (s : State) (id : Nat) (l : Launch) : Bool :=
  l.st = .waiting && l.rcb.kind = 2 && l.order ≠ 0 && l.ready ≤ s.now && l.gen = s.gen l.vf && s.scheduled l.vf
    && s.queueTurn id l

/-- Whether a core can be given to a gang: no gang runs on it, and a frozen gang's state has been saved (R315). -/
def State.coreFree (s : State) (c : Nat) : Bool :=
  s.gangs.all (fun g => !(g.2.cores.contains c) || (g.2.frozen.isSome && g.2.saved && (Tbl.find s.saves (g.1 * 512 + c)).isSome))

/-- Cores of a core set, lowest first; in reduced service those of Q0 only (R400). -/
def State.coresOf (s : State) (set : Nat) : List Nat :=
  (List.range (if s.phase = 6 then 256 else 64)).filter (bitOf set)

/-- The cores a launch would take now. -/
def State.chosen (s : State) (l : Launch) : Option (List Nat) :=
  let free := (s.coresOf l.rcb.coreset).filter s.coreFree
  if l.rcb.ncores ≤ free.length then some (free.take l.rcb.ncores) else none

/-- Whether one launch or gang goes before another: by priority, then by its turn. -/
def before (p o p' o' : Nat) : Bool := p' < p || (p = p' && o < o')

/-- The priority of a gang's launch. -/
def State.gangPrio (s : State) (g : Gang) : Nat := ((Tbl.find s.launches g.launch).map (fun l => l.rcb.prio)).getD 0

/-- A gang that the dispatcher froze and that could run on its own cores again. -/
def State.resumable (s : State) (g : Gang) : Bool := g.frozen = some .dispatcher && s.scheduled g.vf

/-- Cores that a higher priority keeps: those of its gangs, and those that its waiting launches may take. Who waits for one waits
beyond the bound of its own priority. -/
def State.heldAbove (s : State) (prio : Nat) : List Nat :=
  s.gangs.flatMap (fun g => if (g.2.frozen.isNone || s.resumable g.2) && prio < s.gangPrio g.2 then g.2.cores else [])
  ++ s.launches.flatMap (fun e => if s.runnable e.1 e.2 && prio < e.2.rcb.prio then s.coresOf e.2.rcb.coreset else [])

/-- Whether a launch's cores can come to it by turns of its own priority. -/
def State.inReach (s : State) (l : Launch) : Bool :=
  let above := s.heldAbove l.rcb.prio
  l.rcb.ncores ≤ ((s.coresOf l.rcb.coreset).filter (fun c => !above.contains c)).length

/-- Whether someone who goes before a priority and turn wants one of the cores. One of equal priority that a higher one keeps
from its own cores holds up no other: the waiting bound counts competitors of equal priority by their slices (R299). -/
def State.wanted (s : State) (self : Option Nat) (gang : Option Nat) (prio order : Nat) (cores : List Nat) : Bool :=
  s.launches.any (fun e => some e.1 ≠ self && s.runnable e.1 e.2 && before e.2.rcb.prio e.2.order prio order
    && cores.any (bitOf e.2.rcb.coreset) && (prio < e.2.rcb.prio || s.inReach e.2))
  || s.gangs.any (fun e => some e.1 ≠ gang && s.resumable e.2 && before (s.gangPrio e.2) e.2.order prio order
    && cores.any e.2.cores.contains
    && (prio < s.gangPrio e.2 || !(e.2.cores.any (s.heldAbove (s.gangPrio e.2)).contains)))

/-! ## Kernel start (R294, R295) -/

/-- The core's registers at kernel start: everything at its kernel-start value, but for what keeps its contents and
tags from earlier kernels. Its cycles count from the module's, so that the cores of a gang stand in one uncore cycle. -/
def Core.started? (k : Core) (now : Nat) (v : BitVec 6) (g : Nat) (index count : Nat) (r : Rcb) : Core :=
  { Core.reset with
    ctx := k.ctx, vf := v, gang := g, gangIndex := BitVec.ofNat 8 index, gangCount := BitVec.ofNat 8 (count - 1)
    base := r.textoff, words := r.words, time := now
    gibbs := { k.gibbs with sweep := none, word := none }
    ocache := k.ocache, tcache := k.tcache, nextTrans := k.nextTrans
    wC := { WalkerSt.start with st := .running } }

/-! ## Frequencies (R305, R400, R403) -/

/-- The least frequency level a core's island may run at in an emergency. -/
def State.emergencyLevel (s : State) : BitVec 4 :=
  let hot : BitVec 4 := if s.forcedHot then 8 else 0
  if hot.toNat < s.supply.toNat then s.supply else hot

/-- The setting of a gang: the governor's, and at most 1.35 GHz while reduced service holds for it. -/
def State.gangLevel (s : State) (id : Nat) (g : Gang) : BitVec 4 :=
  if g.level.toNat < 8 && (s.phase ≠ 6 || s.reduced.contains id) then 8 else g.level

/-- An island takes the slowest setting of its two cores' gangs, or the emergency's; in reduced service one of Q0 runs at 1.35
GHz. -/
def State.islandLevel (s : State) (i : Nat) : BitVec 4 :=
  let least : BitVec 4 := if s.emergencyLevel.toNat < 8 && s.q0up && s.phase ≠ 6 && i < 32 then 8 else s.emergencyLevel
  s.gangs.foldl (fun (a : BitVec 4) g =>
    let v := s.gangLevel g.1 g.2
    if (g.2.cores.contains (2 * i) || g.2.cores.contains (2 * i + 1)) && g.2.frozen.isNone && a.toNat < v.toNat then v else a) least

/-- The islands of a set of cores take their levels together. -/
def State.setIslands (s : State) (cores : List Nat) : State :=
  { s with islands := (cores.map (· / 2)).eraseDups.foldl (fun m i => Tbl.put m i (s.islandLevel i)) s.islands }

/-- Marks of a core's register space and spill memory (R214). -/
def onCore (c k : Nat) : Bool :=
  (keyRS c 0 ≤ k && k < keyRS (c + 1) 0) || (keySpill c 0 ≤ k && k < keySpill (c + 1) 0)

/-- The galley of a held line. -/
def State.heldGalley (s : State) (l : HeldLine) : Option Galley := l.galley.bind (Tbl.find s.galleys)

/-- A held line goes into a core's saved state, as it would into the core: its bytes into the slot, its granules full, its
marks, a port whose descriptor it holds armed again, and its poison counted (R126, R194, R244, R316). -/
def State.lineToSlot (s : State) (sv : Save) (l : HeldLine) : State × Save :=
  let off := rsOff l.key
  let k := sv.image
  if s.gen l.vf ≠ l.gen then (s.staleDrop l.vf 1, sv)
  else if k.inText off l.bytes.length then (s, sv)
  else
    let own := (s.heldGalley l).any (fun g => g.core = sv.core && g.gang = sv.gang)
    let t := match s.vaultKey sv.vf (sv.addr + off) with
      | some key => s.write ⟨false, l.vf, l.gen⟩ key l.bytes
      | none => s
    let t := match s.heldGalley l with
      | some g => if own then t else t.notePoison g l.poison
      | none => t
    let ms := (granules l.key l.bytes.length).map (4 * ·)
    let rest := fun (x : List Nat) => x.filter (fun m => !ms.contains m)
    (t, { sv with
      image := rearm { k with empty := k.empty.filter (fun g => !(off < 4 * g + 4 && 4 * g < off + l.bytes.length)) } off
        l.bytes.length
        |> fun k => { k with xpoison := if own && l.poison then satAdd 16 k.xpoison 1 else k.xpoison }
      poison := if l.poison then ms ++ rest sv.poison else rest sv.poison
      badLines := rest sv.badLines })

/-- A frozen gang gives up a core to another: its image is what the core holds now, with its held lines applied (R316), but for
those of a galley that the core has not accepted, which it accepts when it runs again (R194); the coupling memory is copied out
(R315), the marks go with the image, and the core keeps its translations. -/
def State.displace (s : State) (c : Nat) : State :=
  let k := s.core c
  match Tbl.find s.saves (k.gang * 512 + c) with
  | none => s
  | some sv =>
    let waits := fun l : HeldLine => (s.heldGalley l).any (fun g => !g.accepted && s.gen g.vf = g.gen)
    let sv0 : Save := { sv with
      image := { k with held := k.held.filter waits, tcache := [] }
      poison := s.poison.filter (onCore c), badLines := s.badLines.filter (onCore c) }
    let (t, sv1) := (k.held.filter (fun l => !(waits l))).foldl (fun (a : State × Save) l =>
      let r := a.1.lineToSlot a.2 l
      (r.1.lineDone l, r.2)) (s, sv0)
    let u := match t.vaultKey sv.vf (sv.addr + 0x5D000) with
      | some key => t.write ⟨false, sv.vf, sv.gen⟩ key ((List.range 0x80000).map (fun i => Config.savedByte s.now (0x16000 + i)))
      | none => t
    { u with saves := Tbl.put u.saves (k.gang * 512 + c) sv1 }

/-- Register space and spill memory take the void tag, and their marks are gone; entries in flight to lateral queues are
discarded (R295). -/
def State.voidCore (s : State) (c : Nat) : State :=
  { s.clearMarks (onCore c) with tags := s.tags.filter (fun e => !(onCore c e.1)) }

/-- One core of a gang is prepared for its kernel: state, then text, sections and parameter block (R294), whose granules of a
patch that came poisoned are marked (R398). -/
def State.placeCore (s : State) (v : BitVec 6) (g c index count : Nat) (r : Rcb) (img : List Byte)
    (secs : List (Nat × List Byte)) (param : List Byte) (bad : List Nat) : State :=
  let s1 := (s.displace c).voidCore c
  let s2 := s1.setCore c ((s1.core c).started? s.now v g index count r)
  let tag : Tag := ⟨false, v, s.gen v⟩
  bad.foldl (fun (t : State) o => t.mark (keyRS c (r.paramoff + o)) 4 true)
    (((r.textoff, img) :: secs ++ [(r.paramoff, param)]).foldl (fun (t : State) x => t.write tag (keyRS c x.1) x.2) s2)

/-- The owner of a launch's faults (R296): its fault area, and whether the host is the owner. -/
def State.faultOwner (s : State) (v : BitVec 6) : Nat → Nat → Nat × Bool
  | 0, _ => (field (s.vf v.toNat).record 40 8, !(bitOf (field (s.vf v.toNat).record 0 2) 11))
  | fuel + 1, id =>
    match Tbl.find s.launches id with
    | none => (field (s.vf v.toNat).record 40 8, !(bitOf (field (s.vf v.toNat).record 0 2) 11))
    | some l => if l.rcb.faultdom then (l.rcb.fault, false)
      else match l.parent with
        | some p => s.faultOwner v fuel p
        | none => s.faultOwner v 0 0

/-- The length of a slice in walker cycles. -/
def Rcb.sliceCycles (r : Rcb) : Nat := 2700 * (if r.slice = 0 then Config.defaultSlice else r.slice)

/-- GANG_START: the launch's gang is formed of the lowest free cores and its kernel is placed; after the times of R414
the gang has its first cycle. -/
def execGangStart (launch : Nat) (s : State) : Host.Outcome State Fault Refusal :=
  match Tbl.find s.launches launch with
  | none => .next s
  | some l =>
    if l.st = .running then
      -- the gang's first cycle
      match s.gangs.find? (fun g => g.2.launch = launch) with
      | none => .next s
      | some (g, gv) => .next (({ gv.cores.foldl (fun (t : State) c =>
          if (t.core c).gang = g then t.modCore c (fun k => { k with live := true }) else t) s with
          gangs := Tbl.put s.gangs g { gv with sliceAt := s.now + l.rcb.sliceCycles } }).after l.rcb.sliceCycles (.sliceEnd g))
    else if l.over then .next s
    else if !(s.runnable launch l) then .next (s.after 1 (.gangStart launch))
    else match s.chosen l with
      | none => .next (s.after 1 (.gangStart launch))
      | some cores =>
        if s.wanted (some launch) none l.rcb.prio l.order cores then .next (s.after 1 (.gangStart launch))
        else
          let g := s.nextGang
          let r := l.rcb
          let img := s.vaultBytes l.vf r.text r.textlen
          let secs := (sectionsOf img r.words).getD []
          let param := l.patch.getD (s.vaultBytes l.vf r.param r.paramlen)
          let (area, host) := s.faultOwner l.vf 8 launch
          let gv : Gang := { vf := l.vf, gen := l.gen, launch := launch, cores := cores, frozen := none, saved := false
                             area := area, areaHost := host, ended := [], closing := false, phase := none
                             sliceAt := 0, level := 0, nextLevel := 0, order := l.order, records := [], thaw := [] }
          let s1 := cores.zipIdx.foldl (fun (t : State) c =>
            t.placeCore l.vf g c.1 c.2 cores.length r img secs param (if l.patch.isSome then l.patchBad else [])) s
          let s2 : State := { s1 with gangs := Tbl.put s1.gangs g gv, nextGang := g + 1 }
          let n := 6 * r.words + secs.foldl (fun a x => a + x.2.length) 0 + param.length
          .next (((s2.setIslands cores).modLaunch launch (fun l => { l with st := .running })).after
            (uncore * (32 + ceilDiv n 128 + 8)) (.gangStart launch))

/-! ## The end of kernels and launches (R82, R296) -/

/-- A core's walkers, queues and pending work are gone; its storage keeps its contents. -/
def Core.idleNow (k : Core) : Core :=
  { k with
    live := false, frozen := none, gang := 0, words := 0, agenda := [], latches := [], lq := [], sq := [], nest := none
    busyTiles := [], matq := [], vpend := [], moves := [], held := [], waitl := none, xfence := none, tickets := none
    scoreboard := [], retStack := [], walkFault := [], macBad := [], granted := [], standing := [], asking := []
    gibbs := { k.gibbs with sweep := none, word := none }
    wC := WalkerSt.start, wV := WalkerSt.start, wM := WalkerSt.start, wX := WalkerSt.start, wG := WalkerSt.start
    wF := WalkerSt.start }

/-- Lines that a galley had still to read when it was released: each is discarded (R284, R286). -/
def Galley.unread (g : Galley) : Nat :=
  if g.job = .gxch && !g.started then g.writes.foldl (fun a r => a + ceilDiv r.len 64) 0 else g.plan.length

/-- A galley of a gang that is released sends nothing more. Under a generation that has been left its lines that are not read
yet are discarded, and those that are on their way from the pool or the host (R285, R286, R309). -/
def State.releaseGalley (s : State) (id : Nat) (g : Galley) : State :=
  let stale := s.gen g.vf ≠ g.gen
  let fl := if stale then g.flight.filter (fun p => match p.src with
    | .pooled _ _ _ => false
    | _ => true) else g.flight
  let s1 := if stale then s.staleDrop g.vf (g.unread + (g.flight.length - fl.length)) else s
  let s2 : State := { s1 with galleys := Tbl.put s1.galleys id { g with
    plan := [], flight := fl, lines := [], rel := none, disp := 0, started := true, waitAck := 0 } }
  if fl.isEmpty then s2.after 0 (.galleyRetire id) else s2

/-- A privileged word is complete: its destination is written and its walker goes on (R325). -/
def State.privDone (s : State) (o : Origin) (d : Name) (v : Word) : State := ((s.land o d v).unblock o).finish o

/-- A refusal of a privileged word. -/
def refusal (reason : Nat) : Word := BitVec.ofNat 64 (2 ^ 63 + reason)

/-- A gang leaves its cores: held lines are written or discarded, its galleys send nothing more, its saves are never
restored (R284, R285, R321). A THAW that waits for it finds no gang. -/
def State.releaseGang (s : State) (g : Nat) : State :=
  match s.gang g with
  | none => s
  | some gv =>
    let s0 := gv.cores.foldl (fun (t : State) c =>
      if (t.core c).gang = g then (t.releaseHeld c).modCore c Core.idleNow
      else (t.home g c).held.foldl (fun (u : State) (l : HeldLine) => u.staleDrop l.vf (if u.gen l.vf ≠ l.gen then 1 else 0)) t) s
    let s1 : State := { s0 with
      gangs := Tbl.del s0.gangs g
      saves := s0.saves.filter (fun e => e.2.gang ≠ g)
      ops := s0.ops.filter (fun e => e.2.gang ≠ g || e.2.word.isNone)
      colls := s0.colls.filter (fun e => e.2.gang ≠ g) }
    let s2 := (s1.galleys.filter (fun e => e.2.gang = g)).foldl (fun (t : State) e => t.releaseGalley e.1 e.2) s1
    gv.thaw.foldl (fun (t : State) w => t.privDone w.1 w.2 (refusal 6)) s2

/-- KERNEL_END: the kernel of a core has ended; HALT's post lands, and with the gang's last core its launch can
retire. -/
def execKernelEnd (core : Nat) (s : State) : Host.Outcome State Fault Refusal :=
  let k := s.core core
  let w := k.wC
  let o : Origin := { core := core, walker := .C, index := w.index, rep := 0, age := k.time * 8, steps := w.steps
                      post := fPost (s.textWord core w.index), post2 := 0 }
  let s1 := s.modGang k.gang (fun g => { g with ended := g.ended ++ [core] })
  let s2 := match s1.gang k.gang with
    | some g => if g.cores.all g.ended.contains then s1.after 0 (.launchRetire g.launch) else s1
    | none => s1.modCore core (fun k => { k with live := false })
  .next (s2.finish o)

/-- A launch is over: its queue counts it, its parent goes on, and who waits for it wakes. -/
def State.endLaunch (s : State) (id : Nat) (st : LaunchSt) : State :=
  match Tbl.find s.launches id with
  | none => s
  | some l =>
    let s1 := s.modLaunch id (fun l => { l with st := st })
    let s2 := if l.listed then s1 else s1.modVf l.vf.toNat (fun f => { f with retired := bump f.retired l.queue })
    let s3 := match l.listed, l.parent with
      | true, some p => s2.after 0 (.graphChildStart p)
      | _, _ => s2
    s3.wakeWaiters id l

/-- LAUNCH_RETIRE: once a kernel's writes have performed at .TEN (R296). -/
def execLaunchRetire (launch : Nat) (s : State) : Host.Outcome State Fault Refusal :=
  match Tbl.find s.launches launch with
  | none => .next s
  | some l =>
    if l.over then .next s
    else match s.gangs.find? (fun g => g.2.launch = launch) with
      | none => .next (s.endLaunch launch .retired)
      | some (g, gv) =>
        if !(gv.cores.all gv.ended.contains) then .next s
        else if gv.frozen.isSome || s.coalescer.any (fun e => !e.2.host && e.2.owners.any (fun w => gv.cores.contains w.1)) then
          .next (s.after 1 (.launchRetire launch))
        else .next ((s.releaseGang g).endLaunch launch .retired)

/-! ## Groups and graphs (R295) -/

/-- The children listed by a node, in order. -/
def Rcb.listed (r : Rcb) : List Nat := r.children.filter (· ≠ 0)

/-- A listed child joins the tree and waits for its acceptance; its block is not read before (R291). -/
def State.startChild (s : State) (id : Nat) (l : Launch) (a : Nat) : State :=
  let c : Launch := { vf := l.vf, gen := l.gen, queue := l.queue, addr := a, rcb := l.rcb, parent := some id, listed := true
                      byGang := none, depth := l.depth + 1, st := .waiting, patch := l.patch, patchBad := l.patchBad, reason := 0
                      collected := false, nextChild := 0, order := 0, ready := s.now }
  ({ s with launches := Tbl.put s.launches s.nextLaunch c, nextLaunch := s.nextLaunch + 1 }).after 0 (.graphChildStart s.nextLaunch)

/-- The acceptance of a listed child: its block is read and checked; a refused child runs nothing, and a third replay of a
graph object waits (R293, R301). A patch is the child's own parameter block only where it inherits that (R292). -/
def State.acceptChild (s : State) (id : Nat) (l : Launch) : State :=
  let up := (l.parent.bind (Tbl.find s.launches)).map (fun p => p.rcb)
  match s.readRcb l.vf l.addr (up.getD l.rcb) l.depth false with
  | .error _ =>
    let t := s.modLaunch id (fun l => { l with st := .refused })
    (match l.parent with
      | some p => t.after 0 (.graphChildStart p)
      | none => t)
  | .ok r =>
    if s.thirdReplay l.vf l.addr r then s.after 1 (.graphChildStart id)
    else
      let own := rcbOvr (s.vaultBytes l.vf l.addr 256) 3
      let c : Launch := { l with rcb := r, patch := if own then none else l.patch, order := s.nextLaunch, ready := s.now }
      ({ s with launches := Tbl.put s.launches id c, nextLaunch := s.nextLaunch + 1 }).after 0 (c.begin id)

/-- Children of a node that have begun and not retired. -/
def State.openChildren (s : State) (id : Nat) : Bool :=
  s.launches.any (fun e => e.2.parent = some id && e.2.listed && !e.2.over)

/-- GRAPH_CHILD_START: a listed child that is not accepted yet is (R301); a group starts all its children, a graph its next one
once the one before has retired; with none left the node retires. -/
def execGraphChildStart (launch : Nat) (s : State) : Host.Outcome State Fault Refusal :=
  match Tbl.find s.launches launch with
  | none => .next s
  | some l =>
    if l.over then .next s
    else if l.listed && l.order = 0 then
      .next (if s.scheduled l.vf then s.acceptChild launch l else s.after 1 (.graphChildStart launch))
    else if l.st = .waiting && !(s.scheduled l.vf && s.queueTurn launch l) then .next (s.after 1 (.graphChildStart launch))
    else
      let kids := l.rcb.listed
      if l.rcb.kind = 1 then
        if l.nextChild < kids.length then
          let s1 := s.modLaunch launch (fun l => { l with st := .running, nextChild := kids.length })
          .next ((kids.foldl (fun (t : State) a => t.startChild launch l a) s1).after 0 (.graphChildStart launch))
        else if s.openChildren launch then .next s
        else .next (s.after 0 (.launchRetire launch))
      else if s.openChildren launch then .next s
      else match kids[l.nextChild]? with
        | some a => .next ((s.modLaunch launch (fun l => { l with st := .running, nextChild := l.nextChild + 1 })).startChild launch l a)
        | none => .next (s.after 0 (.launchRetire launch))

/-! ## LAUNCH and WAITL (R80, R81) -/

def execLaunch (h : Hdr) (d a b : Name) (queue : BitVec 4) (s : State) : Host.Outcome State Fault Refusal :=
  issue .C h 1 (fun o => do
    let x := (← src o a).toNat
    let y := (← src o b).toNat
    let s ← get
    let v := (s.core o.core).vf
    let tenant := (s.core o.core).ctx = .tenant
    reserve o d
    demand (tenant && x % 256 = 0 && s.mapped v x 256) .addr x
    demand (y = 0 || (s.vaultKey v y).isSome) .addr y
    modify (fun t => (t.begin o).later o.core 0 (.releaseTakesEffect o .ten o.age (.launch x y queue d)))
    return .seq) s

/-- The dispatcher is given the block of a LAUNCH whose release has taken effect: it enters the ring of its queue as a kick does,
or is dropped there, and is read and checked when it is accepted. A handle is ready 32 cycles later, or a reason where the gang has
64 launches or the acceptance has refused the block by then (R80, R291, R298; log entry 66). -/
def State.handOver (s : State) (o : Origin) (a patch : Nat) (q : BitVec 4) (d : Name) : State :=
  let k := s.core o.core
  let ready := fun (t : State) (v : Nat) => t.later o.core 32 (.launchHandleReady o d (BitVec.ofNat 64 v))
  let held := (s.launches.filter (fun e => e.2.byGang = some k.gang && !e.2.collected)).length
  match (s.gang k.gang).bind (fun g => (Tbl.find s.launches g.launch).map (fun l => (g.launch, l))) with
  | none => ready s (5 * 2 ^ 56)
  | some (pid, p) =>
    if 64 ≤ held then ready s (4 * 2 ^ 56)
    else
      let id := s.nextLaunch
      let full := s.ringFull k.vf q
      let l : Launch := { vf := k.vf, gen := s.gen k.vf, queue := q, addr := a, rcb := p.rcb, parent := some pid
                          listed := false, byGang := some k.gang, depth := p.depth + 1, patch := none, patchBad := [], reason := 0
                          st := if full then .refused else .waiting
                          collected := false, nextChild := 0, order := 0, ready := 0 }
      let s1 : State := { s with launches := Tbl.put s.launches id l, nextLaunch := id + 1 }
      ready (if full then s1.countDropped k.vf q else s1.joinRing k.vf q ⟨patch, patch ≠ 0, false, some id, none⟩) id

/-- LAUNCH_HANDLE_READY: the handle is written, or the reason for which its launch has been refused, which no WAITL collects then
(R80). -/
def execLaunchHandleReady (o : Origin) (d : Name) (val : Word) (s : State) : Host.Outcome State Fault Refusal :=
  .next (match (Tbl.find s.launches val.toNat).map (fun l => l.reason) with
    | none | some 0 => (s.land o d val).finish o
    | some e => ((s.modLaunch val.toNat (fun l => { l with collected := true })).land o d (BitVec.ofNat 64 (e * 2 ^ 56))).finish o)

/-- The launch a handle names for a gang, not yet collected. -/
def State.handled (s : State) (gang : Nat) (handle : Word) : Option Launch :=
  (Tbl.find s.launches handle.toNat).bind (fun l => if handle ≠ 0 && l.byGang = some gang && !l.collected then some l else none)

/-- WAITL: the control walker sleeps until the launch has retired (R81). -/
def execWaitl (h : Hdr) (d a : Name) (s : State) : Host.Outcome State Fault Refusal :=
  issue .C h 1 (fun o => do
    let x ← src o a
    let s ← get
    let k ← getCore o
    reserve o d
    match s.handled k.gang x with
    | none => doneLater o 1 (.scalarResultLands o d 2)
    | some l => do
      modifyCore o (fun k => { k.modW .C (fun v => { v with blocked := true }) with waitl := some ⟨o, d, x⟩ })
      modify (fun t => t.begin o)
      if l.over then modify (fun t => t.later o.core 4 (.waitlWake o d x))
      return .seq) s

/-- WAITL_WAKE: the status is written, and the handle is collected. Where two cores of the gang sleep on one handle, each has
the status of the launch (R81; log entry 65). -/
def execWaitlWake (o : Origin) (d : Name) (handle : Word) (s : State) : Host.Outcome State Fault Refusal :=
  let status : Word := match Tbl.find s.launches handle.toNat with
    | some l => if l.st = .aborted then 1 else if l.st = .refused then 2 else 0
    | none => 2
  let s1 := (s.modLaunch handle.toNat (fun l => { l with collected := true })).modCore o.core (fun k => { k with waitl := none })
  .next (((s1.land o d status).unblock o).finish o)

end Sys2Proof.Machine
end

