-- ==== Sys2Proof/Machine/Fabric.lean ====
section
/-! DEFINITION. The fabric's transport and links: identifiers, packets and flits, routing, the sending of flits, the
link layer's steps, port states and fabric event records (R347 to R368, R392). -/

namespace Sys2Proof.Machine

/-! ## Identifiers and ports (R347, R348) -/

def groupOf (m : BitVec 12) : Nat := m.toNat / 32
def memberOf (m : BitVec 12) : Nat := m.toNat % 32

def State.port (s : State) (p : Nat) : FPort := Tbl.get s.fports p FPort.reset
def State.modPort (s : State) (p : Nat) (f : FPort → FPort) : State :=
  { s with fports := Tbl.upd s.fports p FPort.reset f }

def isGlobal (p : Nat) : Bool := 32 ≤ p && p < 96

/-- The port of the module's own member number does not exist. -/
def State.portExists (s : State) (p : Nat) : Bool := p < 96 && p ≠ memberOf s.moduleId

def allPorts : List Nat := List.range 96

/-- Segments of a VC's receive buffer (R355). -/
def bufferSize (vc : Nat) : Nat := if vc = 2 then 512 else if vc = 3 then 256 else 1024

def portStateCode : PortState → Nat
  | .down => 0 | .training => 1 | .active => 2 | .draining => 3 | .dark => 4 | .relock => 5

/-- The wavelengths of a laser group. -/
def groupMask (g : Nat) : BitVec 16 := 0xF#16 <<< (4 * g)

/-- Laser groups in use (R366); a local link has none. -/
def FPort.width (t : FPort) : Nat := ((List.range 4).filter (fun g => t.mask &&& groupMask g ≠ 0)).length

/-! ## Domain time (R358) -/

def State.domainUs (s : State) : Nat := s.domainNs / 1000

/-- The STAMP of a packet injected now. -/
def State.stampNow (s : State) : BitVec 32 := BitVec.ofNat 32 s.domainUs

/-- Whether n µs have passed since a STAMP. -/
def State.aged (s : State) (stamp : BitVec 32) (n : Nat) : Bool :=
  let d := (s.stampNow - stamp).toNat
  n ≤ d && d < 2 ^ 31

/-- Walker cycles from now until n µs after a STAMP. -/
def State.untilAge (s : State) (stamp : BitVec 32) (n : Nat) : Nat :=
  let d := (s.stampNow - stamp).toNat
  let past := if d < 2 ^ 31 then 1000 * d + s.domainNs % 1000 else 0
  ceilDiv (27 * (1000 * n - past)) 10

/-! ## Fabric event records (R368, R342) -/

/-- A record of 32 bytes, its fields from the least significant. -/
def eventBytes (type port module wbefore wafter state mask time detail : Nat) : List Byte :=
  leBytes 4 (type + port * 2 ^ 8 + module * 2 ^ 16) ++ leBytes 4 (wbefore + wafter * 2 ^ 4 + state * 2 ^ 8 + mask * 2 ^ 16)
    ++ leBytes 8 time ++ leBytes 8 detail ++ zeros 8

/-- A record goes to Press and into the mailbox's ring of 128 (R401). -/
def State.fabricEvent (s : State) (bytes : List Byte) : State :=
  { s with
    events := Tbl.put s.events (s.eventHead % 128) bytes
    eventHead := (s.eventHead + 1) % 128
    outbox := s.outbox ++ [.pressLog bytes] }

/-- A change of a port: its width or its state. -/
def State.portEvent (s : State) (type p wbefore : Nat) : State :=
  let t := s.port p
  s.fabricEvent (eventBytes type p s.moduleId.toNat wbefore t.width (portStateCode t.st) t.mask.toNat s.domainNs 0)

/-- TIMEOUT and NOROUTE of a VF, which is protected: the reduced form, with GEN after the VF in DETAIL (R342, R368; log entry
36). -/
def State.opEvent (s : State) (type : Nat) (vf : BitVec 6) : State :=
  s.fabricEvent (eventBytes type 0xFF 0 0 0 0 0 (windowOf s.now) (vf.toNat + 2 ^ 8 * (s.gen vf).toNat))

/-! ## Packets and responses (R351, R352) -/

def opCode : PktOp → Nat
  | .put => 1 | .atom => 2 | .pull => 3 | .coll => 4 | .plough => 5 | .echo => 6

def opOf (n : Nat) : Option PktOp := if n = 0 then none else [PktOp.put, .atom, .pull, .coll, .plough, .echo][n - 1]?

/-- The 48 bytes of a request header. -/
def packetHeader (p : Packet) : List Byte :=
  let flags := (if p.rv then 1 else 0) + p.vc.toNat * 2 + (if p.reissue then 8 else 0)
    + 16 * (p.opflags.toNat ||| (if p.poisoned then 1 else 0))
  [BitVec.ofNat 8 (opCode p.op), BitVec.ofNat 8 flags] ++ leBytes 2 p.dstMod.toNat ++ [p.dstCore, p.srcCore]
    ++ leBytes 2 p.srcMod.toNat ++ [p.vf.setWidth 8, p.gen] ++ leBytes 2 p.tag.toNat
    ++ [BitVec.ofNat 8 (p.data.length / 64), p.hops, 0, 0] ++ leBytes 8 p.addr.toNat ++ leBytes 8 p.opnd0.toNat
    ++ leBytes 8 p.opnd1.toNat ++ leBytes 4 p.stamp.toNat ++ leBytes 4 p.opword.toNat

/-- Data segments that a header announces. -/
def headerLines (b : List Byte) : Nat := field b 12 1

/-- A header with its lines, when no reserved value or bit is in it. -/
def packetOf (b data : List Byte) : Option Packet :=
  match opOf (field b 0 1) with
  | none => none
  | some op =>
    if field b 3 1 / 16 ≠ 0 || field b 7 1 / 16 ≠ 0 || 64 ≤ field b 8 1 || 16 < headerLines b || field b 14 2 ≠ 0 then none
    else
      let fl := field b 1 1
      some { op := op, rv := bitOf fl 0, vc := BitVec.ofNat 2 (bitsOf fl 2 1), reissue := bitOf fl 3
             opflags := BitVec.ofNat 4 (fl / 16), dstMod := BitVec.ofNat 12 (field b 2 2), dstCore := BitVec.ofNat 8 (field b 4 1)
             srcCore := BitVec.ofNat 8 (field b 5 1), srcMod := BitVec.ofNat 12 (field b 6 2), vf := BitVec.ofNat 6 (field b 8 1)
             gen := BitVec.ofNat 8 (field b 9 1), tag := BitVec.ofNat 16 (field b 10 2), hops := BitVec.ofNat 8 (field b 13 1)
             addr := BitVec.ofNat 64 (field b 16 8), opnd0 := BitVec.ofNat 64 (field b 24 8), opnd1 := BitVec.ofNat 64 (field b 32 8)
             stamp := BitVec.ofNat 32 (field b 40 4), opword := BitVec.ofNat 32 (field b 44 4), data := data
             poisoned := bitOf fl 4 }

def respCode : RespKind → Nat
  | .none => 0 | .ack => 1 | .result => 2 | .rack => 3 | .busy => 4

def respOf (n : Nat) : RespKind := [RespKind.none, .ack, .result, .rack, .busy].getD n .none

/-- The 24 bytes of a response. -/
def responseBytes (r : Response) : List Byte :=
  [BitVec.ofNat 8 (respCode r.kind), r.status] ++ leBytes 2 r.dstMod.toNat ++ [r.dstCore, r.vf.setWidth 8, r.gen, 0]
    ++ leBytes 2 r.tag.toNat ++ zeros 6 ++ leBytes 8 r.value.toNat

def responseOf (b : List Byte) : Response :=
  { kind := respOf (field b 0 1), status := BitVec.ofNat 8 (field b 1 1), dstMod := BitVec.ofNat 12 (field b 2 2)
    dstCore := BitVec.ofNat 8 (field b 4 1), vf := BitVec.ofNat 6 (field b 5 1), gen := BitVec.ofNat 8 (field b 6 1)
    tag := BitVec.ofNat 16 (field b 8 2), value := BitVec.ofNat 64 (field b 16 8) }

/-! ## Flits (R349, R350) -/

/-- One byte of the CRC, most significant bit first. -/
def crcByte (c : Word) (b : Byte) : Word :=
  (List.range 8).foldl (fun (c : Word) _ =>
    if c.getLsbD 63 then (c <<< 1) ^^^ 0x42F0E1EBA9EA3693 else c <<< 1) (c ^^^ (b.setWidth 64 <<< 56))

/-- CRC-64 with the polynomial of ECMA-182. -/
def crc64 (bs : List Byte) : Word := bs.foldl crcByte (BitVec.allOnes 64) ^^^ BitVec.allOnes 64

/-- A segment: its kind in SEGMAP and its bytes. -/
abbrev Seg := Nat × List Byte

/-- A run of bytes filled with zeros to a length. -/
def padTo (n : Nat) (bs : List Byte) : List Byte := (bs ++ zeros n).take n

/-- A flit of ten segments. -/
def flitOf (seq ack : Nat) (credit : Nat → Nat) (rv rreq : Bool) (segs : List Seg) : List Byte :=
  let seg := fun k : Nat => segs.getD k (0, [])
  let map := (List.range 10).foldl (fun a k => a + (seg k).1 * 4 ^ k) 0
  let creditWord := (List.range 4).foldl (fun a v => a + credit v % 256 * 256 ^ v) 0
  let hdr := seq % 4096 + ack % 4096 * 2 ^ 12 + map * 2 ^ 24 + (if rreq then 2 ^ 44 else 0) + (if rv then 2 ^ 45 else 0)
    + creditWord * 2 ^ 48
  let body := leBytes 16 hdr ++ padTo 48 (seg 0).2 ++ (List.range 8).flatMap (fun k => padTo 64 (seg (k + 1)).2)
    ++ padTo 56 (seg 9).2
  body ++ leBytes 8 (crc64 body).toNat

/-- The kind of segment k of a flit. -/
def segKind (f : List Byte) (k : Nat) : Nat := field f 3 3 / 4 ^ k % 4

/-- The bytes of segment k. -/
def segBytes (f : List Byte) (k : Nat) : List Byte :=
  if k = 0 then (f.drop 16).take 48 else if k = 9 then (f.drop 576).take 56 else (f.drop (64 * k)).take 64

def flitSeq (f : List Byte) : Nat := field f 0 2 % 4096
def flitAck (f : List Byte) : Nat := field f 1 2 / 16
def flitRreq (f : List Byte) : Bool := bitOf (field f 5 1) 4
def flitCredit (f : List Byte) (vc : Nat) : Nat := field f (6 + vc) 1

/-- Whether a flit is damaged (R350). -/
def flitDamaged (f : List Byte) : Bool :=
  f.length ≠ 640 || field f 632 8 ≠ (crc64 (f.take 632)).toNat || segKind f 0 = 2 || segKind f 9 = 2
    || field f 10 6 ≠ 0 || field f 5 1 / 64 ≠ 0

/-- A held flit as it is sent again: ACK and CREDIT take their current values (R354). -/
def refreshed (f : List Byte) (ack : Nat) (credit : Nat → Nat) : List Byte :=
  let low := field f 0 6
  let hdr := low - low / 2 ^ 12 % 2 ^ 12 * 2 ^ 12 + ack % 4096 * 2 ^ 12
  let body := leBytes 6 hdr ++ (List.range 4).map (fun v => BitVec.ofNat 8 (credit v)) ++ (f.take 632).drop 10
  body ++ leBytes 8 (crc64 body).toNat

/-! ## Sending (R353 to R356) -/

/-- The flits' segments of a packet: the header and eight lines, then eight lines more. -/
def packetFlits (p : Packet) : List (List Seg) :=
  let line := fun i : Nat => ((2, (p.data.drop (64 * i)).take 64) : Seg)
  let n := p.data.length / 64
  ((1, packetHeader p) :: (List.range (min 8 n)).map line) ::
    (if n ≤ 8 then [] else [(0, []) :: (List.range (n - 8)).map (fun i => line (8 + i))])

def packetSegs (p : Packet) : Nat := 1 + p.data.length / 64

/-- The count of freed units of a VC that a flit sent now carries: at most 255 above what the peer is known to have, so
that its eight bits say it (R349, R355). -/
def FPort.creditOut (t : FPort) (vc : Nat) : Nat := min (Tbl.get t.freed vc 0) (Tbl.get t.sure vc 0 + 255)

/-- Whether units have been freed that no flit sent has told the peer of. -/
def FPort.owes (t : FPort) : Bool :=
  (List.range 4).any (fun v => t.creditOut v % 256 ≠ (match t.tx.getLast? with
    | some e => flitCredit e.2.2 v
    | none => Tbl.get t.sure v 0 % 256))

/-- One flit is put on a link and held. -/
def State.sendFlit (s : State) (p : Nat) (rv : Bool) (segs : List Seg) : State :=
  let t := s.port p
  let f := flitOf t.nextSeq t.lastRx t.creditOut rv t.rreq segs
  let s1 := s.modPort p (fun t => { t with
    tx := t.tx ++ [(t.nextSeq, s.now, f)], nextSeq := (t.nextSeq + 1) % 4096, rreq := false })
  let s2 := s1.send (.flit (BitVec.ofNat 7 p) f)
  if t.tx.isEmpty then s2.after 5400 (.replayTimeout (BitVec.ofNat 7 p)) else s2

/-- A segment has left a receive buffer: its unit returns through CREDIT (R355). -/
def State.freeSegs (s : State) (p vc n : Nat) : State :=
  s.modPort p (fun t => { t with freed := Tbl.upd t.freed vc 0 (· + n) })

/-- The segments of a relayed packet leave the buffer of the port and the VC that it came by. -/
def State.freeFrom (s : State) (via : Option (Nat × Nat)) (n : Nat) : State :=
  match via with
  | some (p, vc) => s.freeSegs p vc n
  | none => s

/-- A response has left the module: its segment leaves the receive buffer with the last of its responses. -/
def State.freeResp (s : State) (via : Option (Nat × Nat)) : State :=
  match via with
  | none => s
  | some (p, id) =>
    let left := Tbl.get (s.port p).halves id 0 - 1
    let s1 := s.modPort p (fun t => { t with halves := if left = 0 then Tbl.del t.halves id else Tbl.put t.halves id left })
    if left = 0 then s1.freeSegs p 2 1 else s1

/-- The segments that a VF of the present generation has in flight on a VC of a port (R356). -/
def State.vfInFlight (s : State) (t : FPort) (vc : Nat) (vf : BitVec 6) : Nat :=
  ((Tbl.get t.segs vc []).filter (fun e => e = some (vf, s.gen vf))).length

/-- A launch and the nodes above it. -/
def State.lineage (s : State) : Nat → Nat → List Nat
  | 0, _ => []
  | n + 1, id => match Tbl.find s.launches id with
    | none => []
    | some l => id :: (l.parent.map (s.lineage n)).getD []

/-- The regions to whose figures a packet of a core's word is held: the VF's partition, written 0, and the launch of the gang
that injects it with the nodes above it (R291, R292). -/
def State.regionsOf (s : State) (p : Packet) : List Nat :=
  match Tbl.find s.ops (p.srcCore.toNat * 2 ^ 16 + p.tag.toNat) with
  | none => [0]
  | some f => 0 :: ((Tbl.find s.gangs f.gang).map (fun g => s.lineage 8 g.launch)).getD []

/-- The flits that a region of a VF may inject in a microsecond: the FABRIC of the partition's record, or of the launch's
resolved block (R291, R356). -/
def State.fabricRate (s : State) (vf : BitVec 6) (region : Nat) : Nat :=
  if region = 0 then field (s.vf vf.toNat).record 164 4
  else ((Tbl.find s.launches region).map (fun l => l.rcb.fabric)).getD 0

/-- The flits of a region of a VF that count in the present microsecond of domain time: those injected in it, and those by which
a packet of two flits has passed a figure of one before it (log entry 17). -/
def State.injectedNow (s : State) (vf : BitVec 6) (region : Nat) : Nat :=
  let i := (s.vf vf.toNat).injected
  Tbl.get i.2 region 0 - s.fabricRate vf region * (s.domainUs - i.1)

/-- Whether the rates of regions of a VF leave room for flits. -/
def State.rateOk (s : State) (vf : BitVec 6) (regions : List Nat) (flits : Nat) : Bool :=
  regions.all (fun r => 0 < s.fabricRate vf r && s.injectedNow vf r + min flits (s.fabricRate vf r) ≤ s.fabricRate vf r)

/-- Flits that a VF injects are counted. -/
def State.countInjected (s : State) (vf : BitVec 6) (regions : List Nat) (flits : Nat) : State :=
  s.modVf vf.toNat (fun f => { f with injected := (s.domainUs,
    regions.foldl (fun t r => Tbl.upd t r 0 (· + flits)) ((f.injected.2.map (fun e => (e.1, s.injectedNow vf e.1))).filter (fun e => e.2 ≠ 0))) })

/-- A packet that waits to be sent: the port and the VC of the buffer it stands in, none for one that the module itself sends,
its place in the order of arrival, and the packet. -/
abbrev Queued := Option (Nat × Nat) × Nat × Packet

/-- Whether a packet is injected here for a VF. -/
def injectedHere (e : Queued) : Bool := e.1.isNone && e.2.2.op ≠ .plough && e.2.2.op ≠ .echo

/-- Whether a queued packet may be sent: the allowance holds it, and a VF that injects here holds at most half and keeps
its rate (R355, R356). -/
def State.sendable (s : State) (t : FPort) (vc : Nat) (e : Queued) : Bool :=
  let p := e.2.2
  packetSegs p ≤ Tbl.get t.allow vc 0 && (!(injectedHere e)
    || (2 * (s.vfInFlight t vc p.vf + packetSegs p) ≤ bufferSize vc && s.rateOk p.vf (s.regionsOf p) (packetFlits p).length))

/-- The packet a VC sends next: the first that may be sent. A PLOUGH passes no packet before it, and nothing passes a
PLOUGH (R365). -/
def State.nextOf (s : State) (t : FPort) (vc : Nat) (passed : Bool) :
    List Queued → Option Queued
  | [] => none
  | e :: es =>
    if e.2.2.op = .plough then (if !passed && s.sendable t vc e then some e else none)
    else if s.sendable t vc e then some e else s.nextOf t vc true es

/-- Removes the first entry equal to one. -/
def dropOne {α : Type} [DecidableEq α] (x : α) : List α → List α
  | [] => []
  | y :: ys => if x = y then ys else y :: dropOne x ys

/-- The flits of a packet begun go on, one at a time. -/
def State.sendRest (s : State) (p : Nat) : State :=
  match (s.port p).rest with
  | [] => s
  | f :: fs => (s.modPort p (fun t => { t with rest := fs })).sendFlit p f.1 f.2

/-- A packet is begun on a port: it leaves the buffer it waited in, and its first flit is sent. -/
def State.sendPacket (s : State) (p vc : Nat) (e : Queued) : State :=
  let k := e.2.2
  let s0 := if injectedHere e then s.countInjected k.vf (s.regionsOf k) (packetFlits k).length else s
  let s1 := s0.modPort p (fun t => { t with
    queue := Tbl.upd t.queue vc [] (dropOne e)
    allow := Tbl.upd t.allow vc 0 (· - packetSegs k)
    segs := Tbl.upd t.segs vc [] (· ++ List.replicate (packetSegs k) (if injectedHere e then some (k.vf, k.gen) else none))
    rest := (packetFlits k).map (fun f => (k.rv, f)), restOf := e.1.map (fun _ => e.2.1) })
  (s1.sendRest p).freeFrom e.1 (packetSegs k)

/-- Whether a response may be sent as far as the share and the rate of its VF go. -/
def State.respOk (s : State) (t : FPort) (e : Option (Nat × Nat) × Response) : Bool :=
  e.1.isSome || (2 * (s.vfInFlight t 2 e.2.vf + 1) ≤ bufferSize 2 && s.rateOk e.2.vf [0] 1)

/-- The responses of the next segment: one that may be sent, and another that is relayed or of the same VF. -/
def State.nextResps (s : State) (t : FPort) : List (Option (Nat × Nat) × Response) :=
  match t.resps.find? (s.respOk t) with
  | none => []
  | some a => a :: ((dropOne a t.resps).find? (fun b => b.1.isSome || (s.respOk t b
      && (a.1.isSome || (b.2.vf = a.2.vf && b.2.gen = a.2.gen))))).toList

/-- Up to two responses are sent in one segment. -/
def State.sendResps (s : State) (p : Nat) (two : List (Option (Nat × Nat) × Response)) : State :=
  let who := (two.find? (fun r => r.1.isNone)).map (fun r => (r.2.vf, r.2.gen))
  let s0 := match who with
    | some (v, _) => s.countInjected v [0] 1
    | none => s
  let s1 := s0.modPort p (fun t => { t with
    resps := two.foldl (fun l r => dropOne r l) t.resps
    allow := Tbl.upd t.allow 2 0 (· - 1)
    segs := Tbl.upd t.segs 2 [] (· ++ [who]) })
  two.foldl (fun (t : State) r => t.freeResp r.1)
    (s1.sendFlit p s.rv [(3, two.flatMap (fun r => responseBytes r.2))])

/-- Whether a port may send a new flit: at most 256 are held, and a replay goes first (R353, R354). -/
def FPort.maySend (t : FPort) : Bool :=
  (t.st = .active || t.st = .draining) && !t.replaying && t.tx.length < 256

/-- One flit is sent on a port, when it may send one. -/
def State.sendOne (s : State) (p : Nat) : Option State :=
  let t := s.port p
  if !t.maySend then none
  else if !t.rest.isEmpty then some (s.sendRest p)
  else match s.nextResps t with
    | r :: rs => if 1 ≤ Tbl.get t.allow 2 0 then some (s.sendResps p (r :: rs)) else packet t
    | [] => packet t
where
  packet (t : FPort) : Option State :=
    (([3, 1, 0] ++ (if t.resps.isEmpty then [2] else [])).findSome? (fun (vc : Nat) =>
      (s.nextOf t vc false (Tbl.get t.queue vc [])).map (fun e => s.sendPacket p vc e)))

/-- What a port has to send and may send. -/
def State.pumpFrom (p : Nat) : Nat → State → State
  | 0, s => s
  | n + 1, s => match s.sendOne p with
    | some t => State.pumpFrom p n t
    | none => s

/-- The packets and responses that wait to be sent on a port. -/
def FPort.waiting (t : FPort) : Nat := t.resps.length + t.queue.foldl (fun a e => a + e.2.length) 0

def State.pump (s : State) (p : Nat) : State :=
  State.pumpFrom p ((s.port p).rest.length + 2 * (s.port p).waiting) s

/-- A flit with no segment carries ACK, CREDIT and RREQ. -/
def State.sendIdle (s : State) (p : Nat) : State := if (s.port p).maySend then s.sendFlit p s.rv [] else s

/-- Whether rates alone hold something back that a port has to send. -/
def State.rateHeld (s : State) (t : FPort) : Bool :=
  let slow := fun (v : BitVec 6) (l : List Nat) => l.all (fun r => s.fabricRate v r ≠ 0) && !(s.rateOk v l 2)
  t.queue.any (fun q => q.2.any (fun e => injectedHere e && slow e.2.2.vf (s.regionsOf e.2.2)))
    || t.resps.any (fun r => r.1.isNone && slow r.2.vf [0])

/-- Walker cycles to the next microsecond of domain time. -/
def State.nextUs (s : State) : Nat := ceilDiv (27 * (1000 - s.domainNs % 1000)) 10

/-- Every port sends what it may, units freed are told to the peers, and a port that a rate holds is looked at again in the
next microsecond. -/
def State.pumpAll (s : State) : State :=
  let s1 := s.fports.foldl (fun t e => t.pump e.1) s
  let s2 := s1.fports.foldl (fun t e => if e.2.owes then t.sendIdle e.1 else t) s1
  s2.fports.foldl (fun t e =>
    let i : Instr := .replayTimeout (BitVec.ofNat 7 e.1)
    if t.rateHeld e.2 && !(t.agenda.any (fun x => x.1 = t.now + t.nextUs && x.2 = i)) then t.after t.nextUs i else t) s2

/-! ## Routing (R363, R364) -/

/-- What stands before a new packet on a port. -/
def FPort.load (t : FPort) : Nat := t.waiting + t.rest.length + t.tx.length

/-- The least loaded of ports, the lowest on a tie. -/
def State.leastLoaded (s : State) (l : List Nat) : Option Nat :=
  l.foldl (fun (a : Option Nat) p => match a with
    | none => some p
    | some q => if (s.port p).load < (s.port q).load then some p else some q) none

/-- The ports a version's table allows toward a module. -/
def State.routeSet (s : State) (rv : Bool) (dst : BitVec 12) : List Nat :=
  let t := if rv then s.route1 else s.route0
  if !t.loaded then []
  else if groupOf dst = groupOf s.moduleId then
    let p := (Tbl.get t.mport (memberOf dst) 0xFF).toNat
    if p < 96 then [p] else []
  else ((List.range 64).filter (fun i => (Tbl.get t.gmask (groupOf dst) 0).getLsbD i)).map (· + 32)

/-- The port a packet leaves by: the least loaded ACTIVE one. -/
def State.routePort (s : State) (rv : Bool) (dst : BitVec 12) : Option Nat :=
  s.leastLoaded ((s.routeSet rv dst).filter (fun p => s.portExists p && (s.port p).st = .active))

/-- A packet joins a port's queue, with the port and the VC it came by and its place in the order of arrival; none when it has
no route. -/
def State.forwardPkt (s : State) (via : Option (Nat × Nat)) (arrival : Nat) (p : Packet) : Option State :=
  (s.routePort p.rv p.dstMod).map (fun port =>
    s.modPort port (fun t => { t with queue := Tbl.upd t.queue p.vc.toNat [] (· ++ [(via, arrival, p)]) }))

/-- The injection of a packet under the version in force (R363); none for NOROUTE. -/
def State.inject (s : State) (p : Packet) : Option State :=
  let vc : BitVec 2 := if p.op = .coll then 3 else if groupOf p.dstMod = groupOf s.moduleId then 1 else 0
  (s.forwardPkt none 0 { p with rv := s.rv, hops := 0, vc := vc }).map State.pumpAll

/-- A response sets out, or goes on; with no route it is lost. -/
def State.forwardResp (s : State) (via : Option (Nat × Nat)) (r : Response) : State :=
  match s.routePort s.rv r.dstMod with
  | some port => s.modPort port (fun t => { t with resps := t.resps ++ [(via, r)] })
  | none => s.freeResp via

/-- The answer to a packet. -/
def State.respond (s : State) (p : Packet) (kind : RespKind) (status : Byte) (value : Word) : State :=
  (s.forwardResp none { kind := kind, status := status, dstMod := p.srcMod, dstCore := p.srcCore, vf := p.vf
                        gen := p.gen, tag := p.tag, value := value }).pumpAll

/-! ## Port states (R367) -/

/-- A link as training leaves it (R349, R355). -/
def FPort.trained (t : FPort) : FPort :=
  { t with
    tx := [], rest := [], restOf := none, replaying := false, nextSeq := 1, lastRx := 0, rreq := false, partials := [], halves := []
    freed := [], credited := [], sure := [], segs := []
    allow := (List.range 4).map (fun v => (v, bufferSize v)), ploughed := [], newCircuit := false }

/-- FLNK is answered. -/
def State.flnkAnswer (s : State) (p : Nat) (v : Word) : State :=
  match (s.port p).waiter with
  | none => s
  | some (o, d) => (((s.modPort p (fun t => { t with waiter := none })).land o d v).unblock o).finish o

/-- A plough round that has no echo left to come ends (R365). -/
def State.roundCheck (s : State) : State :=
  match s.ploughWait with
  | none => s
  | some (o, d) =>
    if s.ploughOut.isEmpty then
      ((({ s with ploughWait := none, roundsEnded := s.ploughRound }).land o d 0).unblock o).finish o
    else s

/-- What stands in the receive buffers of a port is discarded, wherever it waits to be sent on. -/
def FPort.without (t : FPort) (p : Nat) : FPort :=
  { t with
    queue := t.queue.map (fun q => (q.1, q.2.filter (fun e => e.1.map (fun v => v.1) ≠ some p)))
    resps := t.resps.filter (fun r => r.1.map (fun v => v.1) ≠ some p) }

/-- A port enters DOWN: its flits and buffers are discarded, its allowances are void, and its PLOUGHs count as
echoed. -/
def State.portDown (s : State) (p type : Nat) : State :=
  let t := s.port p
  let s0 := { s with fports := s.fports.map (fun (e : Nat × FPort) => (e.1, e.2.without p)) }
  let t0 := t.without p
  let s1 := t0.queue.foldl (fun (a : State) q => q.2.foldl (fun (b : State) e => b.freeFrom e.1 (packetSegs e.2.2)) a) s0
  let s2 := t0.resps.foldl (fun (a : State) r => a.freeResp r.1) s1
  let s3 := s2.modPort p (fun t => { FPort.reset with late := t.late, err := t.err, waiter := t.waiter })
  let s4 := { s3 with ploughOut := s3.ploughOut.filter (fun e => e.1 ≠ p), ploughedIn := s3.ploughedIn.filter (fun e => e.1 ≠ p) }
  ((if t.st = .down then s4 else s4.portEvent type p t.width).flnkAnswer p (BitVec.ofNat 64 (2 ^ 63 + 0x0E))).roundCheck

/-- A port changes its state, and with it what a function says. -/
def State.setPortState (s : State) (p : Nat) (st : PortState) (f : FPort → FPort) : State :=
  let w := (s.port p).width
  (s.modPort p (fun t => { f t with st := st })).portEvent 4 p w

/-- A global port's training begins with all its wavelengths. -/
def startTraining (p : Nat) (t : FPort) : FPort := { t with mask := if isGlobal p then 0xFFFF else 0 }

/-- A port whose drain is complete goes DARK. -/
def State.drainCheck (s : State) (p : Nat) : State :=
  let t := s.port p
  if t.st = .draining && t.ploughed.isEmpty && t.tx.isEmpty then s.after 0 (.drainDone (BitVec.ofNat 7 p)) else s

/-! ## The link layer's steps (R353, R354) -/

/-- Every held flit is sent again, in order. -/
def State.replay (s : State) (p : Nat) : State :=
  let t := s.port p
  t.tx.foldl (fun (a : State) e => a.send (.flit (BitVec.ofNat 7 p) (refreshed e.2.2 t.lastRx t.creditOut)))
    (s.modPort p (fun t => { t with tx := t.tx.map (fun e => (e.1, s.now, e.2.2)), replaying := false }))

/-- FLIT_REPLAY: every held flit is sent again, and then new ones (R354). -/
def execFlitReplay (port : BitVec 7) (s : State) : Host.Outcome State Fault Refusal :=
  let p := port.toNat
  if !(s.portExists p) then .fault (.noSuchUnit "port")
  else .next (if (s.port p).tx.isEmpty then ((s.replay p).sendIdle p).pumpAll else (s.replay p).pumpAll)

/-- A sender that has held its oldest flit for 2 µs sends again (R354). -/
def execReplayTimeout (port : BitVec 7) (s : State) : Host.Outcome State Fault Refusal :=
  let p := port.toNat
  if !(s.portExists p) then .fault (.noSuchUnit "port")
  else match (s.port p).tx with
    | [] => .next s.pumpAll
    | e :: _ =>
      if s.now < e.2.1 + 5400 then .next (s.after (e.2.1 + 5400 - s.now) (.replayTimeout port)).pumpAll
      else .next ((s.replay p).after 5400 (.replayTimeout port))

/-- Held flits up to and including an acknowledged one are freed. -/
def ackTx (tx : List (Nat × Nat × List Byte)) (ack : Nat) : List (Nat × Nat × List Byte) :=
  match tx.findIdx? (fun e => e.1 = ack) with
  | some i => tx.drop (i + 1)
  | none => tx

/-- With an acknowledged flit the peer has the counts of freed units that the flit carried. -/
def FPort.heard (t : FPort) (ack : Nat) : FPort :=
  match t.tx.find? (fun e => e.1 = ack) with
  | none => t
  | some e => { t with
      tx := ackTx t.tx ack
      sure := (List.range 4).foldl (fun m v => Tbl.upd m v 0 (fun n => n + (flitCredit e.2.2 v + 256 - n % 256) % 256)) t.sure }

/-- Units of a VC return: they are matched to the oldest segments in flight (R355, R356). -/
def FPort.creditVc (t : FPort) (vc count : Nat) : FPort :=
  let n := (count + 256 - Tbl.get t.credited vc 0) % 256
  { t with
    credited := Tbl.put t.credited vc count
    allow := Tbl.upd t.allow vc 0 (· + n)
    segs := Tbl.upd t.segs vc [] (List.drop n) }

/-- A packet of a group message has reached the module: with the others of its tag it is the message, once they are whole
(R360, R380; log entry 47). -/
def State.collPacketIn (s : State) (p : Packet) : State :=
  let same := fun q : Packet => q.srcMod = p.srcMod && q.srcCore = p.srcCore && q.tag = p.tag && q.vf = p.vf && q.gen = p.gen
    && q.stamp = p.stamp
  let l := s.collParts.filter same ++ [p]
  let others := s.collParts.filter (fun q => !(same q) && !(s.aged q.stamp 64))
  match Config.collOf l with
  | none => { s with collParts := others ++ l }
  | some (i, kind, body) => { s with collParts := others }.after 0 (.collArrive
      { vf := p.vf, gen := p.gen, dstMod := p.dstMod, dstCore := p.dstCore.toNat, srcMod := p.srcMod, srcCore := p.srcCore.toNat
        group := p.opword.setWidth 4, srcIndex := i, seq := p.opword.toNat / 2 ^ 16, kind := kind, tag := p.tag, stamp := p.stamp
        body := body })

/-- A whole packet has reached the module by a port: discarded as malformed or late, taken up here, or sent on (R351,
R358, R363, R364). -/
def State.packetIn (s : State) (port : Nat) (hdr data : List Byte) : State :=
  let vc := bitsOf (field hdr 1 1) 2 1
  let n := 1 + data.length / 64
  let gone := fun (t : State) => t.freeSegs port vc n
  match packetOf hdr data with
  | none => gone (s.modPort port (fun t => { t with err := satAdd 16 t.err 1 }))
  | some p =>
    if s.aged p.stamp 64 then gone (s.modPort port (fun t => { t with late := satAdd 16 t.late 1 }))
    else
      let a := s.arrivals + 1
      let s1 := { s with arrivals := a }
      match p.op with
      | .plough => gone (s1.after 0 (.ploughArrive (BitVec.ofNat 7 port) p))
      | .echo => gone (s1.after 0 (.echoArrive (BitVec.ofNat 7 port) p))
      | op =>
        if p.dstMod = s.moduleId then
          gone (match op with
            | .put => s1.after 0 (.putArrive { p with opnd0 := 0 })
            | .atom => s1.after 0 (.atomArrive p)
            | .pull => s1.after 0 (.pullArrive p)
            | _ => s1.collPacketIn p)
        else
          let q := { p with hops := p.hops + 1, vc := if p.vc = 0 && isGlobal port then 1 else p.vc }
          match s1.forwardPkt (some (port, vc)) a q with
          | some t => t
          | none => (gone s1).respond p .ack 2 0

/-- A response of a segment has reached the module: it is taken up here, or goes on. -/
def State.responseIn (s : State) (port id : Nat) (r : Response) : State :=
  if r.kind = .none then s.freeResp (some (port, id))
  else if r.dstMod = s.moduleId then (s.after 0 (.responseArrive r)).freeResp (some (port, id))
  else s.forwardResp (some (port, id)) r

/-- A response segment enters the receive buffer, and its two responses are taken up. -/
def State.responsesIn (s : State) (port : Nat) (b : List Byte) : State :=
  let id := s.arrivals + 1
  let s1 := { s with arrivals := id }.modPort port (fun t => { t with halves := Tbl.put t.halves id 2 })
  (s1.responseIn port id (responseOf (b.take 24))).responseIn port id (responseOf ((b.drop 24).take 24))

/-- A segment of an accepted flit enters a receive buffer (R355). -/
def State.segmentIn (s : State) (port : Nat) (kind : Nat) (b : List Byte) : State :=
  match kind with
  | 1 =>
    let hdr := b.take 48
    let n := headerLines hdr
    if n = 0 || 16 < n then s.packetIn port hdr [] else s.modPort port (fun t => { t with partials := (hdr, n, []) :: t.partials })
  | 2 => match (s.port port).partials with
    | [] => s
    | (hdr, n, data) :: rest =>
      if n ≤ 1 then (s.modPort port (fun t => { t with partials := rest })).packetIn port hdr (data ++ padTo 64 b)
      else s.modPort port (fun t => { t with partials := (hdr, n - 1, data ++ padTo 64 b) :: rest })
  | 3 => s.responsesIn port b
  | _ => s

/-- FLIT_RECEIVE (R350, R353 to R356). -/
def execFlitReceive (port : BitVec 7) (flit : List (BitVec 8)) (s : State) : Host.Outcome State Fault Refusal :=
  let p := port.toNat
  let t := s.port p
  if !(s.portExists p) then .fault (.noSuchUnit "port")
  else if !(t.st = .active || t.st = .draining) then .next s
  else if flitDamaged flit || flitSeq flit ≠ (t.lastRx + 1) % 4096 then
    .next ((s.modPort p (fun t => { t with rreq := true })).sendIdle p)
  else
    let s1 := s.modPort p (fun t =>
      let u := { t.heard (flitAck flit) with lastRx := flitSeq flit, replaying := t.replaying || flitRreq flit }
      (List.range 4).foldl (fun (u : FPort) v => u.creditVc v (flitCredit flit v)) u)
    let s2 := if flitRreq flit then s1.after 0 (.flitReplay port) else s1
    let s3 := (List.range 10).foldl (fun (a : State) k => a.segmentIn p (segKind flit k) (segBytes flit k)) s2
    let busy := (List.range 10).any (fun k => segKind flit k ≠ 0)
    let s4 := s3.pumpAll
    let sent := (s4.port p).nextSeq ≠ (s3.port p).nextSeq
    .next ((if busy && !sent then s4.sendIdle p else s4).drainCheck p)

/-! ## Optical ports (R366, R367) -/

/-- LOSS_OF_LIGHT on a laser group: the port narrows and sends again, goes down with its last group, or, while its
circuit moves, keeps its state. -/
def execLossOfLight (port : BitVec 7) (group : BitVec 2) (s : State) : Host.Outcome State Fault Refusal :=
  let p := port.toNat
  let t := s.port p
  let m := t.mask &&& ~~~(groupMask group.toNat)
  let back := if t.retraining = some group then none else t.retraining
  if !(s.portExists p) then .fault (.noSuchUnit "port")
  else if !(isGlobal p) || t.st = .down || t.st = .training then .next s
  else if t.st = .active && m = 0 then .next ((s.portDown p 1).pumpAll)
  else
    let s1 := (s.modPort p (fun t => { t with mask := m, retraining := back })).portEvent 1 p t.width
    .next (if t.st = .active then s1.replay p else s1)

/-- RETRAIN_START: a wavelength's group leaves the port; at most one retrains, and the last one stays. -/
def execRetrainStart (port : BitVec 7) (wavelength : BitVec 4) (s : State) : Host.Outcome State Fault Refusal :=
  let p := port.toNat
  let t := s.port p
  let g := wavelength.toNat / 4
  let m := t.mask &&& ~~~(groupMask g)
  if !(s.portExists p) then .fault (.noSuchUnit "port")
  else if !(isGlobal p) || t.st ≠ .active || t.retraining.isSome || m = t.mask || m = 0 then .next s
  else .next ((s.modPort p (fun t => { t with mask := m, retraining := some (BitVec.ofNat 2 g) })).portEvent 2 p t.width)

/-- RETRAIN_DONE: the group returns. -/
def execRetrainDone (port : BitVec 7) (group : BitVec 2) (s : State) : Host.Outcome State Fault Refusal :=
  let p := port.toNat
  let t := s.port p
  if !(s.portExists p) then .fault (.noSuchUnit "port")
  else if t.retraining ≠ some group then .next s
  else .next ((s.modPort p (fun t => { t with mask := t.mask ||| groupMask group.toNat, retraining := none })).portEvent 3 p t.width)

/-- The first link of the module to be trained brings it the time of its domain, which it keeps from then on (R358; log
entry 17). -/
def State.joinDomain (s : State) : State :=
  if s.joined then s
  else { s with domainTime := Config.domainOffset s.nextFree, nextFree := s.nextFree + 1, joined := true }

/-- TRAINING_DONE: training to a peer succeeds or fails (R367). -/
def execTrainingDone (port : BitVec 7) (ok : Bool) (s : State) : Host.Outcome State Fault Refusal :=
  let p := port.toNat
  let t := s.port p
  if !(s.portExists p) then .fault (.noSuchUnit "port")
  else if !(t.st = .training || t.st = .relock) then .next s
  else if !ok || (isGlobal p && t.mask = 0) then .next ((s.portDown p 4).pumpAll)
  else .next (((s.joinDomain.setPortState p .active FPort.trained).flnkAnswer p 0).pumpAll)

/-- DRAIN_DONE: every PLOUGH is echoed and the replay buffer is empty; the port goes DARK. -/
def execDrainDone (port : BitVec 7) (s : State) : Host.Outcome State Fault Refusal :=
  let p := port.toNat
  let t := s.port p
  if !(s.portExists p) then .fault (.noSuchUnit "port")
  else if t.st = .draining && t.ploughed.isEmpty && t.tx.isEmpty then .next ((s.setPortState p .dark id).flnkAnswer p 0)
  else .next s

/-- CIRCUIT_REPORTED: the switch reports the new circuit of a DARK port. -/
def execCircuitReported (port : BitVec 7) (s : State) : Host.Outcome State Fault Refusal :=
  let p := port.toNat
  if !(s.portExists p) then .fault (.noSuchUnit "port")
  else .next (s.modPort p (fun t => if t.st = .dark then { t with newCircuit := true } else t))

/-! ## Plough rounds (R365) -/

/-- A PLOUGH or an ECHO: RV names the version, OPWORD the round in bits 3:0 and the PLOUGH's VC in bits 5:4. -/
def State.markPacket (s : State) (op : PktOp) (rv : Bool) (vc : Nat) (round : Nat) (of : Nat) : Packet :=
  { op := op, rv := rv, vc := BitVec.ofNat 2 vc, reissue := false, opflags := 0, dstMod := 0, dstCore := 0, srcCore := 0
    srcMod := s.moduleId, vf := 0, gen := 0, tag := 0, hops := 0, addr := 0, opnd0 := 0, opnd1 := 0, stamp := s.stampNow
    opword := BitVec.ofNat 32 (round + 16 * of), data := [], poisoned := false }

/-- A PLOUGH joins each of some VCs of a port, behind every earlier packet. -/
def State.plough (s : State) (p : Nat) (vcs : List Nat) (rv : Bool) (round : Nat) : State :=
  vcs.foldl (fun (a : State) v => a.modPort p (fun t => { t with
    queue := Tbl.upd t.queue v [] (· ++ [(none, 0, s.markPacket .plough rv v round v)]) })) s

/-- PLOUGH_ARRIVE: the module notes what had reached it before. -/
def execPloughArrive (port : BitVec 7) (p : Packet) (s : State) : Host.Outcome State Fault Refusal :=
  if !(s.portExists port.toNat) then .fault (.noSuchUnit "port")
  else
    let r : BitVec 4 := p.opword.setWidth 4
    let v := p.vc
    .next ({ s with ploughedIn := s.ploughedIn ++ [(port.toNat, v, p.rv, r, s.arrivals)] }.after 0
      (.echoSend port v p.rv r))

/-- Whether every packet that reached the module up to a place in the order of arrival has left it, to its last flit. -/
def State.leftModule (s : State) (arrival : Nat) : Bool :=
  s.fports.all (fun e => e.2.queue.all (fun q => q.2.all (fun x => x.1.isNone || arrival < x.2.1))
    && (e.2.rest.isEmpty || e.2.restOf.all (fun a => decide (arrival < a))))

/-- ECHO_SEND: the echo goes back on the same port. -/
def execEchoSend (port : BitVec 7) (vc : BitVec 2) (version : Bool) (round : BitVec 4) (s : State) :
    Host.Outcome State Fault Refusal :=
  let p := port.toNat
  if !(s.portExists p) then .fault (.noSuchUnit "port")
  else match s.ploughedIn.find? (fun e => e.1 = p && e.2.1 = vc && e.2.2.1 = version && e.2.2.2.1 = round) with
    | none => .next s
    | some e =>
      if !(s.leftModule e.2.2.2.2) then .next (s.after 1 (.echoSend port vc version round))
      else .next (({ s with ploughedIn := dropOne e s.ploughedIn }.modPort p (fun t => { t with
        queue := Tbl.upd t.queue 3 [] (· ++ [(none, 0, s.markPacket .echo version 3 round.toNat vc.toNat)]) })).pumpAll)

/-- ECHO_ARRIVE: one PLOUGH is echoed, of a round or of a drain. -/
def execEchoArrive (port : BitVec 7) (p : Packet) (s : State) : Host.Outcome State Fault Refusal :=
  let n := port.toNat
  let round := p.opword.toNat % 16
  let vc := p.opword.toNat / 16 % 4
  if !(s.portExists n) then .fault (.noSuchUnit "port")
  else if round = 0 then .next ((s.modPort n (fun t => { t with ploughed := t.ploughed.filter (· ≠ vc) })).drainCheck n)
  else if p.rv = s.ploughVersion && round = s.ploughRound then
    .next ({ s with ploughOut := dropOne (n, vc) s.ploughOut }.roundCheck)
  else .next s

end Sys2Proof.Machine
end

