-- ==== Sys2Proof/Machine/Remote.lean ====
section
/-! DEFINITION. Remote operations: tags and outstanding operations, the reply cache, FPUT, FATOM, FPULL, FFENCE, FCNT and
FSTAT, and the arrivals of packets (R356 to R362, R369 to R378). -/

namespace Sys2Proof.Machine

/-! ## Outstanding operations (R358, R360) -/

/-- The key of an outstanding operation: its core and its tag. -/
def opKey (core : Nat) (tag : BitVec 16) : Nat := core * 2 ^ 16 + tag.toNat

/-- Walker cycles in which a core uses a tag once: 128 µs. -/
def tagRest : Nat := 345600

/-- The tags a core has used too lately. -/
def State.restingTags (s : State) (c : Nat) : List Nat :=
  (s.tagUse.filter (fun e => e.1 / 2 ^ 16 = c && s.now < e.2 + tagRest)).map (fun e => e.1 % 2 ^ 16)

/-- The lowest tag a core may use now. -/
def State.freeTag (s : State) (c : Nat) : Option (BitVec 16) :=
  let used := s.restingTags c
  if 2 ^ 16 ≤ used.length then none
  else ((List.range (used.length + 1)).find? (fun t => !used.contains t)).map (BitVec.ofNat 16)

/-- A packet of a core's word, before its injection. -/
def State.packet (s : State) (op : PktOp) (core : Nat) (tag : BitVec 16) (dm : BitVec 12) (dc : BitVec 8) : Packet :=
  let k := s.core core
  { op := op, rv := s.rv, vc := 0, reissue := false, opflags := 0, dstMod := dm, dstCore := dc, srcCore := BitVec.ofNat 8 core
    srcMod := s.moduleId, vf := k.vf, gen := s.gen k.vf, tag := tag, hops := 0, addr := 0, opnd0 := 0, opnd1 := 0
    stamp := s.stampNow, opword := 0, data := [], poisoned := false }

/-- The answer to a packet. -/
def answerTo (p : Packet) (kind : RespKind) (status : Byte) (value : Word) : Response :=
  { kind := kind, status := status, dstMod := p.srcMod, dstCore := p.srcCore, vf := p.vf, gen := p.gen, tag := p.tag, value := value }

/-- A string's runs cut into packets: (offset, length). -/
def packetCuts (n : Nat) : List (Nat × Nat) := (List.range (ceilDiv n 1024)).map (fun i => (1024 * i, min 1024 (n - 1024 * i)))

/-- The packets of a group message: the PUT of a record's row; a string's lines, each packet with its place in the string and its
poisoned lines; and for any other message at least one packet (log entry 47). -/
def messagePackets (p : Packet) (m : CollMsg) : List Packet :=
  match m.body with
  | .row _ _ _ => [p]
  | .bytes bad data => (packetCuts data.length).map (fun c =>
      let mask := bad / 2 ^ (c.1 / 64) % 2 ^ 16
      { p with addr := BitVec.ofNat 64 c.1, opnd0 := BitVec.ofNat 64 mask, data := (data.drop c.1).take c.2, poisoned := mask ≠ 0 })
  | _ => match Config.collData m with
    | [] => [p]
    | l => l.map (fun d => { p with data := padTo (64 * min 16 (ceilDiv d.length 64)) d })

/-- The packets of an operation set out; with no route, or in reduced service, the operation is answered NOROUTE at once (R364,
R400). -/
def State.sendOut (s : State) (f : FabOp) : State :=
  let none? := s.after 0 (.responseArrive (answerTo f.pkt .ack 2 0))
  if s.inReduced f.core || (s.routePort s.rv f.pkt.dstMod).isNone then none?
  else match f.what with
  | .coll m => (messagePackets f.pkt m).foldl (fun (t : State) p => (t.inject p).getD t) s
  | _ => (s.inject f.pkt).getD none?

/-- An operation is kept until it is answered: it is reissued 16 µs after its STAMP and times out after 64. -/
def State.startOp (s : State) (f : FabOp) : State :=
  let tag := f.pkt.tag
  let key := opKey f.core tag
  let s1 : State := { s with
    ops := Tbl.put s.ops key f
    rackTo := Tbl.del s.rackTo key
    tagUse := Tbl.put (s.tagUse.filter (fun e => s.now < e.2 + tagRest)) key s.now }
  ((s1.sendOut f).after (s.untilAge f.pkt.stamp 16) (.reissue f.core tag)).after (s.untilAge f.pkt.stamp 64) (.timeout f.core tag)

/-! ## FPUT (R371 to R373) -/

/-- The string of a fabric card: used ranges in index order, in the core's register space or its local vault. -/
def fabricString (o : Origin) (rs : Bool) (l : List (Nat × Nat)) : Op (List Rng) := do
  let s ← get
  demand (rs || l.all (fun r => r.2 = 0 || (s.localKey o.core r.1 r.2).isSome)) .addr 0
  declare o (l.map (fun r => (if rs then some o.core else none, r)))

/-- Bytes of ranges. -/
def totalLen (l : List (Nat × Nat)) : Nat := l.foldl (fun a r => a + r.2) 0

/-- Ranges that a card leaves unused. -/
def unused (l : List (Nat × Nat)) : Bool := l.all (fun r => r.1 = 0 && r.2 = 0)

/-- Ranges in multiples of 64. -/
def wholeLines (l : List (Nat × Nat)) : Bool := l.all (fun r => r.1 % 64 = 0 && r.2 % 64 = 0)

def putOrder (o : Origin) (t : BitVec 12) (n : BitVec 4) (c : List Byte) : Op Order := do
  let s ← get
  let b9 := field c 9 1
  let rd := readRanges c
  let len := totalLen rd
  let dm := field c 6 2
  let daddr := field c 10 5
  demand (t = 0 && field c 2 2 = 0 && dm < 4096 && b9 < 4 && field c 15 1 = 0 && unused (writeRanges c) && wholeLines rd
    && 64 ≤ len && len ≤ 2 ^ 29 - 64 && daddr % 64 = 0 && daddr < (if bitOf b9 0 then 2 ^ 18 else 2 ^ 35)) .rsvd 0
  demand (dm ≠ s.moduleId.toNat) .addr 0
  let reads ← fabricString o (bitOf b9 1) rd
  return { job := .put (BitVec.ofNat 12 dm) (BitVec.ofNat 8 (field c 8 1)) (bitOf b9 0) daddr
           reads := reads, writes := [], touchR := [], touchW := [], pages := []
           plan := (packetCuts len).map (fun p => .of (.mem (cutParts reads p.1 p.2)) (keyVoid (daddr + p.1)) 0 (p.1 / 64))
           empties := [], stream := false, counter := some n, entry := none }

def execFput (h : Hdr) (rel : Option Scope) (card : Name) (t : BitVec 12) (n : BitVec 4) (s : State) :
    Host.Outcome State Fault Refusal :=
  issue .F h 1 (fun o => enqueue o rel card 12 false (putOrder o t n)) s

/-- An FPUT's packets are laid out in time. -/
def State.startPut (s : State) (id : Nat) : State :=
  (s.modGalley id (fun g => { g with
    started := true, accepted := true, ack := s.now
    plan := g.plan.map (fun p => { p with due := (s.core g.core).time + p.due }) })).after 0
    (.galleyLineWrite id)

/-- The poison mask of lines: bit i for line i. -/
def poisonMask (l : List Bool) : Nat := (l.zipIdx.map (fun b => if b.1 then 2 ^ b.2 else 0)).foldl (· + ·) 0

/-- The head of an FPUT's plan is read, each source line whole and once (R236), and sent as a packet. -/
def State.sendPut (s : State) (id : Nat) (g : Galley) (p : Piece) (rest : List Piece) (rs : List Rng) (tag : BitVec 16)
    (dm : BitVec 12) (dc : BitVec 8) (space : Bool) : State :=
  let n := rs.foldl (fun a r => a + r.len) 0
  let lines := (List.range (n / 64)).map (fun i => (cutParts rs (64 * i) 64).map (s.partBytes g))
  let mask := poisonMask (lines.map (fun l => l.any (fun b => b.2)))
  let addr := p.dst - 2 ^ 63
  let pkt := { s.packet .put g.core tag dm dc with
    vf := g.vf, gen := g.gen, addr := BitVec.ofNat 64 (addr + (if space then 2 ^ 63 else 0))
    data := lines.flatMap (fun l => l.flatMap (fun b => b.1)), poisoned := mask ≠ 0, opword := BitVec.ofNat 32 mask }
  let fresh := g.fresh p
  let s1 := (fresh.foldl (fun (t : State) k => t.noteBad ⟨false, g.vf, g.gen⟩ k 64) s).modGalley id (fun g => { g with
    plan := rest, waitAck := g.waitAck + 1
    lines := (g.lines ++ fresh.map (s.readLine g)).filter (fun l => rest.any (fun q => q.takes l.key)) })
  s1.startOp ⟨g.core, g.gang, pkt, 0, none, .galley id⟩

/-- An FPUT goes on: its next packet is sent once its bytes are full, its core runs, a tag is free and its reads of
register space win their banks. -/
def putGo (id : Nat) (g : Galley) (s : State) : State :=
  let again := s.after 1 (.galleyLineWrite id)
  match g.job, g.plan with
  | .put dm dc space _, p :: rest =>
    let time := (s.home g.gang g.core).time
    if time < p.due then s.after (p.due - time) (.galleyLineWrite id)
    else if (s.home g.gang g.core).frozen.isSome || (s.core g.core).gang ≠ g.gang then again
    else match p.src, s.freeTag g.core with
      | .mem rs, some tag =>
        let b := ((g.fresh p).filter isRS).foldl (fun m k => m ||| banksOf (rsOff k) 128) 0
        if !(rs.all (s.partReady g)) then again
        else match (if b = 0 then (true, s) else s.grant g.core g.o.age b) with
          | (true, u) =>
            let t := u.sendPut id g p rest rs tag dm dc space
            if rest.isEmpty then t else t.after 0 (.galleyLineWrite id)
          | (false, u) => u.after 1 (.galleyLineWrite id)
      | _, _ => again
  | _, _ => s.after 0 (.galleyRetire id)

/-! ## FATOM and FPULL (R374, R375) -/

/-- The operator, size and signedness of an ATOM in OPWORD, as the mod bits of R44. -/
def atomWordBits (op : AtomOp) (dbl uns : Bool) : Nat :=
  op.code.toNat * 4 + (if dbl then 2 else 0) + (if uns then 1 else 0)

def execFatom (h : Hdr) (op : AtomOp) (dbl uns : Bool) (d a b : Name) (s : State) :
    Host.Outcome State Fault Refusal :=
  issue .F h 1 (fun o => do
    let e ← if op = .cas then src o d else pure 0
    let x := (← src o a).toNat
    let v ← src o b
    let s ← get
    let k ← getCore o
    match s.freeTag o.core with
    | none => stall
    | some tag => do
      reserve o d
      let dm : BitVec 12 := BitVec.ofNat 12 (x / 2 ^ 52)
      demand (k.ctx = .tenant && bitsOf x 51 35 = 0 && x % (if dbl then 8 else 4) = 0 && dm ≠ s.moduleId) .addr x
      let p := { s.packet .atom o.core tag dm 0 with
        addr := BitVec.ofNat 64 (x % 2 ^ 35), opnd0 := v, opnd1 := e, opword := BitVec.ofNat 32 (atomWordBits op dbl uns) }
      modify (fun t => (t.begin o).startOp ⟨o.core, k.gang, p, 0, none, .atom o d⟩)
      return .seq) s

def execFpull (h : Hdr) (card : Name) (n : BitVec 4) (s : State) : Host.Outcome State Fault Refusal :=
  issue .F h 1 (fun o => do
    let r ← steppedRecord o card 32 32
    let s ← get
    let k ← getCore o
    match s.freeTag o.core with
    | none => stall
    | some tag => do
      let w := field r 0 8
      demand (bitsOf w 63 28 = 0 && bitsOf w 15 8 = 0) .rsvd 0
      let dm : BitVec 12 := BitVec.ofNat 12 (bitsOf w 27 16)
      demand (k.ctx = .tenant && dm ≠ s.moduleId) .addr 0
      let p := { s.packet .pull o.core tag dm (BitVec.ofNat 8 w) with
        addr := BitVec.ofNat 64 (field r 8 8), opnd0 := BitVec.ofNat 64 (field r 16 8), opnd1 := BitVec.ofNat 64 (field r 24 8) }
      modify (fun t => (t.begin o).startOp ⟨o.core, k.gang, p, 0, none, .pull o n⟩)
      return .seq) s

/-! ## FFENCE, FCNT and FSTAT (R376 to R378) -/

def execFfence (h : Hdr) (sc : Scope) (s : State) : Host.Outcome State Fault Refusal :=
  issue .F h 1 (fun o => do
    demandScope o sc
    modify (fun t => ((t.begin o).modW o.core .F (fun v => { v with blocked := true })).later o.core 2
      (.releaseTakesEffect o sc o.age .ffence))
    return .seq) s

/-- The fabric operations of a core that are not complete: galleys, atomics and pulls; with an age, those before it. -/
def State.fabricOpen (s : State) (c gang : Nat) (age : Option Nat) : Nat :=
  let old := fun a : Nat => match age with
    | some b => decide (a < b)
    | none => true
  (s.galleys.filter (fun e => e.2.core = c && e.2.gang = gang && e.2.o.walker = .F && old e.2.o.age)).length
  + (s.ops.filter (fun e => e.2.core = c && e.2.gang = gang && e.2.word.any (fun o => old o.age))).length

/-- A counter as its core reads it. -/
def counterWord (own : Tag) (c : Counter) : Word :=
  if tagOk own c.tag then BitVec.ofNat 64 (c.last.toNat * 2 ^ 48 + c.errs * 2 ^ 32 + c.done) else 0

def execFcnt (h : Hdr) (clr : Bool) (d : Name) (n : BitVec 4) (s : State) : Host.Outcome State Fault Refusal :=
  issue .F h 1 (fun o => do
    let s ← get
    let own := s.ownTag o.core
    let v := counterWord own (Tbl.get (s.core o.core).counters n.toNat ⟨voidTag, 0, 0, 0⟩)
    if clr then modifyCore o (fun k => { k with counters := Tbl.put k.counters n.toNat ⟨own, 0, 0, 0⟩ })
    resultLater o d 3 v) s

/-- The fabric status word. -/
def State.fabricStatus (s : State) (c : Nat) : Word :=
  let k := s.core c
  let groups := k.groups.foldl (fun a g => if g.2.defined then a + 2 ^ g.1 else a) 0
  BitVec.ofNat 64 ((if k.mismatch then 2 ^ 33 else 0) + (if s.rv then 2 ^ 32 else 0) + groups % 2 ^ 16 * 2 ^ 16
    + min 0xFFFF (s.fabricOpen c k.gang none))

def execFstat (h : Hdr) (sel : BitVec 3) (d : Name) (s : State) : Host.Outcome State Fault Refusal :=
  issue .F h 1 (fun o => do
    let s ← get
    resultLater o d 3 (if sel = 0 then s.fabricStatus o.core else if sel = 1 then BitVec.ofNat 64 s.domainNs
      else s.moduleId.setWidth 64)) s

/-! ## The reply cache (R360) -/

def replyKeyOf (p : Packet) : ReplyKey := ⟨p.srcMod, p.srcCore, p.tag, p.vf, p.gen⟩

def State.reply (s : State) (k : ReplyKey) : Option Reply := s.replies.find? (fun r => r.key = k)

/-- Whether no entry is free; a stale one can be reclaimed. -/
def State.replyFull (s : State) : Bool := 16384 ≤ (s.replies.filter (fun r => s.tagCurrent r.tag)).length

/-- A new entry. -/
def State.keepReply (s : State) (k : ReplyKey) (r : Response) (stamp : BitVec 32) : State :=
  let l := if s.replies.length < 16384 then s.replies else s.replies.filter (fun r => s.tagCurrent r.tag)
  { s with replies := l ++ [⟨k, ⟨false, k.vf, k.gen⟩, r, false, stamp⟩] }

/-- A response sets out. -/
def State.sendResp (s : State) (r : Response) : State := (s.forwardResp none r).pumpAll

/-- An operation arrives at its target: late ones are discarded, stale ones counted and answered, duplicates answered
again; else it is performed, and its response is kept when it has acted (R357, R358, R360). -/
def State.arrive (s : State) (p : Packet) (perform : State → State × Response × Bool) : State :=
  if s.aged p.stamp 64 then s
  else if s.gen p.vf ≠ p.gen then (s.staleDrop p.vf 1).sendResp (answerTo p .ack 1 0)
  else match s.reply (replyKeyOf p) with
    | some r => s.sendResp r.resp
    | none =>
      if s.replyFull then s.sendResp (answerTo p .busy 0 0)
      else
        let (t, r, keep) := perform s
        (if keep then t.keepReply (replyKeyOf p) r p.stamp else t).sendResp r

/-- RACK_ARRIVE: the entry may be freed once 64 µs have passed since its STAMP. -/
def execRackArrive (key : ReplyKey) (s : State) : Host.Outcome State Fault Refusal :=
  .next (match s.reply key with
    | none => s
    | some r =>
      { s with replies := s.replies.map (fun (x : Reply) => if x.key = key then { x with rack := true } else x) }.after
        (s.untilAge r.stamp 64) (.replyCacheFree key))

def execReplyCacheFree (key : ReplyKey) (s : State) : Host.Outcome State Fault Refusal :=
  .next { s with replies := s.replies.filter (fun r => !(r.key = key && r.rack && s.aged r.stamp 64)) }

/-! ## Arrivals (R357, R372, R374, R375) -/

/-- Whether a core is one of a VF's here. -/
def State.ownsCore (s : State) (v : BitVec 6) (c : Nat) : Bool := bitOf (s.vfCores v.toNat) c

/-- The lines of a PUT by key; none when one lies outside the VF's partition. -/
def State.putKeys (s : State) (p : Packet) : Option (List Nat) :=
  let a := p.addr.toNat
  let n := p.data.length
  let at? := fun i : Nat => 64 * i
  if p.addr.getLsbD 63 then
    let off := a - 2 ^ 63
    if s.ownsCore p.vf p.dstCore.toNat && off % 64 = 0 && off + n ≤ 0x40000 then
      some ((List.range (n / 64)).map (fun i => keyRS p.dstCore.toNat (off + at? i)))
    else none
  else if a % 64 ≠ 0 || 2 ^ 35 < a + n then none
  else (List.range (n / 64)).foldr (fun i acc => match s.vaultKey p.vf (a + at? i), acc with
    | some k, some l => some (k :: l)
    | _, _ => none) (some [])

/-- Whether line i of a PUT came poisoned; the PUT of a record's row, whose OPWORD names the collective, is poisoned whole. -/
def badLine (p : Packet) (i : Nat) : Bool := p.poisoned && (p.opnd1 ≠ 0 || p.opword.getLsbD i)

/-- The lines of a PUT are written in order. -/
def State.writePut (s : State) (p : Packet) (keys : List Nat) : State :=
  keys.zipIdx.foldl (fun (t : State) k =>
    let bytes := (p.data.drop (64 * k.2)).take 64
    if isRS k.1 then t.writeLine k.1 bytes p.vf p.gen (badLine p k.2)
    else (t.writeUser ⟨false, p.vf, p.gen⟩ k.1 bytes).mark k.1 64 (badLine p k.2)) s

/-- The lines of a PUT wait for a frozen core (R284); the last is answered for all. -/
def State.holdPut (s : State) (p : Packet) (keys : List Nat) : State :=
  let n := keys.length
  s.modCore p.dstCore.toNat (fun k => { k with held := k.held ++ keys.zipIdx.map (fun x =>
    (⟨x.1, (p.data.drop (64 * x.2)).take 64, p.vf, p.gen, badLine p x.2, none,
      if x.2 + 1 = n then some { p with data := [] } else none⟩ : HeldLine)) })

/-- Writes bytes over runs of vaults, a run that is poisoned with its marks (R214, R319). -/
def State.writeRuns (s : State) (tag : Tag) (rs : List Rng) (bytes : List Byte) (bad : Bool) : State :=
  (rs.foldl (fun (a : State × List Byte) r =>
    let t := a.1.writeUser tag r.key (a.2.take r.len)
    (if bad then (splitAt 64 (r.len / 64 + 2) r.key r.len).foldl (fun (u : State) x => u.mark x.1 x.2 true) t else t,
      a.2.drop r.len)) (s, bytes)).1

/-- The place of a record's row in its receiver's collective is noted, once (R344, R386). -/
def State.noteRow (s : State) (vf : BitVec 6) (gen : BitVec 8) (core : Nat) (group : BitVec 4) (seq addr : Nat) (bad : Bool) : State :=
  match s.colls.find? (fun e => e.2.kind = .rpart && e.2.core = core && e.2.vf = vf && e.2.gen = gen && e.2.group = group
      && e.2.seq = seq && !(e.2.seen.contains addr)) with
  | none => s
  | some (id, c) => { s with colls := Tbl.put s.colls id { c with
      seen := addr :: c.seen, landed := c.landed + 1, own := if bad then 3 else c.own } }

/-- A record's row is written at its place, whether or not its member's core runs; none outside the VF's partition. -/
def State.putRow (s : State) (vf : BitVec 6) (gen : BitVec 8) (core : Nat) (group : BitVec 4) (seq addr : Nat) (data : List Byte)
    (bad : Bool) : Option State :=
  (s.vaultRuns vf addr data.length).map (fun rs =>
    (s.writeRuns ⟨false, vf, gen⟩ rs data bad).noteRow vf gen core group seq addr bad)

/-- The row of a record that a PUT carries (R386): its bytes, OPND1 of them. -/
def State.rowIn (s : State) (p : Packet) : Option State :=
  s.putRow p.vf p.gen p.dstCore.toNat (p.opword.setWidth 4) (p.opword.toNat / 2 ^ 16) p.addr.toNat (p.data.take p.opnd1.toNat) p.poisoned

/-- The status of a PUT whose lines have been written or discarded. -/
def State.putStatus (s : State) (p : Packet) : Byte := if s.gen p.vf ≠ p.gen then 1 else if p.poisoned then 3 else 0

/-- PUT_ARRIVE. A packet without lines is one whose lines have all been written or discarded at a core that was frozen
(R284): it is answered. One with a length in OPND1 carries a record's row (R386; log entry 47). One for register space is
accepted at its core once its granules are full, and marks them empty (R24, R372). From then on OPND0 holds one more than the
age of its requests of banks, that of the cycle of acceptance (R27, R194), and it makes them from the next cycle on. Bytes of the
running text are refused (R71; log entry 49). -/
def execPutArrive (p : Packet) (s : State) : Host.Outcome State Fault Refusal :=
  let ack := fun (t : State) (status : Byte) => Host.Outcome.next (t.sendResp (answerTo p .ack status 0))
  if p.data.isEmpty then ack s (s.putStatus p)
  else if s.aged p.stamp 64 && p.opnd0 = 0 then .next s
  else if s.gen p.vf ≠ p.gen then ack (s.staleDrop p.vf 1) 1
  else if p.opnd1 ≠ 0 then match s.rowIn p with
    | none => ack s 4
    | some t => ack t (s.putStatus p)
  else match s.putKeys p with
    | none => ack s 4
    | some keys =>
      let c := p.dstCore.toNat
      let k := s.core c
      let off := p.addr.toNat % 2 ^ 18
      let n := p.data.length
      if !(p.addr.getLsbD 63) then ack (s.writePut p keys) (s.putStatus p)
      else if k.inText off n then ack s 4
      else if k.frozen.isSome then .next (s.holdPut p keys)
      else if p.opnd0 = 0 then
        if !(s.full c off n) then .next (s.after 1 (.putArrive p))
        else .next ((s.markEmpty ⟨false, p.vf, p.gen⟩ c off n).after 1 (.putArrive { p with opnd0 := BitVec.ofNat 64 (k.time * 8 + 8) }))
      else match s.grant c (p.opnd0.toNat - 1) (banksOf off n) with
        | (true, t) => ack (t.writePut p keys) (s.putStatus p)
        | (false, t) => .next (t.after 1 (.putArrive p))

/-- ATOM_ARRIVE: fabric atomics at a write queue follow the on-module atomics of the cycle (R374). -/
def execAtomArrive (p : Packet) (s : State) : Host.Outcome State Fault Refusal :=
  let w := p.opword.toNat
  let dbl := bitOf w 1
  let n := if dbl then 8 else 4
  let a := p.addr.toNat
  let key := if a % n = 0 && bitsOf w 31 5 = 0 && bitsOf w 4 2 < 7 then s.vaultKey p.vf a else none
  match key with
  | none => .next (s.arrive p (fun t => (t, answerTo p .ack 4 0, false)))
  | some key =>
    if s.lowerFirst (fun i => match i with
        | .atomicAtWriteQueue _ r _ _ => r.key / 64 = key / 64
        | _ => false) then .next (s.after 0 (.atomArrive p))
    else .next (s.arrive p (fun t =>
      let bad := t.anyBad ⟨false, p.vf, p.gen⟩ key n
      let (u, old) := t.atomicAt ⟨p.vf, p.gen, key, AtomOp.ofCode (BitVec.ofNat 3 (bitsOf w 4 2)), dbl, bitOf w 0, p.opnd0, p.opnd1⟩
      (u, answerTo p .result (if bad then 3 else 0) (BitVec.ofNat 64 old), true)))

/-- PULL_ARRIVE: the record enters q15 as four entries in one cycle, or is answered BUSY. -/
def execPullArrive (p : Packet) (s : State) : Host.Outcome State Fault Refusal :=
  .next (s.arrive p (fun t =>
    let c := p.dstCore.toNat
    let k := t.core c
    if !(t.ownsCore p.vf c) then (t, answerTo p .ack 4 0, false)
    else if k.frozen.isSome || 12 < (t.queue c 15).length then (t, answerTo p .busy 0 0, false)
    else
      let w := BitVec.ofNat 64 (p.srcMod.toNat * 2 ^ 16 + p.srcCore.toNat)
      let tag : Tag := ⟨false, p.vf, p.gen⟩
      (t.modCore c (fun k => Core.retry { k with queues := Tbl.upd k.queues 15 [] (fun l =>
        l ++ [w, p.addr, p.opnd0, p.opnd1].map (fun v => QEntry.mk tag v none)) }), answerTo p .ack 0 0, true)))

end Sys2Proof.Machine
end

