-- ==== Sys2Proof/Machine/Groups.lean ====
section
/-! DEFINITION. Groups of cores: their messages, FGRP, FBAR, and the collectives FRED, FBCST, FA2A and RPART (R343, R344,
R371, R379 to R388, R413). -/

namespace Sys2Proof.Machine

/-! ## Group messages (R380, R413) -/

/-- Walker cycles of a message between two cores of the module: 64 uncore cycles. -/
def tellTime : Nat := 128

/-- A record's row, which a PUT carries (R386). -/
def isRow : CollBody → Bool
  | .row _ _ _ => true
  | _ => false

/-- A string, which its member answers when it has taken it up (R385). -/
def isString : CollBody → Bool
  | .bytes _ _ => true
  | _ => false

/-- The header of a group message's packets, or the PUT of a record's row, which carries the row's length in OPND1 (log entry
47). -/
def collPacket (m : CollMsg) : Packet :=
  let p : Packet := { op := .coll, rv := false, vc := 3, reissue := false, opflags := 0, dstMod := m.dstMod, dstCore := BitVec.ofNat 8 m.dstCore
                      srcCore := BitVec.ofNat 8 m.srcCore, srcMod := m.srcMod, vf := m.vf, gen := m.gen, tag := m.tag, hops := 0, addr := 0
                      opnd0 := 0, opnd1 := 0, stamp := m.stamp, opword := BitVec.ofNat 32 (m.group.toNat + m.seq * 2 ^ 16), data := [], poisoned := false }
  match m.body with
  | .row addr bad data => { p with
      op := .put, addr := BitVec.ofNat 64 addr, opnd1 := BitVec.ofNat 64 data.length
      data := padTo (64 * ceilDiv data.length 64) data, poisoned := bad }
  | _ => p

/-- A group message sets out; with no tag free it waits. -/
def State.sendColl (s : State) (m : CollMsg) : State :=
  if m.dstMod = s.moduleId then s.after tellTime (.collArrive m)
  else match s.freeTag m.srcCore with
    | none => s.after 1 (.collArrive m)
    | some tag =>
      let n : CollMsg := { m with tag := tag, stamp := s.stampNow }
      s.startOp ⟨m.srcCore, (s.core m.srcCore).gang, collPacket n, 0, none, .coll n⟩

/-- A message to a member. -/
def State.tell (s : State) (c : Coll) (i : Nat) (b : CollBody) : State :=
  match c.members[i]? with
  | none => s
  | some (dm, dc) => s.sendColl
      { vf := c.vf, gen := c.gen, dstMod := dm, dstCore := dc.toNat, srcMod := s.moduleId, srcCore := c.core, group := c.group
        srcIndex := c.me, seq := c.seq, kind := c.kind, tag := 0, stamp := 0, body := b }

def Coll.others (c : Coll) : List Nat := (List.range c.members.length).filter (· ≠ c.me)

def State.tellAll (s : State) (c : Coll) (b : CollBody) : State := c.others.foldl (fun (t : State) i => t.tell c i b) s

def isDigest : CollBody → Bool
  | .digest _ => true
  | _ => false

/-- Whether a message concerns a group word of this member. -/
def Coll.hears (c : Coll) (m : CollMsg) : Bool :=
  m.dstCore = c.core && m.vf = c.vf && m.gen = c.gen && m.group = c.group
  && (if isDigest m.body then c.kind = .fgrp else c.kind ≠ .fgrp && m.seq = c.seq)

/-- The first code that is not OK. -/
def firstCode (a b : Byte) : Byte := if a = 0 then b else a

/-- The event by which a group word goes on. -/
def Coll.event (c : Coll) : Instr :=
  match c.galley with
  | some id => .galleyLineWrite id
  | none => .releaseTakesEffect c.o .core c.o.age .heard

/-- A word goes on in its core's own cycles, so that a frozen member neither contributes nor relays (R388). -/
def State.wakeCollIn (s : State) (c : Coll) (d : Nat) : State :=
  s.modHome c.gang c.core (fun k => { k with agenda := addDue (k.time + d) c.event k.agenda })

def State.wakeColl (s : State) (c : Coll) : State := s.wakeCollIn c 0

/-- A message is kept for its member. -/
def State.deliver (s : State) (m : CollMsg) : State :=
  let t : State := { s with collWaits := s.collWaits ++ [m] }
  match t.colls.find? (fun e => e.2.hears m) with
  | some e => t.wakeColl e.2
  | none => t

/-- The answer to a row or a string, to the member that has sent it. -/
def State.answerColl (s : State) (m : CollMsg) (code : Byte) : State :=
  s.sendColl { m with dstMod := m.srcMod, dstCore := m.srcCore, srcMod := m.dstMod, srcCore := m.dstCore, tag := 0, stamp := 0
                      body := .ack code }

/-- A message from this module: a row is written and answered (R344), anything else is kept for its member. -/
def State.localArrive (s : State) (m : CollMsg) : State :=
  match m.body with
  | .row addr bad data => match s.putRow m.vf m.gen m.dstCore m.group m.seq addr data bad with
    | some t => t.answerColl m (if bad then 3 else 0)
    | none => s.answerColl m 4
  | _ => s.deliver m

/-- COLL_ARRIVE: a message from this module, or from another through the reply cache, in which rows do not come (R386); one for
another module that has waited for a tag sets out. -/
def execCollArrive (m : CollMsg) (s : State) : Host.Outcome State Fault Refusal :=
  .next (if m.dstMod ≠ s.moduleId then s.sendColl m
    else if m.srcMod = s.moduleId then
      if s.gen m.vf ≠ m.gen then s.staleDrop m.vf 1 else s.localArrive m
    else if isRow m.body then s
    else
      let p := collPacket m
      s.arrive p (fun t =>
        if t.ownsCore m.vf m.dstCore then (t.deliver m, answerTo p .ack 0 0, true) else (t, answerTo p .ack 4 0, false)))

/-- A member hears one message; an FGRP hears the first digest of each member (R379). -/
def Coll.hear (c : Coll) (m : CollMsg) : Option Coll :=
  if !(c.hears m) then none
  else match m.body with
    | .digest _ => match c.members.findIdx? (fun x => x.1 = m.srcMod && x.2.toNat = m.srcCore) with
      | some i => if c.got.any (fun e => e.1 = i) then none else some { c with got := c.got ++ [(i, m.kind, m.body)] }
      | none => none
    | .ack code => some { c with waiting := c.waiting - 1, code := firstCode c.code code }
    | .bytes _ _ => some { c with inRows := c.inRows ++ [m] }
    | _ => some { c with got := c.got ++ [(m.srcIndex, m.kind, m.body)] }

/-- A member hears everything that waits for it. -/
def State.drain (s : State) (id : Nat) (c : Coll) : State × Coll :=
  let r := s.collWaits.foldl (fun (a : Coll × List CollMsg) m => match a.1.hear m with
    | some d => (d, a.2)
    | none => (a.1, a.2 ++ [m])) (c, [])
  ({ s with collWaits := r.2, colls := Tbl.put s.colls id r.1 }, r.1)

def State.setColl (s : State) (id : Nat) (c : Coll) : State := { s with colls := Tbl.put s.colls id c }

/-! ## Arrivals -/

/-- The shape that an arrival announces. -/
def arrivalShape : CollBody → Option (List Nat)
  | .arrive sh => some sh
  | .keys sh _ _ _ => some sh
  | _ => none

/-- The arrivals of the other members: index, kind, shape. -/
def Coll.arrivals (c : Coll) : List (Nat × CollKind × List Nat) :=
  c.got.filterMap (fun e => (arrivalShape e.2.2).map (fun sh => (e.1, e.2.1, sh)))

/-- Whether every other member's word has arrived. -/
def Coll.arrived (c : Coll) : Bool := c.others.all (fun i => c.arrivals.any (fun a => a.1 = i))

/-- Whether members issued different words at this sequence number (R380). -/
def Coll.kindsDiffer (c : Coll) : Bool := c.arrivals.any (fun a => a.2.1 ≠ c.kind)

/-- The shape of a member. -/
def Coll.shapeAt (c : Coll) (i : Nat) : List Nat :=
  if i = c.me then c.shape else ((c.arrivals.find? (fun a => a.1 = i)).map (fun a => a.2.2)).getD []

def Coll.shapes (c : Coll) : List (List Nat) := (List.range c.members.length).map c.shapeAt

/-! ## FGRP and FBAR (R379, R381) -/

def Core.setMismatch (k : Core) : Core := { k with mismatch := true }

/-- A group that is defined and valid. -/
def Core.validGroup (k : Core) (g : BitVec 4) : Option Group :=
  (Tbl.find k.groups g.toNat).bind (fun x => if x.defined && !x.invalid then some x else none)

/-- A blocking word of the fabric walker is complete. -/
def State.doneF (s : State) (o : Origin) : State := (s.unblock o).finish o

/-- A group word of a member that begins. -/
def newColl (s : State) (o : Origin) (kind : CollKind) (g : BitVec 4) (grp : Option Group) (card : List Byte)
    (ents : List Byte × List Byte) (shape : List Nat) : Coll :=
  let k := s.core o.core
  { core := o.core, gang := k.gang, vf := k.vf, gen := s.gen k.vf, group := g, seq := (grp.map (fun x => x.seq)).getD 0
    kind := kind, galley := none, o := o, members := (grp.map (fun x => x.members)).getD [], me := (grp.map (fun x => x.me)).getD 0
    card := card, ents := ents, shape := shape, got := [], inRows := [], seen := [], mine := [], own := 0, recs := [], rows := [], waiting := 0, landed := 0
    read := 0, todo := []
    code := if s.inReduced o.core then 2 else if grp.isNone then 0x10 else 0, stage := 0 }

/-- FGRP: once every digest is in, the group is defined, and invalid when one differs. -/
def State.fgrpGo (s : State) (id : Nat) (c : Coll) : State :=
  let own := ((Tbl.find (s.core c.core).groups c.group.toNat).map (fun g => g.digest)).getD []
  if c.others.all (fun i => c.got.any (fun e => e.1 = i)) then
    let bad := c.code ≠ 0 || c.got.any (fun e => e.2.2 ≠ .digest own)
    ({ s with colls := Tbl.del s.colls id }.modCore c.core (fun k => { k with
      groups := k.groups.map (fun (e : Nat × Group) => if e.1 = c.group.toNat then (e.1, { e.2 with defined := true, invalid := bad }) else e) })).doneF c.o
  else s

/-- FBAR: complete once every member's word is in; another kind sets MISMATCH. -/
def State.fbarGo (s : State) (id : Nat) (c : Coll) : State :=
  if c.arrived then
    (({ s with colls := Tbl.del s.colls id }.modCore c.core (fun k => if c.kindsDiffer then k.setMismatch else k))).doneF c.o
  else s

/-- FBAR's release has taken effect: its arrival sets out, or on a group that is undefined or invalid it completes at
once with MISMATCH. -/
def State.fbarBegin (s : State) (o : Origin) (g : BitVec 4) : State :=
  match (if s.inReduced o.core then none else (s.core o.core).validGroup g) with
  | none => (s.modCore o.core Core.setMismatch).doneF o
  | some grp =>
    let c := newColl s o .fbar g (some grp) [] ([], []) []
    let id := s.nextColl
    let s1 := { s with nextColl := id + 1 }.modCore o.core (fun k => { k with
      groups := Tbl.put k.groups g.toNat { grp with seq := grp.seq + 1 } })
    let r := ((s1.setColl id c).tellAll c (.arrive [])).drain id c
    r.1.fbarGo id r.2

def execFbar (h : Hdr) (sc : Scope) (g : BitVec 4) (s : State) : Host.Outcome State Fault Refusal :=
  issue .F h 1 (fun o => do
    demandScope o sc
    modify (fun t => ((t.begin o).modW o.core .F (fun v => { v with blocked := true })).later o.core 0
      (.releaseTakesEffect o sc o.age (.fbar g)))
    return .seq) s

/-- Whether a galley is a collective's on a group: it retires after the collective is over (R379). -/
def Job.onGroup (j : Job) (g : BitVec 4) : Bool :=
  match j with
  | .coll _ n _ => n = g
  | _ => false

/-- The members of a list: module in bits 27:16 and core in bits 7:0 of each 4-byte entry. -/
def listMembers (b : List Byte) : List (BitVec 12 × BitVec 8) :=
  (elems 4 (b.length / 4) b).map (fun w => (BitVec.ofNat 12 (bitsOf w 27 16), BitVec.ofNat 8 w))

/-- A member list that has been read whole replaces its group, and its digest sets out (R379). -/
def beginGroup (o : Origin) (g : BitVec 4) (list : List Byte) : Op Flow := do
  let s ← get
  let members := listMembers (list.drop 8)
  let self : BitVec 12 × BitVec 8 := (s.moduleId, BitVec.ofNat 8 o.core)
  let grp : Group := { members := members, me := (members.findIdx? (· = self)).getD 0, digest := sha512 list, got := []
                       defined := false, invalid := false, seq := 0 }
  let c := { newColl s o .fgrp g (some grp) [] ([], []) [] with members := if s.inReduced o.core then [] else members }
  modifyCore o (fun k => { k with groups := Tbl.put k.groups g.toNat grp })
  modify (fun t =>
    let id := t.nextColl
    let t1 := ((t.begin o).modW o.core .F (fun v => { v with blocked := true, grant := 0 }))
    (({ t1 with nextColl := id + 1 }.setColl id c).tellAll c (.digest grp.digest)).wakeColl c)
  return .seq

/-- FGRP. The list takes its banks in grants of 4 KiB, the first one that of its header as well (R26, R27). -/
def execFgrp (h : Hdr) (card : Name) (g : BitVec 4) (s : State) : Host.Outcome State Fault Refusal :=
  .next (issueAt s.cur .F h 1 (0 < (s.core s.cur).wF.grant) (fun o => do
    let off ← recordAt o card 64 8
    let k ← getCore o
    let i := (k.w o.walker).grant
    let won := if i = 0 then banksOf off 8 else 0
    claimBanks o won
    let s ← get
    let n := field (s.read (s.ownTag o.core) (keyRS o.core off) 8) 0 2
    demand (1 ≤ n && n ≤ 4096) .rsvd 0
    demand (off + 8 + 4 * n ≤ 0x40000) .addr off
    demand (k.ctx = .tenant) .addr 0
    need (s.full o.core off (8 + 4 * n) && !(s.hits o.core (keyRS o.core off) (8 + 4 * n)))
    let list := s.read (s.ownTag o.core) (keyRS o.core off) (8 + 4 * n)
    demand (((listMembers (list.drop 8)).filter (· = (s.moduleId, BitVec.ofNat 8 o.core))).length = 1) .rsvd 0
    need (!(s.colls.any (fun e => e.2.core = o.core && e.2.gang = k.gang && e.2.group = g)))
    need (!(s.galleys.any (fun e => e.2.core = o.core && e.2.gang = k.gang && e.2.job.onGroup g)))
    let parts := grantRuns off (8 + 4 * n)
    let banks := fun j : Nat => (parts[j]?).elim 0 (fun r => banksOf r.1 r.2)
    claimMore o won (banks i)
    if parts.length ≤ i + 1 then beginGroup o g list
    else do
      modifyCore o (fun k' => k'.askNext (k.wordAge o) (banks (i + 1)))
      afterAccess o false 1 (fun v => { v with grant := i + 1, asked := some (k.wordAge o) })) s)

/-! ## The collectives' galleys -/

/-- The lines of a string from an offset of it on, over runs: keys, bytes, and whether each is poisoned (R371, R372). -/
def stringLines (rs : List Rng) (off : Nat) (bytes : List Byte) (bad : Nat) : List (Nat × List Byte × Bool) :=
  (List.range (bytes.length / 64)).flatMap (fun i =>
    ((cutParts rs (off + 64 * i) 64).foldl (fun (a : List (Nat × List Byte × Bool) × List Byte) r =>
      (a.1 ++ [(r.key, a.2.take r.len, bitOf bad i)], a.2.drop r.len)) ([], (bytes.drop (64 * i)).take 64)).1)

/-- The lines written in one cycle: those of one block of 128 bytes. -/
def firstLines : List (Nat × List Byte × Bool) → List (Nat × List Byte × Bool) × List (Nat × List Byte × Bool)
  | a :: b :: rest => if a.1 / 128 = b.1 / 128 then ([a, b], rest) else ([a], b :: rest)
  | l => (l, [])

/-- A line of a collective is written at its member. -/
def State.collLine (s : State) (c : Coll) (l : Nat × List Byte × Bool) : State :=
  if isRS l.1 then s.writeLine l.1 l.2.1 c.vf c.gen l.2.2
  else if s.gen c.vf ≠ c.gen then s.staleDrop c.vf 1
  else (s.writeUser ⟨false, c.vf, c.gen⟩ l.1 l.2.1).mark l.1 l.2.1.length l.2.2

/-- A collective is over at its member: the string it has taken up is answered, and its galley retires. -/
def State.collOver (s : State) (id : Nat) (c : Coll) : State :=
  let s1 : State := c.inRows.foldl (fun (t : State) m => t.answerColl m 0) { s with colls := Tbl.del s.colls id }
  match c.galley with
  | none => s1
  | some gid => (s1.modGalley gid (fun g => { g with code := c.code, waitAck := 0, moved := true, ack := s.now + 2 })).after 2
      (.galleyRetire gid)

/-- A collective writes on: in a cycle the lines of one block of 128 bytes, those in register space once they win their bank
(R26, R27). -/
def State.collWrite (s : State) (id : Nat) (c : Coll) : State :=
  match firstLines c.todo with
  | ([], _) => s.collOver id c
  | (now, later) =>
    let b := (now.filter (fun l => isRS l.1)).foldl (fun m l => m ||| banksOf (rsOff l.1) l.2.1.length) 0
    let d := { c with todo := later }
    match (if b = 0 then (true, s) else s.grant c.core c.o.age b) with
    | (true, t) => ((now.foldl (fun (u : State) l => u.collLine c l) t).setColl id d).wakeCollIn d 1
    | (false, t) => t.wakeCollIn c 1

/-- What a collective writes at its member in the end is known: its code and its lines, which follow the bytes that it has moved
to its tensor. -/
def State.collEnd (s : State) (id : Nat) (c : Coll) (code : Byte) (lines : List (Nat × List Byte × Bool)) (moved : Nat) : State :=
  let d := { c with stage := 8, code := code, todo := lines }
  (s.setColl id d).wakeCollIn d (ceilDiv moved 128)

/-- The lines of a status block. -/
def Coll.blockLines (c : Coll) (block : List Byte) : List (Nat × List Byte × Bool) :=
  let wr := cardRange c.card 56
  if c.kind = .fred || c.kind = .rpart then
    (splitAt 64 (wr.2 / 64 + 2) wr.1 wr.2).map (fun r => (keyRS c.core r.1, ((block ++ zeros wr.2).drop (r.1 - wr.1)).take r.2, false))
  else []

/-- The declared write runs of a collective's galley. -/
def State.collWrites (s : State) (c : Coll) : List Rng :=
  ((c.galley.bind (fun g => Tbl.find s.galleys g)).map (fun g => g.writes)).getD []

/-- Granules of register space that a member is about to receive into are marked empty, once all of them are full (R22, R24,
R372); none before that. -/
def State.takeRuns (s : State) (c : Coll) (rs : List Rng) : Option State :=
  let l := rs.filter (fun r => isRS r.key)
  if l.all (fun r => s.full c.core (rsOff r.key) r.len) then
    some (l.foldl (fun (t : State) r => t.markEmpty ⟨false, c.vf, c.gen⟩ c.core (rsOff r.key) r.len) s)
  else none

/-- Granules that were marked empty for a chunk which is not written are full again, with their old bytes. -/
def State.refillRuns (s : State) (c : Coll) (rs : List Rng) : State :=
  s.modCore c.core (fun k => { k with
    latches := k.latches ++ (rs.filter (fun r => isRS r.key)).map (fun r => .fill (rsOff r.key) r.len) })

/-- The code in a status block of FRED (R383). -/
def fredBlock (code : Byte) (status : BitVec 16) : List Byte :=
  let up := bitsOf status.toNat 4 0 + (if status &&& stHeadwarn ≠ 0 then 32 else 0)
  leBytes 4 code.toNat ++ leBytes 4 up

/-- The status block of RPART (R344). -/
def rpartBlock (nIn out kept keptAll weight p : Nat) (code : Byte) (splitters : List Nat) : List Byte :=
  leBytes 4 nIn ++ leBytes 4 out ++ leBytes 4 kept ++ leBytes 4 keptAll ++ leBytes 8 weight ++ leBytes 4 p
    ++ leBytes 4 code.toNat ++ splitters.flatMap (leBytes 8)

/-- A collective ends at its member with a code and nothing written. -/
def State.collFail (s : State) (id : Nat) (c : Coll) (code : Byte) : State :=
  s.collEnd id c code (c.blockLines (if c.kind = .rpart then rpartBlock 0 0 0 0 0 (max 1 c.members.length) code []
    else fredBlock code 0)) 0

/-- Bytes of a line of runs, and whether it is poisoned. -/
def State.stringLine (s : State) (g : Galley) (rs : List Rng) (off n : Nat) : List Byte × Bool :=
  let ps := (cutParts rs off n).map (s.partBytes g)
  (ps.flatMap (fun p => p.1), ps.any (fun p => p.2))

/-- Writes bytes at a vault address of the member's VF. -/
def State.writeVault (s : State) (c : Coll) (addr : Nat) (bytes : List Byte) : State :=
  if s.gen c.vf ≠ c.gen then s.staleDrop c.vf (ceilDiv bytes.length 64)
  else match s.vaultRuns c.vf addr bytes.length with
    | none => s
    | some rs => s.writeRuns ⟨false, c.vf, c.gen⟩ rs bytes false

/-! ## FRED (R382 to R384) -/

/-- A FRED card's parameters. -/
structure FredPar where
  fp : Bool
  rnd : Rnd
  sat : Bool
  slot : Nat
  kgen : Nat
  e : Int
deriving DecidableEq, Repr

def fredPar (c : List Byte) : FredPar :=
  let m := field c 6 1
  ⟨bitOf m 0, [Rnd.rne, .rz, .ru, .rd].getD (bitsOf m 2 1) .rne, bitOf m 3, field c 8 1, field c 9 1, fieldS c 10 2⟩

/-- Corresponding rows of a tensor: (d1, d2, d3), or (d2, d3) of a tile. -/
def Ent.rowIndex (e : Ent) : List (Nat × Nat × Nat) :=
  (List.range (e.sz 3)).flatMap (fun d3 => (List.range (e.sz 2)).flatMap (fun d2 =>
    (List.range (if e.fmt = 10 then 1 else e.sz 1)).map (fun d1 => (d1, d2, d3))))

/-- A tile's rows as partial rows; a member's classes stand in its status (R108). -/
def partialOf (r : WRow) : PartialRow :=
  let cls := r.sum.2 :: r.els.map (fun x => x.2)
  { e := r.e, cells := r.els, rse := r.rse, rs := r.sum
    status := r.status ||| flagIf (cls.contains 3) stNan ||| flagIf (cls.contains 1) stPinf ||| flagIf (cls.contains 2) stNinf }

/-- A row of FP32 elements in units of 2^(E - 14). -/
def partialFp (e : Int) (l : List Nat) : PartialRow :=
  let vs := l.map fp32.decode
  let us := vs.map (fun v => if v.isFin then units (e - 14) v else (0, false))
  let cls := vs.map Val.cls
  { e := e, cells := List.zipWith (fun u c => (u.1, c)) us cls, rse := 0, rs := (0, 0)
    status := flagIf (us.any (fun u => u.2)) stInexact ||| flagIf (cls.contains 3) stNan ||| flagIf (cls.contains 1) stPinf
      ||| flagIf (cls.contains 2) stNinf }

/-- The bytes of one run of a source, zeros when the entry is void or stale, and whether they are poisoned. -/
def State.sourceBytes (s : State) (c : Coll) (live : Bool) (addr n : Nat) : List Byte × Bool :=
  if !live then (zeros n, false)
  else match s.vaultRuns c.vf addr n with
    | none => (zeros n, false)
    | some rs =>
      let own : Tag := ⟨false, c.vf, c.gen⟩
      (rs.flatMap (fun r => s.readClean own r.key r.len), rs.any (fun r => s.anyBad own r.key r.len))

/-- This member's contribution. -/
def State.fredMine (s : State) (c : Coll) : List PartialRow × Bool :=
  let se := entOf c.ents.1
  let live := se.liveFor c.vf c.gen
  let e := if live then se else entOf c.ents.2
  let par := fredPar c.card
  if !live && !((entOf c.ents.2).liveFor c.vf c.gen) then ([], false)
  else
    let rows := e.rowIndex.map (fun d =>
      if par.fp then
        let bs := if e.st 0 = 4 then s.sourceBytes c live (e.base + e.unitOff 0 d.1 d.2.1 d.2.2) (4 * e.sz 0)
          else
            let us := (List.range (e.sz 0)).map (fun i => s.sourceBytes c live (e.base + e.unitOff i d.1 d.2.1 d.2.2) 4)
            (us.flatMap (fun u => u.1), us.any (fun u => u.2))
        ([partialFp par.e (elems 4 (e.sz 0) bs.1)], bs.2)
      else
        let bs := s.sourceBytes c live (e.base + e.unitOff 0 0 d.2.1 d.2.2) 12288
        ((wtile bs.1).map partialOf, bs.2))
    (rows.flatMap (fun r => r.1), rows.any (fun r => r.2))

/-- Two cells on one exponent, added without limit. -/
def addCell (ea eb e : Int) (a b : WEl) : WEl :=
  let c := combine [a.2, b.2]
  (if c = 0 then a.1 * (2 : Int) ^ (ea - e).toNat + b.1 * (2 : Int) ^ (eb - e).toNat else 0, c)

/-- Two partial rows added. -/
def addPartial (a b : PartialRow) : PartialRow :=
  let e := min a.e b.e
  let re := min a.rse b.rse
  let cells := List.zipWith (addCell a.e b.e e) a.cells b.cells
  let rs := addCell a.rse b.rse re a.rs b.rs
  { e := e, cells := cells, rse := re, rs := rs
    status := a.status ||| b.status ||| flagIf (rs.2 = 3 || cells.any (fun x => x.2 = 3)) stNan }

/-- Two partial sums added; a member whose entries are both void or stale has none. -/
def addPartials (a b : List PartialRow) : List PartialRow :=
  if a.isEmpty then b else if b.isEmpty then a else List.zipWith addPartial a b

/-- A cell saturated once, with its status. -/
def finalCell (x : WEl) : WEl × BitVec 16 :=
  if x.2 ≠ 0 then (x, 0)
  else
    let t := max (-(2 : Int) ^ 77) (min ((2 : Int) ^ 77 - 1) x.1)
    let m := t / 2 ^ 14
    ((t, 0), flagIf (t ≠ x.1) stOvf ||| flagIf (m < -(2 : Int) ^ 56 || (2 : Int) ^ 56 ≤ m) stHeadwarn)

/-- A row of the result. -/
def finalRow (r : PartialRow) : PartialRow :=
  let cs := r.cells.map finalCell
  let s := finalCell r.rs
  { r with cells := cs.map (fun c => c.1), rs := s.1, status := r.status ||| orFlags (cs.map (fun c => c.2)) ||| s.2 }

/-- The 64-byte lines that a result would fill: those that the entry's own places lie in, or, of an entry without places, those of
the result's bytes (R308). -/
def resultLines (e : Ent) (fp : Bool) (rows : List PartialRow) : Nat :=
  let runs := e.rowIndex.flatMap (fun d =>
    if !fp then [(e.unitOff 0 0 d.2.1 d.2.2, 0x2A00)]
    else if e.st 0 = 4 then [(e.unitOff 0 d.1 d.2.1 d.2.2, 4 * e.sz 0)]
    else (List.range (e.sz 0)).map (fun i => (e.unitOff i d.1 d.2.1 d.2.2, 4)))
  if e.fmt = 0 then ceilDiv (rows.foldl (fun a r => a + (if fp then 4 * r.cells.length else 0x2A0)) 0) 64
  else (runs.flatMap (fun r =>
    (splitAt 64 (r.2 / 64 + 2) (e.base + r.1) r.2).map (fun x => x.1 / 64))).eraseDups.length

/-- The result is written at this member; through a void or stale destination nothing is, and each 64-byte line of it counts
in VOIDDROP (R119, R308, R382). -/
def State.writeResult (s : State) (c : Coll) (rows : List PartialRow) : State :=
  let e := entOf c.ents.2
  let par := fredPar c.card
  if !(e.liveFor c.vf c.gen) then s.voidDrop c.vf (resultLines e par.fp rows)
  else if par.fp then
    (e.rowIndex.zip rows).foldl (fun (t : State) x =>
      let d := x.1
      let bs := x.2.cells.map (fun y => leBytes 4 (fp32.round par.rnd par.sat (wval x.2.e y)).1)
      if e.st 0 = 4 then t.writeVault c (e.base + e.unitOff 0 d.1 d.2.1 d.2.2) bs.flatten
      else bs.zipIdx.foldl (fun (u : State) b => u.writeVault c (e.base + e.unitOff b.2 d.1 d.2.1 d.2.2) b.1) t) s
  else
    e.rowIndex.zipIdx.foldl (fun (t : State) x =>
      let tile := ((rows.drop (16 * x.2)).take 16).map (fun r =>
        ({ e := r.e, rse := r.rse, status := r.status, sum := r.rs, els := r.cells, res := zeros 16 } : WRow))
      t.writeVault c (e.base + e.unitOff 0 0 x.1.2.1 x.1.2.2) (tileBytes tile)) s

/-- A member's children and its parent in the tree. -/
def Coll.kids (c : Coll) : List Nat := [2 * c.me + 1, 2 * c.me + 2].filter (· < c.members.length)
def Coll.parent (c : Coll) : Nat := (c.me - 1) / 2

/-- The seals of a partial of a member, one for each of its lines over the line's index and its 64 bytes, under this
member's key; none without its key (R384). -/
def State.sealFor (s : State) (c : Coll) (index : Nat) (rows : List PartialRow) : Option (List Byte) :=
  let par := fredPar c.card
  let digest := ((Tbl.find (s.core c.core).groups c.group.toNat).map (fun g => g.digest)).getD []
  (s.keySlot c.vf par.slot).map (fun k => (Config.partialLines rows).zipIdx.flatMap (fun l =>
    sealOf k.key digest c.seq par.kgen index l.2 l.1))

/-- The partial that a child has sent, checked: its rows, or the failure that takes their place. -/
def State.partOf (s : State) (c : Coll) (i : Nat) : Option (Except Byte (List PartialRow)) :=
  c.got.findSome? (fun e => match e.2.2 with
    | .part code kgen mac rows =>
      if e.1 ≠ i then none
      else if code ≠ 0 then some (.error code)
      else if kgen ≠ BitVec.ofNat 8 (fredPar c.card).kgen || some mac ≠ s.sealFor c i rows then some (.error 0x12)
      else some (.ok rows)
    | _ => none)

/-- The sum at a member, once its children's partials are in. -/
def State.fredSum (s : State) (c : Coll) : Option (Except Byte (List PartialRow)) :=
  let own : Except Byte (List PartialRow) := if (s.sealFor c c.me c.mine).isSome then .ok c.mine else .error 0x12
  c.kids.foldl (fun (a : Option (Except Byte (List PartialRow))) i => match a, s.partOf c i with
    | some (.ok x), some (.ok y) => some (.ok (addPartials x y))
    | some (.error e), some _ => some (.error e)
    | some (.ok _), some (.error e) => some (.error e)
    | _, _ => none) (some own)

/-- The result is written at a member once what it handed down has been answered; where a member below has left its
generation it is not (R387). -/
def State.fredWrite (s : State) (id : Nat) (c : Coll) (rows : List PartialRow) : State :=
  if c.waiting ≠ 0 then s
  else if c.code = 1 then s.collFail id c 1
  else (s.writeResult c rows).collEnd id c c.code (c.blockLines (fredBlock c.code (orFlags (rows.map (fun r => r.status)))))
    (rows.foldl (fun a r => a + 8 * r.cells.length) 0)

/-- Members at other modules, whose answers a member waits for. -/
def Coll.away (c : Coll) (s : State) (l : List Nat) : List Nat :=
  l.filter (fun i => (c.members[i]?).any (fun m => m.1 ≠ s.moduleId))

/-- The result is in force at a member, which hands it down. -/
def State.fredEnd (s : State) (id : Nat) (c : Coll) (code : Byte) (rows : List PartialRow) : State :=
  let d := { c with stage := 3, waiting := (c.away s c.kids).length, mine := rows }
  let s1 := c.kids.foldl (fun (t : State) i => t.tell c i (.result code rows)) (s.setColl id d)
  if code ≠ 0 then s1.collFail id c code else s1.fredWrite id d rows

/-- Whether two shapes of FRED fit: equal parameters, and equal sizes where both have any. -/
def fredFits (a b : List Nat) : Bool := a.take 4 = b.take 4 && (a.length ≤ 4 || b.length ≤ 4 || a = b)

def State.fredGo (s : State) (id : Nat) (c : Coll) : State :=
  if c.stage = 3 then s.fredWrite id c c.mine
  else if c.stage = 1 then
    if !(c.shapes.all (fun a => c.shapes.all (fredFits a))) then s.collFail id c 0x13
    else match s.fredSum c with
      | none => s
      | some r =>
        if c.me = 0 then match r with
          | .error e => s.fredEnd id c e []
          | .ok rows => s.fredEnd id c 0 (rows.map finalRow)
        else
          let body : CollBody := match r with
            | .error e => .part e 0 [] []
            | .ok rows => .part 0 (BitVec.ofNat 8 (fredPar c.card).kgen) ((s.sealFor c c.me rows).getD []) rows
          (s.setColl id { c with stage := 2 }).tell c c.parent body
  else match c.got.findSome? (fun e => match e.2.2 with
      | .result code rows => some (code, rows)
      | _ => none) with
    | some (code, rows) => s.fredEnd id c code rows
    | none => s

/-! ## FBCST and FA2A (R385) -/

/-- The strings that have come, each with its message. -/
def Coll.strings (c : Coll) : List (CollMsg × Nat × List Byte) :=
  c.inRows.filterMap (fun m => match m.body with
    | .bytes bad data => some (m, bad, data)
    | _ => none)

/-- This member's string and its poison mask. -/
def Coll.string (c : Coll) : List Byte × Nat := (c.rows.head?).map (fun r => (r.2, r.1)) |>.getD ([], 0)

/-- The code of a string with a poison mask. -/
def poisonCode (bad : Nat) : Byte := if bad = 0 then 0 else 3

/-- A broadcast's string is taken up where its granules are full, and written. -/
def State.takeString (s : State) (id : Nat) (c : Coll) (code : Byte) (string : List Byte × Nat) : State :=
  match s.takeRuns c (s.collWrites c) with
  | some t => t.collEnd id c code (stringLines (s.collWrites c) 0 string.1 string.2) 0
  | none => (s.setColl id c).wakeCollIn c 1

/-- The root of a broadcast is done once every string is answered; it writes its own destination then, unless a member has
left its generation (R385, R387). -/
def State.fbcstEnd (s : State) (id : Nat) (c : Coll) (own len : Nat) : State :=
  let code := if own ≠ 0 && own ≠ len then 0x13 else c.code
  if c.waiting ≠ 0 then s
  else if c.code = 1 then s.collFail id c 1
  else if own = len then s.takeString id c code c.string
  else s.collEnd id c code [] 0

def State.fbcstGo (s : State) (id : Nat) (c : Coll) : State :=
  let root := c.shape.getD 0 0
  let len := (c.shapeAt root).getD 1 0
  let dst := fun i : Nat => (c.shapeAt i).getD 2 0
  let own := dst c.me
  if c.stage = 1 then
    if c.shapes.any (fun x => x.getD 0 0 ≠ root) then s.collFail id c 0x13
    else if c.me = root then
      let (data, bad) := c.string
      let takers := c.others.filter (fun i => dst i = len)
      let d := { c with stage := 2, waiting := takers.length, code := firstCode c.code (poisonCode bad) }
      (takers.foldl (fun (t : State) i => t.tell c i (.bytes bad data)) (s.setColl id d)).fbcstEnd id d own len
    else if own = 0 then s.collFail id c 0
    else if own ≠ len then s.collFail id c 0x13
    else match c.strings with
      | [] => s
      | (_, bad, data) :: _ => s.takeString id c (poisonCode bad) (data, bad)
  else s.fbcstEnd id c own len

/-- Whether a member's chunk has been taken up. -/
def Coll.hasChunk (c : Coll) (i : Nat) : Bool := c.got.any (fun e => e.1 = i && (arrivalShape e.2.2).isNone)

/-- FA2A: every chunk that has come is answered when its member takes it, and written with the member's own chunk once all
that it sent have been answered: so that where a member has left its generation nothing is (R385, R387; log entry 53). -/
def State.fa2aGo (s : State) (id : Nat) (c : Coll) : State :=
  let ch := c.shape.getD 0 0
  let peers := c.others.filter (fun i => (c.shapeAt i).getD 0 0 = ch)
  let (data, bad) := c.string
  let chunk := fun q : Nat => ((data.drop (q * ch)).take ch, bad / 2 ^ (q * ch / 64) % 2 ^ (ch / 64))
  let (s1, c1) := if c.stage = 1 then
      (peers.foldl (fun (t : State) q => t.tell c q (.bytes (chunk q).2 (chunk q).1)) s,
        { c with stage := 2, waiting := peers.length, code := firstCode c.code (poisonCode bad) })
    else (s, c)
  let runs := fun q : Nat => cutParts (s.collWrites c) (q * ch) ch
  let fresh := c1.strings.filter (fun x => peers.contains x.1.srcIndex && !(c1.hasChunk x.1.srcIndex))
  let (s2, took) := fresh.foldl (fun (a : State × List (CollMsg × Nat × List Byte)) x => match a.1.takeRuns c1 (runs x.1.srcIndex) with
    | some t => (t.answerColl x.1 0, a.2 ++ [x])
    | none => a) (s1, [])
  let c2 := { c1 with
    inRows := (fresh.map (fun x => x.1)).filter (fun m => !(took.any (fun x => x.1 = m)))
    got := c1.got ++ took.map (fun x => (x.1.srcIndex, c.kind, .bytes x.2.1 x.2.2))
    landed := c1.landed + took.length, code := took.foldl (fun a x => firstCode a (poisonCode x.2.1)) c1.code }
  let s3 := s2.setColl id c2
  if took.length ≠ fresh.length then s3.wakeCollIn c2 1
  else if c2.waiting ≠ 0 then s3
  else if c2.code = 1 then
    ((peers.filter c2.hasChunk).foldl (fun (t : State) q => t.refillRuns c2 (runs q)) s3).collFail id c2 1
  else if c2.landed ≠ peers.length then s3
  else match s3.takeRuns c2 (runs c.me) with
    | none => s3.wakeCollIn c2 1
    | some t => t.collEnd id c2 (if peers.length ≠ c.others.length then 0x13 else c2.code)
      (stringLines (runs c.me) 0 (chunk c.me).1 (chunk c.me).2 ++ c2.got.flatMap (fun e => match e.2.2 with
        | .bytes b d => stringLines (runs e.1) 0 d b
        | _ => [])) 0

/-! ## RPART (R343, R344, R386) -/

/-- A parameter block of RPART. -/
structure RpartPar where
  rsize : Nat
  coff : Nat
  woff : Nat
  koff : Nat
  lo : List Nat
  hi : List Nat
deriving DecidableEq, Repr

def rpartPar (b : List Byte) : RpartPar :=
  ⟨16 * field b 32 1, 4 * field b 33 1, 4 * field b 34 1, 8 * field b 35 1,
    (List.range 3).map (fun i => field b (4 * i) 4), (List.range 3).map (fun i => field b (16 + 4 * i) 4)⟩

/-- The mode of a card; 4 is PRESET. -/
def rpartMode (m : Nat) : Option SfcMode := [SfcMode.morton2, .hilbert2, .morton3, .hilbert3][m]?

/-- Axes that a mode uses. -/
def rpartAxes (m : Nat) : Nat := ((rpartMode m).map sfcAxes).getD 0

/-- A record's 63-bit key. -/
def recordKey (m : Nat) (p : RpartPar) (row : List Byte) : Nat :=
  match rpartMode m with
  | none => field row p.koff 8 % 2 ^ 63
  | some mode =>
    let n := sfcAxes mode
    let q := (List.range n).map (fun i => (quantise (fp32.decode (field row (p.coff + 4 * i) 4)) (fp32.decode (p.lo.getD i 0))
      (fp32.decode (p.hi.getD i 0))).1)
    sfcKey mode q * (if n = 2 then 2 ^ 21 else 1)

/-- Total weight of records below a boundary. -/
def weightBelow (l : List KeyRec) (b : Nat) : Nat := (l.filter (fun r => r.key < b)).foldl (fun a r => a + r.weight) 0

/-- Splitter s[r] of p participants: the least multiple of 2^31 with p × (weight below it) ≥ r × W. -/
def splitter (l : List KeyRec) (p r : Nat) : Nat :=
  if r = 0 then 0 else if r = p then 2 ^ 63
  else
    let w := weightBelow l (2 ^ 64)
    let ok := fun b : Nat => decide (r * w ≤ p * weightBelow l b)
    if ok 0 then 0
    else ((l.map (fun k => (k.key / 2 ^ 31 + 1) * 2 ^ 31)).filter ok).foldl min (2 ^ 63)

/-- Limit c[r]: the greatest multiple of 2^31 in its range with at most C keys from s[r] on below it. -/
def limitOf (l : List KeyRec) (lo hi cap : Nat) : Nat :=
  let inside := (l.map (fun k => k.key)).filter (fun k => lo ≤ k && k < hi)
  let ok := fun b : Nat => decide (lo ≤ b ∧ b ≤ hi ∧ (inside.filter (· < b)).length ≤ cap)
  ((hi :: inside.map (fun k => k / 2 ^ 31 * 2 ^ 31)).filter ok).foldl max lo

/-- Where the records of a group go: splitters, and for each record its participant, or none when it is KEPT. -/
structure Placement where
  split : List Nat
  limit : List Nat
deriving DecidableEq, Repr

def placement (l : List KeyRec) (caps : List Nat) : Placement :=
  let p := caps.length
  let s := (List.range (p + 1)).map (splitter l p)
  ⟨s, caps.zipIdx.map (fun c => limitOf l (s.getD c.2 0) (s.getD (c.2 + 1) 0) c.1)⟩

/-- The participant whose range holds a key. -/
def Placement.rangeOf (p : Placement) (key : Nat) : Nat :=
  ((List.range p.limit.length).find? (fun r => p.split.getD r 0 ≤ key && key < p.split.getD (r + 1) 0)).getD 0

def Placement.kept (p : Placement) (key : Nat) : Bool := p.limit.getD (p.rangeOf key) 0 ≤ key

/-- The order of records: by key, then source, then row. -/
def KeyRec.before (a b : KeyRec) : Bool :=
  a.key < b.key || (a.key = b.key && (a.src < b.src || (a.src = b.src && a.row < b.row)))

/-- The receive row of a placed record. -/
def Placement.rowOf (p : Placement) (l : List KeyRec) (r : KeyRec) : Nat :=
  (l.filter (fun x => p.rangeOf x.key = p.rangeOf r.key && !(p.kept x.key) && KeyRec.before x r)).length

/-- Every record of the group, with the members' capacities. -/
def Coll.allRecs (c : Coll) : List KeyRec × List Nat :=
  let of := fun i : Nat => if i = c.me then ((entOf c.ents.2).sz 1, c.recs) else (c.got.findSome? (fun e => match e.2.2 with
    | .keys _ _ cap recs => if e.1 = i then some (cap, recs) else none
    | _ => none)).getD (0, [])
  let l := (List.range c.members.length).map of
  (l.flatMap (fun x => x.2), l.map (fun x => x.1))

/-- A row with a key in its key field. -/
def withKey (p : RpartPar) (row : List Byte) (key : Nat) : List Byte := row.take p.koff ++ leBytes 8 key ++ row.drop (p.koff + 8)

/-- The address of a row of a member's receive tensor, whose base its arrival has told (R386). -/
def Coll.rowAddr (c : Coll) (size i row : Nat) : Nat :=
  (if i = c.me then (entOf c.ents.2).base else (c.got.findSome? (fun e => match e.2.2 with
    | .keys _ base _ _ => if e.1 = i then some base else none
    | _ => none)).getD 0) + size * row

/-- A row of this member's receive tensor is written. -/
def State.writeRow (s : State) (c : Coll) (addr : Nat) (data : List Byte) (bad : Bool) : State :=
  if s.gen c.vf ≠ c.gen then s.staleDrop c.vf (ceilDiv data.length 64)
  else ((s.vaultRuns c.vf addr data.length).map (fun rs => s.writeRuns ⟨false, c.vf, c.gen⟩ rs data bad)).getD s

/-- The parameter block that a member read at its enqueue stands in its card's place after the card. -/
def Coll.par (c : Coll) : RpartPar := rpartPar (c.card.drop 64)

/-- The move begins: the receive tensor is zero but for the rows that have come, own records are placed, the others are sent. -/
def State.rpartMove (s : State) (id : Nat) (c : Coll) : State :=
  let (recs, caps) := c.allRecs
  let p := placement recs caps
  let size := c.par.rsize
  let at? := fun r : KeyRec => c.rowAddr size (p.rangeOf r.key) (p.rowOf recs r)
  let s0 := (((List.range ((entOf c.ents.2).sz 1)).map (c.rowAddr size c.me)).filter (fun a => !(c.seen.contains a))).foldl
    (fun (t : State) a => t.writeRow c a (zeros size) false) s
  let placed := c.recs.filter (fun r => !(p.kept r.key))
  let rowBytes := fun r : KeyRec => (c.rows[r.row]?).getD (0, [])
  let bad := c.rows.any (fun r => r.1 ≠ 0)
  let away := placed.filter (fun r => p.rangeOf r.key ≠ c.me)
  let home := placed.filter (fun r => p.rangeOf r.key = c.me)
  let s1 := home.foldl (fun (t : State) r =>
    t.writeRow c (at? r) (withKey c.par (rowBytes r).2 r.key) ((rowBytes r).1 ≠ 0)) s0
  let d := { c with
    stage := 2, waiting := away.length, landed := c.landed + home.length, seen := home.map at? ++ c.seen
    own := if bad then 3 else c.own }
  away.foldl (fun (t : State) r => t.tell c (p.rangeOf r.key)
    (.row (at? r) ((rowBytes r).1 ≠ 0) (withKey c.par (rowBytes r).2 r.key))) (s1.setColl id d)

/-- The end of an RPART: the key fields and the status block are written. -/
def State.rpartEnd (s : State) (id : Nat) (c : Coll) (code : Byte) : State :=
  let (recs, caps) := c.allRecs
  let p := placement recs caps
  let e := entOf c.ents.1
  let s1 := c.recs.foldl (fun (t : State) r =>
    t.writeVault c (e.base + e.unitOff 0 r.row 0 0 + c.par.koff) (leBytes 8 (r.key + (if p.kept r.key then 2 ^ 63 else 0)))) s
  let kept := fun l : List KeyRec => (l.filter (fun r => p.kept r.key)).length
  let n := c.members.length
  let block := rpartBlock c.landed (c.recs.length - kept c.recs) (kept c.recs) (kept recs) (weightBelow recs (2 ^ 64)) n code
    ((List.range (n - 1)).map (fun i => p.split.getD (i + 1) 0))
  s1.collEnd id c code (c.blockLines block) ((entOf c.ents.2).sz 1 * c.par.rsize + 8 * c.recs.length)

/-- The codes that the closing exchange carries. -/
def closing (code : Byte) : Byte := if code = 1 || code = 2 || code = 5 then code else 0

def State.rpartGo (s : State) (id : Nat) (c0 : Coll) : State :=
  if c0.stage = 1 && c0.shapes.any (· ≠ c0.shape) then s.collFail id c0 0x13
  else
    let s0 := if c0.stage = 1 then s.rpartMove id c0 else s
    let c := (Tbl.find s0.colls id).getD c0
    let (s2, c2) := if c.stage = 2 && c.waiting = 0 then
        (s0.tellAll c (.close (closing c.code)), { c with stage := 3 }) else (s0, c)
    let closes := c2.got.filterMap (fun e => match e.2.2 with
      | .close code => some (e.1, code)
      | _ => none)
    if c2.stage = 3 && c2.others.all (fun i => closes.any (fun x => x.1 = i)) then
      let codes := (List.range c2.members.length).map (fun i =>
        if i = c2.me then closing c2.code else ((closes.find? (fun x => x.1 = i)).map (fun x => x.2)).getD 0)
      s2.rpartEnd id c2 (firstCode (codes.foldl firstCode 0) (firstCode c2.code c2.own))
    else s2.setColl id c2

/-! ## Progress -/

/-- A collective goes on. -/
def State.collStep (s : State) (id : Nat) (c : Coll) : State :=
  if c.stage = 8 then s.collWrite id c
  else if c.stage = 9 then s.collFail id c c.code
  else if c.stage = 0 || !c.arrived then s
  else if c.stage = 1 && c.kindsDiffer then (s.modCore c.core Core.setMismatch).collFail id c 0x11
  else match c.kind with
    | .fred => s.fredGo id c
    | .fbcst => s.fbcstGo id c
    | .fa2a => s.fa2aGo id c
    | .rpart => s.rpartGo id c
    | _ => s

/-- A group word hears what waits for it and goes on. -/
def State.collGo (s : State) (id : Nat) : State :=
  match Tbl.find s.colls id with
  | none => s
  | some c0 =>
    let (s1, c) := s.drain id c0
    match c.kind with
    | .fgrp => s1.fgrpGo id c
    | .fbar => s1.fbarGo id c
    | _ => s1.collStep id c

/-- The collective of a galley. -/
def State.collOf (s : State) (gid : Nat) : Option (Nat × Coll) := s.colls.find? (fun e => e.2.galley = some gid)

/-- Uncorrectable vault bytes of runs that a member reads are noted (R322). -/
def State.noteRuns (s : State) (c : Coll) (rs : List Rng) : State :=
  rs.foldl (fun (t : State) r => t.noteBad ⟨false, c.vf, c.gen⟩ r.key r.len) s

/-- A member's contribution is complete, or read, and its arrival sets out. -/
def State.collBegin (s : State) (gid id : Nat) (c : Coll) : State :=
  let s0 := s.modGalley gid (fun g => { g with started := true, accepted := true, waitAck := 1, ack := s.now })
  let c1 : Coll := match c.kind with
    | .fred =>
      let m := s.fredMine c
      { c with mine := m.1, code := if m.2 then 3 else 0 }
    | .rpart =>
      let e := entOf c.ents.1
      let n := if e.liveFor c.vf c.gen then e.sz 1 else 0
      let rows := (List.range n).map (fun i =>
        let b := s.sourceBytes c true (e.base + e.unitOff 0 i 0 0) c.par.rsize
        (if b.2 then 1 else 0, b.1))
      { c with
        rows := rows
        recs := rows.zipIdx.map (fun r => ⟨recordKey (field c.card 6 1) c.par r.1.2, field r.1.2 c.par.woff 4, c.me, r.2⟩) }
    | _ => c
  let src := entOf c.ents.1
  let s1 := if c.kind = .fred || c.kind = .rpart then s0.noteRuns c (s.touches c.vf (src.liveFor c.vf c.gen) src) else s0
  let c2 := { c1 with stage := 1 }
  let rcv := entOf c2.ents.2
  let body : CollBody := if c.kind = .rpart then .keys c2.shape rcv.base (rcv.sz 1) c2.recs else .arrive c2.shape
  ((s1.setColl id c2).tellAll c2 body).wakeColl c2

/-- A member reads on in its string, 128 bytes a cycle, in register space once it wins the bank; none while they are not full
(R23, R26, R27). -/
def State.collRead (s : State) (gid : Nat) (g : Galley) (id : Nat) (c : Coll) : Option State :=
  let off := c.read
  let n := min 128 (g.reads.foldl (fun a r => a + r.len) 0 - off)
  let parts := cutParts g.reads off n
  let again := fun t : State => t.after 1 (.galleyStart gid)
  if !(parts.all (s.partReady g)) then none
  else
    let b := (parts.filter (fun r => isRS r.key)).foldl (fun m r => m ||| banksOf (rsOff r.key) r.len) 0
    match (if b = 0 then (true, s) else s.grant c.core g.o.age b) with
    | (false, t) => some (again t)
    | (true, t) =>
      let ls := (List.range (n / 64)).map (fun i => s.stringLine g g.reads (off + 64 * i) 64)
      let d := { c with
        read := off + n
        rows := [(c.string.2 + poisonMask (ls.map (fun l => l.2)) * 2 ^ (off / 64), c.string.1 ++ ls.flatMap (fun l => l.1))] }
      some (again ((t.noteRuns c parts).setColl id d))

/-- A collective's galley starts. None while its source is not full. A string is read first. -/
def State.collStart (s : State) (gid : Nat) (g : Galley) : Option State :=
  match s.collOf gid with
  | none => some s
  | some (id, c) =>
    let s0 := s.modGalley gid (fun g => { g with started := true, accepted := true, waitAck := 1, ack := s.now })
    if c.code ≠ 0 then some (s0.collFail id c c.code)
    else if (c.kind = .fbcst || c.kind = .fa2a) && c.read < g.reads.foldl (fun a r => a + r.len) 0 then s.collRead gid g id c
    else if !(c.kind = .fbcst || c.kind = .fa2a) && !(g.reads.all (s.partReady g)) then none
    else some (s.collBegin gid id c)

/-- The code of a collective with that of an answer: STALE before every other (R387). -/
def answerCode (a b : Byte) : Byte := if b = 1 then 1 else firstCode a b

/-- An answer to a group message (R344, R386, R387): a row, a result, or a string that has not arrived counts as answered, and a
code other than OK stands, as it does for a closing code; a string that has arrived is answered by its member; a collective whose
other message fails ends with the code. -/
def State.collAnswer (s : State) (m : CollMsg) (code : Byte) : State :=
  match s.colls.find? (fun e => e.2.core = m.srcCore && e.2.vf = m.vf && e.2.gen = m.gen && e.2.group = m.group && e.2.seq = m.seq
      && e.2.galley.isSome) with
  | none => s
  | some (id, c) =>
    match m.body with
      | .row _ _ _ | .bytes _ _ | .result _ _ =>
        if code = 0 && isString m.body then s else
        let d := { c with waiting := c.waiting - 1, code := answerCode c.code code }
        (s.setColl id d).wakeColl d
      | .close _ =>
        let d := { c with code := answerCode c.code code }
        s.setColl id d
      | .ack _ | .digest _ => s
      | _ =>
        if code = 0 then s else
        let d := { c with stage := 9, code := code }
        (s.setColl id d).wakeColl d

/-! ## The words (R371, R382, R385, R386) -/

/-- A word of the collectives: the group as it stands at enqueue. -/
def groupAt (o : Origin) (g : BitVec 4) : Op (Option Group) := do
  let s ← get
  return if s.inReduced o.core then none else (s.core o.core).validGroup g

/-- The order of a collective. -/
def collOrder (c : Coll) (n : BitVec 4) (reads writes touchR touchW : List Rng) (empties dests : List (Nat × Nat)) : Order :=
  { job := .coll c.kind c.group c.seq, reads := reads, writes := writes, touchR := touchR, touchW := touchW, pages := [], plan := []
    empties := empties, dests := dests, stream := false, counter := some n, entry := none, coll := some c }

/-- A status block's range: register space, in whole lines. -/
def blockRange (o : Origin) (r : Nat × Nat) : List (Option Nat × (Nat × Nat)) := [(some o.core, r)]

def fredOrder (o : Origin) (t : BitVec 12) (g n : BitVec 4) (b : List Byte) : Op Order := do
  let s ← get
  let v := (s.core o.core).vf
  let rd := readRanges b
  let wr := writeRanges b
  let r := fun i : Nat => rd.getD i (0, 0)
  let w := fun i : Nat => wr.getD i (0, 0)
  let par := fredPar b
  let sb := s.tensorBytes v t
  let db := s.tensorBytes v (BitVec.ofNat 12 (field b 2 2))
  let se := entOf sb
  let de := entOf db
  let ls := s.entryLive v sb
  let ld := s.entryLive v db
  let fmt := if par.fp then 1 else 10
  demand (field b 2 2 < 4096 && field b 6 1 < 16 && field b 7 1 = 0 && field b 12 4 = 0 && (par.fp || par.e = 0)
    && unused (rd.drop 1) && wholeLines rd && wholeLines wr && ((w 1).2 = 0 || (w 1).2 = 64)
    && (!ls || se.fmt = fmt) && (!ld || de.fmt = fmt) && (!ls || !ld || se.size = de.size)) .rsvd 0
  demand (!(ld && de.ro)) .addr 0
  demand ((!ls || (se.space = 0 && s.extentLocal o.core se)) && (!ld || (de.space = 0 && s.extentLocal o.core de))) .addr 0
  let reads ← declare o [(none, r 0)]
  let writes ← declare o ((none, w 0) :: blockRange o (w 1))
  let grp ← groupAt o g
  let sizes := if ls then se.size else if ld then de.size else []
  let shape := [if par.fp then 1 else 0, bitsOf (field b 6 1) 2 1, if par.sat then 1 else 0, field b 10 2] ++ sizes
  return collOrder (newColl s o .fred g grp b (sb, db) shape) n reads writes (s.touches v ls se) (s.touches v ld de)
    (if (w 1).2 = 0 then [] else [w 1]) []

def execFred (h : Hdr) (card : Name) (t : BitVec 12) (g n : BitVec 4) (s : State) : Host.Outcome State Fault Refusal :=
  issue .F h 1 (fun o => enqueue o none card 12 false (fredOrder o t g n)) s

/-- The spaces of a string word's ranges, with what its card leaves zero. -/
def stringSpaces (b : List Byte) : Bool × Bool := (bitOf (field b 6 1) 1, bitOf (field b 6 1) 2)

def fbcstOrder (o : Origin) (t : BitVec 12) (g n : BitVec 4) (b : List Byte) : Op Order := do
  let s ← get
  let grp ← groupAt o g
  let root := field b 2 2
  let rd := readRanges b
  let wr := writeRanges b
  let len := totalLen rd
  let sp := stringSpaces b
  demand (t = 0 && (field b 6 1 = 0 || field b 6 1 = 2 || field b 6 1 = 4 || field b 6 1 = 6) && field b 7 9 = 0
    && wholeLines rd && wholeLines wr
    && (match grp with
      | none => true
      | some x => root < x.members.length && (if root = x.me then 64 ≤ len && len ≤ 2 ^ 29 - 64 else unused rd))) .rsvd 0
  let reads ← fabricString o sp.1 rd
  let writes ← fabricString o sp.2 wr
  return collOrder (newColl s o .fbcst g grp b ([], []) [root, len, totalLen wr]) n reads writes [] [] [] (if sp.2 then wr else [])

def execFbcst (h : Hdr) (card : Name) (t : BitVec 12) (g n : BitVec 4) (s : State) : Host.Outcome State Fault Refusal :=
  issue .F h 1 (fun o => enqueue o none card 12 false (fbcstOrder o t g n)) s

def fa2aOrder (o : Origin) (t : BitVec 12) (g n : BitVec 4) (b : List Byte) : Op Order := do
  let s ← get
  let grp ← groupAt o g
  let rd := readRanges b
  let wr := writeRanges b
  let ch := field b 8 4
  let sp := stringSpaces b
  demand (t = 0 && field b 2 2 = 0 && (field b 6 1 = 0 || field b 6 1 = 2 || field b 6 1 = 4 || field b 6 1 = 6) && field b 7 1 = 0
    && field b 12 4 = 0 && wholeLines rd && wholeLines wr && ch ≠ 0 && ch % 64 = 0
    && (match grp with
      | none => true
      | some x => totalLen rd = x.members.length * ch && totalLen wr = x.members.length * ch)) .rsvd 0
  let reads ← fabricString o sp.1 rd
  let writes ← fabricString o sp.2 wr
  return collOrder (newColl s o .fa2a g grp b ([], []) [ch]) n reads writes [] [] [] (if sp.2 then wr else [])

def execFa2a (h : Hdr) (card : Name) (t : BitVec 12) (g n : BitVec 4) (s : State) : Host.Outcome State Fault Refusal :=
  issue .F h 1 (fun o => enqueue o none card 12 false (fa2aOrder o t g n)) s

/-- Whether a tensor is a table of records of a size (R386). -/
def recordTensor (e : Ent) (size : Nat) : Bool :=
  e.fmt = 6 && e.sz 2 = 1 && e.sz 3 = 1 && 4 * e.sz 0 = size && e.st 1 = size && e.sz 1 ≤ 2 ^ 20

/-- The checks on a parameter block. -/
def rpartParOk (mode : Nat) (b : List Byte) : Bool :=
  let p := rpartPar b
  let n := rpartAxes mode
  field b 12 4 = 0 && field b 28 4 = 0 && field b 36 28 = 0 && 16 ≤ p.rsize && p.rsize ≤ 256
  && p.koff + 8 ≤ p.rsize && p.woff + 4 ≤ p.rsize && p.coff + 4 * n ≤ p.rsize
  && (List.range n).all (fun i => (fp32.decode (p.lo.getD i 0)).lt (fp32.decode (p.hi.getD i 0)))

def rpartOrder (o : Origin) (card : Name) (t : BitVec 12) (g n : BitVec 4) (b : List Byte) : Op Order := do
  let s ← get
  let v := (s.core o.core).vf
  let grp ← groupAt o g
  let rd := readRanges b
  let wr := writeRanges b
  let r := fun i : Nat => rd.getD i (0, 0)
  let w := fun i : Nat => wr.getD i (0, 0)
  let mode := field b 6 1
  let p := (grp.map (fun x => x.members.length)).getD 1
  let own := some o.core
  demand (field b 2 2 < 4096 && mode ≤ 4 && field b 7 9 = 0 && unused (rd.drop 2) && wholeLines rd && wholeLines wr
    && (r 1).2 = 64 && (w 1).2 = 64 * ceilDiv (32 + 8 * (p - 1)) 64) .rsvd 0
  let reads ← declare o [(none, r 0), (own, r 1)]
  let writes ← declare o [(none, w 0), (own, w 1)]
  need (s.full o.core (r 1).1 64 && !(s.hits o.core (keyRS o.core (r 1).1) 64))
  claimMore o (banksOf (← recordAt o card 64 64) 64) (banksOf (r 1).1 64)
  let pb := s.read (s.ownTag o.core) (keyRS o.core (r 1).1) 64
  let size := (rpartPar pb).rsize
  let sb := s.tensorBytes v t
  let db := s.tensorBytes v (BitVec.ofNat 12 (field b 2 2))
  let se := entOf sb
  let de := entOf db
  let ls := s.entryLive v sb
  demand (rpartParOk mode pb && s.entryLive v db && recordTensor de size && (!ls || recordTensor se size)
    && de.space = 0 && s.extentLocal o.core de && (!ls || (se.space = 0 && s.extentLocal o.core se))) .rsvd 0
  demand (!de.ro && !(ls && se.ro)) .addr 0
  let shape := mode :: pb.map BitVec.toNat
  let srcRuns := s.touches v ls se
  return collOrder (newColl s o .rpart g grp (b ++ pb) (sb, db) shape) n reads writes
    srcRuns (srcRuns ++ s.touches v true de) [w 1] []

def execRpart (h : Hdr) (card : Name) (t : BitVec 12) (g n : BitVec 4) (s : State) : Host.Outcome State Fault Refusal :=
  issue .F h 1 (fun o => enqueue o none card 12 false (rpartOrder o card t g n)) s

end Sys2Proof.Machine
end

