-- ==== Sys2Proof/Machine/Freeze.lean ====
section
/-! DEFINITION. Freezing and resuming gangs, traps' followers, slices and priority, the barrier and its exchange phase,
faults' owners, and shared-structure errors (R284, R299, R302 to R305, R314 to R322, R328, R398). -/

namespace Sys2Proof.Machine

/-! ## Traps (R318) -/

/-- An origin that names no word. -/
def noOrigin : Origin := ⟨0, .C, 0, 0, 0, 0, 0, 0⟩

/-- TRAP_FREEZE: a trap that comes of an event (R21, R141, R316). -/
def execTrapFreeze (o : Origin) (cls : TrapClass) (code addr : Nat) (s : State) : Host.Outcome State Fault Refusal :=
  .next (s.takeTrap o cls code addr)

/-- The cores of a gang that still run freeze together and are saved. -/
def State.freezeRest (s : State) (g : Nat) (gv : Gang) (cause : FreezeCause) : State :=
  gv.cores.foldl (fun (t : State) c =>
    let k := t.core c
    if k.gang = g && k.frozen.isNone then (t.modCore c (fun k => { k with frozen := some cause })).saveCore c g else t) s

/-- GANG_FREEZE_FOLLOW: the gang's other cores freeze after a trap (R318). -/
def execGangFreezeFollow (gang : Nat) (s : State) : Host.Outcome State Fault Refusal :=
  match s.gang gang with
  | none => .next s
  | some gv => .next ((s.freezeRest gang gv .trap).after saveCycles (.saveWritten gang .trap noOrigin (.x 0)))

/-! ## Freezes by request (R314, R328) -/

/-- Save slots of a VF that are free (R315). -/
def State.freeSlots (s : State) (v : BitVec 6) : Nat :=
  field (s.vf v.toNat).record 552 2 - (s.saves.filter (fun e => e.2.vf = v && e.2.gen = s.gen v)).length

/-- FREEZE_GATE: every core of the gang stops in one cycle and is saved; a trap goes first (R314, R328). Cause `owner`
is an FRZ, with its origin and destination. -/
def execFreezeGate (gang : Nat) (cause : FreezeCause) (o : Origin) (d : Name) (s : State) :
    Host.Outcome State Fault Refusal :=
  let answer := fun (t : State) (v : Word) => Host.Outcome.next (if cause = .owner then t.privDone o d v else t)
  match s.gang gang with
  | none => answer s (refusal 6)
  | some gv =>
    match gv.frozen with
    | some .trap => answer s 0
    | some _ => answer s (refusal 7)
    | none =>
      if s.freeSlots gv.vf < gv.cores.length then answer s (refusal 8)
      else
        let s1 := s.freezeRest gang gv cause
        let s2 : State := { s1 with
          gangs := Tbl.put s1.gangs gang { gv with frozen := some cause, saved := false, order := s.nextLaunch }
          nextLaunch := s.nextLaunch + 1 }
        .next (s2.after saveCycles (.saveWritten gang cause o d))

/-- Whether an atomic or a ticket of a core has left its store queue and has not reached its target (R251, R254). -/
def Core.wordsOut (k : Core) : Bool :=
  k.sq.any (fun e => e.ready.isSome && (match e.op with
    | .atom _ _ _ => true
    | .tktake _ _ => true
    | _ => false))

/-- Whether the release of a trap record has taken effect at .TEN (R221, R318): the lines of earlier galleys that have left the
core have landed, but those that its gang's frozen cores hold back, those to the pool are acknowledged, and its PUTs are
answered. -/
def State.recordMay (s : State) (gang : Nat) (o : Origin) : Bool :=
  s.coalescer.all (fun e => e.2.host || !(e.2.owners.any (fun w => w.1 = o.core && w.2.1 < o.age && w.2.2 = gang)))
  && s.galleys.all (fun e => e.2.gang ≠ gang || e.2.core ≠ o.core || o.age ≤ e.2.o.age || e.2.flight.all (fun p => isRS p.dst))
  && !(s.ops.any (fun e => e.2.gang = gang && e.2.core = o.core && e.2.pkt.op = .put))

/-- The save of a gang is written: the images of its cores are what they hold now. -/
def State.saveNow (s : State) (gang : Nat) : State :=
  let held : State := { s with saves := s.saves.map (fun (e : Nat × Save) =>
      if e.2.gang = gang && (s.core e.2.core).gang = gang then (e.1, { e.2 with image := s.core e.2.core }) else e) }
  held.modGang gang (fun v => { v with saved := true })

/-- The first record of a gang's traps goes into its owner's fault area once it may, and then the next (R318). -/
def State.putNext (s : State) (gang : Nat) : State :=
  match s.gang gang with
  | none => s
  | some gv => match gv.records with
    | [] => s
    | (o, bytes) :: rest =>
      if s.recordMay gang o then
        let t := (s.putRecord gv.vf gv.area gv.areaHost bytes).modGang gang (fun v => { v with records := rest })
        if rest.isEmpty then t else t.after 0 (.saveWritten gang .trap noOrigin (.x 0))
      else s.after 1 (.saveWritten gang .trap noOrigin (.x 0))

/-- SAVE_WRITTEN: once the atomics and tickets that have left the cores have reached their targets the save is written, and
FRZ is complete; then the records of the gang's traps follow (R251, R314, R318, R328). -/
def execSaveWritten (gang : Nat) (cause : FreezeCause) (o : Origin) (d : Name) (s : State) :
    Host.Outcome State Fault Refusal :=
  let answer := fun (t : State) => if cause = .owner then t.privDone o d 0 else t
  .next (match s.gang gang with
    | none => answer s
    | some gv =>
      if gv.frozen.isSome && gv.cores.any (fun c => (s.home gang c).wordsOut) then s.after 1 (.saveWritten gang cause o d)
      else (answer (if gv.frozen.isSome then s.saveNow gang else s)).putNext gang)

/-! ## Resuming (R317) -/

/-- Whether a core can be given back to a gang. -/
def State.coreFreeFor (s : State) (g c : Nat) : Bool :=
  s.gangs.all (fun e => e.1 = g || !(e.2.cores.contains c) || (e.2.frozen.isSome && e.2.saved && (Tbl.find s.saves (e.1 * 512 + c)).isSome))

/-- A core's state comes back from its save slot, unless it still stands in the core. The translations are the core's, and
stay with it. -/
def State.restoreCore (s : State) (g c : Nat) : State :=
  if (s.core c).gang = g then { s with saves := Tbl.del s.saves (g * 512 + c) }
  else
    let s1 := s.displace c
    match Tbl.find s1.saves (g * 512 + c) with
    | none => s1
    | some sv =>
      let tag : Tag := ⟨false, sv.vf, sv.gen⟩
      let s2 := s1.voidCore c
      let s3 := (s2.write tag (keyRS c 0) (s2.vaultBytes sv.vf sv.addr 0x40000)).write tag (keySpill c 0)
        (s2.vaultBytes sv.vf (sv.addr + 0x42000) 0x4000)
      let k := s3.core c
      { s3.setCore c { sv.image with tcache := k.tcache, nextTrans := k.nextTrans } with
        saves := Tbl.del s3.saves (g * 512 + c)
        poison := sv.poison ++ s3.poison, badLines := sv.badLines ++ s3.badLines }

/-- Operand-cache lines are filled again from the vault (R317). -/
def State.refill (s : State) (c : Nat) : State :=
  let k := s.core c
  k.ocache.foldl (fun (t : State) l =>
    let e := entOf ((t.lineEntry c l.key.tensor).getD (t.tensorBytes k.vf l.key.tensor))
    t.fillLine c l.key e) s

/-- GANG_RESUME: the gang's cores come back and go on in one cycle, their held lines written first (R317), and a THAW that
asked for it is complete (R328). An outstanding FATOM is not reissued from here on (R374). -/
def execGangResume (gang : Nat) (s : State) : Host.Outcome State Fault Refusal :=
  match s.gang gang with
  | none => .next s
  | some gv =>
    let again := Host.Outcome.next (s.after 1 (.gangResume gang))
    if gv.frozen.isNone then .next s
    else if !gv.saved || !gv.records.isEmpty || !(s.scheduled gv.vf) || !(gv.cores.all (s.coreFreeFor gang)) then again
    else if gv.frozen = some .dispatcher && s.wanted none (some gang) (s.gangPrio gv) gv.order gv.cores then again
    else
      let s0 := gv.cores.foldl (fun (t : State) c => t.restoreCore gang c) s
      let s1 := gv.cores.foldl (fun (t : State) c => t.modCore c (fun k => Core.retry { k with
        frozen := none, claimed := 0, granted := [], popped := [], fixedNow := [], asking := [], walkFault := [] })) s0
      let s2 := gv.cores.foldl (fun (t : State) c => (t.releaseHeld c).refill c) s1
      let (area, host) := s2.faultOwner gv.vf 8 gv.launch
      let slice := ((Tbl.find s.launches gv.launch).map (fun l => l.rcb.sliceCycles)).getD 0
      let kept := fun f : FabOp => match f.what with
        | .atom _ _ => if f.gang = gang then { f with tries := 3 } else f
        | _ => f
      let s3 : State := { s2 with
        gangs := Tbl.put s2.gangs gang { gv with
          frozen := none, saved := false, area := area, areaHost := host, sliceAt := s.now + slice, thaw := [] }
        ops := s2.ops.map (fun (e : Nat × FabOp) => (e.1, kept e.2)) }
      .next (((gv.thaw.foldl (fun (t : State) w => t.privDone w.1 w.2 0) s3).setIslands gv.cores).after slice (.sliceEnd gang))

/-! ## Slices and priority (R299) -/

/-- Whether some runnable launch or waiting gang needs a core of a gang and goes before it; with `equal`, one of equal
priority counts. -/
def State.rival (s : State) (g : Nat) (gv : Gang) (equal : Bool) : Bool :=
  let p := s.gangPrio gv
  let beats := fun q : Nat => p < q || (equal && p = q)
  s.launches.any (fun e => s.runnable e.1 e.2 && beats e.2.rcb.prio && (s.chosen e.2).isNone
    && gv.cores.any (bitOf e.2.rcb.coreset))
  || s.gangs.any (fun e => e.1 ≠ g && s.resumable e.2 && beats (s.gangPrio e.2) && gv.cores.any e.2.cores.contains)

/-- The dispatcher displaces a gang: it is frozen, and waits to resume on its own cores. -/
def State.yieldGang (s : State) (g : Nat) : State :=
  ((s.after 0 (.freezeGate g .dispatcher noOrigin (.x 0))).after 1 (.gangResume g))

/-- SLICE_END: the gang is frozen only if a rival of equal or higher priority needs its cores. -/
def execSliceEnd (gang : Nat) (s : State) : Host.Outcome State Fault Refusal :=
  match s.gang gang with
  | none => .next s
  | some gv =>
    if gv.frozen.isSome || s.now < gv.sliceAt then .next s
    else
      let slice := ((Tbl.find s.launches gv.launch).map (fun l => l.rcb.sliceCycles)).getD 0
      if s.rival gang gv true && gv.cores.length ≤ s.freeSlots gv.vf then .next (s.yieldGang gang)
      else .next ((s.modGang gang (fun v => { v with sliceAt := s.now + max 1 slice })).after (max 1 slice) (.sliceEnd gang))

/-- PRIORITY_PREEMPT: at a superstep boundary a launch of higher priority takes the gang's cores. -/
def execPriorityPreempt (gang launch : Nat) (s : State) : Host.Outcome State Fault Refusal :=
  match s.gang gang, Tbl.find s.launches launch with
  | some gv, some l =>
    if gv.frozen.isNone && s.runnable launch l && s.gangPrio gv < l.rcb.prio && (s.chosen l).isNone
        && gv.cores.any (bitOf l.rcb.coreset) && gv.cores.length ≤ s.freeSlots gv.vf then .next (s.yieldGang gang)
    else .next s
  | _, _ => .next s

/-! ## Frequencies (R305, R403) -/

/-- FREQUENCY_CHANGE: the governor's setting for a gang, in force from the beginning of its next exchange phase. -/
def execFrequencyChange (gang : Nat) (level : BitVec 4) (s : State) : Host.Outcome State Fault Refusal :=
  .next (s.modGang gang (fun v => { v with nextLevel := level }))

/-! ## The barrier and the exchange phase (R87, R302 to R304) -/

/-- The exchange table as the phase begins: its length and its slots. -/
def State.exchangeTable (s : State) (gv : Gang) : Nat × List (Nat × Nat × Nat × Nat) :=
  let a := ((Tbl.find s.launches gv.launch).map (fun l => l.rcb.exch)).getD 0
  if a = 0 then (0, [])
  else
    let h := s.vaultBytes gv.vf a 8
    let n := min 1024 (field h 0 2)
    let b := s.vaultBytes gv.vf (a + 8) (8 * n)
    (field h 2 4, (List.range n).map (fun i =>
      (field b (8 * i) 2, field b (8 * i + 2) 1, field b (8 * i + 3) 1, field b (8 * i + 4) 2)))

/-- The core whose cycles a gang's barrier and exchange phase are counted in: its first, so that a freeze suspends them
(R87, R317). -/
def Gang.first (g : Gang) : Nat := g.cores.headD 0

/-- BARRIER_CLOSE: the exchange phase begins (R302), and the gang's frequency level is the governor's latest (R305). -/
def execBarrierClose (gang : Nat) (s : State) : Host.Outcome State Fault Refusal :=
  match s.gang gang with
  | none => .next s
  | some gv =>
    if gv.frozen.isSome then .next (s.later gv.first 1 (.barrierClose gang))
    else
      let (len, slots) := s.exchangeTable gv
      let ph : Phase := ⟨(s.core gv.first).time / uncore, len, slots, [], []⟩
      .next ((({ s with gangs := Tbl.put s.gangs gang { gv with phase := some ph, level := gv.nextLevel } }).setIslands
        gv.cores).later gv.first (uncore * len) (.exchangePhaseEnd gang))

/-- A walker at the barrier goes on at the word after its SSB. -/
def WalkerSt.leaveBarrier (v : WalkerSt) (ready : Nat) : WalkerSt :=
  if v.st = .barrier then { v.advance ready with st := .running } else v

/-- A core leaves the barrier: STEP advances, its walkers run again in the second cycle, and the control walker's post
lands (R84, R87). -/
def State.leaveBarrier (s : State) (c : Nat) : State :=
  let k := s.core c
  if k.wC.st ≠ .barrier then s
  else
    let o := s.arrivedOrigin c
    let t := k.time + 2
    ((s.modCore c (fun k => { k with
      step := k.step + 1
      wC := k.wC.leaveBarrier t, wV := k.wV.leaveBarrier t, wM := k.wM.leaveBarrier t
      wX := k.wX.leaveBarrier t, wG := k.wG.leaveBarrier t, wF := k.wF.leaveBarrier t })).begin o).later c 2
        (.scalarResultLands o (.x 0) 0)

/-- EXCHANGE_PHASE_END: at the table's length and once every galley of the phase has retired, in an uncore cycle, the
gang goes on; a launch of higher priority takes its cores there (R299, R303). -/
def execExchangePhaseEnd (gang : Nat) (s : State) : Host.Outcome State Fault Refusal :=
  match s.gang gang with
  | none => .next s
  | some gv =>
    match gv.phase with
    | none => .next s
    | some ph =>
      let time := (s.core gv.first).time
      if gv.frozen.isSome || time < uncore * (ph.began + ph.len) || time % uncore ≠ 0
          || s.galleys.any (fun e => e.2.gang = gang && e.2.exch) then .next (s.later gv.first 1 (.exchangePhaseEnd gang))
      else
        let s1 := gv.cores.foldl (fun (t : State) c => t.leaveBarrier c) s
        let s2 : State := { s1 with
          gangs := Tbl.put s1.gangs gang { gv with phase := none, closing := false }
          reduced := if s1.phase = 6 then s1.reduced.filter (· ≠ gang) else s1.reduced }
        let s2 := if s1.reduced.contains gang then s2.setIslands gv.cores else s2
        .next (s2.launches.foldl (fun (t : State) e =>
          if s2.runnable e.1 e.2 && s2.gangPrio gv < e.2.rcb.prio then t.after 0 (.priorityPreempt gang e.1) else t) s2)

/-! ## The owner's actions (R321) -/

/-- Gangs of a VF that a trap or an ERROR record has frozen, with a fault area. -/
def State.faulted (s : State) (v : BitVec 6) (area : Nat) : List Nat :=
  (s.gangs.filter (fun e => e.2.vf = v && e.2.area = area && e.2.frozen = some .trap)).map (fun e => e.1)

/-- Whether some of these gangs has a trap record that is not written yet (R318). -/
def State.recording (s : State) (gs : List Nat) : Bool :=
  gs.any (fun g => (s.gang g).any (fun v => !v.records.isEmpty))

/-- ACTION and COUNT become 0. -/
def State.clearArea (s : State) (v : BitVec 6) (area : Nat) : State :=
  match s.vaultKey v area with
  | some k => s.write ⟨false, v, s.gen v⟩ k [0, 0]
  | none => s

def execFaultActionThaw (vf : BitVec 6) (area : Nat) (s : State) : Host.Outcome State Fault Refusal :=
  let gs := s.faulted vf area
  .next (if gs.isEmpty then s
    else if s.recording gs then s.after 1 (.faultActionThaw vf area)
    else (gs.foldl (fun (t : State) g => t.after 0 (.gangResume g)) s).clearArea vf area)

/-- Restart: the gang is released and its launch begins again from acceptance with its captured patch. -/
def State.restart (s : State) (g : Nat) : State :=
  match s.gang g with
  | none => s
  | some gv => ((s.releaseGang g).modLaunch gv.launch (fun l => { l with st := .waiting, ready := s.now + uncore * 72 })).after 0
      (.gangStart gv.launch)

def execFaultActionRestart (vf : BitVec 6) (area : Nat) (s : State) : Host.Outcome State Fault Refusal :=
  let gs := s.faulted vf area
  .next (if gs.isEmpty then s
    else if s.recording gs then s.after 1 (.faultActionRestart vf area)
    else (gs.foldl State.restart s).clearArea vf area)

/-- Abort: the gang is released and its launch retires as aborted. -/
def State.abortGang (s : State) (g : Nat) : State :=
  match s.gang g with
  | none => s
  | some gv => (s.releaseGang g).endLaunch gv.launch .aborted

def execFaultActionAbort (vf : BitVec 6) (area : Nat) (s : State) : Host.Outcome State Fault Refusal :=
  let gs := s.faulted vf area
  .next (if gs.isEmpty then s
    else if s.recording gs then s.after 1 (.faultActionAbort vf area)
    else (gs.foldl State.abortGang s).clearArea vf area)

/-! ## Errors in shared structures (R322, R398) -/

/-- The root fault area of a VF, and whether the host owns it. -/
def State.rootArea (s : State) (v : BitVec 6) : Nat × Bool := s.faultOwner v 0 0

/-- An ERROR record in a VF's root fault area and in Press's log, and the freeze of the gangs that used the entry. -/
def State.errorRecord (s : State) (v : BitVec 6) (structureId : Nat) (gangs : List Nat) : State :=
  let (area, host) := s.rootArea v
  let bytes := recordBytes host .error noOrigin { Core.reset with vf := v } (s.gen v) structureId 0 s.now
  let log := recordBytes true .error noOrigin { Core.reset with vf := v } (s.gen v) structureId 0 s.now
  let s1 := (s.putRecord v area host bytes).send (.pressLog log)
  gangs.foldl (fun (t : State) g => match t.gang g with
    | some gv => if gv.vf = v && gv.frozen.isNone then
        ((t.freezeRest g gv .trap).modGang g (fun x => { x with
          frozen := some .trap, saved := false, area := area, areaHost := host })).after saveCycles
            (.saveWritten g .trap noOrigin (.x 0))
      else t
    | none => t) s1

/-- A queue entry that waits on a dispenser. -/
def QOp.usesDispenser (e : QOp) (n : BitVec 8) : Bool :=
  match e.op with
  | .tktake m _ => m = n
  | .tknext m _ => m = n
  | .tkwait m _ => m = n
  | _ => false

/-- Whether a galley holds a translation of a page, of its core's. -/
def State.usesPage (s : State) (g : Galley) (page : Nat) : Bool :=
  (s.core g.core).tcache.any (fun t => t.page = page && g.pages.contains t.id)

/-- Gangs of the module that use an entry of a shared structure. -/
def State.users (s : State) (u : UnitRef) : List Nat :=
  match u with
  | .dispenser v n => s.gangs.filterMap (fun g => if g.2.vf = v && g.2.cores.any (fun c =>
      let k := s.home g.1 c
      (k.lq ++ k.sq).any (fun e => e.usesDispenser n) || k.tickets.any (fun t => t.1 = n)) then some g.1 else none)
  | .line key => (s.galleys.filterMap (fun e =>
      if (e.2.flight ++ e.2.plan).any (fun p => p.dst / 64 = key / 64) then some e.2.gang else none)).eraseDups
      ++ s.coalescer.flatMap (fun e => if e.2.key = key then e.2.owners.map (fun w => w.2.2) else [])
  | .translation c page => (s.galleys.filterMap (fun e =>
      if quarter e.2.core = quarter c && s.usesPage e.2 page then some e.2.gang else none)).eraseDups
  | .reply i => ((s.replies[i]?).bind (fun r =>
      if r.key.srcMod = s.moduleId then some (s.core r.key.srcCore.toNat).gang else none)).toList
  | _ => []

/-- The VFs that hold live entries of a shared structure: its ownership bitmap. A page walker's cache and a lateral network
are those of a quarter (R322). -/
def State.owners (s : State) (structureId : Nat) (q : BitVec 2) : List (BitVec 6) :=
  let l : List (BitVec 6) := match structureId with
    | 1 => s.cores.flatMap (fun e => if quarter e.1 = q.toNat then
        (e.2.tcache.filter (fun t => t.gen = s.gen t.vf)).map (fun t => t.vf) else [])
    | 2 => (s.coalescer.filter (fun e => !e.2.sent)).map (fun e => e.2.vf)
    | 3 => (s.dispensers.filter (fun e => s.tagCurrent e.2.tag)).map (fun e => e.2.tag.vf)
    | 4 => (s.replies.filter (fun r => s.gen r.key.vf = r.key.gen)).map (fun r => r.key.vf)
    | 5 => (s.galleys.filter (fun e => quarter e.2.core = q.toNat && e.2.flight.any (fun p =>
        (siteOf p.dst).any (· ≠ e.2.core)))).map (fun e => e.2.vf)
    | _ => []
  l.eraseDups

/-- What becomes of the entry (the table of R322). An error in a vault line, in a granule of register space or in a cell of the
MAC array is in no shared structure: it stands there until it is met (R144, R193, R214, R249). -/
def State.spoil (s : State) (structureId : Nat) (u : UnitRef) : State :=
  match structureId, u with
  | 0, .line key => if s.badLines.contains (markOf key) then s else { s with badLines := markOf key :: s.badLines }
  | 0, .macCell c row col => s.modCore c (fun k => { k with macBad := (row, col) :: k.macBad })
  | 1, .translation c page => s.modCore c (fun k => { k with tcache := k.tcache.filter (fun t => t.page ≠ page || t.count ≠ 0) })
  | 2, .line key => { s with coalescer := s.coalescer.map (fun (e : Nat × CoalLine) =>
      if e.2.key = key && !e.2.sent then (e.1, { e.2 with poison := true }) else e) }
  | 3, .dispenser v n => { s with dispensers := Tbl.del s.dispensers (dispenserKey v n) }
  | 4, .reply i => { s with replies := s.replies.eraseIdx i }
  | 5, .line key => { s with galleys := s.galleys.map (fun (e : Nat × Galley) => (e.1, { e.2 with
      flight := e.2.flight.map (fun p => if p.dst / 64 = key / 64 then
        { p with src := (match p.src with
          | .data bs _ => .data bs true
          | .pooled ps bs _ => .pooled ps bs true
          | x => x) } else p) })) }
  | _, _ => s

/-- SHARED_STRUCTURE_ERROR: an entry of a structure, of a quarter where each has one, is lost; the VFs of the blast set are
told, and their gangs that used the entry freeze (R322). -/
def execSharedStructureError (structureId : BitVec 8) (q : BitVec 2) (u : UnitRef) (s : State) :
    Host.Outcome State Fault Refusal :=
  let gangs := s.users u
  .next ((s.owners structureId.toNat q).foldl (fun (t : State) v => t.errorRecord v structureId.toNat gangs)
    (s.spoil structureId.toNat u))

end Sys2Proof.Machine
end

