-- ==== Sys2Proof/Machine/Tenancy.lean ====
section
/-! DEFINITION. Tenancy: the privileged words, generations and laps, the resurfacer, stopping and running a VF, host
accesses and registers, and the coarsened counters (R285, R287, R306 to R313, R325 to R330, R341, R394, R395). -/

namespace Sys2Proof.Machine

/-! ## Host accesses to device memory (R313, R394) -/

/-- A host write to the window of a VF; bytes in empty slots are discarded. -/
def State.hostWrite (s : State) (v : BitVec 6) (addr : Nat) (bytes : List Byte) : State :=
  ((splitAt 64 (bytes.length / 64 + 2) addr bytes.length).foldl (fun (a : State × List Byte) r =>
    (match a.1.vaultKey v r.1 with
      | some k => (a.1.writeUser ⟨false, v, a.1.gen v⟩ k (a.2.take r.2)).noteAction k r.2
      | none => a.1, a.2.drop r.2)) (s, bytes)).1

/-- A host read of the window; empty slots read zero. -/
def State.hostRead (s : State) (v : BitVec 6) (addr n : Nat) : List Byte :=
  (splitAt 64 (n / 64 + 2) addr n).flatMap (fun r => match s.vaultKey v r.1 with
    | some k => s.readClean ⟨false, v, s.gen v⟩ k r.2
    | none => zeros r.2)

/-- One host access. -/
def State.hostAccess (s : State) (v : BitVec 6) (addr : Nat) (write : Option (List Byte)) (len : Nat) : State :=
  match write with
  | some bs => s.hostWrite v addr bs
  | none => s.send (.hostRead v addr (s.hostRead v addr len))

/-- HOST_MEM_ACCESS: held from the start of a stop until PSET.RUN. Where the module serves its mailbox only (R399) a write does
nothing and a read gives zeros. DESIGN CHOICE (log entry 68): no rule says what such a read gives. -/
def execHostMemAccess (vf : BitVec 6) (addr : Nat) (write : Option (List Byte)) (len : Nat) (s : State) :
    Host.Outcome State Fault Refusal :=
  let f := s.vf vf.toNat
  .next (if !s.serving then (if write.isSome then s else s.send (.hostRead vf addr (zeros len)))
    else if f.created && f.status ≠ .running then
      s.modVf vf.toNat (fun f => { f with heldHost := f.heldHost ++ [(addr, write, len)] })
    else s.hostAccess vf addr write len)

/-- REGISTER_WRITE: the kick page and the status page of BAR0 (R297, R395); nothing where the module serves its mailbox only
(R399). -/
def execRegisterWrite (vf : BitVec 6) (off : Nat) (val : Word) (s : State) : Host.Outcome State Fault Refusal :=
  let f := s.vf vf.toNat
  if !s.serving then .next s
  else if off = 0 then .next (s.after 0 (.kick vf val))
  else if 0x40 ≤ off ∧ off < 0xC0 ∧ off % 8 = 0 then
    .next (s.modVf vf.toNat (fun f => { f with qrcb := Tbl.put f.qrcb ((off - 0x40) / 8) val }))
  else if off = 0x1040 then
    let area := field f.record 40 8
    let s1 := match s.vaultKey vf area with
      | some k => s.write ⟨false, vf, f.gen⟩ k [val.setWidth 8]
      | none => s
    .next (if (s.faulted vf area).isEmpty then s1
      else match val.toNat % 256 with
        | 1 => s1.after 0 (.faultActionThaw vf area)
        | 2 => s1.after 0 (.faultActionRestart vf area)
        | 3 => s1.after 0 (.faultActionAbort vf area)
        | _ => s1)
  else .next s

/-! ## Privileged words (R325) -/

/-- The answer of a privileged word: its value some cycles after issue, or an event that completes it. -/
inductive PrivAns
  | done (v : Word) (lat : Nat)
  | later

/-- A privileged word of a walker (R325, R389): it issues once every earlier word of its walker has completed, and its
walker issues nothing until it completes. -/
def privOn (w : Walker) (h : Hdr) (d a b : Name) (f : Origin → Word → Word → Op PrivAns) (s : State) :
    Host.Outcome State Fault Refusal :=
  issue w h 1 (fun o => do
    let k ← getCore o
    need ((k.w w).pend = 0)
    let x ← srcX o (xNum a)
    let y ← srcX o (xNum b)
    reserve o d
    let r ← f o x y
    modify (fun s => (s.begin o).modW o.core w (fun v => { v with blocked := true }))
    match r with
    | .done v lat => modify (fun s => s.later o.core lat (.scalarResultLands o d v))
    | .later => pure ()
    return .seq) s

/-- A privileged control word. -/
def privWord (h : Hdr) (d a b : Name) (f : Origin → Word → Word → Op PrivAns) (s : State) :
    Host.Outcome State Fault Refusal := privOn .C h d a b f s

/-- The VF a word names; a refusal where it is above 63 or not created. -/
def State.namedVf (s : State) (x : Word) : Option (BitVec 6) :=
  if x.toNat < 64 && (s.vf x.toNat).created then some (x.setWidth 6) else none

/-- Whether a VF has a gang that no freeze holds. -/
def State.hasRunning (s : State) (v : BitVec 6) : Bool := s.gangs.any (fun g => g.2.vf = v && g.2.frozen.isNone)

def State.hasGang (s : State) (v : BitVec 6) : Bool := s.gangs.any (fun g => g.2.vf = v)

/-! ## Generations (R285, R287, R326) -/

/-- The next free generation value after g. -/
def nextGen (g : Nat) (used : List Nat) : Option Nat :=
  (List.range 254).findSome? (fun k =>
    let c := (g - 1 + (k + 1)) % 255 + 1
    if used.contains c then none else some c)

/-- The VF leaves its generation: its gangs are released, its launches retire as aborted, the galleys of gangs released before send
nothing more either (R309), and its cached lines,
translations and reply-cache entries go. Entries of its rings that are not accepted stay, and what has been read for one is
read again. The answer has the most lines that a released core held. -/
def State.advanceGen (s : State) (v : BitVec 6) (c : Nat) : State × Nat :=
  let mine := (s.gangs.filter (fun g => g.2.vf = v)).map (fun g => g.1)
  let held := s.cores.foldl (fun n e => if mine.contains e.2.gang then max n e.2.held.length else n) 0
  let s1 := s.modVf v.toNat (fun f => { f with
    pend := f.pend ++ [f.gen.toNat], gen := BitVec.ofNat 8 c
    rings := f.rings.map (fun e => (e.1, e.2.map (fun (k : Kick) => { k with taken := none }))) })
  let s2 := mine.foldl State.abortGang s1
  let s3 := s2.launches.foldl (fun (t : State) e =>
    if e.2.vf = v && (e.2.order ≠ 0 || e.2.listed) && !e.2.over then t.endLaunch e.1 .aborted else t) s2
  let s3 := (s3.galleys.filter (fun e => e.2.vf = v)).foldl (fun (t : State) e => t.releaseGalley e.1 e.2) s3
  ({ s3 with
    cores := s3.cores.map (fun (e : Nat × Core) => (e.1, { e.2 with
      ocache := e.2.ocache.filter (fun l => l.vf ≠ v), tcache := e.2.tcache.filter (fun t => t.vf ≠ v) }))
    replies := s3.replies.filter (fun r => r.key.vf ≠ v)
    ops := s3.ops.filter (fun e => e.2.pkt.vf ≠ v)
    colls := s3.colls.filter (fun e => e.2.vf ≠ v)
    collWaits := s3.collWaits.filter (fun m => m.vf ≠ v), collParts := s3.collParts.filter (fun p => p.vf ≠ v) }, held)

/-- GENADV's action when a value is free: the new generation, and the cycles until the released cores' receive buffers
are empty. -/
def State.tryGen (s : State) (v : BitVec 6) : Option (State × Nat × Nat) :=
  let f := s.vf v.toNat
  (nextGen f.gen.toNat (f.pend ++ f.old)).map (fun c =>
    let r := s.advanceGen v c
    (r.1, c, r.2 + 1))

def execGenadv (h : Hdr) (d a : Name) (s : State) : Host.Outcome State Fault Refusal :=
  privWord h d a (.x 0) (fun o x _ => do
    let s ← get
    match s.namedVf x with
    | none => return .done (refusal 1) 1
    | some v =>
      if s.hasRunning v then return .done (refusal 2) 1
      else if (s.vf v.toNat).status ≠ .stopped then return .done (refusal 3) 1
      else match s.tryGen v with
        | some (t, c, n) => do
          set t
          return .done (BitVec.ofNat 64 c) n
        | none => do
          modify (fun t => { t with genWaiters := t.genWaiters ++ [(o, d, v)] })
          return .later) s

/-! ## Laps and the resurfacer (R287, R310) -/

/-- A tensor entry whose generation is not current loses it. -/
def State.staleEntryCell (s : State) (c : Host.Cell) : Bool :=
  2 ^ 56 ≤ c.1 && c.1 < 2 ^ 57 && (c.1 - 2 ^ 56) % 64 = 55 && (s.vf ((c.1 - 2 ^ 56) / 2 ^ 18)).gen ≠ c.2

/-- Stale tagged units inside a core become void. -/
def Core.voidStale (s : State) (k : Core) : Core :=
  let cur := s.tagCurrent
  let g := k.gibbs
  { k with
    sems := k.sems.filter (fun e => cur e.2.tag)
    queues := k.queues.map (fun e => (e.1, e.2.map (fun (q : QEntry) => if cur q.tag then q else { q with tag := voidTag })))
    codebooks := k.codebooks.filter (fun e => cur e.2.tag)
    counters := k.counters.filter (fun e => cur e.2.tag)
    ocache := k.ocache.filter (fun l => cur ⟨false, l.vf, l.gen⟩)
    tcache := k.tcache.filter (fun t => cur ⟨false, t.vf, t.gen⟩ || t.count ≠ 0)
    gibbs := { g with
      groups := g.groups.filter (fun e => cur e.2.tag)
      lists := g.lists.filter (fun e => cur e.2.tag)
      haloTag := if cur g.haloTag then g.haloTag else voidTag
      ctl := if cur g.ctl.tag then g.ctl else { g.ctl with tag := voidTag } } }

/-- Every stale tagged unit of the module becomes void, those that stand in the save of a displaced gang among them: what a
whole lap does. -/
def State.voidStale (s : State) : State :=
  { s with
    tags := s.tags.filter (fun e => s.tagCurrent e.2)
    mem := s.mem.filter (fun c => !(s.staleEntryCell c))
    cores := s.cores.map (fun (e : Nat × Core) => (e.1, e.2.voidStale s))
    saves := s.saves.map (fun (e : Nat × Save) => (e.1, { e.2 with image := e.2.image.voidStale s }))
    dispensers := s.dispensers.filter (fun e => s.tagCurrent e.2.tag)
    keys := s.keys.filter (fun e => s.tagCurrent e.2.tag)
    replies := s.replies.filter (fun r => s.tagCurrent r.tag) }

/-- RESURFACE_UNIT: the resurfacer meets one unit; a tag that is not current becomes void (R310). -/
def execResurfaceUnit (u : UnitRef) (s : State) : Host.Outcome State Fault Refusal :=
  let cur := s.tagCurrent
  let core := fun (c : Nat) (f : Core → Core) => s.modCore c f
  .next (match u with
    | .line key => { s with tags := s.tags.filter (fun e => e.1 ≠ unitOf key || cur e.2) }
    | .tensor v t => { s with mem := s.mem.filter (fun c => !(c.1 = keyTensor v.toNat t.toNat + 55 && s.staleEntryCell c)) }
    | .sem c n => core c (fun k => { k with sems := k.sems.filter (fun e => e.1 ≠ n.toNat || cur e.2.tag) })
    | .queueEntry c q i => core c (fun k => { k with queues := k.queues.map (fun e =>
        if e.1 = q.toNat then (e.1, e.2.zipIdx.map (fun x => if x.2 = i && !(cur x.1.tag) then { x.1 with tag := voidTag } else x.1))
        else e) })
    | .codebook c n => core c (fun k => { k with codebooks := k.codebooks.filter (fun e => e.1 ≠ n.toNat || cur e.2.tag) })
    | .counter c n => core c (fun k => { k with counters := k.counters.filter (fun e => e.1 ≠ n.toNat || cur e.2.tag) })
    | .gibbsCells c g => core c (fun k => { k with gibbs := { k.gibbs with
        groups := k.gibbs.groups.filter (fun e => e.1 ≠ g || cur e.2.tag) } })
    | .gibbsList c i => core c (fun k => { k with gibbs := { k.gibbs with
        lists := k.gibbs.lists.filter (fun e => e.1 ≠ i || cur e.2.tag) } })
    | .gibbsHalo c => core c (fun k => { k with gibbs := { k.gibbs with
        haloTag := if cur k.gibbs.haloTag then k.gibbs.haloTag else voidTag } })
    | .gibbsControl c => core c (fun k => { k with gibbs := { k.gibbs with
        ctl := if cur k.gibbs.ctl.tag then k.gibbs.ctl else { k.gibbs.ctl with tag := voidTag } } })
    | .cacheLine c key => core c (fun k => { k with ocache := k.ocache.filter (fun l => l.key ≠ key || cur ⟨false, l.vf, l.gen⟩) })
    | .translation c page => core c (fun k => { k with
        tcache := k.tcache.filter (fun t => t.page ≠ page || t.count ≠ 0 || cur ⟨false, t.vf, t.gen⟩) })
    | .dispenser v n => { s with dispensers := s.dispensers.filter (fun e => e.1 ≠ dispenserKey v n || cur e.2.tag) }
    | .reply i => { s with replies := (s.replies.zipIdx.filter (fun r => r.2 ≠ i || cur r.1.tag)).map (fun r => r.1) }
    | .macCell _ _ _ => s
    | .keySlot v n => { s with keys := s.keys.filter (fun e => e.1 ≠ v.toNat * 256 + n.toNat || cur e.2.tag) })

/-- Words that sleep until a lap end: a GENADV that finds a value goes on (R326), a LAPW completes (R330). -/
def State.wakeLap (s : State) : State :=
  let s1 := s.genWaiters.foldl (fun (t : State) w => match t.tryGen w.2.2 with
    | some (u, c, n) => u.later w.1.core n (.scalarResultLands w.1 w.2.1 (BitVec.ofNat 64 c))
    | none => { t with genWaiters := t.genWaiters ++ [w] }) { s with genWaiters := [] }
  s1.lapWaiters.foldl (fun (t : State) w => t.privDone w.1 w.2 (BitVec.ofNat 64 s.laps)) { s1 with lapWaiters := [] }

/-- The length of the lap that begins, in walker cycles: at most 1 ms (R287) and never below 128 µs (R358). -/
def State.lapCycles (s : State) : Nat := max 345600 (min 2700000 (Config.lapLength s.laps))

/-- LAP_END: the lap that ends has made every stale unit void; the sets move in every VF, and the next lap begins
(R287). -/
def execLapEnd (s : State) : Host.Outcome State Fault Refusal :=
  let s1 := s.voidStale
  let s2 : State := { s1 with
    laps := s.laps + 1
    vfs := s1.vfs.map (fun (e : Nat × Vf) => (e.1, { e.2 with old := e.2.pend, pend := [] })) }
  .next (s2.wakeLap.after s2.lapCycles .lapEnd)

def execLapw (h : Hdr) (d : Name) (s : State) : Host.Outcome State Fault Refusal :=
  privWord h d (.x 0) (.x 0) (fun o _ _ => do
    modify (fun t => { t with lapWaiters := t.lapWaiters ++ [(o, d)] })
    return .later) s

/-! ## PSET (R306, R311, R312, R327) -/

/-- STATE is written into the status word, with the generation then current; where the word changes the host is told (R311,
R395). -/
def State.setStatus (s : State) (v : BitVec 6) (st : VfState) : State :=
  let f := s.vf v.toNat
  if f.status = st && f.statusGen = f.gen then s
  else (s.modVf v.toNat (fun f => { f with status := st, statusGen := f.gen })).send (.msix (some v) 1)

/-- Bytes at a management-memory address of Proof's context, 64-byte aligned. -/
def State.mgmtRecord (s : State) (a n : Nat) : Option (List Byte) :=
  if a % 64 = 0 && 0x80000 ≤ a && a + n ≤ 0x100000 then some (memRead s.mem (keyMgmt 0 (a - 0x80000)) n) else none

/-- The checks of R306 on a partition record. -/
def State.recordOk (s : State) (v : Nat) (r : List Byte) : Bool :=
  let cores := field r 256 32
  let mapped := field r 576 32
  let vmap := fun i : Nat => field r (288 + i) 1
  let slots := (List.range 256).filter (bitOf mapped)
  let base := field r 544 8
  let size := field r 552 2 * 2 ^ 20
  s.vfs.all (fun e => e.1 = v || !e.2.created || s.vfCores e.1 &&& cores = 0)
  && slots.all (fun i => bitOf cores (vmap i)) && (slots.map vmap).Nodup
  && ((List.range 256).filter (fun i => !(bitOf mapped i))).all (fun i => vmap i = 0)
  && base % 2 ^ 20 = 0 && (size = 0 || (base / 2 ^ 27 = (base + size - 1) / 2 ^ 27 && slots.contains (base / 2 ^ 27)))
  && rcbReserved (r.take 256) && field r 554 6 = 0 && field r 572 4 = 0 && field r 608 416 = 0
  && field r 560 8 % 2 ^ 21 = 0 && field r 560 8 < 2 ^ 52 && field r 568 4 ≤ 2 ^ 25

def execPsetMap (h : Hdr) (d a b : Name) (s : State) : Host.Outcome State Fault Refusal :=
  privWord h d a b (fun _ x y => do
    let s ← get
    if 64 ≤ x.toNat then return .done (refusal 1) 1
    else
      let v : BitVec 6 := x.setWidth 6
      let f := s.vf v.toNat
      if f.created && s.hasRunning v then return .done (refusal 2) 1
      else if f.created && f.status ≠ .stopped then return .done (refusal 3) 1
      else if s.hasGang v then return .done (refusal 4) 1
      else match s.mgmtRecord y.toNat 1024 with
        | none => return .done (refusal 5) 1
        | some r =>
          if !(s.recordOk v.toNat r) then return .done (refusal 5) 1
          else do
            modify (fun t => if f.created then t.modVf v.toNat (fun f => { f with record := r })
              else (t.modVf v.toNat (fun _ =>
                { Vf.reset with created := true, record := r, status := .stopped, statusGen := 1 })).send (.msix (some v) 1))
            return .done 0 1) s

/-- The writes that a stop waits for: the VF's lines on their way to the pool or the host (R312). -/
def State.writesOut (s : State) (v : BitVec 6) : Bool :=
  s.coalescer.any (fun e => e.2.vf = v) || s.galleys.any (fun e => e.2.vf = v && e.2.flight.any (fun p => isVirt p.dst))

/-- The dirty-page report, and the dirty bits cleared (R312). -/
def State.dirtyReport (s : State) (v : BitVec 6) : List Byte × State :=
  let f := s.vf v.toNat
  let n := ceilDiv (field f.record 568 4) 8
  ((List.range n).map (fun i => BitVec.ofNat 8 ((List.range 8).foldl (fun a j =>
    if f.dirty.contains (8 * i + j) then a + 2 ^ j else a) 0)),
   s.modVf v.toNat (fun f => { f with dirty := [] }))

/-- A stop goes on: once the VF's writes are out the report is written, and the host acknowledges it. -/
def State.stopGo (s : State) (o : Origin) (v : BitVec 6) (report : Nat) (d : Name) : State :=
  if s.writesOut v then s.after 1 (.releaseTakesEffect o .sys o.age (.stop v report d))
  else
    let r := s.dirtyReport v
    let s1 : State := { r.2 with mem := memWrite r.2.mem (keyHost report) r.1 }
    let s2 := (splitAt 64 (r.1.length / 64 + 2) 0 r.1.length).foldl (fun (t : State) p =>
      t.send (.hostLine (keyHost (report + p.1)) ((r.1.drop p.1).take p.2))) s1
    s2.after (1 + Config.deviceDelay s.now) (.releaseTakesEffect o .sys o.age (.stopped v d))

/-- The end of a stop. -/
def State.stopEnd (s : State) (o : Origin) (v : BitVec 6) (d : Name) : State :=
  ((s.setStatus v .stopped).modVf v.toNat (fun f => { f with stops := satAdd 32 f.stops 1 })).privDone o d 0

def execPsetStop (h : Hdr) (d a b : Name) (s : State) : Host.Outcome State Fault Refusal :=
  privWord h d a b (fun o x y => do
    let s ← get
    match s.namedVf x with
    | none => return .done (refusal 1) 1
    | some v =>
      if s.hasRunning v then return .done (refusal 2) 1
      else if y.toNat % 64 ≠ 0 || 2 ^ 52 ≤ y.toNat then return .done (refusal 5) 1
      else do
        modify (fun t => (t.setStatus v .stopping).after 1 (.releaseTakesEffect o .sys o.age (.stop v y.toNat d)))
        return .later) s

def execPsetRun (h : Hdr) (d a : Name) (s : State) : Host.Outcome State Fault Refusal :=
  privWord h d a (.x 0) (fun _ x _ => do
    let s ← get
    match s.namedVf x with
    | none => return .done (refusal 1) 1
    | some v => do
      let held := (s.vf v.toNat).heldHost
      let s1 := (s.setStatus v .running).modVf v.toNat (fun f => { f with heldHost := [] })
      set (held.foldl (fun (t : State) e => t.hostAccess v e.1 e.2.1 e.2.2) s1)
      return .done 0 1) s

/-! ## FRZ and THAW (R328) -/

/-- The gang of a VF that holds a core: the one that stands in it, else one that left it. -/
def State.gangHolding (s : State) (v : BitVec 6) (c : Nat) : Option (Nat × Gang) :=
  match s.gangs.find? (fun g => g.2.vf = v && g.2.cores.contains c && (s.core c).gang = g.1) with
  | some g => some g
  | none => s.gangs.find? (fun g => g.2.vf = v && g.2.cores.contains c)

def execFrz (h : Hdr) (d a b : Name) (s : State) : Host.Outcome State Fault Refusal :=
  privWord h d a b (fun o x y => do
    let s ← get
    match s.namedVf x with
    | none => return .done (refusal 1) 1
    | some v => match s.gangHolding v y.toNat with
      | none => return .done (refusal 6) 1
      | some (g, gv) => match gv.frozen with
        | some .trap => return .done 0 1
        | some _ => return .done (refusal 7) 1
        | none =>
          if s.freeSlots v < gv.cores.length then return .done (refusal 8) 1
          else do
            modify (fun t => t.after (uncore * 16 + 1) (.freezeGate g .owner o d))
            return .later) s

def execThaw (h : Hdr) (d a b : Name) (s : State) : Host.Outcome State Fault Refusal :=
  privWord h d a b (fun o x y => do
    let s ← get
    match s.namedVf x with
    | none => return .done (refusal 1) 1
    | some v =>
      if (s.vf v.toNat).status = .stopped then return .done (refusal 3) 1
      else match s.gangHolding v y.toNat with
        | none => return .done (refusal 6) 1
        | some (g, gv) =>
          if gv.frozen.isNone then return .done (refusal 7) 1
          else if !(gv.cores.all (s.coreFreeFor g)) then return .done (refusal 9) 1
          else do
            need (gv.saved && gv.records.isEmpty)
            modify (fun t =>
              let t1 := if gv.frozen = some .trap then t.clearArea v gv.area
                else t.modGang g (fun w => { w with frozen := some .owner })
              (t1.modGang g (fun w => { w with thaw := w.thaw ++ [(o, d)] })).after 1 (.gangResume g))
            return .later) s

/-! ## Keys and policy (R329, R330) -/

def execKeyld (h : Hdr) (d a b : Name) (s : State) : Host.Outcome State Fault Refusal :=
  privWord h d a b (fun _ x y => do
    let s ← get
    match s.namedVf x with
    | none => return .done (refusal 1) 1
    | some v => match s.mgmtRecord y.toNat 64 with
      | none => return .done (refusal 5) 1
      | some r =>
        if 1 < field r 41 1 || 63 < field r 42 2 || field r 44 20 ≠ 0 then return .done (refusal 5) 1
        else match keyUnwrap Config.wrappingKey (r.take 40) with
          | none => return .done (refusal 0x0A) 1
          | some key => do
            let slot : KeySlot := ⟨⟨false, v, s.gen v⟩, key, field r 41 1 = 1, field r 42 2⟩
            modify (fun t => { t with keys := Tbl.put t.keys (v.toNat * 256 + field r 40 1) slot })
            return .done 0 1) s

def execKeyerase (h : Hdr) (all : Bool) (d a b : Name) (s : State) : Host.Outcome State Fault Refusal :=
  privWord h d a b (fun _ x y => do
    let s ← get
    match s.namedVf x with
    | none => return .done (refusal 1) 1
    | some v =>
      if !all && 256 ≤ y.toNat then return .done (refusal 5) 1
      else do
        modify (fun t => { t with keys := t.keys.filter (fun e =>
          !(e.1 / 256 = v.toNat && (all || e.1 % 256 = y.toNat))) })
        return .done 0 1) s

def execPolset (h : Hdr) (d a b : Name) (s : State) : Host.Outcome State Fault Refusal :=
  privWord h d a b (fun _ x y => do
    let s ← get
    match s.namedVf x with
    | none => return .done (refusal 1) 1
    | some v =>
      if 4 ≤ y.toNat then return .done (refusal 5) 1
      else do
        modify (fun t => t.modVf v.toNat (fun f => { f with policy := y.setWidth 2 }))
        return .done 0 1) s

/-! ## Coarsened counters (R341) -/

/-- The largest power of two not above a value. -/
def coarsen (n : Nat) : Nat := if n = 0 then 0 else 2 ^ Nat.log2 n

/-- The counters of a VF that Press sees coarsened: those of its record, then its traffic and its power (log entry 39). -/
def State.coarseOf (s : State) (v : Nat) : List Nat :=
  let t := Config.telemetry v s.now
  ((List.range 4).map (s.windowCounter false v) ++ [t.1, t.2]).map coarsen

/-- COARSENED_COUNTER_SAMPLE: in the first cycle of each 100 ms window every counter is sampled and held, those of the cores'
banks among them (R28). -/
def execCoarsenedCounterSample (s : State) : Host.Outcome State Fault Refusal :=
  let held : State := { s with
    vfs := s.vfs.map (fun (e : Nat × Vf) => (e.1, { e.2 with
      coarse := (s.coarseOf e.1).zipIdx.map (fun (x : Nat × Nat) => (x.2, x.1)) }))
    coarseBanks := (s.cores.filter (fun (e : Nat × Core) => e.1 < 256)).map (fun (e : Nat × Core) =>
      (e.1, (List.range 32).map (fun b => coarsen (Tbl.get e.2.bankLoss b 0)))) }
  .next (held.after
    (270000000 - s.now % 270000000) .coarsenedCounterSample)

end Sys2Proof.Machine
end

