-- ==== Sys2Proof/Machine/Routing.lean ====
section
/-! DEFINITION. The privileged fabric words: FROUT, FPLOW and FLNK (R363, R365, R367, R389 to R392). -/

namespace Sys2Proof.Machine

/-! ## FROUT (R390) -/

def State.table (s : State) (v : Bool) : RouteTbl := if v then s.route1 else s.route0

def State.setTable (s : State) (v : Bool) (t : RouteTbl) : State := if v then { s with route1 := t } else { s with route0 := t }

/-- A table image as a routing table; none when it is malformed. Entries for the own group and member are ignored. -/
def State.tableOf (s : State) (b : List Byte) : Option RouteTbl :=
  let h := field b 0 8
  let g := (List.range 128).filter (· ≠ groupOf s.moduleId)
  let m := (List.range 32).filter (· ≠ memberOf s.moduleId)
  let mask := fun i : Nat => field b (0x40 + 8 * i) 8
  let port := fun i : Nat => field b (0x440 + i) 1
  if 1 ≤ h && h ≤ 8 && field b 0x460 0xBA0 = 0 && g.all (fun i => popCount (mask i) 64 ≤ 16)
      && m.all (fun i => port i < 96 || port i = 0xFF) then
    some { loaded := true, used := false, hops := h, gmask := g.map (fun i => (i, BitVec.ofNat 64 (mask i)))
           mport := m.map (fun i => (i, BitVec.ofNat 8 (port i))) }
  else none

/-- Whether packets of a version stand on the module: received in part, waiting to be sent, or begun. -/
def State.holdsVersion (s : State) (v : Bool) : Bool :=
  s.fports.any (fun e => e.2.queue.any (fun q => q.2.any (fun x => x.2.2.rv = v)) || e.2.rest.any (fun f => f.1 = v)
    || e.2.partials.any (fun x => bitOf (field x.1 1 1) 0 = v))

/-- Whether a version injects or still holds packets: it has been in force here and is not ploughed out, or packets of it stand on
the module (R390). -/
def State.versionBusy (s : State) (v : Bool) : Bool :=
  (s.table v).loaded && (s.rv = v || (s.table v).used || s.holdsVersion v)

def execFroutLd (h : Hdr) (d a b : Name) (s : State) : Host.Outcome State Fault Refusal :=
  privOn .F h d a b (fun o x y => do
    let s ← get
    let off := y.toNat
    if 2 ≤ x.toNat || 0x40000 < off + 4096 then return .done (refusal 5) 1
    else do
      need (s.full o.core off 4096 && !(s.hits o.core (keyRS o.core off) 4096))
      claimBanks o (banksOf off 4096)
      let v := decide (x.toNat = 1)
      if s.versionBusy v then return .done (refusal 0x0D) 1
      else match s.tableOf (s.read (s.ownTag o.core) (keyRS o.core off) 4096) with
        | none => return .done (refusal 5) 1
        | some t => do
          modify (fun s => s.setTable v t)
          return .done 0 1) s

/-- A version that has been in force holds packets until it is ploughed out. -/
def State.useTable (s : State) (v : Bool) : State := s.setTable v { s.table v with used := true }

/-- FROUT: the version of packets injected from the next cycle on. -/
def execFrout (h : Hdr) (d a : Name) (s : State) : Host.Outcome State Fault Refusal :=
  privOn .F h d a (.x 0) (fun o x _ => do
    let s ← get
    if 2 ≤ x.toNat then return .done (refusal 5) 1
    else
      let v := decide (x.toNat = 1)
      if !(s.table v).loaded then return .done (refusal 0x0B) 1
      else do
        modify (fun s => (s.useTable s.rv).useTable v)
        modifyCore o (fun k => { k with latches := k.latches ++ [.version v] })
        return .done 0 1) s

/-! ## FPLOW (R365, R391) -/

/-- The VCs that a round ploughs. -/
def roundVcs : List Nat := [0, 1, 3]

def execFplow (h : Hdr) (d a b : Name) (s : State) : Host.Outcome State Fault Refusal :=
  privOn .F h d a b (fun o x y => do
    let s ← get
    let v := decide (x.toNat = 1)
    let r := y.toNat
    if 2 ≤ x.toNat then return .done (refusal 5) 1
    else if !(s.table v).loaded then return .done (refusal 0x0B) 1
    else if s.rv = v then return .done (refusal 0x0D) 1
    else if r = 0 || (s.table v).hops < r then return .done (refusal 5) 1
    else do
      let ports := allPorts.filter (fun p => s.portExists p && (s.port p).st = .active)
      let s1 : State := { s with
        ploughRound := r, ploughVersion := v, roundsEnded := if s.ploughVersion = v then s.roundsEnded else 0
        ploughOut := ports.flatMap (fun p => roundVcs.map (fun c => (p, c))) }
      let s2 := (ports.foldl (fun (t : State) p => t.plough p roundVcs v r) s1).pumpAll
      if ports.isEmpty then do
        set { s2 with roundsEnded := r }
        return .done 0 1
      else do
        set { s2 with ploughWait := some (o, d) }
        return .later) s

def execFplowFree (h : Hdr) (d a b : Name) (s : State) : Host.Outcome State Fault Refusal :=
  privOn .F h d a b (fun _ x _ => do
    let s ← get
    let v := decide (x.toNat = 1)
    if 2 ≤ x.toNat then return .done (refusal 5) 1
    else if !(s.table v).loaded then return .done (refusal 0x0B) 1
    else if s.rv = v || s.ploughVersion ≠ v || s.roundsEnded ≠ (s.table v).hops then return .done (refusal 0x0D) 1
    else do
      modify (fun s => { s.setTable v RouteTbl.reset with roundsEnded := 0, ploughRound := 0 })
      return .done 0 1) s

/-! ## FLNK (R367, R392) -/

/-- A word that drives a port: the port exists, and its state is one that the command needs. -/
def linkWord (h : Hdr) (d a b : Name) (needs : Nat → FPort → Bool) (f : Origin → Nat → Op PrivAns) (s : State) :
    Host.Outcome State Fault Refusal :=
  privOn .F h d a b (fun o x _ => do
    let s ← get
    if !(s.portExists x.toNat) then return .done (refusal 5) 1
    else if !(needs x.toNat (s.port x.toNat)) then return .done (refusal 0x0C) 1
    else f o x.toNat) s

/-- The port takes a state, and the word waits for what follows. -/
def driveTo (o : Origin) (d : Name) (p : Nat) (st : PortState) (f : FPort → FPort) : Op PrivAns := do
  modify (fun s => (s.modPort p (fun t => { t with waiter := some (o, d) })).setPortState p st f)
  return .later

/-- FLNK with command 0; a value that is no command is refused. -/
def execFlnkDown (h : Hdr) (d a b : Name) (s : State) : Host.Outcome State Fault Refusal :=
  privOn .F h d a b (fun _ x y => do
    let s ← get
    if !(s.portExists x.toNat) || y.toNat ≠ 0 then return .done (refusal 5) 1
    else do
      set (s.portDown x.toNat 4).pumpAll
      return .done 0 1) s

def execFlnkTrain (h : Hdr) (d a b : Name) (s : State) : Host.Outcome State Fault Refusal :=
  linkWord h d a b (fun _ t => t.st = .down) (fun o p => driveTo o d p .training (startTraining p)) s

def execFlnkDrain (h : Hdr) (d a b : Name) (s : State) : Host.Outcome State Fault Refusal :=
  linkWord h d a b (fun p t => t.st = .active && isGlobal p) (fun o p => do
    let r ← driveTo o d p .draining id
    modify (fun s => ((s.modPort p (fun t => { t with ploughed := [0, 1, 2, 3] })).plough p [0, 1, 2, 3] s.rv 0).pumpAll)
    return r) s

def execFlnkRelock (h : Hdr) (d a b : Name) (s : State) : Host.Outcome State Fault Refusal :=
  linkWord h d a b (fun _ t => t.st = .dark && t.newCircuit) (fun o p => driveTo o d p .relock id) s

/-- The port word. -/
def FPort.word (t : FPort) : Word :=
  BitVec.ofNat 64 (portStateCode t.st + t.mask.toNat * 2 ^ 8 + t.width * 2 ^ 24 + t.err * 2 ^ 32 + t.late * 2 ^ 48)

def execFlnkQuery (h : Hdr) (d a b : Name) (s : State) : Host.Outcome State Fault Refusal :=
  linkWord h d a b (fun _ _ => true) (fun _ p => do
    let s ← get
    return .done (s.port p).word 1) s

end Sys2Proof.Machine
end

