-- ==== Sys2Proof/Machine/Events.lean ====
section
/-! DEFINITION. Steps that dispatch to several chapters: queue entries, port prefetch, bank arbitration, releases, the
start and the lines of galleys, and the answers to fabric operations (R27, R30, R128, R221 to R223, R236, R358 to R361). -/

namespace Sys2Proof.Machine

/-! ## Queues, ports and banks -/

/-- QUEUE_ENTRY_ARRIVES: an entry reaches the receive queue of a neighbour; one whose kernel has ended is discarded
(R30, R295). -/
def execQueueEntryArrives (core : Nat) (q : BitVec 5) (age : Nat) (val : Word) (tag : Tag) (s : State) :
    Host.Outcome State Fault Refusal :=
  .next (s.fillPlace core q.toNat age tag val)

/-- Blocks of a nest that a port fetches next: those at its position and one after, not yet fetched. -/
def State.toFetch (s : State) (c : Nat) (t : PortSt) : Option Nat :=
  [t.pos, t.pos + 1].find? (fun i => !(t.fetched.any (fun e => e.1 = i))
    && (bitOf (field t.desc 9 1) 1 || i < portTotal t.desc) && (portRows s c t.desc i).isSome)

/-- PORT_PREFETCH: a vault block has been fetched as it stands (R128). -/
def execPortPrefetch (core : Nat) (p : BitVec 4) (s : State) : Host.Outcome State Fault Refusal :=
  match Tbl.find (s.core core).ports p.toNat with
  | none => .next s
  | some t => match t.fetching with
    | [] => .next s
    | i :: _ =>
      let got := if t.fetched.any (fun e => e.1 = i) then t.fetched
        else match portRows s core t.desc i with
          | some rows => t.fetched ++ [(i, portVaultBlock s core t.desc rows)]
          | none => t.fetched
      let t1 := { t with fetched := got, fetching := [] }
      let more := s.toFetch core t1
      let s1 := s.modCore core (fun k => Core.retry { k with ports := Tbl.put k.ports p.toNat { t1 with fetching := more.toList } })
      .next (if more.isSome then s1.later core 20 (.portPrefetch core p) else s1)

/-- Requests in order of age. -/
def insertReq (r : BankReq) : List BankReq → List BankReq
  | [] => [r]
  | q :: qs => if r.age < q.age then r :: q :: qs else q :: insertReq r qs

/-- A request of an age in its turn: that of a word on a tile is tried as the word (R140), and whether it is to be made
again. -/
def State.arbitrate (s : State) (core : Nat) (q : BankReq) : State × Bool :=
  match (s.core core).matq.find? (fun e => e.o.age = q.age) with
  | some e =>
    let t := s.matTry core e
    (t, (t.core core).matq.any (fun e => e.o.age = q.age))
  | none =>
    let g := s.grant core q.age q.banks
    (g.2, !g.1)

/-- BANK_ARBITRATION: the oldest request goes first; one that does not win all its banks takes none, each bank it lost
counts, and it is replayed in the next cycle (R26 to R28). -/
def execBankArbitration (core : Nat) (reqs : List BankReq) (s : State) : Host.Outcome State Fault Refusal :=
  let r := (reqs.foldl (fun a q => insertReq q a) []).foldl (fun (a : State × List BankReq) q =>
    let g := a.1.arbitrate core q
    (g.1, if g.2 then a.2 ++ [q] else a.2)) (s, [])
  .next (if r.2.isEmpty then r.1 else r.1.later core 1 (.bankArbitration core r.2))

/-! ## Releases (R221 to R223) -/

/-- An FGRP or FBAR that waits at its core goes on with what it has been sent. -/
def State.groupHears (s : State) (o : Origin) : State :=
  match s.colls.find? (fun e => e.2.core = o.core && e.2.galley.isNone && e.2.o = o) with
  | some e => s.collGo e.1
  | none => s

/-- RELEASE_TAKES_EFFECT: once every operation before it has performed at its scope, what waits on it happens. -/
def execReleaseTakesEffect (o : Origin) (sc : Scope) (age : Nat) (work : RelWork) (s : State) :
    Host.Outcome State Fault Refusal :=
  let c := o.core
  let again := s.later c 1 (.releaseTakesEffect o sc age work)
  let retry := s.after 1 (.releaseTakesEffect o sc age work)
  .next (match work with
    | .fence => if s.relHolds c age sc none then (s.unblock o).finish o else again
    | .ffence => if s.relHolds c age sc none && s.fabricOpen c (s.core c).gang (some age) = 0 then s.doneF o else again
    | .launch a patch q d => if s.relHolds c age sc none then s.handOver o a patch q d else again
    | .fbar g => if s.relHolds c age sc none then s.fbarBegin o g else again
    | .heard => s.groupHears o
    | .galley id => match Tbl.find s.galleys id with
      | none => s
      | some g => if s.relHoldsAt (s.home g.gang c) c age sc (some id) then s.modGalley id (fun g => { g with rel := none }) else retry
    | .advance gang n vf gen =>
      if (if (s.gang gang).isNone then !(s.linesHold c age sc) else s.relHoldsAt (s.home gang c) c age sc none) then
        s.after 4 (.dispenserAdvance c ⟨false, vf, gen⟩ n)
      else retry
    | .stop v report d => s.stopGo o v report d
    | .stopped v d => s.stopEnd o v d)

/-! ## Galleys (R236) -/

/-- GALLEY_START. -/
def execGalleyStart (id : Nat) (s : State) : Host.Outcome State Fault Refusal :=
  match Tbl.find s.galleys id with
  | none => .next s
  | some g =>
    let again := s.after 1 (.galleyStart id)
    .next (if g.started then s
      else if !(s.mayStart g) then again
      else match g.job with
        | .gxch => s.after 0 (.gxchPublish id)
        | .put _ _ _ _ => s.startPut id
        | .coll _ _ _ => (s.collStart id g).getD again
        | _ => s.tryCopy id g)

/-- GALLEY_LINE_WRITE. -/
def execGalleyLineWrite (id : Nat) (s : State) : Host.Outcome State Fault Refusal :=
  match Tbl.find s.galleys id with
  | none => .next s
  | some g => match g.job with
    | .put _ _ _ _ => .next (putGo id g s)
    | .coll _ _ _ => .next (match s.collOf id with
      | some e => s.collGo e.1
      | none => s)
    | _ => moveLine id s

/-! ## Answers to fabric operations (R358 to R361) -/

/-- An operation is complete with a status: its counter counts, and its word is complete; a core that is frozen sees it
in its first cycle after the freeze (R316, R317). -/
def State.opDone (s : State) (key : Nat) (f : FabOp) (status : Byte) (value : Word) : State :=
  let s1 : State := { s with
    ops := Tbl.del s.ops key, rackTo := if f.pkt.op = .put then s.rackTo else Tbl.put s.rackTo key f.pkt }
  let lands := fun (t : State) (i : Instr) => t.modHome f.gang f.core (fun k => { k with agenda := addDue k.time i k.agenda })
  match f.what with
  | .galley id => (s1.modGalley id (fun g => { g with waitAck := g.waitAck - 1, code := firstCode g.code status })).after 0 (.galleyRetire id)
  | .atom o d => lands (s1.countHome f.gang f.core 15 status) (.atomicResultLands o d (if status = 0 then value else 0))
  | .pull o n => lands (s1.countHome f.gang f.core n status) (.scalarResultLands o (.x 0) 0)
  | .coll m => s1.collAnswer m status

/-- The answer RACK to a response of an operation other than a PUT that has reached its source (R360). -/
def State.rackFor (s : State) (p : Packet) (r : Response) : State :=
  if p.op = .put || r.status = 2 || p.vf ≠ r.vf || p.gen ≠ r.gen then s
  else s.sendResp { r with kind := .rack, status := 0, dstMod := p.dstMod, dstCore := p.srcCore, value := 0 }

/-- RESPONSE_ARRIVE: a RACK frees a reply-cache entry; another answer completes its operation, unless its generation is
stale here. An answer to an operation that is complete already only sends RACK. A PUT that was reissued counts only at the
end of its lifetime. -/
def execResponseArrive (r : Response) (s : State) : Host.Outcome State Fault Refusal :=
  .next (match r.kind with
    | .none | .busy => s
    | .rack => match s.replies.find? (fun x => x.key.srcCore = r.dstCore && x.key.tag = r.tag && x.key.vf = r.vf && x.key.gen = r.gen && !x.rack) with
      | some x => s.after 0 (.rackArrive x.key)
      | none => s
    | _ =>
      let key := opKey r.dstCore.toNat r.tag
      match Tbl.find s.ops key with
      | none => match Tbl.find s.rackTo key with
        | some p => if s.gen r.vf ≠ r.gen then s else s.rackFor p r
        | none => s
      | some f =>
        if f.pkt.vf ≠ r.vf || f.pkt.gen ≠ r.gen || s.gen r.vf ≠ r.gen then s
        else
          let s1 := if r.status = 2 then s.opEvent 6 r.vf else s
          let s2 := s1.rackFor f.pkt r
          if f.pkt.op = .put && f.tries ≠ 0 && r.status ≠ 2 then
            { s2 with ops := Tbl.put s2.ops key { f with acked := f.acked.or (some r.status) } }
          else s2.opDone key f r.status r.value)

/-- REISSUE: an operation that is not answered is sent again 16, 32 and 48 µs after its STAMP. -/
def execReissue (core : Nat) (tag : BitVec 16) (s : State) : Host.Outcome State Fault Refusal :=
  let key := opKey core tag
  .next (match Tbl.find s.ops key with
    | none => s
    | some f =>
      if f.acked.isSome || 3 ≤ f.tries then s
      else if !(s.aged f.pkt.stamp (16 * (f.tries + 1))) then
        s.after (max 1 (s.untilAge f.pkt.stamp (16 * (f.tries + 1)))) (.reissue core tag)
      else
        let g := { f with tries := f.tries + 1, pkt := { f.pkt with reissue := true } }
        let t := { s with ops := Tbl.put s.ops key g }.sendOut g
        if g.tries < 3 then t.after (s.untilAge f.pkt.stamp (16 * (g.tries + 1))) (.reissue core tag) else t)

/-- TIMEOUT: 64 µs after its STAMP an operation is complete, with the answer that has come, or with TIMEOUT. -/
def execTimeout (core : Nat) (tag : BitVec 16) (s : State) : Host.Outcome State Fault Refusal :=
  let key := opKey core tag
  .next (match Tbl.find s.ops key with
    | none => s
    | some f =>
      if !(s.aged f.pkt.stamp 64) then s.after (max 1 (s.untilAge f.pkt.stamp 64)) (.timeout core tag)
      else match f.acked with
        | some st => s.opDone key f st 0
        | none => (s.opEvent 5 f.pkt.vf).opDone key f 5 0)

end Sys2Proof.Machine
end

