-- ==== Sys2Proof/Machine/Platform.lean ====
section
/-! DEFINITION. The module and the world around it: bring-up, the management mailbox, attestation, the sensors, pool
ports, and emergencies of power and heat (R332, R339, R340, R398 to R404), and what the host reads in its registers (R297, R311,
R395, R401). -/

namespace Sys2Proof.Machine

/-! ## Pool ports (R398) -/

/-- A line on its way from the pool by a port. -/
def Piece.byPort (port : Nat) (p : Piece) : Bool :=
  match p.src with
  | .pooled ps _ _ => ps.contains port
  | _ => false

/-- It completes at once, poisoned. -/
def Piece.lose (port now : Nat) (p : Piece) : Piece :=
  if p.byPort port then { p with src := .data (zeros p.src.len) true, due := now } else p

/-- POOL_PORT_DOWN: the lines outstanding on the port and those of the write coalescer for it complete, at a port that is down
already those that have come for it since; the VFs that had some receive an ERROR record, their gangs that used the port freeze
(R322), and Press's log names the port and the pages (R342; log entry 36). -/
def execPoolPortDown (port : BitVec 4) (s : State) : Host.Outcome State Fault Refusal :=
  let p := port.toNat
  let reads := s.galleys.filter (fun e => e.2.flight.any (Piece.byPort p))
  let lines := s.coalescer.filter (fun e => !e.2.host && s.poolPort e.2.key = p)
  let vfs := (reads.map (fun e => e.2.vf) ++ lines.map (fun e => e.2.vf)).eraseDups
  let gangs := (reads.map (fun e => e.2.gang) ++ lines.flatMap (fun e => e.2.owners.map (fun w => w.2.2))).eraseDups
  let s1 : State := { s with
    poolDown := if s.poolDown.contains p then s.poolDown else p :: s.poolDown
    galleys := s.galleys.map (fun (e : Nat × Galley) => (e.1, { e.2 with flight := e.2.flight.map (Piece.lose p s.now) })) }
  let s2 := reads.foldl (fun (t : State) e => t.after 0 (.galleyLineWrite e.1)) s1
  let s3 := lines.foldl (fun (t : State) e => t.loseLine e.1 e.2) s2
  let pages : List (BitVec 6 × Nat) := reads.flatMap (fun (e : Nat × Galley) =>
      ((s.core e.2.core).tcache.filter (fun (t : TEnt) => t.space = 1 && e.2.pages.contains t.id)).map
        (fun (t : TEnt) => (e.2.vf, t.page / 2 ^ 21))) ++
    lines.map (fun (e : Nat × CoalLine) => (e.2.vf, e.2.va / 2 ^ 21))
  let s4 := pages.eraseDups.foldl (fun (t : State) e => t.send (.pressLog (errorEntry e.1 (s.gen e.1) p e.2 s.now))) s3
  .next (vfs.foldl (fun (t : State) v => t.errorRecord v 6 gangs) s4)

/-- POOL_PORT_RETRAIN. -/
def execPoolPortRetrain (port : BitVec 4) (s : State) : Host.Outcome State Fault Refusal :=
  .next { s with poolDown := s.poolDown.filter (· ≠ port.toNat) }

/-! ## Heat and power (R305, R403, R404) -/

/-- Every island of the module takes its level anew, in this cycle. -/
def State.allIslands (s : State) : State := s.setIslands (List.range 256)

def execThermalEmergency (s : State) : Host.Outcome State Fault Refusal :=
  .next (State.allIslands { s with forcedHot := true })

def execThermalEmergencyEnd (s : State) : Host.Outcome State Fault Refusal :=
  .next (State.allIslands { s with forcedHot := false })

def execSupplyEmergency (level : BitVec 4) (s : State) : Host.Outcome State Fault Refusal :=
  .next (State.allIslands { s with supply := level })

/-! ## Bring-up (R399, R400) -/

/-- A phase begins, and vector 0 of the PF fires. -/
def State.enterPhase (s : State) (p : BitVec 4) : State := ({ s with phase := p }).send (.msix none 0)

/-- A firmware image is placed at the start of a management core's register space, and its control walker starts at
word 0 (log entry 8). -/
def State.startFirmware (s : State) (image : List Byte) (c : Nat) : State :=
  let s1 := s.setCore c { coreDefault c with
    live := true, words := image.length / 6, time := (s.core c).time, wC := { WalkerSt.start with st := .running } }
  s1.write (s1.ownTag c) (keyRS c 0) image

/-- What a module does no more once its cores have stopped: galleys that have not begun, and what follows a word of a core. -/
def stoppedOut : Instr → Bool
  | .galleyStart _ => true
  | .releaseTakesEffect _ _ _ _ => true
  | .dispenserAdvance _ _ _ => true
  | .gxchPublish _ => true
  | .collArrive _ => true
  | .reissue _ _ => true
  | _ => false

/-- Cores stop, and no save is written: no gang, launch or group word is left, and nothing of theirs goes on but what has left a
core (R339, R399). -/
def State.stopCores (s : State) (which : Nat → Bool) : State :=
  { s with
    cores := s.cores.map (fun (e : Nat × Core) => if which e.1 then
      (e.1, { e.2 with live := false, frozen := none, agenda := [], latches := [] }) else e)
    galleys := s.galleys.map (fun (e : Nat × Galley) => match e.2.job with
      | .put _ _ _ _ => (e.1, { e.2 with plan := [] })
      | _ => e)
    agenda := s.agenda.filter (fun e => !(stoppedOut e.2))
    gangs := [], launches := [], saves := [], q0up := false, reduced := []
    genWaiters := s.genWaiters.filter (fun w => !(which w.1.core)), lapWaiters := s.lapWaiters.filter (fun w => !(which w.1.core))
    ploughWait := s.ploughWait.filter (fun w => !(which w.1.core))
    colls := [], collWaits := [], collParts := [] }

/-- The module fails: RESP tells the step, the kernels' cores stop, and only the mailbox is served (R399). -/
def State.bootFailed (s : State) : State :=
  (State.stopCores { s with resp := (s.resp &&& ~~~0xFFFF) ||| s.phase.setWidth 64 } (· < 256)).enterPhase 0xF

/-- The step after a phase, when its work has gone well. -/
def State.nextPhase (s : State) : State :=
  match s.phase.toNat with
  | 0 => ((s.enterPhase 1).after s.lapCycles .lapEnd).after
      (270000000 - s.now % 270000000) .coarsenedCounterSample
  | 1 => s.enterPhase 2
  | 3 => if s.q0up then s.enterPhase 4 else State.allIslands { s with q0up := true }
  | 4 => State.enterPhase { s with moduleId := Config.moduleIdOf s.configRecord } 5
  | 5 => (State.enterPhase { s with reduced := s.gangs.map (fun g => g.1) } 6).allIslands
  | _ => s

/-- The ports of the fabric begin to train, when the FABRIC phase begins. -/
def State.trainFabric (s : State) : State :=
  (List.range 96).foldl (fun (t : State) p => if t.portExists p then
      t.setPortState p .training (startTraining p) else t) s

/-- BOOT_PHASE: the work of the present phase ends, well or not. In AUTH only LOAD moves the module on (R399). -/
def execBootPhase (ok : Bool) (s : State) : Host.Outcome State Fault Refusal :=
  .next (if ok then
      let t := s.nextPhase
      if s.phase = 4 then t.trainFabric else t
    else if 3 ≤ s.phase.toNat && s.phase.toNat ≤ 5 then s.bootFailed else s)

/-! ## The mailbox (R401, R402) -/

def respDone : Word := 0x8000000000000000
def respBusy : Word := 0x4000000000000000
def respOverrun : Word := 0x2000000000000000

/-- The host writes a command's arguments at the beginning of REQ, and then DOORBELL, which is discarded while BUSY; else REQ is
read whole, and what the command does happens. Its answer, a result code and the response data, comes after a time that the spec
does not give. -/
def State.doorbell (s : State) (req : List Byte) (act : State → State × BitVec 16 × List Byte) : State :=
  let w := (req ++ s.reqbuf.drop req.length).take 256
  if s.resp &&& respBusy ≠ 0 then { s with reqbuf := w, resp := s.resp ||| respOverrun }
  else
    let r := act { s with reqbuf := w, resp := (s.resp &&& ~~~(respDone ||| respOverrun)) ||| respBusy }
    r.1.after (1 + Config.deviceDelay s.now) (.mailboxComplete r.2.1 r.2.2)

/-- The answer to a command that is not accepted. -/
def notAccepted (s : State) : State × BitVec 16 × List Byte := (s, 5, [])

/-- MAILBOX_COMPLETE: RSPBUF is written, then RESP with DONE. -/
def execMailboxComplete (code : BitVec 16) (rsp : List Byte) (s : State) : Host.Outcome State Fault Refusal :=
  .next { s with
    rspbuf := if rsp.isEmpty then s.rspbuf else rsp.take 512
    resp := (s.resp &&& respOverrun) ||| respDone ||| code.setWidth 64 }

/-- LOAD in AUTH: the three images are authenticated; then the firmware runs and VAULT begins, or the module fails
(R332). -/
def State.load (s : State) (patch press config : List Byte) : State × BitVec 16 × List Byte :=
  if s.phase ≠ 2 then notAccepted s
  else if Config.signatureValid patch && Config.signatureValid press && Config.signatureValid config then
    let s1 : State := { s with
      digestPatch := sha512 (Config.proofRom ++ patch), digestPress := sha512 press, digestConfig := sha512 config
      configRecord := config }
    (([257, 258, 259, 260].foldl (State.startFirmware · press) (s1.startFirmware patch proofCore)).enterPhase 3, 0, [])
  else (s.enterPhase 0xF, 2, [])

/-- The bytes that an address and a length in REQ name in the host's memory; none past the host's addresses. -/
def State.hostImage (s : State) (off : Nat) : Option (List Byte) :=
  let a := field s.reqbuf off 8
  let n := field s.reqbuf (off + 8) 8
  if a + n ≤ 2 ^ 52 then some (memRead s.mem (keyHost a) n) else none

/-- MAILBOX_LOAD: REQ holds the host addresses and lengths of the three images. -/
def execMailboxLoad (patch press config : Nat × Nat) (s : State) : Host.Outcome State Fault Refusal :=
  .next (s.doorbell ([patch, press, config].flatMap (fun p => leBytes 8 p.1 ++ leBytes 8 p.2)) (fun t =>
    match t.hostImage 0, t.hostImage 16, t.hostImage 32 with
    | some a, some b, some c => t.load a b c
    | _, _, _ => notAccepted t))

/-- The attestation report of R340. -/
def State.report (s : State) (nonce : List Byte) (vf : BitVec 6) : List Byte :=
  let pad := fun (n : Nat) (b : List Byte) => (b ++ zeros n).take n
  let recs := (List.range 64).flatMap (fun v => if (s.vf v).created then pad 1024 (s.vf v).record else zeros 1024)
  let body := leBytes 4 1 ++ leBytes 4 0 ++ pad 64 nonce ++ pad 64 s.digestPatch ++ pad 64 s.digestPress
    ++ pad 64 s.digestConfig ++ sha512 recs ++ leBytes 8 s.laps ++ [vf.setWidth 8, s.gen vf] ++ zeros 6
  body ++ pad 132 (Config.attestSignature (sha512 body))

/-- MAILBOX_ATTEST: REQ holds the nonce of 64 bytes and the VF. -/
def execMailboxAttest (nonce : List Byte) (vf : BitVec 8) (s : State) : Host.Outcome State Fault Refusal :=
  .next (s.doorbell (padTo 64 nonce ++ [vf]) (fun t =>
    let v := field t.reqbuf 64 1
    if v < 64 then (t, 0, t.report (t.reqbuf.take 64) (BitVec.ofNat 6 v)) else notAccepted t))

def execMailboxLimit (watts : Nat) (s : State) : Host.Outcome State Fault Refusal :=
  .next (s.doorbell (leBytes 8 watts) (fun t =>
    if 1200 ≤ watts ∧ watts ≤ 2400 then ({ t with limit := watts }, 0, leBytes 8 watts) else notAccepted t))

def execMailboxThermal (s : State) : Host.Outcome State Fault Refusal :=
  .next (s.doorbell [] (fun t =>
    let r := Config.thermal t.nextFree
    ({ t with nextFree := t.nextFree + 1 }, 0, leBytes 2 r.1.toNat ++ leBytes 2 r.2.toNat)))

/-- MAILBOX_PROOF_REQUEST: what the Proof patch makes of it is the patch's own (log entry 6); it may bring bytes into
Proof's management memory (R324). -/
def execMailboxProofRequest (cmd : BitVec 8) (req : List Byte) (s : State) : Host.Outcome State Fault Refusal :=
  .next (s.doorbell req (fun t =>
    if cmd.toNat < 0x10 || 0x7F < cmd.toNat || t.phase.toNat < 3 || 6 < t.phase.toNat then notAccepted t
    else
      let (code, rsp, off, bytes) := Config.proofPatch cmd req
      let at? := off % 2 ^ 19
      ({ t with mem := memWrite t.mem (keyMgmt 0 at?) (bytes.take (2 ^ 19 - at?)) }, code, rsp)))

/-! ## The sensors and the locked state (R339) -/

/-- A galley's keys are zeroed, and its lines that have not left for the pool or the host are discarded. -/
def Galley.lock (g : Galley) : Galley :=
  let wipe := fun c : Option Crypt => c.map (fun c => { c with key := zeros 32, live := false })
  { g with
    job := match g.job with
      | .copy a b x y => .copy a b (wipe x) (wipe y)
      | .gath e c p x => .gath e c p (wipe x)
      | j => j
    plan := g.plan.filter (fun p => !(isVirt p.dst))
    flight := g.flight.filter (fun p => !(isVirt p.dst)) }

/-- SENSOR_TRIP: keys are zeroed, cores stop without a save, writes that have not left are discarded, and the module is
locked. -/
def execSensorTrip (s : State) : Host.Outcome State Fault Refusal :=
  let s1 := s.stopCores (fun _ => true)
  let s2 : State := { s1 with
    keys := []
    galleys := s1.galleys.map (fun (e : Nat × Galley) => (e.1, e.2.lock))
    coalescer := s1.coalescer.filter (fun e => e.2.sent) }
  .next (s2.enterPhase 0xE)

/-- HOST_RESET: out of the locked state, back to the beginning of a boot. The pool and the host keep what they hold. -/
def execHostReset (s : State) : Host.Outcome State Fault Refusal :=
  let s1 : State := { State.reset with
    mem := s.mem.filter (fun c => 2 ^ 53 ≤ c.1 && c.1 < 2 ^ 55)
    poison := s.poison.filter (fun k => 2 ^ 53 ≤ k && k < 2 ^ 55)
    domainTime := s.domainNs, nextFree := s.nextFree, nextLine := s.nextLine
    outbox := s.outbox, inputs := s.inputs }
  .next (s1.send (.msix none 0))

/-! ## What the host reads in its registers (R297, R311, R319, R395, R401)

A read changes nothing, so it is no step. An offset that names no register reads 0. -/

/-- The status word of a VF (R311). -/
def Vf.statusWord (f : Vf) : Word :=
  BitVec.ofNat 64 (vfStateCode f.status + f.statusGen.toNat * 2 ^ 8 + f.stops % 2 ^ 32 * 2 ^ 32)

/-- The queues that hold kicks not yet accepted (R297). -/
def Vf.pending (f : Vf) : Nat :=
  (List.range 16).foldl (fun a q => if (Tbl.get f.rings q []).isEmpty then a else a + 2 ^ q) 0

/-- BAR0 of a VF: the kick page, and from 0x1000 the status page. -/
def State.readVfBar (s : State) (v : BitVec 6) (off : Nat) : Word :=
  let f := s.vf v.toNat
  let area := field f.record 40 8
  let count := fun (m : Tbl Nat) (base : Nat) => BitVec.ofNat 64 (Tbl.get m ((off - base) / 8) 0)
  if off % 8 ≠ 0 then 0
  else if 0x40 ≤ off ∧ off < 0xC0 then Tbl.get f.qrcb ((off - 0x40) / 8) 0
  else if off = 0x100 then BitVec.ofNat 64 f.pending
  else if 0x180 ≤ off ∧ off < 0x200 then count f.accepted 0x180
  else if 0x200 ≤ off ∧ off < 0x280 then count f.retired 0x200
  else if 0x280 ≤ off ∧ off < 0x300 then count f.dropped 0x280
  else if 0x300 ≤ off ∧ off < 0x380 then count f.refused 0x300
  else if off = 0x1000 then f.statusWord
  else if off = 0x1048 then BitVec.ofNat 64 area
  else if off = 0x1050 then BitVec.ofNat 64 (leNat (s.hostRead v area 8))
  else 0

/-- BAR0 of the PF: the management mailbox. -/
def State.readMailbox (s : State) (off : Nat) : Word :=
  let part := fun (bs : List Byte) (base : Nat) => BitVec.ofNat 64 (field bs (off - base) 8)
  if off % 8 ≠ 0 then 0
  else if off = 0 then s.phase.setWidth 64
  else if off = 0x10 then s.resp
  else if off = 0x18 then BitVec.ofNat 64 s.eventHead
  else if 0x100 ≤ off ∧ off < 0x200 then part s.reqbuf 0x100
  else if 0x200 ≤ off ∧ off < 0x400 then part s.rspbuf 0x200
  else if 0x1000 ≤ off ∧ off < 0x2000 then
    BitVec.ofNat 64 (field (Tbl.get s.events ((off - 0x1000) / 32) []) (off % 32) 8)
  else 0

end Sys2Proof.Machine
end

