-- ==== Sys2Proof/Machine/Dispatch.lean ====
section
/-! DEFINITION. One arm per instruction: its meaning, or its rejection by name. -/

namespace Sys2Proof.Machine

def exec (i : Instr) (s : State) : Host.Outcome State Fault Refusal :=
  match i with
  | .nop h => Sys2Proof.Machine.execNop h s
  | .halt h => Sys2Proof.Machine.execHalt h s
  | .li h d imm => Sys2Proof.Machine.execLi h d imm s
  | .liu h d imm => Sys2Proof.Machine.execLiu h d imm s
  | .trap h code => Sys2Proof.Machine.execTrap h code s
  | .semi h sem val => Sys2Proof.Machine.execSemi h sem val s
  | .slipw h window => Sys2Proof.Machine.execSlipw h window s
  | .view h d a fmt => Sys2Proof.Machine.execView h d a fmt s
  | .add h d a b => Sys2Proof.Machine.execAdd h d a b s
  | .sub h d a b => Sys2Proof.Machine.execSub h d a b s
  | .mul h d a b => Sys2Proof.Machine.execMul h d a b s
  | .mulh h uns d a b => Sys2Proof.Machine.execMulh h uns d a b s
  | .and h d a b => Sys2Proof.Machine.execAnd h d a b s
  | .or h d a b => Sys2Proof.Machine.execOr h d a b s
  | .xor h d a b => Sys2Proof.Machine.execXor h d a b s
  | .shl h d a b => Sys2Proof.Machine.execShl h d a b s
  | .shr h d a b => Sys2Proof.Machine.execShr h d a b s
  | .sar h d a b => Sys2Proof.Machine.execSar h d a b s
  | .min h uns d a b => Sys2Proof.Machine.execMin h uns d a b s
  | .max h uns d a b => Sys2Proof.Machine.execMax h uns d a b s
  | .slt h d a b => Sys2Proof.Machine.execSlt h d a b s
  | .sltu h d a b => Sys2Proof.Machine.execSltu h d a b s
  | .sel h d a b => Sys2Proof.Machine.execSel h d a b s
  | .clz h d a => Sys2Proof.Machine.execClz h d a s
  | .popc h d a => Sys2Proof.Machine.execPopc h d a s
  | .addi h d a imm => Sys2Proof.Machine.execAddi h d a imm s
  | .andi h d a imm => Sys2Proof.Machine.execAndi h d a imm s
  | .ori h d a imm => Sys2Proof.Machine.execOri h d a imm s
  | .br h cond r off => Sys2Proof.Machine.execBr h cond r off s
  | .call h cond r off => Sys2Proof.Machine.execCall h cond r off s
  | .ret h cond r => Sys2Proof.Machine.execRet h cond r s
  | .loop h cond r off => Sys2Proof.Machine.execLoop h cond r off s
  | .ld h size sx rs d a b => Sys2Proof.Machine.execLd h size sx rs d a b s
  | .st h size rs d a b => Sys2Proof.Machine.execSt h size rs d a b s
  | .lda h size sx rs sc d a => Sys2Proof.Machine.execLda h size sx rs sc d a s
  | .stl h size rs sc d a => Sys2Proof.Machine.execStl h size rs sc d a s
  | .mark h => Sys2Proof.Machine.execMark h s
  | .fence h sc => Sys2Proof.Machine.execFence h sc s
  | .spl h size d off => Sys2Proof.Machine.execSpl h size d off s
  | .fil h size d off => Sys2Proof.Machine.execFil h size d off s
  | .tdef h card t => Sys2Proof.Machine.execTdef h card t s
  | .trd h d t field => Sys2Proof.Machine.execTrd h d t field s
  | .launch h d a b queue => Sys2Proof.Machine.execLaunch h d a b queue s
  | .waitl h d a => Sys2Proof.Machine.execWaitl h d a s
  | .aadd h dbl d a b => Sys2Proof.Machine.execAadd h dbl d a b s
  | .amin h dbl uns d a b => Sys2Proof.Machine.execAmin h dbl uns d a b s
  | .amax h dbl uns d a b => Sys2Proof.Machine.execAmax h dbl uns d a b s
  | .aand h dbl d a b => Sys2Proof.Machine.execAand h dbl d a b s
  | .aor h dbl d a b => Sys2Proof.Machine.execAor h dbl d a b s
  | .axchg h dbl d a b => Sys2Proof.Machine.execAxchg h dbl d a b s
  | .acas h dbl d a b => Sys2Proof.Machine.execAcas h dbl d a b s
  | .tktake h d n => Sys2Proof.Machine.execTktake h d n s
  | .tkwait h sc n a => Sys2Proof.Machine.execTkwait h sc n a s
  | .tknext h sc n => Sys2Proof.Machine.execTknext h sc n s
  | .genadv h d a => Sys2Proof.Machine.execGenadv h d a s
  | .psetRun h d a => Sys2Proof.Machine.execPsetRun h d a s
  | .psetStop h d a b => Sys2Proof.Machine.execPsetStop h d a b s
  | .psetMap h d a b => Sys2Proof.Machine.execPsetMap h d a b s
  | .frz h d a b => Sys2Proof.Machine.execFrz h d a b s
  | .thaw h d a b => Sys2Proof.Machine.execThaw h d a b s
  | .keyld h d a b => Sys2Proof.Machine.execKeyld h d a b s
  | .keyerase h all d a b => Sys2Proof.Machine.execKeyerase h all d a b s
  | .lapw h d => Sys2Proof.Machine.execLapw h d s
  | .polset h d a b => Sys2Proof.Machine.execPolset h d a b s
  | .rep h tag count regstep addrstep => Sys2Proof.Machine.execRep h tag count regstep addrstep s
  | .fork h => Sys2Proof.Machine.execFork h s
  | .rdv h => Sys2Proof.Machine.execRdv h s
  | .ssb h => Sys2Proof.Machine.execSsb h s
  | .vadd h te bx sat rnd d a b => Sys2Proof.Machine.execVadd h te bx sat rnd d a b s
  | .vsub h te bx sat rnd d a b => Sys2Proof.Machine.execVsub h te bx sat rnd d a b s
  | .vmul h te bx sat rnd d a b => Sys2Proof.Machine.execVmul h te bx sat rnd d a b s
  | .vfma h te bx sat rnd d a b => Sys2Proof.Machine.execVfma h te bx sat rnd d a b s
  | .vmin h te bx uns d a b => Sys2Proof.Machine.execVmin h te bx uns d a b s
  | .vmax h te bx uns d a b => Sys2Proof.Machine.execVmax h te bx uns d a b s
  | .vabs h tea sat rnd d a => Sys2Proof.Machine.execVabs h tea sat rnd d a s
  | .vneg h tea sat rnd d a => Sys2Proof.Machine.execVneg h tea sat rnd d a s
  | .vand h te bx d a b => Sys2Proof.Machine.execVand h te bx d a b s
  | .vor h te bx d a b => Sys2Proof.Machine.execVor h te bx d a b s
  | .vxor h te bx d a b => Sys2Proof.Machine.execVxor h te bx d a b s
  | .vshl h te bx d a b => Sys2Proof.Machine.execVshl h te bx d a b s
  | .vshr h te bx d a b => Sys2Proof.Machine.execVshr h te bx d a b s
  | .vsar h te bx d a b => Sys2Proof.Machine.execVsar h te bx d a b s
  | .vcmp h te bx cond uns d a b => Sys2Proof.Machine.execVcmp h te bx cond uns d a b s
  | .vsel h te d a b => Sys2Proof.Machine.execVsel h te d a b s
  | .vcvt h tea sat rnd d a => Sys2Proof.Machine.execVcvt h tea sat rnd d a s
  | .vrnd h tea rnd d a => Sys2Proof.Machine.execVrnd h tea rnd d a s
  | .vexp2 h tea sat rnd d a => Sys2Proof.Machine.execVexp2 h tea sat rnd d a s
  | .vlog2 h tea sat rnd d a => Sys2Proof.Machine.execVlog2 h tea sat rnd d a s
  | .vrcp h tea sat rnd d a => Sys2Proof.Machine.execVrcp h tea sat rnd d a s
  | .vrsq h tea sat rnd d a => Sys2Proof.Machine.execVrsq h tea sat rnd d a s
  | .vmov h tea d a => Sys2Proof.Machine.execVmov h tea d a s
  | .vsplat h d a => Sys2Proof.Machine.execVsplat h d a s
  | .viota h flat d a => Sys2Proof.Machine.execViota h flat d a s
  | .vgets h tea d a b => Sys2Proof.Machine.execVgets h tea d a b s
  | .vgetsSt h clr d => Sys2Proof.Machine.execVgetsSt h clr d s
  | .vrotr h tea d a n => Sys2Proof.Machine.execVrotr h tea d a n s
  | .vrotc h tea d a n => Sys2Proof.Machine.execVrotc h tea d a n s
  | .vbcr h tea d a n => Sys2Proof.Machine.execVbcr h tea d a n s
  | .vbcc h tea d a n => Sys2Proof.Machine.execVbcc h tea d a n s
  | .vredr h tea op sat d a => Sys2Proof.Machine.execVredr h tea op sat d a s
  | .vredc h tea op sat d a => Sys2Proof.Machine.execVredc h tea op sat d a s
  | .vscanr h tea op sat ex d a => Sys2Proof.Machine.execVscanr h tea op sat ex d a s
  | .vcomp h te d a b => Sys2Proof.Machine.execVcomp h te d a b s
  | .vlut h tea sat hi d a k => Sys2Proof.Machine.execVlut h tea sat hi d a k s
  | .vacc h tea d a => Sys2Proof.Machine.execVacc h tea d a s
  | .vsfc h te mode d a b => Sys2Proof.Machine.execVsfc h te mode d a b s
  | .vld h d base step count => Sys2Proof.Machine.execVld h d base step count s
  | .vst h d base step count => Sys2Proof.Machine.execVst h d base step count s
  | .mnest h level a b => Sys2Proof.Machine.execMnest h level a b s
  | .mopd h card isB src => Sys2Proof.Machine.execMopd h card isB src s
  | .mfmt h afmt bfmt zp cb cbsel => Sys2Proof.Machine.execMfmt h afmt bfmt zp cb cbsel s
  | .mdst h d => Sys2Proof.Machine.execMdst h d s
  | .mgo h acc => Sys2Proof.Machine.execMgo h acc s
  | .minit h d imm => Sys2Proof.Machine.execMinit h d imm s
  | .mzero h d => Sys2Proof.Machine.execMzero h d s
  | .mnorm h d => Sys2Proof.Machine.execMnorm h d s
  | .mdrain h te fmt zp sat d a vs => Sys2Proof.Machine.execMdrain h te fmt zp sat d a vs s
  | .mstat h d a row => Sys2Proof.Machine.execMstat h d a row s
  | .merrq h clr d => Sys2Proof.Machine.execMerrq h clr d s
  | .mcbld h d a => Sys2Proof.Machine.execMcbld h d a s
  | .mocinv h => Sys2Proof.Machine.execMocinv h s
  | .mrsum h sat rnd d a => Sys2Proof.Machine.execMrsum h sat rnd d a s
  | .xcopy h rel card t => Sys2Proof.Machine.execXcopy h rel card t s
  | .xcopyv h rel card t => Sys2Proof.Machine.execXcopyv h rel card t s
  | .xgath h rel card t => Sys2Proof.Machine.execXgath h rel card t s
  | .xscat h rel card t => Sys2Proof.Machine.execXscat h rel card t s
  | .xfill h rel card t => Sys2Proof.Machine.execXfill h rel card t s
  | .xpref h card t => Sys2Proof.Machine.execXpref h card t s
  | .xfence h => Sys2Proof.Machine.execXfence h s
  | .xstat h clr d => Sys2Proof.Machine.execXstat h clr d s
  | .gload h card t => Sys2Proof.Machine.execGload h card t s
  | .gbias h card t => Sys2Proof.Machine.execGbias h card t s
  | .gcolr h tea c a b => Sys2Proof.Machine.execGcolr h tea c a b s
  | .gbeta h a => Sys2Proof.Machine.execGbeta h a s
  | .gmode h replay bip n => Sys2Proof.Machine.execGmode h replay bip n s
  | .gseed h a => Sys2Proof.Machine.execGseed h a s
  | .gclmp h te a b => Sys2Proof.Machine.execGclmp h te a b s
  | .gfree h tea a => Sys2Proof.Machine.execGfree h tea a s
  | .gswp h k => Sys2Proof.Machine.execGswp h k s
  | .grds h d => Sys2Proof.Machine.execGrds h d s
  | .gcntc h => Sys2Proof.Machine.execGcntc h s
  | .grdc h d a => Sys2Proof.Machine.execGrdc h d a s
  | .grdf h d a => Sys2Proof.Machine.execGrdf h d a s
  | .gxch h card => Sys2Proof.Machine.execGxch h card s
  | .gstat h clr sel d => Sys2Proof.Machine.execGstat h clr sel d s
  | .fput h rel card t n => Sys2Proof.Machine.execFput h rel card t n s
  | .fatom h op dbl uns d a b => Sys2Proof.Machine.execFatom h op dbl uns d a b s
  | .fpull h card n => Sys2Proof.Machine.execFpull h card n s
  | .ffence h sc => Sys2Proof.Machine.execFfence h sc s
  | .fcnt h clr d n => Sys2Proof.Machine.execFcnt h clr d n s
  | .fbar h sc g => Sys2Proof.Machine.execFbar h sc g s
  | .fgrp h card g => Sys2Proof.Machine.execFgrp h card g s
  | .fred h card t g n => Sys2Proof.Machine.execFred h card t g n s
  | .fbcst h card t g n => Sys2Proof.Machine.execFbcst h card t g n s
  | .fa2a h card t g n => Sys2Proof.Machine.execFa2a h card t g n s
  | .rpart h card t g n => Sys2Proof.Machine.execRpart h card t g n s
  | .fstat h sel d => Sys2Proof.Machine.execFstat h sel d s
  | .frout h d a => Sys2Proof.Machine.execFrout h d a s
  | .froutLd h d a b => Sys2Proof.Machine.execFroutLd h d a b s
  | .fplow h d a b => Sys2Proof.Machine.execFplow h d a b s
  | .fplowFree h d a b => Sys2Proof.Machine.execFplowFree h d a b s
  | .flnkDown h d a b => Sys2Proof.Machine.execFlnkDown h d a b s
  | .flnkTrain h d a b => Sys2Proof.Machine.execFlnkTrain h d a b s
  | .flnkDrain h d a b => Sys2Proof.Machine.execFlnkDrain h d a b s
  | .flnkRelock h d a b => Sys2Proof.Machine.execFlnkRelock h d a b s
  | .flnkQuery h d a b => Sys2Proof.Machine.execFlnkQuery h d a b s
  | .trapFreeze o cls code addr => Sys2Proof.Machine.execTrapFreeze o cls code addr s
  | .gangFreezeFollow gang => Sys2Proof.Machine.execGangFreezeFollow gang s
  | .scalarResultLands o d val => Sys2Proof.Machine.execScalarResultLands o d val s
  | .vectorResultLands o off bytes flags => Sys2Proof.Machine.execVectorResultLands o off bytes flags s
  | .longLatencyWriteComplete o off bytes => Sys2Proof.Machine.execLongLatencyWriteComplete o off bytes s
  | .queueEntryArrives core q age val tag => Sys2Proof.Machine.execQueueEntryArrives core q age val tag s
  | .portPrefetch core p => Sys2Proof.Machine.execPortPrefetch core p s
  | .bankArbitration core reqs => Sys2Proof.Machine.execBankArbitration core reqs s
  | .loadPerforms core => Sys2Proof.Machine.execLoadPerforms core s
  | .storePerforms core => Sys2Proof.Machine.execStorePerforms core s
  | .releaseTakesEffect o sc age work => Sys2Proof.Machine.execReleaseTakesEffect o sc age work s
  | .nestStep core => Sys2Proof.Machine.execNestStep core s
  | .nestEnd core => Sys2Proof.Machine.execNestEnd core s
  | .operandCacheFill core key => Sys2Proof.Machine.execOperandCacheFill core key s
  | .pageWalkComplete core vf space write addr => Sys2Proof.Machine.execPageWalkComplete core vf space write addr s
  | .translationRemoval vf page => Sys2Proof.Machine.execTranslationRemoval vf page s
  | .galleyStart id => Sys2Proof.Machine.execGalleyStart id s
  | .galleyAccept id => Sys2Proof.Machine.execGalleyAccept id s
  | .galleyLineWrite id => Sys2Proof.Machine.execGalleyLineWrite id s
  | .galleyRetire id => Sys2Proof.Machine.execGalleyRetire id s
  | .coalescerSend line => Sys2Proof.Machine.execCoalescerSend line s
  | .poolAck line => Sys2Proof.Machine.execPoolAck line s
  | .atomicAtWriteQueue o req d remaining => Sys2Proof.Machine.execAtomicAtWriteQueue o req d remaining s
  | .atomicResultLands o d val => Sys2Proof.Machine.execAtomicResultLands o d val s
  | .tktakeAtDispenser o tag n d => Sys2Proof.Machine.execTktakeAtDispenser o tag n d s
  | .ticketLands o d val => Sys2Proof.Machine.execTicketLands o d val s
  | .dispenserAdvance core tag n => Sys2Proof.Machine.execDispenserAdvance core tag n s
  | .nowServingBroadcast vf n val => Sys2Proof.Machine.execNowServingBroadcast vf n val s
  | .tkwaitWake o => Sys2Proof.Machine.execTkwaitWake o s
  | .launchHandleReady o d val => Sys2Proof.Machine.execLaunchHandleReady o d val s
  | .waitlWake o d handle => Sys2Proof.Machine.execWaitlWake o d handle s
  | .kick vf val => Sys2Proof.Machine.execKick vf val s
  | .registerWrite vf off val => Sys2Proof.Machine.execRegisterWrite vf off val s
  | .kickAccept vf q => Sys2Proof.Machine.execKickAccept vf q s
  | .gangStart launch => Sys2Proof.Machine.execGangStart launch s
  | .kernelEnd core => Sys2Proof.Machine.execKernelEnd core s
  | .launchRetire launch => Sys2Proof.Machine.execLaunchRetire launch s
  | .graphChildStart launch => Sys2Proof.Machine.execGraphChildStart launch s
  | .sliceEnd gang => Sys2Proof.Machine.execSliceEnd gang s
  | .priorityPreempt gang launch => Sys2Proof.Machine.execPriorityPreempt gang launch s
  | .gangResume gang => Sys2Proof.Machine.execGangResume gang s
  | .freezeGate gang cause o d => Sys2Proof.Machine.execFreezeGate gang cause o d s
  | .saveWritten gang cause o d => Sys2Proof.Machine.execSaveWritten gang cause o d s
  | .barrierClose gang => Sys2Proof.Machine.execBarrierClose gang s
  | .exchangePhaseEnd gang => Sys2Proof.Machine.execExchangePhaseEnd gang s
  | .gxchPublish id => Sys2Proof.Machine.execGxchPublish id s
  | .gxchFetch id => Sys2Proof.Machine.execGxchFetch id s
  | .gxchRetire id => Sys2Proof.Machine.execGxchRetire id s
  | .colourPhase core => Sys2Proof.Machine.execColourPhase core s
  | .resurfaceUnit u => Sys2Proof.Machine.execResurfaceUnit u s
  | .lapEnd => Sys2Proof.Machine.execLapEnd s
  | .faultActionThaw vf area => Sys2Proof.Machine.execFaultActionThaw vf area s
  | .faultActionRestart vf area => Sys2Proof.Machine.execFaultActionRestart vf area s
  | .faultActionAbort vf area => Sys2Proof.Machine.execFaultActionAbort vf area s
  | .sharedStructureError structureId q u => Sys2Proof.Machine.execSharedStructureError structureId q u s
  | .hostMemAccess vf addr write len => Sys2Proof.Machine.execHostMemAccess vf addr write len s
  | .frequencyChange gang level => Sys2Proof.Machine.execFrequencyChange gang level s
  | .poolPortDown port => Sys2Proof.Machine.execPoolPortDown port s
  | .bootPhase ok => Sys2Proof.Machine.execBootPhase ok s
  | .mailboxProofRequest cmd req => Sys2Proof.Machine.execMailboxProofRequest cmd req s
  | .mailboxComplete code rsp => Sys2Proof.Machine.execMailboxComplete code rsp s
  | .flitReceive port flit => Sys2Proof.Machine.execFlitReceive port flit s
  | .drainDone port => Sys2Proof.Machine.execDrainDone port s
  | .flitReplay port => Sys2Proof.Machine.execFlitReplay port s
  | .replayTimeout port => Sys2Proof.Machine.execReplayTimeout port s
  | .putArrive p => Sys2Proof.Machine.execPutArrive p s
  | .atomArrive p => Sys2Proof.Machine.execAtomArrive p s
  | .pullArrive p => Sys2Proof.Machine.execPullArrive p s
  | .collArrive m => Sys2Proof.Machine.execCollArrive m s
  | .ploughArrive port p => Sys2Proof.Machine.execPloughArrive port p s
  | .echoSend port vc version round => Sys2Proof.Machine.execEchoSend port vc version round s
  | .echoArrive port p => Sys2Proof.Machine.execEchoArrive port p s
  | .responseArrive r => Sys2Proof.Machine.execResponseArrive r s
  | .rackArrive key => Sys2Proof.Machine.execRackArrive key s
  | .replyCacheFree key => Sys2Proof.Machine.execReplyCacheFree key s
  | .reissue core tag => Sys2Proof.Machine.execReissue core tag s
  | .timeout core tag => Sys2Proof.Machine.execTimeout core tag s
  | .circuitReported port => Sys2Proof.Machine.execCircuitReported port s
  | .thermalEmergency => Sys2Proof.Machine.execThermalEmergency s
  | .sensorTrip => Sys2Proof.Machine.execSensorTrip s
  | .mailboxLoad patch press config => Sys2Proof.Machine.execMailboxLoad patch press config s
  | .mailboxAttest nonce vf => Sys2Proof.Machine.execMailboxAttest nonce vf s
  | .mailboxLimit watts => Sys2Proof.Machine.execMailboxLimit watts s
  | .mailboxThermal => Sys2Proof.Machine.execMailboxThermal s
  | .coarsenedCounterSample => Sys2Proof.Machine.execCoarsenedCounterSample s
  | .hostReset => Sys2Proof.Machine.execHostReset s
  | .supplyEmergency level => Sys2Proof.Machine.execSupplyEmergency level s
  | .thermalEmergencyEnd => Sys2Proof.Machine.execThermalEmergencyEnd s
  | .poolPortRetrain port => Sys2Proof.Machine.execPoolPortRetrain port s
  | .lossOfLight port group => Sys2Proof.Machine.execLossOfLight port group s
  | .retrainStart port wavelength => Sys2Proof.Machine.execRetrainStart port wavelength s
  | .retrainDone port group => Sys2Proof.Machine.execRetrainDone port group s
  | .trainingDone port ok => Sys2Proof.Machine.execTrainingDone port ok s

end Sys2Proof.Machine
end

