-- ==== Sys2Proof/Machine/Step.lean ====
section
/-! DEFINITION. One step of the machine, and the state that runs a given word next. -/

namespace Sys2Proof.Machine

/-- The next thing that happens: an event from outside, an event that is due, the end of a kernel, a walker's
attempt of this cycle, or the end of the cycle. -/
def step (s : State) : Host.Outcome State Fault Refusal :=
  match s.inputs with
  | i :: rest => exec i { s with inputs := rest }
  | [] => match dueEvent s with
    | some (i, t) => exec i t
    | none => match endedCore s with
      | some c => exec (.kernelEnd c) s
      | none => match nextWalker s with
        | none => .next (tick s)
        | some (c, w) => match attempt s c w with
          | .done t => .next t
          | .run i t => exec i t
          | .probe i p t => match exec i p with
            | .next r => .next (probed t c w r)
            | _ => .next t

/-- The context and walker that would run a word: a tenant's core where its decoder takes it, else the Proof core,
else a Press core; the walker of the word's tag, the control walker for tag A. -/
def wordPlace (w : IWord) : Nat × Walker :=
  let core := match decodeWord ⟨.tenant, 15⟩ w with
    | .ok _ => 0
    | .error _ => match decodeWord ⟨.proof, 15⟩ w with
      | .ok _ => proofCore
      | .error _ => 257
  (core, if fTag w = 1 then .V else if fTag w = 2 then .M else if fTag w = 3 then .X else if fTag w = 4 then .G
    else if fTag w = 5 then .F else .C)

/-- s with a word as the text of the core that would run it, its walker at index 0 and the next to act. It stands
for the load of a program (log entry 8): the text is the word and a NOP after it. -/
def State.withFetchWord (s : State) (nbits w : Nat) : State :=
  let word : IWord := BitVec.ofNat 48 (w % 2 ^ nbits)
  let (c, wk) := wordPlace word
  let held : State := { s with
    inputs := [], agenda := [],
    cores := s.cores.map (fun e => (e.1, { e.2 with frozen := some .owner })) }
  let k1 : Core := { held.core c with
    live := true, frozen := none, base := 0, words := 2, agenda := []
    wC := WalkerSt.start, wV := WalkerSt.start, wM := WalkerSt.start
    wX := WalkerSt.start, wG := WalkerSt.start, wF := WalkerSt.start }
  let s1 := held.setCore c (k1.setW wk { WalkerSt.start with st := .running })
  s1.write (s1.ownTag c) (keyRS c 0) (leBytes 6 word.toNat ++ zeros 6)

end Sys2Proof.Machine
end

