-- ==== Sys2Proof/Safety.lean ====
section
/-! DEFINITION. What counts as a safe run, and the conditions on a state in which claims are stated. -/

namespace Sys2Proof.Machine

/-- n steps run on from a state with neither a fault nor a refusal. -/
def Safe : Nat → State → Prop
  | 0, _ => True
  | n + 1, s => ∃ t, step s = .next t ∧ Safe n t

/-- Memory is in its one canonical form. -/
def State.Canonical (s : State) : Prop := Memory.wf s.mem = true

/-- The walker w of the core whose turn it is may issue a word of wait field `wait`: it runs, its last word's cost has
passed, it waits for no completion, its core is not frozen, the slip window lets it pass, and its wait is satisfied
(R13, R16, R19). -/
def State.mayIssue (s : State) (w : Walker) (wait : BitVec 4) : Prop :=
  ((s.core s.cur).w w).st = .running ∧ ((s.core s.cur).w w).readyAt ≤ (s.core s.cur).time ∧
  ((s.core s.cur).w w).blocked = false ∧ (s.core s.cur).frozen = none ∧ (s.core s.cur).slipOk w = true ∧
  (wait = 0 ∨ s.semVal s.cur wait ≠ 0)

/-- The state after the word's wait has been taken (R19). -/
def State.waited (s : State) (wait : BitVec 4) : State :=
  if wait = 0 then s else (s.setSem s.cur wait (s.semVal s.cur wait - 1)).modCore s.cur (fun k => { k with
    granted := Tbl.upd k.granted wait.toNat 0 (· + 1) })

/-- The origin of the word that walker w issues now. -/
def State.word (s : State) (w : Walker) (h : Hdr) : Origin := (s.core s.cur).origin s.cur w h.post

/-- The walker goes on at its next word after `cost` cycles (R34). -/
def State.advanced (t s : State) (w : Walker) (cost : Nat) : State :=
  t.modW s.cur w (fun v => v.advance ((s.core s.cur).time + cost))

/-- The word's settings take force, and its post lands, at the end of the cycle (R19); the walker goes on. -/
def State.settles (t s : State) (w : Walker) (h : Hdr) (cost : Nat) (l : List Latch) : State :=
  ((t.modCore s.cur (fun k => { k with latches := k.latches ++ l ++ [.tidy (s.word w h)] })).begin (s.word w h)).advanced s w cost

/-- The word completes by an event in its core, d cycles after its issue; the walker goes on. -/
def State.landsLater (t s : State) (w : Walker) (h : Hdr) (cost d : Nat) (i : Instr) : State :=
  ((t.begin (s.word w h)).later s.cur d i).advanced s w cost

/-- A value comes to an x register of the core that issues, d cycles after its word's issue: the register is held till
then (R60). -/
def State.comes (t : State) (o : Origin) (r : BitVec 6) (d : Nat) (v : Word) : State :=
  ((t.modCore o.core (fun k => if r = 0 then k else { k with scoreboard := k.scoreboard ++ [r.toNat] })).begin o).later
    o.core d (.scalarResultLands o (.x r) v)

/-- The eight bytes of a core's spill memory at an offset, as its tag reads them (R9, R72). -/
def State.spilled (s : State) (c p : Nat) : Word := BitVec.ofNat 64 (leNat (s.read (s.ownTag c) (keySpill c p) 8))

/-- A core of a gang that no trap has frozen yet as a trap leaves it: frozen, saved, and its record kept for its owner
(R318). -/
def State.trapped (s : State) (o : Origin) (gv : Gang) (cls : TrapClass) (code addr : Nat) : State :=
  ((s.modCore o.core (fun k => { k with frozen := some .trap })).saveCore o.core (s.core o.core).gang).modGang
    (s.core o.core).gang (fun v => { v with frozen := some .trap, records := v.records ++ [(o,
      recordBytes gv.areaHost cls o (s.core o.core) (s.gen (s.core o.core).vf) code addr s.now)] })

/-- A privileged word has issued: its walker issues nothing more until v lands in d, lat cycles on (R325). -/
def State.privileged (t s : State) (w : Walker) (h : Hdr) (d : Name) (v : Word) (lat : Nat) : State :=
  (((t.begin (s.word w h)).modW s.cur w (fun x => { x with blocked := true })).later s.cur lat
    (.scalarResultLands (s.word w h) d v)).advanced s w 1

/-- A privileged word of walker w may issue: every earlier word of its walker has completed, its x registers a and b
have no write pending, and its destination is reserved in t (R325). -/
def State.mayPrivilege (s : State) (w : Walker) (h : Hdr) (d a b : Name) (t : State) : Prop :=
  s.mayIssue w h.wait ∧ (((s.waited h.wait).core s.cur).w w).pend = 0 ∧
  ((s.waited h.wait).core s.cur).scoreboard.contains (xNum a).toNat = false ∧
  ((s.waited h.wait).core s.cur).scoreboard.contains (xNum b).toNat = false ∧
  (reserve (s.word w h) d).run (s.waited h.wait) = .ok ((), t)

/-- The value of an x register as the word that issues now reads it. -/
def State.xArg (s : State) (h : Hdr) (a : Name) : Word := ((s.waited h.wait).core s.cur).readX (xNum a)

/-- The atomics of the control walker (R44): header, operator, size, order, destination and operands. -/
def atomicWord : Instr → Option (Hdr × AtomOp × Bool × Bool × Name × Name × Name)
  | .aadd h z d a b => some (h, .add, z, false, d, a, b)
  | .amin h z u d a b => some (h, .min, z, u, d, a, b)
  | .amax h z u d a b => some (h, .max, z, u, d, a, b)
  | .aand h z d a b => some (h, .and, z, false, d, a, b)
  | .aor h z d a b => some (h, .or, z, false, d, a, b)
  | .axchg h z d a b => some (h, .xchg, z, false, d, a, b)
  | .acas h z d a b => some (h, .cas, z, false, d, a, b)
  | _ => none

/-- The new value of R249 from the old one, the operand and the expected value, on numbers of n bytes. -/
def atomRule (op : AtomOp) (n : Nat) (uns : Bool) (old v expected : Nat) : Nat :=
  match op, uns with
  | .add, _ => (old + v) % 2 ^ (8 * n)
  | .min, true => Nat.min old v
  | .max, true => Nat.max old v
  | .min, false => if signedOf (8 * n) v < signedOf (8 * n) old then v else old
  | .max, false => if signedOf (8 * n) old < signedOf (8 * n) v then v else old
  | .and, _ => old &&& v
  | .or, _ => old ||| v
  | .xchg, _ => v
  | .cas, _ => if old = expected then v else old

/-- Whether a transfer's condition holds of a register's value, read as signed (R41). -/
def condTrue (cond : BitVec 4) (v : Word) : Bool :=
  match cond.toNat with
  | 0 => true
  | 1 => v.toInt = 0
  | 2 => v.toInt ≠ 0
  | 3 => v.toInt < 0
  | 4 => 0 ≤ v.toInt
  | 5 => 0 < v.toInt
  | 6 => v.toInt ≤ 0
  | 7 => v.toNat % 2 = 1
  | _ => false

/-- The control walker transfers: every started walker is told the outcome, and the control walker goes on at the
target 3 cycles later, or at the next word one cycle later (R14, R66). -/
def State.transfers (t s : State) (h : Hdr) (taken : Bool) (target : Nat) (stack : List Nat) : State :=
  (t.modCore s.cur (fun k => { (k.pushOutcome taken target).continueAt taken target with
    retStack := if taken then stack else k.retStack })).complete (s.word .C h)

/-- Every started walker's outcome queue has room for one more (R14). -/
def Core.outcomesRoom (k : Core) : Bool := k.started.all (fun w => (k.w w).outcomes.length < 64)

/-- The arithmetic of R64 on two sources: header, destination, sources, and the result from the rule's words. -/
def binaryWord : Instr → Option (Hdr × Name × Name × Name × (Word → Word → Word))
  | .add h d a b => some (h, d, a, b, fun x y => BitVec.ofInt 64 (x.toInt + y.toInt))
  | .sub h d a b => some (h, d, a, b, fun x y => BitVec.ofInt 64 (x.toInt - y.toInt))
  | .and h d a b => some (h, d, a, b, fun x y => x &&& y)
  | .or h d a b => some (h, d, a, b, fun x y => x ||| y)
  | .xor h d a b => some (h, d, a, b, fun x y => x ^^^ y)
  | .shl h d a b => some (h, d, a, b, fun x y => BitVec.ofNat 64 (x.toNat * 2 ^ (y.toNat % 64)))
  | .shr h d a b => some (h, d, a, b, fun x y => BitVec.ofNat 64 (x.toNat / 2 ^ (y.toNat % 64)))
  | .sar h d a b => some (h, d, a, b, fun x y => BitVec.ofInt 64 (x.toInt / 2 ^ (y.toNat % 64)))
  | .min h u d a b => some (h, d, a, b, fun x y =>
      if u then BitVec.ofNat 64 (Nat.min x.toNat y.toNat) else BitVec.ofInt 64 (Min.min x.toInt y.toInt))
  | .max h u d a b => some (h, d, a, b, fun x y =>
      if u then BitVec.ofNat 64 (Nat.max x.toNat y.toNat) else BitVec.ofInt 64 (Max.max x.toInt y.toInt))
  | .slt h d a b => some (h, d, a, b, fun x y => if x.toInt < y.toInt then 1 else 0)
  | .sltu h d a b => some (h, d, a, b, fun x y => if x.toNat < y.toNat then 1 else 0)
  | _ => none

/-- The words of one source: the counts of R65 and the immediate forms of R63. -/
def unaryWord : Instr → Option (Hdr × Name × Name × (Word → Word))
  | .clz h d a => some (h, d, a, fun x =>
      BitVec.ofNat 64 (((List.range 64).takeWhile (fun i => !(x.getLsbD (63 - i)))).length))
  | .popc h d a => some (h, d, a, fun x => BitVec.ofNat 64 ((List.range 64).countP (fun i => x.getLsbD i)))
  | .addi h d a i => some (h, d, a, fun x => BitVec.ofInt 64 (x.toInt + i.toInt))
  | .andi h d a i => some (h, d, a, fun x => x &&& i.signExtend 64)
  | .ori h d a i => some (h, d, a, fun x => x ||| i.signExtend 64)
  | _ => none

/-! ## Words between views -/

/-- A word of the vector walker that reads views and ports and writes one view (R159 to R164): its header, issue cost
and latency, destination, whether its old elements are a source, its sources with their TE bits, the scalar it reads
first, the check of its formats, and its result from the scalar, the destination's format, the old elements and the
sources. -/
structure ViewSpec where
  h : Hdr
  cost : Nat
  lat : Nat
  d : Name
  readD : Bool
  ops : List (Name × Bool)
  arg : Option Name
  chk : Byte → List Byte → Bool
  f : Word → Byte → List Nat → List Source → List Nat × BitVec 7

/-- Source n of a word. -/
def srcAt (l : List Source) (n : Nat) : Source := l.getD n Source.none

/-- A word of one source. -/
def spec1 (h : Hdr) (cost lat : Nat) (d a : Name) (tea : Bool) (chk : Byte → Byte → Bool)
    (f : Byte → Byte → List Nat → List Nat × BitVec 7) : ViewSpec :=
  ⟨h, cost, lat, d, false, [(a, tea)], none, fun fd fs => chk fd (fs.headD 0),
    fun _ fd _ ss => f fd (ss.headD Source.none).fmt (ss.headD Source.none).elems⟩

/-- A word of two sources, b a scalar with .X: the value's low bits stand for each of its elements, in a's format
(R160). -/
def spec2 (h : Hdr) (cost lat : Nat) (d a b : Name) (te : Te) (bx readD : Bool) (chk : Byte → Byte → Byte → Bool)
    (f : Byte → Byte → Byte → List Nat → List Nat → List Nat → List Nat × BitVec 7) : ViewSpec :=
  if bx then ⟨h, cost, lat, d, readD, [(a, te.a)], some b, fun fd fs => chk fd (fs.headD 0) (fs.headD 0),
    fun v fd old ss => f fd (ss.headD Source.none).fmt (ss.headD Source.none).fmt (ss.headD Source.none).elems
      (List.replicate 1024 (v.toNat % 2 ^ (8 * fmtSize (ss.headD Source.none).fmt))) old⟩
  else ⟨h, cost, lat, d, readD, [(a, te.a), (b, te.b)], none, fun fd fs => chk fd (fs.headD 0) (fs.getD 1 0),
    fun _ fd old ss => f fd (ss.headD Source.none).fmt (srcAt ss 1).fmt (ss.headD Source.none).elems
      (srcAt ss 1).elems old⟩

/-- The scalar that an amount names, and the amount it gives (R183). -/
def amountArg : Amount → Option Name
  | .val _ => none
  | .reg r => some r

def amountOf (limit : Nat) : Amount → Word → Nat
  | .val n, _ => n.toNat
  | .reg _, v => v.toNat % limit

/-- A word that moves element (i, j) from the place that an amount gives. -/
def specMove (h : Hdr) (cost lat : Nat) (d a : Name) (tea : Bool) (n : Amount) (limit : Nat)
    (place : Nat → Nat → Nat → Nat × Nat) : ViewSpec :=
  { spec1 h cost lat d a tea (fun fd fa => fmtSize fd = fmtSize fa) (fun _ _ as => (as, 0)) with
    arg := amountArg n
    f := fun v _ _ ss => let arr := (ss.headD Source.none).elems.toArray
      ((List.range 1024).map (fun k => let p := place (amountOf limit n v) (k / 64) (k % 64)
        arr.getD (64 * p.1 + p.2) 0), 0) }

/-- The elementwise words (R170 to R181): their issue costs, latencies (R34), formats and element operations. -/
def elementWord : Instr → Option ViewSpec
  | .vadd h te bx sat rnd d a b => some (spec2 h 4 6 d a b te bx false sameClass
      (arith (fun x y _ => x.add y) (fun x y _ => x + y) false rnd sat))
  | .vsub h te bx sat rnd d a b => some (spec2 h 4 6 d a b te bx false sameClass
      (arith (fun x y _ => x.add y.negate) (fun x y _ => x - y) false rnd sat))
  | .vmul h te bx sat rnd d a b => some (spec2 h 4 6 d a b te bx false sameClass
      (arith (fun x y _ => x.mul y) (fun x y _ => x * y) false rnd sat))
  | .vfma h te bx sat rnd d a b => some (spec2 h 4 8 d a b te bx true sameClass
      (arith fma (fun x y z => x * y + z) false rnd sat))
  | .vmin h te bx uns d a b => some (spec2 h 4 6 d a b te bx false (minmaxOk uns)
      (arith (fun x y _ => (x.least y, false)) (fun x y _ => min x y) uns .rne false))
  | .vmax h te bx uns d a b => some (spec2 h 4 6 d a b te bx false (minmaxOk uns)
      (arith (fun x y _ => (x.greatest y, false)) (fun x y _ => max x y) uns .rne false))
  | .vabs h tea sat rnd d a => some (spec1 h 4 6 d a tea (fun fd fa => sameClass fd fa fa)
      (unaryArith Val.abs (fun x => (x.natAbs : Int)) rnd sat))
  | .vneg h tea sat rnd d a => some (spec1 h 4 6 d a tea (fun fd fa => sameClass fd fa fa)
      (unaryArith Val.negate (fun x => -x) rnd sat))
  | .vand h te bx d a b => some (spec2 h 4 6 d a b te bx false sameSize (bitwise (· &&& ·)))
  | .vor h te bx d a b => some (spec2 h 4 6 d a b te bx false sameSize (bitwise (· ||| ·)))
  | .vxor h te bx d a b => some (spec2 h 4 6 d a b te bx false sameSize (bitwise (· ^^^ ·)))
  | .vshl h te bx d a b => some (spec2 h 4 6 d a b te bx false shiftOk (shifted (fun w x n => x * 2 ^ n % 2 ^ w)))
  | .vshr h te bx d a b => some (spec2 h 4 6 d a b te bx false shiftOk (shifted (fun _ x n => x / 2 ^ n)))
  | .vsar h te bx d a b => some (spec2 h 4 6 d a b te bx false shiftOk
      (shifted (fun w x n => lowBits w (signedOf w x / 2 ^ n))))
  | .vcmp h te bx cond uns d a b => some (spec2 h 4 6 d a b te bx false (cmpOk cond uns) (fun fd fa fb as bs _ =>
      (List.zipWith (fun x y => if (if isFloat fa then cmpVal cond (elemVal fa x) (elemVal fb y)
        else cmpInt cond (elemInt uns fa x) (elemInt uns fb y)) then allOnes fd else 0) as bs, 0)))
  | .vsel h te d a b => some (spec2 h 4 6 d a b te false true sameSize (fun _ _ _ as bs ds =>
      (List.zipWith (fun (m : Nat) (ab : Nat × Nat) => if m ≠ 0 then ab.1 else ab.2) ds (as.zip bs), 0)))
  | .vcvt h tea sat rnd d a => some (spec1 h 4 6 d a tea (fun fd fa => fmtClass fd ≠ .bit && fmtClass fa ≠ .bit)
      (fun fd fa as => gather (as.map (convert rnd sat fd fa))))
  | .vrnd h tea rnd d a => some (spec1 h 16 20 d a tea (fun fd fa => isFloat fa && fd = fa)
      (fun _ fa as => (as.map (integral rnd fa), 0)))
  | .vexp2 h tea sat rnd d a => some (spec1 h 16 20 d a tea (fun fd fa => isFloat fd && isFloat fa)
      (fun fd fa as => gather (as.map (specialElem 0 rnd sat fd fa))))
  | .vlog2 h tea sat rnd d a => some (spec1 h 16 20 d a tea (fun fd fa => isFloat fd && isFloat fa)
      (fun fd fa as => gather (as.map (specialElem 1 rnd sat fd fa))))
  | .vrcp h tea sat rnd d a => some (spec1 h 16 20 d a tea (fun fd fa => isFloat fd && isFloat fa)
      (fun fd fa as => gather (as.map (specialElem 2 rnd sat fd fa))))
  | .vrsq h tea sat rnd d a => some (spec1 h 16 20 d a tea (fun fd fa => isFloat fd && isFloat fa)
      (fun fd fa as => gather (as.map (specialElem 3 rnd sat fd fa))))
  | .vmov h tea d a => some (spec1 h 4 6 d a tea (fun fd fa => fmtSize fd = fmtSize fa) (fun _ _ as => (as, 0)))
  | .vsplat h d a => some ⟨h, 4, 6, d, false, [], some a, fun _ _ => true,
      fun v fd _ _ => (List.replicate 1024 (v.toNat % 2 ^ (8 * fmtSize fd)), 0)⟩
  | .viota h flat d a => some ⟨h, 4, 6, d, false, [], some a, fun fd _ => fmtClass fd ≠ .bit,
      fun v fd _ _ => gather ((List.range 1024).map (iotaElem fd v.toInt flat))⟩
  | _ => none

/-- The words that move, reduce and rank elements (R183 to R186, R189). -/
def movementWord : Instr → Option ViewSpec
  | .vrotr h tea d a n => some (specMove h 2 4 d a tea n 64 (fun n i j => (i, (j + 64 - n) % 64)))
  | .vrotc h tea d a n => some (specMove h 6 8 d a tea n 16 (fun n i j => ((i + 16 - n) % 16, j)))
  | .vbcr h tea d a n => some (specMove h 2 4 d a tea n 64 (fun n i _ => (i, n)))
  | .vbcc h tea d a n => some (specMove h 6 8 d a tea n 16 (fun n _ j => (n, j)))
  | .vredr h tea op sat d a => some (spec1 h 5 7 d a tea (redOk op sat) (fun fd fa as =>
      let r := (List.range 16).map (fun i => reduce op sat fd fa (rowOf as i))
      (r.flatMap (fun x => List.replicate 64 x.1), orFlags (r.map (fun x => x.2)))))
  | .vredc h tea op sat d a => some (spec1 h 8 10 d a tea (redOk op sat) (fun fd fa as =>
      let r := (List.range 64).map (fun j => reduce op sat fd fa (colOf as j))
      ((List.replicate 16 (r.map (fun x => x.1))).flatten, orFlags (r.map (fun x => x.2)))))
  | .vscanr h tea op sat ex d a => some (spec1 h 5 7 d a tea (redOk op sat) (fun fd fa as =>
      gather ((List.range 1024).map (fun n =>
        reduce op sat fd fa ((rowOf as (n / 64)).take (if ex then n % 64 else n % 64 + 1))))))
  | .vcomp h te d a b => some (spec2 h 5 7 d a b te false false
      (fun fd fa fb => fmtSize fd = fmtSize fa && fmtClass fb ≠ .bit) (fun _ _ _ as bs _ =>
        ((List.range 16).flatMap (fun i =>
          let kept := ((rowOf as i).zip (rowOf bs i)).filterMap (fun p => if p.2 ≠ 0 then some p.1 else none)
          kept ++ List.replicate (64 - kept.length) 0), 0)))
  | .vsfc h te mode d a b => some (spec2 h 16 20 d a b te false false (fun fd fa fb => fd = 6 && fa = 1 && fb = 1)
      (fun _ _ _ as bs _ =>
        let rows := (List.range 16).map (fun i => keyRow mode (rowOf as i) (rowOf bs 0))
        (rows.flatMap (fun x => x.1), flagIf (rows.any (fun x => x.2)) vInvalid)))
  | _ => none

/-- Register-space bytes that a vector word owes to a run of its core (R164, R165). -/
def State.owes (t s : State) (r : Nat × Nat) : State :=
  t.modCore s.cur (fun k => { k with
    vpend := k.vpend ++ [(keyRS s.cur r.1, r.2, (s.core s.cur).time * 8 + walkerNum .V)] })

/-! ## Accesses of VLD and VST (R39, R193) -/

/-- Whether the vector walker's format-M word makes its first access. -/
def State.firstAccess (s : State) : Bool := (s.core s.cur).wV.access = 0 && (s.core s.cur).wV.grant = 0

/-- The wait that this access takes: the word's, before its first access only. -/
def State.accessWait (s : State) (h : Hdr) : BitVec 4 := if s.firstAccess then h.wait else 0

/-- The base that this access uses: read by the first, kept by the others. -/
def State.accessBase (s : State) (h : Hdr) (base : Name) : Word :=
  if s.firstAccess then s.xArg h base else (s.core s.cur).wV.baseVal

/-- The state in which an access looks for its bytes. -/
def State.accessed (s : State) (h : Hdr) : State := s.waited (s.accessWait h)

/-- The state in which an access acts: its walker keeps the base. -/
def State.accessing (s : State) (h : Hdr) (base : Name) : State :=
  (s.accessed h).modW s.cur .V (fun v => { v with baseVal := s.accessBase h base })

/-- The address of the access that the vector walker makes now (R39, R53). -/
def State.accessAddr (s : State) (h : Hdr) (base : Name) (step : BitVec 8) (n : Nat) : Word :=
  viewAddr (s.accessBase h base) (s.core s.cur).wV.access step n (s.core s.cur).wV.addrAdd

/-- The access that the vector walker may make now: it may issue, its base can be read, and its view is bound to r, or was
when its first grant resolved it. -/
def State.mayAccess (s : State) (h : Hdr) (d base : Name) (r : Nat × Nat) (acc : Bool) : Prop :=
  s.mayIssue .V (s.accessWait h) ∧
  (s.firstAccess = true → ((s.accessed h).core s.cur).scoreboard.contains (xNum base).toNat = false) ∧
  (if (s.core s.cur).wV.grant = 0 then viewRun ((s.accessed h).core s.cur) d (s.core s.cur).wV.access
    else (s.core s.cur).wV.run) = some (r, acc)

/-- The age of a request of the word that walker w issues now: of its first that was lost, else of this cycle (R27). -/
def State.bankAge (s : State) (w : Walker) : Nat :=
  ((s.core s.cur).w w).asked.getD ((s.core s.cur).time * 8 + walkerNum w)

/-- Every bank of a request is free in this cycle for it (R27). -/
def State.wins (t s : State) (w : Walker) (b : BitVec 32) : Prop := (t.core s.cur).banksLost (s.bankAge w) b = 0

/-- The banks of a request are won for this cycle (R27). -/
def State.claims (t s : State) (w : Walker) (b : BitVec 32) : State := t.modCore s.cur (fun k => k.winBanks (s.bankAge w) b)

/-- The origin of an access: the word's posts belong to its last one. -/
def State.accessWord (s : State) (h : Hdr) (last : Bool) : Origin :=
  if last then s.word .V h else { s.word .V h with post := 0, post2 := 0 }

/-- The walker after an access: the next word, or what it makes next. -/
def State.goesOn (t s : State) (last : Bool) (cost : Nat) (f : WalkerSt → WalkerSt) : State :=
  if last then t.advanced s .V cost
  else t.modW s.cur .V (fun v => f { v with readyAt := (s.core s.cur).time + cost, asked := none })

/-! ## Words of the matrix and Gibbs walkers -/

/-- The word enters the wait for its tile (R140): it is tried at once, and in each cycle after among the requests of its
core (R27); its walker goes on. -/
def State.waitsAtTile (t s : State) (h : Hdr) (tile : Nat) (op : MatOp) : State :=
  let e : MatWait := ⟨s.word .M h, tile, op, none⟩
  (((((t.modCore s.cur (fun k => { k with matq := k.matq ++ [e] })).begin (s.word .M h)).matTry s.cur e)).later s.cur 1
    (.bankArbitration s.cur [⟨(s.word .M h).age, 0⟩])).advanced s .M 1

/-- An array word goes on its way, its effect on the array due `lat` cycles on (R268, R271). -/
def State.arrayWord (t s : State) (h : Hdr) (lat : Nat) (op : GibbsOp) : State :=
  (t.modGibbs s.cur (fun a => { a with word := some op })).landsLater s .G h 1 lat
    (.vectorResultLands (s.word .G h) keyGibbs [] 0)

/-! ## Galley words -/

/-- A word that enqueues a galley (R204, R206): its walker and header, its release, its card, the kind and the exchange
bit the card must have, and what it orders. -/
structure GalleySpec where
  w : Walker
  h : Hdr
  rel : Option Scope
  card : Name
  kind : Nat
  exch : Bool
  order : Origin → List Byte → Op Order

/-- The words of the copy, Gibbs and fabric walkers that enqueue a galley (R237 to R241, R282, R371, R381 to R386). -/
def galleyWord : Instr → Option GalleySpec
  | .xcopy h rel card t => some ⟨.X, h, rel, card, 1, false, fun o => copyOrder o t⟩
  | .xcopyv h rel card t => some ⟨.X, h, rel, card, 2, false, fun o => copyvOrder o t⟩
  | .xgath h rel card t => some ⟨.X, h, rel, card, 3, false, fun o => itemOrder o false t⟩
  | .xscat h rel card t => some ⟨.X, h, rel, card, 4, false, fun o => itemOrder o true t⟩
  | .xfill h rel card t => some ⟨.X, h, rel, card, 5, false, fun o => fillOrder o t⟩
  | .xpref h card t => some ⟨.X, h, none, card, 6, false, fun o => prefOrder o t⟩
  | .gxch h card => some ⟨.G, h, none, card, 8, true, gxchOrder⟩
  | .fput h rel card t n => some ⟨.F, h, rel, card, 12, false, fun o => putOrder o t n⟩
  | .fred h card t g n => some ⟨.F, h, none, card, 12, false, fun o => fredOrder o t g n⟩
  | .fbcst h card t g n => some ⟨.F, h, none, card, 12, false, fun o => fbcstOrder o t g n⟩
  | .fa2a h card t g n => some ⟨.F, h, none, card, 12, false, fun o => fa2aOrder o t g n⟩
  | .rpart h card t g n => some ⟨.F, h, none, card, 12, false, fun o => rpartOrder o card t g n⟩
  | _ => none

/-- A card's common fields are as R201 to R203 have them, for a word of kind `kind`. -/
def cardOk (kind : Nat) (exch : Bool) (b : List Byte) : Bool :=
  field b 0 1 = kind && field b 1 1 < (if kind = 12 then 1 else 2) && (!exch || field b 1 1 = 1) && dispOk (field b 4 2)
    && (readRanges b ++ writeRanges b).all (fun r => r.2 ≠ 0 || r.1 = 0)

/-- The scope of a card's dispenser advance, where it has one (R203). -/
def cardScope (b : List Byte) : Option Scope :=
  if bitOf (field b 4 2) 15 then scopeOf (bitsOf (field b 4 2) 10 8) else none

/-- The steps of R206 that an order must still pass: its targets are not running text, its ranges cover what it touches,
it names no pool tensor in reduced service, fewer than 64 galleys stand, and its own targets are full. -/
def State.admits (s : State) (ord : Order) : Bool :=
  ord.writes.all (fun r => !isRS r.key || !((s.core (rsCore r.key)).inText (rsOff r.key) r.len)) &&
  ord.touchR.all (coveredBy ord.reads 8) && ord.touchW.all (coveredBy ord.writes 8) &&
  !(s.inReduced s.cur && ord.pool) &&
  (s.galleys.filter (fun g => g.2.core = s.cur && g.2.gang = (s.core s.cur).gang)).length < 64 &&
  (ord.empties ++ ord.dests).all (fun r => s.full s.cur r.1 r.2)

/-- A privileged word has issued and waits for the event that completes it (R325, R389). -/
def State.awaits (t s : State) (w : Walker) (h : Hdr) : State :=
  ((t.begin (s.word w h)).modW s.cur w (fun x => { x with blocked := true })).advanced s w 1

/-- The ports that a plough round goes out on: the ACTIVE ones. -/
def State.activePorts (s : State) : List Nat := allPorts.filter (fun p => s.portExists p && (s.port p).st = .active)

/-! ## Frames -/

/-- The words that only compute a value for a scalar destination: their walker, header and destination. -/
def scalarWord (i : Instr) : Option (Walker × Hdr × Name) :=
  match binaryWord i, unaryWord i with
  | some (h, d, _), _ => some (.C, h, d)
  | _, some (h, d, _) => some (.C, h, d)
  | _, _ => match i with
    | .li h d _ => some (.C, h, d)
    | .liu h d _ => some (.C, h, d)
    | .sel h d _ _ => some (.C, h, d)
    | .mul h d _ _ => some (.C, h, d)
    | .mulh h _ d _ _ => some (.C, h, d)
    | .trd h d _ _ => some (.C, h, d)
    | .vgetsSt h false d => some (.V, h, d)
    | .merrq h false d => some (.M, h, d)
    | .xstat h false d => some (.X, h, d)
    | .gstat h false _ d => some (.G, h, d)
    | .fcnt h false d _ => some (.F, h, d)
    | .fstat h _ d => some (.F, h, d)
    | _ => none

/-- The storage outside the cores: memory with its tags and marks, the VFs, and the structures that cores share. -/
def State.sharedSame (s t : State) : Prop :=
  t.mem = s.mem ∧ t.tags = s.tags ∧ t.poison = s.poison ∧ t.vfs = s.vfs ∧ t.gangs = s.gangs ∧ t.galleys = s.galleys ∧
  t.launches = s.launches ∧ t.dispensers = s.dispensers ∧ t.keys = s.keys ∧ t.coalescer = s.coalescer ∧ t.ops = s.ops ∧
  t.replies = s.replies ∧ t.outbox = s.outbox ∧ t.now = s.now

/-- The storage of a core that a word of one walker leaves as it was: registers, views, codebooks, status and control
registers, the other units' state, and the counts of the core's cycles and supersteps. -/
def Core.storageSame (k l : Core) : Prop :=
  (∀ r, l.readX r = k.readX r) ∧ (∀ n, l.viewReg n = k.viewReg n) ∧ l.aviews = k.aviews ∧ l.codebooks = k.codebooks ∧
  l.ports = k.ports ∧ l.vstat = k.vstat ∧ l.shadow = k.shadow ∧ l.nest = k.nest ∧ l.matq = k.matq ∧ l.merrlog = k.merrlog ∧
  l.gibbs = k.gibbs ∧ l.counters = k.counters ∧ l.groups = k.groups ∧ l.xpoison = k.xpoison ∧ l.xoor = k.xoor ∧
  l.lq = k.lq ∧ l.sq = k.sq ∧ l.empty = k.empty ∧ l.ocache = k.ocache ∧ l.tcache = k.tcache ∧ l.retStack = k.retStack ∧
  l.slip = k.slip ∧ l.step = k.step ∧ l.clk = k.clk ∧ l.time = k.time ∧ l.frozen = k.frozen ∧ l.live = k.live

/-- Walkers other than one stand where they stood. -/
def Core.othersSame (k l : Core) (w : Walker) : Prop :=
  ∀ u, u ≠ w → (l.w u).st = (k.w u).st ∧ (l.w u).index = (k.w u).index ∧ (l.w u).steps = (k.w u).steps ∧
    (l.w u).readyAt = (k.w u).readyAt ∧ (l.w u).pend = (k.w u).pend

end Sys2Proof.Machine
end

