-- ==== Sys2Proof/Certificates/Slice0/Obligations.lean ====
section
/-! DEFINITION. The statements for the provers, family by family; each docstring names the rules it rests on. -/

open Sys2Proof Sys2Proof.Machine

/-- What reset leaves: phase RESET, nothing in service, every VF uncreated at generation 1, every tag void (R399, R323, R307, R252). -/
def Obligations.ResetLeaves : Prop :=
  State.reset.phase = 0 ∧ State.reset.laps = 0 ∧ State.reset.resp = 0 ∧
  (∀ v : BitVec 6, (State.reset.vf v.toNat).created = false ∧ State.reset.gen v = 1) ∧
  (∀ k, State.reset.tagAt k = voidTag) ∧
  (∀ (t : Tag) (n : Byte), (State.reset.dispenser t n).next = 0 ∧ (State.reset.dispenser t n).serving = 0) ∧
  State.reset.gangs = [] ∧ State.reset.launches = [] ∧ State.reset.galleys = [] ∧ State.reset.ops = [] ∧
  State.reset.keys = [] ∧ (∀ (c : Nat) (r : BitVec 6), (State.reset.core c).readX r = 0) ∧
  (∀ c, (State.reset.core c).live = false)

/-- Memory after reset is in its canonical form (R3, R4). -/
def Obligations.ResetMemoryCanonical : Prop :=
  State.reset.Canonical

/-- Every step keeps memory in its canonical form (R3, R9). -/
def Obligations.CanonicalMemoryKept : Prop :=
  ∀ s t : State, s.Canonical → step s = .next t → t.Canonical

/-- Decoding the encoding of a well-formed instruction gives it back, every operand with it (R36, R38, R42, R43, R44, R45, R46, R47, R49, R51). -/
def Obligations.DecodeOfEncode : Prop :=
  ∀ (c : DCtx) (i : Instr) (w : IWord), encode i = some w → i.canonical = true → i.check c = [] →
    decodeWord c w = .ok i

/-- Every word that decodes is the encoding of its instruction: no bit of a word is ignored (R36, R38, R42, R43, R44, R45, R46, R47, R49, R51). -/
def Obligations.EncodeOfDecode : Prop :=
  ∀ (c : DCtx) (i : Instr) (w : IWord), decodeWord c w = .ok i → encode i = some w

/-- The spec's encoded examples decode to the words they stand for (R65, R246, R148, R272, R275, R276, R277, R278, R279). -/
def Obligations.EncodedExamples : Prop :=
  let dec := decodeWord ⟨.tenant, 0⟩
  let h0 : Hdr := ⟨0, 0⟩
  dec 0x0C8000808040 = .ok (.addi h0 (.x 1) (.x 1) 64) ∧
  dec 0x03804000000A = .ok (.view h0 (.a 0) (.x 0) 0x0A) ∧
  dec 0x028000800000 = .ok (.semi h0 1 0) ∧
  dec 0x140000800800 = .ok (.tdef h0 (.x 1) 1) ∧
  dec 0x120000000000 = .ok (.mark h0) ∧
  dec 0x160000810182 = .ok (.aadd h0 true (.x 1) (.x 2) (.x 3)) ∧
  dec 0x400000020280 = .ok (.mnest h0 0 (.x 4) (.x 5)) ∧
  dec 0x408000000800 = .ok (.mopd h0 (.x 0) false (.tensor 1)) ∧
  dec 0x408000040006 = .ok (.mopd h0 (.x 0) false (.acc 0)) ∧
  dec 0x410001840001 = .ok (.mfmt h0 3 8 true 0 false) ∧
  dec 0x410001048010 = .ok (.mfmt h0 2 9 false 0 true) ∧
  dec 0x428040000000 = .ok (.minit h0 (.a 0) 0) ∧
  dec 0x440020402106 = .ok (.mdrain h0 ⟨false, false⟩ 1 true false (.v 0) (.a 0) (some 2)) ∧
  dec 0x458060010000 = .ok (.mcbld h0 (.k 0) (.x 2)) ∧
  dec 0x300022018083 = .ok (.vld h0 (.v 4) (.x 3) 1 3) ∧
  dec 0x630080000000 = .ok (.xfence ⟨0, 1⟩) ∧
  dec 0x638003800000 = .ok (.xstat h0 false (.x 7)) ∧
  dec 0x820001800010 = .ok (.gmode h0 true true 16) ∧
  dec 0x800000000800 = .ok (.gload h0 (.x 0) 1) ∧
  dec 0x810001200000 = .ok (.gcolr h0 false 2 (.v 0) (.x 0)) ∧
  dec 0x818000048000 = .ok (.gbeta h0 (.x 9)) ∧
  dec 0x830000212080 = .ok (.gclmp h0 ⟨false, false⟩ (.v 2) (.v 1)) ∧
  dec 0x840000000002 = .ok (.gswp h0 2) ∧
  dec 0x850000000000 = .ok (.gcntc h0) ∧
  dec 0x8600A3000000 = .ok (.grdf ⟨0, 1⟩ (.v 6) (.x 0)) ∧
  dec 0x868002800000 = .ok (.gxch h0 (.x 5)) ∧
  dec 0x870001800000 = .ok (.gstat h0 false 0 (.x 3))

/-- Reserved words raise RSVD and privileged words in a tenant raise PRIV, whatever their other bits (R43, R46, R47, R48, R49, R325, R389). -/
def Obligations.IllegalWordsTrap : Prop :=
  (∀ (c : DCtx) (w : IWord), fTag w = 7 → decodeWord c w = .error .rsvd) ∧
  (∀ (c : DCtx) (w : IWord), fTag w = 0 → 0x38 ≤ fOp w → fOp w ≠ 0x3F → decodeWord c w = .error .rsvd) ∧
  (∀ (c : DCtx) (w : IWord), fOp w ≠ 0x3F → (fTag w = 1 ∧ 0x26 < fOp w ∨ fTag w = 2 ∧ 0x0D < fOp w ∨
    fTag w = 3 ∧ 0x07 < fOp w ∨ fTag w = 4 ∧ 0x0E < fOp w ∨ fTag w = 5 ∧ 0x0B < fOp w ∧ fOp w < 0x30 ∨
    fTag w = 5 ∧ 0x32 < fOp w ∨ fTag w = 6 ∧ 0x02 < fOp w) → decodeWord c w = .error .rsvd) ∧
  (∀ (c : DCtx) (w : IWord), c.ctx = .tenant → fTag w = 0 → 0x30 ≤ fOp w → fOp w ≤ 0x37 → decodeWord c w = .error .priv) ∧
  (∀ (c : DCtx) (w : IWord), c.ctx = .tenant → fTag w = 5 → 0x30 ≤ fOp w → fOp w ≤ 0x32 → decodeWord c w = .error .priv) ∧
  (∀ (c : DCtx) (w : IWord), c.ctx = .proof → fTag w = 5 → 0x30 ≤ fOp w → fOp w ≤ 0x32 → decodeWord c w = .error .priv) ∧
  (∀ (c : DCtx) (w : IWord), c.ctx = .press → fTag w = 0 → fOp w = 0x30 ∨ fOp w = 0x31 ∨ fOp w = 0x34 ∨ fOp w = 0x35 ∨ fOp w = 0x37 →
    decodeWord c w = .error .priv) ∧
  (∀ (l : BitVec 4) (h : Hdr) (d a b : BitVec 6) (w : IWord), encode (.frz h (.x d) (.x a) (.x b)) = some w →
    decodeWord ⟨.tenant, l⟩ w = .error .priv ∧ decodeWord ⟨.proof, l⟩ w = .ok (.frz h (.x d) (.x a) (.x b)) ∧
    decodeWord ⟨.press, l⟩ w = .ok (.frz h (.x d) (.x a) (.x b)))

/-- A step at a walker whose word decodes runs that instruction (R12, R13, R16, R37, R48, R53, R391, R392). -/
def Obligations.StepRunsTheDecodedWord : Prop :=
  ∀ (s : State) (c : Nat) (w : Walker) (i : Instr),
    s.inputs = [] → dueEvent s = none → endedCore s = none → nextWalker s = some (c, w) →
    ((s.core c).w w).blocked = false → ((s.core c).w w).readyAt ≤ (s.core c).time → ((s.core c).w w).passes < 4 →
    (s.core c).slipOk w = true → ((s.core c).w w).index < (s.core c).words →
    (isTransfer (s.textWord c ((s.core c).w w).index) = true → w = .C) →
    mine w (s.textWord c ((s.core c).w w).index) = true →
    (((s.core c).w w).rep = none → decodeWord (s.dctx c) (s.textWord c ((s.core c).w w).index) = .ok i →
      step s = exec (resolve s c i) (State.modW { s with cur := c, curW := w } c w (fun v => { v with addrAdd := 0 }))) ∧
    (∀ (r : RepSt) (word : IWord), ((s.core c).w w).rep = some r →
      steppedWord (s.textWord c ((s.core c).w w).index) ((r.iter : Int) * r.regstep) = some word →
      decodeWord (s.dctx c) word = .ok i →
      step s = exec (resolve s c i) (State.modW { s with cur := c, curW := w } c w
        (fun v => { v with addrAdd := (r.iter : Int) * r.addrstep * 16 })))

/-- A step runs an input, else a due event, else a kernel end, else a walker, else ends the cycle (R13, R15, R82). -/
def Obligations.StepRunsEventsFirst : Prop :=
  (∀ (s : State) (i : Instr) (l : List Instr), s.inputs = i :: l → step s = exec i { s with inputs := l }) ∧
  (∀ (s t : State) (i : Instr), s.inputs = [] → dueEvent s = some (i, t) → step s = exec i t) ∧
  (∀ (s : State) (c : Nat), s.inputs = [] → dueEvent s = none → endedCore s = some c → step s = exec (.kernelEnd c) s) ∧
  (∀ s : State, s.inputs = [] → dueEvent s = none → endedCore s = none → nextWalker s = none → step s = .next (tick s))

/-- Scalar sources and destinations: registers, x0, specials, and queues popped and pushed in order (R17, R28, R29, R34, R42, R59, R60, R61, R417). -/
def Obligations.ScalarOperands : Prop :=
  ((∀ (o : Origin) (s : State), (s.core o.core).scoreboard.contains 0 = false → (src o (.x 0)).run s = .ok (0, s)) ∧
  (∀ (o : Origin) (s : State) (r : BitVec 6), r ≠ 0 → (s.core o.core).scoreboard.contains r.toNat = false →
    (src o (.x r)).run s = .ok (Tbl.get (s.core o.core).x r.toNat 0, s)) ∧
  (∀ (o : Origin) (s : State) (r : BitVec 6), (s.core o.core).scoreboard.contains r.toNat = true →
    (src o (.x r)).run s = .error .stall) ∧
  (∀ (o : Origin) (s : State), (src o (.sp .core)).run s = .ok (BitVec.ofNat 64 (o.core % 256), s) ∧
    (src o (.sp .gang)).run s =
      .ok (BitVec.ofNat 64 ((s.core o.core).gangCount.toNat * 256 + (s.core o.core).gangIndex.toNat), s) ∧
    (src o (.sp .vf)).run s = .ok ((s.core o.core).vf.setWidth 64, s) ∧
    (src o (.sp .gen)).run s = .ok ((s.gen (s.core o.core).vf).setWidth 64, s) ∧
    (src o (.sp .step)).run s = .ok ((s.core o.core).step, s) ∧ (src o (.sp .clk)).run s = .ok ((s.core o.core).clk, s)) ∧
  (∀ (o : Origin) (s : State), ∃ b : Nat, b < 32 ∧
    (∀ i, i < 32 → Tbl.get (s.core o.core).bankLoss i 0 ≤ Tbl.get (s.core o.core).bankLoss b 0 ∧
      (Tbl.get (s.core o.core).bankLoss i 0 = Tbl.get (s.core o.core).bankLoss b 0 → b ≤ i)) ∧
    (src o (.sp .bankloss)).run s = .ok (BitVec.ofNat 64 (b * 2 ^ 48 +
      min 0xFFFF (Tbl.get (s.core o.core).bankLoss b 0) * 2 ^ 32 +
      min 0xFFFFFFFF ((List.range 32).map (fun i => Tbl.get (s.core o.core).bankLoss i 0)).sum), s)) ∧
  (∀ (o : Origin) (s : State) (hi lo : Walker), hi ∈ (s.core o.core).counted → lo ∈ (s.core o.core).counted →
    (∀ w ∈ (s.core o.core).counted, ((s.core o.core).w w).steps < ((s.core o.core).w hi).steps ∨
      ((s.core o.core).w w).steps = ((s.core o.core).w hi).steps ∧ walkerNum hi ≤ walkerNum w) →
    (∀ w ∈ (s.core o.core).counted, ((s.core o.core).w lo).steps < ((s.core o.core).w w).steps ∨
      ((s.core o.core).w w).steps = ((s.core o.core).w lo).steps ∧ walkerNum lo ≤ walkerNum w) →
    (src o (.sp .slipnow)).run s = .ok (BitVec.ofNat 64 (walkerNum hi * 2 ^ 45 + walkerNum lo * 2 ^ 42 +
      (s.core o.core).stalls * 2 ^ 13 + min 0x1FFF (((s.core o.core).w hi).steps - ((s.core o.core).w lo).steps)), s)) ∧
  (∀ (o : Origin) (s : State), (s.core o.core).counted = [] →
    (src o (.sp .slipnow)).run s = .ok (BitVec.ofNat 64 ((s.core o.core).stalls * 2 ^ 13), s)) ∧
  (∀ (o : Origin) (s : State) (q : BitVec 5), s.queue o.core q.toNat = [] → (src o (.q q)).run s = .error .stall) ∧
  (∀ (o : Origin) (s : State) (q : BitVec 5) (e : QEntry) (l : List QEntry), s.queue o.core q.toNat = e :: l →
    (e.wait ≠ none → (src o (.q q)).run s = .error .stall) ∧
    (e.wait = none → ∃ t, (src o (.q q)).run s = .ok (if e.tag = s.ownTag o.core ∧ e.tag.gen ≠ 0 then e.val else 0, t) ∧
      t.queue o.core q.toNat = l ∧ t.mem = s.mem ∧ ∀ c, (t.core c).x = (s.core c).x))) ∧
  ((∀ (o : Origin) (s : State) (v : Word), (s.core o.core).scoreboard.contains 0 = false →
    ∃ t, (dst o (.x 0) v).run s = .ok ((), t) ∧ ∀ c, t.core c = s.core c) ∧
  (∀ (o : Origin) (s : State) (r : BitVec 6) (v : Word), r ≠ 0 → (s.core o.core).scoreboard.contains r.toNat = false →
    (dst o (.x r) v).run s =
      .ok ((), s.modCore o.core (fun k => { k with latches := k.latches ++ [.xreg r v] }))) ∧
  (∀ (o : Origin) (s : State) (q : BitVec 5) (v : Word), q.toNat < 16 →
    (s.queue o.core q.toNat).length + Tbl.get (s.core o.core).popped q.toNat 0 < 16 →
    (∀ e ∈ s.queue o.core q.toNat, e.wait ≠ some o.age) →
    ∃ t, (dst o (.q q) v).run s = .ok ((), t) ∧
      t.queue o.core q.toNat = s.queue o.core q.toNat ++ [⟨s.ownTag o.core, v, none⟩] ∧ t.mem = s.mem) ∧
  (∀ (o : Origin) (s : State) (q : BitVec 5) (v : Word), s.queueRoom o.core q = false →
    (dst o (.q q) v).run s = .error .stall))

/-- At the end of a cycle a core's latches take force and CLK advances; a frozen core stands still (R17, R18, R19, R20, R22, R34, R61, R74, R390). -/
def Obligations.LatchesApplyAtCycleEnd : Prop :=
  (∀ (s : State) (c : Nat), (s.core c).frozen ≠ none → tickCore s c = s) ∧
  (∀ (s : State) (c : Nat), (s.core c).frozen = none →
    ((tickCore s c).core c).time = (s.core c).time + 1 ∧
    ((tickCore s c).core c).clk = (if (s.core c).live then (s.core c).clk + 1 else (s.core c).clk) ∧
    ((tickCore s c).core c).latches = [] ∧ ((s.core c).latches.any Latch.isTidy = false → (tickCore s c).mem = s.mem)) ∧
  (∀ (s : State) (c : Nat) (r : BitVec 6), (s.core c).frozen = none →
    (∀ v, Latch.xreg r v ∉ (s.core c).latches) → ((tickCore s c).core c).readX r = (s.core c).readX r) ∧
  (∀ (s : State) (c : Nat) (l1 l2 : List Latch) (r : BitVec 6) (v : Word), (s.core c).frozen = none → r ≠ 0 →
    (s.core c).latches = l1 ++ .xreg r v :: l2 → (∀ u, Latch.xreg r u ∉ l2) → ((tickCore s c).core c).readX r = v) ∧
  (∀ (s : State) (c : Nat) (l1 l2 : List Latch) (n : Nat), (s.core c).frozen = none →
    (s.core c).latches = l1 ++ .slip n :: l2 → (∀ m, Latch.slip m ∉ l2) → ((tickCore s c).core c).slip = n) ∧
  (∀ (s : State) (c : Nat) (l1 l2 : List Latch) (n p : BitVec 6) (f : Byte), (s.core c).frozen = none →
    (s.core c).latches = l1 ++ .view n p f :: l2 → (∀ p' f', Latch.view n p' f' ∉ l2) →
    ((tickCore s c).core c).viewReg n = ⟨f, p⟩) ∧
  (∀ (s : State) (c : Nat) (l1 l2 : List Latch) (n : BitVec 4) (p : BitVec 6), (s.core c).frozen = none →
    (s.core c).latches = l1 ++ .aview n p :: l2 → (∀ p', Latch.aview n p' ∉ l2) →
    ((tickCore s c).core c).aviewReg n = ⟨0x0A, p⟩) ∧
  (∀ (s : State) (c : Nat) (l1 l2 : List Latch) (v : Bool), (s.core c).frozen = none →
    (s.core c).latches = l1 ++ .version v :: l2 → (∀ u, Latch.version u ∉ l2) → (tickCore s c).rv = v) ∧
  (∀ (s : State) (c off n : Nat), (s.core c).frozen = none → Latch.fill off n ∈ (s.core c).latches →
    (tickCore s c).full c off n = true) ∧
  (∀ (s : State) (c : Nat) (l1 l2 : List Latch) (n : BitVec 4) (v : Byte), (s.core c).frozen = none →
    tagOk (s.ownTag c) (s.ownTag c) = true → (s.core c).latches = l1 ++ .sem n v :: l2 → (∀ u, Latch.sem n u ∉ l2) →
    (∀ o, Latch.tidy o ∈ (s.core c).latches → o.post ≠ n ∧ o.post2 ≠ n) → (tickCore s c).semVal c n = v.toNat) ∧
  (∀ (s : State) (c : Nat) (l1 l2 : List Latch) (o : Origin), (s.core c).frozen = none → o.core = c → o.post ≠ 0 →
    o.post2 ≠ o.post → tagOk (s.ownTag c) (s.ownTag c) = true → (s.core c).latches = l1 ++ .tidy o :: l2 →
    (∀ u, Latch.sem o.post u ∉ l1 ++ l2) → (∀ p, Latch.tidy p ∈ l1 ++ l2 → p.post ≠ o.post ∧ p.post2 ≠ o.post) →
    s.semVal c o.post < 255 → (tickCore s c).semVal c o.post = s.semVal c o.post + 1)

/-- ADD to SLTU, CLZ, POPC, ADDI, ANDI and ORI give the results of R63, R64 and R65 (R19, R34, R59, R63, R64, R65). -/
def Obligations.ArithmeticWordsComplete : Prop :=
  (∀ (i : Instr) (h : Hdr) (d a b : Name) (f : Word → Word → Word) (s s1 s2 s3 : State) (x y : Word),
    binaryWord i = some (h, d, a, b, f) → s.mayIssue .C h.wait →
    (src (s.word .C h) a).run (s.waited h.wait) = .ok (x, s1) → (src (s.word .C h) b).run s1 = .ok (y, s2) →
    (dst (s.word .C h) d (f x y)).run s2 = .ok ((), s3) →
    exec i s = .next (s3.settles s .C h 1 [])) ∧
  (∀ (i : Instr) (h : Hdr) (d a : Name) (f : Word → Word) (s s1 s2 : State) (x : Word),
    unaryWord i = some (h, d, a, f) → s.mayIssue .C h.wait →
    (src (s.word .C h) a).run (s.waited h.wait) = .ok (x, s1) →
    (dst (s.word .C h) d (f x)).run s1 = .ok ((), s2) →
    exec i s = .next (s2.settles s .C h 1 []))

/-- NOP has no effect beyond its wait and post fields, complete at issue; the all-zero word is a NOP without either (R62). -/
def Obligations.NopRule : Prop :=
  (∀ (h : Hdr) (s : State), s.mayIssue .C h.wait →
    exec (.nop h) s = .next (((s.waited h.wait).complete (s.word .C h)).advanced s .C 1)) ∧
  (∀ s : State, s.mayIssue .C 0 → (s.core s.cur).wC.rep = none →
    exec (.nop ⟨0, 0⟩) s = .next (s.modW s.cur .C (fun v => v.advance ((s.core s.cur).time + 1)))) ∧
  (∀ (h : Hdr) (s : State) (n : BitVec 4), s.mayIssue .C h.wait → (s.core s.cur).wC.rep = none → h.post = n → n ≠ 0 → n ≠ h.wait →
    s.semVal s.cur n + s.grantedWaits s.cur n < 255 → ∃ t : State, exec (.nop h) s = .next t ∧ t.semVal s.cur n = s.semVal s.cur n + 1 ∧
      t.mem = s.mem ∧ t.tags = s.tags ∧ (∀ r, (t.core s.cur).readX r = (s.core s.cur).readX r) ∧
      (t.core s.cur).wC.pend = (s.core s.cur).wC.pend ∧ (∀ c, c ≠ s.cur → t.core c = s.core c)) ∧
  (∀ c : DCtx, decodeWord c 0 = .ok (.nop ⟨0, 0⟩))

/-- LI, LIU and SEL give the values of R63 and R64; MUL and MULH land a half of the exact product three cycles on (R34, R60, R63, R64). -/
def Obligations.ImmediatesAndProductsComplete : Prop :=
  ((∀ (h : Hdr) (d : Name) (imm : BitVec 23) (s t : State), s.mayIssue .C h.wait →
    (dst (s.word .C h) d (imm.signExtend 64)).run (s.waited h.wait) = .ok ((), t) →
    exec (.li h d imm) s = .next (t.settles s .C h 1 [])) ∧
  (∀ (h : Hdr) (d : Name) (imm : BitVec 23) (s s1 t : State) (x : Word), s.mayIssue .C h.wait →
    (src (s.word .C h) d).run (s.waited h.wait) = .ok (x, s1) →
    (dst (s.word .C h) d (BitVec.ofNat 64 (x.toNat * 2 ^ 23 + imm.toNat))).run s1 = .ok ((), t) →
    exec (.liu h d imm) s = .next (t.settles s .C h 1 [])) ∧
  (∀ (h : Hdr) (d a b : Name) (s s1 s2 s3 t : State) (m x y : Word), s.mayIssue .C h.wait →
    (src (s.word .C h) d).run (s.waited h.wait) = .ok (m, s1) → (src (s.word .C h) a).run s1 = .ok (x, s2) →
    (src (s.word .C h) b).run s2 = .ok (y, s3) →
    (dst (s.word .C h) d (if m = 0 then y else x)).run s3 = .ok ((), t) →
    exec (.sel h d a b) s = .next (t.settles s .C h 1 []))) ∧
  ((∀ (h : Hdr) (d a b : Name) (s s1 s2 s3 : State) (x y : Word), s.mayIssue .C h.wait →
    (src (s.word .C h) a).run (s.waited h.wait) = .ok (x, s1) → (src (s.word .C h) b).run s1 = .ok (y, s2) →
    (reserve (s.word .C h) d).run s2 = .ok ((), s3) →
    exec (.mul h d a b) s = .next (s3.landsLater s .C h 1 3
      (.scalarResultLands (s.word .C h) d (BitVec.ofInt 64 (x.toInt * y.toInt))))) ∧
  (∀ (h : Hdr) (u : Bool) (d a b : Name) (s s1 s2 s3 : State) (x y : Word), s.mayIssue .C h.wait →
    (src (s.word .C h) a).run (s.waited h.wait) = .ok (x, s1) → (src (s.word .C h) b).run s1 = .ok (y, s2) →
    (reserve (s.word .C h) d).run s2 = .ok ((), s3) →
    exec (.mulh h u d a b) s = .next (s3.landsLater s .C h 1 3
      (.scalarResultLands (s.word .C h) d
        (if u then BitVec.ofNat 64 (x.toNat * y.toNat / 2 ^ 64) else BitVec.ofInt 64 (x.toInt * y.toInt / 2 ^ 64))))))

/-- BR, CALL, RET and LOOP go where their condition and the return stack send them (R14, R41, R66, R67, R68). -/
def Obligations.TransfersComplete : Prop :=
  (∀ (h : Hdr) (cond : BitVec 4) (r : Name) (off : BitVec 19) (s s1 : State) (v : Word) (tgt : Nat),
    cond.toNat < 8 → s.mayIssue .C h.wait → (condSrc (s.word .C h) cond r).run (s.waited h.wait) = .ok (v, s1) →
    (s1.core s.cur).outcomesRoom = true →
    (condTrue cond v = true → ((s.word .C h).index : Int) + off.toInt = tgt ∧ tgt < (s1.core s.cur).words) →
    (condTrue cond v = false → tgt = ((s1.core s.cur).target (s.word .C h).index off).getD 0) →
    exec (.br h cond r off) s =
      .next (s1.transfers s h (condTrue cond v) tgt (s1.core s.cur).retStack)) ∧
  (∀ (h : Hdr) (cond : BitVec 4) (r : Name) (off : BitVec 19) (s s1 : State) (v : Word) (tgt : Nat),
    cond.toNat < 8 → s.mayIssue .C h.wait → (condSrc (s.word .C h) cond r).run (s.waited h.wait) = .ok (v, s1) →
    (s1.core s.cur).outcomesRoom = true → condTrue cond v = true →
    ((s.word .C h).index : Int) + off.toInt = tgt → tgt < (s1.core s.cur).words →
    (s1.core s.cur).retStack.length < 16 →
    exec (.call h cond r off) s =
      .next (s1.transfers s h true tgt (((s.word .C h).index + 1) :: (s1.core s.cur).retStack))) ∧
  (∀ (h : Hdr) (cond : BitVec 4) (r : Name) (s s1 : State) (v : Word) (tgt : Nat) (l : List Nat),
    cond.toNat < 8 → s.mayIssue .C h.wait → (condSrc (s.word .C h) cond r).run (s.waited h.wait) = .ok (v, s1) →
    (s1.core s.cur).outcomesRoom = true → condTrue cond v = true →
    (s1.core s.cur).retStack = tgt :: l → tgt < (s1.core s.cur).words →
    exec (.ret h cond r) s = .next (s1.transfers s h true tgt l)) ∧
  (∀ (h : Hdr) (cond : BitVec 4) (r : Name) (off : BitVec 19) (s s1 s2 : State) (v : Word) (tgt : Nat),
    cond.toNat < 8 → s.mayIssue .C h.wait → (src (s.word .C h) r).run (s.waited h.wait) = .ok (v, s1) →
    (dst (s.word .C h) r (BitVec.ofInt 64 (v.toInt - 1))).run s1 = .ok ((), s2) →
    (s2.core s.cur).outcomesRoom = true → condTrue cond (BitVec.ofInt 64 (v.toInt - 1)) = true →
    ((s.word .C h).index : Int) + off.toInt = tgt → tgt < (s1.core s.cur).words →
    exec (.loop h cond r off) s = .next (s2.transfers s h true tgt (s1.core s.cur).retStack))

/-- A transfer whose condition fails goes on at the next word; one without a target or a place on the return stack raises ADDR (R14, R66, R67, R68, R318). -/
def Obligations.TransfersStay : Prop :=
  ((∀ (h : Hdr) (cond : BitVec 4) (r : Name) (off : BitVec 19) (s s1 : State) (v : Word),
    cond.toNat < 8 → s.mayIssue .C h.wait → (condSrc (s.word .C h) cond r).run (s.waited h.wait) = .ok (v, s1) →
    (s1.core s.cur).outcomesRoom = true → condTrue cond v = false →
    (∃ tgt, exec (.br h cond r off) s = .next (s1.transfers s h false tgt (s1.core s.cur).retStack)) ∧
    (∃ tgt, exec (.call h cond r off) s = .next (s1.transfers s h false tgt (s1.core s.cur).retStack)) ∧
    (∃ tgt, exec (.ret h cond r) s = .next (s1.transfers s h false tgt (s1.core s.cur).retStack))) ∧
  (∀ (h : Hdr) (cond : BitVec 4) (r : Name) (off : BitVec 19) (s s1 s2 : State) (v : Word),
    cond.toNat < 8 → s.mayIssue .C h.wait → (src (s.word .C h) r).run (s.waited h.wait) = .ok (v, s1) →
    (dst (s.word .C h) r (BitVec.ofInt 64 (v.toInt - 1))).run s1 = .ok ((), s2) →
    (s2.core s.cur).outcomesRoom = true → condTrue cond (BitVec.ofInt 64 (v.toInt - 1)) = false →
    ∃ tgt, exec (.loop h cond r off) s = .next (s2.transfers s h false tgt (s1.core s.cur).retStack))) ∧
  (∀ (h : Hdr) (r : Name) (off : BitVec 19) (s : State), s.mayIssue .C h.wait → h.wait = 0 →
    (s.core s.cur).outcomesRoom = true →
    let o := { s.word .C h with post2 := 0 }
    let trap := .next ((s.takeTrap o .addr 0 ((s.core s.cur).base + 6 * o.index)).stalled s.cur .C)
    (((s.word .C h).index : Int) + off.toInt < 0 ∨ ((s.core s.cur).words : Int) ≤ (s.word .C h).index + off.toInt →
      exec (.br h 0 r off) s = trap) ∧
    ((s.core s.cur).retStack.length = 16 → exec (.call h 0 r off) s = trap) ∧
    ((s.core s.cur).retStack = [] → exec (.ret h 0 r) s = trap))

/-- SPL and FIL of each size complete: a register, eight registers or 512 bytes to and from spill memory (R9, R27, R34, R60, R72, R220). -/
def Obligations.SpillFillComplete : Prop :=
  (∀ (h : Hdr) (d : BitVec 6) (off : BitVec 15) (s : State) (p : Nat), s.mayIssue .C h.wait →
    (off.toNat : Int) + ((s.core s.cur).w .C).addrAdd = p → p % 8 = 0 → p + 8 ≤ 2 ^ 14 →
    ((s.waited h.wait).core s.cur).scoreboard.contains d.toNat = false →
    ((s.waited h.wait).core s.cur).acquiring = false →
    exec (.spl h 0 (.x d) off) s = .next (State.settles ((s.waited h.wait).write ((s.waited h.wait).ownTag s.cur)
      (keySpill s.cur p) (leBytes 8 (((s.waited h.wait).core s.cur).readX d).toNat)) s .C h 1 [])) ∧
  (∀ (h : Hdr) (d : BitVec 6) (off : BitVec 15) (s : State) (p : Nat), s.mayIssue .C h.wait →
    (off.toNat : Int) + ((s.core s.cur).w .C).addrAdd = p → p % 64 = 0 → p + 64 ≤ 2 ^ 14 →
    (∀ i < 8, ((s.waited h.wait).core s.cur).scoreboard.contains (d + BitVec.ofNat 6 i).toNat = false) →
    ((s.waited h.wait).core s.cur).acquiring = false →
    exec (.spl h 1 (.x d) off) s = .next (State.settles ((s.waited h.wait).write ((s.waited h.wait).ownTag s.cur)
      (keySpill s.cur p) ((List.range 8).flatMap (fun i =>
        leBytes 8 (((s.waited h.wait).core s.cur).readX (d + BitVec.ofNat 6 i)).toNat))) s .C h 1 [])) ∧
  (∀ (h : Hdr) (d : BitVec 6) (off : BitVec 15) (s t : State) (p : Nat), s.mayIssue .C h.wait →
    (off.toNat : Int) + ((s.core s.cur).w .C).addrAdd = p → p % 8 = 0 → p + 8 ≤ 2 ^ 14 →
    (reserve (s.word .C h) (.x d)).run (s.waited h.wait) = .ok ((), t) →
    ((s.waited h.wait).core s.cur).acquiring = false →
    exec (.fil h 0 (.x d) off) s = .next (t.landsLater s .C h 1 1
      (.scalarResultLands (s.word .C h) (.x d) ((s.waited h.wait).spilled s.cur p)))) ∧
  (∀ (h : Hdr) (d : BitVec 6) (off : BitVec 15) (s : State) (p : Nat), s.mayIssue .C h.wait →
    (off.toNat : Int) + ((s.core s.cur).w .C).addrAdd = p → p % 64 = 0 → p + 64 ≤ 2 ^ 14 →
    (∀ i < 8, ((s.waited h.wait).core s.cur).scoreboard.contains (d + BitVec.ofNat 6 i).toNat = false) →
    ((s.waited h.wait).core s.cur).acquiring = false →
    exec (.fil h 1 (.x d) off) s = .next (State.advanced ((List.range 8).foldl (fun t i =>
      t.comes (if i = 7 then s.word .C h else quiet (s.word .C h)) (d + BitVec.ofNat 6 i) 1
        ((s.waited h.wait).spilled s.cur (p + 8 * i))) (s.waited h.wait)) s .C 1)) ∧
  (∀ (h : Hdr) (d : BitVec 6) (off : BitVec 15) (s : State) (p a : Nat), s.mayIssue .C h.wait →
    (off.toNat : Int) + ((s.core s.cur).w .C).addrAdd = p → p % 512 = 0 → p + 512 ≤ 2 ^ 14 →
    ((s.waited h.wait).core s.cur).scoreboard.contains d.toNat = false →
    (((s.waited h.wait).core s.cur).readX d).toNat = a → a % 512 = 0 → a + 512 ≤ 0x40000 →
    (s.waited h.wait).full s.cur a 512 = true → (s.waited h.wait).hits s.cur (keyRS s.cur a) 512 = false →
    ((s.waited h.wait).core s.cur).acquiring = false →
    ((s.waited h.wait).core s.cur).queuesMeet (keyRS s.cur a) 512 = false →
    (((s.waited h.wait).core s.cur).inText a 512 = false →
      exec (.fil h 2 (.x d) off) s = .next ((s.waited h.wait).landsLater s .C h 8 8
        (.vectorResultLands (s.word .C h) (keyRS s.cur a)
          ((s.waited h.wait).read ((s.waited h.wait).ownTag s.cur) (keySpill s.cur p) 512) 0))) ∧
    ((s.waited h.wait).wins s .C (banksOf a 512) →
      let t := (s.waited h.wait).claims s .C (banksOf a 512)
      exec (.spl h 2 (.x d) off) s = .next (State.landsLater (t.write (t.ownTag s.cur) (keySpill s.cur p)
        (t.read (t.ownTag s.cur) (keyRS s.cur a) 512)) s .C h 8 8 (.scalarResultLands (s.word .C h) (.x 0) 0))))

/-- VIEW binds a view to an aligned page, SLIPW sets SLIP, SEMI sets a semaphore, from the next cycle (R17, R18, R19, R73, R74, R75, R76). -/
def Obligations.SettingWordsComplete : Prop :=
  (∀ (h : Hdr) (n : BitVec 6) (a : Name) (f : Byte) (s s1 : State) (v : Word), s.mayIssue .C h.wait →
    (src (s.word .C h) a).run (s.waited h.wait) = .ok (v, s1) → v.toNat % 4096 = 0 → v.toNat + 4096 ≤ 0x40000 →
    exec (.view h (.v n) a f) s = .next (s1.settles s .C h 1 [.view n (BitVec.ofNat 6 (v.toNat / 4096)) f])) ∧
  (∀ (h : Hdr) (n : BitVec 4) (a : Name) (f : Byte) (s s1 : State) (v : Word), s.mayIssue .C h.wait →
    (src (s.word .C h) a).run (s.waited h.wait) = .ok (v, s1) → v.toNat % 4096 = 0 → v.toNat + 12288 ≤ 0x40000 →
    exec (.view h (.a n) a f) s = .next (s1.settles s .C h 1 [.aview n (BitVec.ofNat 6 (v.toNat / 4096))])) ∧
  (∀ (h : Hdr) (n : BitVec 13) (s : State), s.mayIssue .C h.wait →
    exec (.slipw h n) s = .next ((s.waited h.wait).settles s .C h 1 [.slip n.toNat])) ∧
  (∀ (h : Hdr) (n v : Byte) (s : State), s.mayIssue .C h.wait →
    exec (.semi h n v) s = .next ((s.waited h.wait).settles s .C h 1 [.sem (n.setWidth 4) v]))

/-- HALT halts the control walker once the others are idle; TRAP posts, goes on a word, and takes its trap (R82, R83, R318). -/
def Obligations.HaltTrapComplete : Prop :=
  (∀ (h : Hdr) (s : State), s.mayIssue .C h.wait → ((s.waited h.wait).core s.cur).started = [] →
    exec (.halt h) s = .next (((s.waited h.wait).begin (s.word .C h)).modW s.cur .C
      (fun v => { v with st := .halted, readyAt := ((s.waited h.wait).core s.cur).time + 1 }))) ∧
  (∀ (h : Hdr) (s : State), s.mayIssue .C h.wait → ((s.waited h.wait).core s.cur).started ≠ [] →
    exec (.halt h) s = .next (s.stalled s.cur .C)) ∧
  (∀ (h : Hdr) (code : BitVec 23) (s : State), s.mayIssue .C h.wait →
    exec (.trap h code) s = .next ((((s.waited h.wait).complete (s.word .C h)).modW s.cur .C
      (fun v => v.advance (((s.waited h.wait).core s.cur).time + 1))).takeTrap (s.word .C h) .trap code.toNat 0))

/-- Taking a trap: the core freezes and is saved, the gang follows 16 uncore cycles on, and the record goes to its owner (R315, R318, R319, R342). -/
def Obligations.TrapEntry : Prop :=
  (∀ (o : Origin) (cls : TrapClass) (code addr : Nat) (s : State), (s.core o.core).frozen ≠ none →
    exec (.trapFreeze o cls code addr) s = .next s) ∧
  (∀ (o : Origin) (cls : TrapClass) (code addr : Nat) (s : State) (gv : Gang), (s.core o.core).frozen = none →
    (s.core o.core).ctx = .tenant → s.gang (s.core o.core).gang = some gv → gv.frozen = none → 1 < gv.cores.length →
    exec (.trapFreeze o cls code addr) s = .next ((s.trapped o gv cls code addr).after 32
      (.gangFreezeFollow (s.core o.core).gang))) ∧
  (∀ (o : Origin) (cls : TrapClass) (code addr : Nat) (s : State) (gv : Gang), (s.core o.core).frozen = none →
    (s.core o.core).ctx = .tenant → s.gang (s.core o.core).gang = some gv → gv.frozen = none → gv.cores.length ≤ 1 →
    exec (.trapFreeze o cls code addr) s = .next ((s.trapped o gv cls code addr).after 2700
      (.saveWritten (s.core o.core).gang .trap o (.x 0)))) ∧
  (∀ (o : Origin) (cls : TrapClass) (code addr : Nat) (s : State), (s.core o.core).frozen = none →
    (s.core o.core).ctx ≠ .tenant →
    exec (.trapFreeze o cls code addr) s = .next ((s.modCore o.core (fun k => { k with frozen := some .trap })).send
      (.pressLog (recordBytes true cls o (s.core o.core) (s.gen (s.core o.core).vf) code addr s.now)))) ∧
  (∀ (gang : Nat) (s : State) (gv : Gang), s.gang gang = some gv →
    exec (.gangFreezeFollow gang) s = .next ((s.freezeRest gang gv .trap).after 2700
      (.saveWritten gang .trap noOrigin (.x 0)))) ∧
  (∀ (gang : Nat) (o : Origin) (s : State) (gv : Gang) (p : Origin) (bs : List Byte), s.gang gang = some gv →
    gv.frozen = some .trap → gv.cores.any (fun c => (s.home gang c).wordsOut) = false → gv.records = [(p, bs)] →
    (s.saveNow gang).recordMay gang p = true →
    exec (.saveWritten gang .trap o (.x 0)) s = .next (((s.saveNow gang).putRecord gv.vf gv.area gv.areaHost bs).modGang gang
      (fun v => { v with records := [] }))) ∧
  (∀ (o : Origin) (cls : TrapClass) (k : Core) (gen : Byte) (code addr now : Nat),
    (recordBytes false cls o k gen code addr now).length = 64 ∧ (recordBytes true cls o k gen code addr now).length = 64)

/-- LD and LDA enter the load queue, ST and STL the store queue, MARK both; FENCE holds its walker until its release (R53, R69, R70, R216, R219, R222, R245, R246, R247). -/
def Obligations.MemoryWordsIssue : Prop :=
  ((∀ (h : Hdr) (size : BitVec 2) (sx rs : Bool) (d a b : Name) (s s1 s2 s3 : State) (x y : Word) (key : Nat),
    s.mayIssue .C h.wait → (src (s.word .C h) a).run (s.waited h.wait) = .ok (x, s1) →
    (src (s.word .C h) b).run s1 = .ok (y, s2) → (s2.core s.cur).loads < 16 →
    let ea := x + y + BitVec.ofInt 64 ((s2.core s.cur).w .C).addrAdd
    memPlace s2 s.cur rs false ea.toNat (2 ^ size.toNat) = some key →
    s2.accessFree s.cur (some key) (2 ^ size.toNat) = true →
    (reserve (s.word .C h) d).run s2 = .ok ((), s3) →
    exec (.ld h size sx rs d a b) s = .next (((s3.begin (s.word .C h)).pushL s.cur
      ⟨s.word .C h, .load (2 ^ size.toNat) sx key d false, none⟩).advanced s .C 1)) ∧
  (∀ (h : Hdr) (size : BitVec 2) (sx rs : Bool) (sc : Scope) (d a : Name) (s s1 s3 : State) (x : Word) (key : Nat),
    s.mayIssue .C h.wait → (src (s.word .C h) a).run (s.waited h.wait) = .ok (x, s1) →
    (demandScope (s.word .C h) sc).run s1 = .ok ((), s1) → (s1.core s.cur).loads < 16 →
    let ea := x + BitVec.ofInt 64 ((s1.core s.cur).w .C).addrAdd
    memPlace s1 s.cur rs false ea.toNat (2 ^ size.toNat) = some key →
    s1.accessFree s.cur (some key) (2 ^ size.toNat) = true →
    (reserve (s.word .C h) d).run s1 = .ok ((), s3) →
    exec (.lda h size sx rs sc d a) s = .next (((s3.begin (s.word .C h)).pushL s.cur
      ⟨s.word .C h, .load (2 ^ size.toNat) sx key d true, none⟩).advanced s .C 1))) ∧
  ((∀ (h : Hdr) (size : BitVec 2) (rs : Bool) (d a b : Name) (s s1 s2 s3 : State) (v x y : Word) (key : Nat),
    s.mayIssue .C h.wait → (src (s.word .C h) d).run (s.waited h.wait) = .ok (v, s1) →
    (src (s.word .C h) a).run s1 = .ok (x, s2) → (src (s.word .C h) b).run s2 = .ok (y, s3) →
    (s3.core s.cur).stores < 16 →
    let ea := x + y + BitVec.ofInt 64 ((s3.core s.cur).w .C).addrAdd
    memPlace s3 s.cur rs true ea.toNat (2 ^ size.toNat) = some key →
    s3.accessFree s.cur (some key) (2 ^ size.toNat) = true →
    (rs = true → (s3.core s.cur).inText ea.toNat (2 ^ size.toNat) = false) →
    exec (.st h size rs d a b) s = .next (((s3.begin (s.word .C h)).pushS s.cur
      ⟨s.word .C h, .store (2 ^ size.toNat) key v none, some ((s3.core s.cur).time + memLatency key)⟩).advanced s .C 1)) ∧
  (∀ (h : Hdr) (size : BitVec 2) (rs : Bool) (sc : Scope) (d a : Name) (s s1 s2 : State) (v x : Word) (key : Nat),
    s.mayIssue .C h.wait → (src (s.word .C h) d).run (s.waited h.wait) = .ok (v, s1) →
    (src (s.word .C h) a).run s1 = .ok (x, s2) → (demandScope (s.word .C h) sc).run s2 = .ok ((), s2) →
    (s2.core s.cur).stores < 16 →
    let ea := x + BitVec.ofInt 64 ((s2.core s.cur).w .C).addrAdd
    memPlace s2 s.cur rs true ea.toNat (2 ^ size.toNat) = some key →
    s2.accessFree s.cur (some key) (2 ^ size.toNat) = true →
    (rs = true → (s2.core s.cur).inText ea.toNat (2 ^ size.toNat) = false) →
    exec (.stl h size rs sc d a) s = .next (((s2.begin (s.word .C h)).pushS s.cur
      ⟨s.word .C h, .store (2 ^ size.toNat) key v (some sc), none⟩).advanced s .C 1)) ∧
  (∀ (h : Hdr) (s : State), s.mayIssue .C h.wait → ((s.waited h.wait).core s.cur).loads < 16 →
    ((s.waited h.wait).core s.cur).stores < 16 →
    exec (.mark h) s = .next (((((s.waited h.wait).begin (s.word .C h)).pushS s.cur ⟨s.word .C h, .mark, none⟩).pushL
      s.cur ⟨s.word .C h, .mark, none⟩).advanced s .C 1)) ∧
  (∀ (h : Hdr) (sc : Scope) (s : State), s.mayIssue .C h.wait →
    (demandScope (s.word .C h) sc).run (s.waited h.wait) = .ok ((), s.waited h.wait) →
    exec (.fence h sc) s = .next (((((s.waited h.wait).begin (s.word .C h)).modW s.cur .C
      (fun v => { v with blocked := true })).later s.cur 2
        (.releaseTakesEffect (s.word .C h) sc (s.word .C h).age .fence)).advanced s .C 1)))

/-- The load at the head of its queue reads its bytes, and the store at the head of its queue writes them, little end first (R3, R8, R9, R34, R70, R216, R217, R220, R246, R319). -/
def Obligations.QueueHeadsPerform : Prop :=
  ((∀ (c : Nat) (s : State) (o : Origin) (n : Nat) (sx : Bool) (key : Nat) (d : Name) (l : List QOp) (r : Option Nat),
    (s.core c).lq = ⟨o, .load n sx key d false, r⟩ :: l → isVault key = true →
    (∀ e ∈ (s.core c).sq, e.o.age < o.age → e.bytes = none) → l ≠ [] →
    exec (.loadPerforms c) s = .next ((((s.noteBad (s.ownTag c) key n).modCore c (fun k => { k with lq := l })).later c 12
      (.scalarResultLands o d (if sx then BitVec.ofInt 64 (signedOf (8 * n) (leNat (s.readClean (s.ownTag c) key n)))
        else BitVec.ofNat 64 (leNat (s.readClean (s.ownTag c) key n))))).later c 0 (.loadPerforms c))) ∧
  (∀ (c : Nat) (s : State) (e f : QOp) (l l' : List QOp), (s.core c).lq = e :: l → (s.core c).sq = f :: l' →
    e.op = .mark → f.op = .mark → e.o.age = f.o.age →
    exec (.loadPerforms c) s = .next (State.againL ((s.modCore c (fun k => { k with lq := l, sq := l' })).finish e.o) c 0))) ∧
  ((∀ (s : State) (tag : Tag) (key : Nat) (bs : List Byte), (∀ i < bs.length, s.recordByte tag.vf (key + i) = false) →
    s.writeUser tag key bs = s.write tag key bs) ∧
  (∀ (c : Nat) (s : State) (o : Origin) (n key r : Nat) (v : Word) (rel : Option Scope) (l : List QOp),
    (s.core c).sq = ⟨o, .store n key v rel, some r⟩ :: l → isVault key = true → r ≤ (s.core c).time →
    (s.core c).lq = [] →
    exec (.storePerforms c) s = .next (State.againS ((((s.writeUser (s.ownTag c) key (leBytes n v.toNat)).noteAction key n).modCore
      c (fun k => { k with sq := setHead none k.sq })).finish o) c 0)))

/-- Tagged bytes: what is written under a tag is read under it, and nothing else of memory changes (R9, R307, R308). -/
def Obligations.WriteThenRead : Prop :=
  (∀ (s : State) (tag : Tag) (k : Nat) (bs : List Byte), isTagged k = true → bs ≠ [] →
    k % unitSize k + bs.length ≤ unitSize k → tag.gen ≠ 0 → s.Canonical →
    (s.writeUnit tag k bs).read tag k bs.length = bs) ∧
  (∀ (s : State) (own : Tag) (k n : Nat), isTagged k = true → k % unitSize k + n ≤ unitSize k →
    (s.tagAt k ≠ own ∨ own.gen = 0) → s.read own k n = zeros n) ∧
  (∀ (s : State) (tag : Tag) (k : Nat) (bs : List Byte) (a : Nat), isTagged k = true →
    k % unitSize k + bs.length ≤ unitSize k → (a < unitOf k ∨ unitOf k + unitSize k ≤ a) → s.Canonical →
    memByte (s.writeUnit tag k bs).mem a = memByte s.mem a) ∧
  (∀ (s : State) (tag : Tag) (k : Nat) (bs : List Byte) (a : Nat), isTagged k = true → s.tagAt k = tag → tag.gen ≠ 0 →
    k % unitSize k + bs.length ≤ unitSize k → (a < k ∨ k + bs.length ≤ a) → s.Canonical →
    memByte (s.writeUnit tag k bs).mem a = memByte s.mem a)

/-- Every atomic of the control walker enters the store queue with its operands, its destination reserved (R44, R212, R248, R251). -/
def Obligations.AtomicsIssue : Prop :=
  ∀ (i : Instr) (h : Hdr) (op : AtomOp) (z u : Bool) (d a b : Name) (s s1 s2 s3 s4 : State) (e x v : Word) (key : Nat),
    atomicWord i = some (h, op, z, u, d, a, b) → s.mayIssue .C h.wait →
    (if op = .cas then (src (s.word .C h) d).run (s.waited h.wait) = .ok (e, s1) else e = 0 ∧ s1 = s.waited h.wait) →
    (src (s.word .C h) a).run s1 = .ok (x, s2) → (src (s.word .C h) b).run s2 = .ok (v, s3) →
    (s3.core s.cur).stores < 16 → (s3.core s.cur).ctx = .tenant → x.toNat % (if z then 8 else 4) = 0 →
    s3.vaultKey (s3.core s.cur).vf x.toNat = some key → s3.accessFree s.cur (some key) (if z then 8 else 4) = true →
    (reserve (s.word .C h) d).run s3 = .ok ((), s4) →
    exec i s = .next (((s4.begin (s.word .C h)).pushS s.cur ⟨s.word .C h,
      .atom ⟨(s3.core s.cur).vf, s3.gen (s3.core s.cur).vf, key, op, z, u, v, e⟩ d (key / 2 ^ 27), none⟩).advanced s .C 1)

/-- An atomic acts in one step at its line: it writes the new value of R249 and returns the old one (R214, R248, R249, R251, R308, R319, R322). -/
def Obligations.AtomicActs : Prop :=
  (∀ (o : Origin) (req : AtomicReq) (d : Name) (rem : Nat) (s : State), (∀ e ∈ s.agenda, e.1 ≤ s.now → ∀ o' r d' m, e.2 = .atomicAtWriteQueue o' r d' m → o'.core < o.core → r.key / 64 ≠ req.key / 64) → s.gen req.vf = req.gen →
    let n := if req.dbl then 8 else 4
    let tag : Tag := ⟨false, req.vf, req.gen⟩
    let old := leNat (s.read tag req.key n)
    s.anyBad tag req.key n = false →
    exec (.atomicAtWriteQueue o req d rem) s = .next ((((s.writeUser tag req.key (leBytes n (atomRule req.op n req.uns old
      (req.opnd.toNat % 2 ^ (8 * n)) (req.expected.toNat % 2 ^ (8 * n))))).noteAction req.key n).popAway o).later o.core rem
        (.atomicResultLands o d (BitVec.ofNat 64 old)))) ∧
  (∀ (o : Origin) (req : AtomicReq) (d : Name) (rem : Nat) (s : State), (∀ e ∈ s.agenda, e.1 ≤ s.now → ∀ o' r d' m, e.2 = .atomicAtWriteQueue o' r d' m → o'.core < o.core → r.key / 64 ≠ req.key / 64) → s.gen req.vf ≠ req.gen →
    exec (.atomicAtWriteQueue o req d rem) s = .next (((s.staleDrop req.vf 1).popAway o).later o.core rem
      (.atomicResultLands o d 0))) ∧
  (∀ (o p : Origin) (req r : AtomicReq) (d d' : Name) (rem m t : Nat) (s : State),
    (t, Instr.atomicAtWriteQueue p r d' m) ∈ s.agenda → t ≤ s.now → p.core < o.core → r.key / 64 = req.key / 64 →
    exec (.atomicAtWriteQueue o req d rem) s = .next (s.after 0 (.atomicAtWriteQueue o req d rem))) ∧
  (∀ (o : Origin) (req : AtomicReq) (d : Name) (rem : Nat) (s : State), (∀ e ∈ s.agenda, e.1 ≤ s.now → ∀ o' r d' m, e.2 = .atomicAtWriteQueue o' r d' m → o'.core < o.core → r.key / 64 ≠ req.key / 64) → s.gen req.vf = req.gen →
    s.anyBad ⟨false, req.vf, req.gen⟩ req.key (if req.dbl then 8 else 4) = true →
    exec (.atomicAtWriteQueue o req d rem) s = .next (((s.vaultError (markOf req.key)).popAway o).later o.core rem
      (.atomicResultLands o d 0)))

/-- Results that come later land in their destination, free it and complete their word (R34, R60, R80, R81, R251, R254). -/
def Obligations.ResultsLand : Prop :=
  (∀ (o : Origin) (d : Name) (v : Word) (s : State), ((s.core o.core).w o.walker).blocked = false →
    ∃ t, exec (.scalarResultLands o d v) s = .next (t.finish o) ∧
      t = (s.land o d v).modCore o.core (fun k => { k with
        lq := k.lq.filter (fun e => !(e.op = .away && e.o.age = o.age)) })) ∧
  (∀ (o : Origin) (d : Name) (v : Word) (s : State), ((s.core o.core).w o.walker).blocked = true →
    ((s.core o.core).w o.walker).pend = 1 →
    ∃ t, exec (.scalarResultLands o d v) s = .next ((t.unblock o).finish o) ∧
      t = (s.land o d v).modCore o.core (fun k => { k with
        lq := k.lq.filter (fun e => !(e.op = .away && e.o.age = o.age)) })) ∧
  (∀ (o : Origin) (d : Name) (v : Word) (s : State),
    exec (.atomicResultLands o d v) s = .next ((s.land o d v).finish o)) ∧
  (∀ (o : Origin) (d : Name) (v : Word) (s : State),
    (∀ e ∈ (s.core o.core).sq, e.o.age = o.age → (∀ n sc, e.op ≠ .tknext n sc) ∧ e.op ≠ .advanced) →
    exec (.ticketLands o d v) s = .next (((s.popAway o).land o d v).finish o)) ∧
  (∀ (o : Origin) (d : Name) (v : Word) (s : State) (e : QOp) (l : List QOp), (s.core o.core).sq = e :: l → e.o.age = o.age →
    (∀ n sc, e.op = .tknext n sc →
      exec (.ticketLands o d v) s = .next (((s.advancedAt o).finish o).later o.core 8 (.ticketLands o d v))) ∧
    (e.op = .advanced → exec (.ticketLands o d v) s = .next (s.popAway o))) ∧
  (∀ (o : Origin) (d : Name) (v : Word) (s : State),
    (∀ l, Tbl.find s.launches v.toNat = some l → l.reason = 0) →
    exec (.launchHandleReady o d v) s = .next ((s.land o d v).finish o)) ∧
  (∀ (o : Origin) (d : Name) (v : Word) (s : State) (l : Launch), Tbl.find s.launches v.toNat = some l → l.reason ≠ 0 →
    exec (.launchHandleReady o d v) s = .next (State.finish (State.land
      { s with launches := Tbl.put s.launches v.toNat { l with collected := true } } o d (BitVec.ofNat 64 (l.reason * 2 ^ 56))) o)) ∧
  (∀ (s : State) (o : Origin) (r : BitVec 6) (v : Word), r ≠ 0 →
    let t := s.land o (.x r) v
    (t.core o.core).readX r = v ∧ r.toNat ∉ (t.core o.core).scoreboard ∧
    (∀ q, q ≠ r → (t.core o.core).readX q = (s.core o.core).readX q) ∧ t.mem = s.mem) ∧
  (∀ (o : Origin) (d : Name) (x : Word) (s : State) (l : Launch), Tbl.find s.launches x.toNat = some l →
    exec (.waitlWake o d x) s = .next ((((({ s with launches := Tbl.put s.launches x.toNat { l with collected := true } } :
      State).modCore o.core (fun k => { k with waitl := none })).land o d
        (if l.st = .aborted then 1 else if l.st = .refused then 2 else 0)).unblock o).finish o))

/-- TKTAKE, TKWAIT and TKNEXT enter their queues; a dispenser hands out NEXT and advances NOWSERVING (R252, R253, R254). -/
def Obligations.TicketsComplete : Prop :=
  (∀ (h : Hdr) (d : Name) (n : Byte) (s t : State), s.mayIssue .C h.wait →
    ((s.waited h.wait).core s.cur).stores < 16 → (reserve (s.word .C h) d).run (s.waited h.wait) = .ok ((), t) →
    exec (.tktake h d n) s = .next (((t.begin (s.word .C h)).pushS s.cur ⟨s.word .C h, .tktake n d, none⟩).advanced s .C 1)) ∧
  (∀ (h : Hdr) (sc : Scope) (n : Byte) (a : Name) (s t : State) (x : Word), s.mayIssue .C h.wait →
    (src (s.word .C h) a).run (s.waited h.wait) = .ok (x, t) → (t.core s.cur).loads < 16 →
    (demandScope (s.word .C h) sc).run t = .ok ((), t) →
    exec (.tkwait h sc n a) s = .next ((((t.begin (s.word .C h)).modW s.cur .C (fun v => { v with blocked := true })).pushL
      s.cur ⟨s.word .C h, .tkwait n (x.setWidth 32), none⟩).advanced s .C 1)) ∧
  (∀ (h : Hdr) (sc : Scope) (n : Byte) (s : State), s.mayIssue .C h.wait →
    ((s.waited h.wait).core s.cur).stores < 16 →
    (demandScope (s.word .C h) sc).run (s.waited h.wait) = .ok ((), s.waited h.wait) →
    exec (.tknext h sc n) s = .next ((((s.waited h.wait).begin (s.word .C h)).pushS s.cur
      ⟨s.word .C h, .tknext n sc, none⟩).advanced s .C 1)) ∧
  (∀ (o : Origin) (v : BitVec 6) (n : Byte) (d : Name) (s : State), (∀ e ∈ s.agenda, e.1 ≤ s.now → atDispenser o.core v n e.2 = false) → s.gen v ≠ 0 →
    let tag : Tag := ⟨false, v, s.gen v⟩
    let p := s.ownDispenser o.core tag n
    exec (.tktakeAtDispenser o tag n d) s = .next (((s.setDispenser n { p with next := p.next + 1 }).popAway o).later
      o.core 12 (.ticketLands o d (p.next.setWidth 64))) ∧
    ((s.setDispenser n { p with next := p.next + 1 }).dispenser tag n).next = p.next + 1 ∧
    p.next = (s.dispenser tag n).next) ∧
  (∀ (o : Origin) (tag : Tag) (n : Byte) (d : Name) (s : State), (∀ e ∈ s.agenda, e.1 ≤ s.now → atDispenser o.core tag.vf n e.2 = false) →
    s.tagCurrent tag = false →
    exec (.tktakeAtDispenser o tag n d) s = .next (((s.staleDrop tag.vf 1).popAway o).later o.core 12 (.ticketLands o d 0))) ∧
  (∀ (c : Nat) (v : BitVec 6) (n : Byte) (s : State), (∀ e ∈ s.agenda, e.1 ≤ s.now → atDispenser c v n e.2 = false) → s.gen v ≠ 0 →
    let tag : Tag := ⟨false, v, s.gen v⟩
    let p := s.ownDispenser c tag n
    exec (.dispenserAdvance c tag n) s = .next ((s.setDispenser n { p with serving := p.serving + 1 }).after 8
      (.nowServingBroadcast v n (p.serving + 1)))) ∧
  (∀ (o : Origin) (tag : Tag) (n : Byte) (d : Name) (t : Nat) (i : Instr) (s : State), (t, i) ∈ s.agenda → t ≤ s.now →
    atDispenser o.core tag.vf n i = true →
    exec (.tktakeAtDispenser o tag n d) s = .next (s.after 0 (.tktakeAtDispenser o tag n d)) ∧
    exec (.dispenserAdvance o.core tag n) s = .next (s.after 0 (.dispenserAdvance o.core tag n))) ∧
  (∀ (c : Nat) (v : BitVec 6) (n m : Byte) (p : Origin) (u : Tag) (d : Name),
    (atDispenser c v n (.tktakeAtDispenser p u m d) = true ↔ p.core < c ∧ u.vf = v ∧ m = n) ∧
    (∀ b : Nat, atDispenser c v n (.dispenserAdvance b u m) = true ↔ b < c ∧ u.vf = v ∧ m = n)) ∧
  (∀ (v : BitVec 6) (n : Byte) (x : BitVec 32) (s : State), ∃ t, exec (.nowServingBroadcast v n x) s = .next t ∧
    (∀ p, Tbl.find s.dispensers (dispenserKey v n) = some p →
      Tbl.find t.dispensers (dispenserKey v n) = some { p with seen := x }) ∧ t.mem = s.mem) ∧
  (∀ (o : Origin) (s : State), exec (.tkwaitWake o) s = .next (((s.modCore o.core (fun k => { k with
    tickets := none, lq := k.lq.filter (fun e => !(e.op = .away && e.o.age = o.age)) })).unblock o).finish o))

/-- TDEF replaces an entry whole under the VF and generation of its writer; TRD reads its fields (R77, R78, R79, R116, R118, R119, R331). -/
def Obligations.TensorEntries : Prop :=
  (∀ (h : Hdr) (card : Name) (t : BitVec 12) (s s1 : State) (b : List Byte), s.mayIssue .C h.wait →
    ((s.waited h.wait).core s.cur).acquiring = false →
    (steppedRecord (s.word .C h) card 64 64).run (s.waited h.wait) = .ok (b, s1) →
    (field b 8 1 = 0 ∨ tdefOk b = true) → (s1.core s.cur).ctx ≠ .tenant →
    exec (.tdef h card t) s = .next (s1.landsLater s .C h 1 8 (.scalarResultLands (s.word .C h) (.x 0) 0))) ∧
  (∀ (h : Hdr) (card : Name) (t : BitVec 12) (s s1 : State) (b : List Byte), s.mayIssue .C h.wait →
    ((s.waited h.wait).core s.cur).acquiring = false →
    (steppedRecord (s.word .C h) card 64 64).run (s.waited h.wait) = .ok (b, s1) →
    (field b 8 1 = 0 ∨ tdefOk b = true) → (s1.core s.cur).ctx = .tenant →
    exec (.tdef h card t) s = .next (s1.landsLater s .C h 1 8 (.vectorResultLands (s.word .C h)
      (keyTensor (s1.core s.cur).vf.toNat t.toNat)
      (b.take 55 ++ [s1.gen (s1.core s.cur).vf] ++ leBytes 2 (s1.core s.cur).vf.toNat ++ b.drop 58) 0))) ∧
  (∀ (h : Hdr) (card : Name) (t : BitVec 12) (s s1 : State) (b : List Byte), s.mayIssue .C h.wait →
    ((s.waited h.wait).core s.cur).acquiring = false →
    (steppedRecord (s.word .C h) card 64 64).run (s.waited h.wait) = .ok (b, s1) →
    field b 8 1 ≠ 0 → tdefOk b = false →
    exec (.tdef h card t) s = .next ((s.takeTrap { s.word .C h with post2 := 0 } .rsvd 0 0).stalled s.cur .C)) ∧
  (∀ (h : Hdr) (d : Name) (t : BitVec 12) (f : BitVec 5) (s s1 : State), s.mayIssue .C h.wait →
    ((s.waited h.wait).core s.cur).tdefPending t = false →
    (reserve (s.word .C h) d).run (s.waited h.wait) = .ok ((), s1) →
    let v := ((s.waited h.wait).core s.cur).vf
    let b := (s.waited h.wait).tensorBytes v t
    exec (.trd h d t f) s = .next (s1.landsLater s .C h 1 4 (.scalarResultLands (s.word .C h) d
      (if ((s.waited h.wait).core s.cur).ctx = .tenant ∧ (s.waited h.wait).entryLive v b = true then trdField b f.toNat else 0))))

/-- LAUNCH gives its block to the dispatcher at its release; WAITL sleeps on a live handle (R80, R81, R293, R298, R414). -/
def Obligations.LaunchWordsComplete : Prop :=
  (∀ (h : Hdr) (d a b : Name) (q : BitVec 4) (s s1 s2 s3 : State) (x y : Word), s.mayIssue .C h.wait →
    (src (s.word .C h) a).run (s.waited h.wait) = .ok (x, s1) → (src (s.word .C h) b).run s1 = .ok (y, s2) →
    (reserve (s.word .C h) d).run s2 = .ok ((), s3) → (s2.core s.cur).ctx = .tenant → x.toNat % 256 = 0 →
    s2.mapped (s2.core s.cur).vf x.toNat 256 = true →
    (y.toNat = 0 ∨ (s2.vaultKey (s2.core s.cur).vf y.toNat).isSome = true) →
    exec (.launch h d a b q) s = .next (s3.landsLater s .C h 1 0
      (.releaseTakesEffect (s.word .C h) .ten (s.word .C h).age (.launch x.toNat y.toNat q d)))) ∧
  (∀ (h : Hdr) (d a : Name) (s s1 s2 : State) (x : Word), s.mayIssue .C h.wait →
    (src (s.word .C h) a).run (s.waited h.wait) = .ok (x, s1) → (reserve (s.word .C h) d).run s1 = .ok ((), s2) →
    (s1.handled (s1.core s.cur).gang x = none →
      exec (.waitl h d a) s = .next (s2.landsLater s .C h 1 1 (.scalarResultLands (s.word .C h) d 2))) ∧
    (∀ l, s1.handled (s1.core s.cur).gang x = some l → l.over = false →
      exec (.waitl h d a) s = .next (((s2.modCore s.cur (fun k => { k.modW .C (fun v => { v with blocked := true }) with
        waitl := some ⟨s.word .C h, d, x⟩ })).begin (s.word .C h)).advanced s .C 1)) ∧
    (∀ l, s1.handled (s1.core s.cur).gang x = some l → l.over = true →
      exec (.waitl h d a) s = .next ((((s2.modCore s.cur (fun k => { k.modW .C (fun v => { v with blocked := true }) with
        waitl := some ⟨s.word .C h, d, x⟩ })).begin (s.word .C h)).later s.cur 4
          (.waitlWake (s.word .C h) d x)).advanced s .C 1))) ∧
  (∀ (o : Origin) (age a patch : Nat) (q : BitVec 4) (d : Name) (s : State) (g : Gang) (l : Launch),
    s.relHolds o.core age .ten none = true → s.gang (s.core o.core).gang = some g →
    Tbl.find s.launches g.launch = some l →
    (s.launches.filter (fun e => e.2.byGang = some (s.core o.core).gang && !e.2.collected)).length < 64 →
    s.ringFull (s.core o.core).vf q = false →
    ∃ t, exec (.releaseTakesEffect o .ten age (.launch a patch q d)) s = .next t ∧
      (t.core o.core).agenda = addDue ((s.core o.core).time + 32)
        (.launchHandleReady o d (BitVec.ofNat 64 s.nextLaunch)) (s.core o.core).agenda ∧
      Tbl.get (t.vf (s.core o.core).vf.toNat).rings q.toNat [] =
        Tbl.get (s.vf (s.core o.core).vf.toNat).rings q.toNat [] ++ [⟨patch, patch ≠ 0, false, some s.nextLaunch, none⟩] ∧
      t.agenda = addDue (s.now + 16) (.kickAccept (s.core o.core).vf q) s.agenda ∧
      (∃ c, Tbl.find t.launches s.nextLaunch = some c ∧ c.addr = a ∧ c.st = .waiting ∧ c.reason = 0 ∧ c.depth = l.depth + 1 ∧
        c.parent = some g.launch ∧ c.byGang = some (s.core o.core).gang)) ∧
  (∀ (o : Origin) (age a patch : Nat) (q : BitVec 4) (d : Name) (s : State) (g : Gang) (l : Launch),
    s.relHolds o.core age .ten none = true → s.gang (s.core o.core).gang = some g →
    Tbl.find s.launches g.launch = some l →
    (s.launches.filter (fun e => e.2.byGang = some (s.core o.core).gang && !e.2.collected)).length < 64 →
    s.ringFull (s.core o.core).vf q = true →
    ∃ t, exec (.releaseTakesEffect o .ten age (.launch a patch q d)) s = .next t ∧
      (t.vf (s.core o.core).vf.toNat).dropped = bump (s.vf (s.core o.core).vf.toNat).dropped q ∧
      (t.vf (s.core o.core).vf.toNat).rings = (s.vf (s.core o.core).vf.toNat).rings ∧
      (∃ c, Tbl.find t.launches s.nextLaunch = some c ∧ c.st = .refused)) ∧
  (∀ (o : Origin) (age a patch : Nat) (q : BitVec 4) (d : Name) (s : State) (g : Gang) (l : Launch),
    s.relHolds o.core age .ten none = true → s.gang (s.core o.core).gang = some g →
    Tbl.find s.launches g.launch = some l →
    64 ≤ (s.launches.filter (fun e => e.2.byGang = some (s.core o.core).gang && !e.2.collected)).length →
    exec (.releaseTakesEffect o .ten age (.launch a patch q d)) s = .next (s.later o.core 32
      (.launchHandleReady o d (BitVec.ofNat 64 (4 * 2 ^ 56)))))

/-- A release acts once every earlier operation of its core has performed at its scope, else waits a cycle (R221, R222, R223, R227, R228, R233, R254, R312, R376). -/
def Obligations.ReleasesTakeEffect : Prop :=
  (∀ (s : State) (c age : Nat) (sc : Scope), s.relHolds c age sc none = true ↔
    (∀ e ∈ (s.core c).lq, age ≤ e.o.age) ∧ (∀ e ∈ (s.core c).sq, age ≤ e.o.age) ∧
    (∀ e ∈ (s.core c).agenda, ∀ a, pendingAge e.2 = some a → age ≤ a) ∧
    (∀ n, (s.core c).nest = some n → age ≤ n.o.age) ∧ (s.core c).arrayReads age = false ∧
    (∀ e ∈ (s.core c).matq, age ≤ e.o.age) ∧ (∀ a ∈ (s.core c).moves, age ≤ a) ∧
    (∀ e ∈ s.galleys, e.2.core = c → e.2.gang = (s.core c).gang → e.2.o.age < age → ownWrites c e.2 = false ∧
      (sc = .core ∧ e.2.reading = false ∨ sc = .chip ∧ e.2.o.walker = .F)) ∧
    (sc = .core ∨ sc = .chip ∨ ∀ e ∈ s.ops, e.2.core = c → e.2.gang = (s.core c).gang →
      ∀ o, e.2.word = some o → age ≤ o.age) ∧
    (∀ e ∈ s.coalescer, (∃ w ∈ e.2.owners, w.1 = c ∧ w.2.1 < age) →
      sc = .core ∨ sc = .chip ∨ (sc = .ten ∨ sc = .dom) ∧ e.2.host = true)) ∧
  (∀ (o : Origin) (sc : Scope) (age : Nat) (s : State), s.relHolds o.core age sc none = true →
    exec (.releaseTakesEffect o sc age .fence) s = .next ((s.unblock o).finish o)) ∧
  (∀ (o : Origin) (sc : Scope) (age : Nat) (s : State), s.relHolds o.core age sc none = false →
    exec (.releaseTakesEffect o sc age .fence) s = .next (s.later o.core 1 (.releaseTakesEffect o sc age .fence))) ∧
  (∀ (o : Origin) (sc : Scope) (age : Nat) (s : State), s.relHolds o.core age sc none = true →
    s.fabricOpen o.core (s.core o.core).gang (some age) = 0 →
    exec (.releaseTakesEffect o sc age .ffence) s = .next (s.doneF o)) ∧
  (∀ (o : Origin) (sc : Scope) (age : Nat) (s : State), (s.relHolds o.core age sc none = false ∨
    s.fabricOpen o.core (s.core o.core).gang (some age) ≠ 0) →
    exec (.releaseTakesEffect o sc age .ffence) s = .next (s.later o.core 1 (.releaseTakesEffect o sc age .ffence))) ∧
  (∀ (o : Origin) (sc : Scope) (age id : Nat) (s : State) (g : Galley), Tbl.find s.galleys id = some g →
    s.relHoldsAt (s.home g.gang o.core) o.core age sc (some id) = false →
    exec (.releaseTakesEffect o sc age (.galley id)) s = .next (s.after 1 (.releaseTakesEffect o sc age (.galley id)))) ∧
  (∀ (o : Origin) (sc : Scope) (age gang : Nat) (n : Byte) (v : BitVec 6) (g : Byte) (s : State),
    (if (s.gang gang).isNone then s.linesHold o.core age sc = true
      else s.relHoldsAt (s.home gang o.core) o.core age sc none = false) →
    exec (.releaseTakesEffect o sc age (.advance gang n v g)) s =
      .next (s.after 1 (.releaseTakesEffect o sc age (.advance gang n v g)))) ∧
  (∀ (o : Origin) (v : BitVec 6) (report : Nat) (d : Name) (s : State), s.writesOut v = true →
    exec (.releaseTakesEffect o .sys o.age (.stop v report d)) s =
      .next (s.after 1 (.releaseTakesEffect o .sys o.age (.stop v report d)))) ∧
  (∀ (o : Origin) (v : BitVec 6) (report : Nat) (d : Name) (s : State), s.writesOut v = false →
    ∃ t, exec (.releaseTakesEffect o .sys o.age (.stop v report d)) s = .next t ∧
      t.mem = memWrite s.mem (keyHost report) (s.dirtyReport v).1 ∧ (t.vf v.toNat).dirty = [] ∧
      t.agenda = (s.after (1 + Config.deviceDelay s.now) (.releaseTakesEffect o .sys o.age (.stopped v d))).agenda) ∧
  (∀ (s : State) (v : BitVec 6), s.writesOut v = true ↔ (∃ e ∈ s.coalescer, e.2.vf = v) ∨
    ∃ e ∈ s.galleys, e.2.vf = v ∧ ∃ p ∈ e.2.flight, isVirt p.dst = true) ∧
  (∀ (o : Origin) (sc : Scope) (age id : Nat) (s : State) (g : Galley), Tbl.find s.galleys id = some g →
    s.relHoldsAt (s.home g.gang o.core) o.core age sc (some id) = true →
    exec (.releaseTakesEffect o sc age (.galley id)) s =
      .next { s with galleys := Tbl.put s.galleys id { g with rel := none } }) ∧
  (∀ (o : Origin) (sc : Scope) (age gang : Nat) (n : Byte) (v : BitVec 6) (g : Byte) (s : State),
    (if (s.gang gang).isNone then s.linesHold o.core age sc = false
      else s.relHoldsAt (s.home gang o.core) o.core age sc none = true) →
    exec (.releaseTakesEffect o sc age (.advance gang n v g)) s = .next (s.after 4 (.dispenserAdvance o.core ⟨false, v, g⟩ n))) ∧
  (∀ (o : Origin) (age : Nat) (v : BitVec 6) (d : Name) (s : State),
    exec (.releaseTakesEffect o .sys age (.stopped v d)) s = .next (((s.setStatus v .stopped).modVf v.toNat
      (fun f => { f with stops := satAdd 32 f.stops 1 })).privDone o d 0))

/-- The privileged words of Proof and Press do what R325 to R330 give, and hold their walker until complete (R306, R311, R312, R313, R325, R326, R327, R328, R329, R330). -/
def Obligations.PrivilegedWordsComplete : Prop :=
  (∀ (h : Hdr) (d a : Name) (s t : State) (v : BitVec 6), s.mayPrivilege .C h d a (.x 0) t →
    t.namedVf (s.xArg h a) = some v →
    exec (.psetRun h d a) s = .next (State.privileged ((t.vf v.toNat).heldHost.foldl
      (fun (u : State) e => u.hostAccess v e.1 e.2.1 e.2.2)
      ((t.setStatus v .running).modVf v.toNat (fun f => { f with heldHost := [] }))) s .C h d 0 1)) ∧
  (∀ (h : Hdr) (d a b : Name) (s t : State) (v : BitVec 6), s.mayPrivilege .C h d a b t →
    t.namedVf (s.xArg h a) = some v → t.hasRunning v = false → (s.xArg h b).toNat % 64 = 0 →
    (s.xArg h b).toNat < 2 ^ 52 →
    exec (.psetStop h d a b) s = .next (((((t.setStatus v .stopping).after 1 (.releaseTakesEffect (s.word .C h) .sys
      (s.word .C h).age (.stop v (s.xArg h b).toNat d))).begin (s.word .C h)).modW s.cur .C
        (fun x => { x with blocked := true })).advanced s .C 1)) ∧
  (∀ (h : Hdr) (d a b : Name) (s t : State) (r : List Byte), s.mayPrivilege .C h d a b t →
    (s.xArg h a).toNat < 64 → (t.vf (s.xArg h a).toNat).created = false →
    t.hasGang ((s.xArg h a).setWidth 6) = false → t.mgmtRecord (s.xArg h b).toNat 1024 = some r →
    t.recordOk (s.xArg h a).toNat r = true →
    exec (.psetMap h d a b) s = .next (State.privileged ((t.modVf (s.xArg h a).toNat (fun _ =>
      { Vf.reset with created := true, record := r, status := .stopped, statusGen := 1 })).send
        (.msix (some ((s.xArg h a).setWidth 6)) 1)) s .C h d 0 1)) ∧
  (∀ (h : Hdr) (d a b : Name) (s t : State) (v : BitVec 6) (g : Nat) (gv : Gang), s.mayPrivilege .C h d a b t →
    t.namedVf (s.xArg h a) = some v → t.gangHolding v (s.xArg h b).toNat = some (g, gv) → gv.frozen = none →
    gv.cores.length ≤ t.freeSlots v →
    exec (.frz h d a b) s = .next (((((t.after 33 (.freezeGate g .owner (s.word .C h) d)).begin (s.word .C h)).modW
      s.cur .C (fun x => { x with blocked := true })).advanced s .C 1))) ∧
  (∀ (h : Hdr) (d a b : Name) (s t : State) (v : BitVec 6) (g : Nat) (gv : Gang), s.mayPrivilege .C h d a b t →
    t.namedVf (s.xArg h a) = some v → (t.vf v.toNat).status ≠ .stopped →
    t.gangHolding v (s.xArg h b).toNat = some (g, gv) → gv.frozen = some .trap → gv.saved = true →
    gv.records = [] → gv.cores.all (t.coreFreeFor g) = true →
    exec (.thaw h d a b) s = .next ((((t.clearArea v gv.area).modGang g (fun w => { w with
      thaw := w.thaw ++ [(s.word .C h, d)] })).after 1 (.gangResume g)).awaits s .C h)) ∧
  (∀ (h : Hdr) (d a b : Name) (s t : State) (v : BitVec 6) (r : List Byte), s.mayPrivilege .C h d a b t →
    t.namedVf (s.xArg h a) = some v → t.mgmtRecord (s.xArg h b).toNat 64 = some r → field r 41 1 ≤ 1 →
    field r 42 2 ≤ 63 → field r 44 20 = 0 →
    let slot := fun key => (⟨⟨false, v, t.gen v⟩, key, field r 41 1 = 1, field r 42 2⟩ : KeySlot)
    exec (.keyld h d a b) s = .next (match keyUnwrap Config.wrappingKey (r.take 40) with
      | some key => State.privileged { t with
          keys := Tbl.put t.keys (v.toNat * 256 + field r 40 1) (slot key) } s .C h d 0 1
      | none => t.privileged s .C h d (BitVec.ofNat 64 (2 ^ 63 + 0x0A)) 1)) ∧
  (∀ (h : Hdr) (all : Bool) (d a b : Name) (s t : State) (v : BitVec 6), s.mayPrivilege .C h d a b t →
    t.namedVf (s.xArg h a) = some v → (all = true ∨ (s.xArg h b).toNat < 256) →
    exec (.keyerase h all d a b) s = .next (State.privileged { t with
      keys := t.keys.filter (fun e => !(e.1 / 256 = v.toNat && (all || e.1 % 256 = (s.xArg h b).toNat))) } s .C h d 0 1)) ∧
  (∀ (h : Hdr) (d a b : Name) (s t : State) (v : BitVec 6), s.mayPrivilege .C h d a b t →
    t.namedVf (s.xArg h a) = some v → (s.xArg h b).toNat < 4 →
    exec (.polset h d a b) s = .next (State.privileged (t.modVf v.toNat
      (fun f => { f with policy := (s.xArg h b).setWidth 2 })) s .C h d 0 1)) ∧
  (∀ (h : Hdr) (d : Name) (s t : State), s.mayPrivilege .C h d (.x 0) (.x 0) t →
    exec (.lapw h d) s = .next (((State.begin { t with lapWaiters := t.lapWaiters ++ [(s.word .C h, d)] }
      (s.word .C h)).modW s.cur .C (fun x => { x with blocked := true })).advanced s .C 1))

/-- GENADV takes a value from 1 to 255 in no set, and the VF leaves its old one (R285, R287, R326). -/
def Obligations.GenerationAdvances : Prop :=
  (∀ (h : Hdr) (d a : Name) (s t u : State) (v : BitVec 6) (c n : Nat), s.mayPrivilege .C h d a (.x 0) t →
    t.namedVf (s.xArg h a) = some v → t.hasRunning v = false → (t.vf v.toNat).status = .stopped →
    t.tryGen v = some (u, c, n) →
    exec (.genadv h d a) s = .next (u.privileged s .C h d (BitVec.ofNat 64 c) n)) ∧
  (∀ (h : Hdr) (d a : Name) (s t : State) (v : BitVec 6), s.mayPrivilege .C h d a (.x 0) t →
    t.namedVf (s.xArg h a) = some v → t.hasRunning v = false → (t.vf v.toNat).status = .stopped → t.tryGen v = none →
    exec (.genadv h d a) s = .next (((State.begin { t with genWaiters := t.genWaiters ++ [(s.word .C h, d, v)] }
      (s.word .C h)).modW s.cur .C (fun x => { x with blocked := true })).advanced s .C 1)) ∧
  (∀ (s u : State) (v : BitVec 6) (c n : Nat), 1 ≤ (s.gen v).toNat → s.tryGen v = some (u, c, n) →
    1 ≤ c ∧ c ≤ 255 ∧ c ≠ (s.gen v).toNat ∧ c ∉ (s.vf v.toNat).pend ∧ c ∉ (s.vf v.toNat).old ∧
    u.gen v = BitVec.ofNat 8 c ∧ (s.gen v).toNat ∈ (u.vf v.toNat).pend ∧ (u.vf v.toNat).old = (s.vf v.toNat).old ∧
    (∀ e ∈ u.gangs, e.2.vf ≠ v) ∧ (∀ r ∈ u.replies, r.key.vf ≠ v) ∧ (∀ e ∈ u.ops, e.2.pkt.vf ≠ v) ∧
    (∀ e ∈ u.cores, (∀ l ∈ e.2.ocache, l.vf ≠ v) ∧ (∀ x ∈ e.2.tcache, x.vf ≠ v)))

/-- A privileged word that names no created VF, or finds it in the wrong state, is refused with its reason (R325, R326, R327, R330). -/
def Obligations.PrivilegedWordsRefuse : Prop :=
  (∀ (h : Hdr) (d a b : Name) (s t : State), s.mayPrivilege .C h d a b t → t.namedVf (s.xArg h a) = none →
    exec (.psetStop h d a b) s = .next (t.privileged s .C h d (BitVec.ofNat 64 (2 ^ 63 + 1)) 1) ∧
    exec (.frz h d a b) s = .next (t.privileged s .C h d (BitVec.ofNat 64 (2 ^ 63 + 1)) 1) ∧
    exec (.thaw h d a b) s = .next (t.privileged s .C h d (BitVec.ofNat 64 (2 ^ 63 + 1)) 1) ∧
    exec (.keyld h d a b) s = .next (t.privileged s .C h d (BitVec.ofNat 64 (2 ^ 63 + 1)) 1) ∧
    (∀ all : Bool, exec (.keyerase h all d a b) s = .next (t.privileged s .C h d (BitVec.ofNat 64 (2 ^ 63 + 1)) 1)) ∧
    exec (.polset h d a b) s = .next (t.privileged s .C h d (BitVec.ofNat 64 (2 ^ 63 + 1)) 1)) ∧
  (∀ (h : Hdr) (d a : Name) (s t : State), s.mayPrivilege .C h d a (.x 0) t → t.namedVf (s.xArg h a) = none →
    exec (.genadv h d a) s = .next (t.privileged s .C h d (BitVec.ofNat 64 (2 ^ 63 + 1)) 1) ∧
    exec (.psetRun h d a) s = .next (t.privileged s .C h d (BitVec.ofNat 64 (2 ^ 63 + 1)) 1)) ∧
  (∀ (h : Hdr) (d a b : Name) (s t : State), s.mayPrivilege .C h d a b t → 64 ≤ (s.xArg h a).toNat →
    exec (.psetMap h d a b) s = .next (t.privileged s .C h d (BitVec.ofNat 64 (2 ^ 63 + 1)) 1)) ∧
  (∀ (h : Hdr) (d a : Name) (s t : State) (v : BitVec 6), s.mayPrivilege .C h d a (.x 0) t →
    t.namedVf (s.xArg h a) = some v → t.hasRunning v = true →
    exec (.genadv h d a) s = .next (t.privileged s .C h d (BitVec.ofNat 64 (2 ^ 63 + 2)) 1)) ∧
  (∀ (h : Hdr) (d a b : Name) (s t : State) (v : BitVec 6), s.mayPrivilege .C h d a b t →
    t.namedVf (s.xArg h a) = some v → t.hasRunning v = true →
    exec (.psetStop h d a b) s = .next (t.privileged s .C h d (BitVec.ofNat 64 (2 ^ 63 + 2)) 1)) ∧
  (∀ (h : Hdr) (d a : Name) (s t : State) (v : BitVec 6), s.mayPrivilege .C h d a (.x 0) t →
    t.namedVf (s.xArg h a) = some v → t.hasRunning v = false → (t.vf v.toNat).status ≠ .stopped →
    exec (.genadv h d a) s = .next (t.privileged s .C h d (BitVec.ofNat 64 (2 ^ 63 + 3)) 1)) ∧
  (∀ (h : Hdr) (d a b : Name) (s t : State) (v : BitVec 6), s.mayPrivilege .C h d a b t →
    t.namedVf (s.xArg h a) = some v → 4 ≤ (s.xArg h b).toNat →
    exec (.polset h d a b) s = .next (t.privileged s .C h d (BitVec.ofNat 64 (2 ^ 63 + 5)) 1))

/-- REP arms its walker, FORK starts the idle walkers, RDV and SSB bring them back together (R51, R52, R53, R84, R85, R86, R87). -/
def Obligations.AllWalkerWordsComplete : Prop :=
  (∀ (h : Hdr) (tag : BitVec 3) (count rs : Byte) (as : BitVec 15) (s : State) (i : Nat), s.mayIssue s.curW h.wait →
    (tag = s.curW.tag ∨ tag = 6) →
    repTarget (s.waited h.wait) s.cur s.curW ((s.waited h.wait).core s.cur).words
      (((s.waited h.wait).core s.cur).words + 1) ((s.word s.curW h).index + 1) = some i →
    repOk ((s.waited h.wait).textWord s.cur i) (count.toNat + 1) rs.toInt as.toInt = true →
    exec (.rep h tag count rs as) s = .next ((s.waited h.wait).modW s.cur s.curW (fun v =>
      { v.advance (((s.waited h.wait).core s.cur).time + 1) with
        rep := some ⟨count.toNat + 1, 0, rs.toInt, as.toInt, h.post⟩ }))) ∧
  (∀ (h : Hdr) (s : State), s.curW = .C → s.mayIssue .C h.wait → ((s.waited h.wait).core s.cur).wC.pend = 0 →
    (∀ w ∈ [Walker.V, .M, .X, .G, .F], (((s.waited h.wait).core s.cur).w w).st ≠ .running) →
    ∃ t, exec (.fork h) s = .next t ∧ (∀ w ∈ [Walker.V, .M, .X, .G, .F],
      ((t.core s.cur).w w).st = .running ∧ ((t.core s.cur).w w).index = ((s.core s.cur).wC.index + 1) ∧
      ((t.core s.cur).w w).readyAt = (s.core s.cur).time + 2 ∧ ((t.core s.cur).w w).outcomes = [] ∧
      ((t.core s.cur).w w).steps = 0) ∧ (t.core s.cur).retStack = []) ∧
  (∀ (h : Hdr) (s : State), s.curW = .C → s.mayIssue .C h.wait →
    exec (.rdv h) s = .next (((s.waited h.wait).modW s.cur .C (fun v => { v with st := .rendezvous })).release s.cur)) ∧
  (∀ (h : Hdr) (s : State), s.curW ≠ .C → s.mayIssue s.curW 0 →
    exec (.rdv h) s = .next ((s.modW s.cur s.curW (fun v => { v with st := .rendezvous })).release s.cur)) ∧
  (∀ (c : Nat) (s : State), ((s.core c).wC.st ≠ .rendezvous ∨ ∃ w ∈ [Walker.V, .M, .X, .G, .F], ((s.core c).w w).st = .running) →
    s.release c = s) ∧
  (∀ (c : Nat) (s : State), (s.core c).wC.st = .rendezvous → (s.core c).wC.rep = none →
    (∀ w ∈ [Walker.V, .M, .X, .G, .F], ((s.core c).w w).st ≠ .running) →
    ((s.release c).core c).wC.st = .running ∧ ((s.release c).core c).wC.readyAt = (s.core c).time + 2 ∧
    ((s.release c).core c).wC.index = (s.core c).wC.index + 1 ∧
    (∀ w ∈ [Walker.V, .M, .X, .G, .F], ((s.core c).w w).st = .rendezvous → (((s.release c).core c).w w).st = .idle) ∧ (s.release c).mem = s.mem) ∧
  (∀ (h : Hdr) (s : State), s.curW ≠ .C → s.mayIssue s.curW 0 → s.exchangeBad s.cur = false →
    exec (.ssb h) s = .next (s.modW s.cur s.curW (fun v => { v with st := .barrier }))) ∧
  (∀ (h : Hdr) (s : State), s.curW = .C → s.mayIssue .C h.wait → (s.waited h.wait).exchangeBad s.cur = false →
    exec (.ssb h) s = .next ((s.waited h.wait).modW s.cur .C (fun v => { v with st := .barrier })))

/-- The elementwise, moving, reducing and ranking words of the vector walker complete, or raise RSVD (R34, R160, R162, R163, R164, R170, R172, R176, R179, R183, R185, R189). -/
def Obligations.ViewWordsComplete : Prop :=
  (∀ (i : Instr) (v : ViewSpec) (s s1 s2 : State) (x : Word) (fmt : Byte) (r : Nat × Nat) (old : List Nat) (ss : List Source),
    elementWord i = some v → s.mayIssue .V v.h.wait →
    (match v.arg with
      | some n => (src (s.word .V v.h) n).run (s.waited v.h.wait) = .ok (x, s1)
      | none => s1 = s.waited v.h.wait) →
    (vectorOperands (s.word .V v.h) v.d v.readD v.ops).run s1 = .ok ((fmt, r, old, ss), s2) →
    (v.chk fmt (ss.map Source.fmt) = true → (s2.core s.cur).inText r.1 r.2 = false →
      exec i s = .next ((s2.owes s r).landsLater s .V v.h v.cost v.lat (.vectorResultLands (s.word .V v.h)
        (keyRS s.cur r.1) (unelems (fmtSize fmt) (v.f x fmt old ss).1) (v.f x fmt old ss).2))) ∧
    (v.chk fmt (ss.map Source.fmt) = false →
      exec i s = .next ((s.takeTrap { s.word .V v.h with post2 := 0 } .rsvd 0 0).stalled s.cur .V))) ∧
  (∀ (i : Instr) (v : ViewSpec) (s s1 s2 : State) (x : Word) (fmt : Byte) (r : Nat × Nat) (old : List Nat) (ss : List Source),
    movementWord i = some v → s.mayIssue .V v.h.wait →
    (match v.arg with
      | some n => (src (s.word .V v.h) n).run (s.waited v.h.wait) = .ok (x, s1)
      | none => s1 = s.waited v.h.wait) →
    (vectorOperands (s.word .V v.h) v.d v.readD v.ops).run s1 = .ok ((fmt, r, old, ss), s2) →
    (v.chk fmt (ss.map Source.fmt) = true → (s2.core s.cur).inText r.1 r.2 = false →
      exec i s = .next ((s2.owes s r).landsLater s .V v.h v.cost v.lat (.vectorResultLands (s.word .V v.h)
        (keyRS s.cur r.1) (unelems (fmtSize fmt) (v.f x fmt old ss).1) (v.f x fmt old ss).2))) ∧
    (v.chk fmt (ss.map Source.fmt) = false →
      exec i s = .next ((s.takeTrap { s.word .V v.h with post2 := 0 } .rsvd 0 0).stalled s.cur .V)))

/-- Integer elements: VADD, VSUB and VMUL wrap, or clamp with .SAT; rotations and broadcasts take the named element (R162, R170, R171, R183). -/
def Obligations.IntegerElements : Prop :=
  (∀ (i : Instr) (h : Hdr) (te : Te) (bx sat : Bool) (rnd : Rnd) (d a b : Name) (op : Int → Int → Int) (v : ViewSpec) (x : Word)
      (f : Byte) (sa sb : Source), (i = .vadd h te bx sat rnd d a b ∧ op = (fun p q => p + q) ∨ i = .vsub h te bx sat rnd d a b ∧ op = (fun p q => p - q) ∨
      i = .vmul h te bx sat rnd d a b ∧ op = (fun p q => p * q)) → elementWord i = some v →
    f = 5 ∨ f = 6 → sa.fmt = f → sb.fmt = f → sa.elems.length = 1024 → sb.elems.length = 1024 →
    let w := intBits f
    let z := fun n => op (signedOf w (sa.elems.getD n 0)) (signedOf w (if bx then x.toNat % 2 ^ w else sb.elems.getD n 0))
    let clamp := fun y : Int => max (-(2 : Int) ^ (w - 1)) (min ((2 : Int) ^ (w - 1) - 1) y)
    let r := v.f x f [] (if bx then [sa] else [sa, sb])
    (∀ n, n < 1024 → r.1.getD n 0 = lowBits w (if sat then clamp (z n) else z n)) ∧
    (∀ n, n < 1024 → sat = false → (r.1.getD n 0 : Int) % 2 ^ w = z n % 2 ^ w) ∧
    (sat = false → r.2 = 0) ∧ ((∀ n, n < 1024 → clamp (z n) = z n) → r.2 = 0) ∧
    (sat = true → (∃ n, n < 1024 ∧ clamp (z n) ≠ z n) → r.2 = vSaturate)) ∧
  (∀ (h : Hdr) (tea : Bool) (d a : Name) (m : BitVec 6) (v : ViewSpec) (x : Word) (fmt : Byte) (old : List Nat) (src : Source)
      (i j : Nat), i < 16 → j < 64 → src.elems.length = 1024 →
    (movementWord (.vrotr h tea d a (.val m)) = some v →
      (v.f x fmt old [src]).1.getD (64 * i + j) 0 = src.elems.getD (64 * i + (j + 64 - m.toNat) % 64) 0) ∧
    (movementWord (.vrotc h tea d a (.val m)) = some v → m.toNat < 16 →
      (v.f x fmt old [src]).1.getD (64 * i + j) 0 = src.elems.getD (64 * ((i + 16 - m.toNat) % 16) + j) 0) ∧
    (movementWord (.vbcr h tea d a (.val m)) = some v →
      (v.f x fmt old [src]).1.getD (64 * i + j) 0 = src.elems.getD (64 * i + m.toNat) 0) ∧
    (movementWord (.vbcc h tea d a (.val m)) = some v → m.toNat < 16 →
      (v.f x fmt old [src]).1.getD (64 * i + j) 0 = src.elems.getD (64 * m.toNat + j) 0))

/-- VGETS, VGETS.ST, VLUT and VACC: an element to a register, VSTAT, a codebook lookup, and an exact add to a tile (R34, R102, R164, R182, R187, R188). -/
def Obligations.VectorScalarsAndTiles : Prop :=
  (∀ (h : Hdr) (tea : Bool) (d a b : Name) (s s1 s2 s3 s4 : State) (n : Word) (v : Source), s.mayIssue .V h.wait →
    (src (s.word .V h) b).run (s.waited h.wait) = .ok (n, s1) →
    operandStall s1 s.cur tea (findOperand s1 s.cur a) = .ok () →
    (takeOperand (s.word .V h) tea 0 (findOperand s1 s.cur a)).run s1 = .ok (v, s2) →
    (claimBanks (s.word .V h) (v.runs.foldl (fun m r => m ||| banksOf r.1 r.2) 0#32)).run s2 = .ok ((), s3) →
    (reserve (s.word .V h) d).run s3 = .ok ((), s4) →
    exec (.vgets h tea d a b) s = .next (s4.landsLater s .V h 1 3 (.scalarResultLands (s.word .V h) d
      (if fmtClass v.fmt = .int then sextWord (intBits v.fmt) (v.elems.getD (n.toNat % 1024) 0)
        else BitVec.ofNat 64 (v.elems.getD (n.toNat % 1024) 0))))) ∧
  (∀ (h : Hdr) (clr : Bool) (d : Name) (s t : State), s.mayIssue .V h.wait →
    ((s.waited h.wait).core s.cur).wV.pend = 0 →
    (reserve (s.word .V h) d).run (if clr then (s.waited h.wait).modCore s.cur (fun k => { k with vstat := 0 })
      else s.waited h.wait) = .ok ((), t) →
    exec (.vgetsSt h clr d) s = .next (t.landsLater s .V h 1 3 (.scalarResultLands (s.word .V h) d
      (((s.waited h.wait).core s.cur).vstat.setWidth 64)))) ∧
  (∀ (h : Hdr) (tea sat hi : Bool) (d a : Name) (n : BitVec 3) (s s2 : State) (fmt : Byte) (r : Nat × Nat) (old : List Nat)
      (v : Source), s.mayIssue .V h.wait →
    (vectorOperands (s.word .V h) d false [(a, tea)]).run (s.waited h.wait) = .ok ((fmt, r, old, [v]), s2) →
    fmtClass v.fmt = .int → isFloat fmt = true → (s2.core s.cur).inText r.1 r.2 = false →
    let book := (s.waited h.wait).codebook s.cur n
    let res := v.elems.map (fun x => lutElem fmt sat (book.getD (if hi then x / 16 % 16 else x % 16) 0))
    exec (.vlut h tea sat hi d a (.k n)) s = .next ((s2.owes s r).landsLater s .V h 4 6 (.vectorResultLands (s.word .V h)
      (keyRS s.cur r.1) (unelems (fmtSize fmt) (res.map (fun x => x.1))) (orFlags (res.map (fun x => x.2)))))) ∧
  (∀ (h : Hdr) (tea : Bool) (n : BitVec 4) (a : Name) (s s1 s2 : State) (r : Nat × Nat) (v : Source), s.mayIssue .V h.wait →
    ((s.waited h.wait).core s.cur).tileRun n = some r → destFree (s.waited h.wait) s.cur r = true →
    operandStall (s.waited h.wait) s.cur tea (findOperand (s.waited h.wait) s.cur a) = .ok () →
    (takeOperand (s.word .V h) tea 0 (findOperand (s.waited h.wait) s.cur a)).run (s.waited h.wait) = .ok (v, s1) →
    fmtClass v.fmt ≠ .bit → (claimBanks (s.word .V h) (BitVec.allOnes 32)).run s1 = .ok ((), s2) →
    (s2.core s.cur).inText r.1 r.2 = false →
    exec (.vacc h tea (.a n) a) s = .next (State.landsLater (State.owes (s2.modCore s.cur (fun k => { k with
      busyTiles := k.busyTiles ++ [(r.1, r.2, (s.word .V h).age)] })) s r) s .V h 4 8 (.vectorResultLands (s.word .V h)
        (keyRS s.cur r.1) (tileOver (s2.read ((s.waited h.wait).ownTag s.cur) (keyRS s.cur r.1) r.2) (fun _ => true)
          (accumulate v.fmt v.elems v.bad (wtile (s2.read ((s.waited h.wait).ownTag s.cur) (keyRS s.cur r.1) r.2)))) 0)))

/-- VLD and VST: each access moves one view between register space or the local vault and its page (R34, R39, R53, R191, R192, R193). -/
def Obligations.ViewLoadsAndStores : Prop :=
  (∀ (h : Hdr) (d base : Name) (step : BitVec 8) (count : BitVec 7) (s : State) (r : Nat × Nat) (acc : Bool) (off : Nat),
    s.mayAccess h d base r acc → bitOf (s.accessBase h base).toNat 35 = false →
    viewPlace (s.accessed h) s.cur (s.accessAddr h base step r.2) r.2 acc = some (.inl off) →
    destFree (s.accessed h) s.cur r = true → runFree (s.accessed h) s.cur (off, r.2) = true →
    (s.accessed h).full s.cur off r.2 = true → (s.core s.cur).inText r.1 r.2 = false →
    (s.accessing h base).wins s .V (banksOf off r.2) →
    let last := decide ((s.core s.cur).wV.access = count.toNat)
    let o := s.accessWord h last
    exec (.vld h d base step count) s = .next (State.goesOn (((((((s.accessing h base).claims s .V (banksOf off r.2)).owes s r).begin
      o).later s.cur 6 (.vectorResultLands o (keyRS s.cur r.1)
        ((s.accessed h).read ((s.accessed h).ownTag s.cur) (keyRS s.cur off) r.2) 0))).modCore s.cur (fun k => { k with
          moves := k.moves ++ [o.age] })) s last 4 (fun v => { v with access := v.access + 1 }))) ∧
  (∀ (h : Hdr) (d base : Name) (step : BitVec 8) (count : BitVec 7) (s : State) (r : Nat × Nat) (acc : Bool) (off : Nat),
    s.mayAccess h d base r acc → bitOf (s.accessBase h base).toNat 35 = false →
    viewPlace (s.accessed h) s.cur (s.accessAddr h base step r.2) r.2 acc = some (.inl off) →
    runFree (s.accessed h) s.cur r = true → (s.accessed h).full s.cur r.1 r.2 = true →
    destFree (s.accessed h) s.cur (off, r.2) = true → (s.core s.cur).inText off r.2 = false →
    (s.accessing h base).wins s .V (banksOf r.1 r.2) →
    let last := decide ((s.core s.cur).wV.access = count.toNat)
    let o := s.accessWord h last
    exec (.vst h d base step count) s = .next (State.goesOn (((((((s.accessing h base).claims s .V (banksOf r.1 r.2)).owes s
      (off, r.2)).begin o).later s.cur 6 (.vectorResultLands o (keyRS s.cur off)
        ((s.accessed h).read ((s.accessed h).ownTag s.cur) (keyRS s.cur r.1) r.2) 0))).modCore s.cur (fun k => { k with
          moves := k.moves ++ [o.age] })) s last 4 (fun v => { v with access := v.access + 1 }))) ∧
  (∀ (h : Hdr) (d base : Name) (step : BitVec 8) (count : BitVec 7) (s : State) (r : Nat × Nat) (acc : Bool) (key : Nat),
    s.mayAccess h d base r acc → bitOf (s.accessBase h base).toNat 35 = true →
    viewPlace (s.accessed h) s.cur (s.accessAddr h base step r.2) r.2 acc = some (.inr key) →
    destFree (s.accessed h) s.cur r = true → (s.accessed h).hits s.cur key r.2 = false →
    ((s.accessed h).core s.cur).pendMeets (key, r.2) = false → (s.core s.cur).inText r.1 r.2 = false →
    let last := decide ((s.core s.cur).wV.access = count.toNat)
    let o := s.accessWord h last
    let a := if (s.accessed h).anyBad ((s.accessed h).ownTag s.cur) key r.2 then
        (s.accessing h base).modCore s.cur (fun k => { k with vstat := k.vstat ||| vLoaderr }) else s.accessing h base
    exec (.vld h d base step count) s = .next (State.goesOn ((((((a.noteBad ((s.accessed h).ownTag s.cur) key r.2).markEmpty ((s.accessed h).ownTag s.cur)
      s.cur r.1 r.2).owes s r).begin o)).later s.cur 19 (.longLatencyWriteComplete o r.1
        ((s.accessed h).readClean ((s.accessed h).ownTag s.cur) key r.2))) s last 8
          (fun v => { v with access := v.access + 1 }))) ∧
  (∀ (h : Hdr) (d base : Name) (step : BitVec 8) (count : BitVec 7) (s : State) (r : Nat × Nat) (acc : Bool) (key : Nat),
    s.mayAccess h d base r acc → bitOf (s.accessBase h base).toNat 35 = true → 0 < r.2 →
    viewPlace (s.accessed h) s.cur (s.accessAddr h base step r.2) r.2 acc = some (.inr key) →
    ((s.core s.cur).wV.grant = 0 → runFree (s.accessed h) s.cur r = true ∧ (s.accessed h).full s.cur r.1 r.2 = true ∧
      (s.accessed h).hits s.cur key r.2 = false ∧ ((s.accessed h).core s.cur).pendMeets (key, r.2) = false) →
    let g := (s.core s.cur).wV.grant
    let part := if acc then 4096 else r.2
    (s.accessing h base).wins s .V (banksOf (r.1 + g * part) part) →
    let last := decide ((s.core s.cur).wV.access = count.toNat)
    let lastG := decide ((g + 1) * part = r.2)
    let o := s.accessWord h (last && lastG)
    let t := (((((s.accessing h base).claims s .V (banksOf (r.1 + g * part) part)).modCore s.cur (fun k => { k with
      vpend := k.vpend ++ [(key + g * part, part, o.age)] })).begin o).later s.cur (20 - g) (.vectorResultLands o (key + g * part)
        ((s.accessed h).read ((s.accessed h).ownTag s.cur) (keyRS s.cur (r.1 + g * part)) part) 0))
    exec (.vst h d base step count) s = .next (if lastG then
        t.goesOn s last (8 - g) (fun v => { v with access := v.access + 1, grant := 0, run := none })
      else State.goesOn (t.modCore s.cur (fun k => k.askNext (s.bankAge .V) (banksOf (r.1 + (g + 1) * part) part))) s false 1
        (fun v => { v with grant := g + 1, run := some (r, acc), asked := some (s.bankAge .V) })))

/-- A vector result lands whole with its flags; a long-latency result fills its view; no other byte changes (R22, R26, R27, R28, R125, R164, R166). -/
def Obligations.VectorResultsLand : Prop :=
  (∀ (o : Origin) (key : Nat) (bytes : List Byte) (flags : BitVec 7) (s : State), key + bytes.length < 2 ^ 56 →
    (s.core o.core).fixedNow = [] →
    exec (.vectorResultLands o key bytes flags) s = .next ((((s.writeUser (s.ownTag o.core) key bytes).modCore o.core (fun k =>
      { k with fixedNow := k.fixedNow ++ [(key, bytes.length, o.steps * 8 + walkerNum o.walker)] })).modCore o.core (fun k =>
        { k with vpend := dropFirst (fun e => e.1 = key && e.2.2 = o.age) k.vpend, moves := k.moves.filter (· ≠ o.age),
                 busyTiles := k.busyTiles.filter (fun e => e.2.2 ≠ o.age), vstat := k.vstat ||| flags })).finish o)) ∧
  (∀ (o : Origin) (off : Nat) (bytes : List Byte) (s : State),
    ((s.core o.core).banksLost o.age (banksOf off bytes.length) = 0 →
      exec (.longLatencyWriteComplete o off bytes) s = .next (((s.modCore o.core (fun k =>
        k.winBanks o.age (banksOf off bytes.length))).modCore o.core (fun k => { k with
          latches := k.latches ++ [.fill off bytes.length, .tidy o] })).write (s.ownTag o.core) (keyRS o.core off) bytes)) ∧
    ((s.core o.core).banksLost o.age (banksOf off bytes.length) ≠ 0 →
      exec (.longLatencyWriteComplete o off bytes) s = .next (State.later (s.modCore o.core (fun k =>
        k.missBanks o.age (banksOf off bytes.length))) o.core 1 (.longLatencyWriteComplete o off bytes)))) ∧
  (∀ (s : State) (tag : Tag) (k : Nat) (bs : List Byte) (a : Nat), s.Canonical → bs ≠ [] →
    (a < unitOf k ∨ unitOf (k + bs.length - 1) + unitSize k ≤ a) → isTagged k = true → isTagged (k + bs.length - 1) = true →
    unitSize (k + bs.length - 1) = unitSize k → memByte (s.write tag k bs).mem a = memByte s.mem a)

/-- MNEST, MOPD, MFMT and MDST write the shadow copy; MERRQ, MCBLD and MOCINV complete (R34, R131, R132, R133, R134, R135, R143, R145, R156). -/
def Obligations.MatrixConfigurationWords : Prop :=
  (∀ (h : Hdr) (level : BitVec 8) (a b : Name) (s : State), s.mayIssue .M h.wait →
    ((s.waited h.wait).core s.cur).scoreboard.contains (xNum a).toNat = false →
    ((s.waited h.wait).core s.cur).scoreboard.contains (xNum b).toNat = false →
    let n := s.xArg h a
    let st := s.xArg h b
    (n.toNat < 2 ^ 16 → exec (.mnest h level a b) s = .next (State.settles ((s.waited h.wait).modCore s.cur (fun k => { k with
      shadow := { k.shadow with
        levels := k.shadow.levels.set level.toNat ⟨n.setWidth 16, st.setWidth 16, st.extractLsb' 16 16, st.extractLsb' 32 16, st.extractLsb' 48 8, st.extractLsb' 56 8⟩ } }))
          s .M h 1 [])) ∧
    (2 ^ 16 ≤ n.toNat → exec (.mnest h level a b) s =
      .next ((s.takeTrap { s.word .M h with post2 := 0 } .rsvd 0 0).stalled s.cur .M))) ∧
  (∀ (h : Hdr) (card : Name) (src : MSrc) (s : State), s.mayIssue .M h.wait →
    ((s.waited h.wait).core s.cur).scoreboard.contains (xNum card).toNat = false →
    let v := s.xArg h card
    exec (.mopd h card false src) s = .next (State.settles ((s.waited h.wait).modCore s.cur (fun k => { k with
      shadow := { k.shadow with asrc := some src, aorgk := v.setWidth 32, aorgr := v.extractLsb' 32 32 } })) s .M h 1 []) ∧
    exec (.mopd h card true src) s = .next (State.settles ((s.waited h.wait).modCore s.cur (fun k => { k with
      shadow := { k.shadow with bsrc := some src, borgk := v.setWidth 32, borgc := v.extractLsb' 32 32 } })) s .M h 1 [])) ∧
  (∀ (h : Hdr) (af bf : Byte) (zp : Bool) (cb : BitVec 3) (sel : Bool) (s : State), s.mayIssue .M h.wait →
    ((s.waited h.wait).inReduced s.cur = false ∨ (af = 2 ∧ bf = 2) ∨ (af = 5 ∧ bf = 5)) →
    exec (.mfmt h af bf zp cb sel) s = .next (State.settles ((s.waited h.wait).modCore s.cur (fun k => { k with
      shadow := { k.shadow with afmt := af, bfmt := bf, zp := zp, cb := cb, cbsel := sel } })) s .M h 1 [])) ∧
  (∀ (h : Hdr) (n : BitVec 4) (s : State), s.mayIssue .M h.wait →
    exec (.mdst h (.a n)) s = .next (State.settles ((s.waited h.wait).modCore s.cur (fun k => { k with
      shadow := { k.shadow with dest := n } })) s .M h 1 [])) ∧
  (∀ (h : Hdr) (clr : Bool) (d : Name) (s t : State), s.mayIssue .M h.wait →
    (reserve (s.word .M h) d).run (if clr then (s.waited h.wait).modCore s.cur (fun k => { k with merrlog := 0 })
      else s.waited h.wait) = .ok ((), t) →
    exec (.merrq h clr d) s = .next (t.landsLater s .M h 1 3 (.scalarResultLands (s.word .M h) d
      ((s.waited h.wait).core s.cur).merrlog))) ∧
  (∀ (h : Hdr) (n : BitVec 3) (a : Name) (s t : State), s.mayIssue .M h.wait →
    ((s.waited h.wait).core s.cur).scoreboard.contains (xNum a).toNat = false →
    let x := (s.xArg h a).toNat
    x % 32 = 0 → x + 32 ≤ 0x40000 → (s.waited h.wait).full s.cur x 32 = true →
    (s.waited h.wait).hits s.cur (keyRS s.cur x) 32 = false →
    (claimBanks (s.word .M h) (banksOf x 32)).run (s.waited h.wait) = .ok ((), t) →
    exec (.mcbld h (.k n) a) s = .next (t.landsLater s .M h 1 3 (.vectorResultLands (s.word .M h) (keyBook s.cur n)
      ((s.waited h.wait).read ((s.waited h.wait).ownTag s.cur) (keyRS s.cur x) 32) 0))) ∧
  (∀ (h : Hdr) (s : State), s.mayIssue .M h.wait →
    exec (.mocinv h) s = .next ((s.waited h.wait).landsLater s .M h 1 4 (.vectorResultLands (s.word .M h) (keyCache s.cur) [] 0))) ∧
  (∀ (o : Origin) (n : BitVec 3) (bytes : List Byte) (s : State), ∃ t : State, exec (.vectorResultLands o (keyBook o.core n) bytes 0) s =
      .next (t.finish o) ∧ t.mem = s.mem ∧ (t.core o.core).x = (s.core o.core).x ∧
      Tbl.get (t.core o.core).codebooks ((2 ^ 58 + 8 * o.core + n.toNat) % 8) ⟨voidTag, []⟩ =
        ⟨s.ownTag o.core, (elems 2 16 bytes).map (BitVec.ofNat 16)⟩) ∧
  (∀ (o : Origin) (bytes : List Byte) (s : State), ∃ t : State, exec (.vectorResultLands o (keyCache o.core) bytes 0) s =
      .next (t.finish o) ∧ (t.core o.core).ocache = [] ∧ t.mem = s.mem ∧ (t.core o.core).x = (s.core o.core).x)

/-- MGO starts the nest of its shadow copy; MINIT, MZERO, MNORM, MSTAT, MRSUM and MDRAIN wait at their tile (R123, R131, R136, R140, R148, R149, R150, R151, R152, R153, R155). -/
def Obligations.MatrixWordsStart : Prop :=
  (∀ (h : Hdr) (acc : Bool) (s : State), s.mayIssue .M h.wait →
    let k := (s.waited h.wait).core s.cur
    k.nest = none → k.bookPending = false →
    (∀ p, k.shadow.asrc = some (.port p) → (Tbl.get k.ports p.toNat PortSt.reset).armed = true →
      (s.waited h.wait).full s.cur (portDesc p) 64 = true) →
    (∀ n, nestOf (s.waited h.wait) (s.word .M h) acc = .ok n →
      exec (.mgo h acc) s = .next (State.landsLater ((s.waited h.wait).modCore s.cur (fun k => { k with
        nest := some n, running := k.shadow })) s .M h 1 0 (.nestStep s.cur)) ∧ n.cfg = k.shadow ∧ n.acc = acc ∧ n.taken = 0) ∧
    (∀ cls, nestOf (s.waited h.wait) (s.word .M h) acc = .error cls →
      exec (.mgo h acc) s = .next ((s.takeTrap { s.word .M h with post2 := 0 } cls 0 0).stalled s.cur .M)) ∧
    (k.shadow.asrc = none ∨ k.shadow.bsrc = none → nestOf (s.waited h.wait) (s.word .M h) acc = .error .rsvd)) ∧
  (∀ (h : Hdr) (n : BitVec 4) (imm : BitVec 15) (s : State) (r : Nat × Nat), s.mayIssue .M h.wait →
    ((s.waited h.wait).core s.cur).tileRun n = some r → (s.waited h.wait).hitsBut s.cur r.1 r.2 = false →
    (s.waited h.wait).full s.cur r.1 r.2 = true → ((s.waited h.wait).core s.cur).inText r.1 r.2 = false →
    exec (.minit h (.a n) imm) s = .next ((s.waited h.wait).waitsAtTile s h r.1 (.init imm.toInt)) ∧
    exec (.mzero h (.a n)) s = .next ((s.waited h.wait).waitsAtTile s h r.1 .zero) ∧
    exec (.mnorm h (.a n)) s = .next ((s.waited h.wait).waitsAtTile s h r.1 .norm)) ∧
  (∀ (h : Hdr) (d : Name) (n : BitVec 4) (row : BitVec 5) (s t : State) (r : Nat × Nat), s.mayIssue .M h.wait →
    ((s.waited h.wait).core s.cur).tileRun n = some r → (s.waited h.wait).hitsBut s.cur r.1 r.2 = false →
    (s.waited h.wait).full s.cur r.1 r.2 = true → (reserve (s.word .M h) d).run (s.waited h.wait) = .ok ((), t) →
    exec (.mstat h d (.a n) row) s = .next (t.waitsAtTile s h r.1 (.stat d row.toNat))) ∧
  (∀ (h : Hdr) (sat : Bool) (rnd : Rnd) (d : Name) (n : BitVec 4) (s : State) (r dr : Nat × Nat), s.mayIssue .M h.wait →
    ((s.waited h.wait).core s.cur).tileRun n = some r → destView (s.waited h.wait) s.cur d = some (1, dr) →
    (s.waited h.wait).hitsBut s.cur r.1 r.2 = false → (s.waited h.wait).full s.cur r.1 r.2 = true →
    (s.waited h.wait).hits s.cur (keyRS s.cur dr.1) dr.2 = false → (s.waited h.wait).full s.cur dr.1 dr.2 = true →
    ((s.waited h.wait).core s.cur).inText dr.1 dr.2 = false →
    exec (.mrsum h sat rnd d (.a n)) s = .next ((s.waited h.wait).waitsAtTile s h r.1 (.rsum dr.1 rnd sat))) ∧
  (∀ (h : Hdr) (te : Te) (fmt : BitVec 3) (sat : Bool) (d : Name) (n : BitVec 4) (vs : Option (BitVec 6)) (s : State)
      (r dr : Nat × Nat), s.mayIssue .M h.wait →
    ((s.waited h.wait).core s.cur).tileRun n = some r → destView (s.waited h.wait) s.cur d = some (drainFmt fmt, dr) →
    (∀ v, vs = some v → (((s.waited h.wait).core s.cur).viewReg v).fmt = 1 ∧
      (te.b = true → (s.waited h.wait).full s.cur (((s.waited h.wait).core s.cur).viewReg v).run.1 256 = true) ∧
      (s.waited h.wait).hitsBut s.cur (((s.waited h.wait).core s.cur).viewReg v).run.1 256 = false) →
    (s.waited h.wait).hitsBut s.cur r.1 r.2 = false → (te.a = true → (s.waited h.wait).full s.cur r.1 r.2 = true) →
    (s.waited h.wait).hits s.cur (keyRS s.cur dr.1) dr.2 = false → (s.waited h.wait).full s.cur dr.1 dr.2 = true →
    ((s.waited h.wait).core s.cur).inText dr.1 dr.2 = false →
    exec (.mdrain h te fmt false sat d (.a n) vs) s = .next (State.waitsAtTile ((s.waited h.wait).markEmpty
      ((s.waited h.wait).ownTag s.cur) s.cur dr.1 dr.2) s h r.1
        (.drain (drainFmt fmt) sat dr.1 (vs.map (fun v => (((s.waited h.wait).core s.cur).viewReg v).run.1)) none))) ∧
  (∀ (h : Hdr) (te : Te) (fmt : BitVec 3) (sat : Bool) (d : Name) (n : BitVec 4) (v : BitVec 6) (s : State)
      (r dr : Nat × Nat), s.mayIssue .M h.wait →
    let k := (s.waited h.wait).core s.cur
    k.tileRun n = some r → destView (s.waited h.wait) s.cur d = some (drainFmt fmt, dr) →
    (k.viewReg v).fmt = 1 → (k.viewReg (v + 1)).fmt = 5 →
    (te.b = true → (s.waited h.wait).full s.cur (k.viewReg v).run.1 256 = true ∧
      (s.waited h.wait).full s.cur (k.viewReg (v + 1)).run.1 64 = true) →
    (s.waited h.wait).hitsBut s.cur (k.viewReg v).run.1 256 = false →
    (s.waited h.wait).hitsBut s.cur (k.viewReg (v + 1)).run.1 64 = false →
    (s.waited h.wait).hitsBut s.cur r.1 r.2 = false → (te.a = true → (s.waited h.wait).full s.cur r.1 r.2 = true) →
    (s.waited h.wait).hits s.cur (keyRS s.cur dr.1) dr.2 = false → (s.waited h.wait).full s.cur dr.1 dr.2 = true →
    k.inText dr.1 dr.2 = false →
    exec (.mdrain h te fmt true sat d (.a n) (some v)) s = .next (State.waitsAtTile ((s.waited h.wait).markEmpty
      ((s.waited h.wait).ownTag s.cur) s.cur dr.1 dr.2) s h r.1
        (.drain (drainFmt fmt) sat dr.1 (some (k.viewReg v).run.1) (some (k.viewReg (v + 1)).run.1))))

/-- A nest steps once a cycle, waits for what its sources lack, and ends 11 cycles after its last step (R34, R136, R137, R138, R140, R141, R142). -/
def Obligations.NestsRun : Prop :=
  (∀ (c : Nat) (s : State), (s.core c).nest = none →
    exec (.nestStep c) s = .next s ∧ exec (.nestEnd c) s = .next s) ∧
  (∀ (c : Nat) (s : State) (n : NestRun), (s.core c).nest = some n → n.started = false →
    ((s.core c).invalidating n.o.age = true ∨ s.nestFree c n = false) →
    exec (.nestStep c) s = .next (s.later c 1 (.nestStep c))) ∧
  (∀ (c : Nat) (s : State) (n : NestRun), (s.core c).nest = some n → n.started = false →
    (s.core c).invalidating n.o.age = false → s.nestFree c n = true → n.cfg.total = 0 →
    (s.core c).banksLost n.o.age ((nestSnaps n).foldl (fun m r => m ||| banksOf r.1 r.2) 0#32) = 0 →
    ∃ t : State, exec (.nestStep c) s = .next (t.later c 10 (.nestEnd c)) ∧
      (∃ m, (t.core c).nest = some m ∧ m.started = true ∧ m.taken = n.taken ∧ m.cfg = n.cfg) ∧
      (n.acc = true → t.mem = s.mem ∧ t.tags = s.tags)) ∧
  (∀ (c : Nat) (s : State) (n : NestRun), (s.core c).nest = some n → n.started = false →
    (s.core c).invalidating n.o.age = false → s.nestFree c n = true →
    let b := (nestSnaps n).foldl (fun m r => m ||| banksOf r.1 r.2) 0#32
    (s.core c).banksLost n.o.age b ≠ 0 →
    exec (.nestStep c) s = .next (State.later (s.modCore c (fun k => k.missBanks n.o.age b)) c 1 (.nestStep c))) ∧
  (∀ (c : Nat) (s : State) (n : NestRun), (s.core c).nest = some n → n.started = true →
    (∀ p, n.cfg.asrc ≠ some (.port p)) →
    let bs := (List.range 4).map (fun q => (List.range 64).map (bElem s c n q))
    let as := (List.range 16).map (fun i => (List.range 4).map (aElem s c n i))
    let misses := ((as ++ bs).flatMap (fun l => l.flatMap (fun x => x.2.keys))).eraseDups
    (misses = [] → exec (.nestStep c) s = .next (s.nestAdd c n as bs)) ∧
    (misses ≠ [] → exec (.nestStep c) s = .next ((misses.foldl (fun t k => t.later c 12 (.operandCacheFill c k)) s).later c 12
      (.nestStep c)))) ∧
  (∀ (c : Nat) (s : State) (n : NestRun) (as bs : List (List ((Int × Int) × Elem))),
    ((s.nestAdd c n as bs).core c).nest = some { n with taken := n.taken + 1 } ∧
    (s.nestAdd c n as bs).galleys = s.galleys ∧
    ((s.nestAdd c n as bs).core c).agenda = addDue ((s.core c).time + (if n.taken + 1 = n.cfg.total then 11 else 1))
      (if n.taken + 1 = n.cfg.total then .nestEnd c else .nestStep c) (s.core c).agenda) ∧
  (∀ (c : Nat) (s : State) (n : NestRun) (as bs : List (List ((Int × Int) × Elem))), as.length = 16 → (∀ l ∈ as, l.length = 4) →
    bs.length = 4 → (∀ l ∈ bs, l.length = 64) → (s.core c).macBad = [] →
    let off := Tbl.get n.tiles (n.cfg.dest.toNat + n.cfg.sum n.taken (fun l => l.cstep.toInt)).toNat 0
    let av := fun i q => ((as.getD i []).getD q ((0, 0), .val Val.zero false)).2.v
    let bv := fun q j => ((bs.getD q []).getD j ((0, 0), .val Val.zero false)).2.v
    let clamp := fun y : Int => max (-(2 : Int) ^ 77) (min ((2 : Int) ^ 77 - 1) y)
    ∃ rows : List WRow, (s.nestAdd c n as bs).mem = (s.putTileBut c off (fun _ => !n.cfg.zp) rows).mem ∧ rows.length = 16 ∧
      ∀ i, i < 16 →
        let r := (s.tile c off).getD i ⟨0, 0, 0, (0, 0), [], []⟩
        let r' := rows.getD i ⟨0, 0, 0, (0, 0), [], []⟩
        r'.e = r.e ∧ r'.rse = r.rse ∧ (n.cfg.zp = false → r'.sum = r.sum) ∧
        (∀ j, j < 64 → (r.els.getD j (0, 0)).2 = 0 → (∀ q, q < 4 → ((av i q).mul (bv q j)).1.isFin = true) →
          r'.els.getD j (0, 0) = (clamp ((r.els.getD j (0, 0)).1 + (units (r.e - 14) ((av i 0).mul (bv 0 j)).1).1 +
            (units (r.e - 14) ((av i 1).mul (bv 1 j)).1).1 + (units (r.e - 14) ((av i 2).mul (bv 2 j)).1).1 +
            (units (r.e - 14) ((av i 3).mul (bv 3 j)).1).1), 0)) ∧
        (n.cfg.zp = true → r.sum.2 = 0 → (∀ q, q < 4 → (av i q).isFin = true) →
          r'.sum = (clamp (r.sum.1 + (units (r.rse - 14) (av i 0)).1 + (units (r.rse - 14) (av i 1)).1 +
            (units (r.rse - 14) (av i 2)).1 + (units (r.rse - 14) (av i 3)).1), 0))) ∧
  (∀ (c : Nat) (s : State) (key : LineKey) (e : List Byte), s.lineEntry c key.tensor = some e →
    ∃ (l : OLine) (u : State), exec (.operandCacheFill c key) s = .next (u.modCore c (fun k => { k with
      ocache := (k.ocache.filter (fun l => l.key ≠ key)).drop ((k.ocache.filter (fun l => l.key ≠ key)).length - 255) ++ [l] })) ∧
      u.cores = s.cores ∧ u.mem = s.mem ∧ l.key = key ∧ l.vf = (s.core c).vf ∧ l.gen = s.gen (s.core c).vf) ∧
  (∀ (c : Nat) (s : State) (n : NestRun), (s.core c).nest = some n →
    ∃ t : State, exec (.nestEnd c) s = .next (t.finish n.o) ∧ (t.core c).nest = none ∧ t.mem = s.mem ∧
      (t.core c).matq = (s.core c).matq)

/-- MZERO writes zero to every element and row sum, keeps E and RSE, and takes 8 cycles from its tile being free (R149). -/
def Obligations.MzeroRule : Prop :=
  (∀ (c : DCtx) (w : IWord) (h : Hdr) (d : Name), decodeWord c w = .ok (.mzero h d) → encode (.mzero h d) = some w) ∧
  (∀ r : WRow, MatOp.zero.row r = { r with
    els := List.replicate 64 (0, 0), sum := (0, 0), status := 0, res := List.replicate 16 0 }) ∧
  (∀ img : List Byte, img.length = 0x2A00 →
    let out := tileBytes ((wtile img).map MatOp.zero.row)
    out.length = 0x2A00 ∧ out.take 0x2800 = zeros 0x2800 ∧
    ∀ i, i < 16 → (out.drop (0x2800 + 32 * i)).take 32 =
      (img.drop (0x2800 + 32 * i)).take 2 ++ zeros 2 ++ (img.drop (0x2804 + 32 * i)).take 2 ++ zeros 26) ∧
  (∀ (s : State) (c off a : Nat), s.Canonical → off % 128 = 0 → off + 0x2A00 ≤ 0x40000 →
    (a < keyRS c off ∨ keyRS c off + 0x2A00 ≤ a) →
    memByte (s.putTile c off ((s.tile c off).map MatOp.zero.row)).mem a = memByte s.mem a) ∧
  (∀ (s : State) (c : Nat) (e : MatWait), e.op = .zero → (s.core c).matq = [e] → (s.core c).nest = none →
    (s.core c).frozen = none → (s.core c).matOwed c e.tile 12288 = false →
    (e.lands = none → exec (.bankArbitration c [⟨e.o.age, 0⟩]) s = .next (State.later ((s.modCore c (fun k =>
      k.winBanks e.o.age 0)).modCore c (fun k => { k with matq := [{ e with lands := some (k.time + 8) }] })) c 1
        (.bankArbitration c [⟨e.o.age, 0⟩]))) ∧
    (∀ t, e.lands = some t → t ≤ (s.core c).time →
      exec (.bankArbitration c [⟨e.o.age, 0⟩]) s = .next (((s.modCore c (fun k => { k with matq := [] })).putTile c e.tile
        ((s.tile c e.tile).map MatOp.zero.row)).finish e.o)))

/-- Every word of the Gibbs walker takes its turn and its effect on the array is due after its latency (R263, R264, R268, R271, R272, R273, R274, R275, R276, R277, R278, R280). -/
def Obligations.GibbsWordsComplete : Prop :=
  (∀ (h : Hdr) (s : State), s.mayIssue .G h.wait →
    let w := s.waited h.wait
    (w.core s.cur).wG.pend = w.gxchs s.cur →
    (∀ replay bip n, exec (.gmode h replay bip n) s = .next (w.arrayWord s h 2 (.mode bip replay n.toNat))) ∧
    exec (.gcntc h) s = .next (w.arrayWord s h 2 .clear) ∧
    (∀ k, (w.gctl s.cur).gates = 0 → exec (.gswp h k) s = .next (w.arrayWord s h 1 (.skip k.toNat))) ∧
    (∀ k, (w.gctl s.cur).gates ≠ 0 → exec (.gswp h k) s = .next ((State.beginPhase (w.begin (s.word .G h))
      ⟨s.word .G h, k.toNat, 0, voidTag, []⟩).advanced s .G 1)) ∧
    (∀ (card : Name) (t : BitVec 12), (w.core s.cur).scoreboard.contains (xNum card).toNat = false →
      let e := w.tensorBytes (w.core s.cur).vf t
      let first := (s.xArg h card).toNat
      (w.entryLive (w.core s.cur).vf e = false →
        exec (.gload h card t) s = .next (w.arrayWord s h 12 (.load (zeros 64) first)) ∧
        exec (.gbias h card t) s = .next (w.arrayWord s h 12 (.bias (zeros 64) first))) ∧
      (w.entryLive (w.core s.cur).vf e = true → (entOf e).fmt = 6 → (entOf e).space = 0 → 1 ≤ (entOf e).sz 0 →
        ((entOf e).sz 0 ≤ 64 → first + (entOf e).sz 1 ≤ 8192 → w.extentLocal s.cur (loadShape e true) = true →
          exec (.gload h card t) s = .next (w.arrayWord s h (12 + ceilDiv (4 * (entOf e).sz 0 * (entOf e).sz 1) 64) (.load e first))) ∧
        (first + (entOf e).sz 0 ≤ 8192 → w.extentLocal s.cur (loadShape e false) = true →
          exec (.gbias h card t) s = .next (w.arrayWord s h (12 + ceilDiv (4 * (entOf e).sz 0) 64) (.bias e first))))) ∧
    (∀ (tea : Bool) (c : Byte) (a b : Name) (v : List Byte) (s1 : State),
      (w.core s.cur).scoreboard.contains (xNum b).toNat = false →
      (gibbsViews (s.word .G h) 5 [(a, tea)]).run w = .ok ([v], s1) → firstOk (s.xArg h b).toNat = true →
      exec (.gcolr h tea c a b) s = .next (s1.arrayWord s h 4 (.colour c.toNat (s.xArg h b).toNat v))) ∧
    (∀ (a : Name) (v : Word) (s1 : State), (src (s.word .G h) a).run w = .ok (v, s1) →
      ((fp32.decode (v.toNat % 2 ^ 32)).isFin = true →
        exec (.gbeta h a) s = .next (s1.arrayWord s h 2 (.beta (v.setWidth 32)))) ∧
      exec (.gseed h a) s = .next (s1.arrayWord s h 2 (.seed v))) ∧
    (∀ (te : Te) (a b : Name) (m v : List Byte) (s1 : State),
      (gibbsViews (s.word .G h) 0x0B [(a, te.a), (b, te.b)]).run w = .ok ([m, v], s1) →
      exec (.gclmp h te a b) s = .next (s1.arrayWord s h 2 (.clamp m v))) ∧
    (∀ (tea : Bool) (a : Name) (m : List Byte) (s1 : State),
      (gibbsViews (s.word .G h) 0x0B [(a, tea)]).run w = .ok ([m], s1) →
      exec (.gfree h tea a) s = .next (s1.arrayWord s h 2 (.free m))) ∧
    (∀ (d : Name) (r : Nat × Nat), w.hits s.cur (keyRS s.cur r.1) r.2 = false → w.full s.cur r.1 r.2 = true →
      (w.core s.cur).inText r.1 r.2 = false →
      let e := w.markEmpty (w.ownTag s.cur) s.cur r.1 r.2
      (destView w s.cur d = some (0x0B, r) → exec (.grds h d) s = .next (e.landsLater s .G h 1 7
        (.longLatencyWriteComplete (s.word .G h) r.1 (w.stateImage s.cur)))) ∧
      (∀ a, destView w s.cur d = some (6, r) → (w.core s.cur).scoreboard.contains (xNum a).toNat = false →
        firstOk (s.xArg h a).toNat = true →
        exec (.grdc h d a) s = .next (e.landsLater s .G h 1 7 (.longLatencyWriteComplete (s.word .G h) r.1
          ((List.range 1024).flatMap (fun n => leBytes 4 (w.cellCount s.cur ((s.xArg h a).toNat + n)))))) ∧
        exec (.grdf h d a) s = .next (e.landsLater s .G h 1 (7 + ceilDiv ((List.range 1024).foldl (fun t n =>
          t + (w.couplings s.cur ((s.xArg h a).toNat + n)).length) 0) 64) (.longLatencyWriteComplete (s.word .G h) r.1
            ((List.range 1024).flatMap (fun n => leBytes 4 (lowBits 32 (w.gibbsField s.cur ((s.xArg h a).toNat + n))))))))) ∧
    (∀ (clr : Bool) (sel : BitVec 3) (d : Name) (t : State),
      (reserve (s.word .G h) d).run (if clr = true ∧ w.gstatus s.cur ≠ GStatus.reset then
        w.modStatus s.cur (fun _ => GStatus.reset) else w) = .ok ((), t) →
      exec (.gstat h clr sel d) s = .next (t.landsLater s .G h 1 3 (.scalarResultLands (s.word .G h) d (
        match sel.toNat with
        | 0 => gstatWord (w.gctl s.cur) (w.gstatus s.cur)
        | 1 => (w.gctl s.cur).sweep
        | 2 => (w.gctl s.cur).seed
        | 3 => BitVec.ofNat 64 ((w.gctl s.cur).gates * 2 ^ 48 + (w.gctl s.cur).nact * 2 ^ 32 + (w.gctl s.cur).beta.toNat)
        | _ => BitVec.ofNat 64 (w.couplingsUsed s.cur)))))) ∧
  (∀ (o : Origin) (op : GibbsOp) (s : State), (s.core o.core).gibbs.word = some op →
    (∀ e f, op ≠ .load e f ∧ op ≠ .bias e f) → op.checks ((s.gibbsDo o.core op).gctl o.core).gates = false →
    exec (.vectorResultLands o keyGibbs [] 0) s = .next ((State.modGibbs (s.gibbsDo o.core op) o.core (fun a => { a with
      word := none })).finish o))

/-- A colour phase updates its gate at once; the last gate ends the sweep, the last sweep the word (R261, R262, R263, R265, R266). -/
def Obligations.ColourPhasesRun : Prop :=
  (∀ (c : Nat) (s : State), (s.core c).gibbs.sweep = none → exec (.colourPhase c) s = .next s) ∧
  (∀ (c : Nat) (s : State) (w : Sweep), (s.core c).gibbs.sweep = some w →
    (w.gate + 1 < (s.gctl c).gates →
      exec (.colourPhase c) s = .next ((s.updateGate c w).beginPhase { w with gate := w.gate + 1 })) ∧
    ((s.gctl c).gates ≤ w.gate + 1 → w.left ≤ 1 →
      exec (.colourPhase c) s = .next ((State.modGibbs ((s.updateGate c w).countSweeps c 1) c (fun a => { a with
        sweep := none })).finish w.o)) ∧
    ((s.gctl c).gates ≤ w.gate + 1 → 1 < w.left →
      exec (.colourPhase c) s = .next (((s.updateGate c w).countSweeps c 1).beginPhase
        { w with left := w.left - 1, gate := 0 }))) ∧
  (∀ (w : Sweep) (s : State), ((s.beginPhase w).core w.o.core).gibbs.sweep = some { w with
    h0Tag := (s.core w.o.core).gibbs.haloTag, h0 := (s.core w.o.core).gibbs.halo }) ∧
  (∀ (c : Nat) (w : Sweep) (s : State) (tag : Tag) (h : List Byte),
    (State.modGibbs s c (fun a => { a with haloTag := tag, halo := h })).updateGate c w =
      State.modGibbs (s.updateGate c w) c (fun a => { a with haloTag := tag, halo := h })) ∧
  (∀ (c i : Nat) (w : Sweep) (s : State), (s.gctl c).replay = true → i < 8192 →
    (s.cellColour c i ≠ w.gate ∨ s.cellClamp c i = true ∨ (s.gctl c).nact ≤ i) →
    (s.updateGate c w).cellS c i = s.cellS c i ∧ (s.updateGate c w).nextFree = s.nextFree) ∧
  (∀ (c i : Nat) (w : Sweep) (s : State), tagOk (s.ownTag c) (s.ownTag c) = true → i < (s.gctl c).nact →
    s.cellColour c i = w.gate → s.cellClamp c i = false → (s.gctl c).replay = true →
    (s.updateGate c w).cellS c i = decide ((replayDraw (s.gctl c).seed (s.gctl c).sweep i).toNat <
      gibbsP16 (s.gctl c).beta ((State.modGibbs s c (fun a => { a with haloTag := w.h0Tag, halo := w.h0 })).gibbsField c i))) ∧
  (∀ (c k i : Nat) (w : Sweep) (s : State), tagOk (s.ownTag c) (s.ownTag c) = true →
    (s.gateCells c w.gate)[k]? = some i → (s.gctl c).replay = false →
    (s.updateGate c w).cellS c i = decide ((Config.noise (s.nextFree + k)).toNat <
      gibbsP16 (s.gctl c).beta ((State.modGibbs s c (fun a => { a with haloTag := w.h0Tag, halo := w.h0 })).gibbsField c i))) ∧
  (∀ (c i : Nat) (s : State), s.gibbsField c i = s.cellBias c i + ((s.couplings c i).map (fun e => e.1 *
    (if (if e.2.1 then s.haloBit c e.2.2 else s.cellS c e.2.2) then 1 else if (s.gctl c).bip then -1 else 0))).sum)

/-- GCNTC clears the count of every cell, active or not (R279). -/
def Obligations.GcntcRule : Prop :=
  (∀ l : BitVec 4, decodeWord ⟨.tenant, l⟩ 0x850000000000 = .ok (.gcntc ⟨0, 0⟩)) ∧
  (∀ (c : DCtx) (w : IWord), fTag w = 4 → fOp w = 0x0A → w.toNat % 2 ^ 31 ≠ 0 → ∀ i, decodeWord c w ≠ .ok i) ∧
  (∀ (c : DCtx) (w : IWord) (h : Hdr), decodeWord c w = .ok (.gcntc h) → w.toNat % 2 ^ 31 = 0) ∧
  (∀ (h : Hdr) (s : State), s.mayIssue .G h.wait →
    ((s.waited h.wait).core s.cur).wG.pend = (s.waited h.wait).gxchs s.cur →
    exec (.gcntc h) s = .next ((s.waited h.wait).arrayWord s h 2 .clear)) ∧
  (∀ (o : Origin) (s : State), (s.core o.core).gibbs.word = some .clear →
    ∃ t : State, exec (.vectorResultLands o keyGibbs [] 0) s = .next (t.finish o) ∧
      (∀ i, t.cellCount o.core i = 0) ∧ (∀ i, t.cellS o.core i = s.cellS o.core i) ∧
      (∀ i, t.cellBias o.core i = s.cellBias o.core i) ∧ t.mem = s.mem)

/-- Each galley word whose card and order pass the steps of R206 registers a galley that starts at once or at its release (R201, R202, R203, R204, R206, R210, R222, R237, R240, R282, R371, R382). -/
def Obligations.GalleyWordsEnqueue : Prop :=
  ∀ (i : Instr) (v : GalleySpec) (s s1 : State) (b : List Byte) (ord : Order) (pages : List Nat),
    galleyWord i = some v → s.mayIssue v.w v.h.wait →
    (cardRecord (s.word v.w v.h) v.card).run (s.waited v.h.wait) = .ok (b, s1) → (s1.core s.cur).ctx = .tenant →
    cardOk v.kind v.exch b = true →
    (∀ sc, v.rel = some sc ∨ cardScope b = some sc → s1.scopeOk s.cur sc = true) →
    (v.order (s.word v.w v.h) b).run s1 = .ok (ord, s1) → s1.admits ord = true →
    (translate (s.word v.w v.h) ord.pages).run s1 = .ok (pages, s1) →
    ∃ (t : State) (g : Galley), exec i s = .next t ∧ Tbl.find t.galleys s1.nextGalley = some g ∧
      g.core = s.cur ∧ g.gang = (s1.core s.cur).gang ∧ g.o = s.word v.w v.h ∧ g.vf = (s1.core s.cur).vf ∧
      g.gen = s1.gen (s1.core s.cur).vf ∧ g.job = ord.job ∧ g.reads = ord.reads ∧ g.writes = ord.writes ∧
      g.plan = ord.plan ∧ g.pages = pages ∧ g.rel = v.rel ∧ g.exch = bitOf (field b 1 1) 0 ∧ g.started = false ∧
      g.accepted = false ∧ t.nextGalley = s1.nextGalley + 1 ∧
      (∀ n, n ≠ s1.nextGalley → Tbl.find t.galleys n = Tbl.find s1.galleys n) ∧
      (s1.now, Instr.galleyStart s1.nextGalley) ∈ t.agenda ∧
      (∀ sc, v.rel = some sc → (s1.now, Instr.releaseTakesEffect (s.word v.w v.h) sc (s.word v.w v.h).age
        (.galley s1.nextGalley)) ∈ t.agenda) ∧
      (∀ r, (t.core s.cur).readX r = (s1.core s.cur).readX r) ∧
      (ord.entry = none → ord.empties = [] → t.mem = s1.mem)

/-- A galley starts, accepts, moves and retires: footprints and counts leave, its advance is sent, its post lands (R9, R194, R203, R210, R211, R217, R223, R233, R236, R242, R282, R284). -/
def Obligations.GalleyEvents : Prop :=
  (∀ (id : Nat) (s : State), Tbl.find s.galleys id = none →
    exec (.galleyStart id) s = .next s ∧ exec (.galleyAccept id) s = .next s ∧ exec (.galleyLineWrite id) s = .next s ∧
    exec (.galleyRetire id) s = .next s ∧ exec (.gxchPublish id) s = .next s ∧ exec (.gxchFetch id) s = .next s ∧
    exec (.gxchRetire id) s = .next s) ∧
  (∀ (id : Nat) (s : State) (g : Galley), Tbl.find s.galleys id = some g →
    (g.started = true → exec (.galleyStart id) s = .next s) ∧
    (g.started = false → (g.rel ≠ none ∨ s.edgeHolds g.core g.o.age g.reads g.writes = true ∨
        (s.core g.core).gang ≠ g.gang ∨ (s.core g.core).frozen ≠ none) →
      exec (.galleyStart id) s = .next (s.after 1 (.galleyStart id))) ∧
    (g.started = false → s.mayStart g = true →
      (g.job = .gxch → exec (.galleyStart id) s = .next (s.after 0 (.gxchPublish id))) ∧
      (∀ dm dc sp a, g.job = .put dm dc sp a → exec (.galleyStart id) s = .next (s.startPut id)) ∧
      (g.job ≠ .gxch → (∀ a b c d, g.job ≠ .put a b c d) → (∀ a b c, g.job ≠ .coll a b c) → g.job.listRange g.reads = none →
        exec (.galleyStart id) s = .next (s.startCopy id g g.plan 0)))) ∧
  (∀ (b : Byte) (l : List Rng), (Job.fill b).listRange l = none) ∧
  (∀ (id oor : Nat) (s : State) (g : Galley) (plan : List Piece), Tbl.find s.galleys id = some g →
    ∃ h, Tbl.find (s.startCopy id g plan oor).galleys id = some h ∧ h.started = true ∧ h.o = g.o ∧
      (s.startCopy id g plan oor).mem = s.mem) ∧
  (∀ (id : Nat) (s : State) (g : Galley), Tbl.find s.galleys id = some g →
    (g.accepted = true → exec (.galleyAccept id) s = .next s) ∧
    (g.accepted = false → s.gen g.vf ≠ g.gen ∨ s.gang g.gang = none →
      exec (.galleyAccept id) s = .next (s.modGalley id (fun g => { g with accepted := true }))) ∧
    (g.accepted = false → s.gen g.vf = g.gen → s.gang g.gang ≠ none →
      let far := g.writes.filter (fun r => isRS r.key && rsCore r.key ≠ g.core)
      ((∀ r ∈ far, (s.core (rsCore r.key)).frozen = none ∧ (s.core (rsCore r.key)).gang = g.gang ∧
          s.full (rsCore r.key) (rsOff r.key) r.len = true) →
        exec (.galleyAccept id) s = .next (State.modGalley (far.foldl (fun t r => t.markEmpty ⟨false, g.vf, g.gen⟩ (rsCore r.key)
          (rsOff r.key) r.len) s) id (fun g => { g with
            accepted := true
            farAge := far.head?.map (fun r => (s.core (rsCore r.key)).time * 8 + 7) }))) ∧
      ((∃ r ∈ far, s.full (rsCore r.key) (rsOff r.key) r.len = false) →
        exec (.galleyAccept id) s = .next (s.after 1 (.galleyAccept id))))) ∧
  (∀ (s : State) (tag : Tag) (c off n q : Nat), q ∈ granules off n → q ∈ ((s.markEmpty tag c off n).core c).empty) ∧
  (∀ (id : Nat) (s : State) (g : Galley) (p : Piece) (fs : List Piece) (bs : List Byte), Tbl.find s.galleys id = some g →
    (∀ a b c d, g.job ≠ .put a b c d) → (∀ a b c, g.job ≠ .coll a b c) → g.flight = p :: fs → p.due ≤ s.now →
    p.src = .data bs false → bs ≠ [] → p.holes = [] → isVault p.dst = true → s.gen g.vf = g.gen →
    exec (.galleyLineWrite id) s = .next (State.galleyGo ((s.writeUser ⟨false, g.vf, g.gen⟩ p.dst bs).modGalley id (fun g => { g with
      flight := fs, ack := max g.ack (s.now + p.ack) })) id)) ∧
  (∀ (id : Nat) (s : State) (g : Galley) (p : Piece) (ps : List Piece), Tbl.find s.galleys id = some g →
    (∀ a b c d, g.job ≠ .put a b c d) → (∀ a b c, g.job ≠ .coll a b c) → g.flight = [] → g.plan = p :: ps →
    p.due ≤ (s.core g.core).time →
    (s.core g.core).gang = g.gang → (s.core g.core).frozen ≠ none →
    exec (.galleyLineWrite id) s = .next (s.after 1 (.galleyLineWrite id))) ∧
  (∀ (id : Nat) (s : State) (g : Galley), Tbl.find s.galleys id = some g →
    (∀ tb t f n, g.job = .pref tb t f n → ∀ e ∈ (s.core g.core).agenda, ∀ c k, e.2 = .operandCacheFill c k → k.tensor ≠ t) →
    g.o.core = g.core → (s.core g.core).gang = g.gang → (s.core g.core).xfence = none →
    (g.plan ≠ [] ∨ g.flight ≠ [] ∨ g.started = false ∨ g.waitAck ≠ 0 ∨ s.now < g.ack →
      exec (.galleyRetire id) s = .next s) ∧
    (g.plan = [] → g.flight = [] → g.started = true → g.waitAck = 0 → g.ack ≤ s.now →
      ∃ t : State, exec (.galleyRetire id) s = .next (t.finish g.o) ∧ t.galleys = Tbl.del s.galleys id ∧ t.mem = s.mem ∧
        (t.core g.core).x = (s.core g.core).x ∧
        (g.counter = none → (t.core g.core).counters = (s.core g.core).counters) ∧
        (∀ n c, g.counter = some n → Tbl.find (s.core g.core).counters n.toNat = some c →
          c.tag = ⟨false, (s.core g.core).vf, s.gen (s.core g.core).vf⟩ → c.tag.gen ≠ 0 →
          Tbl.find (t.core g.core).counters n.toNat = some (if g.code = 0 then { c with done := min (2 ^ 32 - 1) (c.done + 1) }
            else { c with done := min (2 ^ 32 - 1) (c.done + 1), errs := min (2 ^ 16 - 1) (c.errs + 1), last := g.code }) ∧
          ∀ m, m ≠ n.toNat → Tbl.find (t.core g.core).counters m = Tbl.find (s.core g.core).counters m) ∧
        (∀ x : TEnt, x ∈ (t.core g.core).tcache ↔ ∃ y ∈ (s.core g.core).tcache,
          x = (if y.id ∈ g.pages then { y with count := y.count - 1 } else y) ∧ ¬(x.gone = true ∧ x.count = 0)) ∧
        (g.disp.getLsbD 15 = false → t.agenda = s.agenda) ∧
        (∀ sc, g.disp.getLsbD 15 = true → scopeOf (bitsOf g.disp.toNat 10 8) = some sc →
          t.agenda = addDue s.now (.releaseTakesEffect g.o sc (g.o.age + 1) (.advance g.gang (g.disp.setWidth 8) g.vf g.gen)) s.agenda))) ∧
  (∀ (id : Nat) (s : State) (g : Galley) (tb : List Byte) (t : BitVec 12) (f n : Nat), Tbl.find s.galleys id = some g →
    g.job = .pref tb t f n → (∃ d c k, (d, Instr.operandCacheFill c k) ∈ (s.home g.gang g.core).agenda ∧ k.tensor = t) →
    exec (.galleyRetire id) s = .next (s.after 1 (.galleyRetire id))) ∧
  (∀ (n : Nat) (s : State) (l : CoalLine), Tbl.find s.coalescer n = some l →
    (∀ e ∈ s.coalescer, e.1 < n → e.2.key ≠ l.key) → (l.host = true ∨ s.poolDown.contains (s.poolPort l.key) = false) →
    ∃ t : State, exec (.coalescerSend n) s = .next t ∧ Tbl.find t.coalescer n = some { l with sent := true } ∧ t.mem = s.mem ∧
      t.outbox = s.outbox ++ [if l.host then .hostLine l.key (l.bytes.map (fun b => b.getD 0))
        else .poolLine l.key (l.bytes.map (fun b => b.getD 0))]) ∧
  (∀ (n : Nat) (s : State) (l : CoalLine), Tbl.find s.coalescer n = some l → (∀ e ∈ s.coalescer, e.1 < n → e.2.key ≠ l.key) →
    l.host = false → s.poolDown.contains (s.poolPort l.key) = true →
    exec (.coalescerSend n) s = .next (s.after 0 (.poolPortDown (BitVec.ofNat 4 (s.poolPort l.key))))) ∧
  (∀ (n : Nat) (s : State) (l : CoalLine) (a : Nat), Tbl.find s.coalescer n = some l → s.Canonical → l.bytes.length = 64 →
    ∃ t : State, exec (.poolAck n) s = .next t ∧ (a < l.key ∨ l.key + 64 ≤ a → memByte t.mem a = memByte s.mem a) ∧
      (∀ i b, i < 64 → l.bytes.getD i none = some b → memByte t.mem (l.key + i) = b) ∧
      (∀ i, i < 64 → l.bytes.getD i none = none → memByte t.mem (l.key + i) = memByte s.mem (l.key + i))) ∧
  (∀ (id : Nat) (s : State) (g : Galley), Tbl.find s.galleys id = some g →
    ∃ plan, exec (.gxchPublish id) s = .next (s.startCopy id g plan 0) ∧
      (∀ w, g.writes = [w] → w.len = 64 → w.key % 64 = 0 → isVault w.key = true →
        (g.plan = [] → plan = [.of (.data ((s.stateImage g.core).take 64) false) w.key 0 0]) ∧
        (∀ p ps bs bad, g.plan = p :: ps → p.src = .data bs bad → plan = [.of (.data (bs.take 64) false) w.key 0 0]))) ∧
  (∀ (id : Nat) (s : State) (g : Galley), Tbl.find s.galleys id = some g → (s.gang g.gang).bind (fun v => v.phase) = none →
    exec (.gxchFetch id) s = .next (s.after 1 (.gxchFetch id))) ∧
  (∀ (id : Nat) (s : State) (g : Galley) (ph : Phase), Tbl.find s.galleys id = some g →
    (s.gang g.gang).bind (fun v => v.phase) = some ph →
    let done := if ph.published.contains id then ph.published else ph.published ++ [id]
    let u := s.modGang g.gang (fun v => { v with phase := some { ph with published := done } })
    ((∃ e ∈ s.galleys, e.2.gang = g.gang ∧ e.2.job = .gxch ∧ e.1 ∉ done) →
      exec (.gxchFetch id) s = .next (u.after 1 (.gxchFetch id))) ∧
    ((∀ e ∈ s.galleys, e.2.gang = g.gang → e.2.job = .gxch → e.1 ∈ done) →
      let own : Tag := ⟨false, g.vf, g.gen⟩
      let bad := g.reads.any (fun r => s.anyBad own r.key r.len)
      let far := g.reads.foldl (fun a r => match siteOf r.key with
        | some d => max a (if d = g.core then 12 else lineLatency g.core d)
        | none => a) 0
      exec (.gxchFetch id) s = .next (State.after (State.modGalley
        (if bad then u.modHome g.gang g.core (fun k => { k with xpoison := satAdd 16 k.xpoison 1 }) else u) id (fun g => { g with
          flight := [.of (.data (g.reads.flatMap (fun r => s.readClean own r.key r.len)) bad) 0 0 0] }))
        (far + ((g.reads.foldl (fun a r => a + r.len) 0) + 63) / 64) (.gxchRetire id)))) ∧
  (∀ (id : Nat) (s : State) (g : Galley) (p : Piece) (fs : List Piece) (bs : List Byte) (bad : Bool), Tbl.find s.galleys id = some g →
    g.flight = p :: fs → p.src = .data bs bad → s.gen g.vf = g.gen → (s.core g.core).gang = g.gang →
    ∃ t : State, exec (.gxchRetire id) s = .next (t.after 0 (.galleyRetire id)) ∧ (t.core g.core).gibbs.halo = bs ∧
      (t.core g.core).gibbs.haloTag = ⟨false, g.vf, g.gen⟩ ∧ t.mem = s.mem)

/-- XFENCE, XSTAT, FATOM, FPULL, FFENCE, FCNT, FSTAT, FBAR and FGRP complete, or begin their operation (R34, R40, R243, R244, R359, R371, R374, R375, R376, R377, R378, R379). -/
def Obligations.FabricWordsComplete : Prop :=
  (∀ (h : Hdr) (s : State), s.mayIssue .X h.wait →
    let w := s.waited h.wait
    let busy := w.galleys.any (fun g => g.2.core = s.cur && g.2.o.walker = .X && g.2.gang = (w.core s.cur).gang)
    (busy = true → exec (.xfence h) s = .next (((w.begin (s.word .X h)).modCore s.cur (fun k => { k.modW .X (fun v => { v with
      blocked := true }) with xfence := some (s.word .X h) })).advanced s .X 1)) ∧
    (busy = false → exec (.xfence h) s = .next (w.landsLater s .X h 1 1 (.vectorResultLands (s.word .X h) (keyCache s.cur) [] 0)))) ∧
  (∀ (h : Hdr) (clr : Bool) (d : Name) (s t : State), s.mayIssue .X h.wait →
    let w := s.waited h.wait
    let k := w.core s.cur
    let n := (w.galleys.filter (fun g => g.2.core = s.cur && g.2.gang = k.gang)).length
    (reserve (s.word .X h) d).run (if clr then w.modCore s.cur (fun k => { k with xpoison := 0, xoor := 0 }) else w) = .ok ((), t) →
    exec (.xstat h clr d) s = .next (t.landsLater s .X h 1 3 (.scalarResultLands (s.word .X h) d
      (BitVec.ofNat 64 (k.xpoison * 2 ^ 32 + k.xoor * 2 ^ 16 + n))))) ∧
  (∀ (h : Hdr) (op : AtomOp) (dbl uns : Bool) (d a b : Name) (s s1 s2 s3 s4 : State) (e x v : Word) (tag : BitVec 16),
    s.mayIssue .F h.wait →
    (if op = .cas then (src (s.word .F h) d).run (s.waited h.wait) = .ok (e, s1) else e = 0 ∧ s1 = s.waited h.wait) →
    (src (s.word .F h) a).run s1 = .ok (x, s2) → (src (s.word .F h) b).run s2 = .ok (v, s3) →
    s3.freeTag s.cur = some tag → (reserve (s.word .F h) d).run s3 = .ok ((), s4) →
    let dm : BitVec 12 := BitVec.ofNat 12 (x.toNat / 2 ^ 52)
    (s3.core s.cur).ctx = .tenant → bitsOf x.toNat 51 35 = 0 → x.toNat % (if dbl then 8 else 4) = 0 → dm ≠ s3.moduleId →
    exec (.fatom h op dbl uns d a b) s = .next (((s4.begin (s.word .F h)).startOp ⟨s.cur, (s3.core s.cur).gang,
      { s3.packet .atom s.cur tag dm 0 with addr := BitVec.ofNat 64 (x.toNat % 2 ^ 35), opnd0 := v, opnd1 := e
                                            opword := BitVec.ofNat 32 (op.code.toNat * 4 + dbl.toNat * 2 + uns.toNat) },
      0, none, .atom (s.word .F h) d⟩).advanced s .F 1)) ∧
  (∀ (h : Hdr) (card : Name) (n : BitVec 4) (s s1 : State) (r : List Byte) (tag : BitVec 16), s.mayIssue .F h.wait →
    (steppedRecord (s.word .F h) card 32 32).run (s.waited h.wait) = .ok (r, s1) → s1.freeTag s.cur = some tag →
    bitsOf (field r 0 8) 63 28 = 0 → bitsOf (field r 0 8) 15 8 = 0 → (s1.core s.cur).ctx = .tenant →
    let dm : BitVec 12 := BitVec.ofNat 12 (bitsOf (field r 0 8) 27 16)
    dm ≠ s1.moduleId →
    exec (.fpull h card n) s = .next (((s1.begin (s.word .F h)).startOp ⟨s.cur, (s1.core s.cur).gang,
      { s1.packet .pull s.cur tag dm (BitVec.ofNat 8 (field r 0 8)) with
        addr := BitVec.ofNat 64 (field r 8 8), opnd0 := BitVec.ofNat 64 (field r 16 8), opnd1 := BitVec.ofNat 64 (field r 24 8) },
      0, none, .pull (s.word .F h) n⟩).advanced s .F 1)) ∧
  (∀ (h : Hdr) (sc : Scope) (g : BitVec 4) (s : State), s.mayIssue .F h.wait → (s.waited h.wait).scopeOk s.cur sc = true →
    let b := ((s.waited h.wait).begin (s.word .F h)).modW s.cur .F (fun v => { v with blocked := true })
    exec (.ffence h sc) s = .next ((b.later s.cur 2 (.releaseTakesEffect (s.word .F h) sc (s.word .F h).age .ffence)).advanced s .F 1) ∧
    exec (.fbar h sc g) s = .next ((b.later s.cur 0 (.releaseTakesEffect (s.word .F h) sc (s.word .F h).age (.fbar g))).advanced s .F 1)) ∧
  (∀ (h : Hdr) (clr : Bool) (d : Name) (n : BitVec 4) (s t : State) (c : Counter), s.mayIssue .F h.wait →
    let w := s.waited h.wait
    Tbl.find (w.core s.cur).counters n.toNat = some c → c.tag = w.ownTag s.cur → c.tag.gen ≠ 0 →
    (reserve (s.word .F h) d).run (if clr then w.modCore s.cur (fun k => { k with
      counters := Tbl.put k.counters n.toNat ⟨w.ownTag s.cur, 0, 0, 0⟩ }) else w) = .ok ((), t) →
    exec (.fcnt h clr d n) s = .next (t.landsLater s .F h 1 3 (.scalarResultLands (s.word .F h) d
      (BitVec.ofNat 64 (c.last.toNat * 2 ^ 48 + c.errs * 2 ^ 32 + c.done))))) ∧
  (∀ (h : Hdr) (d : Name) (s t : State), s.mayIssue .F h.wait →
    let w := s.waited h.wait
    (reserve (s.word .F h) d).run w = .ok ((), t) →
    exec (.fstat h 0 d) s = .next (t.landsLater s .F h 1 3 (.scalarResultLands (s.word .F h) d (w.fabricStatus s.cur))) ∧
    exec (.fstat h 1 d) s = .next (t.landsLater s .F h 1 3 (.scalarResultLands (s.word .F h) d (BitVec.ofNat 64 w.domainNs))) ∧
    exec (.fstat h 2 d) s = .next (t.landsLater s .F h 1 3 (.scalarResultLands (s.word .F h) d (w.moduleId.setWidth 64)))) ∧
  (∀ (h : Hdr) (card : Name) (g : BitVec 4) (s s1 s2 : State) (off : Nat),
    let i := (s.core s.cur).wF.grant
    let wt := if i = 0 then h.wait else 0
    let w := s.waited wt
    let o := s.word .F h
    let won := if i = 0 then banksOf off 8 else 0
    let n := field (s1.read (s1.ownTag s.cur) (keyRS s.cur off) 8) 0 2
    let list := s1.read (s1.ownTag s.cur) (keyRS s.cur off) (8 + 4 * n)
    let parts := grantRuns off (8 + 4 * n)
    let banks := fun j : Nat => (parts[j]?).elim 0 (fun r => banksOf r.1 r.2)
    s.mayIssue .F wt → (recordAt o card 64 8).run w = .ok (off, w) → (claimBanks o won).run w = .ok ((), s1) →
    1 ≤ n → n ≤ 4096 → off + 8 + 4 * n ≤ 0x40000 → (s1.core s.cur).ctx = .tenant →
    s1.full s.cur off (8 + 4 * n) = true → s1.hits s.cur (keyRS s.cur off) (8 + 4 * n) = false →
    ((listMembers (list.drop 8)).filter (· = (s1.moduleId, BitVec.ofNat 8 s.cur))).length = 1 →
    s1.colls.any (fun e => e.2.core = s.cur && e.2.gang = (s1.core s.cur).gang && e.2.group = g) = false →
    s1.galleys.any (fun e => e.2.core = s.cur && e.2.gang = (s1.core s.cur).gang && e.2.job.onGroup g) = false →
    (claimMore o won (banks i)).run s1 = .ok ((), s2) →
    (parts.length ≤ i + 1 → ∃ t grp, exec (.fgrp h card g) s = .next t ∧ Tbl.find (t.core s.cur).groups g.toNat = some grp ∧
      grp.members = listMembers (list.drop 8) ∧ grp.digest = sha512 list ∧ grp.defined = false ∧ grp.seq = 0 ∧
      ((t.core s.cur).w .F).blocked = true ∧ t.mem = s1.mem) ∧
    (i + 1 < parts.length → exec (.fgrp h card g) s = .next (State.modW (s2.modCore s.cur (fun k =>
      k.askNext (s.bankAge .F) (banks (i + 1)))) s.cur .F (fun v => { v with
        grant := i + 1, readyAt := (s.core s.cur).time + 1, asked := some (s.bankAge .F) }))))

/-- Queue entries arrive, ports fetch ahead, banks go to the oldest request, and a page walk fills the cache or faults (R26, R27, R28, R30, R128, R207, R208, R209, R295). -/
def Obligations.CoreEvents : Prop :=
  (∀ (c : Nat) (q : BitVec 5) (age : Nat) (v : Word) (tag : Tag) (s : State) (a b : List QEntry) (t0 : Tag) (v0 : Word),
    s.queue c q.toNat = a ++ ⟨t0, v0, some age⟩ :: b → (∀ e ∈ a ++ b, e.wait ≠ some age) →
    ∃ t : State, exec (.queueEntryArrives c q age v tag) s = .next t ∧ t.queue c q.toNat = a ++ ⟨tag, v, none⟩ :: b ∧ t.mem = s.mem) ∧
  (∀ (c : Nat) (p : BitVec 4) (s : State),
    (Tbl.find (s.core c).ports p.toNat = none ∨ ∃ t, Tbl.find (s.core c).ports p.toNat = some t ∧ t.fetching = []) →
    exec (.portPrefetch c p) s = .next s) ∧
  (∀ (c : Nat) (p : BitVec 4) (s : State) (t : PortSt) (i : Nat) (l : List Nat) (rows : List Nat),
    Tbl.find (s.core c).ports p.toNat = some t → t.fetching = i :: l → t.fetched.any (fun e => e.1 = i) = false →
    portRows s c t.desc i = some rows →
    ∃ u w, exec (.portPrefetch c p) s = .next u ∧ Tbl.find (u.core c).ports p.toNat = some w ∧
      w.fetched = t.fetched ++ [(i, portVaultBlock s c t.desc rows)] ∧ u.mem = s.mem) ∧
  (∀ (c : Nat) (r : BankReq) (s : State),
    (s.core c).matq.find? (fun e => e.o.age = r.age) = none →
    let own := (s.core c).claimed &&& r.banks
    let lost := (s.core c).standing.foldl (fun m q => if q.age < r.age then m ||| (q.banks &&& r.banks) else m) own
    (lost = 0 → exec (.bankArbitration c [r]) s = .next (s.modCore c (fun k => { k with
      claimed := k.claimed ||| r.banks, standing := k.standing.filter (fun q => q.age ≠ r.age) }))) ∧
    (lost ≠ 0 → exec (.bankArbitration c [r]) s = .next (State.later (s.modCore c (fun k =>
      (k.loseBanks lost).askNext r.age r.banks)) c 1 (.bankArbitration c [r])))) ∧
  (∀ (c : Nat) (r : BankReq) (s : State) (e : MatWait), (s.core c).matq.find? (fun e => e.o.age = r.age) = some e →
    exec (.bankArbitration c [r]) s = .next (if ((s.matTry c e).core c).matq.any (fun e => e.o.age = r.age) then
      (s.matTry c e).later c 1 (.bankArbitration c [r]) else s.matTry c e)) ∧
  (∀ (c : Nat) (q r : BankReq) (s : State), q.age < r.age → (s.core c).claimed = 0 → (s.core c).standing = [] →
    (s.core c).matq = [] → q.banks &&& r.banks ≠ 0 →
    ∃ t : State, exec (.bankArbitration c [r, q]) s = .next (t.later c 1 (.bankArbitration c [r])) ∧
      (t.core c).claimed = q.banks) ∧
  (∀ (c : Nat) (v : BitVec 6) (sp : BitVec 2) (wr : Bool) (a : Nat) (s : State),
    ((s.walk v sp.toNat wr a).2 = none →
      exec (.pageWalkComplete c v sp wr a) s = .next (s.modCore c (fun k => { k with walkFault := k.walkFault ++ [(a, sp, wr)] }))) ∧
    (∀ big w phys, (s.walk v sp.toNat wr a).2 = some (big, w, phys) → (s.core c).tcache.length < 256 →
      ∃ t : State, exec (.pageWalkComplete c v sp wr a) s = .next t ∧ t.mem = s.mem ∧
        (⟨v, s.gen v, sp, if big then a / 2 ^ 21 * 2 ^ 21 else a / 2 ^ 16 * 2 ^ 16, big, w, phys, 0, false,
          (s.core c).nextTrans⟩ : TEnt) ∈ (t.core c).tcache)) ∧
  (∀ (v : BitVec 6) (page : Nat) (s : State), ∃ t : State, exec (.translationRemoval v page) s = .next t ∧ t.mem = s.mem ∧
    (∀ e ∈ t.cores, ∀ x ∈ e.2.tcache, x.vf = v → (if x.big then x.page / 2 ^ 21 = page / 2 ^ 21 else x.page / 2 ^ 16 = page / 2 ^ 16) →
      x.gone = true ∧ x.count ≠ 0))

/-- FROUT, FPLOW and FLNK do what R390 to R392 give, or are refused with the reason given (R325, R363, R365, R367, R389, R390, R391, R392). -/
def Obligations.LinkWordsComplete : Prop :=
  (∀ (h : Hdr) (d a : Name) (s t : State), s.mayPrivilege .F h d a (.x 0) t →
    let x := (s.xArg h a).toNat
    let v := decide (x = 1)
    (2 ≤ x → exec (.frout h d a) s = .next (t.privileged s .F h d (BitVec.ofNat 64 (2 ^ 63 + 5)) 1)) ∧
    (x < 2 → (t.table v).loaded = false →
      exec (.frout h d a) s = .next (t.privileged s .F h d (BitVec.ofNat 64 (2 ^ 63 + 0x0B)) 1)) ∧
    (x < 2 → (t.table v).loaded = true →
      exec (.frout h d a) s = .next (State.privileged (((t.useTable t.rv).useTable v).modCore s.cur (fun k => { k with
        latches := k.latches ++ [.version v] })) s .F h d 0 1))) ∧
  (∀ (h : Hdr) (d a b : Name) (s t : State), s.mayPrivilege .F h d a b t →
    let x := (s.xArg h a).toNat
    let off := (s.xArg h b).toNat
    let v := decide (x = 1)
    (2 ≤ x ∨ 0x40000 < off + 4096 →
      exec (.froutLd h d a b) s = .next (t.privileged s .F h d (BitVec.ofNat 64 (2 ^ 63 + 5)) 1)) ∧
    (∀ u, x < 2 → off + 4096 ≤ 0x40000 → t.full s.cur off 4096 = true → t.hits s.cur (keyRS s.cur off) 4096 = false →
      (claimBanks (s.word .F h) (banksOf off 4096)).run t = .ok ((), u) →
      (t.versionBusy v = true →
        exec (.froutLd h d a b) s = .next (u.privileged s .F h d (BitVec.ofNat 64 (2 ^ 63 + 0x0D)) 1)) ∧
      (t.versionBusy v = false → t.tableOf (t.read (t.ownTag s.cur) (keyRS s.cur off) 4096) = none →
        exec (.froutLd h d a b) s = .next (u.privileged s .F h d (BitVec.ofNat 64 (2 ^ 63 + 5)) 1)) ∧
      (t.versionBusy v = false → ∀ r, t.tableOf (t.read (t.ownTag s.cur) (keyRS s.cur off) 4096) = some r →
        exec (.froutLd h d a b) s = .next ((u.setTable v r).privileged s .F h d 0 1)))) ∧
  (∀ (h : Hdr) (d a b : Name) (s t : State), s.mayPrivilege .F h d a b t → (s.xArg h a).toNat < 2 →
    let v := decide ((s.xArg h a).toNat = 1)
    let r := (s.xArg h b).toNat
    let out := t.activePorts
    ((t.table v).loaded = true → t.rv = v →
      exec (.fplow h d a b) s = .next (t.privileged s .F h d (BitVec.ofNat 64 (2 ^ 63 + 0x0D)) 1)) ∧
    ((t.table v).loaded = true → t.rv ≠ v → 1 ≤ r → r ≤ (t.table v).hops →
      let t1 : State := { t with ploughRound := r, ploughVersion := v
                                 roundsEnded := if t.ploughVersion = v then t.roundsEnded else 0
                                 ploughOut := out.flatMap (fun p => [(p, 0), (p, 1), (p, 3)]) }
      let t2 := State.pumpAll (out.foldl (fun (u : State) p => u.plough p [0, 1, 3] v r) t1)
      (out = [] → exec (.fplow h d a b) s = .next (State.privileged { t2 with roundsEnded := r } s .F h d 0 1)) ∧
      (out ≠ [] → exec (.fplow h d a b) s = .next (State.awaits { t2 with ploughWait := some (s.word .F h, d) } s .F h))) ∧
    ((t.table v).loaded = true → t.rv ≠ v → t.ploughVersion = v → t.roundsEnded = (t.table v).hops →
      exec (.fplowFree h d a b) s = .next (State.privileged { t.setTable v RouteTbl.reset with roundsEnded := 0, ploughRound := 0 }
        s .F h d 0 1)) ∧
    ((t.table v).loaded = true → t.rv = v ∨ t.ploughVersion ≠ v ∨ t.roundsEnded ≠ (t.table v).hops →
      exec (.fplowFree h d a b) s = .next (t.privileged s .F h d (BitVec.ofNat 64 (2 ^ 63 + 0x0D)) 1))) ∧
  (∀ (h : Hdr) (d a b : Name) (s t : State), s.mayPrivilege .F h d a b t →
    let p := (s.xArg h a).toNat
    let t1 := fun (st : PortState) (f : FPort → FPort) =>
      (t.modPort p (fun k => { k with waiter := some (s.word .F h, d) })).setPortState p st f
    (t.portExists p = false → (∀ i ∈ [Instr.flnkTrain h d a b, .flnkDrain h d a b, .flnkRelock h d a b, .flnkQuery h d a b,
        .flnkDown h d a b], exec i s = .next (t.privileged s .F h d (BitVec.ofNat 64 (2 ^ 63 + 5)) 1))) ∧
    (t.portExists p = true → (s.xArg h b).toNat = 0 →
      exec (.flnkDown h d a b) s = .next ((t.portDown p 4).pumpAll.privileged s .F h d 0 1)) ∧
    (t.portExists p = true → (t.port p).st = .down →
      exec (.flnkTrain h d a b) s = .next (State.awaits (t1 .training (fun k => { k with
        mask := if isGlobal p then 0xFFFF else 0 })) s .F h)) ∧
    (t.portExists p = true → (t.port p).st ≠ .down →
      exec (.flnkTrain h d a b) s = .next (t.privileged s .F h d (BitVec.ofNat 64 (2 ^ 63 + 0x0C)) 1)) ∧
    (t.portExists p = true → (t.port p).st = .active → isGlobal p = true →
      exec (.flnkDrain h d a b) s = .next (State.awaits (State.pumpAll (((t1 .draining id).modPort p (fun k => { k with
        ploughed := [0, 1, 2, 3] })).plough p [0, 1, 2, 3] (t1 .draining id).rv 0)) s .F h)) ∧
    (t.portExists p = true → (t.port p).st = .dark → (t.port p).newCircuit = true →
      exec (.flnkRelock h d a b) s = .next (State.awaits (t1 .relock id) s .F h)) ∧
    (t.portExists p = true →
      exec (.flnkQuery h d a b) s = .next (t.privileged s .F h d (BitVec.ofNat 64 (portStateCode (t.port p).st +
        (t.port p).mask.toNat * 2 ^ 8 + (t.port p).width * 2 ^ 24 + (t.port p).err * 2 ^ 32 + (t.port p).late * 2 ^ 48)) 1)))

/-- Flits are taken in order or asked for again, lost light narrows a port, and drains, training and retraining end (R348, R350, R353, R354, R355, R366, R367, R368). -/
def Obligations.LinkEvents : Prop :=
  (∀ (p : BitVec 7) (s : State), s.portExists p.toNat = false →
    ∀ i, (∃ f, i = Instr.flitReceive p f) ∨ i = .flitReplay p ∨ i = .replayTimeout p ∨ (∃ g, i = .lossOfLight p g) ∨
      (∃ w, i = .retrainStart p w) ∨ (∃ g, i = .retrainDone p g) ∨ (∃ b, i = .trainingDone p b) ∨ i = .drainDone p ∨
      i = .circuitReported p → exec i s = .fault (.noSuchUnit "port")) ∧
  (∀ (p : BitVec 7) (s : State) (f : List Byte), s.portExists p.toNat = true →
    let t := s.port p.toNat
    (t.st ≠ .active → t.st ≠ .draining → exec (.flitReceive p f) s = .next s) ∧
    (t.st = .active → flitDamaged f = true ∨ flitSeq f ≠ (t.lastRx + 1) % 4096 →
      exec (.flitReceive p f) s = .next ((s.modPort p.toNat (fun t => { t with rreq := true })).sendIdle p.toNat)) ∧
    (t.st = .active → flitDamaged f = false → flitSeq f = (t.lastRx + 1) % 4096 → flitRreq f = false →
      (∀ k, k < 10 → segKind f k = 0) → s.fports.all (fun e => e.2.queue.all (fun q => q.2.isEmpty) && e.2.resps.isEmpty && e.2.rest.isEmpty) = true →
      ∃ u : State, exec (.flitReceive p f) s = .next u ∧ (u.port p.toNat).lastRx = flitSeq f ∧
        (∃ sent, (u.port p.toNat).tx = ackTx t.tx (flitAck f) ++ sent) ∧ u.mem = s.mem ∧ u.cores = s.cores ∧
        ∀ vc, vc < 4 → Tbl.get (u.port p.toNat).allow vc 0 =
          Tbl.get t.allow vc 0 + (flitCredit f vc + 256 - Tbl.get t.credited vc 0) % 256)) ∧
  (∀ (p : BitVec 7) (s : State), s.portExists p.toNat = true →
    let t := s.port p.toNat
    ((t.tx = [] → exec (.flitReplay p) s = .next ((s.replay p.toNat).sendIdle p.toNat).pumpAll) ∧
      (t.tx ≠ [] → exec (.flitReplay p) s = .next (s.replay p.toNat).pumpAll) ∧
      ((s.replay p.toNat).port p.toNat).tx.map (fun e => e.1) = t.tx.map (fun e => e.1) ∧
      ((s.replay p.toNat).outbox.length = s.outbox.length + t.tx.length)) ∧
    (∀ e l, t.tx = e :: l → e.2.1 + 5400 ≤ s.now →
      exec (.replayTimeout p) s = .next ((s.replay p.toNat).after 5400 (.replayTimeout p))) ∧
    (∀ e l, t.tx = e :: l → s.now < e.2.1 + 5400 →
      exec (.replayTimeout p) s = .next (s.after (e.2.1 + 5400 - s.now) (.replayTimeout p)).pumpAll) ∧
    (t.tx = [] → exec (.replayTimeout p) s = .next s.pumpAll)) ∧
  (∀ (p : BitVec 7) (g : BitVec 2) (s : State), s.portExists p.toNat = true →
    let t := s.port p.toNat
    let m := t.mask &&& ~~~(groupMask g.toNat)
    (isGlobal p.toNat = false → exec (.lossOfLight p g) s = .next s) ∧
    (isGlobal p.toNat = true → t.st = .active → m = 0 → exec (.lossOfLight p g) s = .next ((s.portDown p.toNat 1).pumpAll)) ∧
    (isGlobal p.toNat = true → t.st = .active → m ≠ 0 → t.retraining ≠ some g →
      exec (.lossOfLight p g) s = .next (((s.modPort p.toNat (fun t => { t with mask := m })).portEvent 1 p.toNat t.width).replay p.toNat)) ∧
    (t.retraining = some g → exec (.retrainDone p g) s = .next ((s.modPort p.toNat (fun t => { t with
      mask := t.mask ||| groupMask g.toNat, retraining := none })).portEvent 3 p.toNat t.width)) ∧
    (t.retraining ≠ some g → exec (.retrainDone p g) s = .next s)) ∧
  (∀ (p : BitVec 7) (w : BitVec 4) (s : State), s.portExists p.toNat = true → isGlobal p.toNat = true →
    let t := s.port p.toNat
    let m := t.mask &&& ~~~(groupMask (w.toNat / 4))
    (t.retraining ≠ none → exec (.retrainStart p w) s = .next s) ∧
    (m = 0 → exec (.retrainStart p w) s = .next s) ∧
    (t.st = .active → t.retraining = none → m ≠ t.mask → m ≠ 0 →
      exec (.retrainStart p w) s = .next ((s.modPort p.toNat (fun t => { t with
        mask := m, retraining := some (BitVec.ofNat 2 (w.toNat / 4)) })).portEvent 2 p.toNat t.width))) ∧
  (∀ (p : BitVec 7) (s : State), s.portExists p.toNat = true →
    let t := s.port p.toNat
    (t.st = .training ∨ t.st = .relock → exec (.trainingDone p false) s = .next ((s.portDown p.toNat 4).pumpAll)) ∧
    (t.st = .training ∨ t.st = .relock → isGlobal p.toNat = false ∨ t.mask ≠ 0 →
      exec (.trainingDone p true) s = .next (((s.joinDomain.setPortState p.toNat .active FPort.trained).flnkAnswer p.toNat 0).pumpAll)) ∧
    (s.joined = false → s.joinDomain.domainTime = Config.domainOffset s.nextFree ∧ s.joinDomain.joined = true ∧
      s.joinDomain.mem = s.mem ∧ s.joinDomain.cores = s.cores) ∧
    (s.joined = true → s.joinDomain = s) ∧
    (t.st ≠ .training → t.st ≠ .relock → ∀ ok, exec (.trainingDone p ok) s = .next s) ∧
    (t.st = .draining → t.ploughed = [] → t.tx = [] →
      exec (.drainDone p) s = .next ((s.setPortState p.toNat .dark id).flnkAnswer p.toNat 0)) ∧
    (t.st ≠ .draining ∨ t.ploughed ≠ [] ∨ t.tx ≠ [] → exec (.drainDone p) s = .next s) ∧
    (t.st = .dark → exec (.circuitReported p) s = .next (s.modPort p.toNat (fun t => { t with newCircuit := true })))) ∧
  (∀ t : FPort, t.trained.nextSeq = 1 ∧ t.trained.tx = [] ∧ t.trained.segs = [] ∧
    Tbl.get t.trained.allow 0 0 = 1024 ∧ Tbl.get t.trained.allow 1 0 = 1024 ∧ Tbl.get t.trained.allow 2 0 = 512 ∧
    Tbl.get t.trained.allow 3 0 = 256)

/-- An arrival is discarded when late, counted when stale, answered again when repeated, else performed and answered (R308, R357, R358, R360, R361, R364, R365, R372, R374, R375, R380). -/
def Obligations.FabricArrivals : Prop :=
  (∀ (p : Packet) (s : State), s.aged p.stamp 64 = true →
    (p.data ≠ [] → p.opnd0 = 0 → exec (.putArrive p) s = .next s) ∧ exec (.pullArrive p) s = .next s ∧
    ((∀ e ∈ s.agenda, e.1 ≤ s.now → ∀ o r d m key, e.2 = .atomicAtWriteQueue o r d m → s.vaultKey p.vf p.addr.toNat = some key → r.key / 64 ≠ key / 64) → exec (.atomArrive p) s = .next s)) ∧
  (∀ (p : Packet) (s : State), s.aged p.stamp 64 = false → s.gen p.vf ≠ p.gen →
    (p.data ≠ [] → exec (.putArrive p) s = .next ((s.staleDrop p.vf 1).sendResp (answerTo p .ack 1 0))) ∧
    exec (.pullArrive p) s = .next ((s.staleDrop p.vf 1).sendResp (answerTo p .ack 1 0)) ∧
    ((∀ e ∈ s.agenda, e.1 ≤ s.now → ∀ o r d m key, e.2 = .atomicAtWriteQueue o r d m → s.vaultKey p.vf p.addr.toNat = some key → r.key / 64 ≠ key / 64) →
      exec (.atomArrive p) s = .next ((s.staleDrop p.vf 1).sendResp (answerTo p .ack 1 0)))) ∧
  (∀ (p : Packet) (s : State) (o : Origin) (r : AtomicReq) (d : Name) (m t key n : Nat), n = (if p.opword.getLsbD 1 then 8 else 4) →
    p.addr.toNat % n = 0 → p.opword.toNat < 28 → s.vaultKey p.vf p.addr.toNat = some key →
    (t, Instr.atomicAtWriteQueue o r d m) ∈ s.agenda → t ≤ s.now → r.key / 64 = key / 64 →
    exec (.atomArrive p) s = .next (s.after 0 (.atomArrive p))) ∧
  (∀ (p : Packet) (s : State) (r : Reply), s.aged p.stamp 64 = false → s.gen p.vf = p.gen → s.reply (replyKeyOf p) = some r →
    exec (.pullArrive p) s = .next (s.sendResp r.resp) ∧
    ((∀ e ∈ s.agenda, e.1 ≤ s.now → ∀ o r d m key, e.2 = .atomicAtWriteQueue o r d m → s.vaultKey p.vf p.addr.toNat = some key → r.key / 64 ≠ key / 64) → exec (.atomArrive p) s = .next (s.sendResp r.resp))) ∧
  (∀ (p : Packet) (s : State), p.data = [] → exec (.putArrive p) s = .next (s.sendResp (answerTo p .ack
    (if s.gen p.vf ≠ p.gen then 1 else if p.poisoned then 3 else 0) 0))) ∧
  (∀ (p : Packet) (s : State), p.data ≠ [] → s.aged p.stamp 64 = false → s.gen p.vf = p.gen → p.opnd1 ≠ 0 →
    (s.rowIn p = none → exec (.putArrive p) s = .next (s.sendResp (answerTo p .ack 4 0))) ∧
    (∀ t, s.rowIn p = some t → exec (.putArrive p) s = .next (t.sendResp (answerTo p .ack (t.putStatus p) 0)))) ∧
  (∀ (p : Packet) (s : State), (s.rowIn p = none ↔ s.vaultRuns p.vf p.addr.toNat (p.data.take p.opnd1.toNat).length = none) ∧
    ∀ rs, s.vaultRuns p.vf p.addr.toNat (p.data.take p.opnd1.toNat).length = some rs → ∃ t, s.rowIn p = some t ∧
      t.mem = (s.writeRuns ⟨false, p.vf, p.gen⟩ rs (p.data.take p.opnd1.toNat) p.poisoned).mem) ∧
  (∀ (p : Packet) (s : State), p.data ≠ [] → s.aged p.stamp 64 = false ∨ p.opnd0 ≠ 0 → s.gen p.vf = p.gen → p.opnd1 = 0 →
    (s.putKeys p = none → exec (.putArrive p) s = .next (s.sendResp (answerTo p .ack 4 0))) ∧
    (∀ keys, s.putKeys p = some keys → p.addr.getLsbD 63 = false →
      exec (.putArrive p) s = .next ((s.writePut p keys).sendResp (answerTo p .ack (if p.poisoned then 3 else 0) 0))) ∧
    (∀ keys, s.putKeys p = some keys → p.addr.getLsbD 63 = true →
      let c := p.dstCore.toNat
      let off := p.addr.toNat % 2 ^ 18
      ((s.core c).inText off p.data.length = true → exec (.putArrive p) s = .next (s.sendResp (answerTo p .ack 4 0))) ∧
      ((s.core c).inText off p.data.length = false → (s.core c).frozen ≠ none →
        exec (.putArrive p) s = .next (s.holdPut p keys)) ∧
      ((s.core c).inText off p.data.length = false → (s.core c).frozen = none →
        (p.opnd0 = 0 → s.full c off p.data.length = false → exec (.putArrive p) s = .next (s.after 1 (.putArrive p))) ∧
        (p.opnd0 = 0 → s.full c off p.data.length = true →
          exec (.putArrive p) s = .next ((s.markEmpty ⟨false, p.vf, p.gen⟩ c off p.data.length).after 1
            (.putArrive { p with opnd0 := BitVec.ofNat 64 ((s.core c).time * 8 + 8) }))) ∧
        (p.opnd0 ≠ 0 → (s.core c).banksLost (p.opnd0.toNat - 1) (banksOf off p.data.length) = 0 →
          exec (.putArrive p) s = .next (State.sendResp (State.writePut (s.modCore c (fun k =>
            k.winBanks (p.opnd0.toNat - 1) (banksOf off p.data.length))) p keys)
              (answerTo p .ack (if p.poisoned then 3 else 0) 0))) ∧
        (p.opnd0 ≠ 0 → (s.core c).banksLost (p.opnd0.toNat - 1) (banksOf off p.data.length) ≠ 0 →
          exec (.putArrive p) s = .next (State.after (s.modCore c (fun k =>
            k.missBanks (p.opnd0.toNat - 1) (banksOf off p.data.length))) 1 (.putArrive p)))))) ∧
  (∀ (p : Packet) (s : State) (key n : Nat), s.aged p.stamp 64 = false → s.gen p.vf = p.gen → (∀ e ∈ s.agenda, e.1 ≤ s.now → ∀ o r d m key, e.2 = .atomicAtWriteQueue o r d m → s.vaultKey p.vf p.addr.toNat = some key → r.key / 64 ≠ key / 64) →
    s.reply (replyKeyOf p) = none → s.replyFull = false → n = (if p.opword.getLsbD 1 then 8 else 4) → p.addr.toNat % n = 0 →
    p.opword.toNat < 28 → s.vaultKey p.vf p.addr.toNat = some key → s.anyBad ⟨false, p.vf, p.gen⟩ key n = false →
    let tag : Tag := ⟨false, p.vf, p.gen⟩
    let old := leNat (s.read tag key n)
    let new := atomRule (AtomOp.ofCode (BitVec.ofNat 3 (p.opword.toNat / 4))) n (p.opword.getLsbD 0) old
      (p.opnd0.toNat % 2 ^ (8 * n)) (p.opnd1.toNat % 2 ^ (8 * n))
    let r := answerTo p .result 0 (BitVec.ofNat 64 old)
    exec (.atomArrive p) s = .next (State.sendResp (State.keepReply ((s.writeUser tag key (leBytes n new)).noteAction key n)
      (replyKeyOf p) r p.stamp) r)) ∧
  (∀ (p : Packet) (s : State), s.aged p.stamp 64 = false → s.gen p.vf = p.gen → s.reply (replyKeyOf p) = none →
    s.replyFull = false → s.ownsCore p.vf p.dstCore.toNat = true →
    ((s.core p.dstCore.toNat).frozen ≠ none ∨ 12 < (s.queue p.dstCore.toNat 15).length →
      exec (.pullArrive p) s = .next (s.sendResp (answerTo p .busy 0 0))) ∧
    ((s.core p.dstCore.toNat).frozen = none → (s.queue p.dstCore.toNat 15).length ≤ 12 →
      ∃ t : State, exec (.pullArrive p) s = .next ((t.keepReply (replyKeyOf p) (answerTo p .ack 0 0) p.stamp).sendResp (answerTo p .ack 0 0)) ∧
        t.mem = s.mem ∧ t.queue p.dstCore.toNat 15 = s.queue p.dstCore.toNat 15 ++
          [BitVec.ofNat 64 (p.srcMod.toNat * 2 ^ 16 + p.srcCore.toNat), p.addr, p.opnd0, p.opnd1].map
            (fun v => ⟨⟨false, p.vf, p.gen⟩, v, none⟩))) ∧
  (∀ (port : BitVec 7) (p : Packet) (s : State), s.portExists port.toNat = true →
    exec (.ploughArrive port p) s = .next (State.after { s with ploughedIn := s.ploughedIn ++
      [(port.toNat, p.vc, p.rv, p.opword.setWidth 4, s.arrivals)] } 0 (.echoSend port p.vc p.rv (p.opword.setWidth 4))) ∧
    (p.opword.toNat % 16 ≠ 0 → p.rv ≠ s.ploughVersion ∨ p.opword.toNat % 16 ≠ s.ploughRound →
      exec (.echoArrive port p) s = .next s) ∧
    (p.opword.toNat % 16 = s.ploughRound → s.ploughRound ≠ 0 → p.rv = s.ploughVersion →
      exec (.echoArrive port p) s = .next (State.roundCheck { s with
        ploughOut := dropOne (port.toNat, p.opword.toNat / 16 % 4) s.ploughOut }))) ∧
  (∀ (port : BitVec 7) (vc : BitVec 2) (ver : Bool) (rnd : BitVec 4) (n : Nat) (s : State), s.portExists port.toNat = true →
    (s.ploughedIn = [] → exec (.echoSend port vc ver rnd) s = .next s) ∧
    (s.ploughedIn = [(port.toNat, vc, ver, rnd, n)] → s.leftModule n = false →
      exec (.echoSend port vc ver rnd) s = .next (s.after 1 (.echoSend port vc ver rnd))) ∧
    (s.ploughedIn = [(port.toNat, vc, ver, rnd, n)] → s.leftModule n = true →
      exec (.echoSend port vc ver rnd) s = .next (State.pumpAll (State.modPort { s with ploughedIn := [] } port.toNat (fun t => { t with
        queue := Tbl.upd t.queue 3 [] (· ++ [(none, 0, s.markPacket .echo ver 3 rnd.toNat vc.toNat)]) }))))) ∧
  (∀ (r : Response) (s : State) (f : FabOp), r.kind = .ack ∨ r.kind = .result → Tbl.find s.ops (opKey r.dstCore.toNat r.tag) = some f →
    (f.pkt.vf ≠ r.vf ∨ f.pkt.gen ≠ r.gen ∨ s.gen r.vf ≠ r.gen → exec (.responseArrive r) s = .next s) ∧
    (f.pkt.vf = r.vf → f.pkt.gen = r.gen → s.gen r.vf = r.gen → f.pkt.op = .put → f.tries = 0 → r.status ≠ 2 →
      exec (.responseArrive r) s = .next (s.opDone (opKey r.dstCore.toNat r.tag) f r.status r.value))) ∧
  (∀ (core : Nat) (tag : BitVec 16) (s : State) (f : FabOp),
    (Tbl.find s.ops (opKey core tag) = none → exec (.reissue core tag) s = .next s ∧ exec (.timeout core tag) s = .next s) ∧
    (Tbl.find s.ops (opKey core tag) = some f →
      (f.acked = none → f.tries < 2 → s.aged f.pkt.stamp (16 * (f.tries + 1)) = true →
        let g := { f with tries := f.tries + 1, pkt := { f.pkt with reissue := true } }
        ∃ n, exec (.reissue core tag) s = .next ((State.sendOut { s with ops := Tbl.put s.ops (opKey core tag) g } g).after n
          (.reissue core tag))) ∧
      (f.acked = none → f.tries < 3 → s.aged f.pkt.stamp (16 * (f.tries + 1)) = false →
        exec (.reissue core tag) s = .next (s.after (max 1 (s.untilAge f.pkt.stamp (16 * (f.tries + 1)))) (.reissue core tag))) ∧
      (f.acked ≠ none ∨ 3 ≤ f.tries → exec (.reissue core tag) s = .next s) ∧
      (s.aged f.pkt.stamp 64 = false → exec (.timeout core tag) s = .next (s.after (max 1 (s.untilAge f.pkt.stamp 64)) (.timeout core tag))) ∧
      (∀ st, f.acked = some st → s.aged f.pkt.stamp 64 = true → exec (.timeout core tag) s = .next (s.opDone (opKey core tag) f st 0)) ∧
      (f.acked = none → s.aged f.pkt.stamp 64 = true →
        exec (.timeout core tag) s = .next ((s.opEvent 5 f.pkt.vf).opDone (opKey core tag) f 5 0)))) ∧
  (∀ (k : ReplyKey) (s : State) (r : Reply), s.reply k = some r →
    ∃ n, exec (.rackArrive k) s = .next (State.after { s with replies := s.replies.map (fun (x : Reply) =>
      if x.key = k then { x with rack := true } else x) } n (.replyCacheFree k))) ∧
  (∀ (k : ReplyKey) (s : State), ∃ t : State, exec (.replyCacheFree k) s = .next t ∧ t.mem = s.mem ∧
    ∀ r, r ∈ t.replies ↔ r ∈ s.replies ∧ ¬(r.key = k ∧ r.rack = true ∧ s.aged r.stamp 64 = true)) ∧
  (∀ (m : CollMsg) (s : State),
    (m.dstMod ≠ s.moduleId → exec (.collArrive m) s = .next (s.sendColl m)) ∧
    (m.dstMod = s.moduleId → m.srcMod = s.moduleId → s.gen m.vf ≠ m.gen → exec (.collArrive m) s = .next (s.staleDrop m.vf 1)) ∧
    (m.dstMod = s.moduleId → m.srcMod = s.moduleId → s.gen m.vf = m.gen → isRow m.body = false →
      ∃ t : State, exec (.collArrive m) s = .next t ∧ t.collWaits = s.collWaits ++ [m] ∧ t.mem = s.mem) ∧
    (∀ a bad data, m.dstMod = s.moduleId → m.srcMod = s.moduleId → s.gen m.vf = m.gen → m.body = .row a bad data →
      (s.putRow m.vf m.gen m.dstCore m.group m.seq a data bad = none → exec (.collArrive m) s = .next (s.answerColl m 4)) ∧
      (∀ t, s.putRow m.vf m.gen m.dstCore m.group m.seq a data bad = some t →
        exec (.collArrive m) s = .next (t.answerColl m (if bad then 3 else 0)))) ∧
    (m.dstMod = s.moduleId → m.srcMod ≠ s.moduleId → isRow m.body = false →
      let p := collPacket m
      (s.aged p.stamp 64 = true → exec (.collArrive m) s = .next s) ∧
      (s.aged p.stamp 64 = false → s.gen m.vf = m.gen → s.reply (replyKeyOf p) = none → s.replyFull = false →
        s.ownsCore m.vf m.dstCore = true →
        ∃ t : State, exec (.collArrive m) s = .next ((t.keepReply (replyKeyOf p) (answerTo p .ack 0 0) p.stamp).sendResp
          (answerTo p .ack 0 0)) ∧ t.collWaits = s.collWaits ++ [m] ∧ t.mem = s.mem)))

/-- Kicks enter rings, the dispatcher accepts or refuses, gangs start on the lowest free cores, launches retire (R82, R294, R295, R296, R297, R298, R300, R301, R395, R414). -/
def Obligations.LaunchEvents : Prop :=
  (∀ (v : BitVec 6) (x : Word) (s : State), (s.vf v.toNat).created = true →
    let q : BitVec 4 := x.setWidth 4
    let ring := Tbl.get (s.vf v.toNat).rings q.toNat []
    (16 ≤ ring.length → exec (.kick v x) s = .next (s.modVf v.toNat (fun f => { f with dropped := bump f.dropped q }))) ∧
    (ring.length < 16 → ∃ (t : State) (k : Kick), exec (.kick v x) s = .next t ∧
      Tbl.get (t.vf v.toNat).rings q.toNat [] = ring ++ [k] ∧ k.patch = x.toNat / 4096 * 4096 ∧ k.pv = x.getLsbD 4 ∧
      k.fromLaunch = none ∧ k.taken = none ∧ t.agenda = addDue (s.now + 16) (.kickAccept v q) s.agenda ∧ t.mem = s.mem)) ∧
  (∀ (v : BitVec 6) (off : Nat) (x : Word) (s : State), s.serving = false → exec (.registerWrite v off x) s = .next s) ∧
  (∀ (v : BitVec 6) (x : Word) (s : State), s.serving = true → exec (.registerWrite v 0 x) s = .next (s.after 0 (.kick v x)) ∧
    (∀ q, q < 16 → exec (.registerWrite v (0x40 + 8 * q) x) s =
      .next (s.modVf v.toNat (fun f => { f with qrcb := Tbl.put f.qrcb q x })))) ∧
  (∀ (v : BitVec 6) (q : BitVec 4) (s : State),
    (Tbl.get (s.vf v.toNat).rings q.toNat [] = [] → exec (.kickAccept v q) s = .next s) ∧
    (∀ k l, Tbl.get (s.vf v.toNat).rings q.toNat [] = k :: l →
      (s.scheduled v = false ∨ s.queueWaits v q = true → exec (.kickAccept v q) s = .next (s.after 1 (.kickAccept v q))) ∧
      (s.scheduled v = true → s.queueWaits v q = false → k.taken = none →
        (∀ e, s.kickBlock v q k = .error e → exec (.kickAccept v q) s = .next ((s.noteReason k e).takeKick v q none none 128)) ∧
        (∀ r, s.kickBlock v q k = .ok r → s.thirdReplay v (s.kickAddr v q k) r = true →
          exec (.kickAccept v q) s = .next (s.after 1 (.kickAccept v q))) ∧
        (∀ r, s.kickBlock v q k = .ok r → s.thirdReplay v (s.kickAddr v q k) r = false →
          exec (.kickAccept v q) s = .next (s.takeKick v q (some r) none 128))) ∧
      (∀ due ro patch, s.scheduled v = true → s.queueWaits v q = false → k.taken = some (due, ro, patch) →
        (s.now < due → exec (.kickAccept v q) s = .next (s.after 1 (.kickAccept v q))) ∧
        (ro = none → due ≤ s.now → exec (.kickAccept v q) s = .next (s.refuseKick v q k)) ∧
        (∀ r, ro = some r → due ≤ s.now → s.thirdReplay v (s.kickAddr v q k) r = false →
          (k.pv = true → patch = none → s.kickPatch v k r.paramlen = none →
            exec (.kickAccept v q) s = .next (s.refuseKick v q k)) ∧
          (∀ b, k.pv = true → patch = none → s.kickPatch v k r.paramlen = some b →
            exec (.kickAccept v q) s = .next (s.takeKick v q (some r) (some b) (s.patchTime v k r.paramlen))) ∧
          (k.pv = false ∨ patch ≠ none → k.fromLaunch = none →
            ∃ (t : State) (c : Launch), exec (.kickAccept v q) s = .next t ∧ Tbl.find t.launches s.nextLaunch = some c ∧
              c.vf = v ∧ c.gen = s.gen v ∧ c.queue = q ∧ c.addr = s.kickAddr v q k ∧ c.rcb = r ∧ c.st = .waiting ∧
              c.patch = patch.map (fun b => b.1) ∧ c.patchBad = (patch.map (fun b => b.2)).getD [] ∧ c.order = s.nextLaunch ∧
              t.nextLaunch = s.nextLaunch + 1 ∧ Tbl.get (t.vf v.toNat).rings q.toNat [] = l ∧
              (t.vf v.toNat).accepted = bump (s.vf v.toNat).accepted q ∧ t.mem = s.mem ∧
              t.agenda = addDue s.now (if r.kind = 2 then .gangStart s.nextLaunch else .graphChildStart s.nextLaunch) s.agenda) ∧
          (∀ id c0, k.pv = false ∨ patch ≠ none → k.fromLaunch = some id → Tbl.find s.launches id = some c0 →
            ∃ (t : State) (c : Launch), exec (.kickAccept v q) s = .next t ∧ Tbl.find t.launches id = some c ∧
              c.gen = s.gen v ∧ c.addr = c0.addr ∧ c.rcb = r ∧ c.st = c0.st ∧ c.parent = c0.parent ∧
              c.patch = patch.map (fun b => b.1) ∧ c.order = s.nextLaunch ∧ Tbl.get (t.vf v.toNat).rings q.toNat [] = l ∧
              (t.vf v.toNat).accepted = bump (s.vf v.toNat).accepted q ∧ t.mem = s.mem ∧
              t.agenda = addDue s.now (if r.kind = 2 then .gangStart id else .graphChildStart id) s.agenda))) ∧
      (∀ ro patch d, Tbl.get ((s.takeKick v q ro patch d).vf v.toNat).rings q.toNat [] =
          { k with taken := some (s.now + d, ro, patch) } :: l ∧
        (s.takeKick v q ro patch d).agenda = addDue (s.now + d) (.kickAccept v q) s.agenda ∧
        (s.takeKick v q ro patch d).mem = s.mem) ∧
      Tbl.get ((s.refuseKick v q k).vf v.toNat).rings q.toNat [] = l ∧
      (k.fromLaunch = none → ((s.refuseKick v q k).vf v.toNat).refused = bump (s.vf v.toNat).refused q ∧
        (k.bad = true ∨ (Tbl.get (s.vf v.toNat).qrcb q.toNat 0).toNat = 0 → s.kickBlock v q k = .error 5) ∧
        (k.bad = false → (Tbl.get (s.vf v.toNat).qrcb q.toNat 0).toNat ≠ 0 → s.kickBlock v q k =
          s.readRcb v (Tbl.get (s.vf v.toNat).qrcb q.toNat 0).toNat (s.rootRcb v.toNat) 1 false)) ∧
      (∀ id c, k.fromLaunch = some id → Tbl.find s.launches id = some c →
        Tbl.find (s.refuseKick v q k).launches id = some { c with st := .refused } ∧
        (∀ e, Tbl.find (s.noteReason k e).launches id = some { c with reason := e }) ∧
        (∀ p pl, c.parent = some p → Tbl.find s.launches p = some pl →
          s.kickBlock v q k = s.readRcb v c.addr pl.rcb c.depth true)))) ∧
  (∀ (id : Nat) (s : State) (l : Launch), Tbl.find s.launches id = some l →
    (l.over = true → exec (.gangStart id) s = .next s ∧ exec (.launchRetire id) s = .next s ∧ exec (.graphChildStart id) s = .next s) ∧
    (l.st = .waiting → s.runnable id l = false ∨ s.chosen l = none →
      exec (.gangStart id) s = .next (s.after 1 (.gangStart id))) ∧
    (∀ cores, l.st = .waiting → s.runnable id l = true → s.chosen l = some cores →
      (s.wanted (some id) none l.rcb.prio l.order cores = true →
        exec (.gangStart id) s = .next (s.after 1 (.gangStart id))) ∧
      (s.wanted (some id) none l.rcb.prio l.order cores = false →
        ∃ (t : State) (g : Gang) (c : Launch), exec (.gangStart id) s = .next t ∧ Tbl.find t.gangs s.nextGang = some g ∧
          g.vf = l.vf ∧ g.launch = id ∧ g.cores = cores ∧ g.frozen = none ∧ g.ended = [] ∧ t.nextGang = s.nextGang + 1 ∧
          Tbl.find t.launches id = some c ∧ c.st = .running)) ∧
    (∀ g gv, l.st = .running → s.gangs = [(g, gv)] → gv.launch = id → ∀ c, gv.cores = [c] → (s.core c).gang = g →
      ∃ t : State, exec (.gangStart id) s = .next t ∧ (t.core c).live = true ∧ (t.core c).x = (s.core c).x ∧ t.mem = s.mem ∧
        t.agenda = addDue (s.now + l.rcb.sliceCycles) (.sliceEnd g) s.agenda)) ∧
  (∀ (s : State) (l : Launch) (cores : List Nat), s.chosen l = some cores → cores.length = l.rcb.ncores ∧
    (∀ c ∈ cores, bitOf l.rcb.coreset c = true ∧ s.coreFree c = true) ∧ cores.Pairwise (· < ·) ∧
    (∀ c, c < (if s.phase = 6 then 256 else 64) → bitOf l.rcb.coreset c = true → s.coreFree c = true → c ∉ cores →
      ∀ d ∈ cores, d < c)) ∧
  (∀ (s : State) (v : BitVec 6) (g c i n : Nat) (r : Rcb) (img param : List Byte) (secs : List (Nat × List Byte))
      (bad : List Nat),
    let k := (s.placeCore v g c i n r img secs param bad).core c
    k.x = [] ∧ k.words = r.words ∧ k.base = r.textoff ∧ k.gang = g ∧ k.vf = v ∧ k.live = false ∧ k.wC.st = .running ∧
    k.wC.index = 0 ∧ k.wV.st = .idle ∧ k.retStack = [] ∧ k.step = 0) ∧
  (∀ (c : Nat) (s : State) (g : Gang), s.gang (s.core c).gang = some g →
    (g.cores.all (g.ended ++ [c]).contains = false → ∃ o, o.core = c ∧ o.walker = .C ∧
      exec (.kernelEnd c) s = .next ((s.modGang (s.core c).gang (fun g => { g with ended := g.ended ++ [c] })).finish o)) ∧
    (g.cores.all (g.ended ++ [c]).contains = true → ∃ o, o.core = c ∧ o.walker = .C ∧
      exec (.kernelEnd c) s = .next (((s.modGang (s.core c).gang (fun g => { g with ended := g.ended ++ [c] })).after 0
        (.launchRetire g.launch)).finish o))) ∧
  (∀ (id g : Nat) (s : State) (l : Launch) (gv : Gang), Tbl.find s.launches id = some l → l.over = false →
    s.gangs = [(g, gv)] → gv.launch = id → gv.cores.all gv.ended.contains = true →
    (gv.frozen ≠ none → exec (.launchRetire id) s = .next (s.after 1 (.launchRetire id))) ∧
    (gv.frozen = none → s.coalescer = [] → exec (.launchRetire id) s = .next ((s.releaseGang g).endLaunch id .retired))) ∧
  (∀ (id : Nat) (st : LaunchSt) (s : State) (l : Launch), Tbl.find s.launches id = some l → l.listed = false → l.byGang = none →
    Tbl.find (s.endLaunch id st).launches id = some { l with st := st } ∧
    ((s.endLaunch id st).vf l.vf.toNat).retired = bump (s.vf l.vf.toNat).retired l.queue) ∧
  (∀ (id : Nat) (s : State) (l : Launch), Tbl.find s.launches id = some l → l.over = false → l.listed = true → l.order = 0 →
    (s.scheduled l.vf = false → exec (.graphChildStart id) s = .next (s.after 1 (.graphChildStart id))) ∧
    (∀ p q, s.scheduled l.vf = true → l.parent = some p → Tbl.find s.launches p = some q →
      (∀ e, s.readRcb l.vf l.addr q.rcb l.depth false = .error e → exec (.graphChildStart id) s = .next
        ((s.modLaunch id (fun l => { l with st := .refused })).after 0 (.graphChildStart p))) ∧
      (∀ r, s.readRcb l.vf l.addr q.rcb l.depth false = .ok r →
        (s.thirdReplay l.vf l.addr r = true → exec (.graphChildStart id) s = .next (s.after 1 (.graphChildStart id))) ∧
        (s.thirdReplay l.vf l.addr r = false → ∃ (t : State) (c : Launch), exec (.graphChildStart id) s = .next t ∧
          Tbl.find t.launches id = some c ∧ c.rcb = r ∧ c.order = s.nextLaunch ∧ c.st = l.st ∧ c.parent = some p ∧
          t.nextLaunch = s.nextLaunch + 1 ∧ t.mem = s.mem ∧
          t.agenda = addDue s.now (if r.kind = 2 then .gangStart id else .graphChildStart id) s.agenda)))) ∧
  (∀ (id : Nat) (s : State) (l : Launch), Tbl.find s.launches id = some l → l.st = .running → l.rcb.kind = 3 →
    l.listed = false ∨ l.order ≠ 0 →
    (s.openChildren id = true → exec (.graphChildStart id) s = .next s) ∧
    (s.openChildren id = false →
      (l.rcb.listed[l.nextChild]? = none → exec (.graphChildStart id) s = .next (s.after 0 (.launchRetire id))) ∧
      (∀ a, l.rcb.listed[l.nextChild]? = some a → exec (.graphChildStart id) s =
        .next (State.startChild (s.modLaunch id (fun l => { l with st := .running, nextChild := l.nextChild + 1 })) id l a))))

/-- Gangs freeze with their cores saved, resume, yield at slice ends, and pass their barriers into the exchange phase and out (R84, R87, R299, R302, R303, R305, R314, R317, R325, R328). -/
def Obligations.GangEvents : Prop :=
  (∀ (g : Nat) (cause : FreezeCause) (o : Origin) (d : Name) (s : State), s.gang g = none →
    exec (.freezeGate g .owner o d) s = .next (s.privDone o d (refusal 6)) ∧
    (cause ≠ .owner → exec (.freezeGate g cause o d) s = .next s) ∧
    exec (.gangResume g) s = .next s ∧ exec (.sliceEnd g) s = .next s ∧ exec (.barrierClose g) s = .next s ∧
    exec (.exchangePhaseEnd g) s = .next s ∧ ∀ l, exec (.priorityPreempt g l) s = .next s) ∧
  (∀ (g : Nat) (cause : FreezeCause) (o : Origin) (d : Name) (s : State) (gv : Gang), s.gang g = some gv →
    (gv.frozen = some .trap → exec (.freezeGate g .owner o d) s = .next (s.privDone o d 0)) ∧
    (gv.frozen = some .dispatcher → exec (.freezeGate g .owner o d) s = .next (s.privDone o d (refusal 7))) ∧
    (gv.frozen = none → s.freeSlots gv.vf < gv.cores.length →
      exec (.freezeGate g .owner o d) s = .next (s.privDone o d (refusal 8))) ∧
    (gv.frozen = none → gv.cores.length ≤ s.freeSlots gv.vf →
      exec (.freezeGate g cause o d) s = .next (State.after { s.freezeRest g gv cause with
        gangs := Tbl.put (s.freezeRest g gv cause).gangs g { gv with frozen := some cause, saved := false, order := s.nextLaunch }
        nextLaunch := s.nextLaunch + 1 } 2700 (.saveWritten g cause o d)))) ∧
  (∀ (g : Nat) (cause : FreezeCause) (s : State) (gv : Gang) (c : Nat), c ∈ gv.cores → (s.core c).gang = g →
    (s.core c).frozen = none → ((s.freezeRest g gv cause).core c).frozen = some cause ∧
      ((s.freezeRest g gv cause).core c).x = (s.core c).x ∧ ((s.freezeRest g gv cause).core c).time = (s.core c).time) ∧
  (∀ (g : Nat) (cause : FreezeCause) (o : Origin) (d : Name) (s : State) (gv : Gang), s.gang g = some gv → gv.frozen ≠ none →
    ((∃ c ∈ gv.cores, (s.home g c).wordsOut = true) →
      exec (.saveWritten g cause o d) s = .next (s.after 1 (.saveWritten g cause o d))) ∧
    ((∀ c ∈ gv.cores, (s.home g c).wordsOut = false) → gv.records = [] →
      (cause ≠ .owner → exec (.saveWritten g cause o d) s = .next (s.saveNow g)) ∧
      exec (.saveWritten g .owner o d) s = .next ((s.saveNow g).privDone o d 0))) ∧
  (∀ (g n : Nat) (s : State) (sv : Save), Tbl.find s.saves n = some sv → sv.gang = g → (s.core sv.core).gang = g →
    Tbl.find (s.saveNow g).saves n = some { sv with image := s.core sv.core } ∧ (s.saveNow g).cores = s.cores ∧
    (s.saveNow g).mem = s.mem) ∧
  (∀ (g c : Nat) (s : State) (gv : Gang), s.gang g = some gv → gv.cores = [c] →
    (gv.frozen = none → exec (.gangResume g) s = .next s) ∧
    (gv.frozen ≠ none → gv.saved = false ∨ gv.records ≠ [] ∨ s.scheduled gv.vf = false ∨ s.coreFreeFor g c = false →
      exec (.gangResume g) s = .next (s.after 1 (.gangResume g))) ∧
    (gv.frozen = some .owner ∨ gv.frozen = some .trap → gv.saved = true → s.scheduled gv.vf = true → s.coreFreeFor g c = true →
      (s.core c).gang = g → (s.core c).held = [] → (s.core c).ocache = [] → gv.records = [] → gv.thaw = [] →
      ∃ (t : State) (u : Gang), exec (.gangResume g) s = .next t ∧ Tbl.find t.gangs g = some u ∧ u.frozen = none ∧
        u.saved = false ∧ (t.core c).frozen = none ∧ (t.core c).x = (s.core c).x ∧ (t.core c).time = (s.core c).time ∧
        (t.core c).agenda = (s.core c).agenda ∧ t.mem = s.mem ∧ Tbl.find t.saves (g * 512 + c) = none)) ∧
  (∀ (g : Nat) (s : State) (gv : Gang), s.gang g = some gv →
    (gv.frozen ≠ none ∨ s.now < gv.sliceAt → exec (.sliceEnd g) s = .next s) ∧
    (gv.frozen = none → gv.sliceAt ≤ s.now → s.rival g gv true = false → ∃ n, 1 ≤ n ∧
      exec (.sliceEnd g) s = .next ((s.modGang g (fun v => { v with sliceAt := s.now + n })).after n (.sliceEnd g))) ∧
    (gv.frozen = none → gv.sliceAt ≤ s.now → s.rival g gv true = true → gv.cores.length ≤ s.freeSlots gv.vf →
      exec (.sliceEnd g) s = .next ((s.after 0 (.freezeGate g .dispatcher noOrigin (.x 0))).after 1 (.gangResume g)))) ∧
  (∀ (g id : Nat) (s : State) (gv : Gang) (l : Launch), s.gang g = some gv → Tbl.find s.launches id = some l →
    (l.rcb.prio ≤ s.gangPrio gv → exec (.priorityPreempt g id) s = .next s) ∧
    (gv.frozen = none → s.runnable id l = true → s.gangPrio gv < l.rcb.prio → s.chosen l = none →
      gv.cores.any (bitOf l.rcb.coreset) = true → gv.cores.length ≤ s.freeSlots gv.vf →
      exec (.priorityPreempt g id) s = .next ((s.after 0 (.freezeGate g .dispatcher noOrigin (.x 0))).after 1 (.gangResume g)))) ∧
  (∀ (g : Nat) (level : BitVec 4) (s : State),
    exec (.frequencyChange g level) s = .next (s.modGang g (fun v => { v with nextLevel := level }))) ∧
  (∀ (g : Nat) (s : State) (gv : Gang), s.gang g = some gv →
    let c := gv.cores.headD 0
    (gv.frozen ≠ none → exec (.barrierClose g) s = .next (s.later c 1 (.barrierClose g))) ∧
    (gv.frozen = none → ∃ (t : State) (u : Gang) (p : Phase), exec (.barrierClose g) s = .next t ∧ Tbl.find t.gangs g = some u ∧
      u.phase = some p ∧ p.began = (s.core c).time / 2 ∧ (p.len, p.slots) = s.exchangeTable gv ∧ u.cores = gv.cores ∧
      u.level = gv.nextLevel ∧ t.mem = s.mem ∧
      (t.core c).agenda = addDue ((s.core c).time + 2 * p.len) (.exchangePhaseEnd g) (s.core c).agenda)) ∧
  (∀ (g : Nat) (s : State) (gv : Gang) (p : Phase), s.gang g = some gv → gv.phase = some p →
    let c := gv.cores.headD 0
    let now := (s.core c).time
    (gv.frozen ≠ none ∨ now < 2 * (p.began + p.len) ∨ now % 2 ≠ 0 ∨ (∃ e ∈ s.galleys, e.2.gang = g ∧ e.2.exch = true) →
      exec (.exchangePhaseEnd g) s = .next (s.later c 1 (.exchangePhaseEnd g))) ∧
    (gv.frozen = none → 2 * (p.began + p.len) ≤ now → now % 2 = 0 →
      (∀ e ∈ s.galleys, e.2.gang = g → e.2.exch = false) →
      ∃ (t : State) (u : Gang), exec (.exchangePhaseEnd g) s = .next t ∧ Tbl.find t.gangs g = some u ∧ u.phase = none ∧
        u.cores = gv.cores ∧ t.mem = s.mem ∧
        (∀ c ∈ gv.cores, (s.core c).wC.st = .barrier →
          (t.core c).step = (s.core c).step + 1 ∧ (t.core c).wC.st = .running ∧
          ((s.core c).wC.rep = none → (t.core c).wC.index = (s.core c).wC.index + 1) ∧
          (t.core c).wC.readyAt = (s.core c).time + 2 ∧ (t.core c).x = (s.core c).x ∧
          (∀ w ∈ [Walker.V, .M, .X, .G, .F], ((s.core c).w w).st = .barrier → ((t.core c).w w).st = .running ∧
            (((s.core c).w w).rep = none → ((t.core c).w w).index = ((s.core c).w w).index + 1))) ∧
        (∀ id l, Tbl.find s.launches id = some l → s.runnable id l = true → s.gangPrio gv < l.rcb.prio →
          (s.now, Instr.priorityPreempt g id) ∈ t.agenda)))

/-- Owners thaw, restart or abort, the resurfacer voids stale units and laps move the sets, blast sets are told, hosts read and write (R287, R308, R310, R313, R320, R321, R322, R341, R358, R394). -/
def Obligations.TenancyEvents : Prop :=
  (∀ (v : BitVec 6) (a : Nat) (s : State),
    (s.faulted v a = [] → exec (.faultActionThaw v a) s = .next s ∧ exec (.faultActionRestart v a) s = .next s ∧
      exec (.faultActionAbort v a) s = .next s) ∧
    (∀ g gv, s.faulted v a = [g] → s.gang g = some gv → gv.records ≠ [] →
      exec (.faultActionThaw v a) s = .next (s.after 1 (.faultActionThaw v a)) ∧
      exec (.faultActionRestart v a) s = .next (s.after 1 (.faultActionRestart v a)) ∧
      exec (.faultActionAbort v a) s = .next (s.after 1 (.faultActionAbort v a))) ∧
    (∀ g gv, s.faulted v a = [g] → s.gang g = some gv → gv.records = [] →
      exec (.faultActionThaw v a) s = .next ((s.after 0 (.gangResume g)).clearArea v a) ∧
      exec (.faultActionAbort v a) s = .next (((s.releaseGang g).endLaunch gv.launch .aborted).clearArea v a) ∧
      exec (.faultActionRestart v a) s = .next (State.clearArea (((s.releaseGang g).modLaunch gv.launch (fun l => { l with
        st := .waiting, ready := s.now + 144 })).after 0 (.gangStart gv.launch)) v a))) ∧
  (∀ (g : Nat) (s : State) (gv : Gang), s.gang g = some gv → (s.releaseGang g).gang g = none ∧
    ∀ e ∈ (s.releaseGang g).saves, e.2.gang ≠ g) ∧
  (∀ (key : Nat) (s : State), ∃ t : State, exec (.resurfaceUnit (.line key)) s = .next t ∧ t.mem = s.mem ∧ t.cores = s.cores ∧
    (∀ k, unitOf k ≠ unitOf key → t.tagAt k = s.tagAt k) ∧
    (s.tagCurrent (s.tagAt key) = true → (s.tags.map (fun e => e.1)).Nodup → t.tagAt key = s.tagAt key) ∧
    (s.tagCurrent (s.tagAt key) = false → (s.tags.map (fun e => e.1)).Nodup → t.tagAt key = voidTag)) ∧
  (∀ (u : UnitRef) (s : State), ∃ t : State, exec (.resurfaceUnit u) s = .next t ∧ t.vfs = s.vfs ∧ t.galleys = s.galleys ∧
    ∀ c, (t.core c).x = (s.core c).x ∧ (t.core c).lq = (s.core c).lq ∧ (t.core c).sq = (s.core c).sq) ∧
  (∀ s : State, s.genWaiters = [] → s.lapWaiters = [] → ∃ (t : State) (n : Nat), exec .lapEnd s = .next (t.after n .lapEnd) ∧
    t.laps = s.laps + 1 ∧ 345600 ≤ n ∧ n ≤ 2700000 ∧ (∀ e ∈ t.tags, s.tagCurrent e.2 = true) ∧
    (∀ e ∈ s.tags, s.tagCurrent e.2 = true → e ∈ t.tags) ∧ (∀ e ∈ t.keys, s.tagCurrent e.2.tag = true) ∧
    (∀ e ∈ t.dispensers, s.tagCurrent e.2.tag = true) ∧
    ∀ v e, Tbl.find s.vfs v = some e → Tbl.find t.vfs v = some { e with old := e.pend, pend := [] }) ∧
  (∀ (n : BitVec 8) (q : BitVec 2) (u : UnitRef) (s : State),
    (s.owners n.toNat q = [] → exec (.sharedStructureError n q u) s = .next (s.spoil n.toNat u)) ∧
    (∀ v, s.owners n.toNat q = [v] →
      exec (.sharedStructureError n q u) s = .next ((s.spoil n.toNat u).errorRecord v n.toNat (s.users u)))) ∧
  (∀ (v : BitVec 6) (q : BitVec 2) (s : State),
    (v ∈ s.owners 2 q ↔ ∃ e ∈ s.coalescer, e.2.sent = false ∧ e.2.vf = v) ∧
    (v ∈ s.owners 3 q ↔ ∃ e ∈ s.dispensers, s.tagCurrent e.2.tag = true ∧ e.2.tag.vf = v) ∧
    (v ∈ s.owners 4 q ↔ ∃ r ∈ s.replies, s.gen r.key.vf = r.key.gen ∧ r.key.vf = v) ∧
    (v ∈ s.owners 1 q ↔ ∃ e ∈ s.cores, quarter e.1 = q.toNat ∧ ∃ t ∈ e.2.tcache, t.gen = s.gen t.vf ∧ t.vf = v) ∧
    (v ∈ s.owners 5 q ↔ ∃ e ∈ s.galleys, quarter e.2.core = q.toNat ∧ e.2.vf = v ∧
      ∃ p ∈ e.2.flight, ∃ d, siteOf p.dst = some d ∧ d ≠ e.2.core) ∧
    s.owners 0 q = []) ∧
  (∀ (v : BitVec 6) (a n : Nat) (w : Option (List Byte)) (s : State),
    (s.serving = true → (s.vf v.toNat).created = true → (s.vf v.toNat).status ≠ .running →
      exec (.hostMemAccess v a w n) s = .next (s.modVf v.toNat (fun f => { f with heldHost := f.heldHost ++ [(a, w, n)] }))) ∧
    (s.serving = true → (s.vf v.toNat).status = .running → exec (.hostMemAccess v a none n) s = .next (s.send (.hostRead v a (s.hostRead v a n)))) ∧
    (∀ bs, s.serving = true → (s.vf v.toNat).status = .running →
      exec (.hostMemAccess v a (some bs) n) s = .next (s.hostWrite v a bs)) ∧
    (s.serving = false → exec (.hostMemAccess v a none n) s = .next (s.send (.hostRead v a (zeros n))) ∧
      ∀ bs, exec (.hostMemAccess v a (some bs) n) s = .next s)) ∧
  (∀ s : State, ∃ (t : State) (n : Nat), exec .coarsenedCounterSample s = .next (t.after n .coarsenedCounterSample) ∧
    1 ≤ n ∧ (s.now + n) % 270000000 = 0 ∧ t.mem = s.mem ∧
    ∀ v e, Tbl.find s.vfs v = some e → Tbl.find t.vfs v = some { e with
      coarse := ((((List.range 4).map (s.windowCounter false v) ++ [(Config.telemetry v s.now).1, (Config.telemetry v s.now).2]).map
        coarsen).zipIdx).map (fun x => (x.2, x.1)) }) ∧
  (∀ (s t : State) (c b : Nat) (k : Core), exec .coarsenedCounterSample s = .next t → Tbl.find s.cores c = some k → c < 256 → b < 32 →
    ∃ l, Tbl.find t.coarseBanks c = some l ∧ l[b]? = some (coarsen (Tbl.get k.bankLoss b 0))) ∧
  (∀ n : Nat, coarsen n ≤ n ∧ n < 2 * max 1 (coarsen n) ∧ (n ≠ 0 → ∃ k, coarsen n = 2 ^ k))

/-- Boot phases pass in order, the mailbox answers one command at a time, sensors lock the module, emergencies set the islands (R305, R332, R339, R340, R398, R399, R400, R401, R402, R403, R404). -/
def Obligations.PlatformEvents : Prop :=
  (∀ s : State, (s.phase = 0 → ∃ t : State, exec (.bootPhase true) s = .next t ∧ t.phase = 1 ∧ t.mem = s.mem) ∧
    (s.phase = 1 → exec (.bootPhase true) s = .next (s.enterPhase 2)) ∧
    (s.phase = 2 → exec (.bootPhase true) s = .next s ∧ exec (.bootPhase false) s = .next s) ∧
    (s.phase = 3 → s.q0up = false → exec (.bootPhase true) s = .next (State.allIslands { s with q0up := true })) ∧
    (s.phase = 3 → s.q0up = true → exec (.bootPhase true) s = .next (s.enterPhase 4)) ∧
    (s.phase = 4 → ∃ t : State, exec (.bootPhase true) s = .next t ∧ t.phase = 5 ∧ t.mem = s.mem ∧ t.cores = s.cores ∧
      t.moduleId = Config.moduleIdOf s.configRecord) ∧
    (s.phase = 5 → exec (.bootPhase true) s = .next ((State.enterPhase { s with reduced := s.gangs.map (fun g => g.1) } 6).allIslands)) ∧
    (s.phase = 3 ∨ s.phase = 4 ∨ s.phase = 5 → ∃ t : State, exec (.bootPhase false) s = .next t ∧ t.phase = 0xF ∧
      t.resp.toNat % 2 ^ 16 = s.phase.toNat ∧ t.mem = s.mem ∧ t.outbox = s.outbox ++ [.msix none 0] ∧ t.gangs = [] ∧
      (∀ e ∈ t.cores, e.1 < 256 → e.2.live = false))) ∧
  (∀ s : State, s.resp &&& 0x4000000000000000 ≠ 0 →
    let o := fun req : List Byte => { s with reqbuf := (req ++ s.reqbuf.drop req.length).take 256, resp := s.resp ||| 0x2000000000000000 }
    (∀ a b c, exec (.mailboxLoad a b c) s = .next (o ([a, b, c].flatMap (fun p => leBytes 8 p.1 ++ leBytes 8 p.2)))) ∧
    (∀ a b, exec (.mailboxAttest a b) s = .next (o (padTo 64 a ++ [b]))) ∧
    (∀ a, exec (.mailboxLimit a) s = .next (o (leBytes 8 a))) ∧ exec .mailboxThermal s = .next (o []) ∧
    (∀ a b, exec (.mailboxProofRequest a b) s = .next (o b))) ∧
  (∀ (code : BitVec 16) (rsp : List Byte) (s : State), ∃ t : State, exec (.mailboxComplete code rsp) s = .next t ∧
    t.resp &&& 0x4000000000000000 = 0 ∧ t.resp &&& 0x8000000000000000 ≠ 0 ∧ t.resp.toNat % 2 ^ 16 = code.toNat ∧
    t.mem = s.mem ∧ t.cores = s.cores) ∧
  (∀ (s : State) (w : Nat), s.resp &&& 0x4000000000000000 = 0 →
    (1200 ≤ w → w ≤ 2400 → ∃ (t : State) (n : Nat), exec (.mailboxLimit w) s =
      .next (State.after { t with limit := w } n (.mailboxComplete 0 (leBytes 8 w))) ∧ 1 ≤ n ∧ t.phase = s.phase) ∧
    (w < 1200 ∨ 2400 < w → ∃ (t : State) (n : Nat), exec (.mailboxLimit w) s = .next (t.after n (.mailboxComplete 5 [])) ∧
      t.limit = s.limit ∧ t.resp &&& 0x4000000000000000 ≠ 0)) ∧
  (∀ (s : State) (a b c : Nat × Nat), s.resp &&& 0x4000000000000000 = 0 →
    a.1 + a.2 ≤ 2 ^ 52 → b.1 + b.2 ≤ 2 ^ 52 → c.1 + c.2 ≤ 2 ^ 52 →
    let image := fun p : Nat × Nat => memRead s.mem (keyHost p.1) p.2
    (s.phase ≠ 2 → ∃ (t : State) (n : Nat), exec (.mailboxLoad a b c) s = .next (t.after n (.mailboxComplete 5 [])) ∧ t.phase = s.phase) ∧
    (s.phase = 2 → ∃ (t : State) (n : Nat),
      if Config.signatureValid (image a) && Config.signatureValid (image b) && Config.signatureValid (image c) then
        exec (.mailboxLoad a b c) s = .next (t.after n (.mailboxComplete 0 [])) ∧ t.phase = 3 ∧
          t.digestPress = sha512 (image b) ∧ t.digestConfig = sha512 (image c) ∧ t.configRecord = image c ∧
          (∀ m, 256 ≤ m → m ≤ 260 → (t.core m).live = true ∧ (t.core m).wC.st = .running ∧ (t.core m).wC.index = 0)
      else exec (.mailboxLoad a b c) s = .next (t.after n (.mailboxComplete 2 [])) ∧ t.phase = 0xF)) ∧
  (∀ (s : State) (nonce : List Byte) (v : BitVec 8), s.resp &&& 0x4000000000000000 = 0 → nonce.length = 64 →
    (v.toNat < 64 → ∃ (t : State) (n : Nat), exec (.mailboxAttest nonce v) s =
      .next (t.after n (.mailboxComplete 0 (t.report nonce (v.setWidth 6)))) ∧ t.mem = s.mem ∧ t.vfs = s.vfs) ∧
    (64 ≤ v.toNat → ∃ (t : State) (n : Nat), exec (.mailboxAttest nonce v) s = .next (t.after n (.mailboxComplete 5 [])) ∧
      t.mem = s.mem ∧ t.vfs = s.vfs)) ∧
  (∀ s : State, s.resp &&& 0x4000000000000000 = 0 → ∃ (t : State) (n : Nat), exec .mailboxThermal s = .next (t.after n
    (.mailboxComplete 0 (leBytes 2 (Config.thermal s.nextFree).1.toNat ++ leBytes 2 (Config.thermal s.nextFree).2.toNat))) ∧
    t.nextFree = s.nextFree + 1) ∧
  (∀ (s : State) (cmd : Byte) (req : List Byte), s.resp &&& 0x4000000000000000 = 0 →
    (cmd.toNat < 0x10 ∨ 0x7F < cmd.toNat ∨ s.phase.toNat < 3 ∨ 6 < s.phase.toNat → ∃ (t : State) (n : Nat),
      exec (.mailboxProofRequest cmd req) s = .next (t.after n (.mailboxComplete 5 [])) ∧ t.mem = s.mem) ∧
    (0x10 ≤ cmd.toNat → cmd.toNat ≤ 0x7F → 3 ≤ s.phase.toNat → s.phase.toNat ≤ 6 → ∃ (t : State) (n : Nat),
      exec (.mailboxProofRequest cmd req) s = .next (t.after n (.mailboxComplete (Config.proofPatch cmd req).1
        (Config.proofPatch cmd req).2.1)) ∧ t.cores = s.cores)) ∧
  (∀ s : State, ∃ t : State, exec .sensorTrip s = .next t ∧ t.phase = 0xE ∧ t.keys = [] ∧ t.gangs = [] ∧ t.launches = [] ∧
    t.mem = s.mem ∧ (∀ e ∈ t.cores, e.2.live = false) ∧ (∀ e ∈ t.coalescer, e.2.sent = true) ∧
    (∀ e ∈ t.galleys, ∀ p ∈ e.2.plan ++ e.2.flight, isVirt p.dst = false)) ∧
  (∀ s : State, ∃ t : State, exec .hostReset s = .next t ∧ t.phase = 0 ∧ t.cores = [] ∧ t.vfs = [] ∧ t.tags = [] ∧ t.keys = [] ∧
    t.laps = 0 ∧ (∀ a, isPool a = true → s.Canonical → memByte t.mem a = memByte s.mem a)) ∧
  (∀ s : State, (∃ t : State, exec .thermalEmergency s = .next t ∧ t.forcedHot = true ∧ t.mem = s.mem ∧
      ∀ i, i < 128 → 8 ≤ (Tbl.get t.islands i 0).toNat) ∧
    (∃ t : State, exec .thermalEmergencyEnd s = .next t ∧ t.forcedHot = false ∧ t.mem = s.mem) ∧
    (∀ l, ∃ t : State, exec (.supplyEmergency l) s = .next t ∧ t.supply = l ∧ t.mem = s.mem ∧
      ∀ i, i < 128 → l.toNat ≤ (Tbl.get t.islands i 0).toNat)) ∧
  (∀ (p : BitVec 4) (s : State), exec (.poolPortRetrain p) s = .next { s with poolDown := s.poolDown.filter (· ≠ p.toNat) } ∧
    (s.poolDown.contains p.toNat = true → s.galleys = [] → s.coalescer = [] → exec (.poolPortDown p) s = .next s) ∧
    (s.poolDown.contains p.toNat = false → s.galleys = [] → s.coalescer = [] →
      exec (.poolPortDown p) s = .next { s with poolDown := p.toNat :: s.poolDown }) ∧
    (s.poolDown.contains p.toNat = false → ∃ t : State, exec (.poolPortDown p) s = .next t ∧ t.poolDown = p.toNat :: s.poolDown ∧
      ∀ e ∈ t.galleys, ∀ q ∈ e.2.flight, q.byPort p.toNat = false))

/-- A word that computes a scalar changes its destination, its wait and its walker, and nothing else (frame) (R19, R29, R34, R59, R60, R63, R64, R65). -/
def Obligations.ScalarFrame : Prop :=
  ∀ (i : Instr) (w : Walker) (h : Hdr) (d : Name) (s t : State), scalarWord i = some (w, h, d) → exec i s = .next t →
    s.sharedSame t ∧
    (∀ c, (s.core c).storageSame (t.core c) ∧ (s.core c).othersSame (t.core c) w) ∧
    (∀ c, c ≠ s.cur → (t.core c).latches = (s.core c).latches ∧ (t.core c).sems = (s.core c).sems ∧
      (t.core c).scoreboard = (s.core c).scoreboard) ∧
    (∀ l ∈ (t.core s.cur).latches, l ∈ (s.core s.cur).latches ∨ (∃ r v, d = .x r ∧ r ≠ 0 ∧ l = .xreg r v) ∨ l = .tidy (s.word w h)) ∧
    (∀ n ∈ (t.core s.cur).scoreboard, n ∈ (s.core s.cur).scoreboard ∨ ∃ r, d = .x r ∧ r ≠ 0 ∧ n = r.toNat) ∧
    (∀ n, n ≠ h.wait → t.semVal s.cur n = s.semVal s.cur n)

/-- A word between views changes nothing at its issue: its result lands later, in its destination view (frame) (R19, R27, R161, R163, R164, R166). -/
def Obligations.VectorFrame : Prop :=
  ∀ (i : Instr) (v : ViewSpec) (s t : State), elementWord i = some v ∨ movementWord i = some v →
    (∀ o ∈ v.ops, ∃ n, o.1 = .v n) → (∀ q, v.arg ≠ some (.q q)) → (s.core s.cur).frozen = none →
    exec i s = .next t → (t.core s.cur).frozen = none →
    s.sharedSame t ∧ (∀ c, c ≠ s.cur → t.core c = s.core c) ∧ (s.core s.cur).storageSame (t.core s.cur) ∧
    (s.core s.cur).othersSame (t.core s.cur) .V ∧ (t.core s.cur).latches = (s.core s.cur).latches ∧
    (∀ n, n ≠ v.h.wait → t.semVal s.cur n = s.semVal s.cur n) ∧
    (∀ r ∈ (t.core s.cur).vpend, r ∈ (s.core s.cur).vpend ∨ ∃ f run, destView (s.waited v.h.wait) s.cur v.d = some (f, run) ∧
      r = (keyRS s.cur run.1, run.2, (s.core s.cur).time * 8 + walkerNum .V))

/-- A store that performs changes the bytes it stores to and no other byte of memory (frame) (R3, R9, R70, R216, R307). -/
def Obligations.StoreFrame : Prop :=
  ∀ (c : Nat) (s t : State) (o : Origin) (n key r : Nat) (v : Word) (rel : Option Scope) (l : List QOp),
    (s.core c).sq = ⟨o, .store n key v rel, some r⟩ :: l → (s.core c).lq = [] → isVault key = true → r ≤ (s.core c).time →
    o.core = c → o.post = 0 → o.post2 = 0 → key % 64 + n ≤ 64 → 0 < n → s.Canonical → (s.ownTag c).gen ≠ 0 →
    exec (.storePerforms c) s = .next t →
    (∀ a, a < unitOf key ∨ unitOf key + 64 ≤ a → memByte t.mem a = memByte s.mem a) ∧
    (s.tagAt key = s.ownTag c → ∀ a, a < key ∨ key + n ≤ a → memByte t.mem a = memByte s.mem a) ∧
    (∀ i, i < n → i < 8 → memByte t.mem (key + i) = if s.recordByte (s.ownTag c).vf (key + i)
      then (s.read (s.ownTag c) (key + i) 1).headD 0 else BitVec.ofNat 8 (v.toNat / 2 ^ (8 * i))) ∧
    t.tagAt key = s.ownTag c ∧ (∀ k, unitOf k ≠ unitOf key → t.tagAt k = s.tagAt k) ∧ t.vfs = s.vfs ∧ t.galleys = s.galleys ∧
    t.gangs = s.gangs ∧ t.keys = s.keys ∧ t.dispensers = s.dispensers ∧
    (∀ d, (∀ q, (t.core d).readX q = (s.core d).readX q) ∧ (t.core d).views = (s.core d).views ∧
      (t.core d).aviews = (s.core d).aviews ∧ (t.core d).queues = (s.core d).queues ∧ (t.core d).sems = (s.core d).sems ∧
      (t.core d).vstat = (s.core d).vstat ∧ (t.core d).merrlog = (s.core d).merrlog ∧ (t.core d).gibbs = (s.core d).gibbs ∧
      (t.core d).counters = (s.core d).counters ∧ (t.core d).lq = (s.core d).lq ∧ (t.core d).empty = (s.core d).empty ∧
      (t.core d).time = (s.core d).time ∧ (t.core d).step = (s.core d).step)
end

