-- ==== Sys2Proof/Laws/Issue.lean ====
section
/-! SUPPORT. What an operation that may stop does, step by step, and what the issue of a word can come to. -/

namespace Sys2Proof.Machine

/-! ## Operations -/

theorem op_bind_ok {α β : Type} {m : Op α} {f : α → Op β} {s s1 : State} {a : α} (h : m.run s = .ok (a, s1)) :
    (m >>= f).run s = (f a).run s1 := by
  rw [StateT.run_bind, h]; rfl

theorem op_bind_error {α β : Type} {m : Op α} {f : α → Op β} {s : State} {e : Stop} (h : m.run s = .error e) :
    (m >>= f).run s = .error e := by
  rw [StateT.run_bind, h]; rfl

@[simp] theorem op_pure {α : Type} (a : α) (s : State) : (pure a : Op α).run s = .ok (a, s) := rfl
@[simp] theorem op_get (s : State) : (get : Op State).run s = .ok (s, s) := rfl
@[simp] theorem op_set (s t : State) : (set t : Op PUnit).run s = .ok (⟨⟩, t) := rfl
@[simp] theorem op_modify (f : State → State) (s : State) : (modify f : Op PUnit).run s = .ok (⟨⟩, f s) := rfl
@[simp] theorem op_getCore (o : Origin) (s : State) : (getCore o).run s = .ok (s.core o.core, s) := rfl
@[simp] theorem op_modifyCore (o : Origin) (f : Core → Core) (s : State) :
    (modifyCore o f).run s = .ok (⟨⟩, s.modCore o.core f) := rfl
@[simp] theorem op_stall {α : Type} (s : State) : (stall : Op α).run s = .error .stall := rfl
@[simp] theorem op_trapNow {α : Type} (cls : TrapClass) (code addr : Nat) (s : State) :
    (trapNow cls code addr : Op α).run s = .error (.trap cls code addr) := rfl

theorem op_need {b : Bool} (h : b = true) (s : State) : (need b).run s = .ok ((), s) := by subst h; rfl
theorem op_need_not {b : Bool} (h : b = false) (s : State) : (need b).run s = .error .stall := by subst h; rfl
theorem op_demand {b : Bool} (h : b = true) (cls : TrapClass) (addr : Nat) (s : State) :
    (demand b cls addr).run s = .ok ((), s) := by subst h; rfl
theorem op_demand_not {b : Bool} (h : b = false) (cls : TrapClass) (addr : Nat) (s : State) :
    (demand b cls addr).run s = .error (.trap cls 0 addr) := by subst h; rfl

@[simp] theorem op_doneNow (o : Origin) (s : State) : (doneNow o).run s = .ok (.seq, s.complete o) := rfl
@[simp] theorem op_doneNext (o : Origin) (l : List Latch) (s : State) : (doneNext o l).run s =
    .ok (.seq, (s.modCore o.core (fun k => { k with latches := k.latches ++ l ++ [.tidy o] })).begin o) := rfl
@[simp] theorem op_doneLater (o : Origin) (d : Nat) (i : Instr) (s : State) :
    (doneLater o d i).run s = .ok (.seq, (s.begin o).later o.core d i) := rfl

/-! ## The issue of a word -/

@[simp] theorem word_core (s : State) (w : Walker) (h : Hdr) : (s.word w h).core = s.cur := by
  unfold State.word Core.origin; dsimp only; split <;> rfl

@[simp] theorem word_walker (s : State) (w : Walker) (h : Hdr) : (s.word w h).walker = w := by
  unfold State.word Core.origin; dsimp only; split <;> rfl

@[simp] theorem word_age (s : State) (w : Walker) (h : Hdr) :
    (s.word w h).age = (s.core s.cur).time * 8 + walkerNum w := by
  unfold State.word Core.origin; dsimp only; split <;> rfl

/-- A request whose banks are all free is granted them. -/
theorem claimBanks_run {o : Origin} {b : BitVec 32} {s : State}
    (h : (s.core o.core).banksLost ((s.core o.core).wordAge o) b = 0) :
    (claimBanks o b).run s = .ok ((), s.setCore o.core ((s.core o.core).winBanks ((s.core o.core).wordAge o) b)) := by
  show (match (s.core o.core).requestBanks ((s.core o.core).wordAge o) b with
    | some k1 => Except.ok ((), s.setCore o.core k1)
    | none => Except.error (Stop.lost ((s.core o.core).wordAge o) b)) = _
  unfold Core.requestBanks
  rw [if_pos h]

theorem tryWord_of_mayIssue {w : Walker} {h : Hdr} {nowait : Bool} {body : Origin → Op Flow} {s : State}
    (hm : s.mayIssue w h.wait) (hn : nowait = false) :
    tryWord s.cur w h nowait body s = (body (s.word w h)).run (s.waited h.wait) := by
  obtain ⟨h1, h2, h3, h4, h5, h6⟩ := hm
  subst hn
  unfold tryWord State.waited State.word
  by_cases hw : h.wait = 0
  · simp [h1, h2, h3, h4, hw]
  · simp [h1, h2, h3, h4, h6.resolve_left hw, State.takeWait]
    exact fun e => absurd e hw

/-- A word that may issue and whose body goes well has its effect, and its walker goes on. -/
theorem issue_seq {w : Walker} {h : Hdr} {cost : Nat} {body : Origin → Op Flow} {s t : State}
    (hm : s.mayIssue w h.wait) (hb : (body (s.word w h)).run (s.waited h.wait) = .ok (.seq, t)) :
    issue w h cost body s = .next (t.advanced s w cost) := by
  unfold issue issueAt
  rw [tryWord_of_mayIssue hm rfl, hb, if_pos hm.2.2.2.2.1]
  rfl

/-- As `issue_seq`, of a word that sets its walker itself. -/
theorem issue_own {w : Walker} {h : Hdr} {cost : Nat} {body : Origin → Op Flow} {s t : State}
    (hm : s.mayIssue w h.wait) (hb : (body (s.word w h)).run (s.waited h.wait) = .ok (.own, t)) :
    issue w h cost body s = .next t := by
  unfold issue issueAt
  rw [tryWord_of_mayIssue hm rfl, hb, if_pos hm.2.2.2.2.1]

/-- A word that may issue and whose body finds a trap raises it (R50). -/
theorem issue_trap {w : Walker} {h : Hdr} {cost : Nat} {body : Origin → Op Flow} {s : State} {cls : TrapClass}
    {code addr : Nat} (hm : s.mayIssue w h.wait)
    (hb : (body (s.word w h)).run (s.waited h.wait) = .error (.trap cls code addr)) :
    issue w h cost body s = .next ((s.takeTrap { s.word w h with post2 := 0 } cls code addr).stalled s.cur w) := by
  unfold issue issueAt
  rw [tryWord_of_mayIssue hm rfl, hb, if_pos hm.2.2.2.2.1]
  rfl

/-- A word always answers a next state. -/
theorem issue_next (w : Walker) (h : Hdr) (cost : Nat) (body : Origin → Op Flow) (s : State) :
    ∃ t, issue w h cost body s = .next t := ⟨_, rfl⟩

end Sys2Proof.Machine
end

