-- ==== Sys2Proof/Laws/Tables.lean ====
section
/-! SUPPORT. Tables: an entry read after a write, and entries that a change leaves alone. -/

namespace Sys2Proof.Machine

@[simp] theorem find_put {α : Type} (m : Tbl α) (n : Nat) (v : α) : Tbl.find (Tbl.put m n v) n = some v := by
  induction m with
  | nil => simp [Tbl.put, Tbl.find]
  | cons e m ih =>
    obtain ⟨k, w⟩ := e
    unfold Tbl.put
    split
    · simp [Tbl.find]
    · split
      · simp [Tbl.find]
      · rename_i h1 h2; simp [Tbl.find, h2, ih]

theorem find_put_ne {α : Type} (m : Tbl α) {n k : Nat} (v : α) (h : k ≠ n) : Tbl.find (Tbl.put m n v) k = Tbl.find m k := by
  induction m with
  | nil => simp [Tbl.put, Tbl.find, Ne.symm h]
  | cons e m ih =>
    obtain ⟨j, w⟩ := e
    unfold Tbl.put
    split
    · simp [Tbl.find, Ne.symm h]
    · split
      · rename_i _ h2; subst h2; simp [Tbl.find, Ne.symm h]
      · simp [Tbl.find, ih]

@[simp] theorem get_put {α : Type} (m : Tbl α) (n : Nat) (v d : α) : Tbl.get (Tbl.put m n v) n d = v := by simp [Tbl.get]

theorem get_put_ne {α : Type} (m : Tbl α) {n k : Nat} (v d : α) (h : k ≠ n) :
    Tbl.get (Tbl.put m n v) k d = Tbl.get m k d := by simp [Tbl.get, find_put_ne m v h]

@[simp] theorem get_upd {α : Type} (m : Tbl α) (n : Nat) (d : α) (f : α → α) :
    Tbl.get (Tbl.upd m n d f) n d = f (Tbl.get m n d) := by simp [Tbl.upd]

theorem get_upd_ne {α : Type} (m : Tbl α) {n k : Nat} (d e : α) (f : α → α) (h : k ≠ n) :
    Tbl.get (Tbl.upd m n d f) k e = Tbl.get m k e := by simp [Tbl.upd, get_put_ne _ _ _ h]

/-- The entries that a filter on numbers keeps. -/
theorem find_filter_key {α : Type} (m : Tbl α) (q : Nat → Bool) (n : Nat) :
    Tbl.find (m.filter (fun e => q e.1)) n = if q n then Tbl.find m n else none := by
  induction m with
  | nil => simp [Tbl.find]
  | cons e m ih =>
    obtain ⟨k, w⟩ := e
    by_cases hk : k = n
    · subst hk
      by_cases hq : q k <;> simp [List.filter, hq, Tbl.find] at ih ⊢
      exact ih
    · by_cases hq : q k <;> simp [List.filter, hq, Tbl.find, hk] at ih ⊢ <;> exact ih

@[simp] theorem find_del {α : Type} (m : Tbl α) (n : Nat) : Tbl.find (Tbl.del m n) n = none := by
  have h := find_filter_key m (fun k => decide (k ≠ n)) n
  simpa [Tbl.del] using h

theorem find_del_ne {α : Type} (m : Tbl α) {n k : Nat} (h : k ≠ n) : Tbl.find (Tbl.del m n) k = Tbl.find m k := by
  have g := find_filter_key m (fun k => decide (k ≠ n)) k
  simpa [Tbl.del, h] using g

theorem find_append {α : Type} (l m : Tbl α) (n : Nat) : Tbl.find (l ++ m) n = (Tbl.find l n).or (Tbl.find m n) := by
  induction l with
  | nil => simp [Tbl.find]
  | cons e l ih =>
    obtain ⟨k, w⟩ := e
    by_cases hk : k = n <;> simp [Tbl.find, hk, ih]

theorem find_map {α β : Type} (m : Tbl α) (f : α → β) (n : Nat) :
    Tbl.find (m.map (fun e => (e.1, f e.2))) n = (Tbl.find m n).map f := by
  induction m with
  | nil => simp [Tbl.find]
  | cons e m ih =>
    obtain ⟨k, w⟩ := e
    by_cases hk : k = n <;> simp [Tbl.find, hk, ih]

theorem find_mem {α : Type} {m : Tbl α} {n : Nat} {v : α} (h : Tbl.find m n = some v) : (n, v) ∈ m := by
  induction m with
  | nil => simp [Tbl.find] at h
  | cons e m ih =>
    obtain ⟨k, w⟩ := e
    by_cases hk : k = n
    · subst hk; simp [Tbl.find] at h; simp [h]
    · simp [Tbl.find, hk] at h; simp [ih h]

/-! ## Agendas -/

theorem mem_addDue {t : Nat} {i : Instr} {l : List (Nat × Instr)} {e : Nat × Instr} :
    e ∈ addDue t i l ↔ e = (t, i) ∨ e ∈ l := by
  induction l with
  | nil => simp [addDue]
  | cons a l ih =>
    obtain ⟨u, j⟩ := a
    unfold addDue
    split
    · simp [ih]; tauto
    · simp

end Sys2Proof.Machine
end

