-- ==== Sys2Proof/Laws/State.lean ====
section
/-! SUPPORT. One lemma for each field and each plain update of the state. -/

namespace Sys2Proof.Machine

/-! ## setCore -/

@[simp] theorem setCore_now (s : State) (c : Nat) (k : Core) : (s.setCore c k).now = s.now := rfl
@[simp] theorem setCore_cur (s : State) (c : Nat) (k : Core) : (s.setCore c k).cur = s.cur := rfl
@[simp] theorem setCore_curW (s : State) (c : Nat) (k : Core) : (s.setCore c k).curW = s.curW := rfl
@[simp] theorem setCore_mem (s : State) (c : Nat) (k : Core) : (s.setCore c k).mem = s.mem := rfl
@[simp] theorem setCore_tags (s : State) (c : Nat) (k : Core) : (s.setCore c k).tags = s.tags := rfl
@[simp] theorem setCore_poison (s : State) (c : Nat) (k : Core) : (s.setCore c k).poison = s.poison := rfl
@[simp] theorem setCore_badLines (s : State) (c : Nat) (k : Core) : (s.setCore c k).badLines = s.badLines := rfl
@[simp] theorem setCore_vfs (s : State) (c : Nat) (k : Core) : (s.setCore c k).vfs = s.vfs := rfl
@[simp] theorem setCore_coarseBanks (s : State) (c : Nat) (k : Core) : (s.setCore c k).coarseBanks = s.coarseBanks := rfl
@[simp] theorem setCore_dispensers (s : State) (c : Nat) (k : Core) : (s.setCore c k).dispensers = s.dispensers := rfl
@[simp] theorem setCore_keys (s : State) (c : Nat) (k : Core) : (s.setCore c k).keys = s.keys := rfl
@[simp] theorem setCore_galleys (s : State) (c : Nat) (k : Core) : (s.setCore c k).galleys = s.galleys := rfl
@[simp] theorem setCore_nextGalley (s : State) (c : Nat) (k : Core) : (s.setCore c k).nextGalley = s.nextGalley := rfl
@[simp] theorem setCore_launches (s : State) (c : Nat) (k : Core) : (s.setCore c k).launches = s.launches := rfl
@[simp] theorem setCore_nextLaunch (s : State) (c : Nat) (k : Core) : (s.setCore c k).nextLaunch = s.nextLaunch := rfl
@[simp] theorem setCore_gangs (s : State) (c : Nat) (k : Core) : (s.setCore c k).gangs = s.gangs := rfl
@[simp] theorem setCore_nextGang (s : State) (c : Nat) (k : Core) : (s.setCore c k).nextGang = s.nextGang := rfl
@[simp] theorem setCore_saves (s : State) (c : Nat) (k : Core) : (s.setCore c k).saves = s.saves := rfl
@[simp] theorem setCore_coalescer (s : State) (c : Nat) (k : Core) : (s.setCore c k).coalescer = s.coalescer := rfl
@[simp] theorem setCore_laps (s : State) (c : Nat) (k : Core) : (s.setCore c k).laps = s.laps := rfl
@[simp] theorem setCore_phase (s : State) (c : Nat) (k : Core) : (s.setCore c k).phase = s.phase := rfl
@[simp] theorem setCore_reduced (s : State) (c : Nat) (k : Core) : (s.setCore c k).reduced = s.reduced := rfl
@[simp] theorem setCore_moduleId (s : State) (c : Nat) (k : Core) : (s.setCore c k).moduleId = s.moduleId := rfl
@[simp] theorem setCore_fports (s : State) (c : Nat) (k : Core) : (s.setCore c k).fports = s.fports := rfl
@[simp] theorem setCore_rv (s : State) (c : Nat) (k : Core) : (s.setCore c k).rv = s.rv := rfl
@[simp] theorem setCore_replies (s : State) (c : Nat) (k : Core) : (s.setCore c k).replies = s.replies := rfl
@[simp] theorem setCore_ops (s : State) (c : Nat) (k : Core) : (s.setCore c k).ops = s.ops := rfl
@[simp] theorem setCore_rackTo (s : State) (c : Nat) (k : Core) : (s.setCore c k).rackTo = s.rackTo := rfl
@[simp] theorem setCore_colls (s : State) (c : Nat) (k : Core) : (s.setCore c k).colls = s.colls := rfl
@[simp] theorem setCore_collWaits (s : State) (c : Nat) (k : Core) : (s.setCore c k).collWaits = s.collWaits := rfl
@[simp] theorem setCore_collParts (s : State) (c : Nat) (k : Core) : (s.setCore c k).collParts = s.collParts := rfl
@[simp] theorem setCore_joined (s : State) (c : Nat) (k : Core) : (s.setCore c k).joined = s.joined := rfl
@[simp] theorem setCore_outbox (s : State) (c : Nat) (k : Core) : (s.setCore c k).outbox = s.outbox := rfl
@[simp] theorem setCore_agenda (s : State) (c : Nat) (k : Core) : (s.setCore c k).agenda = s.agenda := rfl
@[simp] theorem setCore_inputs (s : State) (c : Nat) (k : Core) : (s.setCore c k).inputs = s.inputs := rfl

/-! ## modCore -/

@[simp] theorem modCore_now (s : State) (c : Nat) (f : Core → Core) : (s.modCore c f).now = s.now := rfl
@[simp] theorem modCore_cur (s : State) (c : Nat) (f : Core → Core) : (s.modCore c f).cur = s.cur := rfl
@[simp] theorem modCore_curW (s : State) (c : Nat) (f : Core → Core) : (s.modCore c f).curW = s.curW := rfl
@[simp] theorem modCore_mem (s : State) (c : Nat) (f : Core → Core) : (s.modCore c f).mem = s.mem := rfl
@[simp] theorem modCore_tags (s : State) (c : Nat) (f : Core → Core) : (s.modCore c f).tags = s.tags := rfl
@[simp] theorem modCore_poison (s : State) (c : Nat) (f : Core → Core) : (s.modCore c f).poison = s.poison := rfl
@[simp] theorem modCore_badLines (s : State) (c : Nat) (f : Core → Core) : (s.modCore c f).badLines = s.badLines := rfl
@[simp] theorem modCore_vfs (s : State) (c : Nat) (f : Core → Core) : (s.modCore c f).vfs = s.vfs := rfl
@[simp] theorem modCore_coarseBanks (s : State) (c : Nat) (f : Core → Core) : (s.modCore c f).coarseBanks = s.coarseBanks := rfl
@[simp] theorem modCore_dispensers (s : State) (c : Nat) (f : Core → Core) : (s.modCore c f).dispensers = s.dispensers := rfl
@[simp] theorem modCore_keys (s : State) (c : Nat) (f : Core → Core) : (s.modCore c f).keys = s.keys := rfl
@[simp] theorem modCore_galleys (s : State) (c : Nat) (f : Core → Core) : (s.modCore c f).galleys = s.galleys := rfl
@[simp] theorem modCore_nextGalley (s : State) (c : Nat) (f : Core → Core) : (s.modCore c f).nextGalley = s.nextGalley := rfl
@[simp] theorem modCore_launches (s : State) (c : Nat) (f : Core → Core) : (s.modCore c f).launches = s.launches := rfl
@[simp] theorem modCore_nextLaunch (s : State) (c : Nat) (f : Core → Core) : (s.modCore c f).nextLaunch = s.nextLaunch := rfl
@[simp] theorem modCore_gangs (s : State) (c : Nat) (f : Core → Core) : (s.modCore c f).gangs = s.gangs := rfl
@[simp] theorem modCore_nextGang (s : State) (c : Nat) (f : Core → Core) : (s.modCore c f).nextGang = s.nextGang := rfl
@[simp] theorem modCore_saves (s : State) (c : Nat) (f : Core → Core) : (s.modCore c f).saves = s.saves := rfl
@[simp] theorem modCore_coalescer (s : State) (c : Nat) (f : Core → Core) : (s.modCore c f).coalescer = s.coalescer := rfl
@[simp] theorem modCore_laps (s : State) (c : Nat) (f : Core → Core) : (s.modCore c f).laps = s.laps := rfl
@[simp] theorem modCore_phase (s : State) (c : Nat) (f : Core → Core) : (s.modCore c f).phase = s.phase := rfl
@[simp] theorem modCore_reduced (s : State) (c : Nat) (f : Core → Core) : (s.modCore c f).reduced = s.reduced := rfl
@[simp] theorem modCore_moduleId (s : State) (c : Nat) (f : Core → Core) : (s.modCore c f).moduleId = s.moduleId := rfl
@[simp] theorem modCore_fports (s : State) (c : Nat) (f : Core → Core) : (s.modCore c f).fports = s.fports := rfl
@[simp] theorem modCore_rv (s : State) (c : Nat) (f : Core → Core) : (s.modCore c f).rv = s.rv := rfl
@[simp] theorem modCore_replies (s : State) (c : Nat) (f : Core → Core) : (s.modCore c f).replies = s.replies := rfl
@[simp] theorem modCore_ops (s : State) (c : Nat) (f : Core → Core) : (s.modCore c f).ops = s.ops := rfl
@[simp] theorem modCore_rackTo (s : State) (c : Nat) (f : Core → Core) : (s.modCore c f).rackTo = s.rackTo := rfl
@[simp] theorem modCore_colls (s : State) (c : Nat) (f : Core → Core) : (s.modCore c f).colls = s.colls := rfl
@[simp] theorem modCore_collWaits (s : State) (c : Nat) (f : Core → Core) : (s.modCore c f).collWaits = s.collWaits := rfl
@[simp] theorem modCore_collParts (s : State) (c : Nat) (f : Core → Core) : (s.modCore c f).collParts = s.collParts := rfl
@[simp] theorem modCore_joined (s : State) (c : Nat) (f : Core → Core) : (s.modCore c f).joined = s.joined := rfl
@[simp] theorem modCore_outbox (s : State) (c : Nat) (f : Core → Core) : (s.modCore c f).outbox = s.outbox := rfl
@[simp] theorem modCore_agenda (s : State) (c : Nat) (f : Core → Core) : (s.modCore c f).agenda = s.agenda := rfl
@[simp] theorem modCore_inputs (s : State) (c : Nat) (f : Core → Core) : (s.modCore c f).inputs = s.inputs := rfl

/-! ## modW -/

@[simp] theorem modW_now (s : State) (c : Nat) (w : Walker) (f : WalkerSt → WalkerSt) : (s.modW c w f).now = s.now := rfl
@[simp] theorem modW_cur (s : State) (c : Nat) (w : Walker) (f : WalkerSt → WalkerSt) : (s.modW c w f).cur = s.cur := rfl
@[simp] theorem modW_curW (s : State) (c : Nat) (w : Walker) (f : WalkerSt → WalkerSt) : (s.modW c w f).curW = s.curW := rfl
@[simp] theorem modW_mem (s : State) (c : Nat) (w : Walker) (f : WalkerSt → WalkerSt) : (s.modW c w f).mem = s.mem := rfl
@[simp] theorem modW_tags (s : State) (c : Nat) (w : Walker) (f : WalkerSt → WalkerSt) : (s.modW c w f).tags = s.tags := rfl
@[simp] theorem modW_poison (s : State) (c : Nat) (w : Walker) (f : WalkerSt → WalkerSt) : (s.modW c w f).poison = s.poison := rfl
@[simp] theorem modW_badLines (s : State) (c : Nat) (w : Walker) (f : WalkerSt → WalkerSt) : (s.modW c w f).badLines = s.badLines := rfl
@[simp] theorem modW_vfs (s : State) (c : Nat) (w : Walker) (f : WalkerSt → WalkerSt) : (s.modW c w f).vfs = s.vfs := rfl
@[simp] theorem modW_coarseBanks (s : State) (c : Nat) (w : Walker) (f : WalkerSt → WalkerSt) : (s.modW c w f).coarseBanks = s.coarseBanks := rfl
@[simp] theorem modW_dispensers (s : State) (c : Nat) (w : Walker) (f : WalkerSt → WalkerSt) : (s.modW c w f).dispensers = s.dispensers := rfl
@[simp] theorem modW_keys (s : State) (c : Nat) (w : Walker) (f : WalkerSt → WalkerSt) : (s.modW c w f).keys = s.keys := rfl
@[simp] theorem modW_galleys (s : State) (c : Nat) (w : Walker) (f : WalkerSt → WalkerSt) : (s.modW c w f).galleys = s.galleys := rfl
@[simp] theorem modW_nextGalley (s : State) (c : Nat) (w : Walker) (f : WalkerSt → WalkerSt) : (s.modW c w f).nextGalley = s.nextGalley := rfl
@[simp] theorem modW_launches (s : State) (c : Nat) (w : Walker) (f : WalkerSt → WalkerSt) : (s.modW c w f).launches = s.launches := rfl
@[simp] theorem modW_nextLaunch (s : State) (c : Nat) (w : Walker) (f : WalkerSt → WalkerSt) : (s.modW c w f).nextLaunch = s.nextLaunch := rfl
@[simp] theorem modW_gangs (s : State) (c : Nat) (w : Walker) (f : WalkerSt → WalkerSt) : (s.modW c w f).gangs = s.gangs := rfl
@[simp] theorem modW_nextGang (s : State) (c : Nat) (w : Walker) (f : WalkerSt → WalkerSt) : (s.modW c w f).nextGang = s.nextGang := rfl
@[simp] theorem modW_saves (s : State) (c : Nat) (w : Walker) (f : WalkerSt → WalkerSt) : (s.modW c w f).saves = s.saves := rfl
@[simp] theorem modW_coalescer (s : State) (c : Nat) (w : Walker) (f : WalkerSt → WalkerSt) : (s.modW c w f).coalescer = s.coalescer := rfl
@[simp] theorem modW_laps (s : State) (c : Nat) (w : Walker) (f : WalkerSt → WalkerSt) : (s.modW c w f).laps = s.laps := rfl
@[simp] theorem modW_phase (s : State) (c : Nat) (w : Walker) (f : WalkerSt → WalkerSt) : (s.modW c w f).phase = s.phase := rfl
@[simp] theorem modW_reduced (s : State) (c : Nat) (w : Walker) (f : WalkerSt → WalkerSt) : (s.modW c w f).reduced = s.reduced := rfl
@[simp] theorem modW_moduleId (s : State) (c : Nat) (w : Walker) (f : WalkerSt → WalkerSt) : (s.modW c w f).moduleId = s.moduleId := rfl
@[simp] theorem modW_fports (s : State) (c : Nat) (w : Walker) (f : WalkerSt → WalkerSt) : (s.modW c w f).fports = s.fports := rfl
@[simp] theorem modW_rv (s : State) (c : Nat) (w : Walker) (f : WalkerSt → WalkerSt) : (s.modW c w f).rv = s.rv := rfl
@[simp] theorem modW_replies (s : State) (c : Nat) (w : Walker) (f : WalkerSt → WalkerSt) : (s.modW c w f).replies = s.replies := rfl
@[simp] theorem modW_ops (s : State) (c : Nat) (w : Walker) (f : WalkerSt → WalkerSt) : (s.modW c w f).ops = s.ops := rfl
@[simp] theorem modW_rackTo (s : State) (c : Nat) (w : Walker) (f : WalkerSt → WalkerSt) : (s.modW c w f).rackTo = s.rackTo := rfl
@[simp] theorem modW_colls (s : State) (c : Nat) (w : Walker) (f : WalkerSt → WalkerSt) : (s.modW c w f).colls = s.colls := rfl
@[simp] theorem modW_collWaits (s : State) (c : Nat) (w : Walker) (f : WalkerSt → WalkerSt) : (s.modW c w f).collWaits = s.collWaits := rfl
@[simp] theorem modW_collParts (s : State) (c : Nat) (w : Walker) (f : WalkerSt → WalkerSt) : (s.modW c w f).collParts = s.collParts := rfl
@[simp] theorem modW_joined (s : State) (c : Nat) (w : Walker) (f : WalkerSt → WalkerSt) : (s.modW c w f).joined = s.joined := rfl
@[simp] theorem modW_outbox (s : State) (c : Nat) (w : Walker) (f : WalkerSt → WalkerSt) : (s.modW c w f).outbox = s.outbox := rfl
@[simp] theorem modW_agenda (s : State) (c : Nat) (w : Walker) (f : WalkerSt → WalkerSt) : (s.modW c w f).agenda = s.agenda := rfl
@[simp] theorem modW_inputs (s : State) (c : Nat) (w : Walker) (f : WalkerSt → WalkerSt) : (s.modW c w f).inputs = s.inputs := rfl

/-! ## later -/

@[simp] theorem later_now (s : State) (c d : Nat) (i : Instr) : (s.later c d i).now = s.now := rfl
@[simp] theorem later_cur (s : State) (c d : Nat) (i : Instr) : (s.later c d i).cur = s.cur := rfl
@[simp] theorem later_curW (s : State) (c d : Nat) (i : Instr) : (s.later c d i).curW = s.curW := rfl
@[simp] theorem later_mem (s : State) (c d : Nat) (i : Instr) : (s.later c d i).mem = s.mem := rfl
@[simp] theorem later_tags (s : State) (c d : Nat) (i : Instr) : (s.later c d i).tags = s.tags := rfl
@[simp] theorem later_poison (s : State) (c d : Nat) (i : Instr) : (s.later c d i).poison = s.poison := rfl
@[simp] theorem later_badLines (s : State) (c d : Nat) (i : Instr) : (s.later c d i).badLines = s.badLines := rfl
@[simp] theorem later_vfs (s : State) (c d : Nat) (i : Instr) : (s.later c d i).vfs = s.vfs := rfl
@[simp] theorem later_coarseBanks (s : State) (c d : Nat) (i : Instr) : (s.later c d i).coarseBanks = s.coarseBanks := rfl
@[simp] theorem later_dispensers (s : State) (c d : Nat) (i : Instr) : (s.later c d i).dispensers = s.dispensers := rfl
@[simp] theorem later_keys (s : State) (c d : Nat) (i : Instr) : (s.later c d i).keys = s.keys := rfl
@[simp] theorem later_galleys (s : State) (c d : Nat) (i : Instr) : (s.later c d i).galleys = s.galleys := rfl
@[simp] theorem later_nextGalley (s : State) (c d : Nat) (i : Instr) : (s.later c d i).nextGalley = s.nextGalley := rfl
@[simp] theorem later_launches (s : State) (c d : Nat) (i : Instr) : (s.later c d i).launches = s.launches := rfl
@[simp] theorem later_nextLaunch (s : State) (c d : Nat) (i : Instr) : (s.later c d i).nextLaunch = s.nextLaunch := rfl
@[simp] theorem later_gangs (s : State) (c d : Nat) (i : Instr) : (s.later c d i).gangs = s.gangs := rfl
@[simp] theorem later_nextGang (s : State) (c d : Nat) (i : Instr) : (s.later c d i).nextGang = s.nextGang := rfl
@[simp] theorem later_saves (s : State) (c d : Nat) (i : Instr) : (s.later c d i).saves = s.saves := rfl
@[simp] theorem later_coalescer (s : State) (c d : Nat) (i : Instr) : (s.later c d i).coalescer = s.coalescer := rfl
@[simp] theorem later_laps (s : State) (c d : Nat) (i : Instr) : (s.later c d i).laps = s.laps := rfl
@[simp] theorem later_phase (s : State) (c d : Nat) (i : Instr) : (s.later c d i).phase = s.phase := rfl
@[simp] theorem later_reduced (s : State) (c d : Nat) (i : Instr) : (s.later c d i).reduced = s.reduced := rfl
@[simp] theorem later_moduleId (s : State) (c d : Nat) (i : Instr) : (s.later c d i).moduleId = s.moduleId := rfl
@[simp] theorem later_fports (s : State) (c d : Nat) (i : Instr) : (s.later c d i).fports = s.fports := rfl
@[simp] theorem later_rv (s : State) (c d : Nat) (i : Instr) : (s.later c d i).rv = s.rv := rfl
@[simp] theorem later_replies (s : State) (c d : Nat) (i : Instr) : (s.later c d i).replies = s.replies := rfl
@[simp] theorem later_ops (s : State) (c d : Nat) (i : Instr) : (s.later c d i).ops = s.ops := rfl
@[simp] theorem later_rackTo (s : State) (c d : Nat) (i : Instr) : (s.later c d i).rackTo = s.rackTo := rfl
@[simp] theorem later_colls (s : State) (c d : Nat) (i : Instr) : (s.later c d i).colls = s.colls := rfl
@[simp] theorem later_collWaits (s : State) (c d : Nat) (i : Instr) : (s.later c d i).collWaits = s.collWaits := rfl
@[simp] theorem later_collParts (s : State) (c d : Nat) (i : Instr) : (s.later c d i).collParts = s.collParts := rfl
@[simp] theorem later_joined (s : State) (c d : Nat) (i : Instr) : (s.later c d i).joined = s.joined := rfl
@[simp] theorem later_outbox (s : State) (c d : Nat) (i : Instr) : (s.later c d i).outbox = s.outbox := rfl
@[simp] theorem later_agenda (s : State) (c d : Nat) (i : Instr) : (s.later c d i).agenda = s.agenda := rfl
@[simp] theorem later_inputs (s : State) (c d : Nat) (i : Instr) : (s.later c d i).inputs = s.inputs := rfl

/-! ## begin -/

@[simp] theorem begin_now (s : State) (o : Origin) : (s.begin o).now = s.now := rfl
@[simp] theorem begin_cur (s : State) (o : Origin) : (s.begin o).cur = s.cur := rfl
@[simp] theorem begin_curW (s : State) (o : Origin) : (s.begin o).curW = s.curW := rfl
@[simp] theorem begin_mem (s : State) (o : Origin) : (s.begin o).mem = s.mem := rfl
@[simp] theorem begin_tags (s : State) (o : Origin) : (s.begin o).tags = s.tags := rfl
@[simp] theorem begin_poison (s : State) (o : Origin) : (s.begin o).poison = s.poison := rfl
@[simp] theorem begin_badLines (s : State) (o : Origin) : (s.begin o).badLines = s.badLines := rfl
@[simp] theorem begin_vfs (s : State) (o : Origin) : (s.begin o).vfs = s.vfs := rfl
@[simp] theorem begin_coarseBanks (s : State) (o : Origin) : (s.begin o).coarseBanks = s.coarseBanks := rfl
@[simp] theorem begin_dispensers (s : State) (o : Origin) : (s.begin o).dispensers = s.dispensers := rfl
@[simp] theorem begin_keys (s : State) (o : Origin) : (s.begin o).keys = s.keys := rfl
@[simp] theorem begin_galleys (s : State) (o : Origin) : (s.begin o).galleys = s.galleys := rfl
@[simp] theorem begin_nextGalley (s : State) (o : Origin) : (s.begin o).nextGalley = s.nextGalley := rfl
@[simp] theorem begin_launches (s : State) (o : Origin) : (s.begin o).launches = s.launches := rfl
@[simp] theorem begin_nextLaunch (s : State) (o : Origin) : (s.begin o).nextLaunch = s.nextLaunch := rfl
@[simp] theorem begin_gangs (s : State) (o : Origin) : (s.begin o).gangs = s.gangs := rfl
@[simp] theorem begin_nextGang (s : State) (o : Origin) : (s.begin o).nextGang = s.nextGang := rfl
@[simp] theorem begin_saves (s : State) (o : Origin) : (s.begin o).saves = s.saves := rfl
@[simp] theorem begin_coalescer (s : State) (o : Origin) : (s.begin o).coalescer = s.coalescer := rfl
@[simp] theorem begin_laps (s : State) (o : Origin) : (s.begin o).laps = s.laps := rfl
@[simp] theorem begin_phase (s : State) (o : Origin) : (s.begin o).phase = s.phase := rfl
@[simp] theorem begin_reduced (s : State) (o : Origin) : (s.begin o).reduced = s.reduced := rfl
@[simp] theorem begin_moduleId (s : State) (o : Origin) : (s.begin o).moduleId = s.moduleId := rfl
@[simp] theorem begin_fports (s : State) (o : Origin) : (s.begin o).fports = s.fports := rfl
@[simp] theorem begin_rv (s : State) (o : Origin) : (s.begin o).rv = s.rv := rfl
@[simp] theorem begin_replies (s : State) (o : Origin) : (s.begin o).replies = s.replies := rfl
@[simp] theorem begin_ops (s : State) (o : Origin) : (s.begin o).ops = s.ops := rfl
@[simp] theorem begin_rackTo (s : State) (o : Origin) : (s.begin o).rackTo = s.rackTo := rfl
@[simp] theorem begin_colls (s : State) (o : Origin) : (s.begin o).colls = s.colls := rfl
@[simp] theorem begin_collWaits (s : State) (o : Origin) : (s.begin o).collWaits = s.collWaits := rfl
@[simp] theorem begin_collParts (s : State) (o : Origin) : (s.begin o).collParts = s.collParts := rfl
@[simp] theorem begin_joined (s : State) (o : Origin) : (s.begin o).joined = s.joined := rfl
@[simp] theorem begin_outbox (s : State) (o : Origin) : (s.begin o).outbox = s.outbox := rfl
@[simp] theorem begin_agenda (s : State) (o : Origin) : (s.begin o).agenda = s.agenda := rfl
@[simp] theorem begin_inputs (s : State) (o : Origin) : (s.begin o).inputs = s.inputs := rfl

/-! ## setSem -/

@[simp] theorem setSem_now (s : State) (c : Nat) (n : BitVec 4) (v : Nat) : (s.setSem c n v).now = s.now := rfl
@[simp] theorem setSem_cur (s : State) (c : Nat) (n : BitVec 4) (v : Nat) : (s.setSem c n v).cur = s.cur := rfl
@[simp] theorem setSem_curW (s : State) (c : Nat) (n : BitVec 4) (v : Nat) : (s.setSem c n v).curW = s.curW := rfl
@[simp] theorem setSem_mem (s : State) (c : Nat) (n : BitVec 4) (v : Nat) : (s.setSem c n v).mem = s.mem := rfl
@[simp] theorem setSem_tags (s : State) (c : Nat) (n : BitVec 4) (v : Nat) : (s.setSem c n v).tags = s.tags := rfl
@[simp] theorem setSem_poison (s : State) (c : Nat) (n : BitVec 4) (v : Nat) : (s.setSem c n v).poison = s.poison := rfl
@[simp] theorem setSem_badLines (s : State) (c : Nat) (n : BitVec 4) (v : Nat) : (s.setSem c n v).badLines = s.badLines := rfl
@[simp] theorem setSem_vfs (s : State) (c : Nat) (n : BitVec 4) (v : Nat) : (s.setSem c n v).vfs = s.vfs := rfl
@[simp] theorem setSem_coarseBanks (s : State) (c : Nat) (n : BitVec 4) (v : Nat) : (s.setSem c n v).coarseBanks = s.coarseBanks := rfl
@[simp] theorem setSem_dispensers (s : State) (c : Nat) (n : BitVec 4) (v : Nat) : (s.setSem c n v).dispensers = s.dispensers := rfl
@[simp] theorem setSem_keys (s : State) (c : Nat) (n : BitVec 4) (v : Nat) : (s.setSem c n v).keys = s.keys := rfl
@[simp] theorem setSem_galleys (s : State) (c : Nat) (n : BitVec 4) (v : Nat) : (s.setSem c n v).galleys = s.galleys := rfl
@[simp] theorem setSem_nextGalley (s : State) (c : Nat) (n : BitVec 4) (v : Nat) : (s.setSem c n v).nextGalley = s.nextGalley := rfl
@[simp] theorem setSem_launches (s : State) (c : Nat) (n : BitVec 4) (v : Nat) : (s.setSem c n v).launches = s.launches := rfl
@[simp] theorem setSem_nextLaunch (s : State) (c : Nat) (n : BitVec 4) (v : Nat) : (s.setSem c n v).nextLaunch = s.nextLaunch := rfl
@[simp] theorem setSem_gangs (s : State) (c : Nat) (n : BitVec 4) (v : Nat) : (s.setSem c n v).gangs = s.gangs := rfl
@[simp] theorem setSem_nextGang (s : State) (c : Nat) (n : BitVec 4) (v : Nat) : (s.setSem c n v).nextGang = s.nextGang := rfl
@[simp] theorem setSem_saves (s : State) (c : Nat) (n : BitVec 4) (v : Nat) : (s.setSem c n v).saves = s.saves := rfl
@[simp] theorem setSem_coalescer (s : State) (c : Nat) (n : BitVec 4) (v : Nat) : (s.setSem c n v).coalescer = s.coalescer := rfl
@[simp] theorem setSem_laps (s : State) (c : Nat) (n : BitVec 4) (v : Nat) : (s.setSem c n v).laps = s.laps := rfl
@[simp] theorem setSem_phase (s : State) (c : Nat) (n : BitVec 4) (v : Nat) : (s.setSem c n v).phase = s.phase := rfl
@[simp] theorem setSem_reduced (s : State) (c : Nat) (n : BitVec 4) (v : Nat) : (s.setSem c n v).reduced = s.reduced := rfl
@[simp] theorem setSem_moduleId (s : State) (c : Nat) (n : BitVec 4) (v : Nat) : (s.setSem c n v).moduleId = s.moduleId := rfl
@[simp] theorem setSem_fports (s : State) (c : Nat) (n : BitVec 4) (v : Nat) : (s.setSem c n v).fports = s.fports := rfl
@[simp] theorem setSem_rv (s : State) (c : Nat) (n : BitVec 4) (v : Nat) : (s.setSem c n v).rv = s.rv := rfl
@[simp] theorem setSem_replies (s : State) (c : Nat) (n : BitVec 4) (v : Nat) : (s.setSem c n v).replies = s.replies := rfl
@[simp] theorem setSem_ops (s : State) (c : Nat) (n : BitVec 4) (v : Nat) : (s.setSem c n v).ops = s.ops := rfl
@[simp] theorem setSem_rackTo (s : State) (c : Nat) (n : BitVec 4) (v : Nat) : (s.setSem c n v).rackTo = s.rackTo := rfl
@[simp] theorem setSem_colls (s : State) (c : Nat) (n : BitVec 4) (v : Nat) : (s.setSem c n v).colls = s.colls := rfl
@[simp] theorem setSem_collWaits (s : State) (c : Nat) (n : BitVec 4) (v : Nat) : (s.setSem c n v).collWaits = s.collWaits := rfl
@[simp] theorem setSem_collParts (s : State) (c : Nat) (n : BitVec 4) (v : Nat) : (s.setSem c n v).collParts = s.collParts := rfl
@[simp] theorem setSem_joined (s : State) (c : Nat) (n : BitVec 4) (v : Nat) : (s.setSem c n v).joined = s.joined := rfl
@[simp] theorem setSem_outbox (s : State) (c : Nat) (n : BitVec 4) (v : Nat) : (s.setSem c n v).outbox = s.outbox := rfl
@[simp] theorem setSem_agenda (s : State) (c : Nat) (n : BitVec 4) (v : Nat) : (s.setSem c n v).agenda = s.agenda := rfl
@[simp] theorem setSem_inputs (s : State) (c : Nat) (n : BitVec 4) (v : Nat) : (s.setSem c n v).inputs = s.inputs := rfl

/-! ## modVf -/

@[simp] theorem modVf_now (s : State) (v : Nat) (f : Vf → Vf) : (s.modVf v f).now = s.now := rfl
@[simp] theorem modVf_cur (s : State) (v : Nat) (f : Vf → Vf) : (s.modVf v f).cur = s.cur := rfl
@[simp] theorem modVf_curW (s : State) (v : Nat) (f : Vf → Vf) : (s.modVf v f).curW = s.curW := rfl
@[simp] theorem modVf_mem (s : State) (v : Nat) (f : Vf → Vf) : (s.modVf v f).mem = s.mem := rfl
@[simp] theorem modVf_tags (s : State) (v : Nat) (f : Vf → Vf) : (s.modVf v f).tags = s.tags := rfl
@[simp] theorem modVf_poison (s : State) (v : Nat) (f : Vf → Vf) : (s.modVf v f).poison = s.poison := rfl
@[simp] theorem modVf_badLines (s : State) (v : Nat) (f : Vf → Vf) : (s.modVf v f).badLines = s.badLines := rfl
@[simp] theorem modVf_coarseBanks (s : State) (v : Nat) (f : Vf → Vf) : (s.modVf v f).coarseBanks = s.coarseBanks := rfl
@[simp] theorem modVf_dispensers (s : State) (v : Nat) (f : Vf → Vf) : (s.modVf v f).dispensers = s.dispensers := rfl
@[simp] theorem modVf_keys (s : State) (v : Nat) (f : Vf → Vf) : (s.modVf v f).keys = s.keys := rfl
@[simp] theorem modVf_galleys (s : State) (v : Nat) (f : Vf → Vf) : (s.modVf v f).galleys = s.galleys := rfl
@[simp] theorem modVf_nextGalley (s : State) (v : Nat) (f : Vf → Vf) : (s.modVf v f).nextGalley = s.nextGalley := rfl
@[simp] theorem modVf_launches (s : State) (v : Nat) (f : Vf → Vf) : (s.modVf v f).launches = s.launches := rfl
@[simp] theorem modVf_nextLaunch (s : State) (v : Nat) (f : Vf → Vf) : (s.modVf v f).nextLaunch = s.nextLaunch := rfl
@[simp] theorem modVf_gangs (s : State) (v : Nat) (f : Vf → Vf) : (s.modVf v f).gangs = s.gangs := rfl
@[simp] theorem modVf_nextGang (s : State) (v : Nat) (f : Vf → Vf) : (s.modVf v f).nextGang = s.nextGang := rfl
@[simp] theorem modVf_saves (s : State) (v : Nat) (f : Vf → Vf) : (s.modVf v f).saves = s.saves := rfl
@[simp] theorem modVf_coalescer (s : State) (v : Nat) (f : Vf → Vf) : (s.modVf v f).coalescer = s.coalescer := rfl
@[simp] theorem modVf_laps (s : State) (v : Nat) (f : Vf → Vf) : (s.modVf v f).laps = s.laps := rfl
@[simp] theorem modVf_phase (s : State) (v : Nat) (f : Vf → Vf) : (s.modVf v f).phase = s.phase := rfl
@[simp] theorem modVf_reduced (s : State) (v : Nat) (f : Vf → Vf) : (s.modVf v f).reduced = s.reduced := rfl
@[simp] theorem modVf_moduleId (s : State) (v : Nat) (f : Vf → Vf) : (s.modVf v f).moduleId = s.moduleId := rfl
@[simp] theorem modVf_fports (s : State) (v : Nat) (f : Vf → Vf) : (s.modVf v f).fports = s.fports := rfl
@[simp] theorem modVf_rv (s : State) (v : Nat) (f : Vf → Vf) : (s.modVf v f).rv = s.rv := rfl
@[simp] theorem modVf_replies (s : State) (v : Nat) (f : Vf → Vf) : (s.modVf v f).replies = s.replies := rfl
@[simp] theorem modVf_ops (s : State) (v : Nat) (f : Vf → Vf) : (s.modVf v f).ops = s.ops := rfl
@[simp] theorem modVf_rackTo (s : State) (v : Nat) (f : Vf → Vf) : (s.modVf v f).rackTo = s.rackTo := rfl
@[simp] theorem modVf_colls (s : State) (v : Nat) (f : Vf → Vf) : (s.modVf v f).colls = s.colls := rfl
@[simp] theorem modVf_collWaits (s : State) (v : Nat) (f : Vf → Vf) : (s.modVf v f).collWaits = s.collWaits := rfl
@[simp] theorem modVf_collParts (s : State) (v : Nat) (f : Vf → Vf) : (s.modVf v f).collParts = s.collParts := rfl
@[simp] theorem modVf_joined (s : State) (v : Nat) (f : Vf → Vf) : (s.modVf v f).joined = s.joined := rfl
@[simp] theorem modVf_outbox (s : State) (v : Nat) (f : Vf → Vf) : (s.modVf v f).outbox = s.outbox := rfl
@[simp] theorem modVf_agenda (s : State) (v : Nat) (f : Vf → Vf) : (s.modVf v f).agenda = s.agenda := rfl
@[simp] theorem modVf_inputs (s : State) (v : Nat) (f : Vf → Vf) : (s.modVf v f).inputs = s.inputs := rfl
@[simp] theorem modVf_cores (s : State) (v : Nat) (f : Vf → Vf) : (s.modVf v f).cores = s.cores := rfl

/-! ## send -/

@[simp] theorem send_now (s : State) (m : Sent) : (s.send m).now = s.now := rfl
@[simp] theorem send_cur (s : State) (m : Sent) : (s.send m).cur = s.cur := rfl
@[simp] theorem send_curW (s : State) (m : Sent) : (s.send m).curW = s.curW := rfl
@[simp] theorem send_mem (s : State) (m : Sent) : (s.send m).mem = s.mem := rfl
@[simp] theorem send_tags (s : State) (m : Sent) : (s.send m).tags = s.tags := rfl
@[simp] theorem send_poison (s : State) (m : Sent) : (s.send m).poison = s.poison := rfl
@[simp] theorem send_badLines (s : State) (m : Sent) : (s.send m).badLines = s.badLines := rfl
@[simp] theorem send_vfs (s : State) (m : Sent) : (s.send m).vfs = s.vfs := rfl
@[simp] theorem send_coarseBanks (s : State) (m : Sent) : (s.send m).coarseBanks = s.coarseBanks := rfl
@[simp] theorem send_dispensers (s : State) (m : Sent) : (s.send m).dispensers = s.dispensers := rfl
@[simp] theorem send_keys (s : State) (m : Sent) : (s.send m).keys = s.keys := rfl
@[simp] theorem send_galleys (s : State) (m : Sent) : (s.send m).galleys = s.galleys := rfl
@[simp] theorem send_nextGalley (s : State) (m : Sent) : (s.send m).nextGalley = s.nextGalley := rfl
@[simp] theorem send_launches (s : State) (m : Sent) : (s.send m).launches = s.launches := rfl
@[simp] theorem send_nextLaunch (s : State) (m : Sent) : (s.send m).nextLaunch = s.nextLaunch := rfl
@[simp] theorem send_gangs (s : State) (m : Sent) : (s.send m).gangs = s.gangs := rfl
@[simp] theorem send_nextGang (s : State) (m : Sent) : (s.send m).nextGang = s.nextGang := rfl
@[simp] theorem send_saves (s : State) (m : Sent) : (s.send m).saves = s.saves := rfl
@[simp] theorem send_coalescer (s : State) (m : Sent) : (s.send m).coalescer = s.coalescer := rfl
@[simp] theorem send_laps (s : State) (m : Sent) : (s.send m).laps = s.laps := rfl
@[simp] theorem send_phase (s : State) (m : Sent) : (s.send m).phase = s.phase := rfl
@[simp] theorem send_reduced (s : State) (m : Sent) : (s.send m).reduced = s.reduced := rfl
@[simp] theorem send_moduleId (s : State) (m : Sent) : (s.send m).moduleId = s.moduleId := rfl
@[simp] theorem send_fports (s : State) (m : Sent) : (s.send m).fports = s.fports := rfl
@[simp] theorem send_rv (s : State) (m : Sent) : (s.send m).rv = s.rv := rfl
@[simp] theorem send_replies (s : State) (m : Sent) : (s.send m).replies = s.replies := rfl
@[simp] theorem send_ops (s : State) (m : Sent) : (s.send m).ops = s.ops := rfl
@[simp] theorem send_rackTo (s : State) (m : Sent) : (s.send m).rackTo = s.rackTo := rfl
@[simp] theorem send_colls (s : State) (m : Sent) : (s.send m).colls = s.colls := rfl
@[simp] theorem send_collWaits (s : State) (m : Sent) : (s.send m).collWaits = s.collWaits := rfl
@[simp] theorem send_collParts (s : State) (m : Sent) : (s.send m).collParts = s.collParts := rfl
@[simp] theorem send_joined (s : State) (m : Sent) : (s.send m).joined = s.joined := rfl
@[simp] theorem send_agenda (s : State) (m : Sent) : (s.send m).agenda = s.agenda := rfl
@[simp] theorem send_inputs (s : State) (m : Sent) : (s.send m).inputs = s.inputs := rfl
@[simp] theorem send_cores (s : State) (m : Sent) : (s.send m).cores = s.cores := rfl

/-! ## after -/

@[simp] theorem after_now (s : State) (d : Nat) (i : Instr) : (s.after d i).now = s.now := rfl
@[simp] theorem after_cur (s : State) (d : Nat) (i : Instr) : (s.after d i).cur = s.cur := rfl
@[simp] theorem after_curW (s : State) (d : Nat) (i : Instr) : (s.after d i).curW = s.curW := rfl
@[simp] theorem after_mem (s : State) (d : Nat) (i : Instr) : (s.after d i).mem = s.mem := rfl
@[simp] theorem after_tags (s : State) (d : Nat) (i : Instr) : (s.after d i).tags = s.tags := rfl
@[simp] theorem after_poison (s : State) (d : Nat) (i : Instr) : (s.after d i).poison = s.poison := rfl
@[simp] theorem after_badLines (s : State) (d : Nat) (i : Instr) : (s.after d i).badLines = s.badLines := rfl
@[simp] theorem after_vfs (s : State) (d : Nat) (i : Instr) : (s.after d i).vfs = s.vfs := rfl
@[simp] theorem after_coarseBanks (s : State) (d : Nat) (i : Instr) : (s.after d i).coarseBanks = s.coarseBanks := rfl
@[simp] theorem after_dispensers (s : State) (d : Nat) (i : Instr) : (s.after d i).dispensers = s.dispensers := rfl
@[simp] theorem after_keys (s : State) (d : Nat) (i : Instr) : (s.after d i).keys = s.keys := rfl
@[simp] theorem after_galleys (s : State) (d : Nat) (i : Instr) : (s.after d i).galleys = s.galleys := rfl
@[simp] theorem after_nextGalley (s : State) (d : Nat) (i : Instr) : (s.after d i).nextGalley = s.nextGalley := rfl
@[simp] theorem after_launches (s : State) (d : Nat) (i : Instr) : (s.after d i).launches = s.launches := rfl
@[simp] theorem after_nextLaunch (s : State) (d : Nat) (i : Instr) : (s.after d i).nextLaunch = s.nextLaunch := rfl
@[simp] theorem after_gangs (s : State) (d : Nat) (i : Instr) : (s.after d i).gangs = s.gangs := rfl
@[simp] theorem after_nextGang (s : State) (d : Nat) (i : Instr) : (s.after d i).nextGang = s.nextGang := rfl
@[simp] theorem after_saves (s : State) (d : Nat) (i : Instr) : (s.after d i).saves = s.saves := rfl
@[simp] theorem after_coalescer (s : State) (d : Nat) (i : Instr) : (s.after d i).coalescer = s.coalescer := rfl
@[simp] theorem after_laps (s : State) (d : Nat) (i : Instr) : (s.after d i).laps = s.laps := rfl
@[simp] theorem after_phase (s : State) (d : Nat) (i : Instr) : (s.after d i).phase = s.phase := rfl
@[simp] theorem after_reduced (s : State) (d : Nat) (i : Instr) : (s.after d i).reduced = s.reduced := rfl
@[simp] theorem after_moduleId (s : State) (d : Nat) (i : Instr) : (s.after d i).moduleId = s.moduleId := rfl
@[simp] theorem after_fports (s : State) (d : Nat) (i : Instr) : (s.after d i).fports = s.fports := rfl
@[simp] theorem after_rv (s : State) (d : Nat) (i : Instr) : (s.after d i).rv = s.rv := rfl
@[simp] theorem after_replies (s : State) (d : Nat) (i : Instr) : (s.after d i).replies = s.replies := rfl
@[simp] theorem after_ops (s : State) (d : Nat) (i : Instr) : (s.after d i).ops = s.ops := rfl
@[simp] theorem after_rackTo (s : State) (d : Nat) (i : Instr) : (s.after d i).rackTo = s.rackTo := rfl
@[simp] theorem after_colls (s : State) (d : Nat) (i : Instr) : (s.after d i).colls = s.colls := rfl
@[simp] theorem after_collWaits (s : State) (d : Nat) (i : Instr) : (s.after d i).collWaits = s.collWaits := rfl
@[simp] theorem after_collParts (s : State) (d : Nat) (i : Instr) : (s.after d i).collParts = s.collParts := rfl
@[simp] theorem after_joined (s : State) (d : Nat) (i : Instr) : (s.after d i).joined = s.joined := rfl
@[simp] theorem after_outbox (s : State) (d : Nat) (i : Instr) : (s.after d i).outbox = s.outbox := rfl
@[simp] theorem after_inputs (s : State) (d : Nat) (i : Instr) : (s.after d i).inputs = s.inputs := rfl
@[simp] theorem after_cores (s : State) (d : Nat) (i : Instr) : (s.after d i).cores = s.cores := rfl

/-! ## Cores -/

@[simp] theorem core_setCore (s : State) (c : Nat) (k : Core) : (s.setCore c k).core c = k := by
  simp [State.core, State.setCore]

theorem core_setCore_ne (s : State) {c d : Nat} (k : Core) (h : d ≠ c) : (s.setCore c k).core d = s.core d := by
  simp [State.core, State.setCore, get_put_ne _ _ _ h]

@[simp] theorem core_modCore (s : State) (c : Nat) (f : Core → Core) : (s.modCore c f).core c = f (s.core c) := by
  simp [State.modCore]

theorem core_modCore_ne (s : State) {c d : Nat} (f : Core → Core) (h : d ≠ c) : (s.modCore c f).core d = s.core d := by
  simp [State.modCore, core_setCore_ne s _ h]

/-- A core after a change of one core. -/
theorem core_modCore_any (s : State) (c d : Nat) (f : Core → Core) :
    (s.modCore c f).core d = if d = c then f (s.core d) else s.core d := by
  by_cases h : d = c
  · subst h; simp
  · simp [h, core_modCore_ne s f h]

@[simp] theorem core_modVf (s : State) (v c : Nat) (f : Vf → Vf) : (s.modVf v f).core c = s.core c := rfl
@[simp] theorem core_send (s : State) (m : Sent) (c : Nat) : (s.send m).core c = s.core c := rfl
@[simp] theorem core_after (s : State) (d : Nat) (i : Instr) (c : Nat) : (s.after d i).core c = s.core c := rfl

@[simp] theorem core_later (s : State) (c d : Nat) (i : Instr) :
    (s.later c d i).core c = { s.core c with agenda := addDue ((s.core c).time + d) i (s.core c).agenda } := by
  simp [State.later]

/-! ## Walkers -/

@[simp] theorem w_setW (k : Core) (w : Walker) (v : WalkerSt) : (k.setW w v).w w = v := by cases w <;> rfl

theorem w_setW_ne (k : Core) {w u : Walker} (v : WalkerSt) (h : u ≠ w) : (k.setW w v).w u = k.w u := by
  cases w <;> cases u <;> first | rfl | exact absurd rfl h

@[simp] theorem w_modW (k : Core) (w : Walker) (f : WalkerSt → WalkerSt) : (k.modW w f).w w = f (k.w w) := by
  simp [Core.modW]

theorem w_modW_ne (k : Core) {w u : Walker} (f : WalkerSt → WalkerSt) (h : u ≠ w) : (k.modW w f).w u = k.w u := by
  simp [Core.modW, w_setW_ne k _ h]

@[simp] theorem core_modW (s : State) (c : Nat) (w : Walker) (f : WalkerSt → WalkerSt) :
    (s.modW c w f).core c = (s.core c).modW w f := by simp [State.modW]

/-! ## VFs -/

@[simp] theorem vf_modVf (s : State) (v : Nat) (f : Vf → Vf) : (s.modVf v f).vf v = f (s.vf v) := by
  simp [State.vf, State.modVf]

theorem vf_modVf_ne (s : State) {v u : Nat} (f : Vf → Vf) (h : u ≠ v) : (s.modVf v f).vf u = s.vf u := by
  simp [State.vf, State.modVf, get_upd_ne _ _ _ _ h]

@[simp] theorem vf_modCore (s : State) (c v : Nat) (f : Core → Core) : (s.modCore c f).vf v = s.vf v := rfl
@[simp] theorem gen_modCore (s : State) (c : Nat) (v : BitVec 6) (f : Core → Core) : (s.modCore c f).gen v = s.gen v := rfl

/-! ## Registers -/

@[simp] theorem readX_zero (k : Core) : k.readX 0 = 0 := rfl

@[simp] theorem readX_writeX (k : Core) {n : BitVec 6} (v : Word) (h : n ≠ 0) : (k.writeX n v).readX n = v := by
  unfold Core.readX Core.writeX; rw [if_neg h, if_neg h]; exact get_put ..

theorem readX_writeX_ne (k : Core) {n m : BitVec 6} (v : Word) (h : m ≠ n) : (k.writeX n v).readX m = k.readX m := by
  have : m.toNat ≠ n.toNat := fun e => h (BitVec.eq_of_toNat_eq e)
  unfold Core.readX Core.writeX
  split
  · rfl
  · split
    · rfl
    · exact get_put_ne _ _ _ this

@[simp] theorem writeX_zero (k : Core) (v : Word) : k.writeX 0 v = k := rfl

end Sys2Proof.Machine
end

