-- ==== Sys2Proof/Laws/Memory.lean ====
section
/-! SUPPORT. Memory: a byte read after a write, the bytes a write leaves alone, and its canonical form. -/

namespace Sys2Proof.Machine

theorem memByte_eq_find (m : Memory) (k : Nat) : memByte m k = (Tbl.find m k).getD unlistedByte := by
  induction m with
  | nil => rfl
  | cons c m ih =>
    obtain ⟨a, b⟩ := c
    by_cases h : a = k <;> simp [memByte, Tbl.find, h, ih]

theorem memByte_filter (m : Memory) (q : Nat → Bool) (k : Nat) (h : q k = true) :
    memByte (m.filter (fun c => q c.1)) k = memByte m k := by
  rw [memByte_eq_find, memByte_eq_find, find_filter_key, h]; rfl

theorem find_runCells (bs : List Byte) : ∀ k a : Nat,
    Tbl.find (runCells k bs) a = if k ≤ a ∧ a < k + bs.length ∧ bs.getD (a - k) unlistedByte ≠ unlistedByte then
      some (bs.getD (a - k) unlistedByte) else none := by
  induction bs with
  | nil => intro k a; simp [runCells, Tbl.find]
  | cons b bs ih =>
    intro k a
    by_cases hb : b = unlistedByte
    · rw [show runCells k (b :: bs) = runCells (k + 1) bs by simp [runCells, hb], ih]
      rcases Nat.lt_trichotomy a k with h | h | h
      · simp [show ¬ k + 1 ≤ a by omega, show ¬ k ≤ a by omega]
      · subst h; simp [hb]
      · obtain ⟨d, rfl⟩ : ∃ d, a = k + 1 + d := ⟨a - (k + 1), by omega⟩
        simp [show k + 1 + d - k = d + 1 by omega, show k ≤ k + 1 + d by omega,
          show k + 1 + d < k + (bs.length + 1) ↔ d < bs.length by omega]
    · rw [show runCells k (b :: bs) = (k, b) :: runCells (k + 1) bs by simp [runCells, hb]]
      by_cases h : k = a
      · subst h; simp [Tbl.find, hb]
      · simp only [Tbl.find, h, if_false, ih]
        rcases Nat.lt_or_ge a k with h' | h'
        · simp [show ¬ k + 1 ≤ a by omega, show ¬ k ≤ a by omega]
        · obtain ⟨d, rfl⟩ : ∃ d, a = k + 1 + d := ⟨a - (k + 1), by omega⟩
          simp [show k + 1 + d - k = d + 1 by omega, show k ≤ k + 1 + d by omega,
            show k + 1 + d < k + (bs.length + 1) ↔ d < bs.length by omega]

/-- What a key holds after a write: its byte of the run, or what it held. -/
theorem memByte_memWrite (m : Memory) (k : Nat) (bs : List Byte) (a : Nat) :
    memByte (memWrite m k bs) a = if k ≤ a ∧ a < k + bs.length then bs.getD (a - k) unlistedByte else memByte m a := by
  have f1 := find_filter_key m (fun n => decide (n < k)) a
  have f2 := find_filter_key m (fun n => decide (k + bs.length ≤ n)) a
  rw [memByte_eq_find, memByte_eq_find]
  unfold memWrite
  rw [find_append, find_append, find_runCells]
  simp only [decide_eq_true_eq] at f1 f2
  rw [f1, f2]
  rcases Nat.lt_or_ge a k with h | h
  · simp [h, show ¬ k ≤ a by omega, show ¬ k + bs.length ≤ a by omega]
  · rcases Nat.lt_or_ge a (k + bs.length) with h' | h'
    · simp only [h, h', show ¬ a < k by omega, show ¬ k + bs.length ≤ a by omega, true_and, if_false, if_true, Option.or_none,
        Option.none_or]
      split <;> simp_all
    · simp [h, h', show ¬ a < k by omega, show ¬ a < k + bs.length by omega]

theorem memByte_memWrite_out (m : Memory) {k a : Nat} (bs : List Byte) (h : a < k ∨ k + bs.length ≤ a) :
    memByte (memWrite m k bs) a = memByte m a := by
  rw [memByte_memWrite, if_neg (by omega)]

theorem memByte_memWrite_in (m : Memory) (k : Nat) (bs : List Byte) {i : Nat} (h : i < bs.length) :
    memByte (memWrite m k bs) (k + i) = bs[i] := by
  rw [memByte_memWrite, if_pos (by omega)]; simp [h]

/-! ## The canonical form -/

theorem rising_iff (m : Memory) : Memory.rising m = true ↔ m.Pairwise (fun a b => a.1 < b.1) := by
  induction m with
  | nil => simp [Memory.rising]
  | cons a m ih =>
    cases m with
    | nil => simp [Memory.rising]
    | cons b m =>
      simp only [Memory.rising, Bool.and_eq_true, decide_eq_true_eq, ih]
      constructor
      · rintro ⟨h, hp⟩
        refine List.pairwise_cons.2 ⟨?_, hp⟩
        intro c hc
        rcases List.mem_cons.1 hc with rfl | hc
        · exact h
        · exact Nat.lt_trans h ((List.pairwise_cons.1 hp).1 c hc)
      · intro hp
        exact ⟨(List.pairwise_cons.1 hp).1 b (List.mem_cons_self ..), (List.pairwise_cons.1 hp).2⟩

theorem wf_iff (m : Memory) : Memory.wf m = true ↔ m.Pairwise (fun a b => a.1 < b.1) ∧ ∀ c ∈ m, c.2 ≠ unlistedByte := by
  simp [Memory.wf, rising_iff]

theorem wf_filter {m : Memory} (p : Host.Cell → Bool) (h : Memory.wf m = true) : Memory.wf (m.filter p) = true := by
  rw [wf_iff] at h ⊢
  exact ⟨h.1.filter _, fun c hc => h.2 c (List.mem_filter.1 hc).1⟩

theorem runCells_keys (bs : List Byte) : ∀ k, ∀ c ∈ runCells k bs, k ≤ c.1 ∧ c.1 < k + bs.length ∧ c.2 ≠ unlistedByte := by
  induction bs with
  | nil => simp [runCells]
  | cons b bs ih =>
    intro k c hc
    unfold runCells at hc
    split at hc
    · obtain ⟨h1, h2, h3⟩ := ih (k + 1) c hc
      exact ⟨by omega, by simp only [List.length_cons]; omega, h3⟩
    · rcases List.mem_cons.1 hc with rfl | hc
      · simp_all
      · obtain ⟨h1, h2, h3⟩ := ih (k + 1) c hc
        exact ⟨by omega, by simp only [List.length_cons]; omega, h3⟩

theorem runCells_rising (bs : List Byte) : ∀ k, (runCells k bs).Pairwise (fun a b => a.1 < b.1) := by
  induction bs with
  | nil => simp [runCells]
  | cons b bs ih =>
    intro k
    unfold runCells
    split
    · exact ih _
    · exact List.pairwise_cons.2 ⟨fun c hc => by have := runCells_keys bs (k + 1) c hc; simp; omega, ih _⟩

/-- A write keeps memory canonical. -/
theorem wf_memWrite {m : Memory} (k : Nat) (bs : List Byte) (h : Memory.wf m = true) : Memory.wf (memWrite m k bs) = true := by
  rw [wf_iff] at h ⊢
  unfold memWrite
  constructor
  · refine List.pairwise_append.2 ⟨List.pairwise_append.2 ⟨h.1.filter _, runCells_rising bs k, ?_⟩, h.1.filter _, ?_⟩
    · intro a ha b hb
      have := runCells_keys bs k b hb
      simp only [List.mem_filter, decide_eq_true_eq] at ha; omega
    · intro a ha b hb
      simp only [List.mem_filter, decide_eq_true_eq, List.mem_append] at ha hb
      rcases ha with ha | ha
      · omega
      · have := runCells_keys bs k a ha; omega
  · intro c hc
    simp only [List.mem_append, List.mem_filter] at hc
    rcases hc with (hc | hc) | hc
    · exact h.2 c hc.1
    · exact (runCells_keys bs k c hc).2.2
    · exact h.2 c hc.1

/-- Canonical memories that read the same at every key are the same. -/
theorem memory_ext {m n : Memory} (hm : Memory.wf m = true) (hn : Memory.wf n = true) (h : ∀ k, memByte m k = memByte n k) :
    m = n := by
  rw [wf_iff] at hm hn
  have look : ∀ {l : Memory}, l.Pairwise (fun a b => a.1 < b.1) → ∀ c ∈ l, memByte l c.1 = c.2 := by
    intro l hl c hc
    induction l with
    | nil => cases hc
    | cons d l ih =>
      obtain ⟨hd, hl⟩ := List.pairwise_cons.1 hl
      rcases List.mem_cons.1 hc with rfl | hc
      · simp [memByte]
      · simp [memByte, (Nat.ne_of_lt (hd c hc)), ih hl hc]
  have sub : ∀ {a b : Memory}, a.Pairwise (fun a b => a.1 < b.1) → (∀ c ∈ a, c.2 ≠ unlistedByte) →
      (∀ k, memByte a k = memByte b k) → ∀ c ∈ a, c ∈ b := by
    intro a b ha hu he c hc
    have hv := look ha c hc
    rw [he, memByte_eq_find] at hv
    cases hf : Tbl.find b c.1 with
    | none => rw [hf] at hv; exact absurd hv.symm (hu c hc)
    | some v => rw [hf] at hv; have := find_mem hf; simp at hv; rwa [hv] at this
  have anti : ∀ c d : Host.Cell, c ∈ m → d ∈ m → c.1 < d.1 → d.1 < c.1 → c = d := by intros; omega
  refine List.Perm.eq_of_pairwise (le := fun a b => a.1 < b.1) (fun a b _ _ h1 h2 => by omega) hm.1 hn.1 ?_
  refine (List.perm_ext_iff_of_nodup ?_ ?_).2 fun c => ⟨sub hm.1 hm.2 h c, sub hn.1 hn.2 (fun k => (h k).symm) c⟩
  · exact hm.1.imp fun h e => by subst e; omega
  · exact hn.1.imp fun h e => by subst e; omega

/-! ## Reads -/

@[simp] theorem readFrom_length (m : Memory) (k n : Nat) : (readFrom m k n).length = n := by simp [readFrom]

theorem readFrom_add (m : Memory) (k a b : Nat) : readFrom m k (a + b) = readFrom m k a ++ readFrom m (k + a) b := by
  simp [readFrom, List.range_add, Nat.add_assoc, Function.comp_def]

theorem readFrom_window (m : Memory) {k n a b : Nat} (h : k ≤ a) (h' : a + b ≤ k + n) :
    readFrom (window m k n) a b = readFrom m a b := by
  refine List.map_congr_left fun i hi => ?_
  have hi := List.mem_range.1 hi
  exact memByte_filter m (fun x => decide (k ≤ x) && decide (x < k + n)) (a + i) (by simp; omega)

theorem readFrom_blocks (m : Memory) (k n : Nat) :
    readFrom m k (64 * n) = (List.range n).flatMap (fun b => readFrom m (k + 64 * b) 64) := by
  induction n with
  | zero => rfl
  | succ n ih => rw [Nat.mul_succ, readFrom_add, List.range_succ, List.flatMap_append, ih]; simp

/-- A run of bytes as it is read is its bytes one by one. -/
theorem memRead_eq (m : Memory) (k n : Nat) : memRead m k n = readFrom m k n := by
  unfold memRead
  dsimp only
  split
  · exact readFrom_window m (Nat.le_refl _) (Nat.le_refl _)
  · have e : n = 64 * (n / 64) + n % 64 := (Nat.div_add_mod n 64).symm
    rw [readFrom_window (window m k n) (Nat.le_refl _) (Nat.le_refl _), readFrom_window m (by omega) (by omega)]
    conv_rhs => rw [e, readFrom_add]
    rw [readFrom_blocks]
    congr 1
    refine List.flatMap_congr fun b hb => ?_
    have hb := List.mem_range.1 hb
    have : 64 * b + 64 ≤ n := by omega
    rw [readFrom_window (window m k n) (Nat.le_refl _) (Nat.le_refl _), readFrom_window m (by omega) (by omega)]

@[simp] theorem memRead_length (m : Memory) (k n : Nat) : (memRead m k n).length = n := by rw [memRead_eq]; simp

theorem memRead_getElem (m : Memory) (k n : Nat) {i : Nat} (h : i < (memRead m k n).length) :
    (memRead m k n)[i] = memByte m (k + i) := by
  simp only [memRead_eq, readFrom, List.getElem_map, List.getElem_range]

/-- Bytes read after they were written. -/
theorem memRead_memWrite (m : Memory) (k : Nat) (bs : List Byte) : memRead (memWrite m k bs) k bs.length = bs := by
  refine List.ext_getElem (by simp) fun i h1 h2 => ?_
  rw [memRead_getElem]
  exact memByte_memWrite_in m k bs h2

/-- Bytes read that a write leaves alone. -/
theorem memRead_memWrite_out (m : Memory) {k n a : Nat} (bs : List Byte) (h : a + n ≤ k ∨ k + bs.length ≤ a) :
    memRead (memWrite m k bs) a n = memRead m a n := by
  rw [memRead_eq, memRead_eq]
  refine List.map_congr_left fun i hi => memByte_memWrite_out m bs ?_
  have := List.mem_range.1 hi; omega

/-! ## Writes of a run under a tag -/

/-- The memory after a write within a unit. -/
theorem writeUnit_mem (s : State) (tag : Tag) (k : Nat) (bs : List Byte) :
    (s.writeUnit tag k bs).mem = memWrite (if s.tagAt k ≠ tag then memWrite s.mem (unitOf k) (zeros (unitSize k)) else s.mem) k bs := by
  unfold State.writeUnit; dsimp only; split
  · rfl
  · split <;> rfl

/-- The tags after a write within a unit: the unit's own becomes the writer's. -/
theorem writeUnit_tags (s : State) (tag : Tag) (k : Nat) (bs : List Byte) :
    (s.writeUnit tag k bs).tags = Tbl.put s.tags (unitOf k) tag := by
  unfold State.writeUnit; dsimp only; split
  · rfl
  · split <;> rfl

theorem writeUnit_canonical {s : State} (tag : Tag) (k : Nat) (bs : List Byte) (h : s.Canonical) :
    (s.writeUnit tag k bs).Canonical := by
  unfold State.Canonical at *
  rw [writeUnit_mem]
  split
  · exact wf_memWrite _ _ (wf_memWrite _ _ h)
  · exact wf_memWrite _ _ h

theorem write_canonical {s : State} (tag : Tag) (k : Nat) (bs : List Byte) (h : s.Canonical) : (s.write tag k bs).Canonical := by
  unfold State.write
  split
  · have : ∀ (l : List (Nat × Nat)) (a : State × List Byte), a.1.Canonical →
        (l.foldl (fun (a : State × List Byte) r => (a.1.writeUnit tag r.1 (a.2.take r.2), a.2.drop r.2)) a).1.Canonical := by
      intro l
      induction l with
      | nil => exact fun a ha => ha
      | cons r l ih => exact fun a ha => ih _ (writeUnit_canonical tag r.1 (a.2.take r.2) ha)
    exact this _ _ h
  · exact wf_memWrite _ _ h

end Sys2Proof.Machine
end

