-- ==== Sys2Proof/Laws/Operands.lean ====
section
/-! SUPPORT. Scalar operands: all that reading a source, writing a destination and holding one can do, and all that the
issue of a word can come to. -/

namespace Sys2Proof.Machine

/-- A source that was read: a register with no write pending, a special, or the oldest entry of a queue (R59 to R61). -/
theorem src_ok {o : Origin} {n : Name} {s t : State} {v : Word} (h : (src o n).run s = .ok (v, t)) :
    (∃ r, n = .x r ∧ (s.core o.core).scoreboard.contains r.toNat = false ∧ v = (s.core o.core).readX r ∧ t = s) ∨
    (∃ r, n = .sp r ∧ v = readSpecial s o.core r ∧ t = s) ∨
    (∃ q e es, n = .q q ∧ s.queue o.core q.toNat = e :: es ∧ e.wait = none ∧
      v = (if tagOk (s.ownTag o.core) e.tag then e.val else 0) ∧
      t = s.modCore o.core (fun k => { k with
        queues := Tbl.put k.queues q.toNat es, popped := Tbl.upd k.popped q.toNat 0 (· + 1) })) := by
  cases n with
  | x r =>
    refine .inl ⟨r, rfl, ?_⟩
    unfold src srcX at h
    dsimp only at h
    rw [op_bind_ok (op_getCore _ _)] at h
    cases hc : (s.core o.core).scoreboard.contains r.toNat with
    | true => rw [op_bind_error (op_need_not (by rw [hc]; rfl) _)] at h; cases h
    | false => rw [op_bind_ok (op_need (by rw [hc]; rfl) _)] at h; cases h; exact ⟨rfl, rfl, rfl⟩
  | sp r => refine .inr (.inl ⟨r, rfl, ?_⟩); cases h; exact ⟨rfl, rfl⟩
  | q q =>
    refine .inr (.inr ?_)
    unfold src popQueue at h
    dsimp only at h
    rw [op_bind_ok (op_get _)] at h
    cases hq : s.queue o.core q.toNat with
    | nil => rw [hq] at h; cases h
    | cons e es =>
      rw [hq] at h
      dsimp only at h
      cases hw : e.wait with
      | some a => rw [op_bind_error (op_need_not (by rw [hw]; rfl) _)] at h; cases h
      | none =>
        rw [op_bind_ok (op_need (by rw [hw]; rfl) _), op_bind_ok (op_modifyCore _ _ _)] at h
        cases h; exact ⟨q, e, es, rfl, hq, hw, rfl, rfl⟩
  | v _ => cases h
  | a _ => cases h
  | k _ => cases h
  | p _ => cases h

/-- A destination that was written: a register from the next cycle on, or a queue with room (R29, R34, R59). -/
theorem dst_ok {o : Origin} {n : Name} {s t : State} {v : Word} (h : (dst o n v).run s = .ok ((), t)) :
    (∃ r, n = .x r ∧ (s.core o.core).scoreboard.contains r.toNat = false ∧
      t = s.modCore o.core (fun k => if r = 0 then k else { k with latches := k.latches ++ [.xreg r v] })) ∨
    (∃ q, n = .q q ∧ s.queueRoom o.core q = true ∧ t = s.push o q v) := by
  cases n with
  | x r =>
    refine .inl ⟨r, rfl, ?_⟩
    unfold dst at h
    dsimp only at h
    rw [op_bind_ok (op_getCore _ _)] at h
    cases hc : (s.core o.core).scoreboard.contains r.toNat with
    | true => rw [op_bind_error (op_need_not (by rw [hc]; rfl) _)] at h; cases h
    | false => rw [op_bind_ok (op_need (by rw [hc]; rfl) _)] at h; cases h; exact ⟨rfl, rfl⟩
  | q q =>
    refine .inr ⟨q, rfl, ?_⟩
    unfold dst at h
    dsimp only at h
    rw [op_bind_ok (op_get _)] at h
    cases hc : s.queueRoom o.core q with
    | false => rw [op_bind_error (op_need_not hc _)] at h; cases h
    | true => rw [op_bind_ok (op_need hc _)] at h; cases h; exact ⟨rfl, rfl⟩
  | sp _ => cases h
  | v _ => cases h
  | a _ => cases h
  | k _ => cases h
  | p _ => cases h

/-- A destination that was held for a value to come: a register in the scoreboard, or a place in a queue (R29, R60). -/
theorem reserve_ok {o : Origin} {n : Name} {s t : State} (h : (reserve o n).run s = .ok ((), t)) :
    (∃ r, n = .x r ∧ (s.core o.core).scoreboard.contains r.toNat = false ∧
      t = s.modCore o.core (fun k => if r = 0 then k else { k with scoreboard := k.scoreboard ++ [r.toNat] })) ∨
    (∃ q, n = .q q ∧ s.queueRoom o.core q = true ∧ t = s.holdPlace o q) := by
  cases n with
  | x r =>
    refine .inl ⟨r, rfl, ?_⟩
    unfold reserve at h
    dsimp only at h
    rw [op_bind_ok (op_getCore _ _)] at h
    cases hc : (s.core o.core).scoreboard.contains r.toNat with
    | true => rw [op_bind_error (op_need_not (by rw [hc]; rfl) _)] at h; cases h
    | false => rw [op_bind_ok (op_need (by rw [hc]; rfl) _)] at h; cases h; exact ⟨rfl, rfl⟩
  | q q =>
    refine .inr ⟨q, rfl, ?_⟩
    unfold reserve at h
    dsimp only at h
    rw [op_bind_ok (op_get _)] at h
    cases hc : s.queueRoom o.core q with
    | false => rw [op_bind_error (op_need_not hc _)] at h; cases h
    | true => rw [op_bind_ok (op_need hc _)] at h; cases h; exact ⟨rfl, rfl⟩
  | sp _ => cases h
  | v _ => cases h
  | a _ => cases h
  | k _ => cases h
  | p _ => cases h

/-- A register that may be read. -/
theorem src_x {o : Origin} {r : BitVec 6} {s : State} (h : (s.core o.core).scoreboard.contains r.toNat = false) :
    (src o (.x r)).run s = .ok ((s.core o.core).readX r, s) := by
  unfold src srcX
  dsimp only
  rw [op_bind_ok (op_getCore _ _), op_bind_ok (op_need (by rw [h]; rfl) _)]; rfl

theorem srcX_run {o : Origin} {r : BitVec 6} {s : State} (h : (s.core o.core).scoreboard.contains r.toNat = false) :
    (srcX o r).run s = .ok ((s.core o.core).readX r, s) := src_x h

/-- All that the issue of a word can come to: its effect and the next word, what it sets itself, a stall, a lost bank, a
port's fetch, an event that it waits for, a trap, or the slip window (R13, R16, R27, R50). -/
theorem issue_cases {w : Walker} {h : Hdr} {cost : Nat} {body : Origin → Op Flow} {s t : State}
    (ht : issue w h cost body s = .next t) :
    (∃ u, s.mayIssue w h.wait ∧ (body (s.word w h)).run (s.waited h.wait) = .ok (.seq, u) ∧ t = u.advanced s w cost) ∨
    (s.mayIssue w h.wait ∧ (body (s.word w h)).run (s.waited h.wait) = .ok (.own, t)) ∨
    t = s.stalled s.cur w ∨
    (∃ age b, t = (s.modCore s.cur (fun k => (k.missBanks age b).loseWord w age)).stalled s.cur w) ∨
    (∃ p, t = (s.awaitBlock s.cur w ((s.core s.cur).origin s.cur w h.post) p).stalled s.cur w) ∨
    (∃ d i, t = (s.after d i).stalled s.cur w) ∨
    (∃ cls code addr, s.mayIssue w h.wait ∧ (body (s.word w h)).run (s.waited h.wait) = .error (.trap cls code addr) ∧
      t = (s.takeTrap { s.word w h with post2 := 0 } cls code addr).stalled s.cur w) ∨
    t = (s.modCore s.cur (fun k => { k with slipHeld := true })).stalled s.cur w := by
  unfold issue issueAt at ht
  have e := Host.Outcome.next.inj ht
  clear ht
  dsimp only at e
  subst e
  by_cases hk : (s.core s.cur).slipOk w = true
  · rw [if_pos hk]
    by_cases hm : s.mayIssue w h.wait
    · rw [tryWord_of_mayIssue hm rfl]
      cases hb : (body (s.word w h)).run (s.waited h.wait) with
      | ok a =>
        obtain ⟨f, u⟩ := a
        cases f with
        | seq => exact .inl ⟨u, hm, rfl, rfl⟩
        | own => exact .inr (.inl ⟨hm, rfl⟩)
      | error e =>
        cases e with
        | stall => exact .inr (.inr (.inl rfl))
        | lost age b => exact .inr (.inr (.inr (.inl ⟨age, b, rfl⟩)))
        | prefetch p => exact .inr (.inr (.inr (.inr (.inl ⟨p, rfl⟩))))
        | await d i => exact .inr (.inr (.inr (.inr (.inr (.inl ⟨d, i, rfl⟩)))))
        | trap cls code addr => exact .inr (.inr (.inr (.inr (.inr (.inr (.inl ⟨cls, code, addr, hm, rfl, rfl⟩))))))
    · have hs : tryWord s.cur w h false body s = .error .stall := by
        unfold tryWord
        dsimp only
        split
        · rename_i hc
          simp only [Bool.and_eq_true, decide_eq_true_eq, Bool.not_eq_true', Option.isNone_iff_eq_none] at hc
          obtain ⟨⟨⟨h1, h2⟩, h3⟩, h4⟩ := hc
          by_cases hw : h.wait = 0
          · exact absurd ⟨h2, h1, h3, h4, hk, .inl hw⟩ hm
          · have hn : ¬ ((decide (h.wait = 0) || false) = true) := by
              rw [Bool.or_false, decide_eq_true_eq]; exact hw
            by_cases hv : s.semVal s.cur h.wait = 0
            · rw [if_neg hn, if_pos hv]
            · exact absurd ⟨h2, h1, h3, h4, hk, .inr hv⟩ hm
        · rfl
      rw [hs]; exact .inr (.inr (.inl rfl))
  · rw [if_neg hk]
    split
    · exact .inr (.inr (.inr (.inr (.inr (.inr (.inr rfl))))))
    · exact .inr (.inr (.inl rfl))

end Sys2Proof.Machine
end

