-- ==== Sys2Proof/Laws/Vector.lean ====
section
/-! SUPPORT. What a word between views does once its operands are found. -/

namespace Sys2Proof.Machine

/-- The result of a word between views goes on its way where its run lies outside the running text. -/
theorem fixedResult_run {o : Origin} {r : Nat × Nat} {lat : Nat} {bytes : List Byte} {flags : BitVec 7} {s : State}
    (h : (s.core o.core).inText r.1 r.2 = false) :
    (fixedResult o r lat bytes flags).run s = .ok (.seq,
      ((s.modCore o.core (fun k => { k with vpend := k.vpend ++ [(keyRS o.core r.1, r.2, o.age)] })).begin o).later o.core lat
        (.vectorResultLands o (keyRS o.core r.1) bytes flags)) := by
  unfold fixedResult
  rw [op_bind_ok (op_getCore _ _), op_bind_ok (op_demand (by simp [h]) _ _ _), op_bind_ok (op_modifyCore _ _ _), op_doneLater]
  rfl

/-- A word between views whose operands are found and whose formats pass. -/
theorem viewWord_run {o : Origin} {d : Name} {readD : Bool} {ops : List (Name × Bool)} {lat : Nat}
    {chk : Byte → List Byte → Bool} {f : Byte → List Nat → List Source → List Nat × BitVec 7} {s t : State} {fmt : Byte}
    {r : Nat × Nat} {old : List Nat} {ss : List Source}
    (hv : (vectorOperands o d readD ops).run s = .ok ((fmt, r, old, ss), t)) (hc : chk fmt (ss.map Source.fmt) = true)
    (ht : (t.core o.core).inText r.1 r.2 = false) :
    (viewWord o d readD ops lat chk f).run s = .ok (.seq,
      ((t.modCore o.core (fun k => { k with vpend := k.vpend ++ [(keyRS o.core r.1, r.2, o.age)] })).begin o).later o.core lat
        (.vectorResultLands o (keyRS o.core r.1) (unelems (fmtSize fmt) (f fmt old ss).1) (f fmt old ss).2)) := by
  unfold viewWord
  rw [op_bind_ok hv, op_bind_ok (op_demand hc _ _ _)]
  exact fixedResult_run ht

/-- A word between views whose formats do not pass raises RSVD (R161). -/
theorem viewWord_format {o : Origin} {d : Name} {readD : Bool} {ops : List (Name × Bool)} {lat : Nat}
    {chk : Byte → List Byte → Bool} {f : Byte → List Nat → List Source → List Nat × BitVec 7} {s t : State} {fmt : Byte}
    {r : Nat × Nat} {old : List Nat} {ss : List Source}
    (hv : (vectorOperands o d readD ops).run s = .ok ((fmt, r, old, ss), t)) (hc : chk fmt (ss.map Source.fmt) = false) :
    (viewWord o d readD ops lat chk f).run s = .error (.trap .rsvd 0 0) := by
  unfold viewWord
  rw [op_bind_ok hv, op_bind_error (op_demand_not hc _ _ _)]

/-- The scalar that a word between views reads first. -/
def ViewSpec.argRead (v : ViewSpec) (o : Origin) (s s1 : State) (x : Word) : Prop :=
  match v.arg with
  | some n => (src o n).run s = .ok (x, s1)
  | none => s1 = s

theorem viewUnary_run {o : Origin} {h : Hdr} {cost lat : Nat} {d a : Name} {tea : Bool} {chk : Byte → Byte → Bool}
    {f : Byte → Byte → List Nat → List Nat × BitVec 7} {s s1 : State} {x : Word}
    (ha : (spec1 h cost lat d a tea chk f).argRead o s s1 x) :
    (viewUnary o d a tea lat chk f).run s = (viewWord o d false (spec1 h cost lat d a tea chk f).ops lat
      (spec1 h cost lat d a tea chk f).chk ((spec1 h cost lat d a tea chk f).f x)).run s1 := by
  cases ha; rfl

theorem viewBinary_run {o : Origin} {h : Hdr} {cost lat : Nat} {d a b : Name} {te : Te} {bx readD : Bool}
    {chk : Byte → Byte → Byte → Bool} {f : Byte → Byte → Byte → List Nat → List Nat → List Nat → List Nat × BitVec 7}
    {s s1 : State} {x : Word} (ha : (spec2 h cost lat d a b te bx readD chk f).argRead o s s1 x) :
    (viewBinary o d a b te bx readD lat chk f).run s = (viewWord o d readD (spec2 h cost lat d a b te bx readD chk f).ops lat
      (spec2 h cost lat d a b te bx readD chk f).chk ((spec2 h cost lat d a b te bx readD chk f).f x)).run s1 := by
  cases bx
  · cases ha; rfl
  · exact op_bind_ok ha

end Sys2Proof.Machine
end

