-- ==== Sys2Proof/Tests/Slice0.lean ====
section
/-! SUPPORT. Tests: what decodes and what is refused, small steps, and for every statement a state and operands that
meet its hypotheses. -/

namespace Sys2Proof.Tests

open Sys2Proof Sys2Proof.Machine

-- One test at a time, so that the check stays within its memory.
set_option Elab.async false
set_option linter.unusedVariables false

/-! ## Small states -/

/-- A walker that runs. -/
def run : WalkerSt := { WalkerSt.start with st := .running }

/-- A tenant's core whose six walkers run, with its text in the first 600 bytes of register space. -/
def core0 : Core :=
  { Core.reset with live := true, words := 100, wC := run, wV := run, wM := run, wX := run, wG := run, wF := run }

/-- The machine with one core. -/
def st (k : Core) : State := { State.reset with cores := [(0, k)] }

def s0 : State := st core0

def h0 : Hdr := ⟨0, 0⟩

/-- The word at index 0 of a walker of core 0. -/
def o0 (w : Walker) : Origin := ⟨0, w, 0, 0, 0, 0, 0, 0⟩

theorem may {s : State} {w : Walker} {wait : BitVec 4} (h1 : ((s.core s.cur).w w).st = .running)
    (h2 : ((s.core s.cur).w w).readyAt ≤ (s.core s.cur).time) (h3 : ((s.core s.cur).w w).blocked = false)
    (h4 : (s.core s.cur).frozen = none) (h5 : (s.core s.cur).slipOk w = true) (h6 : wait = 0) : s.mayIssue w wait :=
  And.intro h1 (And.intro h2 (And.intro h3 (And.intro h4 (And.intro h5 (.inl h6)))))

theorem mayP {s : State} {w : Walker} {h : Hdr} {d a b : Name} {t : State} (h1 : s.mayIssue w h.wait)
    (h2 : (((s.waited h.wait).core s.cur).w w).pend = 0)
    (h3 : ((s.waited h.wait).core s.cur).scoreboard.contains (xNum a).toNat = false)
    (h4 : ((s.waited h.wait).core s.cur).scoreboard.contains (xNum b).toNat = false)
    (h5 : (reserve (s.word w h) d).run (s.waited h.wait) = .ok ((), t)) : s.mayPrivilege w h d a b t :=
  And.intro h1 (And.intro h2 (And.intro h3 (And.intro h4 h5)))

theorem canon {s : State} (h : Memory.wf s.mem = true) : s.Canonical := h


/-! ## Decoding and well-formedness (R36 to R49) -/

/-- A decoder test: in the context, each word decodes to its instruction and encodes back to the word. The words
are put together from the field tables of R36 to R47 and of the words' own rules. -/
def decodesTo (x : Ctx) (l : List (IWord × Instr)) : Bool :=
  l.all fun p => (match decodeWord ⟨x, 0⟩ p.1 with
    | .ok i => decide (i = p.2)
    | .error _ => false) && decide (encode p.2 = some p.1)

/-- A well-formedness test: the first failing check of R49 on each term. -/
def failsAt (x : Ctx) (l : List (Nat × Instr)) : Bool :=
  l.all fun p => decide (lowest (p.2.check ⟨x, 0⟩) = some p.1) && !p.2.wellFormed ⟨x, 0⟩

/-- A decoder test: each word raises the trap class. -/
def raises (x : Ctx) (t : TrapClass) (l : List IWord) : Bool :=
  l.all fun w => match decodeWord ⟨x, 0⟩ w with
    | .ok _ => false
    | .error u => decide (u = t)

/- R49, check 1 (a REP of tag 0b111), 2 (context), 3 (reserved fields), 4 (read-only special as destination). -/
theorem test_illFormed_1_to_4 : failsAt .tenant [
  (1, .rep h0 7 0 0 0),
  (2, .genadv h0 (.x 1) (.x 2)), (2, .frz h0 (.x 1) (.x 2) (.x 3)), (2, .lapw h0 (.x 1)),
  (2, .frout h0 (.x 1) (.x 2)), (2, .flnkDown h0 (.x 1) (.x 2) (.x 3)),
  (3, .rep ⟨1, 0⟩ 6 0 0 0), (3, .br h0 0 (.x 1) 0), (3, .ld h0 3 true false (.x 1) (.x 2) (.x 0)),
  (3, .lda h0 3 true false .core (.x 1) (.x 2)),
  (4, .li h0 (.sp .clk) 0), (4, .add h0 (.sp .core) (.x 1) (.x 2)), (4, .vmov h0 false (.sp .vf) (.v 1))] = true := by
  decide +kernel

/- R49, checks 5 (class of a register field), 6 (a queue where none may stand) and 7 (trap-if-empty). -/
theorem test_illFormed_5_to_7 : failsAt .tenant [
  (5, .add h0 (.v 1) (.x 1) (.x 2)), (5, .liu h0 (.x 0) 0), (5, .vmov h0 false (.v 1) (.a 1)),
  (5, .vacc h0 false (.v 1) (.v 2)), (5, .vlut h0 false false false (.v 1) (.v 2) (.x 1)),
  (5, .mdst h0 (.v 1)), (5, .spl h0 1 (.x 9) 0), (5, .vld h0 (.x 1) (.x 2) 0 0), (5, .gclmp h0 ⟨false, false⟩ (.p 0) (.v 1)),
  (5, .tdef h0 (.x 0) 1), (5, .acas h0 true (.x 0) (.x 1) (.x 2)), (5, .sel h0 (.x 0) (.x 1) (.x 2)),
  (6, .add h0 (.q 16) (.x 1) (.x 2)), (6, .add h0 (.x 1) (.q 20) (.x 2)), (6, .vmov h0 false (.q 1) (.v 1)),
  (6, .xcopy h0 none (.q 1) 3),
  (7, .vadd h0 ⟨false, true⟩ true false .rne (.v 1) (.v 2) (.x 3)),
  (7, .mdrain h0 ⟨false, true⟩ 1 false false (.v 1) (.a 1) none)] = true := by
  decide +kernel

/- R49, check 3: a register beside condition 0 in a B-format word (R41). -/
theorem test_illFormed_3 : failsAt .tenant [(3, .loop h0 0 (.x 1) 0), (3, .loop h0 0 (.q 1) 0)] = true := by decide +kernel

/- R49, check 8: a value out of its range. -/
theorem test_illFormed_8 : failsAt .tenant [
  (8, .semi h0 0 1), (8, .semi h0 16 1), (8, .slipw h0 15), (8, .slipw h0 4097), (8, .view h0 (.v 1) (.x 1) 7),
  (8, .view h0 (.a 1) (.x 1) 1), (8, .br h0 8 (.x 1) 0), (8, .loop h0 8 (.x 1) 0), (8, .spl h0 3 (.x 1) 0),
  (8, .spl h0 0 (.x 1) 4), (8, .fil h0 2 (.x 1) 0x3F00), (8, .trd h0 (.x 1) 0 19),
  (8, .vrotc h0 false (.v 1) (.v 2) (.val 16)),
  (8, .vld h0 (.v 62) (.x 1) 0 2), (8, .vst h0 (.a 15) (.x 1) 0 1), (8, .mnest h0 6 (.x 1) (.x 2)),
  (8, .mopd h0 (.x 1) true (.port 0)), (8, .mopd h0 (.x 1) true (.acc 0)), (8, .mfmt h0 5 2 false 0 false),
  (8, .mdrain h0 ⟨false, false⟩ 5 false false (.v 1) (.a 1) none),
  (8, .mdrain h0 ⟨false, false⟩ 1 true false (.v 1) (.a 1) none),
  (8, .mdrain h0 ⟨false, false⟩ 1 true false (.v 1) (.a 1) (some 63)),
  (8, .mstat h0 (.x 1) (.a 1) 17), (8, .gcolr h0 false 0 (.v 1) (.x 0)), (8, .gmode h0 false false 8193),
  (8, .gswp h0 0), (8, .gswp h0 0x4000), (8, .gstat h0 true 1 (.x 1)), (8, .gstat h0 false 5 (.x 1)),
  (8, .fstat h0 3 (.x 1))] = true := by
  decide +kernel

/- Reserved opcodes, register names, mod values, conditions and scopes raise RSVD; a privileged word in a tenant
raises PRIV; a queue in a field that takes none raises QUEUE (R43 to R49). -/
theorem test_reserved_words : raises .tenant .rsvd [
  0xE00000000000, 0x1C0000000000, 0x338000000000, 0x470000000000, 0x640000000000, 0x878000000000,
  0xA60000000000, 0xC18000000000, 0x000000000001, 0x008000000001, 0x040068008100, 0x0400008101C0,
  0x040000810181, 0x16000081019C, 0x160000810181, 0x128000000280, 0x0E0040080000, 0x270020A1218E,
  0x2E0020A1001C, 0x220020A12184, 0x410001840020, 0x420000000002, 0x600000800801, 0x600000800880,
  0x600000800E80, 0xA00000800100, 0x118000810008, 0x108000810188] = true := by
  decide +kernel

theorem test_trap_order : (raises .tenant .priv [0x180003008000, 0x1B807FFFFFFF, 0xB80001008000, 0xB90000000000] && raises .press .priv [0x180003008000, 0x1A0003008100] &&
  raises .tenant .queue [0x310050A08000, 0x600050801800, 0x040058008100]) = true := by
  decide +kernel

theorem test_decode_control : decodesTo .tenant [
  (0x001A80000000, .nop ⟨3, 5⟩),
  (0x008000000000, .halt h0),
  (0x010003FFFFFE, .li h0 (.x 7) (-2)),
  (0x018000ACF135, .liu h0 (.x 1) 0x2CF135),
  (0x020000000041, .trap h0 0x41),
  (0x0280048000C8, .semi h0 9 200),
  (0x030000001000, .slipw h0 4096),
  (0x038021820006, .view h0 (.v 3) (.x 4) 6),
  (0x040000810180, .add h0 (.x 1) (.x 2) (.x 3)),
  (0x048000810180, .sub h0 (.x 1) (.x 2) (.x 3)),
  (0x050000810180, .mul h0 (.x 1) (.x 2) (.x 3)),
  (0x060000810180, .and h0 (.x 1) (.x 2) (.x 3)),
  (0x068000810180, .or h0 (.x 1) (.x 2) (.x 3)),
  (0x070000810180, .xor h0 (.x 1) (.x 2) (.x 3)),
  (0x078000810180, .shl h0 (.x 1) (.x 2) (.x 3)),
  (0x080000810180, .shr h0 (.x 1) (.x 2) (.x 3)),
  (0x088000810180, .sar h0 (.x 1) (.x 2) (.x 3)),
  (0x0A0000810180, .slt h0 (.x 1) (.x 2) (.x 3)),
  (0x0A8000810180, .sltu h0 (.x 1) (.x 2) (.x 3)),
  (0x0B0000810180, .sel h0 (.x 1) (.x 2) (.x 3)),
  (0x058000D16681, .mulh h0 true (.x 1) (.q 2) (.sp .clk)),
  (0x090000810181, .min h0 true (.x 1) (.x 2) (.x 3)),
  (0x098052010180, .max h0 false (.q 4) (.x 2) (.x 3)),
  (0x0B80009F8000, .clz h0 (.x 1) (.x 63)),
  (0x0C0000810000, .popc h0 (.x 1) (.x 2)),
  (0x0C8000814000, .addi h0 (.x 1) (.x 2) (-16384)),
  (0x0D0000813FFF, .andi h0 (.x 1) (.x 2) 16383),
  (0x0D8000810003, .ori h0 (.x 1) (.x 2) 3),
  (0x0E00382FFFFF, .br h0 7 (.x 5) (-1)),
  (0x0E800003FFFF, .call h0 0 (.x 0) 262143),
  (0x0F0018480000, .ret h0 3 (.x 9)),
  (0x0F802837FFFB, .loop h0 5 (.x 6) (-5))] = true := by
  decide +kernel

theorem test_decode_controlMemory : decodesTo .tenant [
  (0x101006060007, .ld ⟨2, 0⟩ 3 false true (.x 12) (.x 12) (.x 0)),
  (0x10000081018A, .ld h0 2 true false (.x 1) (.x 2) (.x 3)),
  (0x108000810185, .st h0 1 true (.x 1) (.x 2) (.x 3)),
  (0x11000182008A, .lda h0 2 true false .chip (.x 3) (.x 4)),
  (0x118001820203, .stl h0 3 false .sys (.x 3) (.x 4)),
  (0x120780000000, .mark ⟨0, 15⟩),
  (0x128000000180, .fence h0 .dom),
  (0x130004008040, .spl h0 1 (.x 8) 64),
  (0x138002810200, .fil h0 2 (.x 5) 512),
  (0x140003FFF800, .tdef h0 (.x 7) 4095),
  (0x148003805012, .trd h0 (.x 7) 10 18),
  (0x15000081018F, .launch h0 (.x 1) (.x 2) (.x 3) 15),
  (0x158000810000, .waitl h0 (.x 1) (.x 2)),
  (0x160000810182, .aadd h0 true (.x 1) (.x 2) (.x 3)),
  (0x160000810187, .amin h0 true true (.x 1) (.x 2) (.x 3)),
  (0x16000081018B, .amax h0 true true (.x 1) (.x 2) (.x 3)),
  (0x16000081018E, .aand h0 true (.x 1) (.x 2) (.x 3)),
  (0x160000810192, .aor h0 true (.x 1) (.x 2) (.x 3)),
  (0x160000810196, .axchg h0 true (.x 1) (.x 2) (.x 3)),
  (0x16000081019A, .acas h0 true (.x 1) (.x 2) (.x 3)),
  (0x168002FF8000, .tktake h0 (.x 5) 255),
  (0x170003078100, .tkwait h0 .ten 6 (.x 15)),
  (0x178064000080, .tknext h0 .chip 200)] = true := by
  decide +kernel

theorem test_decode_privileged : decodesTo .proof [
  (0x180003008000, .genadv h0 (.x 6) (.x 1)),
  (0x188003008000, .psetRun h0 (.x 6) (.x 1)),
  (0x188002808181, .psetStop h0 (.x 5) (.x 1) (.x 3)),
  (0x188002808182, .psetMap h0 (.x 5) (.x 1) (.x 3)),
  (0x190002008100, .frz h0 (.x 4) (.x 1) (.x 2)),
  (0x198002008100, .thaw h0 (.x 4) (.x 1) (.x 2)),
  (0x1A0001808100, .keyld h0 (.x 3) (.x 1) (.x 2)),
  (0x1A8001808001, .keyerase h0 true (.x 3) (.x 1) (.x 0)),
  (0x1A8001808100, .keyerase h0 false (.x 3) (.x 1) (.x 2)),
  (0x1B0004000000, .lapw h0 (.x 8)),
  (0x1B8001808100, .polset h0 (.x 3) (.x 1) (.x 2))] = true := by
  decide +kernel

theorem test_decode_privileged_press : decodesTo .press [
  (0xB80001008000, .frout h0 (.x 2) (.x 1)),
  (0xB80001008181, .froutLd h0 (.x 2) (.x 1) (.x 3)),
  (0xB88001008180, .fplow h0 (.x 2) (.x 1) (.x 3)),
  (0xB90001008180, .flnkDown h0 (.x 2) (.x 1) (.x 3))] = true := by
  decide +kernel

theorem test_decode_allWalkers : decodesTo .tenant [
  (0xC00000000000, .fork h0),
  (0xC0A300000000, .rdv ⟨4, 6⟩),
  (0xC10000000000, .ssb h0),
  (0x3F8001808000, .rep h0 1 3 1 0),
  (0xDF807FFFFFFC, .rep h0 6 255 (-1) (-4))] = true := by
  decide +kernel

theorem test_decode_vector : decodesTo .tenant [
  (0x200024202246, .vadd h0 ⟨true, false⟩ false true .ru (.v 8) (.v 0) (.v 4)),
  (0x208024202246, .vsub h0 ⟨true, false⟩ false true .ru (.v 8) (.v 0) (.v 4)),
  (0x210024202246, .vmul h0 ⟨true, false⟩ false true .ru (.v 8) (.v 0) (.v 4)),
  (0x218024202246, .vfma h0 ⟨true, false⟩ false true .ru (.v 8) (.v 0) (.v 4)),
  (0x200024200213, .vadd h0 ⟨false, false⟩ true false .rd (.v 8) (.v 0) (.x 4)),
  (0x22002448A228, .vmin h0 ⟨false, true⟩ false true (.v 8) (.p 1) (.v 4)),
  (0x22802448A228, .vmax h0 ⟨false, true⟩ false true (.v 8) (.p 1) (.v 4)),
  (0x230024248045, .vabs h0 true true .rz (.v 8) (.v 9)),
  (0x238024248045, .vneg h0 true true .rz (.v 8) (.v 9)),
  (0x280024248045, .vcvt h0 true true .rz (.v 8) (.v 9)),
  (0x288024248045, .vexp2 h0 true true .rz (.v 8) (.v 9)),
  (0x290024248045, .vlog2 h0 true true .rz (.v 8) (.v 9)),
  (0x298024248045, .vrcp h0 true true .rz (.v 8) (.v 9)),
  (0x2A0024248045, .vrsq h0 true true .rz (.v 8) (.v 9)),
  (0x240024248090, .vand h0 ⟨false, false⟩ true (.v 8) (.v 9) (.x 1)),
  (0x248024248090, .vor h0 ⟨false, false⟩ true (.v 8) (.v 9) (.x 1)),
  (0x250024248090, .vxor h0 ⟨false, false⟩ true (.v 8) (.v 9) (.x 1)),
  (0x258024248090, .vshl h0 ⟨false, false⟩ true (.v 8) (.v 9) (.x 1)),
  (0x260024248090, .vshr h0 ⟨false, false⟩ true (.v 8) (.v 9) (.x 1)),
  (0x268024248090, .vsar h0 ⟨false, false⟩ true (.v 8) (.v 9) (.x 1)),
  (0x270023A3258B, .vcmp h0 ⟨false, false⟩ false .ge true (.v 7) (.v 6) (.v 11)),
  (0x278023A325A0, .vsel h0 ⟨false, true⟩ (.v 7) (.v 6) (.v 11)),
  (0x2A8023A30002, .vrnd h0 false .ru (.v 7) (.v 6)),
  (0x2B0023A36185, .vlut h0 false true true (.v 7) (.v 6) (.k 3)),
  (0x2B8043A30000, .vacc h0 false (.a 7) (.v 6))] = true := by
  decide +kernel

theorem test_decode_vectorShape : decodesTo .tenant [
  (0x2C0023A30780, .vrotr h0 false (.v 7) (.v 6) (.val 15)),
  (0x2C8023A30780, .vrotc h0 false (.v 7) (.v 6) (.val 15)),
  (0x2D0023A30780, .vbcr h0 false (.v 7) (.v 6) (.val 15)),
  (0x2D8023A30780, .vbcc h0 false (.v 7) (.v 6) (.val 15)),
  (0x2C0023A30790, .vrotr h0 false (.v 7) (.v 6) (.reg (.x 15))),
  (0x2E0022A20004, .vredr h0 false .max false (.v 5) (.v 4)),
  (0x2E8022A2001A, .vredc h0 false .minu true (.v 5) (.v 4)),
  (0x2F0022A20041, .vscanr h0 true .add false true (.v 5) (.v 4)),
  (0x2F8022A22180, .vcomp h0 ⟨false, false⟩ (.v 5) (.v 4) (.v 3)),
  (0x30002201FF83, .vld h0 (.v 4) (.x 3) (-1) 3),
  (0x308042018081, .vst h0 (.a 4) (.x 3) 1 1),
  (0x310022A20040, .vmov h0 true (.v 5) (.v 4)),
  (0x3180258A8000, .vsplat h0 (.v 11) (.x 21)),
  (0x320002A20180, .vgets h0 false (.x 5) (.v 4) (.x 3)),
  (0x320002800003, .vgetsSt h0 true (.x 5)),
  (0x3280A0008001, .viota ⟨0, 1⟩ true (.v 0) (.x 1)),
  (0x330021202098, .vsfc h0 ⟨false, false⟩ .hilbert3 (.v 2) (.v 0) (.v 1))] = true := by
  decide +kernel

theorem test_decode_matrix : decodesTo .tenant [
  (0x400002820280, .mnest h0 5 (.x 4) (.x 5)),
  (0x408001021803, .mopd h0 (.x 2) true (.view 3)),
  (0x408001049804, .mopd h0 (.x 2) false (.port 3)),
  (0x41000184001F, .mfmt h0 3 8 true 7 true),
  (0x418044800000, .mdst h0 (.a 9)),
  (0x420000000001, .mgo h0 true),
  (0x420800000000, .mgo ⟨1, 0⟩ false),
  (0x428041007FFD, .minit h0 (.a 2) (-3)),
  (0x430041000000, .mzero h0 (.a 2)),
  (0x438041000000, .mnorm h0 (.a 2)),
  (0x440020C121B3, .mdrain h0 ⟨false, true⟩ 4 true true (.v 1) (.a 2) (some 3)),
  (0x448000C10010, .mstat h0 (.x 1) (.a 2) 16),
  (0x450000800001, .merrq h0 true (.x 1)),
  (0x458060810000, .mcbld h0 (.k 1) (.x 2)),
  (0x460000000000, .mocinv h0),
  (0x468020C10007, .mrsum h0 true .rd (.v 1) (.a 2))] = true := by
  decide +kernel

theorem test_decode_copy : decodesTo .tenant [
  (0x600005801800, .xcopy h0 none (.x 11) 3),
  (0x600004803E00, .xcopy h0 (some .sys) (.x 9) 7),
  (0x608805800480, .xcopyv ⟨1, 0⟩ (some .chip) (.x 11) 0),
  (0x610000804800, .xgath h0 none (.x 1) 9),
  (0x618000804800, .xscat h0 none (.x 1) 9),
  (0x620000800400, .xfill h0 (some .core) (.x 1) 0),
  (0x628000804800, .xpref h0 (.x 1) 9),
  (0x630000000000, .xfence h0),
  (0x638003800001, .xstat h0 true (.x 7))] = true := by
  decide +kernel

theorem test_decode_gibbs : decodesTo .tenant [
  (0x800000804800, .gload h0 (.x 1) 9),
  (0x808000804800, .gbias h0 (.x 1) 9),
  (0x810008208140, .gcolr h0 true 16 (.v 1) (.x 2)),
  (0x818000048000, .gbeta h0 (.x 9)),
  (0x820001002000, .gmode h0 true false 8192),
  (0x820000800001, .gmode h0 false true 1),
  (0x828000048000, .gseed h0 (.x 9)),
  (0x830000212080, .gclmp h0 ⟨false, false⟩ (.v 2) (.v 1)),
  (0x838000210040, .gfree h0 true (.v 2)),
  (0x840000003FFF, .gswp h0 16383),
  (0x848021000000, .grds h0 (.v 2)),
  (0x850000000000, .gcntc h0),
  (0x858021018000, .grdc h0 (.v 2) (.x 3)),
  (0x860021018000, .grdf h0 (.v 2) (.x 3)),
  (0x868002800000, .gxch h0 (.x 5)),
  (0x870001800008, .gstat h0 true 0 (.x 3)),
  (0x870001800004, .gstat h0 false 4 (.x 3))] = true := by
  decide +kernel

theorem test_decode_fabric : decodesTo .tenant [
  (0xA000028000A2, .fput h0 (some .ten) (.x 5) 0 2),
  (0xA08000810187, .fatom h0 .min true true (.x 1) (.x 2) (.x 3)),
  (0xA10002000005, .fpull h0 (.x 4) 5),
  (0xA18200000200, .ffence ⟨0, 4⟩ .sys),
  (0xA20106818001, .fcnt ⟨0, 2⟩ true (.x 13) 3),
  (0xA28003800100, .fbar h0 .ten 7),
  (0xA30002003800, .fgrp h0 (.x 4) 7),
  (0xA38003005021, .fred h0 (.x 6) 10 2 1),
  (0xA40003000021, .fbcst h0 (.x 6) 0 2 1),
  (0xA480030000F1, .fa2a h0 (.x 6) 0 15 1),
  (0xA5000300182F, .rpart h0 (.x 6) 3 2 15),
  (0xA58001800001, .fstat h0 1 (.x 3))] = true := by
  decide +kernel

/-! ## Steps and arithmetic

The expected values are the worked examples of spec/04 (R62, R64), spec/05 (R95, R96, R104, R111) and spec/14. -/

/-- A scalar register of core 0 in the cycle after a control word on the given registers (R34). -/
def xAfter (i : Instr) (xs : List (Nat × Word)) (r : Nat) : Option Word :=
  match exec i (st { core0 with x := xs }) with
  | .next t => some (Tbl.get ((tick t).core 0).x r 0)
  | _ => none

theorem test_li_negative : xAfter (.li h0 (.x 7) (-2)) [] 7 = some (-2) := by decide +kernel
theorem test_liu_second : xAfter (.liu h0 (.x 1) 0x2CF135) [(1, 0x48D1)] 1 = some 0x2468ACF135 := by decide +kernel
theorem test_liu_third : xAfter (.liu h0 (.x 1) 0x3CDEF0) [(1, 0x2468ACF135)] 1 = some 0x123456789ABCDEF0 := by
  decide +kernel
theorem test_add_wraps : xAfter (.add h0 (.x 1) (.x 1) (.x 2)) [(1, -1), (2, 3)] 1 = some 2 := by decide +kernel
theorem test_add_x0 : xAfter (.add h0 (.x 0) (.x 1) (.x 2)) [(1, 5), (2, 3)] 0 = some 0 := by decide +kernel
theorem test_shl_amount : xAfter (.shl h0 (.x 3) (.x 1) (.x 2)) [(1, 5), (2, 65)] 3 = some 10 := by decide +kernel
theorem test_sar_sign : xAfter (.sar h0 (.x 3) (.x 1) (.x 2)) [(1, -3), (2, 1)] 3 = some (-2) := by decide +kernel
theorem test_min_unsigned : xAfter (.min h0 true (.x 3) (.x 1) (.x 2)) [(1, -1), (2, 1)] 3 = some 1 := by decide +kernel
theorem test_sltu : xAfter (.sltu h0 (.x 3) (.x 1) (.x 2)) [(1, -1), (2, 1)] 3 = some 0 := by decide +kernel
theorem test_sel_old_dest : xAfter (.sel h0 (.x 3) (.x 1) (.x 2)) [(1, 8), (2, 9), (3, 0)] 3 = some 9 := by decide +kernel
theorem test_clz_zero : xAfter (.clz h0 (.x 3) (.x 0)) [] 3 = some 64 := by decide +kernel
theorem test_addi_negative : xAfter (.addi h0 (.x 1) (.x 1) (-64)) [(1, 0)] 1 = some (-64) := by decide +kernel

/- rne(460, E4M3), rne(470, E4M3), the same saturated, and 470 rounded to zero. -/
theorem test_round_e4m3 :
    ((e4m3.round .rne false (.fin false 460 0)).1, (e4m3.round .rne false (.fin false 470 0)).1,
      (e4m3.round .rne true (.fin false 470 0)).1, (e4m3.round .rz false (.fin false 470 0)).1)
      = (0x7E, 0x7F, 0x7E, 0x7E) := by
  decide +kernel

/- −3/4 at E = 0. -/
theorem test_wide_guard : (WEl.m (-12288, 0), WEl.g (-12288, 0)) = (0xFFFFFFFFFFFFFFFF, 0x1000) := by decide +kernel

/- A row of 2^60 and 3 · 2^−14 takes E′ = 13, and the second element truncates to 0. A row of 1 takes −47. -/
theorem test_normalise : (normExp 0 [(2 ^ 74, 0), (3, 0)], rescale 0 13 (3, 0), normExp 0 [(2 ^ 14, 0)])
    = (some 13, ((0, 0), true), some (-47)) := by
  decide +kernel

/- The draws of the grid program: seed 0x2B, sweeps 0 and 1. -/
theorem test_replay_draws :
    (replayDraw 0x2B 0 5, replayDraw 0x2B 0 10, replayDraw 0x2B 0 6, replayDraw 0x2B 0 9, replayDraw 0x2B 1 6)
      = (0x6DF7, 0x6526, 0xCFC0, 0x035E, 0x4979) := by
  decide +kernel

/- A word placed after reset is the next step. -/
theorem test_first_step : (match step (State.reset.withFetchWord 48 0x0100008048D1) with
    | .next t => Tbl.get ((tick t).core 0).x 1 0
    | _ => 0) = 0x48D1 := by
  decide +kernel


/-! ## States and operands that meet the hypotheses of the statements -/

/-- Core 0 frozen; its latches; a queue with one entry. -/
def lat (l : Latch) : State := st { core0 with latches := [l] }
def frz : State := st { core0 with frozen := some .trap }
def que (e : QEntry) : State := st { core0 with queues := [(0, [e])] }
def full16 : List QEntry := List.replicate 16 ⟨voidTag, 0, none⟩

/-- Bytes of core 0's register space, in one 128-byte unit under the tenant's tag. -/
def rs (s : State) (off : Nat) (l : List Byte) : State :=
  { s with mem := memWrite [] (keyRS 0 off) l, tags := [(unitOf (keyRS 0 off), ⟨false, 0, 1⟩)] }

/-- A text of one word at the start of register space. -/
def text (k : Core) (w : Nat) : State := rs (st k) 0 (leBytes 6 w)

/-- A core whose kernel has ended. -/
def ended : State := st { core0 with wC := { WalkerSt.start with st := .halted, pend := 1 }, wV := WalkerSt.start,
                                     wM := WalkerSt.start, wX := WalkerSt.start, wG := WalkerSt.start,
                                         wF := WalkerSt.start }


/-- A partition of core 0 with its vault in slot 0, one save slot there, and a text of one word at its start. -/
def record0 : List Byte :=
  zeros 16 ++ [128] ++ zeros 143 ++ [1] ++ zeros 19 ++ [1] ++ zeros 75 ++ [1] ++ zeros 295 ++ [1] ++ zeros 23 ++ [1] ++ zeros 447
def vf0 : Vf := { Vf.reset with created := true, record := record0 }
def withVf (s : State) : State := { s with vfs := [(0, vf0)] }

def gang0 : Gang :=
  { vf := 0, gen := 1, launch := 1, cores := [0], frozen := none, saved := false, area := 0, areaHost := false,
    ended := [], closing := false, phase := none, sliceAt := 0, level := 0, nextLevel := 0, order := 0,
    records := [], thaw := [] }
def rcb0 : Rcb := ⟨2, 0, false, 0, 0, 0, 0, 0, 0, 0, 0, 0, 1, 1, 0, 0, 0, 0, []⟩
def launch0 : Launch :=
  { vf := 0, gen := 1, queue := 0, addr := 0, rcb := rcb0, parent := none, listed := false, byGang := none, depth := 1,
    st := .running, patch := none, patchBad := [], reason := 0, collected := false, nextChild := 0, order := 0,
        ready := 0 }

/-- The core belongs to gang 0, of launch 1. -/
def ganged (s : State) (g : Gang) (l : Launch) : State := { s with gangs := [(0, g)], launches := [(1, l)] }

/-- A byte of the vault 0, and an access to it. -/
def key0 : Nat := keyVault 0 0
def loads (op : MemOp) (sq : List QOp) (l : List QOp) : State :=
  st { core0 with lq := ⟨o0 .C, op, none⟩ :: l, sq := sq }
def markQ : QOp := ⟨o0 .C, .mark, none⟩
def req0 : AtomicReq := ⟨0, 1, key0, .cas, true, false, 1, 0⟩


def galley0 : Galley :=
  { core := 0, gang := 0, o := o0 .X, vf := 0, gen := 1, job := .fill 0, reads := [], writes := [], disp := 0, rel := none,
    exch := false, accepted := false, started := false, moved := false, plan := [], flight := [], lines := [],
        pages := [],
    stream := false, counter := none, code := 0, lastAt := 0, ack := 0, waitAck := 0, farAge := none }
def gal (g : Galley) : State := { s0 with galleys := [(0, g)] }


/-- A register's value in core 0. -/
def reg (n : Nat) (v : Word) : State := st { core0 with x := [(n, v)] }
def tag1 : Tag := ⟨false, 0, 1⟩

/-- A gang that a trap froze. -/
def held0 : Gang := { gang0 with frozen := some .trap, saved := true }

/-- Vector views of BF16, INT8, FP32, the bit format and INT32; accumulator view 15 at the end of register space. -/
def viewed (k : Core) : Core :=
  { k with views := [(0, ⟨2, 1⟩), (1, ⟨5, 2⟩), (2, ⟨1, 3⟩), (3, ⟨11, 4⟩), (4, ⟨6, 5⟩), (62, ⟨1, 6⟩), (63, ⟨5, 7⟩)],
           aviews := [(15, ⟨1, 61⟩)] }
def vs0 : State := st (viewed core0)

theorem mayA {s : State} {h : Hdr} {d base : Name} {r : Nat × Nat} {acc : Bool} (h1 : s.mayIssue .V (s.accessWait h))
    (h2 : s.firstAccess = true → ((s.accessed h).core s.cur).scoreboard.contains (xNum base).toNat = false)
    (h3 : (if (s.core s.cur).wV.grant = 0 then viewRun ((s.accessed h).core s.cur) d (s.core s.cur).wV.access
      else (s.core s.cur).wV.run) = some (r, acc)) : s.mayAccess h d base r acc :=
  And.intro h1 (And.intro h2 h3)

def pkt0 (v : BitVec 6) : Packet :=
  ⟨.put, false, 0, false, 0, 0, 0, 0, 0, v, 1, 0, 0, 0, 0, 0, 0, 0, [], false⟩
def resp0 (v : BitVec 6) : Response := ⟨.ack, 0, 0, 0, v, 1, 0, 0⟩
def reply0 (v : BitVec 6) : Reply := ⟨⟨0, 0, 0, v, 1⟩, ⟨false, v, 1⟩, resp0 v, false, 0⟩
def fabOp0 (v : BitVec 6) : FabOp := ⟨0, 0, pkt0 v, 0, none, .galley 0⟩
def oline1 : OLine := ⟨1, 1, ⟨0, false, 0, 0, 0, 0⟩, [], []⟩
def tent1 : TEnt := ⟨1, 1, 1, 0, false, true, 0, 0, false, 0⟩
def stopped0 (s : State) : State := { s with vfs := [(0, { vf0 with status := .stopped })] }

def cfg0 : NestCfg := { NestCfg.reset with asrc := some (.view 0), bsrc := some (.view 0), dest := 15 }
def nest0 : NestRun := ⟨NestCfg.reset, false, o0 .M, [], [], none, none, [], [], [], [], [], [], [], [], [], [], 0,
    false⟩
def nested (n : NestRun) : State := st { viewed core0 with nest := some n }
def waitM (lands : Option Nat) : MatWait := ⟨o0 .M, 0x10000, .zero, lands⟩

/-- Entry 4095 of VF 0's table: a vault tensor of INT32 at address 0. -/
def entry0 : List Byte :=
  leBytes 8 0 ++ [6,
      0] ++ leBytes 6 0 ++ leBytes 4 1 ++ leBytes 4 1 ++ leBytes 4 1 ++ leBytes 4 1 ++ zeros 23 ++ [1] ++ zeros 8
def tabled (s : State) : State := { withVf s with mem := memWrite [] (keyTensor 0 4095) entry0 }
def gib (g : Gibbs) : State := st { viewed core0 with gibbs := g }
def ctl0 : GCtl := { GCtl.reset with tag := tag1, gates := 1 }


/-- What an XFILL whose card names no range orders. -/
def noFill (b : List Byte) : Order :=
  ⟨.fill (BitVec.ofNat 8 (field b 2 1)), [], [], [], [], [], [], [], false, none, none, none, false, []⟩

theorem fill_empty {o : Origin} {b : List Byte} {s : State} (hr : readRanges b = List.replicate 4 (0, 0))
    (hw : writeRanges b = [(0, 0), (0, 0)]) (h : field b 3 1 = 0 ∧ field b 6 1 = 0 ∧ field b 7 9 = 0) :
    (fillOrder o 0 b).run s = .ok (noFill b, s) := by
  unfold fillOrder
  dsimp only
  rw [op_bind_ok (op_demand (by rw [hr, hw, h.1, h.2.1, h.2.2]; decide) _ _ _), hw, h.2.1]
  rfl

def piece0 : Piece := ⟨.data [1] false, key0, 0, 0, [], 0⟩
def line0 : CoalLine := ⟨keyHost 0, List.replicate 64 none, 0, true, [], 0, false, false, none⟩
def fp (n : Nat) (t : FPort) (s : State) : State := { s with fports := [(n, t)] }
def port0 (x : PortState) : FPort := { FPort.reset with st := x }
def table8 : RouteTbl := { RouteTbl.reset with loaded := true, hops := 8 }

/-- A whole flit with sequence number 1 and nothing else. -/
def flit1 : List Byte := let b := [1] ++ zeros 631; b ++ leBytes 8 (crc64 b).toNat

/-- Press's tree of VF 0: one 2 MiB page of the pool at address 0. -/
def tree0 : Memory := [(0, 0x1000), (0x1000, 0x2001), (0x2000, 0x3001), (0x3000, 0x4001), (0x4000, 7)].foldl
  (fun m e => memWrite m (keyTable e.1) (leBytes 8 e.2)) []

def msg0 (m : BitVec 12) (g : BitVec 8) : CollMsg := ⟨0, g, m, 0, 0, 0, 0, 0, 0, .fbar, 0, 0, .arrive []⟩
def kick0 : Kick := ⟨0, false, false, none, none⟩
def ringed (l : List Kick) : Vf := { vf0 with rings := [(15, l)], qrcb := [(15, 256)] }
def serve (f : Vf) (s : State) : State := { s with vfs := [(0, f)], phase := 6 }
def wait1 : Launch := { launch0 with st := .waiting, order := 1 }
def wait2 : Launch := { wait1 with rcb := { rcb0 with prio := 7 }, queue := 1, order := 2 }
def graph0 (kids : List Nat) : Launch := { launch0 with rcb := { rcb0 with kind := 3, children := kids } }
def lset (l : Tbl Launch) (s : State) : State := { s with launches := l }
def gset (g : Gang) (s : State) : State := { s with gangs := [(0, g)] }


theorem elems_zero : Source.elems ⟨6, zeros 4096, [], []⟩ = List.replicate 1024 0 := by decide +kernel

theorem getD_zero (n : Nat) : (Source.elems ⟨6, zeros 4096, [], []⟩).getD n 0 = 0 := by
  rw [elems_zero, List.getD_eq_getElem?_getD, List.getElem?_replicate]; split <;> rfl

/-! ## Witnesses of the statements -/

theorem witness_CanonicalMemoryKept :
    ∃ s t : State, s.Canonical ∧ step s = .next t :=
  ⟨State.reset, _, (canon (by decide)), rfl⟩

theorem witness_DecodeOfEncode :
    ∃ (c : DCtx) (i : Instr) (w : IWord), encode i = some w ∧ i.canonical = true ∧ i.check c = [] :=
  ⟨⟨.tenant, 15⟩, .add h0 (.x 63) (.x 1) (.x 0), _, rfl, (by decide), (by decide)⟩

theorem witness_EncodeOfDecode :
    ∃ (c : DCtx) (i : Instr) (w : IWord), decodeWord c w = .ok i :=
  ⟨⟨.tenant, 0⟩, _, 0x0C8000808040, rfl⟩

theorem witness_IllegalWordsTrap :
    (∃ (c : DCtx) (w : IWord), fTag w = 7) ∧
    (∃ (c : DCtx) (w : IWord), fTag w = 0 ∧ 0x38 ≤ fOp w ∧ fOp w ≠ 0x3F) ∧
    (∃ (c : DCtx) (w : IWord), fOp w ≠ 0x3F ∧ (fTag w = 1 ∧ 0x26 < fOp w ∨ fTag w = 2 ∧ 0x0D < fOp w ∨ fTag w = 3 ∧
        0x07 < fOp w ∨ fTag w = 4 ∧ 0x0E < fOp w ∨ fTag w = 5 ∧ 0x0B < fOp w ∧ fOp w < 0x30 ∨ fTag w = 5 ∧
        0x32 < fOp w ∨ fTag w = 6 ∧ 0x02 < fOp w)) ∧
    (∃ (c : DCtx) (w : IWord), c.ctx = .tenant ∧ fTag w = 0 ∧ 0x30 ≤ fOp w ∧ fOp w ≤ 0x37) ∧
    (∃ (c : DCtx) (w : IWord), c.ctx = .tenant ∧ fTag w = 5 ∧ 0x30 ≤ fOp w ∧ fOp w ≤ 0x32) ∧
    (∃ (c : DCtx) (w : IWord), c.ctx = .proof ∧ fTag w = 5 ∧ 0x30 ≤ fOp w ∧ fOp w ≤ 0x32) ∧
    (∃ (c : DCtx) (w : IWord), c.ctx = .press ∧ fTag w = 0 ∧
        (fOp w = 0x30 ∨ fOp w = 0x31 ∨ fOp w = 0x34 ∨ fOp w = 0x35 ∨ fOp w = 0x37)) ∧
    (∃ (l : BitVec 4) (h : Hdr) (d a b : BitVec 6) (w : IWord), encode (.frz h (.x d) (.x a) (.x b)) = some w) :=
  ⟨⟨⟨.tenant, 0⟩, 0xFFFFFFFFFFFF, (by decide)⟩,
   ⟨⟨.tenant, 0⟩, 0x1C0000000000, (by decide), (by decide), (by decide)⟩,
   ⟨⟨.tenant, 0⟩, 0x338000000000, (by decide), (by decide)⟩,
   ⟨⟨.tenant, 0⟩, 0x180000000000, (by decide), (by decide), (by decide), (by decide)⟩,
   ⟨⟨.tenant, 0⟩, 0xB80000000000, (by decide), (by decide), (by decide), (by decide)⟩,
   ⟨⟨.proof, 0⟩, 0xB80000000000, (by decide), (by decide), (by decide), (by decide)⟩,
   ⟨⟨.press, 0⟩, 0x180000000000, (by decide), (by decide), (by decide)⟩,
   ⟨0, h0, 63, 63, 63, _, rfl⟩⟩

theorem witness_StepRunsTheDecodedWord :
    (∃ (s : State) (c : Nat) (w : Walker) (i : Instr), s.inputs = [] ∧ dueEvent s = none ∧ endedCore s = none ∧
        nextWalker s = some (c, w) ∧ ((s.core c).w w).blocked = false ∧ ((s.core c).w w).readyAt ≤ (s.core c).time ∧
        ((s.core c).w w).passes < 4 ∧ (s.core c).slipOk w = true ∧ ((s.core c).w w).index < (s.core c).words ∧
        (isTransfer (s.textWord c ((s.core c).w w).index) = true → w = .C) ∧
        mine w (s.textWord c ((s.core c).w w).index) = true ∧ ((s.core c).w w).rep = none ∧
        decodeWord (s.dctx c) (s.textWord c ((s.core c).w w).index) = .ok i) ∧
    (∃ (s : State) (c : Nat) (w : Walker) (i : Instr), s.inputs = [] ∧ dueEvent s = none ∧ endedCore s = none ∧
        nextWalker s = some (c, w) ∧ ((s.core c).w w).blocked = false ∧ ((s.core c).w w).readyAt ≤ (s.core c).time ∧
        ((s.core c).w w).passes < 4 ∧ (s.core c).slipOk w = true ∧ ((s.core c).w w).index < (s.core c).words ∧
        (isTransfer (s.textWord c ((s.core c).w w).index) = true → w = .C) ∧
        mine w (s.textWord c ((s.core c).w w).index) = true ∧ ∃ (r : RepSt) (word : IWord),
        ((s.core c).w w).rep = some r ∧
        steppedWord (s.textWord c ((s.core c).w w).index) ((r.iter : Int) * r.regstep) = some word ∧
        decodeWord (s.dctx c) word = .ok i) :=
  ⟨⟨text core0 0x0C8000808040, 0, .C, _, (by decide), (by decide), (by decide), (by decide), (by decide),
      (by decide), (by decide), (by decide), (by decide), (by decide), (by decide), (by decide), rfl⟩,
   ⟨text { core0 with wC := { run with rep := some ⟨1, 0, 0, 0, 0⟩ } } 0x0C8000808040, 0, .C, _, (by decide),
       (by decide), (by decide), (by decide), (by decide), (by decide), (by decide), (by decide), (by decide),
       (by decide), (by decide), _, _, rfl, rfl, rfl⟩⟩

theorem witness_StepRunsEventsFirst :
    (∃ (s : State) (i : Instr) (l : List Instr), s.inputs = i :: l) ∧
    (∃ (s t : State) (i : Instr), s.inputs = [] ∧ dueEvent s = some (i, t)) ∧
    (∃ (s : State) (c : Nat), s.inputs = [] ∧ dueEvent s = none ∧ endedCore s = some c) ∧
    (∃ s : State, s.inputs = [] ∧ dueEvent s = none ∧ endedCore s = none ∧ nextWalker s = none) :=
  ⟨⟨{ s0 with inputs := [.sensorTrip] }, .sensorTrip, [], (by decide)⟩,
   ⟨{ s0 with agenda := [(0, .sensorTrip)] }, _, .sensorTrip, (by decide), rfl⟩,
   ⟨ended, 0, (by decide), (by decide), (by decide)⟩,
   ⟨State.reset, (by decide), (by decide), (by decide), (by decide)⟩⟩

theorem witness_ScalarOperands :
    (∃ (o : Origin) (s : State), (s.core o.core).scoreboard.contains 0 = false) ∧
    (∃ (o : Origin) (s : State) (r : BitVec 6), r ≠ 0 ∧ (s.core o.core).scoreboard.contains r.toNat = false) ∧
    (∃ (o : Origin) (s : State) (r : BitVec 6), (s.core o.core).scoreboard.contains r.toNat = true) ∧
    (∃ (o : Origin) (s : State) (hi lo : Walker), hi ∈ (s.core o.core).counted ∧ lo ∈ (s.core o.core).counted ∧
        (∀ w ∈ (s.core o.core).counted,
        ((s.core o.core).w w).steps < ((s.core o.core).w hi).steps ∨ ((s.core o.core).w w).steps = ((s.core o.core).w hi).steps ∧
        walkerNum hi ≤ walkerNum w) ∧ (∀ w ∈ (s.core o.core).counted,
        ((s.core o.core).w lo).steps < ((s.core o.core).w w).steps ∨ ((s.core o.core).w w).steps = ((s.core o.core).w lo).steps ∧
        walkerNum lo ≤ walkerNum w)) ∧
    (∃ (o : Origin) (s : State), (s.core o.core).counted = []) ∧
    (∃ (o : Origin) (s : State) (q : BitVec 5), s.queue o.core q.toNat = []) ∧
    (∃ (o : Origin) (s : State) (q : BitVec 5) (e : QEntry) (l : List QEntry), s.queue o.core q.toNat = e :: l ∧
        e.wait ≠ none) ∧
    (∃ (o : Origin) (s : State) (q : BitVec 5) (e : QEntry) (l : List QEntry), s.queue o.core q.toNat = e :: l ∧
        e.wait = none) ∧
    (∃ (o : Origin) (s : State) (v : Word), (s.core o.core).scoreboard.contains 0 = false) ∧
    (∃ (o : Origin) (s : State) (r : BitVec 6) (v : Word), r ≠ 0 ∧
        (s.core o.core).scoreboard.contains r.toNat = false) ∧
    (∃ (o : Origin) (s : State) (q : BitVec 5) (v : Word), q.toNat < 16 ∧
        (s.queue o.core q.toNat).length + Tbl.get (s.core o.core).popped q.toNat 0 < 16 ∧
        (∀ e ∈ s.queue o.core q.toNat, e.wait ≠ some o.age)) ∧
    (∃ (o : Origin) (s : State) (q : BitVec 5) (v : Word), s.queueRoom o.core q = false) :=
  ⟨⟨o0 .C, s0, (by decide)⟩,
   ⟨o0 .C, s0, 63, (by decide), (by decide)⟩,
   ⟨o0 .C, st { core0 with scoreboard := [63] }, 63, (by decide)⟩,
   ⟨o0 .C, st { core0 with wV := { run with steps := 3 } }, .V, .C, (by decide), (by decide), (by decide +kernel),
       (by decide +kernel)⟩,
   ⟨o0 .C, State.reset, (by decide)⟩,
   ⟨o0 .C, s0, 31, (by decide)⟩,
   ⟨o0 .C, que ⟨voidTag, 0, some 0⟩, 0, _, _, rfl, (by decide)⟩,
   ⟨o0 .C, que ⟨voidTag, 0, none⟩, 0, _, _, rfl, (by decide)⟩,
   ⟨o0 .C, s0, 7, (by decide)⟩,
   ⟨o0 .C, s0, 63, 7, (by decide), (by decide)⟩,
   ⟨o0 .C, st { core0 with queues := [(15, List.replicate 15 ⟨voidTag, 0, none⟩)] }, 15, 7, (by decide), (by decide),
       (by decide)⟩,
   ⟨o0 .C, st { core0 with queues := [(15, full16)] }, 15, 7, (by decide)⟩⟩

theorem witness_LatchesApplyAtCycleEnd :
    (∃ (s : State) (c : Nat), (s.core c).frozen ≠ none) ∧
    (∃ (s : State) (c : Nat), (s.core c).frozen = none ∧ (s.core c).latches.any Latch.isTidy = false) ∧
    (∃ (s : State) (c : Nat) (r : BitVec 6), (s.core c).frozen = none ∧ (∀ v, Latch.xreg r v ∉ (s.core c).latches)) ∧
    (∃ (s : State) (c : Nat) (l1 l2 : List Latch) (r : BitVec 6) (v : Word), (s.core c).frozen = none ∧ r ≠ 0 ∧
        (s.core c).latches = l1 ++ .xreg r v :: l2 ∧ (∀ u, Latch.xreg r u ∉ l2)) ∧
    (∃ (s : State) (c : Nat) (l1 l2 : List Latch) (n : Nat), (s.core c).frozen = none ∧
        (s.core c).latches = l1 ++ .slip n :: l2 ∧ (∀ m, Latch.slip m ∉ l2)) ∧
    (∃ (s : State) (c : Nat) (l1 l2 : List Latch) (n p : BitVec 6) (f : Byte), (s.core c).frozen = none ∧
        (s.core c).latches = l1 ++ .view n p f :: l2 ∧ (∀ p' f', Latch.view n p' f' ∉ l2)) ∧
    (∃ (s : State) (c : Nat) (l1 l2 : List Latch) (n : BitVec 4) (p : BitVec 6), (s.core c).frozen = none ∧
        (s.core c).latches = l1 ++ .aview n p :: l2 ∧ (∀ p', Latch.aview n p' ∉ l2)) ∧
    (∃ (s : State) (c : Nat) (l1 l2 : List Latch) (v : Bool), (s.core c).frozen = none ∧
        (s.core c).latches = l1 ++ .version v :: l2 ∧ (∀ u, Latch.version u ∉ l2)) ∧
    (∃ (s : State) (c off n : Nat), (s.core c).frozen = none ∧ Latch.fill off n ∈ (s.core c).latches) ∧
    (∃ (s : State) (c : Nat) (l1 l2 : List Latch) (n : BitVec 4) (v : Byte), (s.core c).frozen = none ∧
        tagOk (s.ownTag c) (s.ownTag c) = true ∧ (s.core c).latches = l1 ++ .sem n v :: l2 ∧
        (∀ u, Latch.sem n u ∉ l2) ∧ (∀ o, Latch.tidy o ∈ (s.core c).latches → o.post ≠ n ∧ o.post2 ≠ n)) ∧
    (∃ (s : State) (c : Nat) (l1 l2 : List Latch) (o : Origin), (s.core c).frozen = none ∧ o.core = c ∧ o.post ≠ 0 ∧
        o.post2 ≠ o.post ∧ tagOk (s.ownTag c) (s.ownTag c) = true ∧ (s.core c).latches = l1 ++ .tidy o :: l2 ∧
        (∀ u, Latch.sem o.post u ∉ l1 ++ l2) ∧ (∀ p, Latch.tidy p ∈ l1 ++ l2 → p.post ≠ o.post ∧ p.post2 ≠ o.post) ∧
        s.semVal c o.post < 255) :=
  ⟨⟨frz, 0, (by decide)⟩,
   ⟨lat (.slip 0), 0, (by decide), (by decide)⟩,
   ⟨s0, 0, 63, (by decide), (by intro u h; cases h)⟩,
   ⟨lat (.xreg 63 7), 0, [], [], 63, 7, (by decide), (by decide), rfl, (by intro u h; cases h)⟩,
   ⟨lat (.slip 0), 0, [], [], 0, (by decide), rfl, (by intro u h; cases h)⟩,
   ⟨lat (.view 63 63 0), 0, [], [], 63, 63, 0, (by decide), rfl, (by intro p f h; cases h)⟩,
   ⟨lat (.aview 15 63), 0, [], [], 15, 63, (by decide), rfl, (by intro u h; cases h)⟩,
   ⟨lat (.version true), 0, [], [], true, (by decide), rfl, (by intro u h; cases h)⟩,
   ⟨lat (.fill 0 64), 0, 0, 64, (by decide), List.mem_cons_self⟩,
   ⟨lat (.sem 15 255), 0, [], [], 15, 255, (by decide), (by decide), rfl, (by intro u h; cases h),
       (by intro o h; have h : Latch.tidy o ∈ [Latch.sem 15 255] := h; simp at h)⟩,
   ⟨lat (.tidy { o0 .C with post := 1 }), 0, [], [], { o0 .C with post := 1 }, (by decide), (by decide), (by decide),
       (by decide), (by decide), rfl, (by intro u h; cases h), (by intro u h; cases h), (by decide)⟩⟩

theorem witness_ArithmeticWordsComplete :
    (∃ (i : Instr) (h : Hdr) (d a b : Name) (f : Word → Word → Word) (s s1 s2 s3 : State) (x y : Word),
        binaryWord i = some (h, d, a, b, f) ∧ s.mayIssue .C h.wait ∧
        (src (s.word .C h) a).run (s.waited h.wait) = .ok (x, s1) ∧ (src (s.word .C h) b).run s1 = .ok (y, s2) ∧
        (dst (s.word .C h) d (f x y)).run s2 = .ok ((), s3)) ∧
    (∃ (i : Instr) (h : Hdr) (d a : Name) (f : Word → Word) (s s1 s2 : State) (x : Word),
        unaryWord i = some (h, d, a, f) ∧ s.mayIssue .C h.wait ∧
        (src (s.word .C h) a).run (s.waited h.wait) = .ok (x, s1) ∧
        (dst (s.word .C h) d (f x)).run s1 = .ok ((), s2)) :=
  ⟨⟨.add h0 (.x 63) (.x 1) (.x 0), h0, .x 63, .x 1, .x 0, _, s0, _, _, _, _, _, rfl,
      (may rfl (by decide) rfl rfl rfl rfl), rfl, rfl, rfl⟩,
   ⟨.popc h0 (.x 63) (.x 1), h0, .x 63, .x 1, _, s0, _, _, _, rfl, (may rfl (by decide) rfl rfl rfl rfl), rfl, rfl⟩⟩

theorem witness_NopRule :
    (∃ (h : Hdr) (s : State), s.mayIssue .C h.wait) ∧
    (∃ s : State, s.mayIssue .C 0 ∧ (s.core s.cur).wC.rep = none) ∧
    (∃ (h : Hdr) (s : State) (n : BitVec 4), s.mayIssue .C h.wait ∧ (s.core s.cur).wC.rep = none ∧ h.post = n ∧
        n ≠ 0 ∧ n ≠ h.wait ∧ s.semVal s.cur n + s.grantedWaits s.cur n < 255) :=
  ⟨⟨h0, s0, (may rfl (by decide) rfl rfl rfl rfl)⟩,
   ⟨s0, (may rfl (by decide) rfl rfl rfl rfl), (by decide)⟩,
   ⟨⟨0, 15⟩, s0, 15, (may rfl (by decide) rfl rfl rfl rfl), (by decide), (by decide), (by decide), (by decide),
       (by decide)⟩⟩

theorem witness_ImmediatesAndProductsComplete :
    (∃ (h : Hdr) (d : Name) (imm : BitVec 23) (s t : State), s.mayIssue .C h.wait ∧
        (dst (s.word .C h) d (imm.signExtend 64)).run (s.waited h.wait) = .ok ((), t)) ∧
    (∃ (h : Hdr) (d : Name) (imm : BitVec 23) (s s1 t : State) (x : Word), s.mayIssue .C h.wait ∧
        (src (s.word .C h) d).run (s.waited h.wait) = .ok (x, s1) ∧
        (dst (s.word .C h) d (BitVec.ofNat 64 (x.toNat * 2 ^ 23 + imm.toNat))).run s1 = .ok ((), t)) ∧
    (∃ (h : Hdr) (d a b : Name) (s s1 s2 s3 t : State) (m x y : Word), s.mayIssue .C h.wait ∧
        (src (s.word .C h) d).run (s.waited h.wait) = .ok (m, s1) ∧ (src (s.word .C h) a).run s1 = .ok (x, s2) ∧
        (src (s.word .C h) b).run s2 = .ok (y, s3) ∧ (dst (s.word .C h) d (if m = 0 then y else x)).run s3 = .ok ((),
        t)) ∧
    (∃ (h : Hdr) (d a b : Name) (s s1 s2 s3 : State) (x y : Word), s.mayIssue .C h.wait ∧
        (src (s.word .C h) a).run (s.waited h.wait) = .ok (x, s1) ∧ (src (s.word .C h) b).run s1 = .ok (y, s2) ∧
        (reserve (s.word .C h) d).run s2 = .ok ((), s3)) ∧
    (∃ (h : Hdr) (u : Bool) (d a b : Name) (s s1 s2 s3 : State) (x y : Word), s.mayIssue .C h.wait ∧
        (src (s.word .C h) a).run (s.waited h.wait) = .ok (x, s1) ∧ (src (s.word .C h) b).run s1 = .ok (y, s2) ∧
        (reserve (s.word .C h) d).run s2 = .ok ((), s3)) :=
  ⟨⟨h0, .x 63, 0x400000, s0, _, (may rfl (by decide) rfl rfl rfl rfl), rfl⟩,
   ⟨h0, .x 63, 0x7FFFFF, s0, _, _, _, (may rfl (by decide) rfl rfl rfl rfl), rfl, rfl⟩,
   ⟨h0, .x 63, .x 1, .x 0, s0, _, _, _, _, _, _, _, (may rfl (by decide) rfl rfl rfl rfl), rfl, rfl, rfl, rfl⟩,
   ⟨h0, .x 63, .x 1, .x 0, s0, _, _, _, _, _, (may rfl (by decide) rfl rfl rfl rfl), rfl, rfl, rfl⟩,
   ⟨h0, true, .x 63, .x 1, .x 0, s0, _, _, _, _, _, (may rfl (by decide) rfl rfl rfl rfl), rfl, rfl, rfl⟩⟩

theorem witness_TransfersComplete :
    (∃ (h : Hdr) (cond : BitVec 4) (r : Name) (off : BitVec 19) (s s1 : State) (v : Word) (tgt : Nat),
        cond.toNat < 8 ∧ s.mayIssue .C h.wait ∧ (condSrc (s.word .C h) cond r).run (s.waited h.wait) = .ok (v, s1) ∧
        (s1.core s.cur).outcomesRoom = true ∧ (condTrue cond v = true →
        ((s.word .C h).index : Int) + off.toInt = tgt ∧ tgt < (s1.core s.cur).words) ∧
        (condTrue cond v = false → tgt = ((s1.core s.cur).target (s.word .C h).index off).getD 0)) ∧
    (∃ (h : Hdr) (cond : BitVec 4) (r : Name) (off : BitVec 19) (s s1 : State) (v : Word) (tgt : Nat),
        cond.toNat < 8 ∧ s.mayIssue .C h.wait ∧ (condSrc (s.word .C h) cond r).run (s.waited h.wait) = .ok (v, s1) ∧
        (s1.core s.cur).outcomesRoom = true ∧ condTrue cond v = true ∧
        ((s.word .C h).index : Int) + off.toInt = tgt ∧ tgt < (s1.core s.cur).words ∧
        (s1.core s.cur).retStack.length < 16) ∧
    (∃ (h : Hdr) (cond : BitVec 4) (r : Name) (s s1 : State) (v : Word) (tgt : Nat) (l : List Nat), cond.toNat < 8 ∧
        s.mayIssue .C h.wait ∧ (condSrc (s.word .C h) cond r).run (s.waited h.wait) = .ok (v, s1) ∧
        (s1.core s.cur).outcomesRoom = true ∧ condTrue cond v = true ∧ (s1.core s.cur).retStack = tgt :: l ∧
        tgt < (s1.core s.cur).words) ∧
    (∃ (h : Hdr) (cond : BitVec 4) (r : Name) (off : BitVec 19) (s s1 s2 : State) (v : Word) (tgt : Nat),
        cond.toNat < 8 ∧ s.mayIssue .C h.wait ∧ (src (s.word .C h) r).run (s.waited h.wait) = .ok (v, s1) ∧
        (dst (s.word .C h) r (BitVec.ofInt 64 (v.toInt - 1))).run s1 = .ok ((), s2) ∧
        (s2.core s.cur).outcomesRoom = true ∧ condTrue cond (BitVec.ofInt 64 (v.toInt - 1)) = true ∧
        ((s.word .C h).index : Int) + off.toInt = tgt ∧ tgt < (s1.core s.cur).words) :=
  ⟨⟨h0, 0, .x 0, 99, s0, _, _, 99, (by decide), (may rfl (by decide) rfl rfl rfl rfl), rfl, (by decide),
      (fun _ => by decide), (fun h => absurd h (by decide))⟩,
   ⟨h0, 0, .x 0, 99, s0, _, _, 99, (by decide), (may rfl (by decide) rfl rfl rfl rfl), rfl, (by decide), (by decide),
       (by decide), (by decide), (by decide)⟩,
   ⟨h0, 1, .x 0, st { core0 with retStack := [99] }, _, _, 99, _, (by decide), (may rfl (by decide) rfl rfl rfl rfl),
       rfl, (by decide), (by decide), rfl, (by decide)⟩,
   ⟨h0, 2, .x 1, 99, s0, _, _, _, 99, (by decide), (may rfl (by decide) rfl rfl rfl rfl), rfl, rfl, (by decide),
       (by decide), (by decide), (by decide)⟩⟩

theorem witness_TransfersStay :
    (∃ (h : Hdr) (cond : BitVec 4) (r : Name) (off : BitVec 19) (s s1 : State) (v : Word), cond.toNat < 8 ∧
        s.mayIssue .C h.wait ∧ (condSrc (s.word .C h) cond r).run (s.waited h.wait) = .ok (v, s1) ∧
        (s1.core s.cur).outcomesRoom = true ∧ condTrue cond v = false) ∧
    (∃ (h : Hdr) (cond : BitVec 4) (r : Name) (off : BitVec 19) (s s1 s2 : State) (v : Word), cond.toNat < 8 ∧
        s.mayIssue .C h.wait ∧ (src (s.word .C h) r).run (s.waited h.wait) = .ok (v, s1) ∧
        (dst (s.word .C h) r (BitVec.ofInt 64 (v.toInt - 1))).run s1 = .ok ((), s2) ∧
        (s2.core s.cur).outcomesRoom = true ∧ condTrue cond (BitVec.ofInt 64 (v.toInt - 1)) = false) ∧
    (∃ (h : Hdr) (r : Name) (off : BitVec 19) (s : State), s.mayIssue .C h.wait ∧ h.wait = 0 ∧
        (s.core s.cur).outcomesRoom = true ∧
        (((s.word .C h).index : Int) + off.toInt < 0 ∨ ((s.core s.cur).words : Int) ≤ (s.word .C h).index + off.toInt)) ∧
    (∃ (h : Hdr) (r : Name) (off : BitVec 19) (s : State), s.mayIssue .C h.wait ∧ h.wait = 0 ∧
        (s.core s.cur).outcomesRoom = true ∧ (s.core s.cur).retStack.length = 16) ∧
    (∃ (h : Hdr) (r : Name) (off : BitVec 19) (s : State), s.mayIssue .C h.wait ∧ h.wait = 0 ∧
        (s.core s.cur).outcomesRoom = true ∧ (s.core s.cur).retStack = []) :=
  ⟨⟨h0, 2, .x 0, 0, s0, _, _, (by decide), (may rfl (by decide) rfl rfl rfl rfl), rfl, (by decide), (by decide)⟩,
   ⟨h0, 4, .x 1, 0, s0, _, _, _, (by decide), (may rfl (by decide) rfl rfl rfl rfl), rfl, rfl, (by decide),
       (by decide)⟩,
   ⟨h0, .x 0, 100, s0, (may rfl (by decide) rfl rfl rfl rfl), (by decide), (by decide), (by decide)⟩,
   ⟨h0, .x 0, 0, st { core0 with retStack := List.replicate 16 0 }, (may rfl (by decide) rfl rfl rfl rfl),
       (by decide), (by decide), (by decide)⟩,
   ⟨h0, .x 0, 0, s0, (may rfl (by decide) rfl rfl rfl rfl), (by decide), (by decide), (by decide)⟩⟩

theorem witness_SpillFillComplete :
    (∃ (h : Hdr) (d : BitVec 6) (off : BitVec 15) (s : State) (p : Nat), s.mayIssue .C h.wait ∧
        (off.toNat : Int) + ((s.core s.cur).w .C).addrAdd = p ∧ p % 8 = 0 ∧ p + 8 ≤ 2 ^ 14 ∧
        ((s.waited h.wait).core s.cur).scoreboard.contains d.toNat = false ∧
        ((s.waited h.wait).core s.cur).acquiring = false) ∧
    (∃ (h : Hdr) (d : BitVec 6) (off : BitVec 15) (s : State) (p : Nat), s.mayIssue .C h.wait ∧
        (off.toNat : Int) + ((s.core s.cur).w .C).addrAdd = p ∧ p % 64 = 0 ∧ p + 64 ≤ 2 ^ 14 ∧
        (∀ i < 8, ((s.waited h.wait).core s.cur).scoreboard.contains (d + BitVec.ofNat 6 i).toNat = false) ∧
        ((s.waited h.wait).core s.cur).acquiring = false) ∧
    (∃ (h : Hdr) (d : BitVec 6) (off : BitVec 15) (s t : State) (p : Nat), s.mayIssue .C h.wait ∧
        (off.toNat : Int) + ((s.core s.cur).w .C).addrAdd = p ∧ p % 8 = 0 ∧ p + 8 ≤ 2 ^ 14 ∧
        (reserve (s.word .C h) (.x d)).run (s.waited h.wait) = .ok ((), t) ∧
        ((s.waited h.wait).core s.cur).acquiring = false) ∧
    (∃ (h : Hdr) (d : BitVec 6) (off : BitVec 15) (s : State) (p a : Nat), s.mayIssue .C h.wait ∧
        (off.toNat : Int) + ((s.core s.cur).w .C).addrAdd = p ∧ p % 512 = 0 ∧ p + 512 ≤ 2 ^ 14 ∧
        ((s.waited h.wait).core s.cur).scoreboard.contains d.toNat = false ∧
        (((s.waited h.wait).core s.cur).readX d).toNat = a ∧ a % 512 = 0 ∧ a + 512 ≤ 0x40000 ∧
        (s.waited h.wait).full s.cur a 512 = true ∧ (s.waited h.wait).hits s.cur (keyRS s.cur a) 512 = false ∧
        ((s.waited h.wait).core s.cur).acquiring = false ∧
        ((s.waited h.wait).core s.cur).queuesMeet (keyRS s.cur a) 512 = false ∧
        ((s.waited h.wait).core s.cur).inText a 512 = false) ∧
    (∃ (h : Hdr) (d : BitVec 6) (off : BitVec 15) (s : State) (p a : Nat), s.mayIssue .C h.wait ∧
        (off.toNat : Int) + ((s.core s.cur).w .C).addrAdd = p ∧ p % 512 = 0 ∧ p + 512 ≤ 2 ^ 14 ∧
        ((s.waited h.wait).core s.cur).scoreboard.contains d.toNat = false ∧
        (((s.waited h.wait).core s.cur).readX d).toNat = a ∧ a % 512 = 0 ∧ a + 512 ≤ 0x40000 ∧
        (s.waited h.wait).full s.cur a 512 = true ∧ (s.waited h.wait).hits s.cur (keyRS s.cur a) 512 = false ∧
        ((s.waited h.wait).core s.cur).acquiring = false ∧
        ((s.waited h.wait).core s.cur).queuesMeet (keyRS s.cur a) 512 = false ∧
        (s.waited h.wait).wins s .C (banksOf a 512)) :=
  ⟨⟨h0, 63, 16376, s0, 16376, (may rfl (by decide) rfl rfl rfl rfl), (by decide), (by decide), (by decide),
      (by decide), (by decide)⟩,
   ⟨h0, 0, 16320, s0, 16320, (may rfl (by decide) rfl rfl rfl rfl), (by decide), (by decide), (by decide),
       (by decide), (by decide)⟩,
   ⟨h0, 63, 16376, s0, _, 16376, (may rfl (by decide) rfl rfl rfl rfl), (by decide), (by decide), (by decide), rfl,
       (by decide)⟩,
   ⟨h0, 63, 15872, st { core0 with x := [(63, 0x3FE00)] }, 15872, 0x3FE00, (may rfl (by decide) rfl rfl rfl rfl),
       (by decide), (by decide), (by decide), (by decide), (by decide), (by decide), (by decide),
       (by decide +kernel), (by decide +kernel), (by decide), (by decide), (by decide)⟩,
   ⟨h0, 63, 15872, st { core0 with x := [(63, 0x3FE00)] }, 15872, 0x3FE00, (may rfl (by decide) rfl rfl rfl rfl),
       (by decide), (by decide), (by decide), (by decide), (by decide), (by decide), (by decide),
       (by decide +kernel), (by decide +kernel), (by decide), (by decide), ((by decide : _ = 0#32))⟩⟩

theorem witness_SettingWordsComplete :
    (∃ (h : Hdr) (n : BitVec 6) (a : Name) (f : Byte) (s s1 : State) (v : Word), s.mayIssue .C h.wait ∧
        (src (s.word .C h) a).run (s.waited h.wait) = .ok (v, s1) ∧ v.toNat % 4096 = 0 ∧ v.toNat + 4096 ≤ 0x40000) ∧
    (∃ (h : Hdr) (n : BitVec 4) (a : Name) (f : Byte) (s s1 : State) (v : Word), s.mayIssue .C h.wait ∧
        (src (s.word .C h) a).run (s.waited h.wait) = .ok (v, s1) ∧ v.toNat % 4096 = 0 ∧ v.toNat + 12288 ≤ 0x40000) ∧
    (∃ (h : Hdr) (n : BitVec 13) (s : State), s.mayIssue .C h.wait) ∧
    (∃ (h : Hdr) (n v : Byte) (s : State), s.mayIssue .C h.wait) :=
  ⟨⟨h0, 63, .x 1, 2, st { core0 with x := [(1, 0x3F000)] }, _, _, (may rfl (by decide) rfl rfl rfl rfl), rfl,
      (by decide), (by decide)⟩,
   ⟨h0, 15, .x 1, 0, st { core0 with x := [(1, 0x3D000)] }, _, _, (may rfl (by decide) rfl rfl rfl rfl), rfl,
       (by decide), (by decide)⟩,
   ⟨h0, 8191, s0, (may rfl (by decide) rfl rfl rfl rfl)⟩,
   ⟨h0, 15, 255, s0, (may rfl (by decide) rfl rfl rfl rfl)⟩⟩

theorem witness_HaltTrapComplete :
    (∃ (h : Hdr) (s : State), s.mayIssue .C h.wait ∧ ((s.waited h.wait).core s.cur).started = []) ∧
    (∃ (h : Hdr) (s : State), s.mayIssue .C h.wait ∧ ((s.waited h.wait).core s.cur).started ≠ []) ∧
    (∃ (h : Hdr) (code : BitVec 23) (s : State), s.mayIssue .C h.wait) :=
  ⟨⟨h0, st { core0 with wV := WalkerSt.start, wM := WalkerSt.start, wX := WalkerSt.start, wG := WalkerSt.start, wF := WalkerSt.start },
      (may rfl (by decide) rfl rfl rfl rfl), (by decide)⟩,
   ⟨h0, s0, (may rfl (by decide) rfl rfl rfl rfl), (by decide)⟩,
   ⟨h0, 0x7FFFFF, s0, (may rfl (by decide) rfl rfl rfl rfl)⟩⟩

theorem witness_TrapEntry :
    (∃ (o : Origin) (cls : TrapClass) (code addr : Nat) (s : State), (s.core o.core).frozen ≠ none) ∧
    (∃ (o : Origin) (cls : TrapClass) (code addr : Nat) (s : State) (gv : Gang), (s.core o.core).frozen = none ∧
        (s.core o.core).ctx = .tenant ∧ s.gang (s.core o.core).gang = some gv ∧ gv.frozen = none ∧
        1 < gv.cores.length) ∧
    (∃ (o : Origin) (cls : TrapClass) (code addr : Nat) (s : State) (gv : Gang), (s.core o.core).frozen = none ∧
        (s.core o.core).ctx = .tenant ∧ s.gang (s.core o.core).gang = some gv ∧ gv.frozen = none ∧
        gv.cores.length ≤ 1) ∧
    (∃ (o : Origin) (cls : TrapClass) (code addr : Nat) (s : State), (s.core o.core).frozen = none ∧
        (s.core o.core).ctx ≠ .tenant) ∧
    (∃ (gang : Nat) (s : State) (gv : Gang), s.gang gang = some gv) ∧
    (∃ (gang : Nat) (o : Origin) (s : State) (gv : Gang) (p : Origin) (bs : List Byte), s.gang gang = some gv ∧
        gv.frozen = some .trap ∧ gv.cores.any (fun c => (s.home gang c).wordsOut) = false ∧ gv.records = [(p, bs)] ∧
        (s.saveNow gang).recordMay gang p = true) :=
  ⟨⟨o0 .C, .trap, 0, 0, frz, (by decide)⟩,
   ⟨o0 .C, .trap, 0, 0, ganged s0 { gang0 with cores := [0, 1] } launch0, _, (by decide), (by decide), rfl,
       (by decide), (by decide)⟩,
   ⟨o0 .C, .trap, 0, 0, ganged s0 gang0 launch0, _, (by decide), (by decide), rfl, (by decide), (by decide)⟩,
   ⟨o0 .C, .trap, 0, 0, st { core0 with ctx := .press }, (by decide), (by decide)⟩,
   ⟨0, ganged s0 gang0 launch0, _, rfl⟩,
   ⟨0, o0 .C, gset { held0 with records := [(o0 .C, [])] } s0, _, _, _, rfl, (by decide), (by decide), rfl,
       (by decide +kernel)⟩⟩

theorem witness_MemoryWordsIssue :
    (∃ (h : Hdr) (size : BitVec 2) (sx rs : Bool) (d a b : Name) (s s1 s2 s3 : State) (x y : Word) (key : Nat),
        s.mayIssue .C h.wait ∧ (src (s.word .C h) a).run (s.waited h.wait) = .ok (x, s1) ∧
        (src (s.word .C h) b).run s1 = .ok (y, s2) ∧ (s2.core s.cur).loads < 16 ∧
        (let ea := x + y + BitVec.ofInt 64 ((s2.core s.cur).w .C).addrAdd
      memPlace s2 s.cur rs false ea.toNat (2 ^ size.toNat) = some key ∧
          s2.accessFree s.cur (some key) (2 ^ size.toNat) = true ∧ (reserve (s.word .C h) d).run s2 = .ok ((), s3))) ∧
    (∃ (h : Hdr) (size : BitVec 2) (sx rs : Bool) (sc : Scope) (d a : Name) (s s1 s3 : State) (x : Word) (key : Nat),
        s.mayIssue .C h.wait ∧ (src (s.word .C h) a).run (s.waited h.wait) = .ok (x, s1) ∧
        (demandScope (s.word .C h) sc).run s1 = .ok ((), s1) ∧ (s1.core s.cur).loads < 16 ∧
        (let ea := x + BitVec.ofInt 64 ((s1.core s.cur).w .C).addrAdd
      memPlace s1 s.cur rs false ea.toNat (2 ^ size.toNat) = some key ∧
          s1.accessFree s.cur (some key) (2 ^ size.toNat) = true ∧ (reserve (s.word .C h) d).run s1 = .ok ((), s3))) ∧
    (∃ (h : Hdr) (size : BitVec 2) (rs : Bool) (d a b : Name) (s s1 s2 s3 : State) (v x y : Word) (key : Nat),
        s.mayIssue .C h.wait ∧ (src (s.word .C h) d).run (s.waited h.wait) = .ok (v, s1) ∧
        (src (s.word .C h) a).run s1 = .ok (x, s2) ∧ (src (s.word .C h) b).run s2 = .ok (y, s3) ∧
        (s3.core s.cur).stores < 16 ∧ (let ea := x + y + BitVec.ofInt 64 ((s3.core s.cur).w .C).addrAdd
      memPlace s3 s.cur rs true ea.toNat (2 ^ size.toNat) = some key ∧
          s3.accessFree s.cur (some key) (2 ^ size.toNat) = true ∧
          (rs = true → (s3.core s.cur).inText ea.toNat (2 ^ size.toNat) = false))) ∧
    (∃ (h : Hdr) (size : BitVec 2) (rs : Bool) (sc : Scope) (d a : Name) (s s1 s2 : State) (v x : Word) (key : Nat),
        s.mayIssue .C h.wait ∧ (src (s.word .C h) d).run (s.waited h.wait) = .ok (v, s1) ∧
        (src (s.word .C h) a).run s1 = .ok (x, s2) ∧ (demandScope (s.word .C h) sc).run s2 = .ok ((), s2) ∧
        (s2.core s.cur).stores < 16 ∧ (let ea := x + BitVec.ofInt 64 ((s2.core s.cur).w .C).addrAdd
      memPlace s2 s.cur rs true ea.toNat (2 ^ size.toNat) = some key ∧
          s2.accessFree s.cur (some key) (2 ^ size.toNat) = true ∧
          (rs = true → (s2.core s.cur).inText ea.toNat (2 ^ size.toNat) = false))) ∧
    (∃ (h : Hdr) (s : State), s.mayIssue .C h.wait ∧ ((s.waited h.wait).core s.cur).loads < 16 ∧
        ((s.waited h.wait).core s.cur).stores < 16) ∧
    (∃ (h : Hdr) (sc : Scope) (s : State), s.mayIssue .C h.wait ∧
        (demandScope (s.word .C h) sc).run (s.waited h.wait) = .ok ((), s.waited h.wait)) :=
  ⟨⟨h0, 3, true, true, .x 63, .x 1, .x 0, st { core0 with x := [(1, 0x3FFF8)] }, _, _, _, _, _, _,
      (may rfl (by decide) rfl rfl rfl rfl), rfl, rfl, (by decide), rfl, (by decide +kernel), rfl⟩,
   ⟨h0, 3, true, true, .chip, .x 63, .x 1, st { core0 with x := [(1, 0x3FFF8)] }, _, _, _, _,
       (may rfl (by decide) rfl rfl rfl rfl), rfl, rfl, (by decide), rfl, (by decide +kernel), rfl⟩,
   ⟨h0, 3, true, .x 2, .x 1, .x 0, st { core0 with x := [(1, 0x3FFF8)] }, _, _, _, _, _, _, _,
       (may rfl (by decide) rfl rfl rfl rfl), rfl, rfl, rfl, (by decide), rfl, (by decide +kernel),
       (fun _ => by decide)⟩,
   ⟨h0, 3, true, .chip, .x 2, .x 1, st { core0 with x := [(1, 0x3FFF8)] }, _, _, _, _, _,
       (may rfl (by decide) rfl rfl rfl rfl), rfl, rfl, rfl, (by decide), rfl, (by decide +kernel),
       (fun _ => by decide)⟩,
   ⟨h0, st { core0 with lq := List.replicate 15 markQ, sq := List.replicate 15 markQ },
       (may rfl (by decide) rfl rfl rfl rfl), (by decide), (by decide)⟩,
   ⟨h0, .chip, s0, (may rfl (by decide) rfl rfl rfl rfl), rfl⟩⟩

theorem witness_QueueHeadsPerform :
    (∃ (c : Nat) (s : State) (o : Origin) (n : Nat) (sx : Bool) (key : Nat) (d : Name) (l : List QOp) (r : Option Nat),
        (s.core c).lq = ⟨o, .load n sx key d false, r⟩ :: l ∧ isVault key = true ∧
        (∀ e ∈ (s.core c).sq, e.o.age < o.age → e.bytes = none) ∧ l ≠ []) ∧
    (∃ (c : Nat) (s : State) (e f : QOp) (l l' : List QOp), (s.core c).lq = e :: l ∧ (s.core c).sq = f :: l' ∧
        e.op = .mark ∧ f.op = .mark ∧ e.o.age = f.o.age) ∧
    (∃ (s : State) (tag : Tag) (key : Nat) (bs : List Byte),
        (∀ i < bs.length, s.recordByte tag.vf (key + i) = false)) ∧
    (∃ (c : Nat) (s : State) (o : Origin) (n key r : Nat) (v : Word) (rel : Option Scope) (l : List QOp),
        (s.core c).sq = ⟨o, .store n key v rel, some r⟩ :: l ∧ isVault key = true ∧ r ≤ (s.core c).time ∧
        (s.core c).lq = []) :=
  ⟨⟨0, loads (.load 8 true key0 (.x 63) false) [] [markQ], _, _, _, _, _, _, _, rfl, (by decide), (by decide),
      (by decide)⟩,
   ⟨0, st { core0 with lq := [markQ], sq := [markQ] }, _, _, _, _, rfl, rfl, rfl, rfl, rfl⟩,
   ⟨s0, tag1, key0, [1], (by decide)⟩,
   ⟨0, st { core0 with sq := [⟨o0 .C, .store 8 key0 7 none, some 0⟩] }, _, _, _, _, _, _, _, rfl, (by decide),
       (by decide), (by decide)⟩⟩

theorem witness_WriteThenRead :
    (∃ (s : State) (tag : Tag) (k : Nat) (bs : List Byte), isTagged k = true ∧ bs ≠ [] ∧
        k % unitSize k + bs.length ≤ unitSize k ∧ tag.gen ≠ 0 ∧ s.Canonical) ∧
    (∃ (s : State) (own : Tag) (k n : Nat), isTagged k = true ∧ k % unitSize k + n ≤ unitSize k ∧
        (s.tagAt k ≠ own ∨ own.gen = 0)) ∧
    (∃ (s : State) (tag : Tag) (k : Nat) (bs : List Byte) (a : Nat), isTagged k = true ∧
        k % unitSize k + bs.length ≤ unitSize k ∧ (a < unitOf k ∨ unitOf k + unitSize k ≤ a) ∧ s.Canonical) ∧
    (∃ (s : State) (tag : Tag) (k : Nat) (bs : List Byte) (a : Nat), isTagged k = true ∧ s.tagAt k = tag ∧
        tag.gen ≠ 0 ∧ k % unitSize k + bs.length ≤ unitSize k ∧ (a < k ∨ k + bs.length ≤ a) ∧ s.Canonical) :=
  ⟨⟨s0, ⟨false, 0, 1⟩, keyVault 255 63, [1], (by decide), (by decide), (by decide), (by decide), (canon (by decide))⟩,
   ⟨s0, ⟨false, 0, 1⟩, keyVault 255 0, 64, (by decide), (by decide), (by decide)⟩,
   ⟨s0, ⟨false, 0, 1⟩, keyVault 255 63, [1], keyVault 255 64, (by decide), (by decide), (by decide),
       (canon (by decide))⟩,
   ⟨text core0 1, ⟨false, 0, 1⟩, keyRS 0 0, [1], keyRS 0 1, (by decide), (by decide), (by decide), (by decide),
       (by decide), (canon (by decide))⟩⟩

theorem witness_AtomicsIssue :
    ∃ (i : Instr) (h : Hdr) (op : AtomOp) (z u : Bool) (d a b : Name) (s s1 s2 s3 s4 : State) (e x v : Word) (key : Nat),
        atomicWord i = some (h, op, z, u, d, a, b) ∧ s.mayIssue .C h.wait ∧
        (if op = .cas then (src (s.word .C h) d).run (s.waited h.wait) = .ok (e, s1) else e = 0 ∧
        s1 = s.waited h.wait) ∧ (src (s.word .C h) a).run s1 = .ok (x, s2) ∧
        (src (s.word .C h) b).run s2 = .ok (v, s3) ∧ (s3.core s.cur).stores < 16 ∧ (s3.core s.cur).ctx = .tenant ∧
        x.toNat % (if z then 8 else 4) = 0 ∧ s3.vaultKey (s3.core s.cur).vf x.toNat = some key ∧
        s3.accessFree s.cur (some key) (if z then 8 else 4) = true ∧
        (reserve (s.word .C h) d).run s3 = .ok ((), s4) :=
  ⟨.acas h0 true (.x 63) (.x 0) (.x 1), h0, .cas, true, false, .x 63, .x 0, .x 1, withVf s0, _, _, _, _, _, _, _,
      keyVault 0 0, rfl, (may rfl (by decide) rfl rfl rfl rfl), rfl, rfl, rfl, (by decide), (by decide), (by decide),
      (by decide +kernel), (by decide +kernel), rfl⟩

theorem witness_AtomicActs :
    (∃ (o : Origin) (req : AtomicReq) (d : Name) (rem : Nat) (s : State),
        (∀ e ∈ s.agenda, e.1 ≤ s.now → ∀ o' r d' m, e.2 = .atomicAtWriteQueue o' r d' m → o'.core < o.core →
        r.key / 64 ≠ req.key / 64) ∧ s.gen req.vf = req.gen ∧ (let n := if req.dbl then 8 else 4
      (let tag : Tag := ⟨false, req.vf, req.gen⟩
      s.anyBad tag req.key n = false))) ∧
    (∃ (o : Origin) (req : AtomicReq) (d : Name) (rem : Nat) (s : State),
        (∀ e ∈ s.agenda, e.1 ≤ s.now → ∀ o' r d' m, e.2 = .atomicAtWriteQueue o' r d' m → o'.core < o.core →
        r.key / 64 ≠ req.key / 64) ∧ s.gen req.vf ≠ req.gen) ∧
    (∃ (o p : Origin) (req r : AtomicReq) (d d' : Name) (rem m t : Nat) (s : State),
        (t, Instr.atomicAtWriteQueue p r d' m) ∈ s.agenda ∧ t ≤ s.now ∧ p.core < o.core ∧ r.key / 64 = req.key / 64) ∧
    (∃ (o : Origin) (req : AtomicReq) (d : Name) (rem : Nat) (s : State),
        (∀ e ∈ s.agenda, e.1 ≤ s.now → ∀ o' r d' m, e.2 = .atomicAtWriteQueue o' r d' m → o'.core < o.core →
        r.key / 64 ≠ req.key / 64) ∧ s.gen req.vf = req.gen ∧
        s.anyBad ⟨false, req.vf, req.gen⟩ req.key (if req.dbl then 8 else 4) = true) :=
  ⟨⟨o0 .C, req0, .x 63, 0, s0, (fun _ h => absurd h List.not_mem_nil), (by decide), (by decide)⟩,
   ⟨o0 .C, { req0 with gen := 2 }, .x 63, 0, s0, (fun _ h => absurd h List.not_mem_nil), (by decide)⟩,
   ⟨{ o0 .C with core := 1 }, o0 .C, req0, req0, .x 63, .x 63, 0, 0, 0,
       { s0 with agenda := [(0, .atomicAtWriteQueue (o0 .C) req0 (.x 63) 0)] }, List.mem_cons_self, (by decide),
       (by decide), (by decide)⟩,
   ⟨o0 .C, req0, .x 63, 0, { s0 with tags := [(key0, ⟨false, 0, 1⟩)], poison := [key0] },
       (fun _ h => absurd h List.not_mem_nil), (by decide), (by decide)⟩⟩

theorem witness_ResultsLand :
    (∃ (o : Origin) (d : Name) (v : Word) (s : State), ((s.core o.core).w o.walker).blocked = false) ∧
    (∃ (o : Origin) (d : Name) (v : Word) (s : State), ((s.core o.core).w o.walker).blocked = true ∧
        ((s.core o.core).w o.walker).pend = 1) ∧
    (∃ (o : Origin) (d : Name) (v : Word) (s : State), (∀ e ∈ (s.core o.core).sq, e.o.age = o.age →
        (∀ n sc, e.op ≠ .tknext n sc) ∧ e.op ≠ .advanced)) ∧
    (∃ (o : Origin) (d : Name) (v : Word) (s : State) (e : QOp) (l : List QOp), (s.core o.core).sq = e :: l ∧
        e.o.age = o.age ∧ ∃ n sc, e.op = .tknext n sc) ∧
    (∃ (o : Origin) (d : Name) (v : Word) (s : State) (e : QOp) (l : List QOp), (s.core o.core).sq = e :: l ∧
        e.o.age = o.age ∧ e.op = .advanced) ∧
    (∃ (o : Origin) (d : Name) (v : Word) (s : State), (∀ l, Tbl.find s.launches v.toNat = some l → l.reason = 0)) ∧
    (∃ (o : Origin) (d : Name) (v : Word) (s : State) (l : Launch), Tbl.find s.launches v.toNat = some l ∧
        l.reason ≠ 0) ∧
    (∃ (s : State) (o : Origin) (r : BitVec 6) (v : Word), r ≠ 0 ∧ ∃ q, q ≠ r) ∧
    (∃ (o : Origin) (d : Name) (x : Word) (s : State) (l : Launch), Tbl.find s.launches x.toNat = some l) :=
  ⟨⟨o0 .C, .x 63, 7, s0, (by decide)⟩,
   ⟨o0 .C, .x 63, 7, st { core0 with wC := { run with blocked := true, pend := 1 } }, (by decide), (by decide)⟩,
   ⟨o0 .C, .x 63, 7, s0, (fun _ h => absurd h List.not_mem_nil)⟩,
   ⟨o0 .C, .x 63, 7, st { core0 with sq := [⟨o0 .C, .tknext 0 .core, none⟩] }, _, _, rfl, (by decide), 0, .core, rfl⟩,
   ⟨o0 .C, .x 63, 7, st { core0 with sq := [⟨o0 .C, .advanced, none⟩] }, _, _, rfl, (by decide), rfl⟩,
   ⟨o0 .C, .x 63, 1, ganged s0 gang0 launch0, (fun l h => by cases h; rfl)⟩,
   ⟨o0 .C, .x 63, 1, ganged s0 gang0 { launch0 with reason := 2 }, _, rfl, (by decide)⟩,
   ⟨s0, o0 .C, 63, 7, (by decide), 0, (by decide)⟩,
   ⟨o0 .C, .x 63, 1, ganged s0 gang0 launch0, _, rfl⟩⟩

theorem witness_TicketsComplete :
    (∃ (h : Hdr) (d : Name) (n : Byte) (s t : State), s.mayIssue .C h.wait ∧
        ((s.waited h.wait).core s.cur).stores < 16 ∧ (reserve (s.word .C h) d).run (s.waited h.wait) = .ok ((), t)) ∧
    (∃ (h : Hdr) (sc : Scope) (n : Byte) (a : Name) (s t : State) (x : Word), s.mayIssue .C h.wait ∧
        (src (s.word .C h) a).run (s.waited h.wait) = .ok (x, t) ∧ (t.core s.cur).loads < 16 ∧
        (demandScope (s.word .C h) sc).run t = .ok ((), t)) ∧
    (∃ (h : Hdr) (sc : Scope) (n : Byte) (s : State), s.mayIssue .C h.wait ∧
        ((s.waited h.wait).core s.cur).stores < 16 ∧ (demandScope (s.word .C h) sc).run (s.waited h.wait) = .ok ((),
        s.waited h.wait)) ∧
    (∃ (o : Origin) (v : BitVec 6) (n : Byte) (d : Name) (s : State),
        (∀ e ∈ s.agenda, e.1 ≤ s.now → atDispenser o.core v n e.2 = false) ∧ s.gen v ≠ 0) ∧
    (∃ (o : Origin) (tag : Tag) (n : Byte) (d : Name) (s : State),
        (∀ e ∈ s.agenda, e.1 ≤ s.now → atDispenser o.core tag.vf n e.2 = false) ∧ s.tagCurrent tag = false) ∧
    (∃ (c : Nat) (v : BitVec 6) (n : Byte) (s : State), (∀ e ∈ s.agenda, e.1 ≤ s.now →
        atDispenser c v n e.2 = false) ∧ s.gen v ≠ 0) ∧
    (∃ (o : Origin) (tag : Tag) (n : Byte) (d : Name) (t : Nat) (i : Instr) (s : State), (t, i) ∈ s.agenda ∧
        t ≤ s.now ∧ atDispenser o.core tag.vf n i = true) :=
  ⟨⟨h0, .x 63, 255, s0, _, (may rfl (by decide) rfl rfl rfl rfl), (by decide), rfl⟩,
   ⟨h0, .chip, 255, .x 1, s0, _, _, (may rfl (by decide) rfl rfl rfl rfl), rfl, (by decide), rfl⟩,
   ⟨h0, .chip, 255, s0, (may rfl (by decide) rfl rfl rfl rfl), (by decide), rfl⟩,
   ⟨o0 .C, 63, 255, .x 63, s0, (fun _ h => absurd h List.not_mem_nil), (by decide)⟩,
   ⟨o0 .C, ⟨false, 63, 2⟩, 255, .x 63, s0, (fun _ h => absurd h List.not_mem_nil), (by decide)⟩,
   ⟨0, 63, 255, s0, (fun _ h => absurd h List.not_mem_nil), (by decide)⟩,
   ⟨{ o0 .C with core := 1 }, ⟨false, 63, 1⟩, 255, .x 63, 0, .dispenserAdvance 0 ⟨false, 63, 1⟩ 255,
       { s0 with agenda := [(0, .dispenserAdvance 0 ⟨false, 63, 1⟩ 255)] }, List.mem_cons_self, (by decide),
       (by decide)⟩⟩

theorem witness_TensorEntries :
    (∃ (h : Hdr) (card : Name) (t : BitVec 12) (s s1 : State) (b : List Byte), s.mayIssue .C h.wait ∧
        ((s.waited h.wait).core s.cur).acquiring = false ∧
        (steppedRecord (s.word .C h) card 64 64).run (s.waited h.wait) = .ok (b, s1) ∧
        (field b 8 1 = 0 ∨ tdefOk b = true) ∧ (s1.core s.cur).ctx ≠ .tenant) ∧
    (∃ (h : Hdr) (card : Name) (t : BitVec 12) (s s1 : State) (b : List Byte), s.mayIssue .C h.wait ∧
        ((s.waited h.wait).core s.cur).acquiring = false ∧
        (steppedRecord (s.word .C h) card 64 64).run (s.waited h.wait) = .ok (b, s1) ∧
        (field b 8 1 = 0 ∨ tdefOk b = true) ∧ (s1.core s.cur).ctx = .tenant) ∧
    (∃ (h : Hdr) (card : Name) (t : BitVec 12) (s s1 : State) (b : List Byte), s.mayIssue .C h.wait ∧
        ((s.waited h.wait).core s.cur).acquiring = false ∧
        (steppedRecord (s.word .C h) card 64 64).run (s.waited h.wait) = .ok (b, s1) ∧ field b 8 1 ≠ 0 ∧
        tdefOk b = false) ∧
    (∃ (h : Hdr) (d : Name) (t : BitVec 12) (f : BitVec 5) (s s1 : State), s.mayIssue .C h.wait ∧
        ((s.waited h.wait).core s.cur).tdefPending t = false ∧
        (reserve (s.word .C h) d).run (s.waited h.wait) = .ok ((), s1)) :=
  ⟨⟨h0, .x 1, 4095, st { core0 with ctx := .press, x := [(1, 0x3FFC0)] }, _, _,
      (may rfl (by decide) rfl rfl rfl rfl), (by decide), rfl, (by decide), (by decide)⟩,
   ⟨h0, .x 1, 4095, st { core0 with x := [(1, 0x3FFC0)] }, _, _, (may rfl (by decide) rfl rfl rfl rfl), (by decide),
       rfl, (by decide), (by decide)⟩,
   ⟨h0, .x 1, 4095, rs (st { core0 with x := [(1, 1024)] }) 1032 [0xFF], _, _, (may rfl (by decide) rfl rfl rfl rfl),
       (by decide), rfl, (by decide), (by decide)⟩,
   ⟨h0, .x 63, 4095, 31, s0, _, (may rfl (by decide) rfl rfl rfl rfl), (by decide), rfl⟩⟩

theorem witness_LaunchWordsComplete :
    (∃ (h : Hdr) (d a b : Name) (q : BitVec 4) (s s1 s2 s3 : State) (x y : Word), s.mayIssue .C h.wait ∧
        (src (s.word .C h) a).run (s.waited h.wait) = .ok (x, s1) ∧ (src (s.word .C h) b).run s1 = .ok (y, s2) ∧
        (reserve (s.word .C h) d).run s2 = .ok ((), s3) ∧ (s2.core s.cur).ctx = .tenant ∧ x.toNat % 256 = 0 ∧
        s2.mapped (s2.core s.cur).vf x.toNat 256 = true ∧
        (y.toNat = 0 ∨ (s2.vaultKey (s2.core s.cur).vf y.toNat).isSome = true)) ∧
    (∃ (h : Hdr) (d a : Name) (s s1 s2 : State) (x : Word), s.mayIssue .C h.wait ∧
        (src (s.word .C h) a).run (s.waited h.wait) = .ok (x, s1) ∧ (reserve (s.word .C h) d).run s1 = .ok ((), s2) ∧
        s1.handled (s1.core s.cur).gang x = none) ∧
    (∃ (h : Hdr) (d a : Name) (s s1 s2 : State) (x : Word), s.mayIssue .C h.wait ∧
        (src (s.word .C h) a).run (s.waited h.wait) = .ok (x, s1) ∧ (reserve (s.word .C h) d).run s1 = .ok ((), s2) ∧
        ∃ l, s1.handled (s1.core s.cur).gang x = some l ∧ l.over = false) ∧
    (∃ (h : Hdr) (d a : Name) (s s1 s2 : State) (x : Word), s.mayIssue .C h.wait ∧
        (src (s.word .C h) a).run (s.waited h.wait) = .ok (x, s1) ∧ (reserve (s.word .C h) d).run s1 = .ok ((), s2) ∧
        ∃ l, s1.handled (s1.core s.cur).gang x = some l ∧ l.over = true) ∧
    (∃ (o : Origin) (age a patch : Nat) (q : BitVec 4) (d : Name) (s : State) (g : Gang) (l : Launch),
        s.relHolds o.core age .ten none = true ∧ s.gang (s.core o.core).gang = some g ∧
        Tbl.find s.launches g.launch = some l ∧
        (s.launches.filter (fun e => e.2.byGang = some (s.core o.core).gang && !e.2.collected)).length < 64 ∧
        s.ringFull (s.core o.core).vf q = false) ∧
    (∃ (o : Origin) (age a patch : Nat) (q : BitVec 4) (d : Name) (s : State) (g : Gang) (l : Launch),
        s.relHolds o.core age .ten none = true ∧ s.gang (s.core o.core).gang = some g ∧
        Tbl.find s.launches g.launch = some l ∧
        (s.launches.filter (fun e => e.2.byGang = some (s.core o.core).gang && !e.2.collected)).length < 64 ∧
        s.ringFull (s.core o.core).vf q = true) ∧
    (∃ (o : Origin) (age a patch : Nat) (q : BitVec 4) (d : Name) (s : State) (g : Gang) (l : Launch),
        s.relHolds o.core age .ten none = true ∧ s.gang (s.core o.core).gang = some g ∧
        Tbl.find s.launches g.launch = some l ∧
        64 ≤ (s.launches.filter (fun e => e.2.byGang = some (s.core o.core).gang && !e.2.collected)).length) :=
  ⟨⟨h0, .x 63, .x 0, .x 0, 15, withVf s0, _, _, _, _, _, (may rfl (by decide) rfl rfl rfl rfl), rfl, rfl, rfl,
      (by decide), (by decide), (by decide +kernel), (by decide)⟩,
   ⟨h0, .x 63, .x 1, s0, _, _, _, (may rfl (by decide) rfl rfl rfl rfl), rfl, rfl, (by decide)⟩,
   ⟨h0, .x 63, .x 1, ganged (st { core0 with x := [(1, 1)] }) gang0 { launch0 with byGang := some 0 }, _, _, _,
       (may rfl (by decide) rfl rfl rfl rfl), rfl, rfl, _, rfl, (by decide)⟩,
   ⟨h0, .x 63, .x 1,
       ganged (st { core0 with x := [(1, 1)] }) gang0 { launch0 with byGang := some 0, st := .retired }, _, _, _,
       (may rfl (by decide) rfl rfl rfl rfl), rfl, rfl, _, rfl, (by decide)⟩,
   ⟨o0 .C, 1, 0, 0, 15, .x 63, ganged (withVf s0) gang0 launch0, _, _, (by decide), rfl, rfl, (by decide +kernel),
       (by decide)⟩,
   ⟨o0 .C, 1, 0, 0, 15, .x 63,
       ganged { s0 with vfs := [(0, { vf0 with rings := [(15, List.replicate 16 ⟨0, false, false, none, none⟩)] })] } gang0 launch0,
       _, _, (by decide), rfl, rfl, (by decide +kernel), (by decide)⟩,
   ⟨o0 .C, 1, 0, 0, 15, .x 63,
       { withVf s0 with gangs := [(0, gang0)], launches := (List.range 65).map (fun i => (i, { launch0 with byGang := some 0 })) },
       _, _, (by decide), rfl, rfl, (by decide +kernel)⟩⟩

theorem witness_ReleasesTakeEffect :
    (∃ (o : Origin) (sc : Scope) (age : Nat) (s : State), s.relHolds o.core age sc none = false) ∧
    (∃ (o : Origin) (sc : Scope) (age : Nat) (s : State), s.relHolds o.core age sc none = true ∧
        s.fabricOpen o.core (s.core o.core).gang (some age) = 0) ∧
    (∃ (o : Origin) (sc : Scope) (age : Nat) (s : State),
        (s.relHolds o.core age sc none = false ∨ s.fabricOpen o.core (s.core o.core).gang (some age) ≠ 0)) ∧
    (∃ (o : Origin) (sc : Scope) (age id : Nat) (s : State) (g : Galley), Tbl.find s.galleys id = some g ∧
        s.relHoldsAt (s.home g.gang o.core) o.core age sc (some id) = false) ∧
    (∃ (o : Origin) (sc : Scope) (age gang : Nat) (n : Byte) (v : BitVec 6) (g : Byte) (s : State),
        (if (s.gang gang).isNone then s.linesHold o.core age sc = true else s.relHoldsAt (s.home gang o.core) o.core age sc none = false)) ∧
    (∃ (o : Origin) (v : BitVec 6) (report : Nat) (d : Name) (s : State), s.writesOut v = true) ∧
    (∃ (o : Origin) (v : BitVec 6) (report : Nat) (d : Name) (s : State), s.writesOut v = false) ∧
    (∃ (o : Origin) (sc : Scope) (age id : Nat) (s : State) (g : Galley), Tbl.find s.galleys id = some g ∧
        s.relHoldsAt (s.home g.gang o.core) o.core age sc (some id) = true) ∧
    (∃ (o : Origin) (sc : Scope) (age gang : Nat) (n : Byte) (v : BitVec 6) (g : Byte) (s : State),
        (if (s.gang gang).isNone then s.linesHold o.core age sc = false else s.relHoldsAt (s.home gang o.core) o.core age sc none = true)) :=
  ⟨⟨o0 .C, .chip, 1, st { core0 with sq := [markQ], lq := [⟨o0 .C, .load 8 true key0 (.x 63) false, none⟩] },
      (by decide)⟩,
   ⟨o0 .C, .chip, 1, s0, (by decide), (by decide)⟩,
   ⟨o0 .C, .core, 1, st { core0 with sq := [⟨o0 .C, .store 8 key0 0 none, some 0⟩] }, (.inl (by decide +kernel))⟩,
   ⟨o0 .C, .core, 1, 0,
       { gal galley0 with cores := [(0, { core0 with sq := [⟨o0 .C, .store 8 key0 0 none, some 0⟩] })] }, _, rfl,
       (by decide +kernel)⟩,
   ⟨o0 .C, .core, 1, 0, 0, 0, 0,
       ganged (st { core0 with sq := [⟨o0 .C, .store 8 key0 0 none, some 0⟩] }) gang0 launch0, (by decide +kernel)⟩,
   ⟨o0 .C, 0, 0, .x 63, { s0 with coalescer := [(0, line0)] }, (by decide +kernel)⟩,
   ⟨o0 .C, 0, 0, .x 63, s0, (by decide +kernel)⟩,
   ⟨o0 .C, .chip, 1, 0, gal galley0, _, rfl, (by decide)⟩,
   ⟨o0 .C, .chip, 1, 0, 255, 0, 1, s0, (by decide)⟩⟩

theorem witness_PrivilegedWordsComplete :
    (∃ (h : Hdr) (d a : Name) (s t : State) (v : BitVec 6), s.mayPrivilege .C h d a (.x 0) t ∧
        t.namedVf (s.xArg h a) = some v) ∧
    (∃ (h : Hdr) (d a b : Name) (s t : State) (v : BitVec 6), s.mayPrivilege .C h d a b t ∧
        t.namedVf (s.xArg h a) = some v ∧ t.hasRunning v = false ∧ (s.xArg h b).toNat % 64 = 0 ∧
        (s.xArg h b).toNat < 2 ^ 52) ∧
    (∃ (h : Hdr) (d a b : Name) (s t : State) (r : List Byte), s.mayPrivilege .C h d a b t ∧
        (s.xArg h a).toNat < 64 ∧ (t.vf (s.xArg h a).toNat).created = false ∧
        t.hasGang ((s.xArg h a).setWidth 6) = false ∧ t.mgmtRecord (s.xArg h b).toNat 1024 = some r ∧
        t.recordOk (s.xArg h a).toNat r = true) ∧
    (∃ (h : Hdr) (d a b : Name) (s t : State) (v : BitVec 6) (g : Nat) (gv : Gang), s.mayPrivilege .C h d a b t ∧
        t.namedVf (s.xArg h a) = some v ∧ t.gangHolding v (s.xArg h b).toNat = some (g, gv) ∧ gv.frozen = none ∧
        gv.cores.length ≤ t.freeSlots v) ∧
    (∃ (h : Hdr) (d a b : Name) (s t : State) (v : BitVec 6) (g : Nat) (gv : Gang), s.mayPrivilege .C h d a b t ∧
        t.namedVf (s.xArg h a) = some v ∧ (t.vf v.toNat).status ≠ .stopped ∧
        t.gangHolding v (s.xArg h b).toNat = some (g, gv) ∧ gv.frozen = some .trap ∧ gv.saved = true ∧
        gv.records = [] ∧ gv.cores.all (t.coreFreeFor g) = true) ∧
    (∃ (h : Hdr) (d a b : Name) (s t : State) (v : BitVec 6) (r : List Byte), s.mayPrivilege .C h d a b t ∧
        t.namedVf (s.xArg h a) = some v ∧ t.mgmtRecord (s.xArg h b).toNat 64 = some r ∧ field r 41 1 ≤ 1 ∧
        field r 42 2 ≤ 63 ∧ field r 44 20 = 0) ∧
    (∃ (h : Hdr) (all : Bool) (d a b : Name) (s t : State) (v : BitVec 6), s.mayPrivilege .C h d a b t ∧
        t.namedVf (s.xArg h a) = some v ∧ (all = true ∨ (s.xArg h b).toNat < 256)) ∧
    (∃ (h : Hdr) (d a b : Name) (s t : State) (v : BitVec 6), s.mayPrivilege .C h d a b t ∧
        t.namedVf (s.xArg h a) = some v ∧ (s.xArg h b).toNat < 4) ∧
    (∃ (h : Hdr) (d : Name) (s t : State), s.mayPrivilege .C h d (.x 0) (.x 0) t) :=
  ⟨⟨h0, .x 63, .x 0, withVf s0, _, 0, (mayP (may rfl (by decide) rfl rfl rfl rfl) rfl rfl rfl rfl), (by decide)⟩,
   ⟨h0, .x 63, .x 0, .x 1, withVf (reg 1 0xFFFFFFFFFFFC0), _, 0,
       (mayP (may rfl (by decide) rfl rfl rfl rfl) rfl rfl rfl rfl), (by decide), (by decide), (by decide),
       (by decide)⟩,
   ⟨h0, .x 63, .x 0, .x 1, reg 1 0x80000, _, zeros 1024,
       (mayP (may rfl (by decide) rfl rfl rfl rfl) rfl rfl rfl rfl), (by decide), (by decide), (by decide),
       (by decide +kernel), (by decide +kernel)⟩,
   ⟨h0, .x 63, .x 0, .x 0, ganged (withVf s0) gang0 launch0, _, 0, 0, gang0,
       (mayP (may rfl (by decide) rfl rfl rfl rfl) rfl rfl rfl rfl), (by decide), (by decide), (by decide),
       (by decide +kernel)⟩,
   ⟨h0, .x 63, .x 0, .x 0, ganged (withVf s0) held0 launch0, _, 0, 0, held0,
       (mayP (may rfl (by decide) rfl rfl rfl rfl) rfl rfl rfl rfl), (by decide), (by decide), (by decide),
       (by decide), (by decide), (by decide), (by decide)⟩,
   ⟨h0, .x 63, .x 0, .x 1, withVf (reg 1 0xFFFC0), _, 0, zeros 64,
       (mayP (may rfl (by decide) rfl rfl rfl rfl) rfl rfl rfl rfl), (by decide), (by decide +kernel), (by decide),
       (by decide), (by decide)⟩,
   ⟨h0, false, .x 63, .x 0, .x 1, withVf (reg 1 255), _, 0,
       (mayP (may rfl (by decide) rfl rfl rfl rfl) rfl rfl rfl rfl), (by decide), (by decide)⟩,
   ⟨h0, .x 63, .x 0, .x 1, withVf (reg 1 3), _, 0, (mayP (may rfl (by decide) rfl rfl rfl rfl) rfl rfl rfl rfl),
       (by decide), (by decide)⟩,
   ⟨h0, .x 63, s0, _, (mayP (may rfl (by decide) rfl rfl rfl rfl) rfl rfl rfl rfl)⟩⟩

theorem witness_GenerationAdvances :
    (∃ (h : Hdr) (d a : Name) (s t u : State) (v : BitVec 6) (c n : Nat), s.mayPrivilege .C h d a (.x 0) t ∧
        t.namedVf (s.xArg h a) = some v ∧ t.hasRunning v = false ∧ (t.vf v.toNat).status = .stopped ∧
        t.tryGen v = some (u, c, n)) ∧
    (∃ (h : Hdr) (d a : Name) (s t : State) (v : BitVec 6), s.mayPrivilege .C h d a (.x 0) t ∧
        t.namedVf (s.xArg h a) = some v ∧ t.hasRunning v = false ∧ (t.vf v.toNat).status = .stopped ∧
        t.tryGen v = none) ∧
    (∃ (s u : State) (v : BitVec 6) (c n : Nat), 1 ≤ (s.gen v).toNat ∧ s.tryGen v = some (u, c, n) ∧ ∃ e,
        e ∈ u.gangs) ∧
    (∃ (s u : State) (v : BitVec 6) (c n : Nat), 1 ≤ (s.gen v).toNat ∧ s.tryGen v = some (u, c, n) ∧ ∃ r,
        r ∈ u.replies) ∧
    (∃ (s u : State) (v : BitVec 6) (c n : Nat), 1 ≤ (s.gen v).toNat ∧ s.tryGen v = some (u, c, n) ∧ ∃ e, e ∈ u.ops) ∧
    (∃ (s u : State) (v : BitVec 6) (c n : Nat), 1 ≤ (s.gen v).toNat ∧ s.tryGen v = some (u, c, n) ∧ ∃ e,
        e ∈ u.cores ∧ ∃ l, l ∈ e.2.ocache) ∧
    (∃ (s u : State) (v : BitVec 6) (c n : Nat), 1 ≤ (s.gen v).toNat ∧ s.tryGen v = some (u, c, n) ∧ ∃ e,
        e ∈ u.cores ∧ ∃ x, x ∈ e.2.tcache) :=
  ⟨⟨h0, .x 63, .x 0, stopped0 s0, _, _, 0, _, _, (mayP (may rfl (by decide) rfl rfl rfl rfl) rfl rfl rfl rfl),
      (by decide), (by decide), (by decide), rfl⟩,
   ⟨h0, .x 63, .x 0, { s0 with vfs := [(0, { vf0 with status := .stopped, pend := (List.range 254).map (· + 2) })] },
       _, 0, (mayP (may rfl (by decide) rfl rfl rfl rfl) rfl rfl rfl rfl), (by decide), (by decide), (by decide),
       (by decide +kernel)⟩,
   ⟨gset { gang0 with vf := 1 } (stopped0 s0), _, 0, _, _, (by decide), rfl, (0, { gang0 with vf := 1 }),
       (by decide +kernel)⟩,
   ⟨{ stopped0 s0 with replies := [reply0 1] }, _, 0, _, _, (by decide), rfl, reply0 1, (by decide +kernel)⟩,
   ⟨{ stopped0 s0 with ops := [(0, fabOp0 1)] }, _, 0, _, _, (by decide), rfl, (0, fabOp0 1), (by decide +kernel)⟩,
   ⟨stopped0 (st { core0 with ocache := [oline1] }), _, 0, _, _, (by decide), rfl,
       (0, { core0 with ocache := [oline1] }), (by decide +kernel), oline1, (by decide)⟩,
   ⟨stopped0 (st { core0 with tcache := [tent1] }), _, 0, _, _, (by decide), rfl,
       (0, { core0 with tcache := [tent1] }), (by decide +kernel), tent1, (by decide)⟩⟩

theorem witness_PrivilegedWordsRefuse :
    (∃ (h : Hdr) (d a b : Name) (s t : State), s.mayPrivilege .C h d a b t ∧ t.namedVf (s.xArg h a) = none) ∧
    (∃ (h : Hdr) (d a : Name) (s t : State), s.mayPrivilege .C h d a (.x 0) t ∧ t.namedVf (s.xArg h a) = none) ∧
    (∃ (h : Hdr) (d a b : Name) (s t : State), s.mayPrivilege .C h d a b t ∧ 64 ≤ (s.xArg h a).toNat) ∧
    (∃ (h : Hdr) (d a : Name) (s t : State) (v : BitVec 6), s.mayPrivilege .C h d a (.x 0) t ∧
        t.namedVf (s.xArg h a) = some v ∧ t.hasRunning v = true) ∧
    (∃ (h : Hdr) (d a b : Name) (s t : State) (v : BitVec 6), s.mayPrivilege .C h d a b t ∧
        t.namedVf (s.xArg h a) = some v ∧ t.hasRunning v = true) ∧
    (∃ (h : Hdr) (d a : Name) (s t : State) (v : BitVec 6), s.mayPrivilege .C h d a (.x 0) t ∧
        t.namedVf (s.xArg h a) = some v ∧ t.hasRunning v = false ∧ (t.vf v.toNat).status ≠ .stopped) ∧
    (∃ (h : Hdr) (d a b : Name) (s t : State) (v : BitVec 6), s.mayPrivilege .C h d a b t ∧
        t.namedVf (s.xArg h a) = some v ∧ 4 ≤ (s.xArg h b).toNat) :=
  ⟨⟨h0, .x 63, .x 0, .x 0, s0, _, (mayP (may rfl (by decide) rfl rfl rfl rfl) rfl rfl rfl rfl), (by decide)⟩,
   ⟨h0, .x 63, .x 0, s0, _, (mayP (may rfl (by decide) rfl rfl rfl rfl) rfl rfl rfl rfl), (by decide)⟩,
   ⟨h0, .x 63, .x 1, .x 0, reg 1 64, _, (mayP (may rfl (by decide) rfl rfl rfl rfl) rfl rfl rfl rfl), (by decide)⟩,
   ⟨h0, .x 63, .x 0, ganged (withVf s0) gang0 launch0, _, 0,
       (mayP (may rfl (by decide) rfl rfl rfl rfl) rfl rfl rfl rfl), (by decide), (by decide)⟩,
   ⟨h0, .x 63, .x 0, .x 0, ganged (withVf s0) gang0 launch0, _, 0,
       (mayP (may rfl (by decide) rfl rfl rfl rfl) rfl rfl rfl rfl), (by decide), (by decide)⟩,
   ⟨h0, .x 63, .x 0, withVf s0, _, 0, (mayP (may rfl (by decide) rfl rfl rfl rfl) rfl rfl rfl rfl), (by decide),
       (by decide), (by decide)⟩,
   ⟨h0, .x 63, .x 0, .x 1, withVf (reg 1 4), _, 0, (mayP (may rfl (by decide) rfl rfl rfl rfl) rfl rfl rfl rfl),
       (by decide), (by decide)⟩⟩

theorem witness_AllWalkerWordsComplete :
    (∃ (h : Hdr) (tag : BitVec 3) (count rs : Byte) (as : BitVec 15) (s : State) (i : Nat),
        s.mayIssue s.curW h.wait ∧ (tag = s.curW.tag ∨ tag = 6) ∧
        repTarget (s.waited h.wait) s.cur s.curW ((s.waited h.wait).core s.cur).words (((s.waited h.wait).core s.cur).words + 1) ((s.word s.curW h).index + 1) = some i ∧
        repOk ((s.waited h.wait).textWord s.cur i) (count.toNat + 1) rs.toInt as.toInt = true) ∧
    (∃ (h : Hdr) (s : State), s.curW = .C ∧ s.mayIssue .C h.wait ∧ ((s.waited h.wait).core s.cur).wC.pend = 0 ∧
        (∀ w ∈ [Walker.V, .M, .X, .G, .F], (((s.waited h.wait).core s.cur).w w).st ≠ .running)) ∧
    (∃ (c : Nat) (s : State), ((s.core c).wC.st ≠ .rendezvous ∨ ∃ w ∈ [Walker.V, .M, .X, .G, .F],
        ((s.core c).w w).st = .running)) ∧
    (∃ (c : Nat) (s : State), (s.core c).wC.st = .rendezvous ∧ (s.core c).wC.rep = none ∧
        (∀ w ∈ [Walker.V, .M, .X, .G, .F], ((s.core c).w w).st ≠ .running) ∧ ∃ w, w ∈ [Walker.V, .M, .X, .G, .F] ∧
        ((s.core c).w w).st = .rendezvous) ∧
    (∃ (h : Hdr) (s : State), s.curW ≠ .C ∧ s.mayIssue s.curW 0 ∧ s.exchangeBad s.cur = false) ∧
    (∃ (h : Hdr) (s : State), s.curW = .C ∧ s.mayIssue .C h.wait ∧ (s.waited h.wait).exchangeBad s.cur = false) :=
  ⟨⟨h0, 6, 255, 0, 0, rs s0 6 (leBytes 6 0x0C8000808040), 1, (may rfl (by decide) rfl rfl rfl rfl), (by decide),
      (by decide +kernel), (by decide +kernel)⟩,
   ⟨h0, st { core0 with wV := WalkerSt.start, wM := WalkerSt.start, wX := WalkerSt.start, wG := WalkerSt.start, wF := WalkerSt.start },
       (by decide), (may rfl (by decide) rfl rfl rfl rfl), (by decide), (by decide)⟩,
   ⟨0, s0, (by decide)⟩,
   ⟨0, st { core0 with wC := { run with st := .rendezvous }, wV := { run with st := .rendezvous }, wM := { run with st := .rendezvous }, wX := { run with st := .rendezvous }, wG := { run with st := .rendezvous }, wF := { run with st := .rendezvous } },
       (by decide), (by decide), (by decide), .V, (by decide), (by decide)⟩,
   ⟨h0, { s0 with curW := .V }, (by decide), (may rfl (by decide) rfl rfl rfl rfl), (by decide)⟩,
   ⟨h0, s0, (by decide), (may rfl (by decide) rfl rfl rfl rfl), (by decide)⟩⟩

theorem witness_ViewWordsComplete :
    (∃ (i : Instr) (v : ViewSpec) (s s1 s2 : State) (x : Word) (fmt : Byte) (r : Nat × Nat) (old : List Nat) (ss : List Source),
        elementWord i = some v ∧ s.mayIssue .V v.h.wait ∧
        (match v.arg with | some n => (src (s.word .V v.h) n).run (s.waited v.h.wait) = .ok (x, s1) | none => s1 = s.waited v.h.wait) ∧
        (vectorOperands (s.word .V v.h) v.d v.readD v.ops).run s1 = .ok ((fmt, r, old, ss), s2) ∧
        v.chk fmt (ss.map Source.fmt) = true ∧ (s2.core s.cur).inText r.1 r.2 = false) ∧
    (∃ (i : Instr) (v : ViewSpec) (s s1 s2 : State) (x : Word) (fmt : Byte) (r : Nat × Nat) (old : List Nat) (ss : List Source),
        elementWord i = some v ∧ s.mayIssue .V v.h.wait ∧
        (match v.arg with | some n => (src (s.word .V v.h) n).run (s.waited v.h.wait) = .ok (x, s1) | none => s1 = s.waited v.h.wait) ∧
        (vectorOperands (s.word .V v.h) v.d v.readD v.ops).run s1 = .ok ((fmt, r, old, ss), s2) ∧
        v.chk fmt (ss.map Source.fmt) = false) ∧
    (∃ (i : Instr) (v : ViewSpec) (s s1 s2 : State) (x : Word) (fmt : Byte) (r : Nat × Nat) (old : List Nat) (ss : List Source),
        movementWord i = some v ∧ s.mayIssue .V v.h.wait ∧
        (match v.arg with | some n => (src (s.word .V v.h) n).run (s.waited v.h.wait) = .ok (x, s1) | none => s1 = s.waited v.h.wait) ∧
        (vectorOperands (s.word .V v.h) v.d v.readD v.ops).run s1 = .ok ((fmt, r, old, ss), s2) ∧
        v.chk fmt (ss.map Source.fmt) = true ∧ (s2.core s.cur).inText r.1 r.2 = false) ∧
    (∃ (i : Instr) (v : ViewSpec) (s s1 s2 : State) (x : Word) (fmt : Byte) (r : Nat × Nat) (old : List Nat) (ss : List Source),
        movementWord i = some v ∧ s.mayIssue .V v.h.wait ∧
        (match v.arg with | some n => (src (s.word .V v.h) n).run (s.waited v.h.wait) = .ok (x, s1) | none => s1 = s.waited v.h.wait) ∧
        (vectorOperands (s.word .V v.h) v.d v.readD v.ops).run s1 = .ok ((fmt, r, old, ss), s2) ∧
        v.chk fmt (ss.map Source.fmt) = false) :=
  ⟨⟨.vsplat h0 (.v 0) (.x 1), _, vs0, _, _, _, _, _, _, _, rfl, (may rfl (by decide) rfl rfl rfl rfl), rfl, rfl,
      (by decide), (by decide)⟩,
   ⟨.viota h0 true (.v 3) (.x 1), _, vs0, _, _, _, _, _, _, _, rfl, (may rfl (by decide) rfl rfl rfl rfl), rfl, rfl,
       (by decide)⟩,
   ⟨.vrotr h0 false (.v 1) (.v 1) (.val 63), _, vs0, _, _, 0, _, _, _, _, rfl, (may rfl (by decide) rfl rfl rfl rfl),
       rfl, rfl, (by decide), (by decide)⟩,
   ⟨.vrotr h0 false (.v 0) (.v 1) (.val 63), _, vs0, _, _, 0, _, _, _, _, rfl, (may rfl (by decide) rfl rfl rfl rfl),
       rfl, rfl, (by decide)⟩⟩

theorem witness_IntegerElements :
    (∃ (i : Instr) (h : Hdr) (te : Te) (bx sat : Bool) (rnd : Rnd) (d a b : Name) (op : Int → Int →
        Int) (v : ViewSpec) (x : Word) (f : Byte) (sa sb : Source),
        (i = .vadd h te bx sat rnd d a b ∧ op = (fun p q => p + q) ∨ i = .vsub h te bx sat rnd d a b ∧
        op = (fun p q => p - q) ∨ i = .vmul h te bx sat rnd d a b ∧ op = (fun p q => p * q)) ∧
        elementWord i = some v ∧ (f = 5 ∨ f = 6) ∧ sa.fmt = f ∧ sb.fmt = f ∧ sa.elems.length = 1024 ∧
        sb.elems.length = 1024 ∧ ∃ n, n < 1024 ∧ sat = false) ∧
    (∃ (i : Instr) (h : Hdr) (te : Te) (bx sat : Bool) (rnd : Rnd) (d a b : Name) (op : Int → Int →
        Int) (v : ViewSpec) (x : Word) (f : Byte) (sa sb : Source),
        (i = .vadd h te bx sat rnd d a b ∧ op = (fun p q => p + q) ∨ i = .vsub h te bx sat rnd d a b ∧
        op = (fun p q => p - q) ∨ i = .vmul h te bx sat rnd d a b ∧ op = (fun p q => p * q)) ∧
        elementWord i = some v ∧ (f = 5 ∨ f = 6) ∧ sa.fmt = f ∧ sb.fmt = f ∧ sa.elems.length = 1024 ∧
        sb.elems.length = 1024 ∧ sat = false) ∧
    (∃ (i : Instr) (h : Hdr) (te : Te) (bx sat : Bool) (rnd : Rnd) (d a b : Name) (op : Int → Int →
        Int) (v : ViewSpec) (x : Word) (f : Byte) (sa sb : Source),
        (i = .vadd h te bx sat rnd d a b ∧ op = (fun p q => p + q) ∨ i = .vsub h te bx sat rnd d a b ∧
        op = (fun p q => p - q) ∨ i = .vmul h te bx sat rnd d a b ∧ op = (fun p q => p * q)) ∧
        elementWord i = some v ∧ (f = 5 ∨ f = 6) ∧ sa.fmt = f ∧ sb.fmt = f ∧ sa.elems.length = 1024 ∧
        sb.elems.length = 1024 ∧ (let w := intBits f
      (let z := fun n => op (signedOf w (sa.elems.getD n 0)) (signedOf w (if bx then x.toNat % 2 ^ w else sb.elems.getD n 0))
      (let clamp := fun y : Int => max (-(2 : Int) ^ (w - 1)) (min ((2 : Int) ^ (w - 1) - 1) y)
      (∀ n, n < 1024 → clamp (z n) = z n))))) ∧
    (∃ (i : Instr) (h : Hdr) (te : Te) (bx sat : Bool) (rnd : Rnd) (d a b : Name) (op : Int → Int →
        Int) (v : ViewSpec) (x : Word) (f : Byte) (sa sb : Source),
        (i = .vadd h te bx sat rnd d a b ∧ op = (fun p q => p + q) ∨ i = .vsub h te bx sat rnd d a b ∧
        op = (fun p q => p - q) ∨ i = .vmul h te bx sat rnd d a b ∧ op = (fun p q => p * q)) ∧
        elementWord i = some v ∧ (f = 5 ∨ f = 6) ∧ sa.fmt = f ∧ sb.fmt = f ∧ sa.elems.length = 1024 ∧
        sb.elems.length = 1024 ∧ (let w := intBits f
      (let z := fun n => op (signedOf w (sa.elems.getD n 0)) (signedOf w (if bx then x.toNat % 2 ^ w else sb.elems.getD n 0))
      (let clamp := fun y : Int => max (-(2 : Int) ^ (w - 1)) (min ((2 : Int) ^ (w - 1) - 1) y)
      sat = true ∧ (∃ n, n < 1024 ∧ clamp (z n) ≠ z n))))) ∧
    (∃ (h : Hdr) (tea : Bool) (d a : Name) (m : BitVec 6) (v : ViewSpec) (x : Word) (fmt : Byte) (old : List Nat) (src : Source) (i j : Nat),
        i < 16 ∧ j < 64 ∧ src.elems.length = 1024 ∧ movementWord (.vrotr h tea d a (.val m)) = some v) ∧
    (∃ (h : Hdr) (tea : Bool) (d a : Name) (m : BitVec 6) (v : ViewSpec) (x : Word) (fmt : Byte) (old : List Nat) (src : Source) (i j : Nat),
        i < 16 ∧ j < 64 ∧ src.elems.length = 1024 ∧ movementWord (.vrotc h tea d a (.val m)) = some v ∧
        m.toNat < 16) ∧
    (∃ (h : Hdr) (tea : Bool) (d a : Name) (m : BitVec 6) (v : ViewSpec) (x : Word) (fmt : Byte) (old : List Nat) (src : Source) (i j : Nat),
        i < 16 ∧ j < 64 ∧ src.elems.length = 1024 ∧ movementWord (.vbcr h tea d a (.val m)) = some v) ∧
    (∃ (h : Hdr) (tea : Bool) (d a : Name) (m : BitVec 6) (v : ViewSpec) (x : Word) (fmt : Byte) (old : List Nat) (src : Source) (i j : Nat),
        i < 16 ∧ j < 64 ∧ src.elems.length = 1024 ∧ movementWord (.vbcc h tea d a (.val m)) = some v ∧
        m.toNat < 16) :=
  ⟨⟨.vadd h0 ⟨false, false⟩ false false .rne (.v 0) (.v 1) (.v 2), h0, ⟨false, false⟩, false, false, .rne, .v 0,
      .v 1, .v 2, (fun p q => p + q), _, 0, 6, ⟨6, zeros 4096, [], []⟩, ⟨6, zeros 4096, [], []⟩, (.inl ⟨rfl, rfl⟩),
      rfl, (by decide), (by decide), (by decide), (by decide +kernel), (by decide +kernel), 1023, (by decide),
      (by decide)⟩,
   ⟨.vadd h0 ⟨false, false⟩ false false .rne (.v 0) (.v 1) (.v 2), h0, ⟨false, false⟩, false, false, .rne, .v 0,
       .v 1, .v 2, (fun p q => p + q), _, 0, 6, ⟨6, zeros 4096, [], []⟩, ⟨6, zeros 4096, [], []⟩, (.inl ⟨rfl, rfl⟩),
       rfl, (by decide), (by decide), (by decide), (by decide +kernel), (by decide +kernel), (by decide)⟩,
   ⟨.vadd h0 ⟨false, false⟩ false false .rne (.v 0) (.v 1) (.v 2), h0, ⟨false, false⟩, false, false, .rne, .v 0,
       .v 1, .v 2, (fun p q => p + q), _, 0, 6, ⟨6, zeros 4096, [], []⟩, ⟨6, zeros 4096, [], []⟩, (.inl ⟨rfl, rfl⟩),
       rfl, (by decide), (by decide), (by decide), (by decide +kernel), (by decide +kernel),
       (by intro w z clamp n hn; have hz : z n = 0 := (by simp only [z, getD_zero]; rfl); rw [hz]; rfl)⟩,
   ⟨.vadd h0 ⟨false, false⟩ false true .rne (.v 0) (.v 1) (.v 2), h0, ⟨false, false⟩, false, true, .rne, .v 0, .v 1,
       .v 2, (fun p q => p + q), _, 0, 6, ⟨6, List.replicate 4096 0x7F, [], []⟩,
       ⟨6, List.replicate 4096 0x7F, [], []⟩, (.inl ⟨rfl, rfl⟩), rfl, (by decide), (by decide), (by decide),
       (by decide +kernel), (by decide +kernel), (by decide), (⟨0, by decide +kernel, by decide +kernel⟩)⟩,
   ⟨h0, false, .v 0, .v 1, 63, _, 0, 5, [], ⟨5, zeros 1024, [], []⟩, 15, 63, (by decide), (by decide),
       (by decide +kernel), rfl⟩,
   ⟨h0, false, .v 0, .v 1, 15, _, 0, 5, [], ⟨5, zeros 1024, [], []⟩, 15, 63, (by decide), (by decide),
       (by decide +kernel), rfl, (by decide)⟩,
   ⟨h0, false, .v 0, .v 1, 63, _, 0, 5, [], ⟨5, zeros 1024, [], []⟩, 15, 63, (by decide), (by decide),
       (by decide +kernel), rfl⟩,
   ⟨h0, false, .v 0, .v 1, 15, _, 0, 5, [], ⟨5, zeros 1024, [], []⟩, 15, 63, (by decide), (by decide),
       (by decide +kernel), rfl, (by decide)⟩⟩

theorem witness_VectorScalarsAndTiles :
    (∃ (h : Hdr) (tea : Bool) (d a b : Name) (s s1 s2 s3 s4 : State) (n : Word) (v : Source), s.mayIssue .V h.wait ∧
        (src (s.word .V h) b).run (s.waited h.wait) = .ok (n, s1) ∧
        operandStall s1 s.cur tea (findOperand s1 s.cur a) = .ok () ∧
        (takeOperand (s.word .V h) tea 0 (findOperand s1 s.cur a)).run s1 = .ok (v, s2) ∧
        (claimBanks (s.word .V h) (v.runs.foldl (fun m r => m ||| banksOf r.1 r.2) 0#32)).run s2 = .ok ((), s3) ∧
        (reserve (s.word .V h) d).run s3 = .ok ((), s4)) ∧
    (∃ (h : Hdr) (clr : Bool) (d : Name) (s t : State), s.mayIssue .V h.wait ∧
        ((s.waited h.wait).core s.cur).wV.pend = 0 ∧
        (reserve (s.word .V h) d).run (if clr then (s.waited h.wait).modCore s.cur (fun k => { k with vstat := 0 }) else s.waited h.wait) = .ok ((),
        t)) ∧
    (∃ (h : Hdr) (tea sat hi : Bool) (d a : Name) (n : BitVec 3) (s s2 : State) (fmt : Byte) (r : Nat × Nat) (old : List Nat) (v : Source),
        s.mayIssue .V h.wait ∧ (vectorOperands (s.word .V h) d false [(a, tea)]).run (s.waited h.wait) = .ok ((fmt,
        r, old, [v]), s2) ∧ fmtClass v.fmt = .int ∧ isFloat fmt = true ∧ (s2.core s.cur).inText r.1 r.2 = false) ∧
    (∃ (h : Hdr) (tea : Bool) (n : BitVec 4) (a : Name) (s s1 s2 : State) (r : Nat × Nat) (v : Source),
        s.mayIssue .V h.wait ∧ ((s.waited h.wait).core s.cur).tileRun n = some r ∧
        destFree (s.waited h.wait) s.cur r = true ∧
        operandStall (s.waited h.wait) s.cur tea (findOperand (s.waited h.wait) s.cur a) = .ok () ∧
        (takeOperand (s.word .V h) tea 0 (findOperand (s.waited h.wait) s.cur a)).run (s.waited h.wait) = .ok (v,
        s1) ∧ fmtClass v.fmt ≠ .bit ∧ (claimBanks (s.word .V h) (BitVec.allOnes 32)).run s1 = .ok ((), s2) ∧
        (s2.core s.cur).inText r.1 r.2 = false) :=
  ⟨⟨h0, false, .x 63, .v 1, .x 0, vs0, _, _, _, _, _, _, (may rfl (by decide) rfl rfl rfl rfl), rfl, rfl, rfl, rfl,
      rfl⟩,
   ⟨h0, true, .x 63, vs0, _, (may rfl (by decide) rfl rfl rfl rfl), (by decide), rfl⟩,
   ⟨h0, false, true, true, .v 0, .v 1, 7, vs0, _, _, _, _, _, (may rfl (by decide) rfl rfl rfl rfl), rfl,
       (by decide), (by decide), (by decide)⟩,
   ⟨h0, false, 15, .v 1, vs0, _, _, _, _, (may rfl (by decide) rfl rfl rfl rfl), rfl, (by decide), rfl, rfl,
       (by decide), rfl, (by decide)⟩⟩

theorem witness_ViewLoadsAndStores :
    (∃ (h : Hdr) (d base : Name) (step : BitVec 8) (count : BitVec 7) (s : State) (r : Nat × Nat) (acc : Bool) (off : Nat),
        s.mayAccess h d base r acc ∧ bitOf (s.accessBase h base).toNat 35 = false ∧
        viewPlace (s.accessed h) s.cur (s.accessAddr h base step r.2) r.2 acc = some (.inl off) ∧
        destFree (s.accessed h) s.cur r = true ∧ runFree (s.accessed h) s.cur (off, r.2) = true ∧
        (s.accessed h).full s.cur off r.2 = true ∧ (s.core s.cur).inText r.1 r.2 = false ∧
        (s.accessing h base).wins s .V (banksOf off r.2)) ∧
    (∃ (h : Hdr) (d base : Name) (step : BitVec 8) (count : BitVec 7) (s : State) (r : Nat × Nat) (acc : Bool) (off : Nat),
        s.mayAccess h d base r acc ∧ bitOf (s.accessBase h base).toNat 35 = false ∧
        viewPlace (s.accessed h) s.cur (s.accessAddr h base step r.2) r.2 acc = some (.inl off) ∧
        runFree (s.accessed h) s.cur r = true ∧ (s.accessed h).full s.cur r.1 r.2 = true ∧
        destFree (s.accessed h) s.cur (off, r.2) = true ∧ (s.core s.cur).inText off r.2 = false ∧
        (s.accessing h base).wins s .V (banksOf r.1 r.2)) ∧
    (∃ (h : Hdr) (d base : Name) (step : BitVec 8) (count : BitVec 7) (s : State) (r : Nat × Nat) (acc : Bool) (key : Nat),
        s.mayAccess h d base r acc ∧ bitOf (s.accessBase h base).toNat 35 = true ∧
        viewPlace (s.accessed h) s.cur (s.accessAddr h base step r.2) r.2 acc = some (.inr key) ∧
        destFree (s.accessed h) s.cur r = true ∧ (s.accessed h).hits s.cur key r.2 = false ∧
        ((s.accessed h).core s.cur).pendMeets (key, r.2) = false ∧ (s.core s.cur).inText r.1 r.2 = false) ∧
    (∃ (h : Hdr) (d base : Name) (step : BitVec 8) (count : BitVec 7) (s : State) (r : Nat × Nat) (acc : Bool) (key : Nat),
        s.mayAccess h d base r acc ∧ bitOf (s.accessBase h base).toNat 35 = true ∧ 0 < r.2 ∧
        viewPlace (s.accessed h) s.cur (s.accessAddr h base step r.2) r.2 acc = some (.inr key) ∧
        ((s.core s.cur).wV.grant = 0 → runFree (s.accessed h) s.cur r = true ∧
        (s.accessed h).full s.cur r.1 r.2 = true ∧ (s.accessed h).hits s.cur key r.2 = false ∧
        ((s.accessed h).core s.cur).pendMeets (key, r.2) = false) ∧ (let g := (s.core s.cur).wV.grant
      (let part := if acc then 4096 else r.2
      (s.accessing h base).wins s .V (banksOf (r.1 + g * part) part)))) :=
  ⟨⟨h0, .v 1, .x 1, 0x80, 127, st { viewed core0 with x := [(1, 0x3FC00)] }, (8192, 1024), false, 0x3FC00,
      (mayA (may rfl (by decide) rfl rfl rfl rfl) (fun _ => rfl) rfl), (by decide), (by decide), (by decide),
      (by decide), (by decide), (by decide), ((by decide : _ = 0#32))⟩,
   ⟨h0, .v 1, .x 1, 0x80, 127, st { viewed core0 with x := [(1, 0x3FC00)] }, (8192, 1024), false, 0x3FC00,
       (mayA (may rfl (by decide) rfl rfl rfl rfl) (fun _ => rfl) rfl), (by decide), (by decide), (by decide),
       (by decide), (by decide), (by decide), ((by decide : _ = 0#32))⟩,
   ⟨h0, .v 1, .x 1, 0, 0, withVf (st { viewed core0 with x := [(1, 0x800000000)] }), (8192, 1024), false, key0,
       (mayA (may rfl (by decide) rfl rfl rfl rfl) (fun _ => rfl) rfl), (by decide), (by decide +kernel),
       (by decide), (by decide), (by decide), (by decide)⟩,
   ⟨h0, .v 1, .x 1, 0, 0, withVf (st { viewed core0 with x := [(1, 0x800000000)] }), (8192, 1024), false, key0,
       (mayA (may rfl (by decide) rfl rfl rfl rfl) (fun _ => rfl) rfl), (by decide), (by decide),
       (by decide +kernel), (fun _ => by decide), ((by decide : _ = 0#32))⟩⟩

theorem witness_VectorResultsLand :
    (∃ (o : Origin) (key : Nat) (bytes : List Byte) (flags : BitVec 7) (s : State), key + bytes.length < 2 ^ 56 ∧
        (s.core o.core).fixedNow = []) ∧
    (∃ (o : Origin) (off : Nat) (bytes : List Byte) (s : State),
        (s.core o.core).banksLost o.age (banksOf off bytes.length) = 0) ∧
    (∃ (o : Origin) (off : Nat) (bytes : List Byte) (s : State),
        (s.core o.core).banksLost o.age (banksOf off bytes.length) ≠ 0) ∧
    (∃ (s : State) (tag : Tag) (k : Nat) (bs : List Byte) (a : Nat), s.Canonical ∧ bs ≠ [] ∧
        (a < unitOf k ∨ unitOf (k + bs.length - 1) + unitSize k ≤ a) ∧ isTagged k = true ∧
        isTagged (k + bs.length - 1) = true ∧ unitSize (k + bs.length - 1) = unitSize k) :=
  ⟨⟨o0 .V, keyRS 0 1024, [1], 127, s0, (by decide), (by decide)⟩,
   ⟨o0 .V, 0x3FFFF, [1], s0, (by decide)⟩,
   ⟨o0 .V, 0x3FFFF, [1], st { core0 with claimed := 0xFFFFFFFF }, (by decide)⟩,
   ⟨s0, tag1, keyRS 0 120, zeros 16, keyRS 0 256, (canon (by decide)), (by decide), (by decide), (by decide),
       (by decide), (by decide)⟩⟩

theorem witness_MatrixConfigurationWords :
    (∃ (h : Hdr) (level : BitVec 8) (a b : Name) (s : State), s.mayIssue .M h.wait ∧
        ((s.waited h.wait).core s.cur).scoreboard.contains (xNum a).toNat = false ∧
        ((s.waited h.wait).core s.cur).scoreboard.contains (xNum b).toNat = false ∧ (let n := s.xArg h a
      n.toNat < 2 ^ 16)) ∧
    (∃ (h : Hdr) (level : BitVec 8) (a b : Name) (s : State), s.mayIssue .M h.wait ∧
        ((s.waited h.wait).core s.cur).scoreboard.contains (xNum a).toNat = false ∧
        ((s.waited h.wait).core s.cur).scoreboard.contains (xNum b).toNat = false ∧ (let n := s.xArg h a
      2 ^ 16 ≤ n.toNat)) ∧
    (∃ (h : Hdr) (card : Name) (src : MSrc) (s : State), s.mayIssue .M h.wait ∧
        ((s.waited h.wait).core s.cur).scoreboard.contains (xNum card).toNat = false) ∧
    (∃ (h : Hdr) (af bf : Byte) (zp : Bool) (cb : BitVec 3) (sel : Bool) (s : State), s.mayIssue .M h.wait ∧
        ((s.waited h.wait).inReduced s.cur = false ∨ (af = 2 ∧ bf = 2) ∨ (af = 5 ∧ bf = 5))) ∧
    (∃ (h : Hdr) (n : BitVec 4) (s : State), s.mayIssue .M h.wait) ∧
    (∃ (h : Hdr) (clr : Bool) (d : Name) (s t : State), s.mayIssue .M h.wait ∧
        (reserve (s.word .M h) d).run (if clr then (s.waited h.wait).modCore s.cur (fun k => { k with merrlog := 0 }) else s.waited h.wait) = .ok ((),
        t)) ∧
    (∃ (h : Hdr) (n : BitVec 3) (a : Name) (s t : State), s.mayIssue .M h.wait ∧
        ((s.waited h.wait).core s.cur).scoreboard.contains (xNum a).toNat = false ∧ (let x := (s.xArg h a).toNat
      x % 32 = 0 ∧ x + 32 ≤ 0x40000 ∧ (s.waited h.wait).full s.cur x 32 = true ∧
          (s.waited h.wait).hits s.cur (keyRS s.cur x) 32 = false ∧
          (claimBanks (s.word .M h) (banksOf x 32)).run (s.waited h.wait) = .ok ((), t))) ∧
    (∃ (h : Hdr) (s : State), s.mayIssue .M h.wait) :=
  ⟨⟨h0, 5, .x 1, .x 0, reg 1 0xFFFF, (may rfl (by decide) rfl rfl rfl rfl), (by decide), (by decide), (by decide)⟩,
   ⟨h0, 0, .x 1, .x 0, reg 1 0x10000, (may rfl (by decide) rfl rfl rfl rfl), (by decide), (by decide), (by decide)⟩,
   ⟨h0, .x 1, .acc 15, s0, (may rfl (by decide) rfl rfl rfl rfl), (by decide)⟩,
   ⟨h0, 8, 9, true, 7, true, s0, (may rfl (by decide) rfl rfl rfl rfl), (by decide)⟩,
   ⟨h0, 15, s0, (may rfl (by decide) rfl rfl rfl rfl)⟩,
   ⟨h0, true, .x 63, s0, _, (may rfl (by decide) rfl rfl rfl rfl), rfl⟩,
   ⟨h0, 7, .x 1, reg 1 0x3FFE0, _, (may rfl (by decide) rfl rfl rfl rfl), (by decide), (by decide), (by decide),
       (by decide), (by decide), rfl⟩,
   ⟨h0, s0, (may rfl (by decide) rfl rfl rfl rfl)⟩⟩

theorem witness_MatrixWordsStart :
    (∃ (h : Hdr) (acc : Bool) (s : State), s.mayIssue .M h.wait ∧ (let k := (s.waited h.wait).core s.cur
      k.nest = none ∧ k.bookPending = false ∧ (∀ p, k.shadow.asrc = some (.port p) →
          (Tbl.get k.ports p.toNat PortSt.reset).armed = true →
          (s.waited h.wait).full s.cur (portDesc p) 64 = true) ∧ ∃ n,
          nestOf (s.waited h.wait) (s.word .M h) acc = .ok n)) ∧
    (∃ (h : Hdr) (acc : Bool) (s : State), s.mayIssue .M h.wait ∧ (let k := (s.waited h.wait).core s.cur
      k.nest = none ∧ k.bookPending = false ∧ (∀ p, k.shadow.asrc = some (.port p) →
          (Tbl.get k.ports p.toNat PortSt.reset).armed = true →
          (s.waited h.wait).full s.cur (portDesc p) 64 = true) ∧ ∃ cls,
          nestOf (s.waited h.wait) (s.word .M h) acc = .error cls)) ∧
    (∃ (h : Hdr) (acc : Bool) (s : State), s.mayIssue .M h.wait ∧ (let k := (s.waited h.wait).core s.cur
      k.nest = none ∧ k.bookPending = false ∧ (∀ p, k.shadow.asrc = some (.port p) →
          (Tbl.get k.ports p.toNat PortSt.reset).armed = true →
          (s.waited h.wait).full s.cur (portDesc p) 64 = true) ∧ (k.shadow.asrc = none ∨ k.shadow.bsrc = none))) ∧
    (∃ (h : Hdr) (n : BitVec 4) (imm : BitVec 15) (s : State) (r : Nat × Nat), s.mayIssue .M h.wait ∧
        ((s.waited h.wait).core s.cur).tileRun n = some r ∧ (s.waited h.wait).hitsBut s.cur r.1 r.2 = false ∧
        (s.waited h.wait).full s.cur r.1 r.2 = true ∧ ((s.waited h.wait).core s.cur).inText r.1 r.2 = false) ∧
    (∃ (h : Hdr) (d : Name) (n : BitVec 4) (row : BitVec 5) (s t : State) (r : Nat × Nat), s.mayIssue .M h.wait ∧
        ((s.waited h.wait).core s.cur).tileRun n = some r ∧ (s.waited h.wait).hitsBut s.cur r.1 r.2 = false ∧
        (s.waited h.wait).full s.cur r.1 r.2 = true ∧ (reserve (s.word .M h) d).run (s.waited h.wait) = .ok ((), t)) ∧
    (∃ (h : Hdr) (sat : Bool) (rnd : Rnd) (d : Name) (n : BitVec 4) (s : State) (r dr : Nat × Nat),
        s.mayIssue .M h.wait ∧ ((s.waited h.wait).core s.cur).tileRun n = some r ∧
        destView (s.waited h.wait) s.cur d = some (1, dr) ∧ (s.waited h.wait).hitsBut s.cur r.1 r.2 = false ∧
        (s.waited h.wait).full s.cur r.1 r.2 = true ∧ (s.waited h.wait).hits s.cur (keyRS s.cur dr.1) dr.2 = false ∧
        (s.waited h.wait).full s.cur dr.1 dr.2 = true ∧ ((s.waited h.wait).core s.cur).inText dr.1 dr.2 = false) ∧
    (∃ (h : Hdr) (te : Te) (fmt : BitVec 3) (sat : Bool) (d : Name) (n : BitVec 4) (vs : Option (BitVec 6)) (s : State) (r dr : Nat × Nat),
        s.mayIssue .M h.wait ∧ ((s.waited h.wait).core s.cur).tileRun n = some r ∧
        destView (s.waited h.wait) s.cur d = some (drainFmt fmt, dr) ∧
        (∀ v, vs = some v → (((s.waited h.wait).core s.cur).viewReg v).fmt = 1 ∧
        (te.b = true → (s.waited h.wait).full s.cur (((s.waited h.wait).core s.cur).viewReg v).run.1 256 = true) ∧
        (s.waited h.wait).hitsBut s.cur (((s.waited h.wait).core s.cur).viewReg v).run.1 256 = false) ∧
        (s.waited h.wait).hitsBut s.cur r.1 r.2 = false ∧ (te.a = true →
        (s.waited h.wait).full s.cur r.1 r.2 = true) ∧ (s.waited h.wait).hits s.cur (keyRS s.cur dr.1) dr.2 = false ∧
        (s.waited h.wait).full s.cur dr.1 dr.2 = true ∧ ((s.waited h.wait).core s.cur).inText dr.1 dr.2 = false) ∧
    (∃ (h : Hdr) (te : Te) (fmt : BitVec 3) (sat : Bool) (d : Name) (n : BitVec 4) (v : BitVec 6) (s : State) (r dr : Nat × Nat),
        s.mayIssue .M h.wait ∧ (let k := (s.waited h.wait).core s.cur
      k.tileRun n = some r ∧ destView (s.waited h.wait) s.cur d = some (drainFmt fmt, dr) ∧ (k.viewReg v).fmt = 1 ∧
          (k.viewReg (v + 1)).fmt = 5 ∧ (te.b = true → (s.waited h.wait).full s.cur (k.viewReg v).run.1 256 = true ∧
          (s.waited h.wait).full s.cur (k.viewReg (v + 1)).run.1 64 = true) ∧
          (s.waited h.wait).hitsBut s.cur (k.viewReg v).run.1 256 = false ∧
          (s.waited h.wait).hitsBut s.cur (k.viewReg (v + 1)).run.1 64 = false ∧
          (s.waited h.wait).hitsBut s.cur r.1 r.2 = false ∧
          (te.a = true → (s.waited h.wait).full s.cur r.1 r.2 = true) ∧
          (s.waited h.wait).hits s.cur (keyRS s.cur dr.1) dr.2 = false ∧
          (s.waited h.wait).full s.cur dr.1 dr.2 = true ∧ k.inText dr.1 dr.2 = false)) :=
  ⟨⟨h0, true, st { viewed core0 with shadow := cfg0 }, (may rfl (by decide) rfl rfl rfl rfl), (by decide),
      (by decide), (fun p h => by cases h), _, rfl⟩,
   ⟨h0, true, s0, (may rfl (by decide) rfl rfl rfl rfl), (by decide), (by decide), (fun p h => by cases h), .rsvd,
       rfl⟩,
   ⟨h0, true, s0, (may rfl (by decide) rfl rfl rfl rfl), (by decide), (by decide), (fun p h => by cases h),
       (by decide)⟩,
   ⟨h0, 15, 0x4000, vs0, (0x3D000, 12288), (may rfl (by decide) rfl rfl rfl rfl), (by decide), (by decide),
       (by decide), (by decide)⟩,
   ⟨h0, .x 63, 15, 31, vs0, _, (0x3D000, 12288), (may rfl (by decide) rfl rfl rfl rfl), (by decide), (by decide),
       (by decide), rfl⟩,
   ⟨h0, true, .rz, .v 2, 15, vs0, (0x3D000, 12288), (0x3000, 4096), (may rfl (by decide) rfl rfl rfl rfl),
       (by decide), (by decide), (by decide), (by decide), (by decide), (by decide), (by decide)⟩,
   ⟨h0, ⟨true, true⟩, 0, true, .v 2, 15, some 62, vs0, (0x3D000, 12288), (0x3000, 4096),
       (may rfl (by decide) rfl rfl rfl rfl), (by decide), (by decide),
       (fun v h => by cases h; exact ⟨by decide, fun _ => by decide, by decide⟩), (by decide), (fun _ => by decide),
       (by decide), (by decide), (by decide)⟩,
   ⟨h0, ⟨true, true⟩, 0, true, .v 2, 15, 62, vs0, (0x3D000, 12288), (0x3000, 4096),
       (may rfl (by decide) rfl rfl rfl rfl), (by decide), (by decide), (by decide), (by decide),
       (fun _ => by decide), (by decide), (by decide), (by decide), (fun _ => by decide), (by decide), (by decide),
       (by decide)⟩⟩

theorem witness_NestsRun :
    (∃ (c : Nat) (s : State), (s.core c).nest = none) ∧
    (∃ (c : Nat) (s : State) (n : NestRun), (s.core c).nest = some n ∧ n.started = false ∧
        ((s.core c).invalidating n.o.age = true ∨ s.nestFree c n = false)) ∧
    (∃ (c : Nat) (s : State) (n : NestRun), (s.core c).nest = some n ∧ n.started = false ∧
        (s.core c).invalidating n.o.age = false ∧ s.nestFree c n = true ∧ n.cfg.total = 0 ∧
        (s.core c).banksLost n.o.age ((nestSnaps n).foldl (fun m r => m ||| banksOf r.1 r.2) 0#32) = 0) ∧
    (∃ (c : Nat) (s : State) (n : NestRun), (s.core c).nest = some n ∧ n.started = false ∧
        (s.core c).invalidating n.o.age = false ∧ s.nestFree c n = true ∧
        (let b := (nestSnaps n).foldl (fun m r => m ||| banksOf r.1 r.2) 0#32
      (s.core c).banksLost n.o.age b ≠ 0)) ∧
    (∃ (c : Nat) (s : State) (n : NestRun), (s.core c).nest = some n ∧ n.started = true ∧
        (∀ p, n.cfg.asrc ≠ some (.port p)) ∧
        (let bs := (List.range 4).map (fun q => (List.range 64).map (bElem s c n q))
      (let as := (List.range 16).map (fun i => (List.range 4).map (aElem s c n i))
      (let misses := ((as ++ bs).flatMap (fun l => l.flatMap (fun x => x.2.keys))).eraseDups
      misses = [])))) ∧
    (∃ (c : Nat) (s : State) (n : NestRun), (s.core c).nest = some n ∧ n.started = true ∧
        (∀ p, n.cfg.asrc ≠ some (.port p)) ∧
        (let bs := (List.range 4).map (fun q => (List.range 64).map (bElem s c n q))
      (let as := (List.range 16).map (fun i => (List.range 4).map (aElem s c n i))
      (let misses := ((as ++ bs).flatMap (fun l => l.flatMap (fun x => x.2.keys))).eraseDups
      misses ≠ [])))) ∧
    (∃ (c : Nat) (s : State) (n : NestRun) (as bs : List (List ((Int × Int) × Elem))), as.length = 16 ∧
        (∀ l ∈ as, l.length = 4) ∧ bs.length = 4 ∧ (∀ l ∈ bs, l.length = 64) ∧ (s.core c).macBad = []) ∧
    (∃ (c : Nat) (s : State) (key : LineKey) (e : List Byte), s.lineEntry c key.tensor = some e) :=
  ⟨⟨0, s0, (by decide)⟩,
   ⟨0, st { core0 with nest := some { nest0 with o := { o0 .M with age := 1 } }, agenda := [(0, .vectorResultLands (o0 .M) (keyCache 0) [] 0)] },
       _, rfl, (by decide), (by decide)⟩,
   ⟨0, nested { nest0 with cfg := { NestCfg.reset with levels := [⟨0, 0, 0, 0, 0, 0⟩] } }, _, rfl, (by decide),
       (by decide), (by decide), (by decide), (by decide)⟩,
   ⟨0, st { viewed core0 with claimed := 0xFFFFFFFF, nest := some { nest0 with arun := some (0, 1024) } }, _, rfl,
       (by decide), (by decide), (by decide), (by decide)⟩,
   ⟨0, nested { nest0 with started := true }, _, rfl, (by decide), (by intro p h; cases h), (by decide +kernel)⟩,
   ⟨0, nested { nest0 with cfg := { NestCfg.reset with asrc := some (.tensor 0) }, aent := entry0, started := true },
       _, rfl, (by decide), (by intro p h; cases h), (by decide +kernel)⟩,
   ⟨0, s0, nest0, List.replicate 16 (List.replicate 4 ((0, 0), .val (.fin false 0 0) false)),
       List.replicate 4 (List.replicate 64 ((0, 0), .val (.fin false 0 0) false)), List.length_replicate,
       (fun l h => by rw [List.eq_of_mem_replicate h]; rfl), List.length_replicate,
       (fun l h => by rw [List.eq_of_mem_replicate h]; exact List.length_replicate), (by decide)⟩,
   ⟨0, nested { nest0 with cfg := { NestCfg.reset with asrc := some (.tensor 0) }, aent := entry0 },
       ⟨0, false, 0, 0, 0, 0⟩, entry0, (by decide +kernel)⟩⟩

theorem witness_MzeroRule :
    (∃ (c : DCtx) (w : IWord) (h : Hdr) (d : Name), decodeWord c w = .ok (.mzero h d)) ∧
    (∃ img : List Byte, img.length = 0x2A00 ∧ ∃ i, i < 16) ∧
    (∃ (s : State) (c off a : Nat), s.Canonical ∧ off % 128 = 0 ∧ off + 0x2A00 ≤ 0x40000 ∧
        (a < keyRS c off ∨ keyRS c off + 0x2A00 ≤ a)) ∧
    (∃ (s : State) (c : Nat) (e : MatWait), e.op = .zero ∧ (s.core c).matq = [e] ∧ (s.core c).nest = none ∧
        (s.core c).frozen = none ∧ (s.core c).matOwed c e.tile 12288 = false ∧ e.lands = none) ∧
    (∃ (s : State) (c : Nat) (e : MatWait), e.op = .zero ∧ (s.core c).matq = [e] ∧ (s.core c).nest = none ∧
        (s.core c).frozen = none ∧ (s.core c).matOwed c e.tile 12288 = false ∧ ∃ t, e.lands = some t ∧
        t ≤ (s.core c).time) :=
  ⟨⟨⟨.tenant, 0⟩, 0x430040000000, h0, .a 0, (by decide)⟩,
   ⟨zeros 0x2A00, List.length_replicate, 15, (by decide)⟩,
   ⟨s0, 0, 0x3D600, keyRS 0 0, (canon (by decide)), (by decide), (by decide), (by decide)⟩,
   ⟨st { core0 with matq := [waitM none] }, 0, _, rfl, rfl, (by decide), (by decide), (by decide), rfl⟩,
   ⟨st { core0 with matq := [waitM (some 0)] }, 0, _, rfl, rfl, (by decide), (by decide), (by decide), _, rfl,
       (by decide)⟩⟩

theorem witness_GibbsWordsComplete :
    (∃ (h : Hdr) (s : State), s.mayIssue .G h.wait ∧ (let w := s.waited h.wait
      (w.core s.cur).wG.pend = w.gxchs s.cur ∧ ∃ (k : BitVec 15), (w.gctl s.cur).gates = 0)) ∧
    (∃ (h : Hdr) (s : State), s.mayIssue .G h.wait ∧ (let w := s.waited h.wait
      (w.core s.cur).wG.pend = w.gxchs s.cur ∧ ∃ (k : BitVec 15), (w.gctl s.cur).gates ≠ 0)) ∧
    (∃ (h : Hdr) (s : State), s.mayIssue .G h.wait ∧ (let w := s.waited h.wait
      (w.core s.cur).wG.pend = w.gxchs s.cur ∧ ∃ (card : Name) (t : BitVec 12),
          (w.core s.cur).scoreboard.contains (xNum card).toNat = false ∧ (let e := w.tensorBytes (w.core s.cur).vf t
      w.entryLive (w.core s.cur).vf e = false))) ∧
    (∃ (h : Hdr) (s : State), s.mayIssue .G h.wait ∧ (let w := s.waited h.wait
      (w.core s.cur).wG.pend = w.gxchs s.cur ∧ ∃ (card : Name) (t : BitVec 12),
          (w.core s.cur).scoreboard.contains (xNum card).toNat = false ∧ (let e := w.tensorBytes (w.core s.cur).vf t
      (let first := (s.xArg h card).toNat
      w.entryLive (w.core s.cur).vf e = true ∧ (entOf e).fmt = 6 ∧ (entOf e).space = 0 ∧ 1 ≤ (entOf e).sz 0 ∧
          (entOf e).sz 0 ≤ 64 ∧ first + (entOf e).sz 1 ≤ 8192 ∧ w.extentLocal s.cur (loadShape e true) = true)))) ∧
    (∃ (h : Hdr) (s : State), s.mayIssue .G h.wait ∧ (let w := s.waited h.wait
      (w.core s.cur).wG.pend = w.gxchs s.cur ∧ ∃ (card : Name) (t : BitVec 12),
          (w.core s.cur).scoreboard.contains (xNum card).toNat = false ∧ (let e := w.tensorBytes (w.core s.cur).vf t
      (let first := (s.xArg h card).toNat
      w.entryLive (w.core s.cur).vf e = true ∧ (entOf e).fmt = 6 ∧ (entOf e).space = 0 ∧ 1 ≤ (entOf e).sz 0 ∧
          first + (entOf e).sz 0 ≤ 8192 ∧ w.extentLocal s.cur (loadShape e false) = true)))) ∧
    (∃ (h : Hdr) (s : State), s.mayIssue .G h.wait ∧ (let w := s.waited h.wait
      (w.core s.cur).wG.pend = w.gxchs s.cur ∧ ∃ (tea : Bool) (c : Byte) (a b : Name) (v : List Byte) (s1 : State),
          (w.core s.cur).scoreboard.contains (xNum b).toNat = false ∧
          (gibbsViews (s.word .G h) 5 [(a, tea)]).run w = .ok ([v], s1) ∧ firstOk (s.xArg h b).toNat = true)) ∧
    (∃ (h : Hdr) (s : State), s.mayIssue .G h.wait ∧ (let w := s.waited h.wait
      (w.core s.cur).wG.pend = w.gxchs s.cur ∧ ∃ (a : Name) (v : Word) (s1 : State),
          (src (s.word .G h) a).run w = .ok (v, s1) ∧ (fp32.decode (v.toNat % 2 ^ 32)).isFin = true)) ∧
    (∃ (h : Hdr) (s : State), s.mayIssue .G h.wait ∧ (let w := s.waited h.wait
      (w.core s.cur).wG.pend = w.gxchs s.cur ∧ ∃ (te : Te) (a b : Name) (m v : List Byte) (s1 : State),
          (gibbsViews (s.word .G h) 0x0B [(a, te.a), (b, te.b)]).run w = .ok ([m, v], s1))) ∧
    (∃ (h : Hdr) (s : State), s.mayIssue .G h.wait ∧ (let w := s.waited h.wait
      (w.core s.cur).wG.pend = w.gxchs s.cur ∧ ∃ (tea : Bool) (a : Name) (m : List Byte) (s1 : State),
          (gibbsViews (s.word .G h) 0x0B [(a, tea)]).run w = .ok ([m], s1))) ∧
    (∃ (h : Hdr) (s : State), s.mayIssue .G h.wait ∧ (let w := s.waited h.wait
      (w.core s.cur).wG.pend = w.gxchs s.cur ∧ ∃ (d : Name) (r : Nat × Nat),
          w.hits s.cur (keyRS s.cur r.1) r.2 = false ∧ w.full s.cur r.1 r.2 = true ∧
          (w.core s.cur).inText r.1 r.2 = false ∧ destView w s.cur d = some (0x0B, r))) ∧
    (∃ (h : Hdr) (s : State), s.mayIssue .G h.wait ∧ (let w := s.waited h.wait
      (w.core s.cur).wG.pend = w.gxchs s.cur ∧ ∃ (d : Name) (r : Nat × Nat),
          w.hits s.cur (keyRS s.cur r.1) r.2 = false ∧ w.full s.cur r.1 r.2 = true ∧
          (w.core s.cur).inText r.1 r.2 = false ∧ ∃ a, destView w s.cur d = some (6, r) ∧
          (w.core s.cur).scoreboard.contains (xNum a).toNat = false ∧ firstOk (s.xArg h a).toNat = true)) ∧
    (∃ (h : Hdr) (s : State), s.mayIssue .G h.wait ∧ (let w := s.waited h.wait
      (w.core s.cur).wG.pend = w.gxchs s.cur ∧ ∃ (clr : Bool) (sel : BitVec 3) (d : Name) (t : State),
          (reserve (s.word .G h) d).run (if clr = true ∧
          w.gstatus s.cur ≠ GStatus.reset then w.modStatus s.cur (fun _ => GStatus.reset) else w) = .ok ((), t))) ∧
    (∃ (o : Origin) (op : GibbsOp) (s : State), (s.core o.core).gibbs.word = some op ∧
        (∀ e f, op ≠ .load e f ∧ op ≠ .bias e f) ∧ op.checks ((s.gibbsDo o.core op).gctl o.core).gates = false) :=
  ⟨⟨h0, s0, (may rfl (by decide) rfl rfl rfl rfl), (by decide), 255, (by decide)⟩,
   ⟨h0, gib { Gibbs.reset with ctl := ctl0 }, (may rfl (by decide) rfl rfl rfl rfl), (by decide), 255, (by decide)⟩,
   ⟨h0, s0, (may rfl (by decide) rfl rfl rfl rfl), (by decide), .x 1, 4095, (by decide), (by decide)⟩,
   ⟨h0, tabled (reg 1 8191), (may rfl (by decide) rfl rfl rfl rfl), (by decide), .x 1, 4095, (by decide),
       (by decide +kernel), (by decide +kernel), (by decide +kernel), (by decide +kernel), (by decide +kernel),
       (by decide +kernel), (by decide +kernel)⟩,
   ⟨h0, tabled (reg 1 8191), (may rfl (by decide) rfl rfl rfl rfl), (by decide), .x 1, 4095, (by decide),
       (by decide +kernel), (by decide +kernel), (by decide +kernel), (by decide +kernel), (by decide +kernel),
       (by decide +kernel)⟩,
   ⟨h0, vs0, (may rfl (by decide) rfl rfl rfl rfl), (by decide), false, 255, .v 1, .x 0, _, _, (by decide), rfl,
       (by decide)⟩,
   ⟨h0, s0, (may rfl (by decide) rfl rfl rfl rfl), (by decide), .x 0, _, _, rfl, (by decide)⟩,
   ⟨h0, vs0, (may rfl (by decide) rfl rfl rfl rfl), (by decide), ⟨false, false⟩, .v 3, .v 3, _, _, _, rfl⟩,
   ⟨h0, vs0, (may rfl (by decide) rfl rfl rfl rfl), (by decide), true, .v 3, _, _, rfl⟩,
   ⟨h0, vs0, (may rfl (by decide) rfl rfl rfl rfl), (by decide), .v 3, (0x4000, 1024), (by decide), (by decide),
       (by decide), (by decide)⟩,
   ⟨h0, vs0, (may rfl (by decide) rfl rfl rfl rfl), (by decide), .v 4, (0x5000, 4096), (by decide), (by decide),
       (by decide), .x 0, (by decide), (by decide), (by decide)⟩,
   ⟨h0, gib { Gibbs.reset with status := { GStatus.reset with clip := true } },
       (may rfl (by decide) rfl rfl rfl rfl), (by decide), true, 7, .x 63, _, rfl⟩,
   ⟨o0 .G, .clear, gib { Gibbs.reset with word := some .clear }, (by decide), (fun _ _ => ⟨nofun, nofun⟩),
       (by decide)⟩⟩

theorem witness_ColourPhasesRun :
    (∃ (c : Nat) (s : State), (s.core c).gibbs.sweep = none) ∧
    (∃ (c : Nat) (s : State) (w : Sweep), (s.core c).gibbs.sweep = some w ∧ w.gate + 1 < (s.gctl c).gates) ∧
    (∃ (c : Nat) (s : State) (w : Sweep), (s.core c).gibbs.sweep = some w ∧ (s.gctl c).gates ≤ w.gate + 1 ∧
        w.left ≤ 1) ∧
    (∃ (c : Nat) (s : State) (w : Sweep), (s.core c).gibbs.sweep = some w ∧ (s.gctl c).gates ≤ w.gate + 1 ∧
        1 < w.left) ∧
    (∃ (c i : Nat) (w : Sweep) (s : State), (s.gctl c).replay = true ∧ i < 8192 ∧
        (s.cellColour c i ≠ w.gate ∨ s.cellClamp c i = true ∨ (s.gctl c).nact ≤ i)) ∧
    (∃ (c i : Nat) (w : Sweep) (s : State), tagOk (s.ownTag c) (s.ownTag c) = true ∧ i < (s.gctl c).nact ∧
        s.cellColour c i = w.gate ∧ s.cellClamp c i = false ∧ (s.gctl c).replay = true) ∧
    (∃ (c k i : Nat) (w : Sweep) (s : State), tagOk (s.ownTag c) (s.ownTag c) = true ∧
        (s.gateCells c w.gate)[k]? = some i ∧ (s.gctl c).replay = false) :=
  ⟨⟨0, s0, (by decide)⟩,
   ⟨0, gib { Gibbs.reset with sweep := some ⟨o0 .G, 1, 0, tag1, []⟩, ctl := { ctl0 with gates := 2 } }, _, rfl,
       (by decide +kernel)⟩,
   ⟨0, gib { Gibbs.reset with sweep := some ⟨o0 .G, 1, 0, tag1, []⟩, ctl := ctl0 }, _, rfl, (by decide +kernel),
       (by decide)⟩,
   ⟨0, gib { Gibbs.reset with sweep := some ⟨o0 .G, 2, 0, tag1, []⟩, ctl := ctl0 }, _, rfl, (by decide +kernel),
       (by decide)⟩,
   ⟨0, 8191, ⟨o0 .G, 1, 0, tag1, []⟩, gib { Gibbs.reset with ctl := { ctl0 with replay := true } }, (by decide),
       (by decide), (by decide +kernel)⟩,
   ⟨0, 0, ⟨o0 .G, 1, 0, tag1, []⟩, gib { Gibbs.reset with ctl := { ctl0 with replay := true, nact := 1 } },
       (by decide), (by decide), (by decide), (by decide), (by decide)⟩,
   ⟨0, 0, 0, ⟨o0 .G, 1, 0, tag1, []⟩, gib { Gibbs.reset with ctl := { ctl0 with nact := 1 } }, (by decide),
       (by decide +kernel), (by decide)⟩⟩

theorem witness_GcntcRule :
    (∃ (c : DCtx) (w : IWord), fTag w = 4 ∧ fOp w = 0x0A ∧ w.toNat % 2 ^ 31 ≠ 0) ∧
    (∃ (c : DCtx) (w : IWord) (h : Hdr), decodeWord c w = .ok (.gcntc h)) ∧
    (∃ (h : Hdr) (s : State), s.mayIssue .G h.wait ∧
        ((s.waited h.wait).core s.cur).wG.pend = (s.waited h.wait).gxchs s.cur) ∧
    (∃ (o : Origin) (s : State), (s.core o.core).gibbs.word = some .clear) :=
  ⟨⟨⟨.tenant, 0⟩, 0x850000000001, (by decide), (by decide), (by decide)⟩,
   ⟨⟨.tenant, 0⟩, 0x850000000000, h0, (by decide)⟩,
   ⟨h0, s0, (may rfl (by decide) rfl rfl rfl rfl), (by decide)⟩,
   ⟨o0 .G, gib { Gibbs.reset with word := some .clear }, (by decide)⟩⟩

theorem witness_GalleyWordsEnqueue :
    ∃ (i : Instr) (v : GalleySpec) (s s1 : State) (b : List Byte) (ord : Order) (pages : List Nat),
        galleyWord i = some v ∧ s.mayIssue v.w v.h.wait ∧
        (cardRecord (s.word v.w v.h) v.card).run (s.waited v.h.wait) = .ok (b, s1) ∧ (s1.core s.cur).ctx = .tenant ∧
        cardOk v.kind v.exch b = true ∧ (∀ sc, v.rel = some sc ∨ cardScope b = some sc →
        s1.scopeOk s.cur sc = true) ∧ (v.order (s.word v.w v.h) b).run s1 = .ok (ord, s1) ∧ s1.admits ord = true ∧
        (translate (s.word v.w v.h) ord.pages).run s1 = .ok (pages, s1) :=
  ⟨.xfill h0 none (.x 1) 0, _, rs (reg 1 0x3FFC0) 0x3FFC0 [5], _, _, _, _, rfl,
      (may rfl (by decide) rfl rfl rfl rfl), rfl, (by decide), (by decide +kernel),
      (fun sc h => h.elim (fun e => nomatch e) (fun e => nomatch (e.symm.trans (by decide +kernel : _ = (none : Option Scope))))),
      (fill_empty (by decide +kernel) (by decide +kernel) (by decide +kernel)), (by decide +kernel), rfl⟩

theorem witness_GalleyEvents :
    (∃ (id : Nat) (s : State), Tbl.find s.galleys id = none) ∧
    (∃ (id : Nat) (s : State) (g : Galley), Tbl.find s.galleys id = some g ∧ g.started = true) ∧
    (∃ (id : Nat) (s : State) (g : Galley), Tbl.find s.galleys id = some g ∧ g.started = false ∧
        (g.rel ≠ none ∨ s.edgeHolds g.core g.o.age g.reads g.writes = true ∨ (s.core g.core).gang ≠ g.gang ∨ (s.core g.core).frozen ≠ none)) ∧
    (∃ (id : Nat) (s : State) (g : Galley), Tbl.find s.galleys id = some g ∧ g.started = false ∧
        s.mayStart g = true ∧ g.job = .gxch) ∧
    (∃ (id : Nat) (s : State) (g : Galley), Tbl.find s.galleys id = some g ∧ g.started = false ∧
        s.mayStart g = true ∧ ∃ dm dc sp a, g.job = .put dm dc sp a) ∧
    (∃ (id : Nat) (s : State) (g : Galley), Tbl.find s.galleys id = some g ∧ g.started = false ∧
        s.mayStart g = true ∧ g.job ≠ .gxch ∧ (∀ a b c d, g.job ≠ .put a b c d) ∧ (∀ a b c, g.job ≠ .coll a b c) ∧
        g.job.listRange g.reads = none) ∧
    (∃ (id oor : Nat) (s : State) (g : Galley) (plan : List Piece), Tbl.find s.galleys id = some g) ∧
    (∃ (id : Nat) (s : State) (g : Galley), Tbl.find s.galleys id = some g ∧ g.accepted = true) ∧
    (∃ (id : Nat) (s : State) (g : Galley), Tbl.find s.galleys id = some g ∧ g.accepted = false ∧
        (s.gen g.vf ≠ g.gen ∨ s.gang g.gang = none)) ∧
    (∃ (id : Nat) (s : State) (g : Galley), Tbl.find s.galleys id = some g ∧ g.accepted = false ∧
        s.gen g.vf = g.gen ∧ s.gang g.gang ≠ none ∧
        (let far := g.writes.filter (fun r => isRS r.key && rsCore r.key ≠ g.core)
      (∀ r ∈ far, (s.core (rsCore r.key)).frozen = none ∧ (s.core (rsCore r.key)).gang = g.gang ∧
          s.full (rsCore r.key) (rsOff r.key) r.len = true))) ∧
    (∃ (id : Nat) (s : State) (g : Galley), Tbl.find s.galleys id = some g ∧ g.accepted = false ∧
        s.gen g.vf = g.gen ∧ s.gang g.gang ≠ none ∧
        (let far := g.writes.filter (fun r => isRS r.key && rsCore r.key ≠ g.core)
      (∃ r ∈ far, s.full (rsCore r.key) (rsOff r.key) r.len = false))) ∧
    (∃ (s : State) (tag : Tag) (c off n q : Nat), q ∈ granules off n) ∧
    (∃ (id : Nat) (s : State) (g : Galley) (p : Piece) (fs : List Piece) (bs : List Byte),
        Tbl.find s.galleys id = some g ∧ (∀ a b c d, g.job ≠ .put a b c d) ∧ (∀ a b c, g.job ≠ .coll a b c) ∧
        g.flight = p :: fs ∧ p.due ≤ s.now ∧ p.src = .data bs false ∧ bs ≠ [] ∧ p.holes = [] ∧ isVault p.dst = true ∧
        s.gen g.vf = g.gen) ∧
    (∃ (id : Nat) (s : State) (g : Galley) (p : Piece) (ps : List Piece), Tbl.find s.galleys id = some g ∧
        (∀ a b c d, g.job ≠ .put a b c d) ∧ (∀ a b c, g.job ≠ .coll a b c) ∧ g.flight = [] ∧ g.plan = p :: ps ∧
        p.due ≤ (s.core g.core).time ∧ (s.core g.core).gang = g.gang ∧ (s.core g.core).frozen ≠ none) ∧
    (∃ (id : Nat) (s : State) (g : Galley), Tbl.find s.galleys id = some g ∧
        (∀ tb t f n, g.job = .pref tb t f n → ∀ e ∈ (s.core g.core).agenda, ∀ c k, e.2 = .operandCacheFill c k →
        k.tensor ≠ t) ∧ g.o.core = g.core ∧ (s.core g.core).gang = g.gang ∧ (s.core g.core).xfence = none ∧
        (g.plan ≠ [] ∨ g.flight ≠ [] ∨ g.started = false ∨ g.waitAck ≠ 0 ∨ s.now < g.ack)) ∧
    (∃ (id : Nat) (s : State) (g : Galley), Tbl.find s.galleys id = some g ∧
        (∀ tb t f n, g.job = .pref tb t f n → ∀ e ∈ (s.core g.core).agenda, ∀ c k, e.2 = .operandCacheFill c k →
        k.tensor ≠ t) ∧ g.o.core = g.core ∧ (s.core g.core).gang = g.gang ∧ (s.core g.core).xfence = none ∧
        g.plan = [] ∧ g.flight = [] ∧ g.started = true ∧ g.waitAck = 0 ∧ g.ack ≤ s.now) ∧
    (∃ (id : Nat) (s : State) (g : Galley) (tb : List Byte) (t : BitVec 12) (f n : Nat),
        Tbl.find s.galleys id = some g ∧ g.job = .pref tb t f n ∧
        (∃ d c k, (d, Instr.operandCacheFill c k) ∈ (s.home g.gang g.core).agenda ∧ k.tensor = t)) ∧
    (∃ (n : Nat) (s : State) (l : CoalLine), Tbl.find s.coalescer n = some l ∧
        (∀ e ∈ s.coalescer, e.1 < n → e.2.key ≠ l.key) ∧
        (l.host = true ∨ s.poolDown.contains (s.poolPort l.key) = false)) ∧
    (∃ (n : Nat) (s : State) (l : CoalLine), Tbl.find s.coalescer n = some l ∧
        (∀ e ∈ s.coalescer, e.1 < n → e.2.key ≠ l.key) ∧ l.host = false ∧
        s.poolDown.contains (s.poolPort l.key) = true) ∧
    (∃ (n : Nat) (s : State) (l : CoalLine) (a : Nat), Tbl.find s.coalescer n = some l ∧ s.Canonical ∧
        l.bytes.length = 64) ∧
    (∃ (id : Nat) (s : State) (g : Galley), Tbl.find s.galleys id = some g ∧
        (s.gang g.gang).bind (fun v => v.phase) = none) ∧
    (∃ (id : Nat) (s : State) (g : Galley) (ph : Phase), Tbl.find s.galleys id = some g ∧
        (s.gang g.gang).bind (fun v => v.phase) = some ph ∧
        (let done := if ph.published.contains id then ph.published else ph.published ++ [id]
      (∃ e ∈ s.galleys, e.2.gang = g.gang ∧ e.2.job = .gxch ∧ e.1 ∉ done))) ∧
    (∃ (id : Nat) (s : State) (g : Galley) (ph : Phase), Tbl.find s.galleys id = some g ∧
        (s.gang g.gang).bind (fun v => v.phase) = some ph ∧
        (let done := if ph.published.contains id then ph.published else ph.published ++ [id]
      (∀ e ∈ s.galleys, e.2.gang = g.gang → e.2.job = .gxch → e.1 ∈ done))) ∧
    (∃ (id : Nat) (s : State) (g : Galley) (p : Piece) (fs : List Piece) (bs : List Byte) (bad : Bool),
        Tbl.find s.galleys id = some g ∧ g.flight = p :: fs ∧ p.src = .data bs bad ∧ s.gen g.vf = g.gen ∧
        (s.core g.core).gang = g.gang) :=
  ⟨⟨0, s0, (by decide)⟩,
   ⟨0, gal { galley0 with started := true }, _, rfl, (by decide)⟩,
   ⟨0, gal { galley0 with rel := some .chip }, _, rfl, (by decide), (by decide)⟩,
   ⟨0, gal { galley0 with job := .gxch }, _, rfl, (by decide), (by decide), (by decide)⟩,
   ⟨0, gal { galley0 with job := .put 1 0 false 0 }, _, rfl, (by decide), (by decide), _, _, _, _, rfl⟩,
   ⟨0, gal galley0, _, rfl, (by decide), (by decide), (by decide), (by intro a b c d h; cases h),
       (by intro a b c h; cases h), (by decide)⟩,
   ⟨0, 0, gal galley0, _, [], rfl⟩,
   ⟨0, gal { galley0 with accepted := true }, _, rfl, (by decide)⟩,
   ⟨0, gal { galley0 with gen := 2 }, _, rfl, (by decide), (.inl (by decide))⟩,
   ⟨0, { gal { galley0 with writes := [⟨keyRS 1 0, 64⟩] } with gangs := [(0, gang0)] }, _, rfl, (by decide),
       (by decide), (by decide), (by decide)⟩,
   ⟨0, { gal { galley0 with writes := [⟨keyRS 1 0, 64⟩] } with cores := [(1, { core0 with empty := [0] })], tags := [(keyRS 1 0, tag1)], gangs := [(0, gang0)] },
       _, rfl, (by decide), (by decide), (by decide), (by decide)⟩,
   ⟨s0, tag1, 0, 0, 4, 0, (by decide)⟩,
   ⟨0, gal { galley0 with flight := [piece0] }, _, _, _, _, rfl, (by intro a b c d h; cases h),
       (by intro a b c h; cases h), rfl, (by decide), rfl, (by decide), (by decide), (by decide), (by decide)⟩,
   ⟨0, { gal { galley0 with plan := [piece0] } with cores := [(0, { core0 with frozen := some .trap })] }, _, _, _,
       rfl, (by intro a b c d h; cases h), (by intro a b c h; cases h), (by decide), rfl, (by decide), (by decide),
       (by decide)⟩,
   ⟨0, gal { galley0 with plan := [piece0] }, _, rfl, (by intro tb t f n h; cases h), (by decide), (by decide),
       (by decide), (.inl (by decide))⟩,
   ⟨0, gal { galley0 with started := true }, _, rfl, (by intro tb t f n h; cases h), (by decide), (by decide),
       (by decide), (by decide), (by decide), (by decide), (by decide), (by decide)⟩,
   ⟨0, { gal { galley0 with job := .pref [] 0 0 0 } with cores := [(0, { core0 with agenda := [(0, .operandCacheFill 0 ⟨0, false, 0, 0, 0, 0⟩)] })] },
       _, _, _, _, _, rfl, rfl, (⟨0, 0, ⟨0, false, 0, 0, 0, 0⟩, List.mem_cons_self, rfl⟩)⟩,
   ⟨0, { s0 with coalescer := [(0, line0)] }, _, rfl, (by decide), (.inl rfl)⟩,
   ⟨0, { s0 with coalescer := [(0, { line0 with key := keyPool 0, host := false })], poolDown := [0], mem := [(keyTable 520, 1)] },
       _, rfl, (by decide), (by decide), (by decide +kernel)⟩,
   ⟨0, { s0 with coalescer := [(0, line0)] }, _, 0, rfl, (canon (by decide)), (by decide)⟩,
   ⟨0, gal galley0, _, rfl, (by decide)⟩,
   ⟨0, { s0 with galleys := [(0, { galley0 with job := .gxch }), (1, { galley0 with job := .gxch })], gangs := [(0, { gang0 with phase := some ⟨0, 0, [], [], []⟩ })] },
       _, _, rfl, rfl, (by decide)⟩,
   ⟨0, { gal { galley0 with job := .gxch } with gangs := [(0, { gang0 with phase := some ⟨0, 0, [], [], []⟩ })] }, _,
       _, rfl, rfl, (by decide)⟩,
   ⟨0, gal { galley0 with flight := [piece0] }, _, _, _, _, _, rfl, rfl, rfl, (by decide), (by decide)⟩⟩

theorem witness_FabricWordsComplete :
    (∃ (h : Hdr) (s : State), s.mayIssue .X h.wait ∧ (let w := s.waited h.wait
      (let busy := w.galleys.any (fun g => g.2.core = s.cur && g.2.o.walker = .X && g.2.gang = (w.core s.cur).gang)
      busy = true))) ∧
    (∃ (h : Hdr) (s : State), s.mayIssue .X h.wait ∧ (let w := s.waited h.wait
      (let busy := w.galleys.any (fun g => g.2.core = s.cur && g.2.o.walker = .X && g.2.gang = (w.core s.cur).gang)
      busy = false))) ∧
    (∃ (h : Hdr) (clr : Bool) (d : Name) (s t : State), s.mayIssue .X h.wait ∧ (let w := s.waited h.wait
      (let k := w.core s.cur
      (reserve (s.word .X h) d).run (if clr then w.modCore s.cur (fun k => { k with xpoison := 0, xoor := 0 }) else w) = .ok ((),
          t)))) ∧
    (∃ (h : Hdr) (op : AtomOp) (dbl uns : Bool) (d a b : Name) (s s1 s2 s3 s4 : State) (e x v : Word) (tag : BitVec 16),
        s.mayIssue .F h.wait ∧ (if op = .cas then (src (s.word .F h) d).run (s.waited h.wait) = .ok (e,
        s1) else e = 0 ∧ s1 = s.waited h.wait) ∧ (src (s.word .F h) a).run s1 = .ok (x, s2) ∧
        (src (s.word .F h) b).run s2 = .ok (v, s3) ∧ s3.freeTag s.cur = some tag ∧
        (reserve (s.word .F h) d).run s3 = .ok ((), s4) ∧ (let dm : BitVec 12 := BitVec.ofNat 12 (x.toNat / 2 ^ 52)
      (s3.core s.cur).ctx = .tenant ∧ bitsOf x.toNat 51 35 = 0 ∧ x.toNat % (if dbl then 8 else 4) = 0 ∧
          dm ≠ s3.moduleId)) ∧
    (∃ (h : Hdr) (card : Name) (n : BitVec 4) (s s1 : State) (r : List Byte) (tag : BitVec 16),
        s.mayIssue .F h.wait ∧ (steppedRecord (s.word .F h) card 32 32).run (s.waited h.wait) = .ok (r, s1) ∧
        s1.freeTag s.cur = some tag ∧ bitsOf (field r 0 8) 63 28 = 0 ∧ bitsOf (field r 0 8) 15 8 = 0 ∧
        (s1.core s.cur).ctx = .tenant ∧ (let dm : BitVec 12 := BitVec.ofNat 12 (bitsOf (field r 0 8) 27 16)
      dm ≠ s1.moduleId)) ∧
    (∃ (h : Hdr) (sc : Scope) (g : BitVec 4) (s : State), s.mayIssue .F h.wait ∧
        (s.waited h.wait).scopeOk s.cur sc = true) ∧
    (∃ (h : Hdr) (clr : Bool) (d : Name) (n : BitVec 4) (s t : State) (c : Counter), s.mayIssue .F h.wait ∧
        (let w := s.waited h.wait
      Tbl.find (w.core s.cur).counters n.toNat = some c ∧ c.tag = w.ownTag s.cur ∧ c.tag.gen ≠ 0 ∧
          (reserve (s.word .F h) d).run (if clr then w.modCore s.cur (fun k => { k with counters := Tbl.put k.counters n.toNat ⟨w.ownTag s.cur, 0, 0, 0⟩ }) else w) = .ok ((),
          t))) ∧
    (∃ (h : Hdr) (d : Name) (s t : State), s.mayIssue .F h.wait ∧ (let w := s.waited h.wait
      (reserve (s.word .F h) d).run w = .ok ((), t))) ∧
    (∃ (h : Hdr) (card : Name) (g : BitVec 4) (s s1 s2 : State) (off : Nat), (let i := (s.core s.cur).wF.grant
      (let wt := if i = 0 then h.wait else 0
      (let w := s.waited wt
      (let o := s.word .F h
      (let won := if i = 0 then banksOf off 8 else 0
      (let n := field (s1.read (s1.ownTag s.cur) (keyRS s.cur off) 8) 0 2
      (let list := s1.read (s1.ownTag s.cur) (keyRS s.cur off) (8 + 4 * n)
      (let parts := grantRuns off (8 + 4 * n)
      (let banks := fun j : Nat => (parts[j]?).elim 0 (fun r => banksOf r.1 r.2)
      s.mayIssue .F wt ∧ (recordAt o card 64 8).run w = .ok (off, w) ∧ (claimBanks o won).run w = .ok ((), s1) ∧
          1 ≤ n ∧ n ≤ 4096 ∧ off + 8 + 4 * n ≤ 0x40000 ∧ (s1.core s.cur).ctx = .tenant ∧
          s1.full s.cur off (8 + 4 * n) = true ∧ s1.hits s.cur (keyRS s.cur off) (8 + 4 * n) = false ∧
          ((listMembers (list.drop 8)).filter (· = (s1.moduleId, BitVec.ofNat 8 s.cur))).length = 1 ∧
          s1.colls.any (fun e => e.2.core = s.cur && e.2.gang = (s1.core s.cur).gang && e.2.group = g) = false ∧
          s1.galleys.any (fun e => e.2.core = s.cur && e.2.gang = (s1.core s.cur).gang && e.2.job.onGroup g) = false ∧
          (claimMore o won (banks i)).run s1 = .ok ((), s2) ∧ parts.length ≤ i + 1)))))))))) ∧
    (∃ (h : Hdr) (card : Name) (g : BitVec 4) (s s1 s2 : State) (off : Nat), (let i := (s.core s.cur).wF.grant
      (let wt := if i = 0 then h.wait else 0
      (let w := s.waited wt
      (let o := s.word .F h
      (let won := if i = 0 then banksOf off 8 else 0
      (let n := field (s1.read (s1.ownTag s.cur) (keyRS s.cur off) 8) 0 2
      (let list := s1.read (s1.ownTag s.cur) (keyRS s.cur off) (8 + 4 * n)
      (let parts := grantRuns off (8 + 4 * n)
      (let banks := fun j : Nat => (parts[j]?).elim 0 (fun r => banksOf r.1 r.2)
      s.mayIssue .F wt ∧ (recordAt o card 64 8).run w = .ok (off, w) ∧ (claimBanks o won).run w = .ok ((), s1) ∧
          1 ≤ n ∧ n ≤ 4096 ∧ off + 8 + 4 * n ≤ 0x40000 ∧ (s1.core s.cur).ctx = .tenant ∧
          s1.full s.cur off (8 + 4 * n) = true ∧ s1.hits s.cur (keyRS s.cur off) (8 + 4 * n) = false ∧
          ((listMembers (list.drop 8)).filter (· = (s1.moduleId, BitVec.ofNat 8 s.cur))).length = 1 ∧
          s1.colls.any (fun e => e.2.core = s.cur && e.2.gang = (s1.core s.cur).gang && e.2.group = g) = false ∧
          s1.galleys.any (fun e => e.2.core = s.cur && e.2.gang = (s1.core s.cur).gang && e.2.job.onGroup g) = false ∧
          (claimMore o won (banks i)).run s1 = .ok ((), s2) ∧ i + 1 < parts.length)))))))))) :=
  ⟨⟨h0, gal galley0, (may rfl (by decide) rfl rfl rfl rfl), (by decide)⟩,
   ⟨h0, s0, (may rfl (by decide) rfl rfl rfl rfl), (by decide)⟩,
   ⟨h0, true, .x 63, s0, _, (may rfl (by decide) rfl rfl rfl rfl), rfl⟩,
   ⟨h0, .cas, true, false, .x 63, .x 1, .x 2, reg 1 0x10000000000000, _, _, _, _, _, _, _, 0,
       (may rfl (by decide) rfl rfl rfl rfl), rfl, rfl, rfl, (by decide), rfl, (by decide), (by decide), (by decide),
       (by decide)⟩,
   ⟨h0, .x 1, 15, rs (reg 1 0x3FFE0) 0x3FFE0 [0, 0, 1], _, _, 0, (may rfl (by decide) rfl rfl rfl rfl), rfl,
       (by decide), (by decide), (by decide), (by decide), (by decide)⟩,
   ⟨h0, .chip, 15, s0, (may rfl (by decide) rfl rfl rfl rfl), (by decide)⟩,
   ⟨h0, true, .x 63, 15, st { core0 with counters := [(15, ⟨tag1, 1, 0, 0⟩)] }, _, _,
       (may rfl (by decide) rfl rfl rfl rfl), rfl, (by decide), (by decide), rfl⟩,
   ⟨h0, .x 63, s0, _, (may rfl (by decide) rfl rfl rfl rfl), rfl⟩,
   ⟨h0, .x 1, 15, rs (reg 1 0x3FFC0) 0x3FFC0 [1], _, _, _, (may rfl (by decide) rfl rfl rfl rfl), rfl, rfl,
       (by decide +kernel), (by decide +kernel), (by decide +kernel), (by decide +kernel), (by decide +kernel),
       (by decide +kernel), (by decide +kernel), (by decide +kernel), (by decide +kernel), rfl, (by decide +kernel)⟩,
   ⟨h0, .x 1, 15, { rs (reg 1 0x3E000) 0x3E000 (leBytes 8 1100 ++ leBytes 4 (2 ^ 16)) with moduleId := 1 }, _, _, _,
       (may rfl (by decide) rfl rfl rfl rfl), rfl, rfl, (by decide +kernel), (by decide +kernel),
       (by decide +kernel), (by decide +kernel), (by decide +kernel), (by decide +kernel), (by decide +kernel),
       (by decide +kernel), (by decide +kernel), rfl, (by decide +kernel)⟩⟩

theorem witness_CoreEvents :
    (∃ (c : Nat) (q : BitVec 5) (age : Nat) (v : Word) (tag : Tag) (s : State) (a b : List QEntry) (t0 : Tag) (v0 : Word),
        s.queue c q.toNat = a ++ ⟨t0, v0, some age⟩ :: b ∧ (∀ e ∈ a ++ b, e.wait ≠ some age)) ∧
    (∃ (c : Nat) (p : BitVec 4) (s : State), (Tbl.find (s.core c).ports p.toNat = none ∨ ∃ t,
        Tbl.find (s.core c).ports p.toNat = some t ∧ t.fetching = [])) ∧
    (∃ (c : Nat) (p : BitVec 4) (s : State) (t : PortSt) (i : Nat) (l : List Nat) (rows : List Nat),
        Tbl.find (s.core c).ports p.toNat = some t ∧ t.fetching = i :: l ∧ t.fetched.any (fun e => e.1 = i) = false ∧
        portRows s c t.desc i = some rows) ∧
    (∃ (c : Nat) (r : BankReq) (s : State), (s.core c).matq.find? (fun e => e.o.age = r.age) = none ∧
        (let own := (s.core c).claimed &&& r.banks
      (let lost := (s.core c).standing.foldl (fun m q => if q.age < r.age then m ||| (q.banks &&& r.banks) else m) own
      lost = 0))) ∧
    (∃ (c : Nat) (r : BankReq) (s : State), (s.core c).matq.find? (fun e => e.o.age = r.age) = none ∧
        (let own := (s.core c).claimed &&& r.banks
      (let lost := (s.core c).standing.foldl (fun m q => if q.age < r.age then m ||| (q.banks &&& r.banks) else m) own
      lost ≠ 0))) ∧
    (∃ (c : Nat) (r : BankReq) (s : State) (e : MatWait), (s.core c).matq.find? (fun e => e.o.age = r.age) = some e) ∧
    (∃ (c : Nat) (q r : BankReq) (s : State), q.age < r.age ∧ (s.core c).claimed = 0 ∧ (s.core c).standing = [] ∧
        (s.core c).matq = [] ∧ q.banks &&& r.banks ≠ 0) ∧
    (∃ (c : Nat) (v : BitVec 6) (sp : BitVec 2) (wr : Bool) (a : Nat) (s : State),
        (s.walk v sp.toNat wr a).2 = none) ∧
    (∃ (c : Nat) (v : BitVec 6) (sp : BitVec 2) (wr : Bool) (a : Nat) (s : State), ∃ big w phys,
        (s.walk v sp.toNat wr a).2 = some (big, w, phys) ∧ (s.core c).tcache.length < 256) :=
  ⟨⟨0, 0, 7, 1, tag1, que ⟨voidTag, 0, some 7⟩, [], [], _, _, rfl, (by decide)⟩,
   ⟨0, 15, s0, (.inl rfl)⟩,
   ⟨0, 15, st { core0 with ports := [(15, ⟨false, zeros 64, 0, [], [0]⟩)] }, _, _, _, List.replicate 16 0, rfl, rfl,
       (by decide), (by decide +kernel)⟩,
   ⟨0, ⟨0, 0xFFFFFFFF⟩, s0, (by decide), (by decide)⟩,
   ⟨0, ⟨0, 1⟩, st { core0 with claimed := 1 }, (by decide), (by decide)⟩,
   ⟨0, ⟨0, 0⟩, st { core0 with matq := [waitM none] }, _, rfl⟩,
   ⟨0, ⟨0, 1⟩, ⟨1, 3⟩, s0, (by decide), (by decide), (by decide), (by decide), (by decide)⟩,
   ⟨0, 0, 1, true, 0, s0, (by decide)⟩,
   ⟨0, 0, 1, true, 0x1FFFFF, { s0 with mem := tree0 }, true, true, 0, (by decide +kernel), (by decide)⟩⟩

theorem witness_LinkWordsComplete :
    (∃ (h : Hdr) (d a : Name) (s t : State), s.mayPrivilege .F h d a (.x 0) t ∧ (let x := (s.xArg h a).toNat
      2 ≤ x)) ∧
    (∃ (h : Hdr) (d a : Name) (s t : State), s.mayPrivilege .F h d a (.x 0) t ∧ (let x := (s.xArg h a).toNat
      (let v := decide (x = 1)
      x < 2 ∧ (t.table v).loaded = false))) ∧
    (∃ (h : Hdr) (d a : Name) (s t : State), s.mayPrivilege .F h d a (.x 0) t ∧ (let x := (s.xArg h a).toNat
      (let v := decide (x = 1)
      x < 2 ∧ (t.table v).loaded = true))) ∧
    (∃ (h : Hdr) (d a b : Name) (s t : State), s.mayPrivilege .F h d a b t ∧ (let x := (s.xArg h a).toNat
      (let off := (s.xArg h b).toNat
      (2 ≤ x ∨ 0x40000 < off + 4096)))) ∧
    (∃ (h : Hdr) (d a b : Name) (s t : State), s.mayPrivilege .F h d a b t ∧ (let x := (s.xArg h a).toNat
      (let off := (s.xArg h b).toNat
      (let v := decide (x = 1)
      ∃ u, x < 2 ∧ off + 4096 ≤ 0x40000 ∧ t.full s.cur off 4096 = true ∧
          t.hits s.cur (keyRS s.cur off) 4096 = false ∧
          (claimBanks (s.word .F h) (banksOf off 4096)).run t = .ok ((), u) ∧ t.versionBusy v = true)))) ∧
    (∃ (h : Hdr) (d a b : Name) (s t : State), s.mayPrivilege .F h d a b t ∧ (let x := (s.xArg h a).toNat
      (let off := (s.xArg h b).toNat
      (let v := decide (x = 1)
      ∃ u, x < 2 ∧ off + 4096 ≤ 0x40000 ∧ t.full s.cur off 4096 = true ∧
          t.hits s.cur (keyRS s.cur off) 4096 = false ∧
          (claimBanks (s.word .F h) (banksOf off 4096)).run t = .ok ((), u) ∧ t.versionBusy v = false ∧
          t.tableOf (t.read (t.ownTag s.cur) (keyRS s.cur off) 4096) = none)))) ∧
    (∃ (h : Hdr) (d a b : Name) (s t : State), s.mayPrivilege .F h d a b t ∧ (let x := (s.xArg h a).toNat
      (let off := (s.xArg h b).toNat
      (let v := decide (x = 1)
      ∃ u, x < 2 ∧ off + 4096 ≤ 0x40000 ∧ t.full s.cur off 4096 = true ∧
          t.hits s.cur (keyRS s.cur off) 4096 = false ∧
          (claimBanks (s.word .F h) (banksOf off 4096)).run t = .ok ((), u) ∧ t.versionBusy v = false ∧ ∃ r,
          t.tableOf (t.read (t.ownTag s.cur) (keyRS s.cur off) 4096) = some r)))) ∧
    (∃ (h : Hdr) (d a b : Name) (s t : State), s.mayPrivilege .F h d a b t ∧ (s.xArg h a).toNat < 2 ∧
        (let v := decide ((s.xArg h a).toNat = 1)
      (t.table v).loaded = true ∧ t.rv = v)) ∧
    (∃ (h : Hdr) (d a b : Name) (s t : State), s.mayPrivilege .F h d a b t ∧ (s.xArg h a).toNat < 2 ∧
        (let v := decide ((s.xArg h a).toNat = 1)
      (let r := (s.xArg h b).toNat
      (let out := t.activePorts
      (t.table v).loaded = true ∧ t.rv ≠ v ∧ 1 ≤ r ∧ r ≤ (t.table v).hops ∧ out = [])))) ∧
    (∃ (h : Hdr) (d a b : Name) (s t : State), s.mayPrivilege .F h d a b t ∧ (s.xArg h a).toNat < 2 ∧
        (let v := decide ((s.xArg h a).toNat = 1)
      (let r := (s.xArg h b).toNat
      (let out := t.activePorts
      (t.table v).loaded = true ∧ t.rv ≠ v ∧ 1 ≤ r ∧ r ≤ (t.table v).hops ∧ out ≠ [])))) ∧
    (∃ (h : Hdr) (d a b : Name) (s t : State), s.mayPrivilege .F h d a b t ∧ (s.xArg h a).toNat < 2 ∧
        (let v := decide ((s.xArg h a).toNat = 1)
      (t.table v).loaded = true ∧ t.rv ≠ v ∧ t.ploughVersion = v ∧ t.roundsEnded = (t.table v).hops)) ∧
    (∃ (h : Hdr) (d a b : Name) (s t : State), s.mayPrivilege .F h d a b t ∧ (s.xArg h a).toNat < 2 ∧
        (let v := decide ((s.xArg h a).toNat = 1)
      (t.table v).loaded = true ∧ (t.rv = v ∨ t.ploughVersion ≠ v ∨ t.roundsEnded ≠ (t.table v).hops))) ∧
    (∃ (h : Hdr) (d a b : Name) (s t : State), s.mayPrivilege .F h d a b t ∧ (let p := (s.xArg h a).toNat
      t.portExists p = false ∧ ∃ i, i ∈ [Instr.flnkTrain h d a b, .flnkDrain h d a b, .flnkRelock h d a b,
          .flnkQuery h d a b, .flnkDown h d a b])) ∧
    (∃ (h : Hdr) (d a b : Name) (s t : State), s.mayPrivilege .F h d a b t ∧ (let p := (s.xArg h a).toNat
      t.portExists p = true ∧ (s.xArg h b).toNat = 0)) ∧
    (∃ (h : Hdr) (d a b : Name) (s t : State), s.mayPrivilege .F h d a b t ∧ (let p := (s.xArg h a).toNat
      t.portExists p = true ∧ (t.port p).st = .down)) ∧
    (∃ (h : Hdr) (d a b : Name) (s t : State), s.mayPrivilege .F h d a b t ∧ (let p := (s.xArg h a).toNat
      t.portExists p = true ∧ (t.port p).st ≠ .down)) ∧
    (∃ (h : Hdr) (d a b : Name) (s t : State), s.mayPrivilege .F h d a b t ∧ (let p := (s.xArg h a).toNat
      t.portExists p = true ∧ (t.port p).st = .active ∧ isGlobal p = true)) ∧
    (∃ (h : Hdr) (d a b : Name) (s t : State), s.mayPrivilege .F h d a b t ∧ (let p := (s.xArg h a).toNat
      t.portExists p = true ∧ (t.port p).st = .dark ∧ (t.port p).newCircuit = true)) :=
  ⟨⟨h0, .x 63, .x 1, reg 1 2, _, (mayP (may rfl (by decide) rfl rfl rfl rfl) rfl rfl rfl rfl), (by decide)⟩,
   ⟨h0, .x 63, .x 0, s0, _, (mayP (may rfl (by decide) rfl rfl rfl rfl) rfl rfl rfl rfl), (by decide), (by decide)⟩,
   ⟨h0, .x 63, .x 1, { reg 1 1 with route1 := table8 }, _,
       (mayP (may rfl (by decide) rfl rfl rfl rfl) rfl rfl rfl rfl), (by decide), (by decide)⟩,
   ⟨h0, .x 63, .x 0, .x 1, reg 1 0x3F001, _, (mayP (may rfl (by decide) rfl rfl rfl rfl) rfl rfl rfl rfl),
       (by decide)⟩,
   ⟨h0, .x 63, .x 0, .x 1, { reg 1 0x3F000 with route0 := table8, rv := false }, _,
       (mayP (may rfl (by decide) rfl rfl rfl rfl) rfl rfl rfl rfl), _, (by decide), (by decide), (by decide),
       (by decide), rfl, (by decide +kernel)⟩,
   ⟨h0, .x 63, .x 0, .x 1, reg 1 0x3F000, _, (mayP (may rfl (by decide) rfl rfl rfl rfl) rfl rfl rfl rfl), _,
       (by decide), (by decide), (by decide), (by decide), rfl, (by decide), (by decide +kernel)⟩,
   ⟨h0, .x 63, .x 0, .x 1, rs (reg 1 0x3F000) 0x3F000 [8], _,
       (mayP (may rfl (by decide) rfl rfl rfl rfl) rfl rfl rfl rfl), _, (by decide), (by decide), (by decide),
       (by decide), rfl, (by decide),
       { table8 with gmask := ((List.range 128).filter (· ≠ 0)).map (fun i => (i, 0)), mport := ((List.range 32).filter (· ≠ 0)).map (fun i => (i, 0)) },
       (by decide +kernel)⟩,
   ⟨h0, .x 63, .x 0, .x 0, { s0 with route0 := table8 }, _,
       (mayP (may rfl (by decide) rfl rfl rfl rfl) rfl rfl rfl rfl), (by decide), (by decide), (by decide)⟩,
   ⟨h0, .x 63, .x 1, .x 2, { st { core0 with x := [(1, 1), (2, 8)] } with route1 := table8 }, _,
       (mayP (may rfl (by decide) rfl rfl rfl rfl) rfl rfl rfl rfl), (by decide), (by decide), (by decide),
       (by decide), (by decide), (by decide)⟩,
   ⟨h0, .x 63, .x 1, .x 2, { fp 1 (port0 .active) (st { core0 with x := [(1, 1), (2, 8)] }) with route1 := table8 },
       _, (mayP (may rfl (by decide) rfl rfl rfl rfl) rfl rfl rfl rfl), (by decide), (by decide), (by decide),
       (by decide), (by decide), (by decide +kernel)⟩,
   ⟨h0, .x 63, .x 1, .x 0, { reg 1 1 with route1 := table8, ploughVersion := true, roundsEnded := 8 }, _,
       (mayP (may rfl (by decide) rfl rfl rfl rfl) rfl rfl rfl rfl), (by decide), (by decide), (by decide),
       (by decide), (by decide)⟩,
   ⟨h0, .x 63, .x 0, .x 0, { s0 with route0 := table8 }, _,
       (mayP (may rfl (by decide) rfl rfl rfl rfl) rfl rfl rfl rfl), (by decide), (by decide), (by decide)⟩,
   ⟨h0, .x 63, .x 0, .x 0, s0, _, (mayP (may rfl (by decide) rfl rfl rfl rfl) rfl rfl rfl rfl), (by decide),
       .flnkTrain h0 (.x 63) (.x 0) (.x 0), List.mem_cons_self⟩,
   ⟨h0, .x 63, .x 1, .x 0, reg 1 95, _, (mayP (may rfl (by decide) rfl rfl rfl rfl) rfl rfl rfl rfl), (by decide),
       (by decide)⟩,
   ⟨h0, .x 63, .x 1, .x 0, reg 1 95, _, (mayP (may rfl (by decide) rfl rfl rfl rfl) rfl rfl rfl rfl), (by decide),
       (by decide)⟩,
   ⟨h0, .x 63, .x 1, .x 0, fp 95 (port0 .active) (reg 1 95), _,
       (mayP (may rfl (by decide) rfl rfl rfl rfl) rfl rfl rfl rfl), (by decide), (by decide)⟩,
   ⟨h0, .x 63, .x 1, .x 0, fp 95 (port0 .active) (reg 1 95), _,
       (mayP (may rfl (by decide) rfl rfl rfl rfl) rfl rfl rfl rfl), (by decide), (by decide), (by decide)⟩,
   ⟨h0, .x 63, .x 1, .x 0, fp 95 { port0 .dark with newCircuit := true } (reg 1 95), _,
       (mayP (may rfl (by decide) rfl rfl rfl rfl) rfl rfl rfl rfl), (by decide), (by decide), (by decide)⟩⟩

set_option maxRecDepth 100000 in
theorem witness_LinkEvents :
    (∃ (p : BitVec 7) (s : State), s.portExists p.toNat = false ∧ ∃ i,
        ((∃ f, i = Instr.flitReceive p f) ∨ i = .flitReplay p ∨ i = .replayTimeout p ∨ (∃ g,
        i = .lossOfLight p g) ∨ (∃ w, i = .retrainStart p w) ∨ (∃ g, i = .retrainDone p g) ∨ (∃ b,
        i = .trainingDone p b) ∨ i = .drainDone p ∨ i = .circuitReported p)) ∧
    (∃ (p : BitVec 7) (s : State) (f : List Byte), s.portExists p.toNat = true ∧ (let t := s.port p.toNat
      t.st ≠ .active ∧ t.st ≠ .draining)) ∧
    (∃ (p : BitVec 7) (s : State) (f : List Byte), s.portExists p.toNat = true ∧ (let t := s.port p.toNat
      t.st = .active ∧ (flitDamaged f = true ∨ flitSeq f ≠ (t.lastRx + 1) % 4096))) ∧
    (∃ (p : BitVec 7) (s : State) (f : List Byte), s.portExists p.toNat = true ∧ (let t := s.port p.toNat
      t.st = .active ∧ flitDamaged f = false ∧ flitSeq f = (t.lastRx + 1) % 4096 ∧ flitRreq f = false ∧
          (∀ k, k < 10 → segKind f k = 0) ∧
          s.fports.all (fun e => e.2.queue.all (fun q => q.2.isEmpty) && e.2.resps.isEmpty && e.2.rest.isEmpty) = true)) ∧
    (∃ (p : BitVec 7) (s : State), s.portExists p.toNat = true ∧ (let t := s.port p.toNat
      t.tx = [])) ∧
    (∃ (p : BitVec 7) (s : State), s.portExists p.toNat = true ∧ (let t := s.port p.toNat
      t.tx ≠ [])) ∧
    (∃ (p : BitVec 7) (s : State), s.portExists p.toNat = true ∧ (let t := s.port p.toNat
      ∃ e l, t.tx = e :: l ∧ e.2.1 + 5400 ≤ s.now)) ∧
    (∃ (p : BitVec 7) (s : State), s.portExists p.toNat = true ∧ (let t := s.port p.toNat
      ∃ e l, t.tx = e :: l ∧ s.now < e.2.1 + 5400)) ∧
    (∃ (p : BitVec 7) (g : BitVec 2) (s : State), s.portExists p.toNat = true ∧ isGlobal p.toNat = false) ∧
    (∃ (p : BitVec 7) (g : BitVec 2) (s : State), s.portExists p.toNat = true ∧ (let t := s.port p.toNat
      (let m := t.mask &&& ~~~(groupMask g.toNat)
      isGlobal p.toNat = true ∧ t.st = .active ∧ m = 0))) ∧
    (∃ (p : BitVec 7) (g : BitVec 2) (s : State), s.portExists p.toNat = true ∧ (let t := s.port p.toNat
      (let m := t.mask &&& ~~~(groupMask g.toNat)
      isGlobal p.toNat = true ∧ t.st = .active ∧ m ≠ 0 ∧ t.retraining ≠ some g))) ∧
    (∃ (p : BitVec 7) (g : BitVec 2) (s : State), s.portExists p.toNat = true ∧ (let t := s.port p.toNat
      t.retraining = some g)) ∧
    (∃ (p : BitVec 7) (g : BitVec 2) (s : State), s.portExists p.toNat = true ∧ (let t := s.port p.toNat
      t.retraining ≠ some g)) ∧
    (∃ (p : BitVec 7) (w : BitVec 4) (s : State), s.portExists p.toNat = true ∧ isGlobal p.toNat = true ∧
        (let t := s.port p.toNat
      t.retraining ≠ none)) ∧
    (∃ (p : BitVec 7) (w : BitVec 4) (s : State), s.portExists p.toNat = true ∧ isGlobal p.toNat = true ∧
        (let t := s.port p.toNat
      (let m := t.mask &&& ~~~(groupMask (w.toNat / 4))
      m = 0))) ∧
    (∃ (p : BitVec 7) (w : BitVec 4) (s : State), s.portExists p.toNat = true ∧ isGlobal p.toNat = true ∧
        (let t := s.port p.toNat
      (let m := t.mask &&& ~~~(groupMask (w.toNat / 4))
      t.st = .active ∧ t.retraining = none ∧ m ≠ t.mask ∧ m ≠ 0))) ∧
    (∃ (p : BitVec 7) (s : State), s.portExists p.toNat = true ∧ (let t := s.port p.toNat
      (t.st = .training ∨ t.st = .relock) ∧ (isGlobal p.toNat = false ∨ t.mask ≠ 0))) ∧
    (∃ (p : BitVec 7) (s : State), s.portExists p.toNat = true ∧ s.joined = false) ∧
    (∃ (p : BitVec 7) (s : State), s.portExists p.toNat = true ∧ s.joined = true) ∧
    (∃ (p : BitVec 7) (s : State), s.portExists p.toNat = true ∧ (let t := s.port p.toNat
      t.st ≠ .training ∧ t.st ≠ .relock)) ∧
    (∃ (p : BitVec 7) (s : State), s.portExists p.toNat = true ∧ (let t := s.port p.toNat
      t.st = .draining ∧ t.ploughed = [] ∧ t.tx = [])) ∧
    (∃ (p : BitVec 7) (s : State), s.portExists p.toNat = true ∧ (let t := s.port p.toNat
      (t.st ≠ .draining ∨ t.ploughed ≠ [] ∨ t.tx ≠ []))) ∧
    (∃ (p : BitVec 7) (s : State), s.portExists p.toNat = true ∧ (let t := s.port p.toNat
      t.st = .dark)) :=
  ⟨⟨0, s0, (by decide), .flitReplay 0, (.inr (.inl rfl))⟩,
   ⟨1, s0, [], (by decide), (by decide), (by decide)⟩,
   ⟨95, fp 95 (port0 .active) s0, [], (by decide), (by decide), (by decide)⟩,
   ⟨95, fp 95 (port0 .active) s0, flit1, (by decide), (by decide), (by decide +kernel), (by decide +kernel),
       (by decide +kernel), (by decide +kernel), (by decide)⟩,
   ⟨95, s0, (by decide), (by decide)⟩,
   ⟨95, fp 95 { port0 .active with tx := [(1, 0, [])] } s0, (by decide), (by decide)⟩,
   ⟨95, fp 95 { port0 .active with tx := [(1, 0, [])] } { s0 with now := 5400 }, (by decide), _, _, rfl, (by decide)⟩,
   ⟨95, fp 95 { port0 .active with tx := [(1, 0, [])] } { s0 with now := 5399 }, (by decide), _, _, rfl, (by decide)⟩,
   ⟨31, 0, s0, (by decide), (by decide)⟩,
   ⟨95, 3, fp 95 { port0 .active with mask := 0xF000 } s0, (by decide), (by decide), (by decide), (by decide)⟩,
   ⟨95, 3, fp 95 { port0 .active with mask := 0xFFFF } s0, (by decide), (by decide), (by decide), (by decide),
       (by decide)⟩,
   ⟨95, 3, fp 95 { port0 .active with retraining := some 3 } s0, (by decide), (by decide)⟩,
   ⟨95, 3, fp 95 (port0 .active) s0, (by decide), (by decide)⟩,
   ⟨95, 15, fp 95 { port0 .active with retraining := some 3 } s0, (by decide), (by decide), (by decide)⟩,
   ⟨95, 15, fp 95 { port0 .active with mask := 0xF000 } s0, (by decide), (by decide), (by decide)⟩,
   ⟨95, 15, fp 95 { port0 .active with mask := 0xFFFF } s0, (by decide), (by decide), (by decide), (by decide),
       (by decide), (by decide)⟩,
   ⟨31, fp 31 (port0 .relock) s0, (by decide), (.inr (by decide)), (.inl (by decide))⟩,
   ⟨31, fp 31 (port0 .relock) s0, (by decide), (by decide)⟩,
   ⟨31, { fp 31 (port0 .relock) s0 with joined := true }, (by decide), (by decide)⟩,
   ⟨31, fp 31 (port0 .active) s0, (by decide), (by decide), (by decide)⟩,
   ⟨95, fp 95 (port0 .draining) s0, (by decide), (by decide), (by decide), (by decide)⟩,
   ⟨95, s0, (by decide), (by decide)⟩,
   ⟨95, fp 95 (port0 .dark) s0, (by decide), (by decide)⟩⟩

set_option maxRecDepth 100000 in
theorem witness_FabricArrivals :
    (∃ (p : Packet) (s : State), s.aged p.stamp 64 = true ∧ p.data ≠ [] ∧ p.opnd0 = 0) ∧
    (∃ (p : Packet) (s : State), s.aged p.stamp 64 = true ∧
        (∀ e ∈ s.agenda, e.1 ≤ s.now → ∀ o r d m key, e.2 = .atomicAtWriteQueue o r d m →
        s.vaultKey p.vf p.addr.toNat = some key → r.key / 64 ≠ key / 64)) ∧
    (∃ (p : Packet) (s : State), s.aged p.stamp 64 = false ∧ s.gen p.vf ≠ p.gen ∧ p.data ≠ []) ∧
    (∃ (p : Packet) (s : State), s.aged p.stamp 64 = false ∧ s.gen p.vf ≠ p.gen ∧
        (∀ e ∈ s.agenda, e.1 ≤ s.now → ∀ o r d m key, e.2 = .atomicAtWriteQueue o r d m →
        s.vaultKey p.vf p.addr.toNat = some key → r.key / 64 ≠ key / 64)) ∧
    (∃ (p : Packet) (s : State) (o : Origin) (r : AtomicReq) (d : Name) (m t key n : Nat),
        n = (if p.opword.getLsbD 1 then 8 else 4) ∧ p.addr.toNat % n = 0 ∧ p.opword.toNat < 28 ∧
        s.vaultKey p.vf p.addr.toNat = some key ∧ (t, Instr.atomicAtWriteQueue o r d m) ∈ s.agenda ∧ t ≤ s.now ∧
        r.key / 64 = key / 64) ∧
    (∃ (p : Packet) (s : State) (r : Reply), s.aged p.stamp 64 = false ∧ s.gen p.vf = p.gen ∧
        s.reply (replyKeyOf p) = some r ∧ (∀ e ∈ s.agenda, e.1 ≤ s.now → ∀ o r d m key,
        e.2 = .atomicAtWriteQueue o r d m → s.vaultKey p.vf p.addr.toNat = some key → r.key / 64 ≠ key / 64)) ∧
    (∃ (p : Packet) (s : State), p.data = []) ∧
    (∃ (p : Packet) (s : State), p.data ≠ [] ∧ s.aged p.stamp 64 = false ∧ s.gen p.vf = p.gen ∧ p.opnd1 ≠ 0 ∧
        s.rowIn p = none) ∧
    (∃ (p : Packet) (s : State), p.data ≠ [] ∧ s.aged p.stamp 64 = false ∧ s.gen p.vf = p.gen ∧ p.opnd1 ≠ 0 ∧ ∃ t,
        s.rowIn p = some t) ∧
    (∃ (p : Packet) (s : State), ∃ rs, s.vaultRuns p.vf p.addr.toNat (p.data.take p.opnd1.toNat).length = some rs) ∧
    (∃ (p : Packet) (s : State), p.data ≠ [] ∧ (s.aged p.stamp 64 = false ∨ p.opnd0 ≠ 0) ∧ s.gen p.vf = p.gen ∧
        p.opnd1 = 0 ∧ s.putKeys p = none) ∧
    (∃ (p : Packet) (s : State), p.data ≠ [] ∧ (s.aged p.stamp 64 = false ∨ p.opnd0 ≠ 0) ∧ s.gen p.vf = p.gen ∧
        p.opnd1 = 0 ∧ ∃ keys, s.putKeys p = some keys ∧ p.addr.getLsbD 63 = false) ∧
    (∃ (p : Packet) (s : State), p.data ≠ [] ∧ (s.aged p.stamp 64 = false ∨ p.opnd0 ≠ 0) ∧ s.gen p.vf = p.gen ∧
        p.opnd1 = 0 ∧ ∃ keys, s.putKeys p = some keys ∧ p.addr.getLsbD 63 = true ∧ (let c := p.dstCore.toNat
      (let off := p.addr.toNat % 2 ^ 18
      (s.core c).inText off p.data.length = true))) ∧
    (∃ (p : Packet) (s : State), p.data ≠ [] ∧ (s.aged p.stamp 64 = false ∨ p.opnd0 ≠ 0) ∧ s.gen p.vf = p.gen ∧
        p.opnd1 = 0 ∧ ∃ keys, s.putKeys p = some keys ∧ p.addr.getLsbD 63 = true ∧ (let c := p.dstCore.toNat
      (let off := p.addr.toNat % 2 ^ 18
      (s.core c).inText off p.data.length = false ∧ (s.core c).frozen ≠ none))) ∧
    (∃ (p : Packet) (s : State), p.data ≠ [] ∧ (s.aged p.stamp 64 = false ∨ p.opnd0 ≠ 0) ∧ s.gen p.vf = p.gen ∧
        p.opnd1 = 0 ∧ ∃ keys, s.putKeys p = some keys ∧ p.addr.getLsbD 63 = true ∧ (let c := p.dstCore.toNat
      (let off := p.addr.toNat % 2 ^ 18
      (s.core c).inText off p.data.length = false ∧ (s.core c).frozen = none ∧ p.opnd0 = 0 ∧
          s.full c off p.data.length = false))) ∧
    (∃ (p : Packet) (s : State), p.data ≠ [] ∧ (s.aged p.stamp 64 = false ∨ p.opnd0 ≠ 0) ∧ s.gen p.vf = p.gen ∧
        p.opnd1 = 0 ∧ ∃ keys, s.putKeys p = some keys ∧ p.addr.getLsbD 63 = true ∧ (let c := p.dstCore.toNat
      (let off := p.addr.toNat % 2 ^ 18
      (s.core c).inText off p.data.length = false ∧ (s.core c).frozen = none ∧ p.opnd0 = 0 ∧
          s.full c off p.data.length = true))) ∧
    (∃ (p : Packet) (s : State), p.data ≠ [] ∧ (s.aged p.stamp 64 = false ∨ p.opnd0 ≠ 0) ∧ s.gen p.vf = p.gen ∧
        p.opnd1 = 0 ∧ ∃ keys, s.putKeys p = some keys ∧ p.addr.getLsbD 63 = true ∧ (let c := p.dstCore.toNat
      (let off := p.addr.toNat % 2 ^ 18
      (s.core c).inText off p.data.length = false ∧ (s.core c).frozen = none ∧ p.opnd0 ≠ 0 ∧
          (s.core c).banksLost (p.opnd0.toNat - 1) (banksOf off p.data.length) = 0))) ∧
    (∃ (p : Packet) (s : State), p.data ≠ [] ∧ (s.aged p.stamp 64 = false ∨ p.opnd0 ≠ 0) ∧ s.gen p.vf = p.gen ∧
        p.opnd1 = 0 ∧ ∃ keys, s.putKeys p = some keys ∧ p.addr.getLsbD 63 = true ∧ (let c := p.dstCore.toNat
      (let off := p.addr.toNat % 2 ^ 18
      (s.core c).inText off p.data.length = false ∧ (s.core c).frozen = none ∧ p.opnd0 ≠ 0 ∧
          (s.core c).banksLost (p.opnd0.toNat - 1) (banksOf off p.data.length) ≠ 0))) ∧
    (∃ (p : Packet) (s : State) (key n : Nat), s.aged p.stamp 64 = false ∧ s.gen p.vf = p.gen ∧
        (∀ e ∈ s.agenda, e.1 ≤ s.now → ∀ o r d m key, e.2 = .atomicAtWriteQueue o r d m →
        s.vaultKey p.vf p.addr.toNat = some key → r.key / 64 ≠ key / 64) ∧ s.reply (replyKeyOf p) = none ∧
        s.replyFull = false ∧ n = (if p.opword.getLsbD 1 then 8 else 4) ∧ p.addr.toNat % n = 0 ∧
        p.opword.toNat < 28 ∧ s.vaultKey p.vf p.addr.toNat = some key ∧ s.anyBad ⟨false, p.vf, p.gen⟩ key n = false) ∧
    (∃ (p : Packet) (s : State), s.aged p.stamp 64 = false ∧ s.gen p.vf = p.gen ∧ s.reply (replyKeyOf p) = none ∧
        s.replyFull = false ∧ s.ownsCore p.vf p.dstCore.toNat = true ∧
        ((s.core p.dstCore.toNat).frozen ≠ none ∨ 12 < (s.queue p.dstCore.toNat 15).length)) ∧
    (∃ (p : Packet) (s : State), s.aged p.stamp 64 = false ∧ s.gen p.vf = p.gen ∧ s.reply (replyKeyOf p) = none ∧
        s.replyFull = false ∧ s.ownsCore p.vf p.dstCore.toNat = true ∧ (s.core p.dstCore.toNat).frozen = none ∧
        (s.queue p.dstCore.toNat 15).length ≤ 12) ∧
    (∃ (port : BitVec 7) (p : Packet) (s : State), s.portExists port.toNat = true ∧ p.opword.toNat % 16 ≠ 0 ∧
        (p.rv ≠ s.ploughVersion ∨ p.opword.toNat % 16 ≠ s.ploughRound)) ∧
    (∃ (port : BitVec 7) (p : Packet) (s : State), s.portExists port.toNat = true ∧
        p.opword.toNat % 16 = s.ploughRound ∧ s.ploughRound ≠ 0 ∧ p.rv = s.ploughVersion) ∧
    (∃ (port : BitVec 7) (vc : BitVec 2) (ver : Bool) (rnd : BitVec 4) (n : Nat) (s : State),
        s.portExists port.toNat = true ∧ s.ploughedIn = []) ∧
    (∃ (port : BitVec 7) (vc : BitVec 2) (ver : Bool) (rnd : BitVec 4) (n : Nat) (s : State),
        s.portExists port.toNat = true ∧ s.ploughedIn = [(port.toNat, vc, ver, rnd, n)] ∧ s.leftModule n = false) ∧
    (∃ (port : BitVec 7) (vc : BitVec 2) (ver : Bool) (rnd : BitVec 4) (n : Nat) (s : State),
        s.portExists port.toNat = true ∧ s.ploughedIn = [(port.toNat, vc, ver, rnd, n)] ∧ s.leftModule n = true) ∧
    (∃ (r : Response) (s : State) (f : FabOp), (r.kind = .ack ∨ r.kind = .result) ∧
        Tbl.find s.ops (opKey r.dstCore.toNat r.tag) = some f ∧
        (f.pkt.vf ≠ r.vf ∨ f.pkt.gen ≠ r.gen ∨ s.gen r.vf ≠ r.gen)) ∧
    (∃ (r : Response) (s : State) (f : FabOp), (r.kind = .ack ∨ r.kind = .result) ∧
        Tbl.find s.ops (opKey r.dstCore.toNat r.tag) = some f ∧ f.pkt.vf = r.vf ∧ f.pkt.gen = r.gen ∧
        s.gen r.vf = r.gen ∧ f.pkt.op = .put ∧ f.tries = 0 ∧ r.status ≠ 2) ∧
    (∃ (core : Nat) (tag : BitVec 16) (s : State) (f : FabOp), Tbl.find s.ops (opKey core tag) = none) ∧
    (∃ (core : Nat) (tag : BitVec 16) (s : State) (f : FabOp), Tbl.find s.ops (opKey core tag) = some f ∧
        f.acked = none ∧ f.tries < 2 ∧ s.aged f.pkt.stamp (16 * (f.tries + 1)) = true) ∧
    (∃ (core : Nat) (tag : BitVec 16) (s : State) (f : FabOp), Tbl.find s.ops (opKey core tag) = some f ∧
        f.acked = none ∧ f.tries < 3 ∧ s.aged f.pkt.stamp (16 * (f.tries + 1)) = false) ∧
    (∃ (core : Nat) (tag : BitVec 16) (s : State) (f : FabOp), Tbl.find s.ops (opKey core tag) = some f ∧
        (f.acked ≠ none ∨ 3 ≤ f.tries)) ∧
    (∃ (core : Nat) (tag : BitVec 16) (s : State) (f : FabOp), Tbl.find s.ops (opKey core tag) = some f ∧
        s.aged f.pkt.stamp 64 = false) ∧
    (∃ (core : Nat) (tag : BitVec 16) (s : State) (f : FabOp), Tbl.find s.ops (opKey core tag) = some f ∧ ∃ st,
        f.acked = some st ∧ s.aged f.pkt.stamp 64 = true) ∧
    (∃ (core : Nat) (tag : BitVec 16) (s : State) (f : FabOp), Tbl.find s.ops (opKey core tag) = some f ∧
        f.acked = none ∧ s.aged f.pkt.stamp 64 = true) ∧
    (∃ (k : ReplyKey) (s : State) (r : Reply), s.reply k = some r) ∧
    (∃ (m : CollMsg) (s : State), m.dstMod ≠ s.moduleId) ∧
    (∃ (m : CollMsg) (s : State), m.dstMod = s.moduleId ∧ m.srcMod = s.moduleId ∧ s.gen m.vf ≠ m.gen) ∧
    (∃ (m : CollMsg) (s : State), m.dstMod = s.moduleId ∧ m.srcMod = s.moduleId ∧ s.gen m.vf = m.gen ∧
        isRow m.body = false) ∧
    (∃ (m : CollMsg) (s : State), ∃ a bad data, m.dstMod = s.moduleId ∧ m.srcMod = s.moduleId ∧ s.gen m.vf = m.gen ∧
        m.body = .row a bad data ∧ s.putRow m.vf m.gen m.dstCore m.group m.seq a data bad = none) ∧
    (∃ (m : CollMsg) (s : State), ∃ a bad data, m.dstMod = s.moduleId ∧ m.srcMod = s.moduleId ∧ s.gen m.vf = m.gen ∧
        m.body = .row a bad data ∧ ∃ t, s.putRow m.vf m.gen m.dstCore m.group m.seq a data bad = some t) ∧
    (∃ (m : CollMsg) (s : State), m.dstMod = s.moduleId ∧ m.srcMod ≠ s.moduleId ∧ isRow m.body = false ∧
        (let p := collPacket m
      s.aged p.stamp 64 = true)) ∧
    (∃ (m : CollMsg) (s : State), m.dstMod = s.moduleId ∧ m.srcMod ≠ s.moduleId ∧ isRow m.body = false ∧
        (let p := collPacket m
      s.aged p.stamp 64 = false ∧ s.gen m.vf = m.gen ∧ s.reply (replyKeyOf p) = none ∧ s.replyFull = false ∧
          s.ownsCore m.vf m.dstCore = true)) :=
  ⟨⟨{ pkt0 0 with stamp := 0xFFFFFFC0, data := zeros 64 }, s0, (by decide), (by decide), (by decide)⟩,
   ⟨{ pkt0 0 with stamp := 0xFFFFFFC0, opword := 26 }, s0, (by decide), (fun _ h => absurd h List.not_mem_nil)⟩,
   ⟨{ pkt0 0 with gen := 2, data := zeros 64 }, s0, (by decide), (by decide), (by decide)⟩,
   ⟨{ pkt0 0 with gen := 2, opword := 26 }, s0, (by decide), (by decide), (fun _ h => absurd h List.not_mem_nil)⟩,
   ⟨{ pkt0 0 with opword := 26 }, { withVf s0 with agenda := [(0, .atomicAtWriteQueue (o0 .C) req0 (.x 63) 0)] },
       o0 .C, req0, .x 63, 0, 0, key0, 8, (by decide), (by decide), (by decide), (by decide +kernel),
       List.mem_cons_self, (by decide), (by decide)⟩,
   ⟨pkt0 0, { s0 with replies := [reply0 0] }, _, (by decide), (by decide), rfl,
       (fun _ h => absurd h List.not_mem_nil)⟩,
   ⟨pkt0 0, s0, (by decide)⟩,
   ⟨{ pkt0 0 with addr := 0x8000000000000000, opnd1 := 64, data := zeros 64 }, s0, (by decide), (by decide),
       (by decide), (by decide), (by decide +kernel)⟩,
   ⟨{ pkt0 0 with addr := 0, opnd1 := 64, data := zeros 64 }, withVf s0, (by decide), (by decide), (by decide),
       (by decide), _, rfl⟩,
   ⟨{ pkt0 0 with addr := 0, opnd1 := 64, data := zeros 64 }, withVf s0, _, rfl⟩,
   ⟨{ pkt0 0 with addr := 0x8000000000000000, data := zeros 64 }, s0, (by decide), (.inl (by decide)), (by decide),
       (by decide), (by decide)⟩,
   ⟨{ pkt0 0 with data := zeros 64 }, withVf s0, (by decide), (.inl (by decide)), (by decide), (by decide), [key0],
       (by decide +kernel), (by decide)⟩,
   ⟨{ pkt0 0 with addr := 0x8000000000000000 + 0, data := zeros 64 }, withVf s0, (by decide), (.inl (by decide)),
       (by decide), (by decide), [keyRS 0 0], (by decide +kernel), (by decide), (by decide)⟩,
   ⟨{ pkt0 0 with addr := 0x8000000000000000 + 0x3FFC0, data := zeros 64 }, withVf frz, (by decide),
       (.inl (by decide)), (by decide), (by decide), [keyRS 0 0x3FFC0], (by decide +kernel), (by decide),
       (by decide), (by decide)⟩,
   ⟨{ pkt0 0 with addr := 0x8000000000000000 + 0x3FFC0, data := zeros 64 },
       withVf { st { core0 with empty := [0x3FFC0 / 4] } with tags := [(unitOf (keyRS 0 0x3FFC0), tag1)] },
       (by decide), (.inl (by decide)), (by decide), (by decide), [keyRS 0 0x3FFC0], (by decide +kernel),
       (by decide), (by decide), (by decide), (by decide), (by decide +kernel)⟩,
   ⟨{ pkt0 0 with addr := 0x8000000000000000 + 0x3FFC0, data := zeros 64 }, withVf s0, (by decide),
       (.inl (by decide)), (by decide), (by decide), [keyRS 0 0x3FFC0], (by decide +kernel), (by decide),
       (by decide), (by decide), (by decide), (by decide +kernel)⟩,
   ⟨{ pkt0 0 with addr := 0x8000000000000000 + 0x3FFC0, data := zeros 64, opnd0 := 9 }, withVf s0, (by decide),
       (.inl (by decide)), (by decide), (by decide), [keyRS 0 0x3FFC0], (by decide +kernel), (by decide),
       (by decide), (by decide), (by decide), (by decide +kernel)⟩,
   ⟨{ pkt0 0 with addr := 0x8000000000000000 + 0x3FFC0, data := zeros 64, opnd0 := 9 },
       withVf (st { core0 with claimed := 0xFFFFFFFF }), (by decide), (.inl (by decide)), (by decide), (by decide),
       [keyRS 0 0x3FFC0], (by decide +kernel), (by decide), (by decide), (by decide), (by decide),
       (by decide +kernel)⟩,
   ⟨{ pkt0 0 with opword := 26 }, withVf s0, key0, 8, (by decide), (by decide),
       (fun _ h => absurd h List.not_mem_nil), (by decide), (by decide), (by decide), (by decide), (by decide),
       (by decide +kernel), (by decide +kernel)⟩,
   ⟨pkt0 0, withVf frz, (by decide), (by decide), (by decide), (by decide), (by decide +kernel), (by decide)⟩,
   ⟨pkt0 0, withVf (st { core0 with queues := [(15, List.replicate 12 ⟨voidTag, 0, none⟩)] }), (by decide),
       (by decide), (by decide), (by decide), (by decide +kernel), (by decide), (by decide)⟩,
   ⟨1, { pkt0 0 with opword := 1 }, s0, (by decide), (by decide), (by decide)⟩,
   ⟨1, { pkt0 0 with opword := 1 }, { s0 with ploughRound := 1 }, (by decide), (by decide), (by decide), (by decide)⟩,
   ⟨1, 3, true, 8, 0, s0, (by decide), (by decide)⟩,
   ⟨1, 0, false, 1, 5,
       { fp 1 { port0 .active with queue := [(0, [(some 1, 3, pkt0 0)])] } s0 with ploughedIn := [(1, 0, false, 1, 5)] },
       (by decide), (by decide), (by decide)⟩,
   ⟨1, 0, false, 1, 5, { s0 with ploughedIn := [(1, 0, false, 1, 5)] }, (by decide), (by decide), (by decide)⟩,
   ⟨resp0 0, { s0 with ops := [(0, fabOp0 1)] }, fabOp0 1, (by decide), (by decide +kernel), (by decide)⟩,
   ⟨resp0 0, { s0 with ops := [(0, fabOp0 0)] }, fabOp0 0, (by decide), (by decide +kernel), (by decide),
       (by decide), (by decide), (by decide), (by decide), (by decide)⟩,
   ⟨255, 0xFFFF, s0, fabOp0 0, (by decide)⟩,
   ⟨0, 0, { s0 with ops := [(0, { fabOp0 0 with pkt := { pkt0 0 with stamp := 0xFFFFFFF0 } })] }, _, rfl,
       (by decide), (by decide), (by decide)⟩,
   ⟨0, 0, { s0 with ops := [(0, { fabOp0 0 with tries := 0 })] }, _, rfl, (by decide), (by decide),
       (by decide +kernel)⟩,
   ⟨0, 0, { s0 with ops := [(0, { fabOp0 0 with tries := 3 })] }, _, rfl, (.inr (by decide))⟩,
   ⟨0, 0, { s0 with ops := [(0, { fabOp0 0 with tries := 0 })] }, _, rfl, (by decide)⟩,
   ⟨0, 0, { s0 with ops := [(0, { fabOp0 0 with acked := some 0, pkt := { pkt0 0 with stamp := 0xFFFFFFC0 } })] }, _,
       rfl, _, rfl, (by decide)⟩,
   ⟨0, 0, { s0 with ops := [(0, { fabOp0 0 with pkt := { pkt0 0 with stamp := 0xFFFFFFC0 } })] }, _, rfl,
       (by decide), (by decide)⟩,
   ⟨⟨0, 0, 0, 0, 1⟩, { s0 with replies := [reply0 0] }, _, rfl⟩,
   ⟨msg0 1 1, s0, (by decide)⟩,
   ⟨msg0 0 2, s0, (by decide), (by decide), (by decide)⟩,
   ⟨msg0 0 1, s0, (by decide), (by decide), (by decide), (by decide)⟩,
   ⟨{ msg0 0 1 with body := .row 0 false (zeros 64) }, s0, _, _, _, (by decide), (by decide), (by decide), rfl,
       (by decide +kernel)⟩,
   ⟨{ msg0 0 1 with body := .row 0 false (zeros 64) }, withVf s0, _, _, _, (by decide), (by decide), (by decide),
       rfl, _, rfl⟩,
   ⟨{ msg0 0 1 with srcMod := 1, stamp := 0xFFFFFFC0 }, s0, (by decide), (by decide), (by decide), (by decide)⟩,
   ⟨{ msg0 0 1 with srcMod := 1 }, withVf s0, (by decide), (by decide), (by decide), (by decide), (by decide),
       (by decide), (by decide), (by decide +kernel)⟩⟩

theorem witness_LaunchEvents :
    (∃ (v : BitVec 6) (x : Word) (s : State), (s.vf v.toNat).created = true ∧ (let q : BitVec 4 := x.setWidth 4
      (let ring := Tbl.get (s.vf v.toNat).rings q.toNat []
      16 ≤ ring.length))) ∧
    (∃ (v : BitVec 6) (x : Word) (s : State), (s.vf v.toNat).created = true ∧ (let q : BitVec 4 := x.setWidth 4
      (let ring := Tbl.get (s.vf v.toNat).rings q.toNat []
      ring.length < 16))) ∧
    (∃ (v : BitVec 6) (off : Nat) (x : Word) (s : State), s.serving = false) ∧
    (∃ (v : BitVec 6) (x : Word) (s : State), s.serving = true ∧ ∃ (q : Nat), q < 16) ∧
    (∃ (v : BitVec 6) (q : BitVec 4) (s : State), Tbl.get (s.vf v.toNat).rings q.toNat [] = []) ∧
    (∃ (v : BitVec 6) (q : BitVec 4) (s : State), ∃ k l, Tbl.get (s.vf v.toNat).rings q.toNat [] = k :: l ∧
        (s.scheduled v = false ∨ s.queueWaits v q = true)) ∧
    (∃ (v : BitVec 6) (q : BitVec 4) (s : State), ∃ k l, Tbl.get (s.vf v.toNat).rings q.toNat [] = k :: l ∧
        s.scheduled v = true ∧ s.queueWaits v q = false ∧ k.taken = none ∧ ∃ e, s.kickBlock v q k = .error e) ∧
    (∃ (v : BitVec 6) (q : BitVec 4) (s : State), ∃ k l, Tbl.get (s.vf v.toNat).rings q.toNat [] = k :: l ∧
        s.scheduled v = true ∧ s.queueWaits v q = false ∧ k.taken = none ∧ ∃ r, s.kickBlock v q k = .ok r ∧
        s.thirdReplay v (s.kickAddr v q k) r = true) ∧
    (∃ (v : BitVec 6) (q : BitVec 4) (s : State), ∃ k l, Tbl.get (s.vf v.toNat).rings q.toNat [] = k :: l ∧
        s.scheduled v = true ∧ s.queueWaits v q = false ∧ k.taken = none ∧ ∃ r, s.kickBlock v q k = .ok r ∧
        s.thirdReplay v (s.kickAddr v q k) r = false) ∧
    (∃ (v : BitVec 6) (q : BitVec 4) (s : State), ∃ k l, Tbl.get (s.vf v.toNat).rings q.toNat [] = k :: l ∧
        ∃ due ro patch, s.scheduled v = true ∧ s.queueWaits v q = false ∧ k.taken = some (due, ro, patch) ∧
        s.now < due) ∧
    (∃ (v : BitVec 6) (q : BitVec 4) (s : State), ∃ k l, Tbl.get (s.vf v.toNat).rings q.toNat [] = k :: l ∧
        ∃ due ro patch, s.scheduled v = true ∧ s.queueWaits v q = false ∧ k.taken = some (due, ro, patch) ∧
        ro = none ∧ due ≤ s.now) ∧
    (∃ (v : BitVec 6) (q : BitVec 4) (s : State), ∃ k l, Tbl.get (s.vf v.toNat).rings q.toNat [] = k :: l ∧
        ∃ due ro patch, s.scheduled v = true ∧ s.queueWaits v q = false ∧ k.taken = some (due, ro, patch) ∧ ∃ r,
        ro = some r ∧ due ≤ s.now ∧ s.thirdReplay v (s.kickAddr v q k) r = false ∧ k.pv = true ∧ patch = none ∧
        s.kickPatch v k r.paramlen = none) ∧
    (∃ (v : BitVec 6) (q : BitVec 4) (s : State), ∃ k l, Tbl.get (s.vf v.toNat).rings q.toNat [] = k :: l ∧
        ∃ due ro patch, s.scheduled v = true ∧ s.queueWaits v q = false ∧ k.taken = some (due, ro, patch) ∧ ∃ r,
        ro = some r ∧ due ≤ s.now ∧ s.thirdReplay v (s.kickAddr v q k) r = false ∧ ∃ b, k.pv = true ∧ patch = none ∧
        s.kickPatch v k r.paramlen = some b) ∧
    (∃ (v : BitVec 6) (q : BitVec 4) (s : State), ∃ k l, Tbl.get (s.vf v.toNat).rings q.toNat [] = k :: l ∧
        ∃ due ro patch, s.scheduled v = true ∧ s.queueWaits v q = false ∧ k.taken = some (due, ro, patch) ∧ ∃ r,
        ro = some r ∧ due ≤ s.now ∧ s.thirdReplay v (s.kickAddr v q k) r = false ∧ (k.pv = false ∨ patch ≠ none) ∧
        k.fromLaunch = none) ∧
    (∃ (v : BitVec 6) (q : BitVec 4) (s : State), ∃ k l, Tbl.get (s.vf v.toNat).rings q.toNat [] = k :: l ∧
        ∃ due ro patch, s.scheduled v = true ∧ s.queueWaits v q = false ∧ k.taken = some (due, ro, patch) ∧ ∃ r,
        ro = some r ∧ due ≤ s.now ∧ s.thirdReplay v (s.kickAddr v q k) r = false ∧ ∃ id c0,
        (k.pv = false ∨ patch ≠ none) ∧ k.fromLaunch = some id ∧ Tbl.find s.launches id = some c0) ∧
    (∃ (v : BitVec 6) (q : BitVec 4) (s : State), ∃ k l, Tbl.get (s.vf v.toNat).rings q.toNat [] = k :: l ∧
        k.fromLaunch = none ∧ (k.bad = true ∨ (Tbl.get (s.vf v.toNat).qrcb q.toNat 0).toNat = 0)) ∧
    (∃ (v : BitVec 6) (q : BitVec 4) (s : State), ∃ k l, Tbl.get (s.vf v.toNat).rings q.toNat [] = k :: l ∧
        k.fromLaunch = none ∧ k.bad = false ∧ (Tbl.get (s.vf v.toNat).qrcb q.toNat 0).toNat ≠ 0) ∧
    (∃ (v : BitVec 6) (q : BitVec 4) (s : State), ∃ k l, Tbl.get (s.vf v.toNat).rings q.toNat [] = k :: l ∧ ∃ id c,
        k.fromLaunch = some id ∧ Tbl.find s.launches id = some c ∧ ∃ p pl, c.parent = some p ∧
        Tbl.find s.launches p = some pl) ∧
    (∃ (id : Nat) (s : State) (l : Launch), Tbl.find s.launches id = some l ∧ l.over = true) ∧
    (∃ (id : Nat) (s : State) (l : Launch), Tbl.find s.launches id = some l ∧ l.st = .waiting ∧
        (s.runnable id l = false ∨ s.chosen l = none)) ∧
    (∃ (id : Nat) (s : State) (l : Launch), Tbl.find s.launches id = some l ∧ ∃ cores, l.st = .waiting ∧
        s.runnable id l = true ∧ s.chosen l = some cores ∧ s.wanted (some id) none l.rcb.prio l.order cores = true) ∧
    (∃ (id : Nat) (s : State) (l : Launch), Tbl.find s.launches id = some l ∧ ∃ cores, l.st = .waiting ∧
        s.runnable id l = true ∧ s.chosen l = some cores ∧ s.wanted (some id) none l.rcb.prio l.order cores = false) ∧
    (∃ (id : Nat) (s : State) (l : Launch), Tbl.find s.launches id = some l ∧ ∃ g gv, l.st = .running ∧
        s.gangs = [(g, gv)] ∧ gv.launch = id ∧ ∃ c, gv.cores = [c] ∧ (s.core c).gang = g) ∧
    (∃ (s : State) (l : Launch) (cores : List Nat), s.chosen l = some cores ∧ ∃ c, c ∈ cores) ∧
    (∃ (s : State) (l : Launch) (cores : List Nat), s.chosen l = some cores ∧ ∃ c,
        c < (if s.phase = 6 then 256 else 64) ∧ bitOf l.rcb.coreset c = true ∧ s.coreFree c = true ∧ c ∉ cores ∧ ∃ d,
        d ∈ cores) ∧
    (∃ (c : Nat) (s : State) (g : Gang), s.gang (s.core c).gang = some g ∧
        g.cores.all (g.ended ++ [c]).contains = false) ∧
    (∃ (c : Nat) (s : State) (g : Gang), s.gang (s.core c).gang = some g ∧
        g.cores.all (g.ended ++ [c]).contains = true) ∧
    (∃ (id g : Nat) (s : State) (l : Launch) (gv : Gang), Tbl.find s.launches id = some l ∧ l.over = false ∧
        s.gangs = [(g, gv)] ∧ gv.launch = id ∧ gv.cores.all gv.ended.contains = true ∧ gv.frozen ≠ none) ∧
    (∃ (id g : Nat) (s : State) (l : Launch) (gv : Gang), Tbl.find s.launches id = some l ∧ l.over = false ∧
        s.gangs = [(g, gv)] ∧ gv.launch = id ∧ gv.cores.all gv.ended.contains = true ∧ gv.frozen = none ∧
        s.coalescer = []) ∧
    (∃ (id : Nat) (st : LaunchSt) (s : State) (l : Launch), Tbl.find s.launches id = some l ∧ l.listed = false ∧
        l.byGang = none) ∧
    (∃ (id : Nat) (s : State) (l : Launch), Tbl.find s.launches id = some l ∧ l.over = false ∧ l.listed = true ∧
        l.order = 0 ∧ s.scheduled l.vf = false) ∧
    (∃ (id : Nat) (s : State) (l : Launch), Tbl.find s.launches id = some l ∧ l.over = false ∧ l.listed = true ∧
        l.order = 0 ∧ ∃ p q, s.scheduled l.vf = true ∧ l.parent = some p ∧ Tbl.find s.launches p = some q ∧ ∃ e,
        s.readRcb l.vf l.addr q.rcb l.depth false = .error e) ∧
    (∃ (id : Nat) (s : State) (l : Launch), Tbl.find s.launches id = some l ∧ l.over = false ∧ l.listed = true ∧
        l.order = 0 ∧ ∃ p q, s.scheduled l.vf = true ∧ l.parent = some p ∧ Tbl.find s.launches p = some q ∧ ∃ r,
        s.readRcb l.vf l.addr q.rcb l.depth false = .ok r ∧ s.thirdReplay l.vf l.addr r = true) ∧
    (∃ (id : Nat) (s : State) (l : Launch), Tbl.find s.launches id = some l ∧ l.over = false ∧ l.listed = true ∧
        l.order = 0 ∧ ∃ p q, s.scheduled l.vf = true ∧ l.parent = some p ∧ Tbl.find s.launches p = some q ∧ ∃ r,
        s.readRcb l.vf l.addr q.rcb l.depth false = .ok r ∧ s.thirdReplay l.vf l.addr r = false) ∧
    (∃ (id : Nat) (s : State) (l : Launch), Tbl.find s.launches id = some l ∧ l.st = .running ∧ l.rcb.kind = 3 ∧
        (l.listed = false ∨ l.order ≠ 0) ∧ s.openChildren id = true) ∧
    (∃ (id : Nat) (s : State) (l : Launch), Tbl.find s.launches id = some l ∧ l.st = .running ∧ l.rcb.kind = 3 ∧
        (l.listed = false ∨ l.order ≠ 0) ∧ s.openChildren id = false ∧ l.rcb.listed[l.nextChild]? = none) ∧
    (∃ (id : Nat) (s : State) (l : Launch), Tbl.find s.launches id = some l ∧ l.st = .running ∧ l.rcb.kind = 3 ∧
        (l.listed = false ∨ l.order ≠ 0) ∧ s.openChildren id = false ∧ ∃ a, l.rcb.listed[l.nextChild]? = some a) :=
  ⟨⟨0, 15, serve (ringed (List.replicate 16 kick0)) s0, (by decide), (by decide)⟩,
   ⟨0, 15, serve (ringed (List.replicate 15 kick0)) s0, (by decide), (by decide)⟩,
   ⟨0, 0, 1, s0, (by decide)⟩,
   ⟨0, 15, serve vf0 s0, (by decide), 15, (by decide)⟩,
   ⟨0, 15, s0, (by decide)⟩,
   ⟨0, 15, { s0 with vfs := [(0, ringed [kick0])] }, _, _, rfl, (by decide)⟩,
   ⟨0, 15, lset [(1, { launch0 with addr := 1 })] (serve (ringed [{ kick0 with fromLaunch := some 1 }]) s0), _, _,
       rfl, (by decide), (by decide), (by decide), 5, (by decide +kernel)⟩,
   ⟨0, 15, { lset [(3, { graph0 [] with addr := 256, order := 1 }), (4, { graph0 [] with addr := 256, order := 1 })] (serve (ringed [kick0]) s0) with mem := [(keyVault 0 256, 3)], tags := [(keyVault 0 256, tag1)] },
       _, _, rfl, (by decide), (by decide), (by decide), ⟨3, 0, false, 0, 128, 0, 1, 0, 0, 0, 0, 0, 1, 1, 0, 0, 0, 0,
       List.replicate 8 0⟩, (by decide +kernel), (by decide +kernel)⟩,
   ⟨0, 15, { serve (ringed [kick0]) s0 with mem := [(keyVault 0 256, 2)], tags := [(keyVault 0 256, tag1)] }, _, _,
       rfl, (by decide), (by decide), (by decide), ⟨2, 0, false, 0, 128, 0, 1, 0, 0, 0, 0, 0, 1, 1, 0, 0, 0, 0,
       List.replicate 8 0⟩, (by decide +kernel), (by decide +kernel)⟩,
   ⟨0, 15, serve (ringed [{ kick0 with taken := some (1, none, none) }]) s0, _, _, rfl, _, _, _, (by decide),
       (by decide), rfl, (by decide)⟩,
   ⟨0, 15, serve (ringed [{ kick0 with taken := some (0, none, none) }]) s0, _, _, rfl, _, _, _, (by decide),
       (by decide), rfl, rfl, (by decide)⟩,
   ⟨0, 15, serve (ringed [{ kick0 with taken := some (0, some { rcb0 with paramlen := 64 }, none), pv := true }]) s0,
       _, _, rfl, _, _, _, (by decide), (by decide), rfl, _, rfl, (by decide), (by decide), (by decide), (by decide),
       (by decide +kernel)⟩,
   ⟨0, 15, serve (ringed [{ kick0 with taken := some (0, some rcb0, none), pv := true }]) s0, _, _, rfl, _, _, _,
       (by decide), (by decide), rfl, _, rfl, (by decide), (by decide), _, (by decide), (by decide), rfl⟩,
   ⟨0, 15, serve (ringed [{ kick0 with taken := some (0, some rcb0, none) }]) s0, _, _, rfl, _, _, _, (by decide),
       (by decide), rfl, _, rfl, (by decide), (by decide), (.inl rfl), (by decide)⟩,
   ⟨0, 15, lset [(1,
       launch0)] (serve (ringed [{ kick0 with taken := some (0, some rcb0, none), fromLaunch := some 1 }]) s0), _, _,
       rfl, _, _, _, (by decide), (by decide), rfl, _, rfl, (by decide), (by decide), _, _, (.inl rfl), rfl, rfl⟩,
   ⟨0, 15, serve (ringed [{ kick0 with bad := true }]) s0, _, _, rfl, (by decide), (.inl rfl)⟩,
   ⟨0, 15, serve (ringed [kick0]) s0, _, _, rfl, (by decide), (by decide), (by decide)⟩,
   ⟨0, 15, lset [(1, graph0 []),
       (2, { launch0 with parent := some 1 })] (serve (ringed [{ kick0 with fromLaunch := some 2 }]) s0), _, _, rfl,
       _, _, rfl, rfl, _, _, rfl, rfl⟩,
   ⟨1, lset [(1, { launch0 with st := .retired })] s0, _, rfl, (by decide)⟩,
   ⟨1, lset [(1, wait1)] s0, _, rfl, (by decide), (by decide)⟩,
   ⟨1, lset [(1, wait1), (2, wait2)] (serve vf0 s0), _, rfl, [0], (by decide), (by decide), (by decide), (by decide)⟩,
   ⟨1, lset [(1, wait1)] (serve vf0 s0), _, rfl, [0], (by decide), (by decide), (by decide), (by decide)⟩,
   ⟨1, ganged s0 gang0 launch0, _, rfl, _, _, (by decide), rfl, (by decide), 0, (by decide), (by decide)⟩,
   ⟨s0, launch0, [0], (by decide), 0, (by decide)⟩,
   ⟨s0, { launch0 with rcb := { rcb0 with coreset := 3 } }, [0], (by decide), 1, (by decide), (by decide),
       (by decide), (by decide), 0, (by decide)⟩,
   ⟨0, ganged s0 { gang0 with cores := [0, 1] } launch0, _, rfl, (by decide)⟩,
   ⟨0, ganged s0 gang0 launch0, _, rfl, (by decide)⟩,
   ⟨1, 0, ganged s0 { held0 with ended := [0] } launch0, _, _, rfl, (by decide), rfl, (by decide), (by decide),
       (by decide)⟩,
   ⟨1, 0, ganged s0 { gang0 with ended := [0] } launch0, _, _, rfl, (by decide), rfl, (by decide), (by decide),
       (by decide), (by decide)⟩,
   ⟨1, .retired, ganged s0 gang0 launch0, _, rfl, (by decide), (by decide)⟩,
   ⟨2, lset [(2, { launch0 with st := .waiting, listed := true, parent := some 1, depth := 2, addr := 0 })] s0, _,
       rfl, (by decide), (by decide), (by decide), (by decide)⟩,
   ⟨2, lset [(1, graph0 [256]),
       (2, { launch0 with st := .waiting, listed := true, parent := some 1, depth := 2, addr := 1 })] (serve vf0 s0),
       _, rfl, (by decide), (by decide), (by decide), _, _, (by decide), rfl, rfl, 5, (by decide +kernel)⟩,
   ⟨2, { lset [(1, graph0 [256]), (2, { launch0 with st := .waiting, listed := true, parent := some 1, depth := 2, addr := 256 }), (3, { graph0 [] with addr := 256, order := 1 }), (4, { graph0 [] with addr := 256, order := 1 })] (serve vf0 s0) with mem := [(keyVault 0 256, 3)], tags := [(keyVault 0 256, tag1)] },
       _, rfl, (by decide), (by decide), (by decide), _, _, (by decide), rfl, rfl,
       ⟨3, 0, false, 0, 0, 0, 0, 0, 0, 0, 0, 0, 1, 1, 0, 0, 0, 0, List.replicate 8 0⟩, (by decide +kernel),
       (by decide +kernel)⟩,
   ⟨2, { lset [(1, graph0 [256]), (2, { launch0 with st := .waiting, listed := true, parent := some 1, depth := 2, addr := 256 })] (serve vf0 s0) with mem := [(keyVault 0 256, 3)], tags := [(keyVault 0 256, tag1)] },
       _, rfl, (by decide), (by decide), (by decide), _, _, (by decide), rfl, rfl,
       ⟨3, 0, false, 0, 0, 0, 0, 0, 0, 0, 0, 0, 1, 1, 0, 0, 0, 0, List.replicate 8 0⟩, (by decide +kernel),
       (by decide +kernel)⟩,
   ⟨1, lset [(1, graph0 []), (2, { launch0 with parent := some 1, listed := true })] s0, _, rfl, (by decide),
       (by decide), (.inl rfl), (by decide)⟩,
   ⟨1, lset [(1, graph0 [])] s0, _, rfl, (by decide), (by decide), (.inl rfl), (by decide), (by decide)⟩,
   ⟨1, lset [(1, graph0 [256])] s0, _, rfl, (by decide), (by decide), (.inl rfl), (by decide), 256, (by decide)⟩⟩

theorem witness_GangEvents :
    (∃ (g : Nat) (cause : FreezeCause) (o : Origin) (d : Name) (s : State), s.gang g = none ∧ cause ≠ .owner) ∧
    (∃ (g : Nat) (cause : FreezeCause) (o : Origin) (d : Name) (s : State) (gv : Gang), s.gang g = some gv ∧
        gv.frozen = some .trap) ∧
    (∃ (g : Nat) (cause : FreezeCause) (o : Origin) (d : Name) (s : State) (gv : Gang), s.gang g = some gv ∧
        gv.frozen = some .dispatcher) ∧
    (∃ (g : Nat) (cause : FreezeCause) (o : Origin) (d : Name) (s : State) (gv : Gang), s.gang g = some gv ∧
        gv.frozen = none ∧ s.freeSlots gv.vf < gv.cores.length) ∧
    (∃ (g : Nat) (cause : FreezeCause) (o : Origin) (d : Name) (s : State) (gv : Gang), s.gang g = some gv ∧
        gv.frozen = none ∧ gv.cores.length ≤ s.freeSlots gv.vf) ∧
    (∃ (g : Nat) (cause : FreezeCause) (s : State) (gv : Gang) (c : Nat), c ∈ gv.cores ∧ (s.core c).gang = g ∧
        (s.core c).frozen = none) ∧
    (∃ (g : Nat) (cause : FreezeCause) (o : Origin) (d : Name) (s : State) (gv : Gang), s.gang g = some gv ∧
        gv.frozen ≠ none ∧ (∃ c ∈ gv.cores, (s.home g c).wordsOut = true)) ∧
    (∃ (g : Nat) (cause : FreezeCause) (o : Origin) (d : Name) (s : State) (gv : Gang), s.gang g = some gv ∧
        gv.frozen ≠ none ∧ (∀ c ∈ gv.cores, (s.home g c).wordsOut = false) ∧ gv.records = [] ∧ cause ≠ .owner) ∧
    (∃ (g n : Nat) (s : State) (sv : Save), Tbl.find s.saves n = some sv ∧ sv.gang = g ∧ (s.core sv.core).gang = g) ∧
    (∃ (g c : Nat) (s : State) (gv : Gang), s.gang g = some gv ∧ gv.cores = [c] ∧ gv.frozen = none) ∧
    (∃ (g c : Nat) (s : State) (gv : Gang), s.gang g = some gv ∧ gv.cores = [c] ∧ gv.frozen ≠ none ∧
        (gv.saved = false ∨ gv.records ≠ [] ∨ s.scheduled gv.vf = false ∨ s.coreFreeFor g c = false)) ∧
    (∃ (g c : Nat) (s : State) (gv : Gang), s.gang g = some gv ∧ gv.cores = [c] ∧
        (gv.frozen = some .owner ∨ gv.frozen = some .trap) ∧ gv.saved = true ∧ s.scheduled gv.vf = true ∧
        s.coreFreeFor g c = true ∧ (s.core c).gang = g ∧ (s.core c).held = [] ∧ (s.core c).ocache = [] ∧
        gv.records = [] ∧ gv.thaw = []) ∧
    (∃ (g : Nat) (s : State) (gv : Gang), s.gang g = some gv ∧ (gv.frozen ≠ none ∨ s.now < gv.sliceAt)) ∧
    (∃ (g : Nat) (s : State) (gv : Gang), s.gang g = some gv ∧ gv.frozen = none ∧ gv.sliceAt ≤ s.now ∧
        s.rival g gv true = false) ∧
    (∃ (g : Nat) (s : State) (gv : Gang), s.gang g = some gv ∧ gv.frozen = none ∧ gv.sliceAt ≤ s.now ∧
        s.rival g gv true = true ∧ gv.cores.length ≤ s.freeSlots gv.vf) ∧
    (∃ (g id : Nat) (s : State) (gv : Gang) (l : Launch), s.gang g = some gv ∧ Tbl.find s.launches id = some l ∧
        l.rcb.prio ≤ s.gangPrio gv) ∧
    (∃ (g id : Nat) (s : State) (gv : Gang) (l : Launch), s.gang g = some gv ∧ Tbl.find s.launches id = some l ∧
        gv.frozen = none ∧ s.runnable id l = true ∧ s.gangPrio gv < l.rcb.prio ∧ s.chosen l = none ∧
        gv.cores.any (bitOf l.rcb.coreset) = true ∧ gv.cores.length ≤ s.freeSlots gv.vf) ∧
    (∃ (g : Nat) (s : State) (gv : Gang), s.gang g = some gv ∧ gv.frozen ≠ none) ∧
    (∃ (g : Nat) (s : State) (gv : Gang), s.gang g = some gv ∧ gv.frozen = none) ∧
    (∃ (g : Nat) (s : State) (gv : Gang) (p : Phase), s.gang g = some gv ∧ gv.phase = some p ∧
        (let c := gv.cores.headD 0
      (let now := (s.core c).time
      (gv.frozen ≠ none ∨ now < 2 * (p.began + p.len) ∨ now % 2 ≠ 0 ∨ (∃ e ∈ s.galleys, e.2.gang = g ∧
          e.2.exch = true))))) ∧
    (∃ (g : Nat) (s : State) (gv : Gang) (p : Phase), s.gang g = some gv ∧ gv.phase = some p ∧
        (let c := gv.cores.headD 0
      (let now := (s.core c).time
      gv.frozen = none ∧ 2 * (p.began + p.len) ≤ now ∧ now % 2 = 0 ∧
          (∀ e ∈ s.galleys, e.2.gang = g → e.2.exch = false)))) :=
  ⟨⟨0, .trap, o0 .C, .x 63, s0, (by decide), (by decide)⟩,
   ⟨0, .dispatcher, o0 .C, .x 63, gset held0 s0, _, rfl, (by decide)⟩,
   ⟨0, .owner, o0 .C, .x 63, gset { gang0 with frozen := some .dispatcher } s0, _, rfl, (by decide)⟩,
   ⟨0, .owner, o0 .C, .x 63, gset gang0 s0, _, rfl, (by decide), (by decide)⟩,
   ⟨0, .owner, o0 .C, .x 63, gset gang0 (withVf s0), _, rfl, (by decide), (by decide +kernel)⟩,
   ⟨0, .owner, s0, gang0, 0, (by decide), (by decide), (by decide)⟩,
   ⟨0, .owner, o0 .C, .x 63, gset held0 (st { core0 with sq := [⟨o0 .C, .tktake 0 (.x 1), some 0⟩] }), _, rfl,
       (by decide), (⟨0, List.mem_cons_self, by decide⟩)⟩,
   ⟨0, .trap, o0 .C, .x 63, gset held0 s0, _, rfl, (by decide), (by decide), (by decide), (by decide)⟩,
   ⟨0, 0, { s0 with saves := [(0, ⟨0, 0, 1, 0, 0, Core.reset, [], []⟩)] }, _, rfl, (by decide), (by decide)⟩,
   ⟨0, 0, gset gang0 s0, _, rfl, (by decide), (by decide)⟩,
   ⟨0, 0, gset { held0 with saved := false } s0, _, rfl, (by decide), (by decide), (.inl rfl)⟩,
   ⟨0, 0, gset held0 (serve vf0 s0), _, rfl, (by decide), (by decide), (by decide), (by decide), (by decide),
       (by decide), (by decide), (by decide), (by decide), (by decide)⟩,
   ⟨0, gset held0 s0, _, rfl, (by decide)⟩,
   ⟨0, gset gang0 s0, _, rfl, (by decide), (by decide), (by decide)⟩,
   ⟨0, lset [(1, launch0), (2, wait1)] (gset gang0 (serve vf0 s0)), _, rfl, (by decide), (by decide), (by decide),
       (by decide +kernel)⟩,
   ⟨0, 1, ganged s0 gang0 launch0, _, _, rfl, rfl, (by decide)⟩,
   ⟨0, 2, lset [(1, launch0), (2, wait2)] (gset gang0 (serve vf0 s0)), _, _, rfl, rfl, (by decide), (by decide),
       (by decide), (by decide), (by decide), (by decide +kernel)⟩,
   ⟨0, gset held0 s0, _, rfl, (by decide)⟩,
   ⟨0, gset gang0 s0, _, rfl, (by decide)⟩,
   ⟨0, gset { held0 with phase := some ⟨0, 0, [], [], []⟩ } s0, _, _, rfl, rfl, (.inl (by decide))⟩,
   ⟨0, gset { gang0 with phase := some ⟨0, 0, [], [], []⟩ } s0, _, _, rfl, rfl, (by decide), (by decide),
       (by decide), (fun _ h => absurd h List.not_mem_nil)⟩⟩

theorem witness_TenancyEvents :
    (∃ (v : BitVec 6) (a : Nat) (s : State), s.faulted v a = []) ∧
    (∃ (v : BitVec 6) (a : Nat) (s : State), ∃ g gv, s.faulted v a = [g] ∧ s.gang g = some gv ∧ gv.records ≠ []) ∧
    (∃ (v : BitVec 6) (a : Nat) (s : State), ∃ g gv, s.faulted v a = [g] ∧ s.gang g = some gv ∧ gv.records = []) ∧
    (∃ (g : Nat) (s : State) (gv : Gang), s.gang g = some gv ∧ ∃ e, e ∈ (s.releaseGang g).saves) ∧
    (∃ s : State, s.genWaiters = [] ∧ s.lapWaiters = []) ∧
    (∃ (n : BitVec 8) (q : BitVec 2) (u : UnitRef) (s : State), s.owners n.toNat q = []) ∧
    (∃ (n : BitVec 8) (q : BitVec 2) (u : UnitRef) (s : State), ∃ v, s.owners n.toNat q = [v]) ∧
    (∃ (v : BitVec 6) (a n : Nat) (w : Option (List Byte)) (s : State), s.serving = true ∧
        (s.vf v.toNat).created = true ∧ (s.vf v.toNat).status ≠ .running) ∧
    (∃ (v : BitVec 6) (a n : Nat) (w : Option (List Byte)) (s : State), s.serving = true ∧
        (s.vf v.toNat).status = .running) ∧
    (∃ (v : BitVec 6) (a n : Nat) (w : Option (List Byte)) (s : State), ∃ (bs : List Byte), s.serving = true ∧
        (s.vf v.toNat).status = .running) ∧
    (∃ (v : BitVec 6) (a n : Nat) (w : Option (List Byte)) (s : State), s.serving = false) ∧
    (∃ (s t : State) (c b : Nat) (k : Core), exec .coarsenedCounterSample s = .next t ∧ Tbl.find s.cores c = some k ∧
        c < 256 ∧ b < 32) ∧
    (∃ n : Nat, n ≠ 0) :=
  ⟨⟨63, 0, s0, (by decide)⟩,
   ⟨0, 0, ganged s0 { held0 with records := [(o0 .C, [])] } launch0, _, _, rfl, rfl, (by decide)⟩,
   ⟨0, 0, ganged s0 held0 launch0, _, _, rfl, rfl, (by decide)⟩,
   ⟨0, { ganged s0 gang0 launch0 with saves := [(512, ⟨1, 0, 1, 0, 0, Core.reset, [], []⟩)] }, _, rfl,
       (512, ⟨1, 0, 1, 0, 0, Core.reset, [], []⟩), (by decide +kernel)⟩,
   ⟨s0, (by decide), (by decide)⟩,
   ⟨0, 0, .sem 0 0, s0, (by decide)⟩,
   ⟨3, 0, .dispenser 0 0, { s0 with dispensers := [(0, ⟨tag1, 0, 0, 0, 0⟩)] }, 0, (by decide)⟩,
   ⟨0, 0, 64, none, { stopped0 s0 with phase := 6 }, (by decide), (by decide), (by decide)⟩,
   ⟨0, 0, 64, none, serve vf0 s0, (by decide), (by decide)⟩,
   ⟨0, 0, 64, none, serve vf0 s0, [1], (by decide), (by decide)⟩,
   ⟨0, 0, 64, none, withVf s0, (by decide)⟩,
   ⟨s0, _, 0, 31, _, rfl, rfl, (by decide), (by decide)⟩,
   ⟨1, (by decide)⟩⟩

theorem witness_PlatformEvents :
    (∃ s : State, s.phase = 0) ∧
    (∃ s : State, s.phase = 1) ∧
    (∃ s : State, s.phase = 2) ∧
    (∃ s : State, s.phase = 3 ∧ s.q0up = false) ∧
    (∃ s : State, s.phase = 3 ∧ s.q0up = true) ∧
    (∃ s : State, s.phase = 4) ∧
    (∃ s : State, s.phase = 5) ∧
    (∃ s : State, (s.phase = 3 ∨ s.phase = 4 ∨ s.phase = 5)) ∧
    (∃ s : State, s.resp &&& 0x4000000000000000 ≠ 0) ∧
    (∃ (s : State) (w : Nat), s.resp &&& 0x4000000000000000 = 0 ∧ 1200 ≤ w ∧ w ≤ 2400) ∧
    (∃ (s : State) (w : Nat), s.resp &&& 0x4000000000000000 = 0 ∧ (w < 1200 ∨ 2400 < w)) ∧
    (∃ (s : State) (a b c : Nat × Nat), s.resp &&& 0x4000000000000000 = 0 ∧ a.1 + a.2 ≤ 2 ^ 52 ∧ b.1 + b.2 ≤ 2 ^ 52 ∧
        c.1 + c.2 ≤ 2 ^ 52 ∧ s.phase ≠ 2) ∧
    (∃ (s : State) (a b c : Nat × Nat), s.resp &&& 0x4000000000000000 = 0 ∧ a.1 + a.2 ≤ 2 ^ 52 ∧ b.1 + b.2 ≤ 2 ^ 52 ∧
        c.1 + c.2 ≤ 2 ^ 52 ∧ s.phase = 2) ∧
    (∃ (s : State) (nonce : List Byte) (v : BitVec 8), s.resp &&& 0x4000000000000000 = 0 ∧ nonce.length = 64 ∧
        v.toNat < 64) ∧
    (∃ (s : State) (nonce : List Byte) (v : BitVec 8), s.resp &&& 0x4000000000000000 = 0 ∧ nonce.length = 64 ∧
        64 ≤ v.toNat) ∧
    (∃ s : State, s.resp &&& 0x4000000000000000 = 0) ∧
    (∃ (s : State) (cmd : Byte) (req : List Byte), s.resp &&& 0x4000000000000000 = 0 ∧
        (cmd.toNat < 0x10 ∨ 0x7F < cmd.toNat ∨ s.phase.toNat < 3 ∨ 6 < s.phase.toNat)) ∧
    (∃ (s : State) (cmd : Byte) (req : List Byte), s.resp &&& 0x4000000000000000 = 0 ∧ 0x10 ≤ cmd.toNat ∧
        cmd.toNat ≤ 0x7F ∧ 3 ≤ s.phase.toNat ∧ s.phase.toNat ≤ 6) ∧
    (∃ (p : BitVec 4) (s : State), s.poolDown.contains p.toNat = true ∧ s.galleys = [] ∧ s.coalescer = []) ∧
    (∃ (p : BitVec 4) (s : State), s.poolDown.contains p.toNat = false ∧ s.galleys = [] ∧ s.coalescer = []) :=
  ⟨⟨{ s0 with phase := 0 }, (by decide)⟩,
   ⟨{ s0 with phase := 1 }, (by decide)⟩,
   ⟨{ s0 with phase := 2 }, (by decide)⟩,
   ⟨{ s0 with phase := 3 }, (by decide), (by decide)⟩,
   ⟨{ s0 with phase := 3, q0up := true }, (by decide), (by decide)⟩,
   ⟨{ s0 with phase := 4 }, (by decide)⟩,
   ⟨{ s0 with phase := 5 }, (by decide)⟩,
   ⟨{ s0 with phase := 5 }, (by decide)⟩,
   ⟨{ s0 with resp := 0x4000000000000000 }, (by decide)⟩,
   ⟨s0, 2400, (by decide), (by decide), (by decide)⟩,
   ⟨s0, 2401, (by decide), (by decide)⟩,
   ⟨s0, (0, 0), (0, 64), (64, 64), (by decide), (by decide), (by decide), (by decide), (by decide)⟩,
   ⟨{ s0 with phase := 2 }, (0, 0), (0, 64), (64, 64), (by decide), (by decide), (by decide), (by decide),
       (by decide)⟩,
   ⟨s0, zeros 64, 63, (by decide), List.length_replicate, (by decide)⟩,
   ⟨s0, zeros 64, 64, (by decide), List.length_replicate, (by decide)⟩,
   ⟨s0, (by decide)⟩,
   ⟨s0, 0x80, [], (by decide), (by decide)⟩,
   ⟨{ s0 with phase := 6 }, 0x7F, [], (by decide), (by decide), (by decide), (by decide), (by decide)⟩,
   ⟨15, { s0 with poolDown := [15] }, (by decide), (by decide), (by decide)⟩,
   ⟨15, s0, (by decide), (by decide), (by decide)⟩⟩

theorem witness_ScalarFrame :
    (∃ (i : Instr) (w : Walker) (h : Hdr) (d : Name) (s t : State), scalarWord i = some (w, h, d) ∧
        exec i s = .next t ∧ ∃ c, c ≠ s.cur) ∧
    (∃ (i : Instr) (w : Walker) (h : Hdr) (d : Name) (s t : State), scalarWord i = some (w, h, d) ∧
        exec i s = .next t ∧ ∃ l, l ∈ (t.core s.cur).latches) ∧
    (∃ (i : Instr) (w : Walker) (h : Hdr) (d : Name) (s t : State), scalarWord i = some (w, h, d) ∧
        exec i s = .next t ∧ ∃ n, n ∈ (t.core s.cur).scoreboard) ∧
    (∃ (i : Instr) (w : Walker) (h : Hdr) (d : Name) (s t : State), scalarWord i = some (w, h, d) ∧
        exec i s = .next t ∧ ∃ n, n ≠ h.wait) :=
  ⟨⟨.add h0 (.x 63) (.x 1) (.x 0), .C, h0, .x 63, s0, _, rfl, rfl, 1, (by decide)⟩,
   ⟨.add h0 (.x 63) (.x 1) (.x 0), .C, h0, .x 63, s0, _, rfl, rfl, .xreg 63 0, (by decide +kernel)⟩,
   ⟨.mul h0 (.x 63) (.x 1) (.x 0), .C, h0, .x 63, s0, _, rfl, rfl, 63, (by decide +kernel)⟩,
   ⟨.add h0 (.x 63) (.x 1) (.x 0), .C, h0, .x 63, s0, _, rfl, rfl, 15, (by decide)⟩⟩

theorem witness_VectorFrame :
    (∃ (i : Instr) (v : ViewSpec) (s t : State), (elementWord i = some v ∨ movementWord i = some v) ∧
        (∀ o ∈ v.ops, ∃ n, o.1 = .v n) ∧ (∀ q, v.arg ≠ some (.q q)) ∧ (s.core s.cur).frozen = none ∧
        exec i s = .next t ∧ (t.core s.cur).frozen = none ∧ ∃ c, c ≠ s.cur) ∧
    (∃ (i : Instr) (v : ViewSpec) (s t : State), (elementWord i = some v ∨ movementWord i = some v) ∧
        (∀ o ∈ v.ops, ∃ n, o.1 = .v n) ∧ (∀ q, v.arg ≠ some (.q q)) ∧ (s.core s.cur).frozen = none ∧
        exec i s = .next t ∧ (t.core s.cur).frozen = none ∧ ∃ n, n ≠ v.h.wait) ∧
    (∃ (i : Instr) (v : ViewSpec) (s t : State), (elementWord i = some v ∨ movementWord i = some v) ∧
        (∀ o ∈ v.ops, ∃ n, o.1 = .v n) ∧ (∀ q, v.arg ≠ some (.q q)) ∧ (s.core s.cur).frozen = none ∧
        exec i s = .next t ∧ (t.core s.cur).frozen = none ∧ ∃ r, r ∈ (t.core s.cur).vpend) :=
  ⟨⟨.vsplat h0 (.v 0) (.x 1), _, vs0, _, (.inl rfl), (by intro o h; cases h), (by intro q h; cases h), (by decide),
      rfl, (by decide), 1, (by decide +kernel)⟩,
   ⟨.vsplat h0 (.v 0) (.x 1), _, vs0, _, (.inl rfl), (by intro o h; cases h), (by intro q h; cases h), (by decide),
       rfl, (by decide), 15, (by decide +kernel)⟩,
   ⟨.vsplat h0 (.v 0) (.x 1), _, vs0, _, (.inl rfl), (by intro o h; cases h), (by intro q h; cases h), (by decide),
       rfl, (by decide), (keyRS 0 4096, 2048, 1), (by decide +kernel)⟩⟩

theorem witness_StoreFrame :
    (∃ (c : Nat) (s t : State) (o : Origin) (n key r : Nat) (v : Word) (rel : Option Scope) (l : List QOp),
        (s.core c).sq = ⟨o, .store n key v rel, some r⟩ :: l ∧ (s.core c).lq = [] ∧ isVault key = true ∧
        r ≤ (s.core c).time ∧ o.core = c ∧ o.post = 0 ∧ o.post2 = 0 ∧ key % 64 + n ≤ 64 ∧ 0 < n ∧ s.Canonical ∧
        (s.ownTag c).gen ≠ 0 ∧ exec (.storePerforms c) s = .next t ∧ ∃ a, (a < unitOf key ∨ unitOf key + 64 ≤ a)) ∧
    (∃ (c : Nat) (s t : State) (o : Origin) (n key r : Nat) (v : Word) (rel : Option Scope) (l : List QOp),
        (s.core c).sq = ⟨o, .store n key v rel, some r⟩ :: l ∧ (s.core c).lq = [] ∧ isVault key = true ∧
        r ≤ (s.core c).time ∧ o.core = c ∧ o.post = 0 ∧ o.post2 = 0 ∧ key % 64 + n ≤ 64 ∧ 0 < n ∧ s.Canonical ∧
        (s.ownTag c).gen ≠ 0 ∧ exec (.storePerforms c) s = .next t ∧ s.tagAt key = s.ownTag c ∧ ∃ a,
        (a < key ∨ key + n ≤ a)) ∧
    (∃ (c : Nat) (s t : State) (o : Origin) (n key r : Nat) (v : Word) (rel : Option Scope) (l : List QOp),
        (s.core c).sq = ⟨o, .store n key v rel, some r⟩ :: l ∧ (s.core c).lq = [] ∧ isVault key = true ∧
        r ≤ (s.core c).time ∧ o.core = c ∧ o.post = 0 ∧ o.post2 = 0 ∧ key % 64 + n ≤ 64 ∧ 0 < n ∧ s.Canonical ∧
        (s.ownTag c).gen ≠ 0 ∧ exec (.storePerforms c) s = .next t ∧ ∃ i, i < n ∧ i < 8) ∧
    (∃ (c : Nat) (s t : State) (o : Origin) (n key r : Nat) (v : Word) (rel : Option Scope) (l : List QOp),
        (s.core c).sq = ⟨o, .store n key v rel, some r⟩ :: l ∧ (s.core c).lq = [] ∧ isVault key = true ∧
        r ≤ (s.core c).time ∧ o.core = c ∧ o.post = 0 ∧ o.post2 = 0 ∧ key % 64 + n ≤ 64 ∧ 0 < n ∧ s.Canonical ∧
        (s.ownTag c).gen ≠ 0 ∧ exec (.storePerforms c) s = .next t ∧ ∃ k, unitOf k ≠ unitOf key) :=
  ⟨⟨0, { st { core0 with sq := [⟨o0 .C, .store 8 key0 7 none, some 0⟩] } with tags := [(key0, tag1)] }, _, o0 .C, _,
      key0, _, _, _, _, rfl, (by decide), (by decide), (by decide), (by decide), (by decide), (by decide),
      (by decide), (by decide), (canon (by decide)), (by decide), rfl, key0 + 64, (by decide)⟩,
   ⟨0, { st { core0 with sq := [⟨o0 .C, .store 8 key0 7 none, some 0⟩] } with tags := [(key0, tag1)] }, _, o0 .C, _,
       key0, _, _, _, _, rfl, (by decide), (by decide), (by decide), (by decide), (by decide), (by decide),
       (by decide), (by decide), (canon (by decide)), (by decide), rfl, (by decide), key0 + 8, (by decide)⟩,
   ⟨0, { st { core0 with sq := [⟨o0 .C, .store 8 key0 7 none, some 0⟩] } with tags := [(key0, tag1)] }, _, o0 .C, _,
       key0, _, _, _, _, rfl, (by decide), (by decide), (by decide), (by decide), (by decide), (by decide),
       (by decide), (by decide), (canon (by decide)), (by decide), rfl, 7, (by decide), (by decide)⟩,
   ⟨0, { st { core0 with sq := [⟨o0 .C, .store 8 key0 7 none, some 0⟩] } with tags := [(key0, tag1)] }, _, o0 .C, _,
       key0, _, _, _, _, rfl, (by decide), (by decide), (by decide), (by decide), (by decide), (by decide),
       (by decide), (by decide), (canon (by decide)), (by decide), rfl, key0 + 64, (by decide)⟩⟩

end Sys2Proof.Tests
end

section
namespace Sys2Proof.Machine

/-! ## Canonical memory (R3, R9): the rules of operations and answers

An invariant over every step of the model. For each function of the model there is one lemma of three kinds: `f_mem` (it
writes no memory), `f_canonical` (it keeps memory canonical), `f_keeps` (the same of an operation that may stop). They stand
in the order of the model and cite one another; memory changes only by `write` and `writeUnit` (`write_canonical`,
`writeUnit_canonical`) and by an unlisting (`wf_filter`). -/

/-- An operation that goes well keeps memory in its canonical form. -/
structure Op.Keeps {α : Type} (m : Op α) : Prop where
  run : ∀ s r, s.Canonical → m.run s = .ok r → r.2.Canonical

/-- An answer whose next state, if there is one, has its memory in canonical form. -/
def nextCanonical (r : Host.Outcome State Fault Refusal) : Prop := ∀ t, r = .next t → t.Canonical

theorem nextCanonical_next {t : State} : nextCanonical (.next t) ↔ t.Canonical :=
  ⟨fun h => h t rfl, fun h _ e => by cases e; exact h⟩

theorem nextCanonical_fault (r : Fault) : nextCanonical (.fault r) := by
  intro t e; cases e

theorem nextCanonical_ite {p : Prop} [Decidable p] {a b : Host.Outcome State Fault Refusal} (ha : nextCanonical a)
    (hb : nextCanonical b) : nextCanonical (if p then a else b) := by
  split
  · exact ha
  · exact hb

theorem canonical_of_mem {s t : State} (e : t.mem = s.mem) (h : s.Canonical) : t.Canonical := by
  unfold State.Canonical at *; rwa [e]

theorem foldl_canonical {β : Type} {f : State → β → State} (hf : ∀ s b, s.Canonical → (f s b).Canonical) (l : List β) :
    ∀ {s : State}, s.Canonical → (l.foldl f s).Canonical := by
  induction l with
  | nil => exact fun h => h
  | cons b l ih => exact fun h => ih (hf _ b h)

theorem foldl_mem {β : Type} {f : State → β → State} (hf : ∀ s b, (f s b).mem = s.mem) (l : List β) :
    ∀ s : State, (l.foldl f s).mem = s.mem := by
  induction l with
  | nil => exact fun _ => rfl
  | cons b l ih => exact fun s => (ih _).trans (hf s b)

theorem foldl_canonical_fst {β γ : Type} {f : State × γ → β → State × γ}
    (hf : ∀ s b, s.1.Canonical → (f s b).1.Canonical) (l : List β) :
    ∀ {s : State × γ}, s.1.Canonical → (l.foldl f s).1.Canonical := by
  induction l with
  | nil => exact fun h => h
  | cons b l ih => exact fun h => ih (hf _ b h)

theorem keeps_pure {α : Type} (a : α) : (pure a : Op α).Keeps := ⟨by
  intro s r h e; cases e; exact h⟩

theorem keeps_bind {α β : Type} {m : Op α} {f : α → Op β} (hm : m.Keeps) (hf : ∀ a, (f a).Keeps) : (m >>= f).Keeps := by
  refine ⟨fun s r h e => ?_⟩
  rw [StateT.run_bind] at e
  cases hr : m.run s with
  | error x => rw [hr] at e; cases e
  | ok p => rw [hr] at e; exact (hf _).run _ _ (hm.run _ _ h hr) e

theorem keeps_get_bind {β : Type} {f : State → Op β} (hf : ∀ s : State, s.Canonical → (f s).Keeps) :
    ((get : Op State) >>= f).Keeps :=
  ⟨fun s r h e => (hf s h).run s r h e⟩

theorem keeps_set {t : State} (h : t.Canonical) : (set t : Op PUnit).Keeps := ⟨by
  intro s r _ e; cases e; exact h⟩

theorem keeps_modify {f : State → State} (h : ∀ s : State, s.Canonical → (f s).Canonical) : (modify f : Op PUnit).Keeps := ⟨by
  intro s r hs e; cases e; exact h s hs⟩

theorem keeps_stall {α : Type} : (stall : Op α).Keeps := ⟨by
  intro s r _ e; cases e⟩

theorem keeps_trapNow {α : Type} (cls : TrapClass) (code addr : Nat) : (trapNow cls code addr : Op α).Keeps := ⟨by
  intro s r _ e; cases e⟩

theorem keeps_throw {α : Type} (e : Stop) : (throw e : Op α).Keeps := ⟨by
  intro s r _ e; cases e⟩

theorem keeps_need (b : Bool) : (need b).Keeps := by
  cases b
  · exact keeps_stall
  · exact keeps_pure _

theorem keeps_demand (b : Bool) (cls : TrapClass) (addr : Nat) : (demand b cls addr).Keeps := by
  cases b
  · exact keeps_trapNow cls 0 addr
  · exact keeps_pure _

theorem keeps_getCore (o : Origin) : (getCore o).Keeps := ⟨by
  intro s r h e; cases e; exact h⟩

theorem keeps_modifyCore (o : Origin) (f : Core → Core) : (modifyCore o f).Keeps := ⟨by
  intro s r h e; cases e; exact h⟩

theorem keeps_ite {α : Type} {p : Prop} [Decidable p] {a b : Op α} (ha : a.Keeps) (hb : b.Keeps) :
    (if p then a else b).Keeps := by
  split
  · exact ha
  · exact hb

/-- Two branches that go on in one way. -/
theorem keeps_ite_bind {α β : Type} {p : Prop} [Decidable p] {a b : Op α} {f : α → Op β} (ha : a.Keeps) (hb : b.Keeps)
    (hf : ∀ x, (f x).Keeps) : (if p then a >>= f else b >>= f).Keeps :=
  keeps_ite (keeps_bind ha hf) (keeps_bind hb hf)

/-- Something that is done on a condition, and what comes after it. -/
theorem keeps_when_bind {β : Type} {p : Prop} [Decidable p] {a : Op PUnit} {f : PUnit → Op β} (ha : a.Keeps)
    (hf : ∀ x, (f x).Keeps) : (if p then a >>= f else f ⟨⟩).Keeps :=
  keeps_ite (keeps_bind ha hf) (hf _)

theorem keeps_foldlM {α β : Type} {f : α → β → Op α} (hf : ∀ a b, (f a b).Keeps) (l : List β) :
    ∀ a, (l.foldlM f a).Keeps := by
  induction l with
  | nil => exact fun a => keeps_pure a
  | cons b l ih => exact fun a => keeps_bind (hf a b) ih

theorem keeps_mapM {α β : Type} {f : α → Op β} (hf : ∀ a, (f a).Keeps) (l : List α) : (l.mapM f).Keeps := by
  induction l with
  | nil => exact keeps_pure []
  | cons a l ih =>
    rw [List.mapM_cons]
    exact keeps_bind (hf a) fun b => keeps_bind ih fun bs => keeps_pure _

theorem keeps_liftM {α : Type} (x : Except Stop α) : (liftM x : Op α).Keeps := by
  refine ⟨fun s r h e => ?_⟩
  cases x with
  | error x => cases e
  | ok a => cases e; exact h

/-! ## Canonical memory: the functions of the model, in its order -/

/-! ### VFs, generations and tags -/

theorem staleDrop_mem (s : State) (v : BitVec 6) (n : Nat) : (s.staleDrop v n).mem = s.mem := rfl

theorem voidDrop_mem (s : State) (v : BitVec 6) (n : Nat) : (s.voidDrop v n).mem = s.mem := rfl

/-! ### Full bits (R22 to R24) -/

theorem markEmpty_canonical (s : State) (tag : Tag) (c off n : Nat) (hs : s.Canonical) :
    (s.markEmpty tag c off n).Canonical := by
  grind [State.markEmpty, writeUnit_canonical, modCore_mem, foldl_canonical, State.Canonical]

theorem markFull_mem (s : State) (c off n : Nat) : (s.markFull c off n).mem = s.mem := rfl

/-! ### Traps (R50, R318, R319) -/

theorem modGang_mem (s : State) (g : Nat) (f : Gang → Gang) : (s.modGang g f).mem = s.mem := by
  grind [State.modGang]

theorem vaultError_mem (s : State) (k : Nat) : (s.vaultError k).mem = s.mem := rfl

theorem noteBad_mem (s : State) (own : Tag) (k n : Nat) : (s.noteBad own k n).mem = s.mem := by
  grind [State.noteBad, vaultError_mem, foldl_mem]

theorem putRecord_canonical (s : State) (v : BitVec 6) (area : Nat) (host : Bool) (bytes : List Byte) (hs : s.Canonical) :
    (s.putRecord v area host bytes).Canonical := by
  grind [State.putRecord, write_canonical, send_mem, State.Canonical]

theorem writeUser_canonical (s : State) (tag : Tag) (key : Nat) (bytes : List Byte) (hs : s.Canonical) :
    (s.writeUser tag key bytes).Canonical := by
  grind [State.writeUser, write_canonical]

theorem saveCore_canonical (s : State) (c g : Nat) (hs : s.Canonical) : (s.saveCore c g).Canonical := by
  grind [State.saveCore, write_canonical, foldl_canonical, State.Canonical]

theorem takeTrap_canonical (s : State) (o : Origin) (cls : TrapClass) (code addr : Nat) (hs : s.Canonical) :
    (s.takeTrap o cls code addr).Canonical := by
  grind [State.takeTrap, modCore_mem, modGang_mem, saveCore_canonical, after_mem, send_mem, State.Canonical]

theorem takeWait_mem (s : State) (c : Nat) (n : BitVec 4) : (s.takeWait c n).mem = s.mem := by
  grind [State.takeWait, modCore_mem, setSem_mem]

theorem post_canonical (s : State) (o : Origin) (n : BitVec 4) (hs : s.Canonical) : (s.post o n).Canonical := by
  grind [State.post, modCore_mem, setSem_mem, later_mem, takeTrap_canonical, State.Canonical]

theorem complete_canonical (s : State) (o : Origin) (hs : s.Canonical) : (s.complete o).Canonical := by
  grind [State.complete, post_canonical]

theorem finish_canonical (s : State) (o : Origin) (hs : s.Canonical) : (s.finish o).Canonical := by
  grind [State.finish, complete_canonical, modW_mem, State.Canonical]

theorem unblock_mem (s : State) (o : Origin) : (s.unblock o).mem = s.mem := rfl

/-! ### Queues (R29, R30) -/

theorem enqueueAt_mem (s : State) (d n : Nat) (e : QEntry) : (s.enqueueAt d n e).mem = s.mem := rfl

theorem fillPlace_mem (s : State) (d n age : Nat) (tag : Tag) (v : Word) : (s.fillPlace d n age tag v).mem = s.mem := rfl

theorem sendEntry_mem (s : State) (o : Origin) (q : BitVec 5) (v : Word) : (s.sendEntry o q v).mem = s.mem := by
  grind [State.sendEntry, fillPlace_mem, later_mem]

theorem holdPlace_mem (s : State) (o : Origin) (q : BitVec 5) : (s.holdPlace o q).mem = s.mem := by
  grind [State.holdPlace, enqueueAt_mem]

theorem push_mem (s : State) (o : Origin) (q : BitVec 5) (v : Word) : (s.push o q v).mem = s.mem := by
  grind [State.push, sendEntry_mem, holdPlace_mem]

/-! ### Where a word stops before it issues -/

theorem grant_mem (s : State) (c age : Nat) (b : BitVec 32) : (s.grant c age b).2.mem = s.mem := by
  grind [State.grant, setCore_mem, modCore_mem]

theorem claimBanks_keeps (o : Origin) (b : BitVec 32) : (claimBanks o b).Keeps := by
  refine ⟨fun s r h e => ?_⟩
  unfold claimBanks StateT.run at e
  dsimp only at e
  split at e
  · cases e; exact h
  · cases e

theorem claimMore_keeps (o : Origin) (won b : BitVec 32) : (claimMore o won b).Keeps := by
  grind [claimMore, claimBanks_keeps]

/-! ### The issue of a word -/

theorem stalled_mem (s : State) (c : Nat) (w : Walker) : (s.stalled c w).mem = s.mem := rfl

theorem tryWord_canonical {body : Origin → Op Flow} (hb : ∀ o, (body o).Keeps) {c : Nat} {w : Walker} {h : Hdr} {nowait : Bool}
    {s : State} {r : Flow × State} (e : tryWord c w h nowait body s = .ok r) (hs : s.Canonical) : r.2.Canonical := by
  unfold tryWord at e
  dsimp only at e
  split at e
  · split at e
    · exact (hb _).run s r hs e
    · split at e
      · cases e
      · exact (hb _).run _ r (canonical_of_mem (takeWait_mem s c h.wait) hs) e
  · cases e

theorem grantDesc_mem (s : State) (c age : Nat) (p : BitVec 4) : (s.grantDesc c age p).2.mem = s.mem := by
  grind [State.grantDesc, grant_mem]

theorem startPrefetch_mem (s : State) (c : Nat) (p : BitVec 4) : (s.startPrefetch c p).mem = s.mem := by
  grind [State.startPrefetch, later_mem, setCore_mem]

theorem awaitBlock_mem (s : State) (c : Nat) (w : Walker) (o : Origin) (p : BitVec 4) : (s.awaitBlock c w o p).mem = s.mem := by
  grind [State.awaitBlock, grantDesc_mem, startPrefetch_mem, modCore_mem]

theorem issueAt_canonical {body : Origin → Op Flow} (hb : ∀ o, (body o).Keeps) (c : Nat) (w : Walker) (h : Hdr) (cost : Nat)
    (nowait : Bool) (s : State) (hs : s.Canonical) : (issueAt c w h cost nowait body s).Canonical := by
  unfold issueAt
  dsimp only
  split
  · split
    case h_1 e => exact tryWord_canonical hb e hs
    case h_2 e => exact tryWord_canonical hb e hs
    case h_3 => exact hs
    case h_4 => exact hs
    case h_5 => exact canonical_of_mem (awaitBlock_mem ..) hs
    case h_6 => exact hs
    case h_7 => exact takeTrap_canonical _ _ _ _ _ hs
  · split <;> exact hs

theorem issue_canonical {body : Origin → Op Flow} (hb : ∀ o, (body o).Keeps) (w : Walker) (h : Hdr) (cost : Nat)
    (s : State) (hs : s.Canonical) : nextCanonical (issue w h cost body s) :=
  nextCanonical_next.2 (issueAt_canonical hb s.cur w h cost false s hs)

theorem doneNow_keeps (o : Origin) : (doneNow o).Keeps := by
  grind [doneNow, complete_canonical, keeps_pure, keeps_bind, keeps_modify]

theorem doneNext_keeps (o : Origin) (l : List Latch) : (doneNext o l).Keeps := by
  grind [doneNext, keeps_modifyCore, begin_mem, keeps_pure, keeps_bind, keeps_modify, State.Canonical]

theorem doneLater_keeps (o : Origin) (d : Nat) (i : Instr) : (doneLater o d i).Keeps := by
  grind [doneLater, later_mem, begin_mem, keeps_pure, keeps_bind, keeps_modify, State.Canonical]

/-! ### Scalars (R59 to R61) -/

theorem popQueue_keeps (o : Origin) (q : BitVec 5) : (popQueue o q).Keeps := by
  grind [popQueue, keeps_stall, keeps_need, keeps_modifyCore, keeps_pure, keeps_bind, keeps_get_bind]

theorem srcX_keeps (o : Origin) (n : BitVec 6) : (srcX o n).Keeps := by
  grind [srcX, keeps_getCore, keeps_need, keeps_pure, keeps_bind]

theorem src_keeps (o : Origin) (n : Name) : (src o n).Keeps := by
  unfold src
  grind [srcX_keeps, popQueue_keeps, keeps_stall, keeps_pure, keeps_get_bind]

theorem dst_keeps (o : Origin) (n : Name) (v : Word) : (dst o n v).Keeps := by
  unfold dst
  grind [keeps_getCore, keeps_need, keeps_modifyCore, push_mem, keeps_stall, keeps_bind, keeps_get_bind, keeps_modify,
    State.Canonical]

theorem reserve_keeps (o : Origin) (n : Name) : (reserve o n).Keeps := by
  unfold reserve
  grind [keeps_getCore, keeps_need, keeps_modifyCore, holdPlace_mem, keeps_stall, keeps_bind, keeps_get_bind, keeps_modify,
    State.Canonical]

theorem destReady_keeps (o : Origin) (n : Name) : (destReady o n).Keeps := by
  unfold destReady
  grind [keeps_getCore, keeps_need, keeps_stall, keeps_bind, keeps_get_bind]

theorem land_mem (s : State) (o : Origin) (n : Name) (v : Word) : (s.land o n v).mem = s.mem := by
  unfold State.land
  grind [modCore_mem, sendEntry_mem]

theorem resultLater_keeps (o : Origin) (d : Name) (lat : Nat) (v : Word) : (resultLater o d lat v).Keeps := by
  grind [resultLater, reserve_keeps, doneLater_keeps, keeps_bind]

/-! ### Ports (R126 to R128) -/

theorem setPort_mem (s : State) (c : Nat) (p : BitVec 4) (t : PortSt) : (s.setPort c p t).mem = s.mem := by
  grind [State.setPort, modCore_mem, startPrefetch_mem]

/-! ### View sources and destinations -/

theorem takeOperand_keeps (o : Origin) (te : Bool) (code : Nat) (f : Found) : (takeOperand o te code f).Keeps := by
  grind [takeOperand, keeps_trapNow, setPort_mem, keeps_stall, keeps_pure, keeps_bind, keeps_get_bind, keeps_set,
    State.Canonical]

theorem vectorOperands_keeps (o : Origin) (d : Name) (readD : Bool) (ops : List (Name × Bool)) :
    (vectorOperands o d readD ops).Keeps := by
  unfold vectorOperands
  refine keeps_get_bind fun s _ => ?_
  have hst : ∀ l, (List.foldlM (fun (_ : Unit) (f : Found × Bool) => (liftM (operandStall s o.core f.2 f.1) : Op Unit)) () l).Keeps :=
    fun l => keeps_foldlM (fun _ _ => keeps_liftM _) l ()
  dsimp only
  cases destView s o.core d with
  | none => exact keeps_bind (hst _) fun _ => keeps_trapNow ..
  | some v =>
    refine keeps_bind (keeps_need _) fun _ => keeps_bind (hst _) fun _ =>
      keeps_bind (keeps_foldlM (fun _ _ => ?_) _ _) fun _ => keeps_bind (claimBanks_keeps ..) fun _ => keeps_pure _
    exact keeps_get_bind fun _ _ => keeps_bind (keeps_liftM _) fun _ => keeps_bind (takeOperand_keeps ..) fun _ => keeps_pure _

theorem fixedResult_keeps (o : Origin) (r : Nat × Nat) (lat : Nat) (bytes : List Byte) (flags : BitVec 7) :
    (fixedResult o r lat bytes flags).Keeps := by
  grind [fixedResult, keeps_getCore, keeps_demand, keeps_modifyCore, doneLater_keeps, keeps_bind]

theorem writeFixed_canonical (s : State) (o : Origin) (key : Nat) (bytes : List Byte) (hs : s.Canonical) :
    (s.writeFixed o key bytes).Canonical := by
  grind [State.writeFixed, writeUser_canonical, modCore_mem, foldl_canonical, State.Canonical]

/-! ### Scopes -/

theorem demandScope_keeps (o : Origin) (sc : Scope) : (demandScope o sc).Keeps := by
  grind [demandScope, keeps_demand, keeps_get_bind]

/-! ### What happens next -/

theorem passWord_mem (s : State) (c : Nat) (w : Walker) (target : Nat) (outs : List Outc) :
    (passWord s c w target outs).mem = s.mem := rfl

/-! ### The end of a cycle -/

theorem applyLatch_mem (s : State) (c : Nat) (l : Latch) : (applyLatch s c l).mem = s.mem := by
  unfold applyLatch
  grind [setSem_mem, modCore_mem, markFull_mem]

theorem tickCore_canonical (s : State) (c : Nat) (hs : s.Canonical) : (tickCore s c).Canonical := by
  grind [tickCore, applyLatch_mem, modCore_mem, finish_canonical, foldl_canonical, State.Canonical]

theorem holdStates_mem (s : State) (gang : Nat) : (s.holdStates gang).mem = s.mem := rfl

theorem watchBarriers_mem (s : State) : (watchBarriers s).mem = s.mem := by
  grind [watchBarriers, holdStates_mem, later_mem, modGang_mem, foldl_mem]

theorem tick_canonical (s : State) (hs : s.Canonical) : (tick s).Canonical := by
  grind [tick, watchBarriers_mem, tickCore_canonical, foldl_canonical, State.Canonical]

/-! ### Immediates and integer arithmetic (R62 to R65) -/

theorem execNop_canonical (h : Hdr) (s : State) (hs : s.Canonical) : nextCanonical (execNop h s) := by
  grind [execNop, issue_canonical, doneNow_keeps]

theorem execLi_canonical (h : Hdr) (d : Name) (imm : BitVec 23) (s : State) (hs : s.Canonical) :
    nextCanonical (execLi h d imm s) := by
  grind [execLi, issue_canonical, dst_keeps, doneNext_keeps, keeps_bind]

theorem execLiu_canonical (h : Hdr) (d : Name) (imm : BitVec 23) (s : State) (hs : s.Canonical) :
    nextCanonical (execLiu h d imm s) := by
  grind [execLiu, issue_canonical, src_keeps, dst_keeps, doneNext_keeps, keeps_bind]

theorem scalar2_canonical (h : Hdr) (d a b : Name) (f : Word → Word → Word) (s : State) (hs : s.Canonical) :
    nextCanonical (scalar2 h d a b f s) := by
  grind [scalar2, issue_canonical, src_keeps, dst_keeps, doneNext_keeps, keeps_bind]

theorem scalar1_canonical (h : Hdr) (d a : Name) (f : Word → Word) (s : State) (hs : s.Canonical) :
    nextCanonical (scalar1 h d a f s) := by
  grind [scalar1, issue_canonical, src_keeps, dst_keeps, doneNext_keeps, keeps_bind]

theorem execSel_canonical (h : Hdr) (d a b : Name) (s : State) (hs : s.Canonical) : nextCanonical (execSel h d a b s) := by
  grind [execSel, issue_canonical, src_keeps, dst_keeps, doneNext_keeps, keeps_bind]

theorem execMul_canonical (h : Hdr) (d a b : Name) (s : State) (hs : s.Canonical) : nextCanonical (execMul h d a b s) := by
  grind [execMul, issue_canonical, src_keeps, resultLater_keeps, keeps_bind]

theorem execMulh_canonical (h : Hdr) (uns : Bool) (d a b : Name) (s : State) (hs : s.Canonical) :
    nextCanonical (execMulh h uns d a b s) := by
  grind [execMulh, issue_canonical, src_keeps, resultLater_keeps, keeps_bind]

theorem execScalarResultLands_canonical (o : Origin) (d : Name) (val : Word) (s : State) (hs : s.Canonical) :
    nextCanonical (execScalarResultLands o d val s) := by
  grind [execScalarResultLands, modCore_mem, land_mem, finish_canonical, unblock_mem, nextCanonical_next, State.Canonical]

/-! ### Control transfer (R66 to R68) -/

theorem transfer_keeps (o : Origin) (taken : Bool) (to? : Option Nat) (stack : List Nat) :
    (transfer o taken to? stack).Keeps := by
  grind [transfer, keeps_getCore, keeps_need, keeps_trapNow, keeps_modifyCore, complete_canonical, keeps_pure, keeps_bind,
    keeps_modify]

theorem condSrc_keeps (o : Origin) (cond : BitVec 4) (r : Name) : (condSrc o cond r).Keeps := by
  grind [condSrc, src_keeps, keeps_pure]

theorem execBr_canonical (h : Hdr) (cond : BitVec 4) (r : Name) (off : BitVec 19) (s : State) (hs : s.Canonical) :
    nextCanonical (execBr h cond r off s) := by
  grind [execBr, issue_canonical, condSrc_keeps, keeps_getCore, transfer_keeps, keeps_bind]

theorem execCall_canonical (h : Hdr) (cond : BitVec 4) (r : Name) (off : BitVec 19) (s : State) (hs : s.Canonical) :
    nextCanonical (execCall h cond r off s) := by
  grind [execCall, issue_canonical, condSrc_keeps, keeps_getCore, transfer_keeps, keeps_bind]

theorem execRet_canonical (h : Hdr) (cond : BitVec 4) (r : Name) (s : State) (hs : s.Canonical) :
    nextCanonical (execRet h cond r s) := by
  grind [execRet, issue_canonical, condSrc_keeps, keeps_getCore, transfer_keeps, keeps_bind]

theorem execLoop_canonical (h : Hdr) (cond : BitVec 4) (r : Name) (off : BitVec 19) (s : State) (hs : s.Canonical) :
    nextCanonical (execLoop h cond r off s) := by
  grind [execLoop, issue_canonical, src_keeps, keeps_getCore, dst_keeps, transfer_keeps, keeps_bind]

/-! ### Spill and fill (R72) -/

theorem spillPlace_keeps (o : Origin) (size : BitVec 8) (off : BitVec 15) : (spillPlace o size off).Keeps := by
  grind [spillPlace, keeps_getCore, keeps_demand, keeps_pure, keeps_bind]

theorem spillBlock_keeps (o : Origin) (d : Name) : (spillBlock o d).Keeps := by
  grind [spillBlock, src_keeps, keeps_demand, keeps_pure, keeps_bind]

theorem completeLater_keeps (o : Origin) (lat : Nat) : (completeLater o lat).Keeps := by
  grind [completeLater, doneLater_keeps]

theorem execSpl_canonical (h : Hdr) (size : BitVec 8) (d : Name) (off : BitVec 15) (s : State) (hs : s.Canonical) :
    nextCanonical (execSpl h size d off s) := by
  refine issue_canonical (fun o => keeps_ite ?_ ?_) .C h _ s hs
  · exact keeps_bind (src_keeps o d) fun x => keeps_get_bind fun s _ => keeps_bind (keeps_need _) fun _ =>
      keeps_bind (keeps_need _) fun _ => keeps_bind (spillPlace_keeps o size off) fun p =>
      keeps_bind (spillBlock_keeps o d) fun _ => keeps_bind (claimBanks_keeps ..) fun _ =>
      keeps_bind (keeps_modify fun t ht => write_canonical _ _ _ ht) fun _ => completeLater_keeps ..
  · exact keeps_bind (keeps_mapM (srcX_keeps o) _) fun vs => keeps_bind (keeps_getCore o) fun k =>
      keeps_bind (keeps_need _) fun _ => keeps_bind (spillPlace_keeps o size off) fun p =>
      keeps_bind (keeps_modify fun t ht => write_canonical _ _ _ ht) fun _ => doneNext_keeps ..

theorem execFil_canonical (h : Hdr) (size : BitVec 8) (d : Name) (off : BitVec 15) (s : State) (hs : s.Canonical) :
    nextCanonical (execFil h size d off s) := by
  refine issue_canonical (fun o => keeps_ite ?_ ?_) .C h _ s hs
  · exact keeps_bind (src_keeps o d) fun x => keeps_get_bind fun s _ => keeps_bind (keeps_getCore o) fun k =>
      keeps_bind (keeps_need _) fun _ => keeps_bind (keeps_need _) fun _ => keeps_bind (spillPlace_keeps o size off) fun p =>
      keeps_bind (spillBlock_keeps o d) fun _ => keeps_bind (keeps_demand ..) fun _ => doneLater_keeps ..
  · exact keeps_bind (keeps_mapM (fun r => destReady_keeps ..) _) fun _ => keeps_bind (keeps_getCore o) fun k =>
      keeps_bind (keeps_need _) fun _ => keeps_bind (spillPlace_keeps o size off) fun p => keeps_get_bind fun s _ =>
      keeps_bind (keeps_mapM (fun e => resultLater_keeps ..) _) fun _ => keeps_pure _

/-! ### Views, slip, semaphores (R73 to R76) -/

theorem execView_canonical (h : Hdr) (d a : Name) (fmt : BitVec 8) (s : State) (hs : s.Canonical) :
    nextCanonical (execView h d a fmt s) := by
  unfold execView
  grind [issue_canonical, src_keeps, keeps_demand, doneNext_keeps, keeps_bind]

theorem execSlipw_canonical (h : Hdr) (window : BitVec 13) (s : State) (hs : s.Canonical) :
    nextCanonical (execSlipw h window s) := by
  grind [execSlipw, issue_canonical, doneNext_keeps]

theorem execSemi_canonical (h : Hdr) (sem : BitVec 8) (val : BitVec 8) (s : State) (hs : s.Canonical) :
    nextCanonical (execSemi h sem val s) := by
  grind [execSemi, issue_canonical, doneNext_keeps]

/-! ### Halting and deliberate traps (R82, R83) -/

theorem execHalt_canonical (h : Hdr) (s : State) (hs : s.Canonical) : nextCanonical (execHalt h s) := by
  grind [execHalt, issue_canonical, keeps_getCore, keeps_need, modW_mem, begin_mem, keeps_pure, keeps_bind, keeps_modify,
    State.Canonical]

theorem execTrap_canonical (h : Hdr) (code : BitVec 23) (s : State) (hs : s.Canonical) : nextCanonical (execTrap h code s) := by
  grind [execTrap, issue_canonical, keeps_getCore, takeTrap_canonical, modW_mem, complete_canonical, keeps_pure, keeps_bind,
    keeps_modify, State.Canonical]

theorem execRep_canonical (h : Hdr) (tag : BitVec 3) (count : BitVec 8) (regstep : BitVec 8) (addrstep : BitVec 15)
    (s : State) (hs : s.Canonical) : nextCanonical (execRep h tag count regstep addrstep s) := by
  grind [execRep, issue_canonical, keeps_getCore, keeps_demand, modW_mem, keeps_pure, keeps_bind, keeps_get_bind,
    keeps_modify, State.Canonical]

theorem execFork_canonical (h : Hdr) (s : State) (hs : s.Canonical) : nextCanonical (execFork h s) := by
  grind [execFork, issue_canonical, keeps_getCore, keeps_trapNow, keeps_need, later_mem, begin_mem, keeps_modifyCore,
    keeps_pure, keeps_bind, keeps_modify, State.Canonical]

theorem release_mem (s : State) (c : Nat) : (s.release c).mem = s.mem := by
  grind [State.release, later_mem, begin_mem, modCore_mem]

theorem execRdv_canonical (h : Hdr) (s : State) (hs : s.Canonical) : nextCanonical (execRdv h s) := by
  grind [execRdv, issue_canonical, release_mem, modW_mem, keeps_pure, keeps_bind, keeps_modify, State.Canonical]

theorem execSsb_canonical (h : Hdr) (s : State) (hs : s.Canonical) : nextCanonical (execSsb h s) := by
  grind [execSsb, issue_canonical, keeps_demand, modW_mem, keeps_pure, keeps_bind, keeps_get_bind, keeps_modify,
    State.Canonical]

/-! ### The queues (R216) -/

theorem pushL_mem (s : State) (c : Nat) (e : QOp) : (s.pushL c e).mem = s.mem := by
  grind [State.pushL, modCore_mem, later_mem]

theorem pushS_mem (s : State) (c : Nat) (e : QOp) : (s.pushS c e).mem = s.mem := by
  grind [State.pushS, modCore_mem, later_mem]

theorem againL_mem (s : State) (c d : Nat) : (s.againL c d).mem = s.mem := by
  grind [State.againL, later_mem]

theorem againS_mem (s : State) (c d : Nat) : (s.againS c d).mem = s.mem := by
  grind [State.againS, later_mem]

theorem loadBody_keeps (o : Origin) (size : BitVec 2) (sx rs : Bool) (d : Name) (ea : Word) (acq : Option Scope) :
    (loadBody o size sx rs d ea acq).Keeps := by
  unfold loadBody
  dsimp only
  refine keeps_get_bind fun s _ => keeps_bind (keeps_getCore o) fun k => keeps_bind (keeps_need _) fun _ =>
    keeps_bind (destReady_keeps o d) fun _ => keeps_bind (keeps_need _) fun _ => keeps_bind ?_ fun _ => ?_
  · split
    · exact demandScope_keeps ..
    · exact keeps_pure _
  · split
    · exact keeps_trapNow ..
    · exact keeps_bind (reserve_keeps o d) fun _ => keeps_bind
        (keeps_modify fun t ht => canonical_of_mem ((pushL_mem ..).trans (begin_mem t o)) ht) fun _ => keeps_pure _

theorem stepped_keeps (o : Origin) (a : Word) : (stepped o a).Keeps := by
  grind [stepped, keeps_getCore, keeps_pure, keeps_bind]

theorem execLd_canonical (h : Hdr) (size : BitVec 2) (sx rs : Bool) (d a b : Name) (s : State) (hs : s.Canonical) :
    nextCanonical (execLd h size sx rs d a b s) := by
  grind [execLd, issue_canonical, src_keeps, stepped_keeps, loadBody_keeps, keeps_bind]

theorem execLda_canonical (h : Hdr) (size : BitVec 2) (sx rs : Bool) (sc : Scope) (d a : Name) (s : State) (hs : s.Canonical) :
    nextCanonical (execLda h size sx rs sc d a s) := by
  grind [execLda, issue_canonical, src_keeps, stepped_keeps, loadBody_keeps, keeps_bind]

theorem storeBody_keeps (o : Origin) (size : BitVec 2) (rs : Bool) (v ea : Word) (rel : Option Scope) :
    (storeBody o size rs v ea rel).Keeps := by
  unfold storeBody
  dsimp only
  refine keeps_get_bind fun s _ => keeps_bind (keeps_getCore o) fun k => keeps_bind (keeps_need _) fun _ =>
    keeps_bind (keeps_need _) fun _ => keeps_bind ?_ fun _ => ?_
  · split
    · exact demandScope_keeps ..
    · exact keeps_pure _
  · split
    · exact keeps_trapNow ..
    · exact keeps_bind (keeps_demand ..) fun _ => keeps_bind
        (keeps_modify fun t ht => canonical_of_mem ((pushS_mem ..).trans (begin_mem t o)) ht) fun _ => keeps_pure _

theorem execSt_canonical (h : Hdr) (size : BitVec 2) (rs : Bool) (d a b : Name) (s : State) (hs : s.Canonical) :
    nextCanonical (execSt h size rs d a b s) := by
  grind [execSt, issue_canonical, src_keeps, stepped_keeps, storeBody_keeps, keeps_bind]

theorem execStl_canonical (h : Hdr) (size : BitVec 2) (rs : Bool) (sc : Scope) (d a : Name) (s : State) (hs : s.Canonical) :
    nextCanonical (execStl h size rs sc d a s) := by
  grind [execStl, issue_canonical, src_keeps, stepped_keeps, storeBody_keeps, keeps_bind]

theorem execMark_canonical (h : Hdr) (s : State) (hs : s.Canonical) : nextCanonical (execMark h s) := by
  grind [execMark, issue_canonical, keeps_getCore, keeps_need, pushL_mem, pushS_mem, begin_mem, keeps_pure, keeps_bind,
    keeps_modify, State.Canonical]

theorem execFence_canonical (h : Hdr) (sc : Scope) (s : State) (hs : s.Canonical) : nextCanonical (execFence h sc s) := by
  grind [execFence, issue_canonical, demandScope_keeps, later_mem, modW_mem, begin_mem, keeps_pure, keeps_bind, keeps_modify,
    State.Canonical]

/-! ### Dispensers (R252 to R254) -/

theorem setDispenser_mem (s : State) (n : Byte) (d : Dispenser) : (s.setDispenser n d).mem = s.mem := rfl

theorem execTktake_canonical (h : Hdr) (d : Name) (n : BitVec 8) (s : State) (hs : s.Canonical) :
    nextCanonical (execTktake h d n s) := by
  grind [execTktake, issue_canonical, keeps_getCore, keeps_need, reserve_keeps, pushS_mem, begin_mem, keeps_pure, keeps_bind,
    keeps_modify, State.Canonical]

theorem execTkwait_canonical (h : Hdr) (sc : Scope) (n : BitVec 8) (a : Name) (s : State) (hs : s.Canonical) :
    nextCanonical (execTkwait h sc n a s) := by
  unfold execTkwait
  grind [issue_canonical, src_keeps, keeps_getCore, keeps_need, demandScope_keeps, pushL_mem, modW_mem, begin_mem, keeps_pure,
    keeps_bind, keeps_modify, State.Canonical]

theorem execTknext_canonical (h : Hdr) (sc : Scope) (n : BitVec 8) (s : State) (hs : s.Canonical) :
    nextCanonical (execTknext h sc n s) := by
  grind [execTknext, issue_canonical, keeps_getCore, keeps_need, demandScope_keeps, pushS_mem, begin_mem, keeps_pure,
    keeps_bind, keeps_modify, State.Canonical]

/-! ### Atomics (R248 to R251) -/

theorem atomWord_canonical (h : Hdr) (op : AtomOp) (dbl uns : Bool) (d a b : Name) (s : State) (hs : s.Canonical) :
    nextCanonical (atomWord h op dbl uns d a b s) := by
  refine issue_canonical (fun o => keeps_ite_bind (src_keeps o d) (keeps_pure 0) fun e => ?_) .C h 1 s hs
  refine keeps_bind (src_keeps o a) fun x => keeps_bind (src_keeps o b) fun v => keeps_get_bind fun s _ =>
    keeps_bind (keeps_getCore o) fun k => keeps_bind (keeps_need _) fun _ => keeps_bind (destReady_keeps o d) fun _ =>
    keeps_bind (keeps_need _) fun _ => ?_
  split
  · exact keeps_trapNow ..
  · exact keeps_bind (reserve_keeps o d) fun _ =>
      keeps_bind (keeps_modify fun t ht => canonical_of_mem ((pushS_mem ..).trans (begin_mem t o)) ht) fun _ => keeps_pure _

theorem noteAction_mem (s : State) (key n : Nat) : (s.noteAction key n).mem = s.mem := by
  grind [State.noteAction, after_mem, foldl_mem]

theorem atomicAt_canonical (s : State) (req : AtomicReq) (hs : s.Canonical) : (s.atomicAt req).1.Canonical := by
  grind [State.atomicAt, staleDrop_mem, vaultError_mem, noteAction_mem, writeUser_canonical, State.Canonical]

theorem popAway_mem (s : State) (o : Origin) : (s.popAway o).mem = s.mem := rfl

theorem execAtomicAtWriteQueue_canonical (o : Origin) (req : AtomicReq) (d : Name) (remaining : Nat) (s : State)
    (hs : s.Canonical) : nextCanonical (execAtomicAtWriteQueue o req d remaining s) := by
  grind [execAtomicAtWriteQueue, after_mem, atomicAt_canonical, later_mem, popAway_mem, nextCanonical_next, State.Canonical]

theorem execAtomicResultLands_canonical (o : Origin) (d : Name) (val : Word) (s : State) (hs : s.Canonical) :
    nextCanonical (execAtomicResultLands o d val s) := by
  grind [execAtomicResultLands, finish_canonical, land_mem, nextCanonical_next, State.Canonical]

theorem execTktakeAtDispenser_canonical (o : Origin) (tag : Tag) (n : BitVec 8) (d : Name) (s : State) (hs : s.Canonical) :
    nextCanonical (execTktakeAtDispenser o tag n d s) := by
  grind [execTktakeAtDispenser, after_mem, later_mem, popAway_mem, staleDrop_mem, setDispenser_mem, nextCanonical_next,
    State.Canonical]

theorem advancedAt_mem (s : State) (o : Origin) : (s.advancedAt o).mem = s.mem := rfl

theorem execTicketLands_canonical (o : Origin) (d : Name) (val : Word) (s : State) (hs : s.Canonical) :
    nextCanonical (execTicketLands o d val s) := by
  grind [execTicketLands, later_mem, finish_canonical, advancedAt_mem, popAway_mem, land_mem, nextCanonical_next,
    State.Canonical]

theorem execDispenserAdvance_canonical (core : Nat) (tag : Tag) (n : BitVec 8) (s : State) (hs : s.Canonical) :
    nextCanonical (execDispenserAdvance core tag n s) := by
  grind [execDispenserAdvance, after_mem, staleDrop_mem, setDispenser_mem, nextCanonical_next, State.Canonical]

theorem execNowServingBroadcast_canonical (vf : BitVec 6) (n : BitVec 8) (val : BitVec 32) (s : State) (hs : s.Canonical) :
    nextCanonical (execNowServingBroadcast vf n val s) := by
  grind [execNowServingBroadcast, nextCanonical_next, State.Canonical]

theorem execTkwaitWake_canonical (o : Origin) (s : State) (hs : s.Canonical) : nextCanonical (execTkwaitWake o s) := by
  grind [execTkwaitWake, finish_canonical, unblock_mem, modCore_mem, nextCanonical_next, State.Canonical]

/-! ### Performing -/

theorem marksMeet_canonical (s : State) (c : Nat) (t : State) (e : s.marksMeet c = some t) (hs : s.Canonical) :
    t.Canonical := by
  grind [State.marksMeet, finish_canonical, modCore_mem, State.Canonical]

theorem execLoadPerforms_canonical (core : Nat) (s : State) (hs : s.Canonical) : nextCanonical (execLoadPerforms core s) := by
  have hw : nextCanonical (.next (s.later core 1 (.loadPerforms core))) := nextCanonical_next.2 hs
  unfold execLoadPerforms
  dsimp only
  cases (s.core core).lq with
  | nil => exact nextCanonical_next.2 hs
  | cons e l =>
    dsimp only
    split
    · split
      · next h => exact nextCanonical_next.2 (canonical_of_mem (againL_mem ..) (marksMeet_canonical _ _ _ h hs))
      · exact hw
    · grind [noteBad_mem, grant_mem, againL_mem, later_mem, modCore_mem, nextCanonical_next, State.Canonical]
    · grind [later_mem, modCore_mem, nextCanonical_next, State.Canonical]
    · exact hw

theorem execStorePerforms_canonical (core : Nat) (s : State) (hs : s.Canonical) : nextCanonical (execStorePerforms core s) := by
  have hw : nextCanonical (.next (s.later core 1 (.storePerforms core))) := nextCanonical_next.2 hs
  unfold execStorePerforms
  dsimp only
  cases (s.core core).sq with
  | nil => exact nextCanonical_next.2 hs
  | cons e l =>
    refine nextCanonical_ite hw ?_
    cases e.op with
    | mark =>
      dsimp only
      split
      · next h => exact nextCanonical_next.2 (canonical_of_mem (againS_mem ..) (marksMeet_canonical _ _ _ h hs))
      · exact hw
    | store n key v rel =>
      grind [writeFixed_canonical, writeUser_canonical, noteAction_mem, finish_canonical, againS_mem, later_mem, modCore_mem,
        nextCanonical_next, State.Canonical]
    | _ => grind [after_mem, later_mem, modCore_mem, nextCanonical_next, State.Canonical]

theorem recordAt_keeps (o : Origin) (card : Name) (align n : Nat) : (recordAt o card align n).Keeps := by
  grind [recordAt, srcX_keeps, keeps_getCore, keeps_trapNow, keeps_need, keeps_pure, keeps_bind, keeps_get_bind]

theorem steppedRecord_keeps (o : Origin) (card : Name) (align n : Nat) : (steppedRecord o card align n).Keeps := by
  grind [steppedRecord, recordAt_keeps, claimBanks_keeps, keeps_pure, keeps_bind, keeps_get_bind]

theorem execTdef_canonical (h : Hdr) (card : Name) (t : BitVec 12) (s : State) (hs : s.Canonical) :
    nextCanonical (execTdef h card t s) := by
  unfold execTdef
  grind [issue_canonical, keeps_getCore, keeps_need, steppedRecord_keeps, keeps_demand, completeLater_keeps, doneLater_keeps,
    keeps_bind, keeps_get_bind]

theorem execTrd_canonical (h : Hdr) (d : Name) (t : BitVec 12) (field : BitVec 5) (s : State) (hs : s.Canonical) :
    nextCanonical (execTrd h d t field s) := by
  grind [execTrd, issue_canonical, keeps_getCore, keeps_need, resultLater_keeps, keeps_bind, keeps_get_bind]

/-! ### The tagged units (R258) -/

theorem modGibbs_mem (s : State) (c : Nat) (f : Gibbs → Gibbs) : (s.modGibbs c f).mem = s.mem := rfl

theorem modCells_mem (s : State) (c g : Nat) (f : CellGroup → CellGroup) : (s.modCells c g f).mem = s.mem := rfl

theorem setCouplings_mem (s : State) (c i : Nat) (l : List (Int × Bool × Nat)) : (s.setCouplings c i l).mem = s.mem := rfl

theorem setCtl_mem (s : State) (c : Nat) (f : GCtl → GCtl) (g : GStatus → GStatus) : (s.setCtl c f g).mem = s.mem := rfl

theorem modCtl_mem (s : State) (c : Nat) (f : GCtl → GCtl) : (s.modCtl c f).mem = s.mem := rfl

theorem modStatus_mem (s : State) (c : Nat) (g : GStatus → GStatus) : (s.modStatus c g).mem = s.mem := rfl

/-! ### Cells -/

theorem setS_mem (s : State) (c i : Nat) (b : Bool) : (s.setS c i b).mem = s.mem := rfl

/-! ### The colouring check (R264) -/

theorem colouringCheck_mem (s : State) (c : Nat) : (s.colouringCheck c).mem = s.mem := by
  grind [State.colouringCheck, modStatus_mem]

/-! ### Loads (R273, R274) -/

theorem loadCouplings_mem (s : State) (c : Nat) (e : Ent) (first : Nat) : (s.loadCouplings c e first).mem = s.mem := by
  grind [State.loadCouplings, setCouplings_mem, modStatus_mem, foldl_mem]

theorem loadBiases_mem (s : State) (c : Nat) (e : Ent) (first : Nat) : (s.loadBiases c e first).mem = s.mem := by
  grind [State.loadBiases, modCells_mem, modStatus_mem, foldl_mem]

/-! ### Completion of array words (R268, R271) -/

theorem maskCells_mem (s : State) (c : Nat) (mask : List Byte) (f : Nat → BitVec 64 → CellGroup → CellGroup) :
    (s.maskCells c mask f).mem = s.mem := by
  grind [State.maskCells, modCells_mem, foldl_mem]

theorem countSweeps_mem (s : State) (c k : Nat) : (s.countSweeps c k).mem = s.mem := by
  grind [State.countSweeps, modCells_mem, setCtl_mem, foldl_mem]

theorem gibbsDo_mem (s : State) (c : Nat) (op : GibbsOp) : (s.gibbsDo c op).mem = s.mem := by
  unfold State.gibbsDo
  grind [modCtl_mem, loadCouplings_mem, loadBiases_mem, modCells_mem, maskCells_mem, countSweeps_mem, colouringCheck_mem,
    foldl_mem]

theorem gibbsLands_canonical (s : State) (o : Origin) (hs : s.Canonical) : (s.gibbsLands o).Canonical := by
  grind [State.gibbsLands, later_mem, gibbsDo_mem, modGibbs_mem, finish_canonical, State.Canonical]

theorem viewWord_keeps (o : Origin) (d : Name) (readD : Bool) (ops : List (Name × Bool)) (lat : Nat)
    (chk : Byte → List Byte → Bool) (f : Byte → List Nat → List Source → List Nat × BitVec 7) :
    (viewWord o d readD ops lat chk f).Keeps := by
  grind [viewWord, vectorOperands_keeps, keeps_demand, fixedResult_keeps, keeps_bind]

theorem viewUnary_keeps (o : Origin) (d a : Name) (tea : Bool) (lat : Nat) (chk : Byte → Byte → Bool)
    (f : Byte → Byte → List Nat → List Nat × BitVec 7) : (viewUnary o d a tea lat chk f).Keeps := by
  grind [viewUnary, viewWord_keeps]

theorem viewBinary_keeps (o : Origin) (d a b : Name) (te : Te) (bx readD : Bool) (lat : Nat)
    (chk : Byte → Byte → Byte → Bool) (f : Byte → Byte → Byte → List Nat → List Nat → List Nat → List Nat × BitVec 7) :
    (viewBinary o d a b te bx readD lat chk f).Keeps := by
  grind [viewBinary, src_keeps, viewWord_keeps, keeps_bind]

/-! ### Special functions (R178) -/

theorem specialWord_canonical (fn : Nat) (h : Hdr) (tea sat : Bool) (rnd : Rnd) (d a : Name) (s : State) (hs : s.Canonical) :
    nextCanonical (specialWord fn h tea sat rnd d a s) := by
  grind [specialWord, issue_canonical, viewUnary_keeps]

/-! ### Moves, fills and scalars -/

theorem execVsplat_canonical (h : Hdr) (d a : Name) (s : State) (hs : s.Canonical) : nextCanonical (execVsplat h d a s) := by
  grind [execVsplat, issue_canonical, src_keeps, viewWord_keeps, keeps_bind]

theorem execViota_canonical (h : Hdr) (flat : Bool) (d a : Name) (s : State) (hs : s.Canonical) :
    nextCanonical (execViota h flat d a s) := by
  grind [execViota, issue_canonical, src_keeps, viewWord_keeps, keeps_bind]

theorem execVgets_canonical (h : Hdr) (tea : Bool) (d a b : Name) (s : State) (hs : s.Canonical) :
    nextCanonical (execVgets h tea d a b s) := by
  unfold execVgets
  grind [issue_canonical, src_keeps, destReady_keeps, takeOperand_keeps, claimBanks_keeps, resultLater_keeps, keeps_bind,
    keeps_get_bind, keeps_liftM]

theorem execVgetsSt_canonical (h : Hdr) (clr : Bool) (d : Name) (s : State) (hs : s.Canonical) :
    nextCanonical (execVgetsSt h clr d s) := by
  grind [execVgetsSt, issue_canonical, keeps_getCore, keeps_need, resultLater_keeps, keeps_modifyCore, keeps_bind]

/-! ### Rotations, broadcasts, reductions, scans, compress (R183 to R186) -/

theorem amount_keeps (o : Origin) (limit : Nat) (a : Amount) : (amount o limit a).Keeps := by
  cases a with
  | val n => exact keeps_pure _
  | reg r => exact keeps_bind (src_keeps o r) fun _ => keeps_pure _

theorem moveWord_keeps (o : Origin) (d a : Name) (tea : Bool) (lat : Nat) (place : Nat → Nat → Nat × Nat) :
    (moveWord o d a tea lat place).Keeps := by
  grind [moveWord, viewUnary_keeps]

theorem execVrotr_canonical (h : Hdr) (tea : Bool) (d a : Name) (n : Amount) (s : State) (hs : s.Canonical) :
    nextCanonical (execVrotr h tea d a n s) := by
  grind [execVrotr, issue_canonical, amount_keeps, moveWord_keeps, keeps_bind]

theorem execVrotc_canonical (h : Hdr) (tea : Bool) (d a : Name) (n : Amount) (s : State) (hs : s.Canonical) :
    nextCanonical (execVrotc h tea d a n s) := by
  grind [execVrotc, issue_canonical, amount_keeps, moveWord_keeps, keeps_bind]

theorem execVbcr_canonical (h : Hdr) (tea : Bool) (d a : Name) (n : Amount) (s : State) (hs : s.Canonical) :
    nextCanonical (execVbcr h tea d a n s) := by
  grind [execVbcr, issue_canonical, amount_keeps, moveWord_keeps, keeps_bind]

theorem execVbcc_canonical (h : Hdr) (tea : Bool) (d a : Name) (n : Amount) (s : State) (hs : s.Canonical) :
    nextCanonical (execVbcc h tea d a n s) := by
  grind [execVbcc, issue_canonical, amount_keeps, moveWord_keeps, keeps_bind]

/-! ### Codebook lookup, exact accumulation, spatial keys -/

theorem execVlut_canonical (h : Hdr) (tea sat hi : Bool) (d a k : Name) (s : State) (hs : s.Canonical) :
    nextCanonical (execVlut h tea sat hi d a k s) := by
  unfold execVlut
  grind [issue_canonical, viewUnary_keeps, keeps_get_bind]

theorem execVacc_canonical (h : Hdr) (tea : Bool) (d a : Name) (s : State) (hs : s.Canonical) :
    nextCanonical (execVacc h tea d a s) := by
  refine issue_canonical (fun o => keeps_get_bind fun s _ => keeps_bind (keeps_getCore o) fun k => keeps_bind ?_ fun _ =>
    keeps_bind (keeps_liftM _) fun _ => ?_) .V h 4 s hs
  · split
    · exact keeps_need _
    · exact keeps_pure _
  · split
    · exact keeps_trapNow ..
    · exact keeps_bind (takeOperand_keeps ..) fun v => keeps_bind (keeps_demand ..) fun _ => keeps_bind (claimBanks_keeps ..) fun _ =>
        keeps_get_bind fun t _ => keeps_bind (keeps_modifyCore ..) fun _ => fixedResult_keeps ..

/-! ### View loads and stores (R191 to R193) -/

theorem afterAccess_keeps (o : Origin) (last : Bool) (cost : Nat) (f : WalkerSt → WalkerSt) :
    (afterAccess o last cost f).Keeps := by
  grind [afterAccess, keeps_getCore, modW_mem, keeps_pure, keeps_bind, keeps_modify, State.Canonical]

theorem viewAccess_keeps (o0 : Origin) (load : Bool) (d base : Name) (step : BitVec 8) (count : BitVec 7) :
    (viewAccess o0 load d base step count).Keeps := by
  unfold viewAccess
  refine keeps_get_bind fun s _ => keeps_bind (keeps_getCore o0) fun k =>
    keeps_ite_bind (srcX_keeps ..) (keeps_pure _) fun b =>
    keeps_bind (keeps_modify fun _ h => h) fun _ => ?_
  extract_lets last o
  split
  · exact keeps_trapNow ..
  · next r acc _ =>
    refine keeps_bind (keeps_need _) fun _ => ?_
    extract_lets addr
    split
    · exact keeps_trapNow ..
    · next off _ =>
      refine keeps_ite ?_ ?_
      · exact keeps_bind (keeps_need _) fun _ => keeps_bind (keeps_demand ..) fun _ => keeps_bind (claimBanks_keeps ..) fun _ =>
          keeps_bind (fixedResult_keeps ..) fun _ => keeps_bind (keeps_modifyCore ..) fun _ => afterAccess_keeps ..
      · exact keeps_bind (keeps_need _) fun _ => keeps_bind (keeps_demand ..) fun _ => keeps_bind (claimBanks_keeps ..) fun _ =>
          keeps_bind (fixedResult_keeps ..) fun _ => keeps_bind (keeps_modifyCore ..) fun _ => afterAccess_keeps ..
    · next key _ =>
      refine keeps_bind (keeps_need _) fun _ => keeps_ite ?_ ?_
      · refine keeps_bind (keeps_demand ..) fun _ => keeps_when_bind (keeps_modifyCore ..) fun _ =>
          keeps_bind (keeps_modify fun t ht => ?_) fun _ => keeps_bind (keeps_modifyCore ..) fun _ =>
          keeps_bind (doneLater_keeps ..) fun _ => afterAccess_keeps ..
        exact markEmpty_canonical _ _ _ _ _ (canonical_of_mem (noteBad_mem ..) ht)
      · refine keeps_bind (claimBanks_keeps ..) fun _ => keeps_bind (keeps_modifyCore ..) fun _ =>
          keeps_bind (doneLater_keeps ..) fun _ => keeps_ite (afterAccess_keeps ..) ?_
        exact keeps_bind (keeps_modifyCore ..) fun _ => afterAccess_keeps ..

theorem execVld_canonical (h : Hdr) (d base : Name) (step : BitVec 8) (count : BitVec 7) (s : State) (hs : s.Canonical) :
    nextCanonical (execVld h d base step count s) := by
  grind [execVld, issueAt_canonical, viewAccess_keeps, nextCanonical_next]

theorem execVst_canonical (h : Hdr) (d base : Name) (step : BitVec 8) (count : BitVec 7) (s : State) (hs : s.Canonical) :
    nextCanonical (execVst h d base step count s) := by
  grind [execVst, issueAt_canonical, viewAccess_keeps, nextCanonical_next]

/-! ### Results landing -/

theorem entryWritten_mem (s : State) (key : Nat) : (s.entryWritten key).mem = s.mem := by
  grind [State.entryWritten]

theorem landAt_canonical (s : State) (o : Origin) (key : Nat) (bytes : List Byte) (hs : s.Canonical) :
    (s.landAt o key bytes).Canonical := by
  grind [State.landAt, modCore_mem, entryWritten_mem, writeFixed_canonical, State.Canonical]

theorem execVectorResultLands_canonical (o : Origin) (off : Nat) (bytes : List Byte) (flags : BitVec 7) (s : State)
    (hs : s.Canonical) : nextCanonical (execVectorResultLands o off bytes flags s) := by
  grind [execVectorResultLands, gibbsLands_canonical, finish_canonical, modCore_mem, landAt_canonical, nextCanonical_next,
    State.Canonical]

theorem execLongLatencyWriteComplete_canonical (o : Origin) (off : Nat) (bytes : List Byte) (s : State) (hs : s.Canonical) :
    nextCanonical (execLongLatencyWriteComplete o off bytes s) := by
  grind [execLongLatencyWriteComplete, grant_mem, write_canonical, modCore_mem, later_mem, nextCanonical_next, State.Canonical]

/-! ### The nest configuration (R131 to R135) -/

theorem setShadow_keeps (o : Origin) (f : NestCfg → NestCfg) : (setShadow o f).Keeps := by
  grind [setShadow, keeps_modifyCore, doneNext_keeps, keeps_bind]

theorem execMnest_canonical (h : Hdr) (level : BitVec 8) (a b : Name) (s : State) (hs : s.Canonical) :
    nextCanonical (execMnest h level a b s) := by
  grind [execMnest, issue_canonical, srcX_keeps, keeps_demand, setShadow_keeps, keeps_bind]

theorem execMopd_canonical (h : Hdr) (card : Name) (isB : Bool) (src : MSrc) (s : State) (hs : s.Canonical) :
    nextCanonical (execMopd h card isB src s) := by
  grind [execMopd, issue_canonical, srcX_keeps, setShadow_keeps, keeps_bind]

theorem execMfmt_canonical (h : Hdr) (afmt bfmt : BitVec 8) (zp : Bool) (cb : BitVec 3) (cbsel : Bool) (s : State)
    (hs : s.Canonical) : nextCanonical (execMfmt h afmt bfmt zp cb cbsel s) := by
  grind [execMfmt, issue_canonical, keeps_demand, setShadow_keeps, keeps_bind, keeps_get_bind]

theorem execMdst_canonical (h : Hdr) (d : Name) (s : State) (hs : s.Canonical) : nextCanonical (execMdst h d s) := by
  grind [execMdst, issue_canonical, setShadow_keeps]

/-! ### MGO (R136) -/

theorem execMgo_canonical (h : Hdr) (acc : Bool) (s : State) (hs : s.Canonical) : nextCanonical (execMgo h acc s) := by
  refine issue_canonical (fun o => keeps_get_bind fun s _ => keeps_bind (keeps_getCore o) fun k =>
    keeps_bind (keeps_need _) fun _ => keeps_bind (keeps_need _) fun _ => ?_) .M h 1 s hs
  split
  · exact keeps_trapNow ..
  · exact keeps_bind (claimBanks_keeps ..) fun _ => keeps_bind (keeps_modifyCore ..) fun _ => doneLater_keeps ..

/-! ### The operand cache (R142) -/

theorem fillLine_mem (s : State) (c : Nat) (key : LineKey) (e : Ent) : (s.fillLine c key e).mem = s.mem := by
  grind [State.fillLine, noteBad_mem, modCore_mem, foldl_mem]

theorem execOperandCacheFill_canonical (core : Nat) (key : LineKey) (s : State) (hs : s.Canonical) :
    nextCanonical (execOperandCacheFill core key s) := by
  grind [execOperandCacheFill, fillLine_mem, nextCanonical_next, State.Canonical]

/-! ### One step (R137) -/

theorem putTile_canonical (s : State) (c off : Nat) (t : List WRow) (hs : s.Canonical) : (s.putTile c off t).Canonical := by
  grind [State.putTile, write_canonical]

theorem putTileBut_canonical (s : State) (c off : Nat) (keep : Nat → Bool) (t : List WRow) (hs : s.Canonical) :
    (s.putTileBut c off keep t).Canonical := by
  grind [State.putTileBut, write_canonical]

theorem mendTile_canonical (s : State) (c : Nat) (t : Nat × Nat) (hs : s.Canonical) : (s.mendTile c t).Canonical := by
  grind [State.mendTile, modCore_mem, putTileBut_canonical, State.Canonical]

theorem nestBegin_canonical (s : State) (c : Nat) (n : NestRun) (hs : s.Canonical) : (s.nestBegin c n).1.Canonical := by
  grind [State.nestBegin, mendTile_canonical, putTile_canonical, modCore_mem, foldl_canonical, State.Canonical]

theorem nestAdd_canonical (s : State) (c : Nat) (n : NestRun) (as bs : List (List ((Int × Int) × Elem)))
    (hs : s.Canonical) : (s.nestAdd c n as bs).Canonical := by
  unfold State.nestAdd
  dsimp only
  split <;> exact putTileBut_canonical _ _ _ _ _ hs

/-- The memory of the state that a port block's answer carries is as before. -/
def Block.memIs (m : Memory) : Block → Prop
  | .wait t => t.mem = m
  | .trap _ => True
  | .ready t _ => t.mem = m

theorem nestBlock_memIs (s : State) (c : Nat) (n : NestRun) : Block.memIs s.mem (s.nestBlock c n) := by
  unfold State.nestBlock
  grind [Block.memIs, grantDesc_mem, startPrefetch_mem, grant_mem, setPort_mem]

theorem nestGo_canonical (s : State) (c : Nat) (n : NestRun) (hs : s.Canonical) : (s.nestGo c n).Canonical := by
  have hb := nestBlock_memIs s c n
  unfold State.nestGo
  extract_lets bs as0 keys
  split
  · exact canonical_of_mem (foldl_mem (fun _ _ => later_mem ..) _ _) hs
  · split
    case h_1 e => rw [e] at hb; exact canonical_of_mem hb hs
    case h_2 e => exact takeTrap_canonical _ _ _ _ _ hs
    case h_3 e => rw [e] at hb; exact nestAdd_canonical _ _ _ _ _ (canonical_of_mem hb hs)

theorem execNestStep_canonical (core : Nat) (s : State) (hs : s.Canonical) : nextCanonical (execNestStep core s) := by
  grind [execNestStep, nestGo_canonical, grant_mem, nestBegin_canonical, later_mem, nextCanonical_next, State.Canonical]

/-! ### Words on tiles (R140, R148 to R155) -/

theorem matLand_canonical (s : State) (o : Origin) (off : Nat) (op : MatOp) (hs : s.Canonical) :
    (s.matLand o off op).Canonical := by
  unfold State.matLand
  grind [writeFixed_canonical]

theorem dropWait_mem (s : State) (c : Nat) (e : MatWait) : (s.dropWait c e).mem = s.mem := rfl

theorem matStart_mem (s : State) (c : Nat) (e : MatWait) : (s.matStart c e).mem = s.mem := by
  grind [State.matStart, later_mem, dropWait_mem, modCore_mem]

theorem matTry_canonical (s : State) (c : Nat) (e : MatWait) (hs : s.Canonical) : (s.matTry c e).Canonical := by
  grind [State.matTry, finish_canonical, matLand_canonical, dropWait_mem, grant_mem, matStart_mem, State.Canonical]

theorem tileWait_keeps (o : Origin) (tile : Nat) (op : MatOp) : (tileWait o tile op).Keeps := by
  grind [tileWait, keeps_modifyCore, later_mem, matTry_canonical, begin_mem, keeps_pure, keeps_bind, keeps_modify,
    State.Canonical]

theorem tileWord_canonical (h : Hdr) (d : Name) (op : MatOp) (s : State) (hs : s.Canonical) :
    nextCanonical (tileWord h d op s) := by
  unfold tileWord
  grind [issue_canonical, keeps_getCore, keeps_trapNow, keeps_need, keeps_demand, tileWait_keeps, keeps_bind, keeps_get_bind]

theorem execMstat_canonical (h : Hdr) (d a : Name) (row : BitVec 5) (s : State) (hs : s.Canonical) :
    nextCanonical (execMstat h d a row s) := by
  unfold execMstat
  grind [issue_canonical, keeps_getCore, reserve_keeps, keeps_trapNow, keeps_need, tileWait_keeps, keeps_bind, keeps_get_bind]

theorem execMrsum_canonical (h : Hdr) (sat : Bool) (rnd : Rnd) (d a : Name) (s : State) (hs : s.Canonical) :
    nextCanonical (execMrsum h sat rnd d a s) := by
  refine issue_canonical (fun o => keeps_get_bind fun s _ => keeps_bind (keeps_getCore o) fun k =>
    keeps_bind (keeps_need _) fun _ => keeps_bind (keeps_need _) fun _ => ?_) .M h 1 s hs
  split
  · exact keeps_bind (keeps_demand ..) fun _ => keeps_bind (keeps_demand ..) fun _ => tileWait_keeps ..
  · exact keeps_trapNow ..

theorem execMdrain_canonical (h : Hdr) (te : Te) (fmt : BitVec 3) (zp sat : Bool) (d a : Name) (vs : Option (BitVec 6))
    (s : State) (hs : s.Canonical) : nextCanonical (execMdrain h te fmt zp sat d a vs s) := by
  refine issue_canonical (fun o => keeps_get_bind fun s _ => keeps_bind (keeps_getCore o) fun k =>
    keeps_bind (keeps_need _) fun _ => keeps_bind (keeps_need _) fun _ => ?_) .M h 1 s hs
  split
  · exact keeps_bind (keeps_demand ..) fun _ => keeps_bind (keeps_demand ..) fun _ => keeps_bind (keeps_demand ..) fun _ =>
      keeps_when_bind (keeps_trapNow ..) fun _ => keeps_when_bind (keeps_trapNow ..) fun _ => keeps_bind (keeps_demand ..) fun _ =>
      keeps_bind (keeps_modify fun t ht => markEmpty_canonical _ _ _ _ _ ht) fun _ => tileWait_keeps ..
  · exact keeps_trapNow ..

theorem execMerrq_canonical (h : Hdr) (clr : Bool) (d : Name) (s : State) (hs : s.Canonical) :
    nextCanonical (execMerrq h clr d s) := by
  grind [execMerrq, issue_canonical, keeps_getCore, resultLater_keeps, keeps_modifyCore, keeps_bind]

theorem execMcbld_canonical (h : Hdr) (d a : Name) (s : State) (hs : s.Canonical) : nextCanonical (execMcbld h d a s) := by
  unfold execMcbld
  grind [issue_canonical, srcX_keeps, keeps_need, keeps_demand, claimBanks_keeps, doneLater_keeps, keeps_bind, keeps_get_bind]

theorem execMocinv_canonical (h : Hdr) (s : State) (hs : s.Canonical) : nextCanonical (execMocinv h s) := by
  grind [execMocinv, issue_canonical, doneLater_keeps]

theorem execNestEnd_canonical (core : Nat) (s : State) (hs : s.Canonical) : nextCanonical (execNestEnd core s) := by
  grind [execNestEnd, modCore_mem, finish_canonical, nextCanonical_next, State.Canonical]

/-! ### The card (R201 to R203) -/

theorem cardRecord_keeps (o : Origin) (card : Name) : (cardRecord o card).Keeps := by
  grind [cardRecord, steppedRecord_keeps]

theorem declare_keeps (o : Origin) (l : List (Option Nat × (Nat × Nat))) : (declare o l).Keeps := by
  unfold declare
  refine keeps_get_bind fun s _ => ?_
  split
  · exact keeps_pure _
  · exact keeps_trapNow ..

/-! ### Translation (R207 to R209) -/

theorem translate_keeps (o : Origin) (pages : List (Nat × Nat × Bool)) : (translate o pages).Keeps := by
  grind [translate, keeps_getCore, keeps_trapNow, keeps_stall, keeps_pure, keeps_bind, keeps_get_bind, keeps_throw]

theorem execPageWalkComplete_canonical (core : Nat) (vf : BitVec 6) (space : BitVec 2) (write : Bool) (addr : Nat)
    (s : State) (hs : s.Canonical) : nextCanonical (execPageWalkComplete core vf space write addr s) := by
  grind [execPageWalkComplete, modCore_mem, nextCanonical_next, State.Canonical]

theorem execTranslationRemoval_canonical (vf : BitVec 6) (page : Nat) (s : State) (hs : s.Canonical) :
    nextCanonical (execTranslationRemoval vf page s) := by
  grind [execTranslationRemoval, nextCanonical_next, State.Canonical]

/-! ### The enqueue (R206) -/

theorem registerGalley_keeps (o : Origin) (rel : Option Scope) (card : List Byte) (ord : Order) (pages : List Nat) :
    (registerGalley o rel card ord pages).Keeps := by
  unfold registerGalley
  refine keeps_get_bind fun s _ => keeps_bind (keeps_getCore o) fun k => keeps_bind (keeps_modify fun _ h => h) fun _ =>
    keeps_bind (keeps_modifyCore ..) fun _ => keeps_bind (keeps_modify fun t ht => ?_) fun _ => ?_
  · exact foldl_canonical (fun u r hu => markEmpty_canonical _ _ _ _ _ hu) _ ht
  dsimp only
  refine keeps_bind ?_ fun _ => keeps_bind ?_ fun _ => keeps_bind ?_ fun _ => keeps_bind (keeps_modify fun _ h => h) fun _ => keeps_pure _
  · split
    · exact keeps_modify fun t ht => wf_memWrite _ _ ht
    · exact keeps_pure _
  · split
    · exact keeps_bind (keeps_modify fun _ h => h) fun _ => keeps_modifyCore ..
    · exact keeps_pure _
  · split
    · exact keeps_modify fun _ h => h
    · exact keeps_pure _

theorem enqueue_keeps {mk : List Byte → Op Order} (hm : ∀ b, (mk b).Keeps) (o : Origin) (rel : Option Scope) (card : Name)
    (kind : Nat) (exch : Bool) : (enqueue o rel card kind exch mk).Keeps := by
  unfold enqueue
  dsimp only
  refine keeps_bind (cardRecord_keeps ..) fun b => keeps_bind (keeps_getCore o) fun k => keeps_bind (keeps_demand ..) fun _ =>
    keeps_bind (keeps_demand ..) fun _ => keeps_bind ?_ fun _ => keeps_bind ?_ fun _ => keeps_bind (hm b) fun ord =>
    keeps_get_bind fun s _ => keeps_bind (keeps_demand ..) fun _ => keeps_bind (keeps_demand ..) fun _ =>
    keeps_bind (keeps_demand ..) fun _ => keeps_bind (translate_keeps ..) fun _ => keeps_bind (keeps_need _) fun _ =>
    keeps_bind (keeps_need _) fun _ => registerGalley_keeps ..
  all_goals
    split
    · exact demandScope_keeps ..
    · exact keeps_pure _

/-! ### Where a galley's core stands -/

theorem modHome_mem (s : State) (gang c : Nat) (f : Core → Core) : (s.modHome gang c f).mem = s.mem := by
  grind [State.modHome, modCore_mem]

theorem finishHome_canonical (s : State) (gang : Nat) (o : Origin) (hs : s.Canonical) : (s.finishHome gang o).Canonical := by
  grind [State.finishHome, finish_canonical, modHome_mem, State.Canonical]

/-! ### Landing a line -/

theorem modGalley_mem (s : State) (id : Nat) (f : Galley → Galley) : (s.modGalley id f).mem = s.mem := by
  grind [State.modGalley]

theorem toDevice_mem (s : State) (id : Nat) (g : Galley) (key va : Nat) (bytes : List (Option Byte)) (poison : Bool) :
    (s.toDevice id g key va bytes poison).mem = s.mem := by
  grind [State.toDevice, modGalley_mem, after_mem]

theorem mark_mem (s : State) (key n : Nat) (poison : Bool) : (s.mark key n poison).mem = s.mem := by
  grind [State.mark]

theorem putLine_canonical {filled : State → State} (hf : ∀ t : State, t.Canonical → (filled t).Canonical) (s : State) (key : Nat)
    (bytes : List Byte) (vf : BitVec 6) (gen : BitVec 8) (poison : Bool) (hs : s.Canonical) :
    (s.putLine key bytes vf gen poison filled).Canonical := by
  unfold State.putLine
  split
  · exact hf _ (canonical_of_mem (mark_mem ..) (write_canonical _ _ _ hs))
  · split
    · exact hs
    · exact hs

theorem writeLine_canonical (s : State) (key : Nat) (bytes : List Byte) (vf : BitVec 6) (gen : BitVec 8) (poison : Bool)
    (hs : s.Canonical) : (s.writeLine key bytes vf gen poison).Canonical := by
  grind [State.writeLine, putLine_canonical, modCore_mem, State.Canonical]

theorem heldAt_mem (s : State) (gang c : Nat) (l : List HeldLine) (t : State) (e : s.heldAt gang c l = some t) :
    t.mem = s.mem := by
  grind [State.heldAt, modHome_mem, modCore_mem]

theorem notePoison_mem (s : State) (g : Galley) (poison : Bool) : (s.notePoison g poison).mem = s.mem := by
  grind [State.notePoison, modHome_mem]

theorem landLine_canonical (s : State) (id : Nat) (g : Galley) (p : Piece) (bytes : List Byte) (poison : Bool)
    (hs : s.Canonical) : (∀ t, s.landLine id g p bytes poison = .ok t → t.Canonical) ∧
      ∀ t, s.landLine id g p bytes poison = .error t → t.Canonical := by
  unfold State.landLine
  dsimp only
  grind [grant_mem, toDevice_mem, notePoison_mem, voidDrop_mem, staleDrop_mem, modGalley_mem, heldAt_mem, writeLine_canonical,
    writeUser_canonical, mark_mem, foldl_canonical, State.Canonical]

/-! ### Moving lines (R236) -/

theorem galleyGo_mem (s : State) (id : Nat) : (s.galleyGo id).mem = s.mem := by
  grind [State.galleyGo, after_mem, modGalley_mem]

theorem sendLine_mem (s : State) (id : Nat) (g : Galley) (p : Piece) (ps : List Piece) :
    (s.sendLine id g p ps).mem = s.mem := by
  unfold State.sendLine
  grind [noteBad_mem, modGalley_mem, foldl_mem]

theorem moveLine_sendNext_canonical (id : Nat) (s : State) (g : Galley) {again : State → Host.Outcome State Fault Refusal}
    (ha : ∀ t : State, t.Canonical → nextCanonical (again t)) (hs : s.Canonical) : nextCanonical (moveLine.sendNext id s g again) := by
  unfold moveLine.sendNext
  grind [galleyGo_mem, sendLine_mem, grant_mem, nextCanonical_next, State.Canonical]

theorem moveLine_canonical (id : Nat) (s : State) (hs : s.Canonical) : nextCanonical (moveLine id s) := by
  have ha : ∀ t : State, t.Canonical → nextCanonical (.next (t.after 1 (.galleyLineWrite id))) :=
    fun t ht => nextCanonical_next.2 ht
  unfold moveLine
  split
  · exact nextCanonical_next.2 hs
  · next g _ =>
    dsimp only
    split
    · next p fs _ =>
      split
      · split
        · next bs poison _ =>
          have hl := landLine_canonical s id g p bs poison hs
          split
          · next e => exact ha _ (hl.2 _ e)
          · next e => exact nextCanonical_next.2 (canonical_of_mem ((galleyGo_mem ..).trans (modGalley_mem ..)) (hl.1 _ e))
        · exact ha s hs
      · exact moveLine_sendNext_canonical id s g ha hs
    · exact moveLine_sendNext_canonical id s g ha hs

theorem accept_canonical (s : State) (id : Nat) (g : Galley) (hs : s.Canonical) : (s.accept id g).Canonical := by
  grind [State.accept, modGalley_mem, markEmpty_canonical, foldl_canonical, State.Canonical]

theorem execGalleyAccept_canonical (id : Nat) (s : State) (hs : s.Canonical) : nextCanonical (execGalleyAccept id s) := by
  grind [execGalleyAccept, modGalley_mem, accept_canonical, after_mem, nextCanonical_next, State.Canonical]

/-! ### The pool write coalescer (R233) and device lines -/

theorem loseLine_mem (s : State) (line : Nat) (l : CoalLine) : (s.loseLine line l).mem = s.mem := by
  grind [State.loseLine, modHome_mem, after_mem, modGalley_mem, foldl_mem]

theorem execCoalescerSend_canonical (line : Nat) (s : State) (hs : s.Canonical) : nextCanonical (execCoalescerSend line s) := by
  grind [execCoalescerSend, after_mem, send_mem, nextCanonical_next, State.Canonical]

theorem execPoolAck_canonical (line : Nat) (s : State) (hs : s.Canonical) : nextCanonical (execPoolAck line s) := by
  unfold execPoolAck
  split
  · exact nextCanonical_next.2 hs
  · next l _ =>
    have hw := wf_memWrite l.key (List.zipWith (fun (a : Byte) (b : Option Byte) => b.getD a) (memRead s.mem l.key 64) l.bytes) hs
    refine nextCanonical_next.2 ?_
    grind [mark_mem, modVf_mem, modGalley_mem, after_mem, State.Canonical]

/-! ### Retirement (R211, R223, R243) -/

theorem countHome_mem (s : State) (gang c : Nat) (n : BitVec 4) (code : Byte) : (s.countHome gang c n code).mem = s.mem := by
  grind [State.countHome, modHome_mem]

theorem fenceDone_canonical (s : State) (gang c : Nat) (hs : s.Canonical) : (s.fenceDone gang c).Canonical := by
  grind [State.fenceDone, finishHome_canonical, modHome_mem, State.Canonical]

theorem execGalleyRetire_canonical (id : Nat) (s : State) (hs : s.Canonical) : nextCanonical (execGalleyRetire id s) := by
  grind [execGalleyRetire, after_mem, modHome_mem, modCore_mem, countHome_mem, fenceDone_canonical, finishHome_canonical,
    nextCanonical_next, State.Canonical]

theorem lineDone_mem (s : State) (l : HeldLine) : (s.lineDone l).mem = s.mem := by
  grind [State.lineDone, after_mem, modGalley_mem]

theorem returnLine_mem (s : State) (id : Nat) (l : HeldLine) : (s.returnLine id l).mem = s.mem := by
  grind [State.returnLine, modGalley_mem, after_mem]

theorem releaseHeld_canonical (s : State) (c : Nat) (hs : s.Canonical) : (s.releaseHeld c).Canonical := by
  grind [State.releaseHeld, lineDone_mem, putLine_canonical, markFull_mem, notePoison_mem, accept_canonical, returnLine_mem,
    modCore_mem, foldl_canonical, State.Canonical]

/-! ### XCOPY (R237, R336) -/

theorem copyOrder_keeps (o : Origin) (t : BitVec 12) (c : List Byte) : (copyOrder o t c).Keeps := by
  unfold copyOrder
  dsimp only
  refine keeps_get_bind fun s _ => ?_
  repeat refine keeps_bind (keeps_demand ..) fun _ => ?_
  exact keeps_bind (declare_keeps ..) fun _ => keeps_bind (declare_keeps ..) fun _ => keeps_pure _

theorem execXcopy_canonical (h : Hdr) (rel : Option Scope) (card : Name) (t : BitVec 12) (s : State) (hs : s.Canonical) :
    nextCanonical (execXcopy h rel card t s) := by
  grind [execXcopy, issue_canonical, enqueue_keeps, copyOrder_keeps]

/-! ### XCOPYV (R238) -/

theorem copyvOrder_keeps (o : Origin) (t : BitVec 12) (c : List Byte) : (copyvOrder o t c).Keeps := by
  unfold copyvOrder
  dsimp only
  exact keeps_get_bind fun s _ => keeps_bind (keeps_demand ..) fun _ => keeps_bind (keeps_demand ..) fun _ =>
    keeps_bind (declare_keeps ..) fun _ => keeps_bind (declare_keeps ..) fun _ => keeps_pure _

theorem execXcopyv_canonical (h : Hdr) (rel : Option Scope) (card : Name) (t : BitVec 12) (s : State) (hs : s.Canonical) :
    nextCanonical (execXcopyv h rel card t s) := by
  grind [execXcopyv, issue_canonical, enqueue_keeps, copyvOrder_keeps]

/-! ### XGATH and XSCAT (R239) -/

theorem itemOrder_keeps (o : Origin) (scatter : Bool) (t : BitVec 12) (c : List Byte) : (itemOrder o scatter t c).Keeps := by
  unfold itemOrder
  dsimp only
  refine keeps_get_bind fun s _ => ?_
  repeat refine keeps_bind (keeps_demand ..) fun _ => ?_
  exact keeps_bind (declare_keeps ..) fun _ => keeps_bind (declare_keeps ..) fun _ => keeps_pure _

theorem execXgath_canonical (h : Hdr) (rel : Option Scope) (card : Name) (t : BitVec 12) (s : State) (hs : s.Canonical) :
    nextCanonical (execXgath h rel card t s) := by
  grind [execXgath, issue_canonical, enqueue_keeps, itemOrder_keeps]

theorem execXscat_canonical (h : Hdr) (rel : Option Scope) (card : Name) (t : BitVec 12) (s : State) (hs : s.Canonical) :
    nextCanonical (execXscat h rel card t s) := by
  grind [execXscat, issue_canonical, enqueue_keeps, itemOrder_keeps]

/-! ### XFILL (R240) -/

theorem fillOrder_keeps (o : Origin) (t : BitVec 12) (c : List Byte) : (fillOrder o t c).Keeps := by
  unfold fillOrder
  dsimp only
  exact keeps_bind (keeps_demand ..) fun _ => keeps_bind (declare_keeps ..) fun _ => keeps_pure _

theorem execXfill_canonical (h : Hdr) (rel : Option Scope) (card : Name) (t : BitVec 12) (s : State) (hs : s.Canonical) :
    nextCanonical (execXfill h rel card t s) := by
  grind [execXfill, issue_canonical, enqueue_keeps, fillOrder_keeps]

/-! ### XPREF (R241) -/

theorem prefOrder_keeps (o : Origin) (t : BitVec 12) (c : List Byte) : (prefOrder o t c).Keeps := by
  unfold prefOrder
  dsimp only
  exact keeps_get_bind fun s _ => keeps_bind (keeps_demand ..) fun _ => keeps_bind (keeps_demand ..) fun _ =>
    keeps_bind (declare_keeps ..) fun _ => keeps_bind (declare_keeps ..) fun _ => keeps_pure _

theorem execXpref_canonical (h : Hdr) (card : Name) (t : BitVec 12) (s : State) (hs : s.Canonical) :
    nextCanonical (execXpref h card t s) := by
  grind [execXpref, issue_canonical, enqueue_keeps, prefOrder_keeps]

/-! ### XFENCE and XSTAT (R243, R244) -/

theorem execXfence_canonical (h : Hdr) (s : State) (hs : s.Canonical) : nextCanonical (execXfence h s) := by
  grind [execXfence, issue_canonical, modCore_mem, begin_mem, doneLater_keeps, keeps_pure, keeps_bind, keeps_get_bind,
    keeps_modify, State.Canonical]

theorem execXstat_canonical (h : Hdr) (clr : Bool) (d : Name) (s : State) (hs : s.Canonical) :
    nextCanonical (execXstat h clr d s) := by
  grind [execXstat, issue_canonical, keeps_getCore, resultLater_keeps, keeps_modifyCore, keeps_bind, keeps_get_bind]

/-! ### The start of a copy galley -/

theorem readList_mem (s : State) (id : Nat) (g : Galley) (r : Rng) : (s.readList id g r).2.mem = s.mem := by
  unfold State.readList
  grind [grant_mem, modGalley_mem]

theorem startCopy_mem (s : State) (id : Nat) (g : Galley) (plan : List Piece) (oor : Nat) :
    (s.startCopy id g plan oor).mem = s.mem := by
  grind [State.startCopy, modCore_mem, modGang_mem, modGalley_mem, after_mem, later_mem, galleyGo_mem, foldl_mem]

theorem tryCopy_mem (s : State) (id : Nat) (g : Galley) : (s.tryCopy id g).mem = s.mem := by
  have h := fun r => readList_mem s id g r
  unfold State.tryCopy
  split
  · exact startCopy_mem ..
  · next r _ =>
    split
    case h_1 e => rw [← h r, e]; rfl
    case h_2 e => rw [← h r, e]; exact startCopy_mem ..

/-! ### Sweeps (R263, R266) -/

theorem healthFail_canonical (s : State) (o : Origin) (hs : s.Canonical) : (s.healthFail o).Canonical := by
  grind [State.healthFail, setCtl_mem, putRecord_canonical, send_mem, State.Canonical]

theorem beginPhase_canonical (s : State) (w : Sweep) (hs : s.Canonical) : (s.beginPhase w).Canonical := by
  grind [State.beginPhase, healthFail_canonical, later_mem, modGibbs_mem, State.Canonical]

theorem draw_mem (s : State) (c i : Nat) : (s.draw c i).2.mem = s.mem := by
  grind [State.draw]

theorem updateGate_mem (s : State) (c : Nat) (w : Sweep) : (s.updateGate c w).mem = s.mem := by
  grind [State.updateGate, draw_mem, setS_mem, foldl_mem]

theorem execColourPhase_canonical (core : Nat) (s : State) (hs : s.Canonical) : nextCanonical (execColourPhase core s) := by
  grind [execColourPhase, updateGate_mem, beginPhase_canonical, countSweeps_mem, finish_canonical, modGibbs_mem,
    nextCanonical_next, State.Canonical]

/-! ### Issue (R271) -/

theorem gibbsTurn_keeps (o : Origin) : (gibbsTurn o).Keeps := by
  grind [gibbsTurn, keeps_need, keeps_get_bind]

theorem gibbsLater_keeps (o : Origin) (lat : Nat) (op : GibbsOp) : (gibbsLater o lat op).Keeps := by
  grind [gibbsLater, modGibbs_mem, doneLater_keeps, keeps_bind, keeps_modify, State.Canonical]

theorem firstCell_keeps (o : Origin) (n : Name) : (firstCell o n).Keeps := by
  grind [firstCell, srcX_keeps, keeps_pure, keeps_bind]

theorem gibbsViews_keeps (o : Origin) (fmt : Byte) (ops : List (Name × Bool)) : (gibbsViews o fmt ops).Keeps := by
  grind [gibbsViews, keeps_need, keeps_demand, keeps_trapNow, claimBanks_keeps, keeps_pure, keeps_bind, keeps_get_bind,
    keeps_mapM]

/-! ### The words -/

theorem execGmode_canonical (h : Hdr) (replay bip : Bool) (n : BitVec 15) (s : State) (hs : s.Canonical) :
    nextCanonical (execGmode h replay bip n s) := by
  grind [execGmode, issue_canonical, gibbsTurn_keeps, gibbsLater_keeps, keeps_bind]

theorem loadWord_canonical (h : Hdr) (rows : Bool) (card : Name) (t : BitVec 12) (mk : List Byte → Nat → GibbsOp)
    (s : State) (hs : s.Canonical) : nextCanonical (loadWord h rows card t mk s) := by
  grind [loadWord, issue_canonical, gibbsTurn_keeps, firstCell_keeps, keeps_demand, gibbsLater_keeps, keeps_bind,
    keeps_get_bind]

theorem execGcolr_canonical (h : Hdr) (tea : Bool) (c : BitVec 8) (a b : Name) (s : State) (hs : s.Canonical) :
    nextCanonical (execGcolr h tea c a b s) := by
  grind [execGcolr, issue_canonical, gibbsTurn_keeps, firstCell_keeps, gibbsViews_keeps, keeps_demand, gibbsLater_keeps,
    keeps_bind]

theorem execGbeta_canonical (h : Hdr) (a : Name) (s : State) (hs : s.Canonical) : nextCanonical (execGbeta h a s) := by
  grind [execGbeta, issue_canonical, gibbsTurn_keeps, src_keeps, keeps_demand, gibbsLater_keeps, keeps_bind]

theorem execGseed_canonical (h : Hdr) (a : Name) (s : State) (hs : s.Canonical) : nextCanonical (execGseed h a s) := by
  grind [execGseed, issue_canonical, gibbsTurn_keeps, src_keeps, gibbsLater_keeps, keeps_bind]

theorem execGclmp_canonical (h : Hdr) (te : Te) (a b : Name) (s : State) (hs : s.Canonical) :
    nextCanonical (execGclmp h te a b s) := by
  grind [execGclmp, issue_canonical, gibbsTurn_keeps, gibbsViews_keeps, gibbsLater_keeps, keeps_bind]

theorem execGfree_canonical (h : Hdr) (tea : Bool) (a : Name) (s : State) (hs : s.Canonical) :
    nextCanonical (execGfree h tea a s) := by
  grind [execGfree, issue_canonical, gibbsTurn_keeps, gibbsViews_keeps, gibbsLater_keeps, keeps_bind]

theorem execGswp_canonical (h : Hdr) (k : BitVec 15) (s : State) (hs : s.Canonical) : nextCanonical (execGswp h k s) := by
  grind [execGswp, issue_canonical, gibbsTurn_keeps, gibbsLater_keeps, beginPhase_canonical, begin_mem, keeps_pure,
    keeps_bind, keeps_get_bind, keeps_modify, State.Canonical]

theorem execGcntc_canonical (h : Hdr) (s : State) (hs : s.Canonical) : nextCanonical (execGcntc h s) := by
  grind [execGcntc, issue_canonical, gibbsTurn_keeps, gibbsLater_keeps, keeps_bind]

theorem readArray_canonical (h : Hdr) (d : Name) (fmt : Byte) (first : Option Name) (image : State → Nat → Nat → List Byte × Nat)
    (s : State) (hs : s.Canonical) : nextCanonical (readArray h d fmt first image s) := by
  refine issue_canonical (fun o => keeps_bind (gibbsTurn_keeps o) fun _ => keeps_bind ?_ fun f => keeps_get_bind fun s _ =>
    keeps_bind (keeps_need _) fun _ => ?_) .G h 1 s hs
  · cases first with
    | none => exact keeps_pure 0
    | some n => exact firstCell_keeps o n
  · split
    · exact keeps_trapNow ..
    · exact keeps_bind (keeps_demand ..) fun _ => keeps_bind (keeps_demand ..) fun _ =>
        keeps_bind (keeps_modify fun t ht => markEmpty_canonical _ _ _ _ _ ht) fun _ => doneLater_keeps ..

theorem execGrds_canonical (h : Hdr) (d : Name) (s : State) (hs : s.Canonical) : nextCanonical (execGrds h d s) := by
  grind [execGrds, readArray_canonical]

theorem execGrdc_canonical (h : Hdr) (d a : Name) (s : State) (hs : s.Canonical) : nextCanonical (execGrdc h d a s) := by
  grind [execGrdc, readArray_canonical]

theorem execGrdf_canonical (h : Hdr) (d a : Name) (s : State) (hs : s.Canonical) : nextCanonical (execGrdf h d a s) := by
  grind [execGrdf, readArray_canonical]

theorem execGstat_canonical (h : Hdr) (clr : Bool) (sel : BitVec 3) (d : Name) (s : State) (hs : s.Canonical) :
    nextCanonical (execGstat h clr sel d s) := by
  grind [execGstat, issue_canonical, gibbsTurn_keeps, resultLater_keeps, modStatus_mem, keeps_bind, keeps_get_bind,
    keeps_modify, State.Canonical]

/-! ### GXCH (R281, R282) -/

theorem gxchOrder_keeps (o : Origin) (c : List Byte) : (gxchOrder o c).Keeps := by
  unfold gxchOrder
  dsimp only
  exact keeps_bind (keeps_demand ..) fun _ => keeps_get_bind fun s _ => keeps_bind (keeps_demand ..) fun _ =>
    keeps_bind (declare_keeps ..) fun _ => keeps_bind (declare_keeps ..) fun _ => keeps_pure _

theorem execGxch_canonical (h : Hdr) (card : Name) (s : State) (hs : s.Canonical) : nextCanonical (execGxch h card s) := by
  grind [execGxch, issue_canonical, enqueue_keeps, gxchOrder_keeps]

theorem execGxchPublish_canonical (id : Nat) (s : State) (hs : s.Canonical) : nextCanonical (execGxchPublish id s) := by
  grind [execGxchPublish, startCopy_mem, nextCanonical_next, State.Canonical]

theorem execGxchFetch_canonical (id : Nat) (s : State) (hs : s.Canonical) : nextCanonical (execGxchFetch id s) := by
  grind [execGxchFetch, after_mem, modGang_mem, modHome_mem, modGalley_mem, nextCanonical_next, State.Canonical]

theorem execGxchRetire_canonical (id : Nat) (s : State) (hs : s.Canonical) : nextCanonical (execGxchRetire id s) := by
  grind [execGxchRetire, staleDrop_mem, modHome_mem, after_mem, modGalley_mem, nextCanonical_next, State.Canonical]

/-! ### Launch records -/

theorem modLaunch_mem (s : State) (id : Nat) (f : Launch → Launch) : (s.modLaunch id f).mem = s.mem := by
  grind [State.modLaunch]

/-! ### Kicks (R297, R298) -/

theorem joinRing_mem (s : State) (vf : BitVec 6) (q : BitVec 4) (k : Kick) : (s.joinRing vf q k).mem = s.mem := rfl

theorem countDropped_mem (s : State) (v : BitVec 6) (q : BitVec 4) : (s.countDropped v q).mem = s.mem := rfl

theorem execKick_canonical (vf : BitVec 6) (val : Word) (s : State) (hs : s.Canonical) : nextCanonical (execKick vf val s) := by
  grind [execKick, countDropped_mem, joinRing_mem, nextCanonical_next, State.Canonical]

theorem popRing_mem (s : State) (v : BitVec 6) (q : BitVec 4) : (s.popRing v q).mem = s.mem := rfl

theorem countRefused_mem (s : State) (v : BitVec 6) (q : BitVec 4) : (s.countRefused v q).mem = s.mem := rfl

theorem wakeWaiters_mem (s : State) (id : Nat) (l : Launch) : (s.wakeWaiters id l).mem = s.mem := by
  grind [State.wakeWaiters, modHome_mem, foldl_mem]

theorem refuseKick_mem (s : State) (vf : BitVec 6) (q : BitVec 4) (k : Kick) : (s.refuseKick vf q k).mem = s.mem := by
  grind [State.refuseKick, popRing_mem, countRefused_mem, wakeWaiters_mem, modLaunch_mem]

theorem acceptKick_mem (s : State) (vf : BitVec 6) (q : BitVec 4) (k : Kick) (r : Rcb) (patch : Option (List Byte × List Nat)) :
    (s.acceptKick vf q k r patch).mem = s.mem := rfl

theorem takeKick_mem (s : State) (vf : BitVec 6) (q : BitVec 4) (r : Option Rcb) (patch : Option (List Byte × List Nat))
    (d : Nat) : (s.takeKick vf q r patch d).mem = s.mem := rfl

theorem noteReason_mem (s : State) (k : Kick) (e : Nat) : (s.noteReason k e).mem = s.mem := by
  grind [State.noteReason, modLaunch_mem]

theorem execKickAccept_canonical (vf : BitVec 6) (q : BitVec 4) (s : State) (hs : s.Canonical) :
    nextCanonical (execKickAccept vf q s) := by
  unfold execKickAccept
  refine nextCanonical_next.2 (canonical_of_mem ?_ hs)
  split
  · rfl
  · split
    · rfl
    · split
      · grind [after_mem, takeKick_mem, noteReason_mem]
      · split
        · rfl
        · grind [after_mem, takeKick_mem, refuseKick_mem, acceptKick_mem]

/-! ### Frequencies (R305, R400, R403) -/

theorem setIslands_mem (s : State) (cores : List Nat) : (s.setIslands cores).mem = s.mem := rfl

/-- Whether or not the poison of a line is counted, memory is as before. -/
theorem countedPoison_mem (t : State) (own poison : Bool) (o : Option Galley) :
    (match o with
      | some g => if own then t else t.notePoison g poison
      | none => t).mem = t.mem := by
  cases o with
  | none => rfl
  | some g =>
    cases own
    · exact notePoison_mem ..
    · rfl

theorem lineToSlot_canonical (s : State) (sv : Save) (l : HeldLine) (hs : s.Canonical) : (s.lineToSlot sv l).1.Canonical := by
  unfold State.lineToSlot
  extract_lets off k own t t' ms rest
  have ht : t.Canonical := by
    unfold t
    split
    · exact write_canonical _ _ _ hs
    · exact hs
  have ht' : t'.Canonical := canonical_of_mem (countedPoison_mem t own l.poison (s.heldGalley l)) ht
  clear_value t'
  split
  · exact canonical_of_mem (staleDrop_mem ..) hs
  · split
    · exact hs
    · exact ht'

theorem canonical_setSaves {u : State} {x : Tbl Save} (hu : u.Canonical) : State.Canonical { u with saves := x } := hu

/-- The byte offsets and the slot's key are generalised first: comparing terms that hold them costs a long evaluation. -/
theorem displace_canonical (s : State) (c : Nat) (hs : s.Canonical) : (s.displace c).Canonical := by
  have hfold (l : List HeldLine) (sv : Save) :=
    foldl_canonical_fst (f := fun (a : State × Save) l => ((a.1.lineToSlot a.2 l).1.lineDone l, (a.1.lineToSlot a.2 l).2))
      (fun a l ha => canonical_of_mem (lineDone_mem _ l) (lineToSlot_canonical a.1 a.2 l ha)) l (s := (s, sv)) hs
  unfold State.displace
  generalize List.range 0x80000 = offsets
  extract_lets k waits
  split
  · exact hs
  · extract_lets sv0
    split
    next sv _ _ t sv1 e =>
    have ht : t.Canonical := by
      have := hfold (k.held.filter (fun l => !(waits l))) sv0
      rw [e] at this
      exact this
    generalize t.vaultKey sv.vf _ = key
    extract_lets u
    have hu : u.Canonical := by
      unfold u
      split
      · exact write_canonical _ _ _ ht
      · exact ht
    exact canonical_setSaves hu

theorem voidCore_mem (s : State) (c : Nat) : (s.voidCore c).mem = s.mem := rfl

theorem placeCore_canonical (s : State) (v : BitVec 6) (g c index count : Nat) (r : Rcb) (img : List Byte)
    (secs : List (Nat × List Byte)) (param : List Byte) (bad : List Nat) (hs : s.Canonical) :
    (s.placeCore v g c index count r img secs param bad).Canonical := by
  grind [State.placeCore, voidCore_mem, displace_canonical, setCore_mem, mark_mem, write_canonical, foldl_canonical,
    State.Canonical]

theorem execGangStart_canonical (launch : Nat) (s : State) (hs : s.Canonical) : nextCanonical (execGangStart launch s) := by
  grind [execGangStart, after_mem, modCore_mem, placeCore_canonical, modLaunch_mem, setIslands_mem, foldl_canonical,
    nextCanonical_next, State.Canonical]

/-! ### The end of kernels and launches (R82, R296) -/

theorem releaseGalley_mem (s : State) (id : Nat) (g : Galley) : (s.releaseGalley id g).mem = s.mem := by
  grind [State.releaseGalley, staleDrop_mem, after_mem]

theorem privDone_canonical (s : State) (o : Origin) (d : Name) (v : Word) (hs : s.Canonical) :
    (s.privDone o d v).Canonical := by
  grind [State.privDone, finish_canonical, unblock_mem, land_mem, State.Canonical]

theorem releaseGang_canonical (s : State) (g : Nat) (hs : s.Canonical) : (s.releaseGang g).Canonical := by
  grind [State.releaseGang, modCore_mem, releaseHeld_canonical, staleDrop_mem, releaseGalley_mem, privDone_canonical,
    foldl_canonical, State.Canonical]

theorem execKernelEnd_canonical (core : Nat) (s : State) (hs : s.Canonical) : nextCanonical (execKernelEnd core s) := by
  grind [execKernelEnd, modGang_mem, after_mem, modCore_mem, finish_canonical, nextCanonical_next, State.Canonical]

theorem endLaunch_mem (s : State) (id : Nat) (st : LaunchSt) : (s.endLaunch id st).mem = s.mem := by
  grind [State.endLaunch, modLaunch_mem, modVf_mem, after_mem, wakeWaiters_mem]

theorem execLaunchRetire_canonical (launch : Nat) (s : State) (hs : s.Canonical) :
    nextCanonical (execLaunchRetire launch s) := by
  grind [execLaunchRetire, endLaunch_mem, after_mem, releaseGang_canonical, nextCanonical_next, State.Canonical]

/-! ### Groups and graphs (R295) -/

theorem startChild_mem (s : State) (id : Nat) (l : Launch) (a : Nat) : (s.startChild id l a).mem = s.mem := rfl

theorem acceptChild_mem (s : State) (id : Nat) (l : Launch) : (s.acceptChild id l).mem = s.mem := by
  grind [State.acceptChild, modLaunch_mem, after_mem]

theorem execGraphChildStart_canonical (launch : Nat) (s : State) (hs : s.Canonical) :
    nextCanonical (execGraphChildStart launch s) := by
  grind [execGraphChildStart, acceptChild_mem, after_mem, modLaunch_mem, startChild_mem, foldl_canonical, nextCanonical_next,
    State.Canonical]

/-! ### LAUNCH and WAITL (R80, R81) -/

theorem execLaunch_canonical (h : Hdr) (d a b : Name) (queue : BitVec 4) (s : State) (hs : s.Canonical) :
    nextCanonical (execLaunch h d a b queue s) := by
  refine issue_canonical (fun o => ?_) .C h 1 s hs
  exact keeps_bind (src_keeps o a) fun x => keeps_bind (src_keeps o b) fun y => keeps_get_bind fun s _ =>
    keeps_bind (reserve_keeps o d) fun _ => keeps_bind (keeps_demand ..) fun _ => keeps_bind (keeps_demand ..) fun _ =>
    keeps_bind (keeps_modify fun _ h => h) fun _ => keeps_pure _

theorem handOver_mem (s : State) (o : Origin) (a patch : Nat) (q : BitVec 4) (d : Name) :
    (s.handOver o a patch q d).mem = s.mem := by
  grind [State.handOver, later_mem, countDropped_mem, joinRing_mem]

theorem execLaunchHandleReady_canonical (o : Origin) (d : Name) (val : Word) (s : State) (hs : s.Canonical) :
    nextCanonical (execLaunchHandleReady o d val s) := by
  grind [execLaunchHandleReady, finish_canonical, land_mem, modLaunch_mem, nextCanonical_next, State.Canonical]

theorem execWaitl_canonical (h : Hdr) (d a : Name) (s : State) (hs : s.Canonical) : nextCanonical (execWaitl h d a s) := by
  refine issue_canonical (fun o => keeps_bind (src_keeps o a) fun x => keeps_get_bind fun s _ => keeps_bind (keeps_getCore o) fun k =>
    keeps_bind (reserve_keeps o d) fun _ => ?_) .C h 1 s hs
  split
  · exact doneLater_keeps ..
  · exact keeps_bind (keeps_modifyCore ..) fun _ => keeps_bind (keeps_modify fun _ h => h) fun _ =>
      keeps_when_bind (keeps_modify fun _ h => h) fun _ => keeps_pure _

theorem execWaitlWake_canonical (o : Origin) (d : Name) (handle : Word) (s : State) (hs : s.Canonical) :
    nextCanonical (execWaitlWake o d handle s) := by
  grind [execWaitlWake, modCore_mem, modLaunch_mem, finish_canonical, unblock_mem, land_mem, nextCanonical_next,
    State.Canonical]

/-! ### Identifiers and ports (R347, R348) -/

theorem modPort_mem (s : State) (p : Nat) (f : FPort → FPort) : (s.modPort p f).mem = s.mem := rfl

/-! ### Fabric event records (R368, R342) -/

theorem portEvent_mem (s : State) (type p wbefore : Nat) : (s.portEvent type p wbefore).mem = s.mem := rfl

theorem opEvent_mem (s : State) (type : Nat) (vf : BitVec 6) : (s.opEvent type vf).mem = s.mem := rfl

/-! ### Sending (R353 to R356) -/

theorem sendFlit_mem (s : State) (p : Nat) (rv : Bool) (segs : List Seg) : (s.sendFlit p rv segs).mem = s.mem := by
  grind [State.sendFlit, modPort_mem, send_mem, after_mem]

theorem freeSegs_mem (s : State) (p vc n : Nat) : (s.freeSegs p vc n).mem = s.mem := rfl

theorem freeFrom_mem (s : State) (via : Option (Nat × Nat)) (n : Nat) : (s.freeFrom via n).mem = s.mem := by
  unfold State.freeFrom
  grind [freeSegs_mem]

theorem freeResp_mem (s : State) (via : Option (Nat × Nat)) : (s.freeResp via).mem = s.mem := by
  unfold State.freeResp
  grind [modPort_mem, freeSegs_mem]

theorem countInjected_mem (s : State) (vf : BitVec 6) (regions : List Nat) (flits : Nat) :
    (s.countInjected vf regions flits).mem = s.mem := rfl

theorem sendRest_mem (s : State) (p : Nat) : (s.sendRest p).mem = s.mem := by
  grind [State.sendRest, sendFlit_mem, modPort_mem]

theorem sendPacket_mem (s : State) (p vc : Nat) (e : Queued) : (s.sendPacket p vc e).mem = s.mem := by
  grind [State.sendPacket, countInjected_mem, modPort_mem, freeFrom_mem, sendRest_mem]

theorem sendResps_mem (s : State) (p : Nat) (two : List (Option (Nat × Nat) × Response)) : (s.sendResps p two).mem = s.mem := by
  unfold State.sendResps
  grind [foldl_mem, countInjected_mem, modPort_mem, freeResp_mem, sendFlit_mem]

theorem sendOne_packet_mem {s : State} {p : Nat} {f : FPort} {t : State} (e : State.sendOne.packet s p f = some t) :
    t.mem = s.mem := by
  obtain ⟨vc, -, hv⟩ := List.exists_of_findSome?_eq_some e
  obtain ⟨x, -, rfl⟩ := Option.map_eq_some_iff.1 hv
  exact sendPacket_mem ..

theorem sendOne_mem {s : State} {p : Nat} {t : State} (e : s.sendOne p = some t) : t.mem = s.mem := by
  unfold State.sendOne at e
  grind [sendRest_mem, sendResps_mem, sendOne_packet_mem]

theorem pumpFrom_mem (p n : Nat) : ∀ s : State, (State.pumpFrom p n s).mem = s.mem := by
  induction n with
  | zero => exact fun _ => rfl
  | succ n ih =>
    intro s
    unfold State.pumpFrom
    split
    · next e => exact (ih _).trans (sendOne_mem e)
    · rfl

theorem pump_mem (s : State) (p : Nat) : (s.pump p).mem = s.mem := pumpFrom_mem ..

theorem sendIdle_mem (s : State) (p : Nat) : (s.sendIdle p).mem = s.mem := by
  grind [State.sendIdle, sendFlit_mem]

theorem pumpAll_mem (s : State) : (s.pumpAll).mem = s.mem := by
  grind [State.pumpAll, pump_mem, sendIdle_mem, after_mem, foldl_mem]

/-! ### Routing (R363, R364) -/

theorem forwardPkt_mem {s : State} {via : Option (Nat × Nat)} {arrival : Nat} {p : Packet} {t : State}
    (e : s.forwardPkt via arrival p = some t) : t.mem = s.mem := by
  obtain ⟨port, -, rfl⟩ := Option.map_eq_some_iff.1 e
  exact modPort_mem ..

theorem inject_mem {s : State} {p : Packet} {t : State} (e : s.inject p = some t) : t.mem = s.mem := by
  obtain ⟨u, hu, rfl⟩ := Option.map_eq_some_iff.1 e
  exact (pumpAll_mem u).trans (forwardPkt_mem hu)

theorem forwardResp_mem (s : State) (via : Option (Nat × Nat)) (r : Response) : (s.forwardResp via r).mem = s.mem := by
  grind [State.forwardResp, modPort_mem, freeResp_mem]

theorem respond_mem (s : State) (p : Packet) (kind : RespKind) (status : Byte) (value : Word) :
    (s.respond p kind status value).mem = s.mem := by
  grind [State.respond, pumpAll_mem, forwardResp_mem]

/-! ### Port states (R367) -/

theorem flnkAnswer_canonical (s : State) (p : Nat) (v : Word) (hs : s.Canonical) : (s.flnkAnswer p v).Canonical := by
  grind [State.flnkAnswer, finish_canonical, unblock_mem, land_mem, modPort_mem, State.Canonical]

theorem roundCheck_canonical (s : State) (hs : s.Canonical) : (s.roundCheck).Canonical := by
  grind [State.roundCheck, finish_canonical, unblock_mem, land_mem, State.Canonical]

theorem portDown_canonical (s : State) (p type : Nat) (hs : s.Canonical) : (s.portDown p type).Canonical := by
  grind [State.portDown, freeFrom_mem, freeResp_mem, modPort_mem, roundCheck_canonical, flnkAnswer_canonical, portEvent_mem,
    foldl_canonical, State.Canonical]

theorem setPortState_mem (s : State) (p : Nat) (st : PortState) (f : FPort → FPort) : (s.setPortState p st f).mem = s.mem := rfl

theorem drainCheck_mem (s : State) (p : Nat) : (s.drainCheck p).mem = s.mem := by
  grind [State.drainCheck, after_mem]

/-! ### The link layer's steps (R353, R354) -/

theorem replay_mem (s : State) (p : Nat) : (s.replay p).mem = s.mem := by
  grind [State.replay, send_mem, modPort_mem, foldl_mem]

theorem execFlitReplay_canonical (port : BitVec 7) (s : State) (hs : s.Canonical) : nextCanonical (execFlitReplay port s) := by
  grind [execFlitReplay, pumpAll_mem, sendIdle_mem, replay_mem, nextCanonical_next, nextCanonical_fault, State.Canonical]

theorem execReplayTimeout_canonical (port : BitVec 7) (s : State) (hs : s.Canonical) :
    nextCanonical (execReplayTimeout port s) := by
  grind [execReplayTimeout, pumpAll_mem, after_mem, replay_mem, nextCanonical_next, nextCanonical_fault, State.Canonical]

theorem collPacketIn_mem (s : State) (p : Packet) : (s.collPacketIn p).mem = s.mem := by
  grind [State.collPacketIn, after_mem]

theorem packetIn_mem (s : State) (port : Nat) (hdr data : List Byte) : (s.packetIn port hdr data).mem = s.mem := by
  unfold State.packetIn
  extract_lets vc n gone
  have hg : ∀ t : State, (gone t).mem = t.mem := fun t => freeSegs_mem ..
  split
  · exact (hg _).trans (modPort_mem ..)
  · split
    · exact (hg _).trans (modPort_mem ..)
    · extract_lets
      split
      · exact hg _
      · exact hg _
      · split
        · refine (hg _).trans ?_
          grind [after_mem, collPacketIn_mem]
        · split
          · next e => have h := forwardPkt_mem e; exact h
          · exact (respond_mem ..).trans (hg _)

theorem responseIn_mem (s : State) (port id : Nat) (r : Response) : (s.responseIn port id r).mem = s.mem := by
  grind [State.responseIn, freeResp_mem, after_mem, forwardResp_mem]

theorem responsesIn_mem (s : State) (port : Nat) (b : List Byte) : (s.responsesIn port b).mem = s.mem := by
  grind [State.responsesIn, modPort_mem, responseIn_mem]

theorem segmentIn_mem (s : State) (port : Nat) (kind : Nat) (b : List Byte) : (s.segmentIn port kind b).mem = s.mem := by
  unfold State.segmentIn
  grind [packetIn_mem, modPort_mem, responsesIn_mem]

theorem execFlitReceive_canonical (port : BitVec 7) (flit : List (BitVec 8)) (s : State) (hs : s.Canonical) :
    nextCanonical (execFlitReceive port flit s) := by
  grind [execFlitReceive, sendIdle_mem, modPort_mem, after_mem, segmentIn_mem, pumpAll_mem, drainCheck_mem, foldl_canonical,
    nextCanonical_next, nextCanonical_fault, State.Canonical]

/-! ### Optical ports (R366, R367) -/

theorem execLossOfLight_canonical (port : BitVec 7) (group : BitVec 2) (s : State) (hs : s.Canonical) :
    nextCanonical (execLossOfLight port group s) := by
  grind [execLossOfLight, pumpAll_mem, portDown_canonical, portEvent_mem, modPort_mem, replay_mem, nextCanonical_next,
    nextCanonical_fault, State.Canonical]

theorem execRetrainStart_canonical (port : BitVec 7) (wavelength : BitVec 4) (s : State) (hs : s.Canonical) :
    nextCanonical (execRetrainStart port wavelength s) := by
  grind [execRetrainStart, portEvent_mem, modPort_mem, nextCanonical_next, nextCanonical_fault, State.Canonical]

theorem execRetrainDone_canonical (port : BitVec 7) (group : BitVec 2) (s : State) (hs : s.Canonical) :
    nextCanonical (execRetrainDone port group s) := by
  grind [execRetrainDone, portEvent_mem, modPort_mem, nextCanonical_next, nextCanonical_fault, State.Canonical]

theorem joinDomain_mem (s : State) : (s.joinDomain).mem = s.mem := by
  grind [State.joinDomain]

theorem execTrainingDone_canonical (port : BitVec 7) (ok : Bool) (s : State) (hs : s.Canonical) :
    nextCanonical (execTrainingDone port ok s) := by
  grind [execTrainingDone, pumpAll_mem, portDown_canonical, flnkAnswer_canonical, setPortState_mem, joinDomain_mem,
    nextCanonical_next, nextCanonical_fault, State.Canonical]

theorem execDrainDone_canonical (port : BitVec 7) (s : State) (hs : s.Canonical) : nextCanonical (execDrainDone port s) := by
  grind [execDrainDone, flnkAnswer_canonical, setPortState_mem, nextCanonical_next, nextCanonical_fault, State.Canonical]

theorem execCircuitReported_canonical (port : BitVec 7) (s : State) (hs : s.Canonical) :
    nextCanonical (execCircuitReported port s) := by
  grind [execCircuitReported, modPort_mem, nextCanonical_next, nextCanonical_fault, State.Canonical]

/-! ### Plough rounds (R365) -/

theorem plough_mem (s : State) (p : Nat) (vcs : List Nat) (rv : Bool) (round : Nat) :
    (s.plough p vcs rv round).mem = s.mem := by
  grind [State.plough, modPort_mem, foldl_mem]

theorem execPloughArrive_canonical (port : BitVec 7) (p : Packet) (s : State) (hs : s.Canonical) :
    nextCanonical (execPloughArrive port p s) := by
  grind [execPloughArrive, after_mem, nextCanonical_next, nextCanonical_fault, State.Canonical]

theorem execEchoSend_canonical (port : BitVec 7) (vc : BitVec 2) (version : Bool) (round : BitVec 4) (s : State)
    (hs : s.Canonical) : nextCanonical (execEchoSend port vc version round s) := by
  grind [execEchoSend, after_mem, pumpAll_mem, modPort_mem, nextCanonical_next, nextCanonical_fault, State.Canonical]

theorem execEchoArrive_canonical (port : BitVec 7) (p : Packet) (s : State) (hs : s.Canonical) :
    nextCanonical (execEchoArrive port p s) := by
  grind [execEchoArrive, drainCheck_mem, modPort_mem, roundCheck_canonical, nextCanonical_next, nextCanonical_fault,
    State.Canonical]

/-! ### Outstanding operations (R358, R360) -/

theorem sendOut_mem (s : State) (f : FabOp) : (s.sendOut f).mem = s.mem := by
  unfold State.sendOut
  have hi : ∀ (t d : State) (p : Packet), d.mem = t.mem → ((t.inject p).getD d).mem = t.mem := by
    intro t d p hd
    cases e : t.inject p with
    | none => exact hd
    | some u => exact inject_mem e
  dsimp only
  split
  · rfl
  · split
    · exact foldl_mem (fun t p => hi t t p rfl) _ _
    · exact hi _ _ _ rfl

theorem startOp_mem (s : State) (f : FabOp) : (s.startOp f).mem = s.mem := by
  grind [State.startOp, after_mem, sendOut_mem]

/-! ### FPUT (R371 to R373) -/

theorem fabricString_keeps (o : Origin) (rs : Bool) (l : List (Nat × Nat)) : (fabricString o rs l).Keeps := by
  unfold fabricString
  exact keeps_get_bind fun s _ => keeps_bind (keeps_demand ..) fun _ => declare_keeps ..

theorem putOrder_keeps (o : Origin) (t : BitVec 12) (n : BitVec 4) (c : List Byte) : (putOrder o t n c).Keeps := by
  grind [putOrder, keeps_demand, fabricString_keeps, keeps_pure, keeps_bind, keeps_get_bind]

theorem execFput_canonical (h : Hdr) (rel : Option Scope) (card : Name) (t : BitVec 12) (n : BitVec 4) (s : State)
    (hs : s.Canonical) : nextCanonical (execFput h rel card t n s) := by
  grind [execFput, issue_canonical, enqueue_keeps, putOrder_keeps]

theorem startPut_mem (s : State) (id : Nat) : (s.startPut id).mem = s.mem := by
  grind [State.startPut, after_mem, modGalley_mem]

theorem sendPut_mem (s : State) (id : Nat) (g : Galley) (p : Piece) (rest : List Piece) (rs : List Rng) (tag : BitVec 16)
    (dm : BitVec 12) (dc : BitVec 8) (space : Bool) : (s.sendPut id g p rest rs tag dm dc space).mem = s.mem := by
  grind [State.sendPut, modGalley_mem, noteBad_mem, startOp_mem, foldl_mem]

theorem putGo_mem (id : Nat) (g : Galley) (s : State) : (putGo id g s).mem = s.mem := by
  grind [putGo, after_mem, grant_mem, sendPut_mem]

/-! ### FATOM and FPULL (R374, R375) -/

theorem execFatom_canonical (h : Hdr) (op : AtomOp) (dbl uns : Bool) (d a b : Name) (s : State) (hs : s.Canonical) :
    nextCanonical (execFatom h op dbl uns d a b s) := by
  refine issue_canonical (fun o => keeps_ite_bind (src_keeps o d) (keeps_pure 0) fun e => ?_) .F h 1 s hs
  refine keeps_bind (src_keeps o a) fun x => keeps_bind (src_keeps o b) fun v => keeps_get_bind fun s _ =>
    keeps_bind (keeps_getCore o) fun k => ?_
  split
  · exact keeps_stall
  · exact keeps_bind (reserve_keeps o d) fun _ => keeps_bind (keeps_demand ..) fun _ =>
      keeps_bind (keeps_modify fun t ht => canonical_of_mem ((startOp_mem ..).trans (begin_mem t o)) ht) fun _ => keeps_pure _

theorem execFpull_canonical (h : Hdr) (card : Name) (n : BitVec 4) (s : State) (hs : s.Canonical) :
    nextCanonical (execFpull h card n s) := by
  refine issue_canonical (fun o => keeps_bind (steppedRecord_keeps ..) fun r => keeps_get_bind fun s _ =>
    keeps_bind (keeps_getCore o) fun k => ?_) .F h 1 s hs
  split
  · exact keeps_stall
  · exact keeps_bind (keeps_demand ..) fun _ => keeps_bind (keeps_demand ..) fun _ =>
      keeps_bind (keeps_modify fun t ht => canonical_of_mem ((startOp_mem ..).trans (begin_mem t o)) ht) fun _ => keeps_pure _

/-! ### FFENCE, FCNT and FSTAT (R376 to R378) -/

theorem execFfence_canonical (h : Hdr) (sc : Scope) (s : State) (hs : s.Canonical) : nextCanonical (execFfence h sc s) := by
  grind [execFfence, issue_canonical, demandScope_keeps, later_mem, modW_mem, begin_mem, keeps_pure, keeps_bind, keeps_modify,
    State.Canonical]

theorem execFcnt_canonical (h : Hdr) (clr : Bool) (d : Name) (n : BitVec 4) (s : State) (hs : s.Canonical) :
    nextCanonical (execFcnt h clr d n s) := by
  grind [execFcnt, issue_canonical, resultLater_keeps, keeps_modifyCore, keeps_bind, keeps_get_bind]

theorem execFstat_canonical (h : Hdr) (sel : BitVec 3) (d : Name) (s : State) (hs : s.Canonical) :
    nextCanonical (execFstat h sel d s) := by
  grind [execFstat, issue_canonical, resultLater_keeps, keeps_get_bind]

/-! ### The reply cache (R360) -/

theorem keepReply_mem (s : State) (k : ReplyKey) (r : Response) (stamp : BitVec 32) : (s.keepReply k r stamp).mem = s.mem := rfl

theorem sendResp_mem (s : State) (r : Response) : (s.sendResp r).mem = s.mem := by
  grind [State.sendResp, pumpAll_mem, forwardResp_mem]

theorem arrive_canonical {perform : State → State × Response × Bool} (hp : ∀ t : State, t.Canonical → (perform t).1.Canonical)
    (s : State) (p : Packet) (hs : s.Canonical) : (s.arrive p perform).Canonical := by
  have hq := hp s hs
  unfold State.arrive
  grind [sendResp_mem, staleDrop_mem, keepReply_mem, State.Canonical]

theorem execRackArrive_canonical (key : ReplyKey) (s : State) (hs : s.Canonical) : nextCanonical (execRackArrive key s) := by
  grind [execRackArrive, after_mem, nextCanonical_next, State.Canonical]

theorem execReplyCacheFree_canonical (key : ReplyKey) (s : State) (hs : s.Canonical) :
    nextCanonical (execReplyCacheFree key s) := by
  grind [execReplyCacheFree, nextCanonical_next, State.Canonical]

/-! ### Arrivals (R357, R372, R374, R375) -/

theorem writePut_canonical (s : State) (p : Packet) (keys : List Nat) (hs : s.Canonical) : (s.writePut p keys).Canonical := by
  grind [State.writePut, writeLine_canonical, mark_mem, writeUser_canonical, foldl_canonical, State.Canonical]

theorem holdPut_mem (s : State) (p : Packet) (keys : List Nat) : (s.holdPut p keys).mem = s.mem := rfl

theorem writeRuns_canonical (s : State) (tag : Tag) (rs : List Rng) (bytes : List Byte) (bad : Bool) (hs : s.Canonical) :
    (s.writeRuns tag rs bytes bad).Canonical := by
  grind [State.writeRuns, writeUser_canonical, mark_mem, foldl_canonical, foldl_canonical_fst, State.Canonical]

theorem noteRow_mem (s : State) (vf : BitVec 6) (gen : BitVec 8) (core : Nat) (group : BitVec 4) (seq addr : Nat) (bad : Bool) :
    (s.noteRow vf gen core group seq addr bad).mem = s.mem := by
  grind [State.noteRow]

theorem putRow_canonical {s : State} {vf : BitVec 6} {gen : BitVec 8} {core : Nat} {group : BitVec 4} {seq addr : Nat}
    {data : List Byte} {bad : Bool} {t : State} (e : s.putRow vf gen core group seq addr data bad = some t) (hs : s.Canonical) :
    t.Canonical := by
  obtain ⟨rs, -, rfl⟩ := Option.map_eq_some_iff.1 e
  exact canonical_of_mem (noteRow_mem ..) (writeRuns_canonical _ _ _ _ _ hs)

theorem rowIn_canonical (s : State) (p : Packet) (t : State) (e : s.rowIn p = some t) (hs : s.Canonical) : t.Canonical := by
  grind [State.rowIn, putRow_canonical]

theorem execPutArrive_canonical (p : Packet) (s : State) (hs : s.Canonical) : nextCanonical (execPutArrive p s) := by
  have ack : ∀ (t : State) (status : Byte), t.Canonical → nextCanonical (.next (t.sendResp (answerTo p .ack status 0))) :=
    fun t status ht => nextCanonical_next.2 (canonical_of_mem (sendResp_mem ..) ht)
  unfold execPutArrive
  dsimp only
  split
  · exact ack _ _ hs
  · split
    · exact nextCanonical_next.2 hs
    · split
      · exact ack _ _ (canonical_of_mem (staleDrop_mem ..) hs)
      · split
        · grind [rowIn_canonical]
        · grind [writePut_canonical, holdPut_mem, markEmpty_canonical, grant_mem, after_mem, nextCanonical_next, State.Canonical]

theorem execAtomArrive_canonical (p : Packet) (s : State) (hs : s.Canonical) : nextCanonical (execAtomArrive p s) := by
  unfold execAtomArrive
  dsimp only
  split
  · exact nextCanonical_next.2 (arrive_canonical (fun _ ht => ht) s p hs)
  · exact nextCanonical_ite (nextCanonical_next.2 hs)
      (nextCanonical_next.2 (arrive_canonical (fun t ht => atomicAt_canonical t _ ht) s p hs))

theorem execPullArrive_canonical (p : Packet) (s : State) (hs : s.Canonical) : nextCanonical (execPullArrive p s) := by
  refine nextCanonical_next.2 (arrive_canonical (fun t ht => ?_) s p hs)
  dsimp only
  split
  · exact ht
  · split <;> exact ht

/-! ### Group messages (R380, R413) -/

theorem sendColl_mem (s : State) (m : CollMsg) : (s.sendColl m).mem = s.mem := by
  grind [State.sendColl, after_mem, startOp_mem]

theorem tell_mem (s : State) (c : Coll) (i : Nat) (b : CollBody) : (s.tell c i b).mem = s.mem := by
  grind [State.tell, sendColl_mem]

theorem tellAll_mem (s : State) (c : Coll) (b : CollBody) : (s.tellAll c b).mem = s.mem := by
  grind [State.tellAll, tell_mem, foldl_mem]

theorem wakeCollIn_mem (s : State) (c : Coll) (d : Nat) : (s.wakeCollIn c d).mem = s.mem := by
  grind [State.wakeCollIn, modHome_mem]

theorem wakeColl_mem (s : State) (c : Coll) : (s.wakeColl c).mem = s.mem := by
  grind [State.wakeColl, wakeCollIn_mem]

theorem deliver_mem (s : State) (m : CollMsg) : (s.deliver m).mem = s.mem := by
  grind [State.deliver, wakeColl_mem]

theorem answerColl_mem (s : State) (m : CollMsg) (code : Byte) : (s.answerColl m code).mem = s.mem := by
  grind [State.answerColl, sendColl_mem]

theorem localArrive_canonical (s : State) (m : CollMsg) (hs : s.Canonical) : (s.localArrive m).Canonical := by
  unfold State.localArrive
  split
  · split
    · next e => exact canonical_of_mem (answerColl_mem ..) (putRow_canonical e hs)
    · exact canonical_of_mem (answerColl_mem ..) hs
  · exact canonical_of_mem (deliver_mem ..) hs

theorem execCollArrive_canonical (m : CollMsg) (s : State) (hs : s.Canonical) : nextCanonical (execCollArrive m s) := by
  have hd : ∀ t : State, t.Canonical → (if t.ownsCore m.vf m.dstCore then (t.deliver m, answerTo (collPacket m) .ack 0 0, true)
      else (t, answerTo (collPacket m) .ack 4 0, false) : State × Response × Bool).1.Canonical := by
    intro t ht
    split
    · exact canonical_of_mem (deliver_mem ..) ht
    · exact ht
  unfold execCollArrive
  refine nextCanonical_next.2 ?_
  split
  · exact canonical_of_mem (sendColl_mem ..) hs
  · split
    · split
      · exact canonical_of_mem (staleDrop_mem ..) hs
      · exact localArrive_canonical s m hs
    · split
      · exact hs
      · exact arrive_canonical hd s _ hs

theorem drain_mem (s : State) (id : Nat) (c : Coll) : (s.drain id c).1.mem = s.mem := by
  grind [State.drain]

theorem setColl_mem (s : State) (id : Nat) (c : Coll) : (s.setColl id c).mem = s.mem := rfl

/-! ### FGRP and FBAR (R379, R381) -/

theorem doneF_canonical (s : State) (o : Origin) (hs : s.Canonical) : (s.doneF o).Canonical := by
  grind [State.doneF, finish_canonical, unblock_mem, State.Canonical]

theorem fgrpGo_canonical (s : State) (id : Nat) (c : Coll) (hs : s.Canonical) : (s.fgrpGo id c).Canonical := by
  grind [State.fgrpGo, doneF_canonical, modCore_mem, State.Canonical]

theorem fbarGo_canonical (s : State) (id : Nat) (c : Coll) (hs : s.Canonical) : (s.fbarGo id c).Canonical := by
  grind [State.fbarGo, doneF_canonical, modCore_mem, State.Canonical]

theorem fbarBegin_canonical (s : State) (o : Origin) (g : BitVec 4) (hs : s.Canonical) : (s.fbarBegin o g).Canonical := by
  grind [State.fbarBegin, doneF_canonical, modCore_mem, drain_mem, tellAll_mem, setColl_mem, fbarGo_canonical, State.Canonical]

theorem execFbar_canonical (h : Hdr) (sc : Scope) (g : BitVec 4) (s : State) (hs : s.Canonical) :
    nextCanonical (execFbar h sc g s) := by
  grind [execFbar, issue_canonical, demandScope_keeps, later_mem, modW_mem, begin_mem, keeps_pure, keeps_bind, keeps_modify,
    State.Canonical]

theorem beginGroup_keeps (o : Origin) (g : BitVec 4) (list : List Byte) : (beginGroup o g list).Keeps := by
  grind [beginGroup, keeps_modifyCore, modW_mem, begin_mem, wakeColl_mem, tellAll_mem, setColl_mem, keeps_pure, keeps_bind,
    keeps_get_bind, keeps_modify, State.Canonical]

theorem execFgrp_canonical (h : Hdr) (card : Name) (g : BitVec 4) (s : State) (hs : s.Canonical) :
    nextCanonical (execFgrp h card g s) := by
  refine nextCanonical_next.2 (issueAt_canonical (fun o => ?_) s.cur .F h 1 _ s hs)
  exact keeps_bind (recordAt_keeps ..) fun off => keeps_bind (keeps_getCore o) fun k => keeps_bind (claimBanks_keeps ..) fun _ =>
    keeps_get_bind fun s _ => keeps_bind (keeps_demand ..) fun _ => keeps_bind (keeps_demand ..) fun _ =>
    keeps_bind (keeps_demand ..) fun _ => keeps_bind (keeps_need _) fun _ => keeps_bind (keeps_demand ..) fun _ =>
    keeps_bind (keeps_need _) fun _ => keeps_bind (keeps_need _) fun _ => keeps_bind (claimMore_keeps ..) fun _ =>
    keeps_ite (beginGroup_keeps ..) (keeps_bind (keeps_modifyCore ..) fun _ => afterAccess_keeps ..)

/-! ### The collectives' galleys -/

theorem collLine_canonical (s : State) (c : Coll) (l : Nat × List Byte × Bool) (hs : s.Canonical) :
    (s.collLine c l).Canonical := by
  grind [State.collLine, writeLine_canonical, staleDrop_mem, mark_mem, writeUser_canonical, State.Canonical]

theorem collOver_mem (s : State) (id : Nat) (c : Coll) : (s.collOver id c).mem = s.mem := by
  grind [State.collOver, answerColl_mem, after_mem, modGalley_mem, foldl_mem]

theorem collWrite_canonical (s : State) (id : Nat) (c : Coll) (hs : s.Canonical) : (s.collWrite id c).Canonical := by
  grind [State.collWrite, collOver_mem, grant_mem, wakeCollIn_mem, setColl_mem, collLine_canonical, foldl_canonical,
    State.Canonical]

theorem collEnd_mem (s : State) (id : Nat) (c : Coll) (code : Byte) (lines : List (Nat × List Byte × Bool)) (moved : Nat) :
    (s.collEnd id c code lines moved).mem = s.mem := by
  grind [State.collEnd, wakeCollIn_mem, setColl_mem]

theorem takeRuns_canonical (s : State) (c : Coll) (rs : List Rng) (t : State) (e : s.takeRuns c rs = some t)
    (hs : s.Canonical) : t.Canonical := by
  grind [State.takeRuns, markEmpty_canonical, foldl_canonical]

theorem refillRuns_mem (s : State) (c : Coll) (rs : List Rng) : (s.refillRuns c rs).mem = s.mem := rfl

theorem collFail_mem (s : State) (id : Nat) (c : Coll) (code : Byte) : (s.collFail id c code).mem = s.mem := by
  grind [State.collFail, collEnd_mem]

theorem writeVault_canonical (s : State) (c : Coll) (addr : Nat) (bytes : List Byte) (hs : s.Canonical) :
    (s.writeVault c addr bytes).Canonical := by
  grind [State.writeVault, staleDrop_mem, writeRuns_canonical, State.Canonical]

/-! ### FRED (R382 to R384) -/

theorem writeResult_canonical (s : State) (c : Coll) (rows : List PartialRow) (hs : s.Canonical) :
    (s.writeResult c rows).Canonical := by
  grind [State.writeResult, voidDrop_mem, writeVault_canonical, foldl_canonical, State.Canonical]

theorem fredWrite_canonical (s : State) (id : Nat) (c : Coll) (rows : List PartialRow) (hs : s.Canonical) :
    (s.fredWrite id c rows).Canonical := by
  grind [State.fredWrite, collFail_mem, collEnd_mem, writeResult_canonical, State.Canonical]

theorem fredEnd_canonical (s : State) (id : Nat) (c : Coll) (code : Byte) (rows : List PartialRow) (hs : s.Canonical) :
    (s.fredEnd id c code rows).Canonical := by
  grind [State.fredEnd, tell_mem, setColl_mem, collFail_mem, fredWrite_canonical, foldl_canonical, State.Canonical]

theorem fredGo_canonical (s : State) (id : Nat) (c : Coll) (hs : s.Canonical) : (s.fredGo id c).Canonical := by
  grind [State.fredGo, fredWrite_canonical, collFail_mem, fredEnd_canonical, tell_mem, setColl_mem, State.Canonical]

/-! ### FBCST and FA2A (R385) -/

theorem takeString_canonical (s : State) (id : Nat) (c : Coll) (code : Byte) (string : List Byte × Nat) (hs : s.Canonical) :
    (s.takeString id c code string).Canonical := by
  unfold State.takeString
  split
  · next e => exact canonical_of_mem (collEnd_mem ..) (takeRuns_canonical _ _ _ _ e hs)
  · exact canonical_of_mem ((wakeCollIn_mem ..).trans (setColl_mem ..)) hs

theorem fbcstEnd_canonical (s : State) (id : Nat) (c : Coll) (own len : Nat) (hs : s.Canonical) :
    (s.fbcstEnd id c own len).Canonical := by
  grind [State.fbcstEnd, collFail_mem, takeString_canonical, collEnd_mem, State.Canonical]

theorem fbcstGo_canonical (s : State) (id : Nat) (c : Coll) (hs : s.Canonical) : (s.fbcstGo id c).Canonical := by
  grind [State.fbcstGo, collFail_mem, fbcstEnd_canonical, tell_mem, setColl_mem, takeString_canonical, foldl_canonical,
    State.Canonical]

theorem fa2aGo_canonical (s : State) (id : Nat) (c : Coll) (hs : s.Canonical) : (s.fa2aGo id c).Canonical := by
  unfold State.fa2aGo
  extract_lets ch peers runs
  split
  next data bad _ =>
  extract_lets chunk
  split
  next s1 c1 e1 =>
  have h1 : s1.Canonical := by
    have hf := foldl_mem (fun t q => tell_mem t c q (.bytes (chunk q).2 (chunk q).1)) peers s
    grind [State.Canonical]
  extract_lets fresh
  split
  next s2 took e2 =>
  have h2 : s2.Canonical := by
    rw [show s2 = (s2, took).1 from rfl, ← e2]
    refine foldl_canonical_fst (fun a x ha => ?_) fresh h1
    split
    · next e => exact canonical_of_mem (answerColl_mem ..) (takeRuns_canonical _ _ _ _ e ha)
    · exact ha
  extract_lets c2 s3
  have h3 : s3.Canonical := canonical_of_mem (setColl_mem ..) h2
  split
  · exact canonical_of_mem (wakeCollIn_mem ..) h3
  · split
    · exact h3
    · split
      · exact canonical_of_mem ((collFail_mem ..).trans (foldl_mem (fun t q => refillRuns_mem ..) _ _)) h3
      · split
        · exact h3
        · split
          · exact canonical_of_mem (wakeCollIn_mem ..) h3
          · next e => exact canonical_of_mem (collEnd_mem ..) (takeRuns_canonical _ _ _ _ e h3)

/-! ### RPART (R343, R344, R386) -/

theorem writeRow_canonical (s : State) (c : Coll) (addr : Nat) (data : List Byte) (bad : Bool) (hs : s.Canonical) :
    (s.writeRow c addr data bad).Canonical := by
  unfold State.writeRow
  split
  · exact hs
  · cases s.vaultRuns c.vf addr data.length with
    | none => exact hs
    | some rs => exact writeRuns_canonical _ _ _ _ _ hs

theorem rpartMove_canonical (s : State) (id : Nat) (c : Coll) (hs : s.Canonical) : (s.rpartMove id c).Canonical := by
  grind [State.rpartMove, writeRow_canonical, tell_mem, setColl_mem, foldl_canonical, State.Canonical]

theorem rpartEnd_canonical (s : State) (id : Nat) (c : Coll) (code : Byte) (hs : s.Canonical) :
    (s.rpartEnd id c code).Canonical := by
  grind [State.rpartEnd, writeVault_canonical, collEnd_mem, foldl_canonical, State.Canonical]

theorem rpartGo_canonical (s : State) (id : Nat) (c0 : Coll) (hs : s.Canonical) : (s.rpartGo id c0).Canonical := by
  grind [State.rpartGo, collFail_mem, rpartMove_canonical, tellAll_mem, rpartEnd_canonical, setColl_mem, State.Canonical]

/-! ### Progress -/

theorem collStep_canonical (s : State) (id : Nat) (c : Coll) (hs : s.Canonical) : (s.collStep id c).Canonical := by
  grind [State.collStep, collWrite_canonical, collFail_mem, modCore_mem, fredGo_canonical, fbcstGo_canonical,
    fa2aGo_canonical, rpartGo_canonical, State.Canonical]

theorem collGo_canonical (s : State) (id : Nat) (hs : s.Canonical) : (s.collGo id).Canonical := by
  grind [State.collGo, drain_mem, fgrpGo_canonical, fbarGo_canonical, collStep_canonical, State.Canonical]

theorem noteRuns_mem (s : State) (c : Coll) (rs : List Rng) : (s.noteRuns c rs).mem = s.mem := by
  grind [State.noteRuns, noteBad_mem, foldl_mem]

theorem collBegin_mem (s : State) (gid id : Nat) (c : Coll) : (s.collBegin gid id c).mem = s.mem := by
  grind [State.collBegin, modGalley_mem, noteRuns_mem, wakeColl_mem, tellAll_mem, setColl_mem]

theorem collRead_mem (s : State) (gid : Nat) (g : Galley) (id : Nat) (c : Coll) (t : State)
    (e : s.collRead gid g id c = some t) : t.mem = s.mem := by
  grind [State.collRead, after_mem, grant_mem, setColl_mem, noteRuns_mem]

theorem collStart_mem (s : State) (gid : Nat) (g : Galley) (t : State) (e : s.collStart gid g = some t) : t.mem = s.mem := by
  grind [State.collStart, modGalley_mem, collFail_mem, collRead_mem, collBegin_mem]

theorem collAnswer_mem (s : State) (m : CollMsg) (code : Byte) : (s.collAnswer m code).mem = s.mem := by
  grind [State.collAnswer, wakeColl_mem, setColl_mem]

/-! ### The words (R371, R382, R385, R386) -/

theorem groupAt_keeps (o : Origin) (g : BitVec 4) : (groupAt o g).Keeps := by
  grind [groupAt, keeps_pure, keeps_get_bind]

theorem fredOrder_keeps (o : Origin) (t : BitVec 12) (g n : BitVec 4) (b : List Byte) : (fredOrder o t g n b).Keeps := by
  unfold fredOrder
  dsimp only
  refine keeps_get_bind fun s _ => ?_
  repeat refine keeps_bind (keeps_demand ..) fun _ => ?_
  exact keeps_bind (declare_keeps ..) fun _ => keeps_bind (declare_keeps ..) fun _ => keeps_bind (groupAt_keeps ..) fun _ =>
    keeps_pure _

theorem execFred_canonical (h : Hdr) (card : Name) (t : BitVec 12) (g n : BitVec 4) (s : State) (hs : s.Canonical) :
    nextCanonical (execFred h card t g n s) := by
  grind [execFred, issue_canonical, enqueue_keeps, fredOrder_keeps]

theorem fbcstOrder_keeps (o : Origin) (t : BitVec 12) (g n : BitVec 4) (b : List Byte) : (fbcstOrder o t g n b).Keeps := by
  grind [fbcstOrder, groupAt_keeps, keeps_demand, fabricString_keeps, keeps_pure, keeps_bind, keeps_get_bind]

theorem execFbcst_canonical (h : Hdr) (card : Name) (t : BitVec 12) (g n : BitVec 4) (s : State) (hs : s.Canonical) :
    nextCanonical (execFbcst h card t g n s) := by
  grind [execFbcst, issue_canonical, enqueue_keeps, fbcstOrder_keeps]

theorem fa2aOrder_keeps (o : Origin) (t : BitVec 12) (g n : BitVec 4) (b : List Byte) : (fa2aOrder o t g n b).Keeps := by
  grind [fa2aOrder, groupAt_keeps, keeps_demand, fabricString_keeps, keeps_pure, keeps_bind, keeps_get_bind]

theorem execFa2a_canonical (h : Hdr) (card : Name) (t : BitVec 12) (g n : BitVec 4) (s : State) (hs : s.Canonical) :
    nextCanonical (execFa2a h card t g n s) := by
  grind [execFa2a, issue_canonical, enqueue_keeps, fa2aOrder_keeps]

theorem rpartOrder_keeps (o : Origin) (card : Name) (t : BitVec 12) (g n : BitVec 4) (b : List Byte) :
    (rpartOrder o card t g n b).Keeps := by
  unfold rpartOrder
  dsimp only
  exact keeps_get_bind fun s _ => keeps_bind (groupAt_keeps ..) fun _ => keeps_bind (keeps_demand ..) fun _ =>
    keeps_bind (declare_keeps ..) fun _ => keeps_bind (declare_keeps ..) fun _ => keeps_bind (keeps_need _) fun _ =>
    keeps_bind (recordAt_keeps ..) fun _ => keeps_bind (claimMore_keeps ..) fun _ => keeps_bind (keeps_demand ..) fun _ =>
    keeps_bind (keeps_demand ..) fun _ => keeps_pure _

theorem execRpart_canonical (h : Hdr) (card : Name) (t : BitVec 12) (g n : BitVec 4) (s : State) (hs : s.Canonical) :
    nextCanonical (execRpart h card t g n s) := by
  grind [execRpart, issue_canonical, enqueue_keeps, rpartOrder_keeps]

/-! ### Traps (R318) -/

theorem execTrapFreeze_canonical (o : Origin) (cls : TrapClass) (code addr : Nat) (s : State) (hs : s.Canonical) :
    nextCanonical (execTrapFreeze o cls code addr s) := by
  grind [execTrapFreeze, takeTrap_canonical, nextCanonical_next]

theorem freezeRest_canonical (s : State) (g : Nat) (gv : Gang) (cause : FreezeCause) (hs : s.Canonical) :
    (s.freezeRest g gv cause).Canonical := by
  grind [State.freezeRest, saveCore_canonical, modCore_mem, foldl_canonical, State.Canonical]

theorem execGangFreezeFollow_canonical (gang : Nat) (s : State) (hs : s.Canonical) :
    nextCanonical (execGangFreezeFollow gang s) := by
  grind [execGangFreezeFollow, after_mem, freezeRest_canonical, nextCanonical_next, State.Canonical]

/-! ### Freezes by request (R314, R328) -/

theorem execFreezeGate_canonical (gang : Nat) (cause : FreezeCause) (o : Origin) (d : Name) (s : State) (hs : s.Canonical) :
    nextCanonical (execFreezeGate gang cause o d s) := by
  grind [execFreezeGate, privDone_canonical, freezeRest_canonical, after_mem, nextCanonical_next, State.Canonical]

theorem saveNow_mem (s : State) (gang : Nat) : (s.saveNow gang).mem = s.mem := by
  grind [State.saveNow, modGang_mem]

theorem putNext_canonical (s : State) (gang : Nat) (hs : s.Canonical) : (s.putNext gang).Canonical := by
  grind [State.putNext, modGang_mem, putRecord_canonical, after_mem, State.Canonical]

theorem execSaveWritten_canonical (gang : Nat) (cause : FreezeCause) (o : Origin) (d : Name) (s : State) (hs : s.Canonical) :
    nextCanonical (execSaveWritten gang cause o d s) := by
  grind [execSaveWritten, privDone_canonical, after_mem, putNext_canonical, saveNow_mem, nextCanonical_next, State.Canonical]

/-! ### Resuming (R317) -/

theorem restoreCore_canonical (s : State) (g c : Nat) (hs : s.Canonical) : (s.restoreCore g c).Canonical := by
  grind [State.restoreCore, displace_canonical, voidCore_mem, write_canonical, setCore_mem, State.Canonical]

theorem refill_mem (s : State) (c : Nat) : (s.refill c).mem = s.mem := by
  grind [State.refill, fillLine_mem, foldl_mem]

theorem execGangResume_canonical (gang : Nat) (s : State) (hs : s.Canonical) : nextCanonical (execGangResume gang s) := by
  grind [execGangResume, after_mem, restoreCore_canonical, modCore_mem, refill_mem, releaseHeld_canonical, setIslands_mem,
    privDone_canonical, foldl_canonical, nextCanonical_next, State.Canonical]

/-! ### Slices and priority (R299) -/

theorem yieldGang_mem (s : State) (g : Nat) : (s.yieldGang g).mem = s.mem := rfl

theorem execSliceEnd_canonical (gang : Nat) (s : State) (hs : s.Canonical) : nextCanonical (execSliceEnd gang s) := by
  grind [execSliceEnd, yieldGang_mem, after_mem, modGang_mem, nextCanonical_next, State.Canonical]

theorem execPriorityPreempt_canonical (gang launch : Nat) (s : State) (hs : s.Canonical) :
    nextCanonical (execPriorityPreempt gang launch s) := by
  grind [execPriorityPreempt, yieldGang_mem, nextCanonical_next, State.Canonical]

/-! ### Frequencies (R305, R403) -/

theorem execFrequencyChange_canonical (gang : Nat) (level : BitVec 4) (s : State) (hs : s.Canonical) :
    nextCanonical (execFrequencyChange gang level s) := by
  grind [execFrequencyChange, modGang_mem, nextCanonical_next, State.Canonical]

/-! ### The barrier and the exchange phase (R87, R302 to R304) -/

theorem execBarrierClose_canonical (gang : Nat) (s : State) (hs : s.Canonical) : nextCanonical (execBarrierClose gang s) := by
  grind [execBarrierClose, later_mem, setIslands_mem, nextCanonical_next, State.Canonical]

theorem leaveBarrier_mem (s : State) (c : Nat) : (s.leaveBarrier c).mem = s.mem := by
  grind [State.leaveBarrier, later_mem, begin_mem, modCore_mem]

theorem execExchangePhaseEnd_canonical (gang : Nat) (s : State) (hs : s.Canonical) :
    nextCanonical (execExchangePhaseEnd gang s) := by
  grind [execExchangePhaseEnd, later_mem, leaveBarrier_mem, setIslands_mem, after_mem, foldl_canonical, nextCanonical_next,
    State.Canonical]

/-! ### The owner's actions (R321) -/

theorem clearArea_canonical (s : State) (v : BitVec 6) (area : Nat) (hs : s.Canonical) : (s.clearArea v area).Canonical := by
  grind [State.clearArea, write_canonical]

theorem execFaultActionThaw_canonical (vf : BitVec 6) (area : Nat) (s : State) (hs : s.Canonical) :
    nextCanonical (execFaultActionThaw vf area s) := by
  grind [execFaultActionThaw, after_mem, clearArea_canonical, foldl_canonical, nextCanonical_next, State.Canonical]

theorem restart_canonical (s : State) (g : Nat) (hs : s.Canonical) : (s.restart g).Canonical := by
  grind [State.restart, after_mem, modLaunch_mem, releaseGang_canonical, State.Canonical]

theorem execFaultActionRestart_canonical (vf : BitVec 6) (area : Nat) (s : State) (hs : s.Canonical) :
    nextCanonical (execFaultActionRestart vf area s) := by
  grind [execFaultActionRestart, after_mem, clearArea_canonical, restart_canonical, foldl_canonical, nextCanonical_next,
    State.Canonical]

theorem abortGang_canonical (s : State) (g : Nat) (hs : s.Canonical) : (s.abortGang g).Canonical := by
  grind [State.abortGang, endLaunch_mem, releaseGang_canonical, State.Canonical]

theorem execFaultActionAbort_canonical (vf : BitVec 6) (area : Nat) (s : State) (hs : s.Canonical) :
    nextCanonical (execFaultActionAbort vf area s) := by
  grind [execFaultActionAbort, after_mem, clearArea_canonical, abortGang_canonical, foldl_canonical, nextCanonical_next,
    State.Canonical]

/-! ### Errors in shared structures (R322, R398) -/

theorem errorRecord_canonical (s : State) (v : BitVec 6) (structureId : Nat) (gangs : List Nat) (hs : s.Canonical) :
    (s.errorRecord v structureId gangs).Canonical := by
  grind [State.errorRecord, send_mem, putRecord_canonical, after_mem, modGang_mem, freezeRest_canonical, foldl_canonical,
    State.Canonical]

theorem spoil_mem (s : State) (structureId : Nat) (u : UnitRef) : (s.spoil structureId u).mem = s.mem := by
  unfold State.spoil
  grind [modCore_mem]

theorem execSharedStructureError_canonical (structureId : BitVec 8) (q : BitVec 2) (u : UnitRef) (s : State)
    (hs : s.Canonical) : nextCanonical (execSharedStructureError structureId q u s) := by
  grind [execSharedStructureError, errorRecord_canonical, spoil_mem, foldl_canonical, nextCanonical_next, State.Canonical]

/-! ### Host accesses to device memory (R313, R394) -/

theorem hostWrite_canonical (s : State) (v : BitVec 6) (addr : Nat) (bytes : List Byte) (hs : s.Canonical) :
    (s.hostWrite v addr bytes).Canonical := by
  grind [State.hostWrite, noteAction_mem, writeUser_canonical, foldl_canonical_fst, State.Canonical]

theorem hostAccess_canonical (s : State) (v : BitVec 6) (addr : Nat) (write : Option (List Byte)) (len : Nat)
    (hs : s.Canonical) : (s.hostAccess v addr write len).Canonical := by
  unfold State.hostAccess
  grind [hostWrite_canonical, send_mem, State.Canonical]

theorem execHostMemAccess_canonical (vf : BitVec 6) (addr : Nat) (write : Option (List Byte)) (len : Nat) (s : State)
    (hs : s.Canonical) : nextCanonical (execHostMemAccess vf addr write len s) := by
  grind [execHostMemAccess, send_mem, modVf_mem, hostAccess_canonical, nextCanonical_next, State.Canonical]

theorem execRegisterWrite_canonical (vf : BitVec 6) (off : Nat) (val : Word) (s : State) (hs : s.Canonical) :
    nextCanonical (execRegisterWrite vf off val s) := by
  grind [execRegisterWrite, after_mem, modVf_mem, write_canonical, nextCanonical_next, State.Canonical]

/-! ### Privileged words (R325) -/

theorem privOn_canonical {f : Origin → Word → Word → Op PrivAns} (hf : ∀ o x y, (f o x y).Keeps) (w : Walker) (h : Hdr)
    (d a b : Name) (s : State) (hs : s.Canonical) : nextCanonical (privOn w h d a b f s) := by
  refine issue_canonical (fun o => ?_) w h 1 s hs
  refine keeps_bind (keeps_getCore o) fun k => keeps_bind (keeps_need _) fun _ =>
    keeps_bind (srcX_keeps ..) fun x => keeps_bind (srcX_keeps ..) fun y => keeps_bind (reserve_keeps o d) fun _ =>
    keeps_bind (hf o x y) fun r => keeps_bind (keeps_modify fun _ h => h) fun _ => ?_
  cases r with
  | done v lat => exact keeps_bind (keeps_modify fun _ h => h) fun _ => keeps_pure _
  | later => exact keeps_pure _

theorem privWord_canonical {f : Origin → Word → Word → Op PrivAns} (hf : ∀ o x y, (f o x y).Keeps) (h : Hdr)
    (d a b : Name) (s : State) (hs : s.Canonical) : nextCanonical (privWord h d a b f s) :=
  privOn_canonical hf .C h d a b s hs

/-! ### Generations (R285, R287, R326) -/

theorem advanceGen_canonical (s : State) (v : BitVec 6) (c : Nat) (hs : s.Canonical) : (s.advanceGen v c).1.Canonical := by
  grind [State.advanceGen, modVf_mem, abortGang_canonical, endLaunch_mem, releaseGalley_mem, foldl_canonical, State.Canonical]

theorem tryGen_canonical {s : State} {v : BitVec 6} {r : State × Nat × Nat} (e : s.tryGen v = some r) (hs : s.Canonical) :
    r.1.Canonical := by
  obtain ⟨c, -, rfl⟩ := Option.map_eq_some_iff.1 e
  exact advanceGen_canonical _ _ _ hs

theorem execGenadv_canonical (h : Hdr) (d a : Name) (s : State) (hs : s.Canonical) : nextCanonical (execGenadv h d a s) := by
  refine privWord_canonical (fun o x _ => keeps_get_bind fun s hs => ?_) h d a (.x 0) s hs
  split
  · exact keeps_pure _
  · refine keeps_ite (keeps_pure _) (keeps_ite (keeps_pure _) ?_)
    split
    · next e => exact keeps_bind (keeps_set (tryGen_canonical e hs)) fun _ => keeps_pure _
    · exact keeps_bind (keeps_modify fun _ h => h) fun _ => keeps_pure _

/-! ### Laps and the resurfacer (R287, R310) -/

theorem voidStale_canonical (s : State) (hs : s.Canonical) : s.voidStale.Canonical := wf_filter _ hs

theorem execResurfaceUnit_canonical (u : UnitRef) (s : State) (hs : s.Canonical) : nextCanonical (execResurfaceUnit u s) := by
  unfold execResurfaceUnit
  rw [nextCanonical_next]
  split
  case h_2 => exact wf_filter _ hs
  all_goals exact hs

theorem wakeLap_canonical (s : State) (hs : s.Canonical) : s.wakeLap.Canonical := by
  unfold State.wakeLap
  refine foldl_canonical (fun t w ht => privDone_canonical _ _ _ _ ht) _ (foldl_canonical (fun t w ht => ?_) _ hs)
  split
  · next e => exact tryGen_canonical e ht
  · exact ht

theorem execLapEnd_canonical (s : State) (hs : s.Canonical) : nextCanonical (execLapEnd s) := by
  grind [execLapEnd, voidStale_canonical, after_mem, wakeLap_canonical, nextCanonical_next, State.Canonical]

theorem execLapw_canonical (h : Hdr) (d : Name) (s : State) (hs : s.Canonical) : nextCanonical (execLapw h d s) := by
  grind [execLapw, privWord_canonical, keeps_pure, keeps_bind, keeps_modify, State.Canonical]

/-! ### PSET (R306, R311, R312, R327) -/

theorem setStatus_mem (s : State) (v : BitVec 6) (st : VfState) : (s.setStatus v st).mem = s.mem := by
  grind [State.setStatus, send_mem, modVf_mem]

theorem execPsetMap_canonical (h : Hdr) (d a b : Name) (s : State) (hs : s.Canonical) :
    nextCanonical (execPsetMap h d a b s) := by
  grind [execPsetMap, privWord_canonical, modVf_mem, send_mem, keeps_pure, keeps_bind, keeps_get_bind, keeps_modify,
    State.Canonical]

theorem dirtyReport_mem (s : State) (v : BitVec 6) : (s.dirtyReport v).2.mem = s.mem := by
  grind [State.dirtyReport, modVf_mem]

theorem stopGo_canonical (s : State) (o : Origin) (v : BitVec 6) (report : Nat) (d : Name) (hs : s.Canonical) :
    (s.stopGo o v report d).Canonical := by
  unfold State.stopGo
  split
  · exact hs
  · refine canonical_of_mem (foldl_mem (fun t _ => send_mem t _) _ _) (wf_memWrite _ _ ?_)
    rw [dirtyReport_mem]; exact hs

theorem stopEnd_canonical (s : State) (o : Origin) (v : BitVec 6) (d : Name) (hs : s.Canonical) :
    (s.stopEnd o v d).Canonical := by
  grind [State.stopEnd, privDone_canonical, modVf_mem, setStatus_mem, State.Canonical]

theorem execPsetStop_canonical (h : Hdr) (d a b : Name) (s : State) (hs : s.Canonical) :
    nextCanonical (execPsetStop h d a b s) := by
  grind [execPsetStop, privWord_canonical, after_mem, setStatus_mem, keeps_pure, keeps_bind, keeps_get_bind, keeps_modify,
    State.Canonical]

theorem execPsetRun_canonical (h : Hdr) (d a : Name) (s : State) (hs : s.Canonical) : nextCanonical (execPsetRun h d a s) := by
  grind [execPsetRun, privWord_canonical, modVf_mem, setStatus_mem, hostAccess_canonical, foldl_canonical, keeps_pure,
    keeps_bind, keeps_get_bind, keeps_set, State.Canonical]

/-! ### FRZ and THAW (R328) -/

theorem execFrz_canonical (h : Hdr) (d a b : Name) (s : State) (hs : s.Canonical) : nextCanonical (execFrz h d a b s) := by
  refine privWord_canonical (fun o x y => keeps_get_bind fun s _ => ?_) h d a b s hs
  split
  · exact keeps_pure _
  · split
    · exact keeps_pure _
    · split
      · exact keeps_pure _
      · exact keeps_pure _
      · exact keeps_ite (keeps_pure _) (keeps_bind (keeps_modify fun _ h => h) fun _ => keeps_pure _)

theorem execThaw_canonical (h : Hdr) (d a b : Name) (s : State) (hs : s.Canonical) : nextCanonical (execThaw h d a b s) := by
  refine privWord_canonical (fun o x y => keeps_get_bind fun s _ => ?_) h d a b s hs
  split
  · exact keeps_pure _
  · refine keeps_ite (keeps_pure _) ?_
    split
    · exact keeps_pure _
    · next v _ g gv _ =>
      refine keeps_ite (keeps_pure _) (keeps_ite (keeps_pure _) (keeps_bind (keeps_need _) fun _ =>
        keeps_bind (keeps_modify fun t ht => ?_) fun _ => keeps_pure _))
      refine canonical_of_mem ((after_mem ..).trans (modGang_mem ..)) ?_
      split
      · exact clearArea_canonical _ _ _ ht
      · exact canonical_of_mem (modGang_mem ..) ht

/-! ### Keys and policy (R329, R330) -/

theorem execKeyld_canonical (h : Hdr) (d a b : Name) (s : State) (hs : s.Canonical) : nextCanonical (execKeyld h d a b s) := by
  refine privWord_canonical (fun o x y => keeps_get_bind fun s _ => ?_) h d a b s hs
  split
  · exact keeps_pure _
  · split
    · exact keeps_pure _
    · refine keeps_ite (keeps_pure _) ?_
      split
      · exact keeps_pure _
      · exact keeps_bind (keeps_modify fun _ h => h) fun _ => keeps_pure _

theorem execKeyerase_canonical (h : Hdr) (all : Bool) (d a b : Name) (s : State) (hs : s.Canonical) :
    nextCanonical (execKeyerase h all d a b s) := by
  grind [execKeyerase, privWord_canonical, keeps_pure, keeps_bind, keeps_get_bind, keeps_modify, State.Canonical]

theorem execPolset_canonical (h : Hdr) (d a b : Name) (s : State) (hs : s.Canonical) :
    nextCanonical (execPolset h d a b s) := by
  grind [execPolset, privWord_canonical, modVf_mem, keeps_pure, keeps_bind, keeps_get_bind, keeps_modify, State.Canonical]

/-! ### Coarsened counters (R341) -/

theorem execCoarsenedCounterSample_canonical (s : State) (hs : s.Canonical) : nextCanonical (execCoarsenedCounterSample s) := by
  grind [execCoarsenedCounterSample, after_mem, nextCanonical_next, State.Canonical]

/-! ### FROUT (R390) -/

theorem setTable_mem (s : State) (v : Bool) (t : RouteTbl) : (s.setTable v t).mem = s.mem := by
  grind [State.setTable]

theorem execFroutLd_canonical (h : Hdr) (d a b : Name) (s : State) (hs : s.Canonical) :
    nextCanonical (execFroutLd h d a b s) := by
  refine privOn_canonical (fun o x y => keeps_get_bind fun s _ => keeps_ite (keeps_pure _) (keeps_bind (keeps_need _) fun _ =>
    keeps_bind (claimBanks_keeps ..) fun _ => keeps_ite (keeps_pure _) ?_)) .F h d a b s hs
  split
  · exact keeps_pure _
  · exact keeps_bind (keeps_modify fun t ht => canonical_of_mem (setTable_mem ..) ht) fun _ => keeps_pure _

theorem useTable_mem (s : State) (v : Bool) : (s.useTable v).mem = s.mem := by
  grind [State.useTable, setTable_mem]

theorem execFrout_canonical (h : Hdr) (d a : Name) (s : State) (hs : s.Canonical) : nextCanonical (execFrout h d a s) := by
  grind [execFrout, privOn_canonical, useTable_mem, keeps_modifyCore, keeps_pure, keeps_bind, keeps_get_bind, keeps_modify,
    State.Canonical]

/-! ### FPLOW (R365, R391) -/

theorem execFplow_canonical (h : Hdr) (d a b : Name) (s : State) (hs : s.Canonical) : nextCanonical (execFplow h d a b s) := by
  grind [execFplow, privOn_canonical, pumpAll_mem, plough_mem, foldl_canonical, keeps_pure, keeps_bind, keeps_get_bind,
    keeps_set, State.Canonical]

theorem execFplowFree_canonical (h : Hdr) (d a b : Name) (s : State) (hs : s.Canonical) :
    nextCanonical (execFplowFree h d a b s) := by
  grind [execFplowFree, privOn_canonical, setTable_mem, keeps_pure, keeps_bind, keeps_get_bind, keeps_modify, State.Canonical]

/-! ### FLNK (R367, R392) -/

theorem linkWord_canonical {f : Origin → Nat → Op PrivAns} (hf : ∀ o p, (f o p).Keeps) (h : Hdr) (d a b : Name)
    (needs : Nat → FPort → Bool) (s : State) (hs : s.Canonical) : nextCanonical (linkWord h d a b needs f s) := by
  refine privOn_canonical (fun o x _ => keeps_get_bind fun s _ => ?_) .F h d a b s hs
  split
  · exact keeps_pure _
  · split
    · exact keeps_pure _
    · exact hf o _

theorem driveTo_keeps (o : Origin) (d : Name) (p : Nat) (st : PortState) (f : FPort → FPort) : (driveTo o d p st f).Keeps := by
  grind [driveTo, setPortState_mem, modPort_mem, keeps_pure, keeps_bind, keeps_modify, State.Canonical]

theorem execFlnkDown_canonical (h : Hdr) (d a b : Name) (s : State) (hs : s.Canonical) :
    nextCanonical (execFlnkDown h d a b s) := by
  grind [execFlnkDown, privOn_canonical, pumpAll_mem, portDown_canonical, keeps_pure, keeps_bind, keeps_get_bind, keeps_set,
    State.Canonical]

theorem execFlnkTrain_canonical (h : Hdr) (d a b : Name) (s : State) (hs : s.Canonical) :
    nextCanonical (execFlnkTrain h d a b s) := by
  grind [execFlnkTrain, linkWord_canonical, driveTo_keeps]

theorem execFlnkDrain_canonical (h : Hdr) (d a b : Name) (s : State) (hs : s.Canonical) :
    nextCanonical (execFlnkDrain h d a b s) := by
  grind [execFlnkDrain, linkWord_canonical, driveTo_keeps, pumpAll_mem, plough_mem, modPort_mem, keeps_pure, keeps_bind,
    keeps_modify, State.Canonical]

theorem execFlnkRelock_canonical (h : Hdr) (d a b : Name) (s : State) (hs : s.Canonical) :
    nextCanonical (execFlnkRelock h d a b s) := by
  grind [execFlnkRelock, linkWord_canonical, driveTo_keeps]

theorem execFlnkQuery_canonical (h : Hdr) (d a b : Name) (s : State) (hs : s.Canonical) :
    nextCanonical (execFlnkQuery h d a b s) := by
  grind [execFlnkQuery, linkWord_canonical, keeps_pure, keeps_get_bind]

/-! ### Queues, ports and banks -/

theorem execQueueEntryArrives_canonical (core : Nat) (q : BitVec 5) (age : Nat) (val : Word) (tag : Tag) (s : State)
    (hs : s.Canonical) : nextCanonical (execQueueEntryArrives core q age val tag s) := by
  grind [execQueueEntryArrives, fillPlace_mem, nextCanonical_next, State.Canonical]

theorem execPortPrefetch_canonical (core : Nat) (p : BitVec 4) (s : State) (hs : s.Canonical) :
    nextCanonical (execPortPrefetch core p s) := by
  grind [execPortPrefetch, modCore_mem, later_mem, nextCanonical_next, State.Canonical]

theorem arbitrate_canonical (s : State) (core : Nat) (q : BankReq) (hs : s.Canonical) : (s.arbitrate core q).1.Canonical := by
  grind [State.arbitrate, matTry_canonical, grant_mem, State.Canonical]

theorem execBankArbitration_canonical (core : Nat) (reqs : List BankReq) (s : State) (hs : s.Canonical) :
    nextCanonical (execBankArbitration core reqs s) := by
  grind [execBankArbitration, arbitrate_canonical, later_mem, foldl_canonical_fst, nextCanonical_next, State.Canonical]

/-! ### Releases (R221 to R223) -/

theorem groupHears_canonical (s : State) (o : Origin) (hs : s.Canonical) : (s.groupHears o).Canonical := by
  grind [State.groupHears, collGo_canonical]

theorem execReleaseTakesEffect_canonical (o : Origin) (sc : Scope) (age : Nat) (work : RelWork) (s : State) (hs : s.Canonical) :
    nextCanonical (execReleaseTakesEffect o sc age work s) := by
  unfold execReleaseTakesEffect
  grind [later_mem, after_mem, finish_canonical, unblock_mem, doneF_canonical, handOver_mem, fbarBegin_canonical,
    groupHears_canonical, modGalley_mem, stopGo_canonical, stopEnd_canonical, nextCanonical_next, State.Canonical]

/-! ### Galleys (R236) -/

theorem execGalleyStart_canonical (id : Nat) (s : State) (hs : s.Canonical) : nextCanonical (execGalleyStart id s) := by
  unfold execGalleyStart
  split
  · exact nextCanonical_next.2 hs
  · next g _ =>
    refine nextCanonical_next.2 (canonical_of_mem ?_ hs)
    have hc : ((s.collStart id g).getD (s.after 1 (.galleyStart id))).mem = s.mem := by
      cases e : s.collStart id g with
      | none => rfl
      | some t => exact collStart_mem _ _ _ _ e
    grind [after_mem, startPut_mem, tryCopy_mem]

theorem execGalleyLineWrite_canonical (id : Nat) (s : State) (hs : s.Canonical) : nextCanonical (execGalleyLineWrite id s) := by
  grind [execGalleyLineWrite, putGo_mem, collGo_canonical, moveLine_canonical, nextCanonical_next, State.Canonical]

/-! ### Answers to fabric operations (R358 to R361) -/

theorem opDone_mem (s : State) (key : Nat) (f : FabOp) (status : Byte) (value : Word) :
    (s.opDone key f status value).mem = s.mem := by
  grind [State.opDone, modHome_mem, after_mem, modGalley_mem, countHome_mem, collAnswer_mem]

theorem rackFor_mem (s : State) (p : Packet) (r : Response) : (s.rackFor p r).mem = s.mem := by
  grind [State.rackFor, sendResp_mem]

theorem execResponseArrive_canonical (r : Response) (s : State) (hs : s.Canonical) :
    nextCanonical (execResponseArrive r s) := by
  grind [execResponseArrive, after_mem, rackFor_mem, opEvent_mem, opDone_mem, nextCanonical_next, State.Canonical]

theorem execReissue_canonical (core : Nat) (tag : BitVec 16) (s : State) (hs : s.Canonical) :
    nextCanonical (execReissue core tag s) := by
  grind [execReissue, after_mem, sendOut_mem, nextCanonical_next, State.Canonical]

theorem execTimeout_canonical (core : Nat) (tag : BitVec 16) (s : State) (hs : s.Canonical) :
    nextCanonical (execTimeout core tag s) := by
  grind [execTimeout, after_mem, opDone_mem, opEvent_mem, nextCanonical_next, State.Canonical]

/-! ### Pool ports (R398) -/

theorem execPoolPortDown_canonical (port : BitVec 4) (s : State) (hs : s.Canonical) :
    nextCanonical (execPoolPortDown port s) := by
  grind [execPoolPortDown, after_mem, loseLine_mem, send_mem, errorRecord_canonical, foldl_canonical, nextCanonical_next,
    State.Canonical]

theorem execPoolPortRetrain_canonical (port : BitVec 4) (s : State) (hs : s.Canonical) :
    nextCanonical (execPoolPortRetrain port s) := by
  grind [execPoolPortRetrain, nextCanonical_next, State.Canonical]

/-! ### Heat and power (R305, R403, R404) -/

theorem allIslands_mem (s : State) : (s.allIslands).mem = s.mem := by
  grind [State.allIslands, setIslands_mem]

theorem execThermalEmergency_canonical (s : State) (hs : s.Canonical) : nextCanonical (execThermalEmergency s) := by
  grind [execThermalEmergency, allIslands_mem, nextCanonical_next, State.Canonical]

theorem execThermalEmergencyEnd_canonical (s : State) (hs : s.Canonical) : nextCanonical (execThermalEmergencyEnd s) := by
  grind [execThermalEmergencyEnd, allIslands_mem, nextCanonical_next, State.Canonical]

theorem execSupplyEmergency_canonical (level : BitVec 4) (s : State) (hs : s.Canonical) :
    nextCanonical (execSupplyEmergency level s) := by
  grind [execSupplyEmergency, allIslands_mem, nextCanonical_next, State.Canonical]

/-! ### Bring-up (R399, R400) -/

theorem enterPhase_mem (s : State) (p : BitVec 4) : (s.enterPhase p).mem = s.mem := rfl

theorem startFirmware_canonical (s : State) (image : List Byte) (c : Nat) (hs : s.Canonical) :
    (s.startFirmware image c).Canonical := by
  grind [State.startFirmware, setCore_mem, write_canonical, State.Canonical]

theorem stopCores_mem (s : State) (which : Nat → Bool) : (s.stopCores which).mem = s.mem := rfl

theorem bootFailed_mem (s : State) : (s.bootFailed).mem = s.mem := rfl

theorem nextPhase_mem (s : State) : (s.nextPhase).mem = s.mem := by
  grind [State.nextPhase, after_mem, enterPhase_mem, allIslands_mem]

theorem trainFabric_mem (s : State) : (s.trainFabric).mem = s.mem := by
  grind [State.trainFabric, setPortState_mem, foldl_mem]

theorem execBootPhase_canonical (ok : Bool) (s : State) (hs : s.Canonical) : nextCanonical (execBootPhase ok s) := by
  grind [execBootPhase, nextPhase_mem, trainFabric_mem, bootFailed_mem, nextCanonical_next, State.Canonical]

/-! ### The mailbox (R401, R402) -/

theorem doorbell_canonical {act : State → State × BitVec 16 × List Byte} (ha : ∀ t : State, t.Canonical → (act t).1.Canonical)
    (s : State) (req : List Byte) (hs : s.Canonical) : (s.doorbell req act).Canonical := by
  unfold State.doorbell
  dsimp only
  split
  · exact hs
  · exact ha _ hs

theorem notAccepted_mem (s : State) : (notAccepted s).1.mem = s.mem := by
  grind [notAccepted]

theorem execMailboxComplete_canonical (code : BitVec 16) (rsp : List Byte) (s : State) (hs : s.Canonical) :
    nextCanonical (execMailboxComplete code rsp s) := by
  grind [execMailboxComplete, nextCanonical_next, State.Canonical]

theorem load_canonical (s : State) (patch press config : List Byte) (hs : s.Canonical) :
    (s.load patch press config).1.Canonical := by
  grind [State.load, notAccepted_mem, enterPhase_mem, startFirmware_canonical, foldl_canonical, State.Canonical]

theorem execMailboxLoad_canonical (patch press config : Nat × Nat) (s : State) (hs : s.Canonical) :
    nextCanonical (execMailboxLoad patch press config s) := by
  refine nextCanonical_next.2 (doorbell_canonical (fun t ht => ?_) s _ hs)
  split
  · exact load_canonical _ _ _ _ ht
  · exact canonical_of_mem (notAccepted_mem t) ht

theorem execMailboxAttest_canonical (nonce : List Byte) (vf : BitVec 8) (s : State) (hs : s.Canonical) :
    nextCanonical (execMailboxAttest nonce vf s) := by
  refine nextCanonical_next.2 (doorbell_canonical (fun t ht => ?_) s _ hs)
  dsimp only
  split
  · exact ht
  · exact canonical_of_mem (notAccepted_mem t) ht

theorem execMailboxLimit_canonical (watts : Nat) (s : State) (hs : s.Canonical) : nextCanonical (execMailboxLimit watts s) := by
  refine nextCanonical_next.2 (doorbell_canonical (fun t ht => ?_) s _ hs)
  split
  · exact ht
  · exact canonical_of_mem (notAccepted_mem t) ht

theorem execMailboxThermal_canonical (s : State) (hs : s.Canonical) : nextCanonical (execMailboxThermal s) :=
  nextCanonical_next.2 (doorbell_canonical (fun _ ht => ht) s [] hs)

theorem execMailboxProofRequest_canonical (cmd : BitVec 8) (req : List Byte) (s : State) (hs : s.Canonical) :
    nextCanonical (execMailboxProofRequest cmd req s) := by
  refine nextCanonical_next.2 (doorbell_canonical (fun t ht => ?_) s req hs)
  split
  · exact canonical_of_mem (notAccepted_mem t) ht
  · exact wf_memWrite _ _ ht

/-! ### The sensors and the locked state (R339) -/

theorem execSensorTrip_canonical (s : State) (hs : s.Canonical) : nextCanonical (execSensorTrip s) := by
  grind [execSensorTrip, stopCores_mem, enterPhase_mem, nextCanonical_next, State.Canonical]

theorem execHostReset_canonical (s : State) (hs : s.Canonical) : nextCanonical (execHostReset s) :=
  nextCanonical_next.2 (wf_filter _ hs)

/-! ## Canonical memory: words, events and steps -/

theorem exec_canonical (i : Instr) (s : State) (hs : s.Canonical) : nextCanonical (exec i s) := by
  cases i with
  | nop h => exact execNop_canonical h s hs
  | halt h => exact execHalt_canonical h s hs
  | li h d imm => exact execLi_canonical h d imm s hs
  | liu h d imm => exact execLiu_canonical h d imm s hs
  | trap h code => exact execTrap_canonical h code s hs
  | semi h sem val => exact execSemi_canonical h sem val s hs
  | slipw h window => exact execSlipw_canonical h window s hs
  | view h d a fmt => exact execView_canonical h d a fmt s hs
  | add _ _ _ _ => exact scalar2_canonical _ _ _ _ _ s hs
  | sub _ _ _ _ => exact scalar2_canonical _ _ _ _ _ s hs
  | mul h d a b => exact execMul_canonical h d a b s hs
  | mulh h uns d a b => exact execMulh_canonical h uns d a b s hs
  | and _ _ _ _ => exact scalar2_canonical _ _ _ _ _ s hs
  | or _ _ _ _ => exact scalar2_canonical _ _ _ _ _ s hs
  | xor _ _ _ _ => exact scalar2_canonical _ _ _ _ _ s hs
  | shl _ _ _ _ => exact scalar2_canonical _ _ _ _ _ s hs
  | shr _ _ _ _ => exact scalar2_canonical _ _ _ _ _ s hs
  | sar _ _ _ _ => exact scalar2_canonical _ _ _ _ _ s hs
  | min _ _ _ _ _ => exact scalar2_canonical _ _ _ _ _ s hs
  | max _ _ _ _ _ => exact scalar2_canonical _ _ _ _ _ s hs
  | slt _ _ _ _ => exact scalar2_canonical _ _ _ _ _ s hs
  | sltu _ _ _ _ => exact scalar2_canonical _ _ _ _ _ s hs
  | sel h d a b => exact execSel_canonical h d a b s hs
  | clz _ _ _ => exact scalar1_canonical _ _ _ _ s hs
  | popc _ _ _ => exact scalar1_canonical _ _ _ _ s hs
  | addi _ _ _ _ => exact scalar1_canonical _ _ _ _ s hs
  | andi _ _ _ _ => exact scalar1_canonical _ _ _ _ s hs
  | ori _ _ _ _ => exact scalar1_canonical _ _ _ _ s hs
  | br h cond r off => exact execBr_canonical h cond r off s hs
  | call h cond r off => exact execCall_canonical h cond r off s hs
  | ret h cond r => exact execRet_canonical h cond r s hs
  | loop h cond r off => exact execLoop_canonical h cond r off s hs
  | ld h size sx rs d a b => exact execLd_canonical h size sx rs d a b s hs
  | st h size rs d a b => exact execSt_canonical h size rs d a b s hs
  | lda h size sx rs sc d a => exact execLda_canonical h size sx rs sc d a s hs
  | stl h size rs sc d a => exact execStl_canonical h size rs sc d a s hs
  | mark h => exact execMark_canonical h s hs
  | fence h sc => exact execFence_canonical h sc s hs
  | spl h size d off => exact execSpl_canonical h size d off s hs
  | fil h size d off => exact execFil_canonical h size d off s hs
  | tdef h card t => exact execTdef_canonical h card t s hs
  | trd h d t field => exact execTrd_canonical h d t field s hs
  | launch h d a b queue => exact execLaunch_canonical h d a b queue s hs
  | waitl h d a => exact execWaitl_canonical h d a s hs
  | aadd _ _ _ _ _ => exact atomWord_canonical _ _ _ _ _ _ _ s hs
  | amin _ _ _ _ _ _ => exact atomWord_canonical _ _ _ _ _ _ _ s hs
  | amax _ _ _ _ _ _ => exact atomWord_canonical _ _ _ _ _ _ _ s hs
  | aand _ _ _ _ _ => exact atomWord_canonical _ _ _ _ _ _ _ s hs
  | aor _ _ _ _ _ => exact atomWord_canonical _ _ _ _ _ _ _ s hs
  | axchg _ _ _ _ _ => exact atomWord_canonical _ _ _ _ _ _ _ s hs
  | acas _ _ _ _ _ => exact atomWord_canonical _ _ _ _ _ _ _ s hs
  | tktake h d n => exact execTktake_canonical h d n s hs
  | tkwait h sc n a => exact execTkwait_canonical h sc n a s hs
  | tknext h sc n => exact execTknext_canonical h sc n s hs
  | genadv h d a => exact execGenadv_canonical h d a s hs
  | psetRun h d a => exact execPsetRun_canonical h d a s hs
  | psetStop h d a b => exact execPsetStop_canonical h d a b s hs
  | psetMap h d a b => exact execPsetMap_canonical h d a b s hs
  | frz h d a b => exact execFrz_canonical h d a b s hs
  | thaw h d a b => exact execThaw_canonical h d a b s hs
  | keyld h d a b => exact execKeyld_canonical h d a b s hs
  | keyerase h all d a b => exact execKeyerase_canonical h all d a b s hs
  | lapw h d => exact execLapw_canonical h d s hs
  | polset h d a b => exact execPolset_canonical h d a b s hs
  | rep h tag count regstep addrstep => exact execRep_canonical h tag count regstep addrstep s hs
  | fork h => exact execFork_canonical h s hs
  | rdv h => exact execRdv_canonical h s hs
  | ssb h => exact execSsb_canonical h s hs
  | vadd _ _ _ _ _ _ _ _ => exact issue_canonical (fun _ => viewBinary_keeps ..) _ _ _ s hs
  | vsub _ _ _ _ _ _ _ _ => exact issue_canonical (fun _ => viewBinary_keeps ..) _ _ _ s hs
  | vmul _ _ _ _ _ _ _ _ => exact issue_canonical (fun _ => viewBinary_keeps ..) _ _ _ s hs
  | vfma _ _ _ _ _ _ _ _ => exact issue_canonical (fun _ => viewBinary_keeps ..) _ _ _ s hs
  | vmin _ _ _ _ _ _ _ => exact issue_canonical (fun _ => viewBinary_keeps ..) _ _ _ s hs
  | vmax _ _ _ _ _ _ _ => exact issue_canonical (fun _ => viewBinary_keeps ..) _ _ _ s hs
  | vabs _ _ _ _ _ _ => exact issue_canonical (fun _ => viewUnary_keeps ..) _ _ _ s hs
  | vneg _ _ _ _ _ _ => exact issue_canonical (fun _ => viewUnary_keeps ..) _ _ _ s hs
  | vand _ _ _ _ _ _ => exact issue_canonical (fun _ => viewBinary_keeps ..) _ _ _ s hs
  | vor _ _ _ _ _ _ => exact issue_canonical (fun _ => viewBinary_keeps ..) _ _ _ s hs
  | vxor _ _ _ _ _ _ => exact issue_canonical (fun _ => viewBinary_keeps ..) _ _ _ s hs
  | vshl _ _ _ _ _ _ => exact issue_canonical (fun _ => viewBinary_keeps ..) _ _ _ s hs
  | vshr _ _ _ _ _ _ => exact issue_canonical (fun _ => viewBinary_keeps ..) _ _ _ s hs
  | vsar _ _ _ _ _ _ => exact issue_canonical (fun _ => viewBinary_keeps ..) _ _ _ s hs
  | vcmp _ _ _ _ _ _ _ _ => exact issue_canonical (fun _ => viewBinary_keeps ..) _ _ _ s hs
  | vsel _ _ _ _ _ => exact issue_canonical (fun _ => viewBinary_keeps ..) _ _ _ s hs
  | vcvt _ _ _ _ _ _ => exact issue_canonical (fun _ => viewUnary_keeps ..) _ _ _ s hs
  | vrnd _ _ _ _ _ => exact issue_canonical (fun _ => viewUnary_keeps ..) _ _ _ s hs
  | vexp2 _ _ _ _ _ _ => exact specialWord_canonical _ _ _ _ _ _ _ s hs
  | vlog2 _ _ _ _ _ _ => exact specialWord_canonical _ _ _ _ _ _ _ s hs
  | vrcp _ _ _ _ _ _ => exact specialWord_canonical _ _ _ _ _ _ _ s hs
  | vrsq _ _ _ _ _ _ => exact specialWord_canonical _ _ _ _ _ _ _ s hs
  | vmov _ _ _ _ => exact issue_canonical (fun _ => viewUnary_keeps ..) _ _ _ s hs
  | vsplat h d a => exact execVsplat_canonical h d a s hs
  | viota h flat d a => exact execViota_canonical h flat d a s hs
  | vgets h tea d a b => exact execVgets_canonical h tea d a b s hs
  | vgetsSt h clr d => exact execVgetsSt_canonical h clr d s hs
  | vrotr h tea d a n => exact execVrotr_canonical h tea d a n s hs
  | vrotc h tea d a n => exact execVrotc_canonical h tea d a n s hs
  | vbcr h tea d a n => exact execVbcr_canonical h tea d a n s hs
  | vbcc h tea d a n => exact execVbcc_canonical h tea d a n s hs
  | vredr _ _ _ _ _ _ => exact issue_canonical (fun _ => viewUnary_keeps ..) _ _ _ s hs
  | vredc _ _ _ _ _ _ => exact issue_canonical (fun _ => viewUnary_keeps ..) _ _ _ s hs
  | vscanr _ _ _ _ _ _ _ => exact issue_canonical (fun _ => viewUnary_keeps ..) _ _ _ s hs
  | vcomp _ _ _ _ _ => exact issue_canonical (fun _ => viewBinary_keeps ..) _ _ _ s hs
  | vlut h tea sat hi d a k => exact execVlut_canonical h tea sat hi d a k s hs
  | vacc h tea d a => exact execVacc_canonical h tea d a s hs
  | vsfc _ _ _ _ _ _ => exact issue_canonical (fun _ => viewBinary_keeps ..) _ _ _ s hs
  | vld h d base step count => exact execVld_canonical h d base step count s hs
  | vst h d base step count => exact execVst_canonical h d base step count s hs
  | mnest h level a b => exact execMnest_canonical h level a b s hs
  | mopd h card isB src => exact execMopd_canonical h card isB src s hs
  | mfmt h afmt bfmt zp cb cbsel => exact execMfmt_canonical h afmt bfmt zp cb cbsel s hs
  | mdst h d => exact execMdst_canonical h d s hs
  | mgo h acc => exact execMgo_canonical h acc s hs
  | minit _ _ _ => exact tileWord_canonical _ _ _ s hs
  | mzero _ _ => exact tileWord_canonical _ _ _ s hs
  | mnorm _ _ => exact tileWord_canonical _ _ _ s hs
  | mdrain h te fmt zp sat d a vs => exact execMdrain_canonical h te fmt zp sat d a vs s hs
  | mstat h d a row => exact execMstat_canonical h d a row s hs
  | merrq h clr d => exact execMerrq_canonical h clr d s hs
  | mcbld h d a => exact execMcbld_canonical h d a s hs
  | mocinv h => exact execMocinv_canonical h s hs
  | mrsum h sat rnd d a => exact execMrsum_canonical h sat rnd d a s hs
  | xcopy h rel card t => exact execXcopy_canonical h rel card t s hs
  | xcopyv h rel card t => exact execXcopyv_canonical h rel card t s hs
  | xgath h rel card t => exact execXgath_canonical h rel card t s hs
  | xscat h rel card t => exact execXscat_canonical h rel card t s hs
  | xfill h rel card t => exact execXfill_canonical h rel card t s hs
  | xpref h card t => exact execXpref_canonical h card t s hs
  | xfence h => exact execXfence_canonical h s hs
  | xstat h clr d => exact execXstat_canonical h clr d s hs
  | gload _ _ _ => exact loadWord_canonical _ _ _ _ _ s hs
  | gbias _ _ _ => exact loadWord_canonical _ _ _ _ _ s hs
  | gcolr h tea c a b => exact execGcolr_canonical h tea c a b s hs
  | gbeta h a => exact execGbeta_canonical h a s hs
  | gmode h replay bip n => exact execGmode_canonical h replay bip n s hs
  | gseed h a => exact execGseed_canonical h a s hs
  | gclmp h te a b => exact execGclmp_canonical h te a b s hs
  | gfree h tea a => exact execGfree_canonical h tea a s hs
  | gswp h k => exact execGswp_canonical h k s hs
  | grds h d => exact execGrds_canonical h d s hs
  | gcntc h => exact execGcntc_canonical h s hs
  | grdc h d a => exact execGrdc_canonical h d a s hs
  | grdf h d a => exact execGrdf_canonical h d a s hs
  | gxch h card => exact execGxch_canonical h card s hs
  | gstat h clr sel d => exact execGstat_canonical h clr sel d s hs
  | fput h rel card t n => exact execFput_canonical h rel card t n s hs
  | fatom h op dbl uns d a b => exact execFatom_canonical h op dbl uns d a b s hs
  | fpull h card n => exact execFpull_canonical h card n s hs
  | ffence h sc => exact execFfence_canonical h sc s hs
  | fcnt h clr d n => exact execFcnt_canonical h clr d n s hs
  | fbar h sc g => exact execFbar_canonical h sc g s hs
  | fgrp h card g => exact execFgrp_canonical h card g s hs
  | fred h card t g n => exact execFred_canonical h card t g n s hs
  | fbcst h card t g n => exact execFbcst_canonical h card t g n s hs
  | fa2a h card t g n => exact execFa2a_canonical h card t g n s hs
  | rpart h card t g n => exact execRpart_canonical h card t g n s hs
  | fstat h sel d => exact execFstat_canonical h sel d s hs
  | frout h d a => exact execFrout_canonical h d a s hs
  | froutLd h d a b => exact execFroutLd_canonical h d a b s hs
  | fplow h d a b => exact execFplow_canonical h d a b s hs
  | fplowFree h d a b => exact execFplowFree_canonical h d a b s hs
  | flnkDown h d a b => exact execFlnkDown_canonical h d a b s hs
  | flnkTrain h d a b => exact execFlnkTrain_canonical h d a b s hs
  | flnkDrain h d a b => exact execFlnkDrain_canonical h d a b s hs
  | flnkRelock h d a b => exact execFlnkRelock_canonical h d a b s hs
  | flnkQuery h d a b => exact execFlnkQuery_canonical h d a b s hs
  | trapFreeze o cls code addr => exact execTrapFreeze_canonical o cls code addr s hs
  | gangFreezeFollow gang => exact execGangFreezeFollow_canonical gang s hs
  | scalarResultLands o d val => exact execScalarResultLands_canonical o d val s hs
  | vectorResultLands o off bytes flags => exact execVectorResultLands_canonical o off bytes flags s hs
  | longLatencyWriteComplete o off bytes => exact execLongLatencyWriteComplete_canonical o off bytes s hs
  | queueEntryArrives core q age val tag => exact execQueueEntryArrives_canonical core q age val tag s hs
  | portPrefetch core p => exact execPortPrefetch_canonical core p s hs
  | bankArbitration core reqs => exact execBankArbitration_canonical core reqs s hs
  | loadPerforms core => exact execLoadPerforms_canonical core s hs
  | storePerforms core => exact execStorePerforms_canonical core s hs
  | releaseTakesEffect o sc age work => exact execReleaseTakesEffect_canonical o sc age work s hs
  | nestStep core => exact execNestStep_canonical core s hs
  | nestEnd core => exact execNestEnd_canonical core s hs
  | operandCacheFill core key => exact execOperandCacheFill_canonical core key s hs
  | pageWalkComplete core vf space write addr => exact execPageWalkComplete_canonical core vf space write addr s hs
  | translationRemoval vf page => exact execTranslationRemoval_canonical vf page s hs
  | galleyStart id => exact execGalleyStart_canonical id s hs
  | galleyAccept id => exact execGalleyAccept_canonical id s hs
  | galleyLineWrite id => exact execGalleyLineWrite_canonical id s hs
  | galleyRetire id => exact execGalleyRetire_canonical id s hs
  | coalescerSend line => exact execCoalescerSend_canonical line s hs
  | poolAck line => exact execPoolAck_canonical line s hs
  | atomicAtWriteQueue o req d remaining => exact execAtomicAtWriteQueue_canonical o req d remaining s hs
  | atomicResultLands o d val => exact execAtomicResultLands_canonical o d val s hs
  | tktakeAtDispenser o tag n d => exact execTktakeAtDispenser_canonical o tag n d s hs
  | ticketLands o d val => exact execTicketLands_canonical o d val s hs
  | dispenserAdvance core tag n => exact execDispenserAdvance_canonical core tag n s hs
  | nowServingBroadcast vf n val => exact execNowServingBroadcast_canonical vf n val s hs
  | tkwaitWake o => exact execTkwaitWake_canonical o s hs
  | launchHandleReady o d val => exact execLaunchHandleReady_canonical o d val s hs
  | waitlWake o d handle => exact execWaitlWake_canonical o d handle s hs
  | kick vf val => exact execKick_canonical vf val s hs
  | registerWrite vf off val => exact execRegisterWrite_canonical vf off val s hs
  | kickAccept vf q => exact execKickAccept_canonical vf q s hs
  | gangStart launch => exact execGangStart_canonical launch s hs
  | kernelEnd core => exact execKernelEnd_canonical core s hs
  | launchRetire launch => exact execLaunchRetire_canonical launch s hs
  | graphChildStart launch => exact execGraphChildStart_canonical launch s hs
  | sliceEnd gang => exact execSliceEnd_canonical gang s hs
  | priorityPreempt gang launch => exact execPriorityPreempt_canonical gang launch s hs
  | gangResume gang => exact execGangResume_canonical gang s hs
  | freezeGate gang cause o d => exact execFreezeGate_canonical gang cause o d s hs
  | saveWritten gang cause o d => exact execSaveWritten_canonical gang cause o d s hs
  | barrierClose gang => exact execBarrierClose_canonical gang s hs
  | exchangePhaseEnd gang => exact execExchangePhaseEnd_canonical gang s hs
  | gxchPublish id => exact execGxchPublish_canonical id s hs
  | gxchFetch id => exact execGxchFetch_canonical id s hs
  | gxchRetire id => exact execGxchRetire_canonical id s hs
  | colourPhase core => exact execColourPhase_canonical core s hs
  | resurfaceUnit u => exact execResurfaceUnit_canonical u s hs
  | lapEnd => exact execLapEnd_canonical s hs
  | faultActionThaw vf area => exact execFaultActionThaw_canonical vf area s hs
  | faultActionRestart vf area => exact execFaultActionRestart_canonical vf area s hs
  | faultActionAbort vf area => exact execFaultActionAbort_canonical vf area s hs
  | sharedStructureError structureId q u => exact execSharedStructureError_canonical structureId q u s hs
  | hostMemAccess vf addr write len => exact execHostMemAccess_canonical vf addr write len s hs
  | frequencyChange gang level => exact execFrequencyChange_canonical gang level s hs
  | poolPortDown port => exact execPoolPortDown_canonical port s hs
  | bootPhase ok => exact execBootPhase_canonical ok s hs
  | mailboxProofRequest cmd req => exact execMailboxProofRequest_canonical cmd req s hs
  | mailboxComplete code rsp => exact execMailboxComplete_canonical code rsp s hs
  | flitReceive port flit => exact execFlitReceive_canonical port flit s hs
  | drainDone port => exact execDrainDone_canonical port s hs
  | flitReplay port => exact execFlitReplay_canonical port s hs
  | replayTimeout port => exact execReplayTimeout_canonical port s hs
  | putArrive p => exact execPutArrive_canonical p s hs
  | atomArrive p => exact execAtomArrive_canonical p s hs
  | pullArrive p => exact execPullArrive_canonical p s hs
  | collArrive m => exact execCollArrive_canonical m s hs
  | ploughArrive port p => exact execPloughArrive_canonical port p s hs
  | echoSend port vc version round => exact execEchoSend_canonical port vc version round s hs
  | echoArrive port p => exact execEchoArrive_canonical port p s hs
  | responseArrive r => exact execResponseArrive_canonical r s hs
  | rackArrive key => exact execRackArrive_canonical key s hs
  | replyCacheFree key => exact execReplyCacheFree_canonical key s hs
  | reissue core tag => exact execReissue_canonical core tag s hs
  | timeout core tag => exact execTimeout_canonical core tag s hs
  | circuitReported port => exact execCircuitReported_canonical port s hs
  | thermalEmergency => exact execThermalEmergency_canonical s hs
  | sensorTrip => exact execSensorTrip_canonical s hs
  | mailboxLoad patch press config => exact execMailboxLoad_canonical patch press config s hs
  | mailboxAttest nonce vf => exact execMailboxAttest_canonical nonce vf s hs
  | mailboxLimit watts => exact execMailboxLimit_canonical watts s hs
  | mailboxThermal => exact execMailboxThermal_canonical s hs
  | coarsenedCounterSample => exact execCoarsenedCounterSample_canonical s hs
  | hostReset => exact execHostReset_canonical s hs
  | supplyEmergency level => exact execSupplyEmergency_canonical level s hs
  | thermalEmergencyEnd => exact execThermalEmergencyEnd_canonical s hs
  | poolPortRetrain port => exact execPoolPortRetrain_canonical port s hs
  | lossOfLight port group => exact execLossOfLight_canonical port group s hs
  | retrainStart port wavelength => exact execRetrainStart_canonical port wavelength s hs
  | retrainDone port group => exact execRetrainDone_canonical port group s hs
  | trainingDone port ok => exact execTrainingDone_canonical port ok s hs

/-- An event that is due leaves its agenda. -/
theorem dueEvent_mem {s : State} {r : Instr × State} (e : dueEvent s = some r) : r.2.mem = s.mem := by
  obtain ⟨⟨k, c, n, i⟩, -, rfl⟩ := Option.map_eq_some_iff.1 e
  cases c <;> rfl

/-- The states that an attempt of a walker leaves, for the word that it runs and without one. -/
def Attempt.canonical : Attempt → Prop
  | .done t => t.Canonical
  | .run _ t => t.Canonical
  | .probe _ _ t => t.Canonical

theorem attempt_canonical (s0 : State) (c : Nat) (w : Walker) (hs : s0.Canonical) : Attempt.canonical (attempt s0 c w) := by
  unfold attempt
  extract_lets s k v
  have hstall : Attempt.canonical (.done (s.stalled c w)) := canonical_of_mem (stalled_mem s c w) hs
  have htrap : ∀ o cls addr, Attempt.canonical (.done ((s.takeTrap o cls 0 addr).stalled c w)) := fun o cls addr =>
    canonical_of_mem (stalled_mem _ c w) (takeTrap_canonical s o cls 0 addr hs)
  have hpass : ∀ n os, Attempt.canonical (.done (passWord s c w n os)) := fun n os =>
    canonical_of_mem (passWord_mem s c w n os) hs
  split
  · exact hstall
  split
  · split
    · exact hstall
    · dsimp only
      split
      · exact hstall
      · exact hstall
  split
  · exact htrap _ _ _
  split
  · split
    · split
      · exact hpass _ _
      · exact hstall
    · exact hstall
  split
  · exact hpass _ _
  split
  · exact hs
  · split
    · exact htrap _ _ _
    · exact hstall

theorem probed_mem (s : State) (c : Nat) (w : Walker) (r : State) : (probed s c w r).mem = s.mem := by
  unfold probed; split <;> rfl

theorem step_canonical (s : State) (hs : s.Canonical) : nextCanonical (step s) := by
  unfold step
  split
  · exact exec_canonical _ _ hs
  · split
    · next e => exact exec_canonical _ _ (canonical_of_mem (dueEvent_mem e) hs)
    · split
      · exact exec_canonical _ _ hs
      · split
        · exact nextCanonical_next.2 (tick_canonical s hs)
        · next c w _ =>
          have ha := attempt_canonical s c w hs
          split
          · next e => rw [e] at ha; exact nextCanonical_next.2 ha
          · next e => rw [e] at ha; exact exec_canonical _ _ ha
          · next e =>
            rw [e] at ha
            split
            · exact nextCanonical_next.2 (canonical_of_mem (probed_mem ..) ha)
            · exact nextCanonical_next.2 ha

/-! ## The obligations about canonical memory -/

/-- Settles O2: the memory of the reset state lists nothing. -/
theorem resetMemoryCanonical : Obligations.ResetMemoryCanonical := by
  unfold Obligations.ResetMemoryCanonical
  rfl

/-- Settles O3: a step is the execution of a word, of an event or of an input, an attempt that issues none, or the end of a
cycle, and each keeps memory canonical. -/
theorem canonicalMemoryKept : Obligations.CanonicalMemoryKept := by
  unfold Obligations.CanonicalMemoryKept
  intro s t hs e
  exact step_canonical s hs t e

end Sys2Proof.Machine
end

section
namespace Sys2Proof.Machine

/-! ## Reads and writes within one tagged unit (R9, R307, R308) -/

theorem unitOf_add_mod (k : Nat) : unitOf k + k % unitSize k = k := Nat.sub_add_cancel (Nat.mod_le ..)

/-- A run within one unit is one piece. -/
theorem unitRuns_within {k n : Nat} (hn : 0 < n) (h : k % unitSize k + n ≤ unitSize k) : unitRuns k n = [(k, n)] := by
  have hl : min n (unitSize k - k % unitSize k) = n := Nat.min_eq_left (by omega)
  simp only [unitRuns, splitAt, hn.ne', if_false, hl, Nat.sub_self, if_true]

/-- What a reader sees of a run within one unit: its bytes under the reader's own tag, else zeros. -/
theorem read_within {s : State} {own : Tag} {k n : Nat} (ht : isTagged k = true) (h : k % unitSize k + n ≤ unitSize k) :
    s.read own k n = if tagOk own (s.tagAt k) then memRead s.mem k n else zeros n := by
  unfold State.read
  rw [if_pos ht]
  rcases Nat.eq_zero_or_pos n with rfl | hn
  · split <;> rfl
  · rw [unitRuns_within hn h, List.flatMap_cons, List.flatMap_nil, List.append_nil]

/-- A write within one unit is one write of a unit. -/
theorem write_within {s : State} {tag : Tag} {k : Nat} {bs : List Byte} (ht : isTagged k = true) (hn : 0 < bs.length)
    (h : k % unitSize k + bs.length ≤ unitSize k) : s.write tag k bs = s.writeUnit tag k bs := by
  unfold State.write
  rw [if_pos ht, unitRuns_within hn h]
  simp

theorem writeUnit_tagAt (s : State) (tag : Tag) (k : Nat) (bs : List Byte) : (s.writeUnit tag k bs).tagAt k = tag := by
  simp [State.tagAt, Tbl.get, writeUnit_tags]

theorem writeUnit_tagAt_ne (s : State) (tag : Tag) {k j : Nat} (bs : List Byte) (h : unitOf j ≠ unitOf k) :
    (s.writeUnit tag k bs).tagAt j = s.tagAt j := by
  simp [State.tagAt, Tbl.get, writeUnit_tags, find_put_ne _ _ h]

theorem tagOk_self {tag : Tag} (h : tag.gen ≠ 0) : tagOk tag tag = true := by
  simpa [tagOk] using h

theorem tagOk_eq_false {own t : Tag} (h : t ≠ own ∨ own.gen = 0) : tagOk own t = false := by
  by_cases e : t = own
  · subst e; simpa [tagOk] using h
  · simp [tagOk, e]

/-- A write under a tag reads back under it. -/
theorem read_writeUnit {s : State} {tag : Tag} {k : Nat} {bs : List Byte} (ht : isTagged k = true)
    (h : k % unitSize k + bs.length ≤ unitSize k) (hg : tag.gen ≠ 0) : (s.writeUnit tag k bs).read tag k bs.length = bs := by
  rw [read_within ht h, writeUnit_tagAt, if_pos (tagOk_self hg), writeUnit_mem, memRead_memWrite]

/-- A write within one unit leaves every byte outside the unit. -/
theorem memByte_writeUnit_outside {s : State} {tag : Tag} {k : Nat} {bs : List Byte} {a : Nat}
    (h : k % unitSize k + bs.length ≤ unitSize k) (ha : a < unitOf k ∨ unitOf k + unitSize k ≤ a) :
    memByte (s.writeUnit tag k bs).mem a = memByte s.mem a := by
  have hk := unitOf_add_mod k
  rw [writeUnit_mem, memByte_memWrite_out _ _ (by omega)]
  split
  · exact memByte_memWrite_out _ _ (by simpa [zeros] using ha)
  · rfl

/-- A write under the unit's own tag leaves every byte outside the run. -/
theorem memByte_writeUnit_own {s : State} {tag : Tag} {k : Nat} {bs : List Byte} {a : Nat} (ht : s.tagAt k = tag)
    (ha : a < k ∨ k + bs.length ≤ a) : memByte (s.writeUnit tag k bs).mem a = memByte s.mem a := by
  rw [writeUnit_mem, if_neg (by simp [ht]), memByte_memWrite_out _ _ ha]

/-- Settles O23: a run within one unit is read and written in one piece, and the piece's memory is a `memWrite`. -/
theorem writeThenRead : Obligations.WriteThenRead := by
  unfold Obligations.WriteThenRead
  refine ⟨fun s tag k bs ht _ h hg _ => read_writeUnit ht h hg, fun s own k n ht h hown => ?_,
    fun s tag k bs a _ h ha _ => memByte_writeUnit_outside h ha,
    fun s tag k bs a _ htag _ _ ha _ => memByte_writeUnit_own htag ha⟩
  rw [read_within ht h, tagOk_eq_false hown]
  rfl

end Sys2Proof.Machine
end

section
namespace Sys2Proof.Machine

/-! ## The heads of the queues (R216, R217, R246) -/

theorem isRS_eq_false_of_isVault {k : Nat} (h : isVault k = true) : isRS k = false := by
  simp only [isVault, decide_eq_true_eq] at h
  simp only [isRS, Bool.and_eq_false_iff, decide_eq_false_iff_not]
  omega

theorem isTagged_of_isVault {k : Nat} (h : isVault k = true) : isTagged k = true := by
  simp [isTagged, h]

theorem unitSize_of_isVault {k : Nat} (h : isVault k = true) : unitSize k = 64 := by
  simp [unitSize, isRS_eq_false_of_isVault h]

theorem memLatency_of_isVault {k : Nat} (h : isVault k = true) : memLatency k = 12 := by
  simp [memLatency, isRS_eq_false_of_isVault h]

theorem loadBytes_of_isVault {s : State} {c k n : Nat} (h : isVault k = true) :
    s.loadBytes c k n = s.readClean (s.ownTag c) k n := by
  simp only [isVault, decide_eq_true_eq] at h
  exact if_neg (by omega)

/-- A load that no older entry of the store queue touches reads memory. -/
theorem forward_eq_memory {sq : List QOp} {age key n : Nat} (h : ∀ e ∈ sq, e.o.age < age → e.bytes = none) :
    forward sq age key n = .memory := by
  unfold forward
  rw [List.filter_eq_nil_iff.2]
  intro e he
  by_cases ha : e.o.age < age
  · simp [h e he ha]
  · simp [ha]

theorem noteBad_cores (s : State) (own : Tag) (k n : Nat) : (s.noteBad own k n).cores = s.cores := by
  unfold State.noteBad
  split
  · rfl
  · generalize unitRuns k n = l
    have hfold (p : Nat × Nat → Prop) [DecidablePred p] : ∀ t : State,
        (l.foldl (fun t r => if p r then t.vaultError (markOf r.1) else t) t).cores = t.cores := by
      induction l with
      | nil => exact fun _ => rfl
      | cons r l ih =>
        intro t
        rw [List.foldl_cons, ih]
        split <;> rfl
    exact hfold _ s

theorem noteBad_core (s : State) (own : Tag) (k n c : Nat) : (s.noteBad own k n).core c = s.core c := by
  unfold State.core
  rw [noteBad_cores]

/-- Two changes of a core that give the same core give the same state. -/
theorem modCore_congr {s : State} {c : Nat} {f g : Core → Core} (h : f (s.core c) = g (s.core c)) :
    s.modCore c f = s.modCore c g := by
  simp only [State.modCore, h]

theorem againL_of_lq_ne_nil {s : State} {c d : Nat} (h : (s.core c).lq ≠ []) :
    s.againL c d = s.later c d (.loadPerforms c) := by
  simp [State.againL, h]

/-- A plain load at the head of the load queue, with no older store before it and more loads behind it. -/
theorem execLoadPerforms_vault {c : Nat} {s : State} {o : Origin} {n : Nat} {sx : Bool} {key : Nat} {d : Name} {l : List QOp}
    {r : Option Nat} (hq : (s.core c).lq = ⟨o, .load n sx key d false, r⟩ :: l) (hk : isVault key = true)
    (hs : ∀ e ∈ (s.core c).sq, e.o.age < o.age → e.bytes = none) (hl : l ≠ []) :
    execLoadPerforms c s = .next ((((s.noteBad (s.ownTag c) key n).modCore c (fun k => { k with lq := l })).later c 12
      (.scalarResultLands o d (if sx then sextWord (8 * n) (leNat (s.readClean (s.ownTag c) key n))
        else BitVec.ofNat 64 (leNat (s.readClean (s.ownTag c) key n))))).later c 0 (.loadPerforms c)) := by
  have hpop : (s.noteBad (s.ownTag c) key n).modCore c (fun k => { k with lq := setHead none k.lq }) =
      (s.noteBad (s.ownTag c) key n).modCore c (fun k => { k with lq := l }) :=
    modCore_congr (by rw [noteBad_core, hq]; rfl)
  unfold execLoadPerforms
  simp only [hq, forward_eq_memory hs, isRS_eq_false_of_isVault hk, memLatency_of_isVault hk, loadBytes_of_isVault hk,
    Bool.false_and, Bool.false_eq_true, if_false, hpop]
  rw [againL_of_lq_ne_nil (by simpa using hl)]

/-- Marks of one age at the heads of both queues leave them. -/
theorem marksMeet_of_heads {c : Nat} {s : State} {e f : QOp} {l l' : List QOp} (hl : (s.core c).lq = e :: l)
    (hs : (s.core c).sq = f :: l') (he : e.op = .mark) (hf : f.op = .mark) (ha : e.o.age = f.o.age) :
    s.marksMeet c = some ((s.modCore c (fun k => { k with lq := l, sq := l' })).finish e.o) := by
  simp [State.marksMeet, hl, hs, he, hf, ha]

theorem execLoadPerforms_mark {c : Nat} {s t : State} {e : QOp} {l : List QOp} (hl : (s.core c).lq = e :: l)
    (he : e.op = .mark) (hm : s.marksMeet c = some t) : execLoadPerforms c s = .next (t.againL c 0) := by
  unfold execLoadPerforms
  simp only [hl, he, hm]

/-- A run that meets no fault area holds no read-only byte of one. -/
theorem faultAreas_meet_of_recordByte {s : State} {v : BitVec 6} {key n i : Nat} (hi : i < n)
    (h : s.recordByte v (key + i) = true) : (s.faultAreas v).any (fun a => key < a + 256 && a < key + n) = true := by
  obtain ⟨a, ha, hr⟩ := List.any_eq_true.1 h
  simp only [inRecords, Bool.and_eq_true, decide_eq_true_eq] at hr
  refine List.any_eq_true.2 ⟨a, ha, ?_⟩
  simp only [Bool.and_eq_true, decide_eq_true_eq]
  omega

/-- What `writeUser` writes: the bytes, but the read-only ones of a fault area as they read. -/
def State.keptBytes (s : State) (tag : Tag) (key : Nat) (bs : List Byte) : List Byte :=
  List.zipWith (fun (i : Nat) (b : Byte) => if s.recordByte tag.vf (key + i) then (s.read tag (key + i) 1).headD 0 else b)
    (List.range bs.length) bs

@[simp] theorem keptBytes_length (s : State) (tag : Tag) (key : Nat) (bs : List Byte) :
    (s.keptBytes tag key bs).length = bs.length := by simp [State.keptBytes]

theorem keptBytes_getElem (s : State) (tag : Tag) (key : Nat) (bs : List Byte) {i : Nat} (h : i < bs.length) :
    (s.keptBytes tag key bs)[i]'(by simpa using h) =
      if s.recordByte tag.vf (key + i) then (s.read tag (key + i) 1).headD 0 else bs[i] := by
  simp [State.keptBytes]

theorem keptBytes_eq_self {s : State} {tag : Tag} {key : Nat} {bs : List Byte}
    (h : ∀ i < bs.length, s.recordByte tag.vf (key + i) = false) : s.keptBytes tag key bs = bs := by
  refine List.ext_getElem (by simp) fun i _ hi => ?_
  rw [keptBytes_getElem s tag key bs hi, h i hi]
  rfl

/-- A user's write to the vault writes the bytes that it keeps or changes. -/
theorem writeUser_of_isVault {s : State} {tag : Tag} {key : Nat} {bs : List Byte} (hk : isVault key = true) :
    s.writeUser tag key bs = s.write tag key (s.keptBytes tag key bs) := by
  unfold State.writeUser
  rw [hk, Bool.true_and]
  split
  · rfl
  · next h =>
    rw [keptBytes_eq_self fun i hi => ?_]
    exact Bool.eq_false_iff.2 fun hr => h (faultAreas_meet_of_recordByte hi hr)

theorem writeUser_of_writable {s : State} {tag : Tag} {key : Nat} {bs : List Byte}
    (h : ∀ i < bs.length, s.recordByte tag.vf (key + i) = false) : s.writeUser tag key bs = s.write tag key bs := by
  cases hk : isVault key with
  | false => simp [State.writeUser, hk]
  | true => rw [writeUser_of_isVault hk, keptBytes_eq_self h]

/-- A store to the vault that is due, at the head of the store queue, with no load before it. -/
theorem execStorePerforms_vault {c : Nat} {s : State} {o : Origin} {n key r : Nat} {v : Word} {rel : Option Scope}
    {l : List QOp} (hq : (s.core c).sq = ⟨o, .store n key v rel, some r⟩ :: l) (hk : isVault key = true)
    (hr : r ≤ (s.core c).time) (hl : (s.core c).lq = []) :
    execStorePerforms c s = .next (State.againS ((((s.writeUser (s.ownTag c) key (leBytes n v.toNat)).noteAction key n).modCore
      c (fun k => { k with sq := setHead none k.sq })).finish o) c 0) := by
  unfold execStorePerforms
  simp only [hq, hl, hr, isRS_eq_false_of_isVault hk, List.any_nil, Bool.not_false, Bool.not_true, Bool.false_eq_true,
    if_false, if_true]

/-- Settles O22: the heads of the queues, a load, a pair of marks and a store, each by what its queue does with it. -/
theorem queueHeadsPerform : Obligations.QueueHeadsPerform := by
  unfold Obligations.QueueHeadsPerform
  refine ⟨⟨?_, ?_⟩, fun s tag key bs h => writeUser_of_writable h, ?_⟩
  · intro c s o n sx key d l r hq hk hs hl
    exact execLoadPerforms_vault hq hk hs hl
  · intro c s e f l l' hl hs he hf ha
    exact execLoadPerforms_mark hl he (marksMeet_of_heads hl hs he hf ha)
  · intro c s o n key r v rel l hq hk hr hl
    exact execStorePerforms_vault hq hk hr hl

end Sys2Proof.Machine
end

section
namespace Sys2Proof.Machine

/-! ## The frame of a store (R3, R9, R216, R307) -/

@[simp] theorem leBytes_length (n : Nat) : ∀ x : Nat, (leBytes n x).length = n := by
  induction n with
  | zero => exact fun _ => rfl
  | succ n ih => exact fun x => congrArg Nat.succ (ih _)

/-- Byte i of a number, the least significant first (R3). -/
theorem leBytes_getElem (n : Nat) : ∀ (x i : Nat) (h : i < (leBytes n x).length),
    (leBytes n x)[i] = BitVec.ofNat 8 (x / 2 ^ (8 * i)) := by
  induction n with
  | zero => intro x i h; exact absurd h (Nat.not_lt_zero i)
  | succ n ih =>
    intro x i h
    cases i with
    | zero => simp [leBytes]
    | succ i =>
      have hp : 2 ^ (8 * (i + 1)) = 256 * 2 ^ (8 * i) := by rw [Nat.mul_succ, Nat.pow_add, Nat.mul_comm]
      simp only [leBytes, List.getElem_cons_succ, ih, Nat.div_div_eq_div_mul, hp]

/-- A write of a vault unit changes memory, a tag and marks, and nothing else of the state. -/
theorem writeUnit_of_isVault (s : State) (tag : Tag) {k : Nat} (bs : List Byte) (hk : isVault k = true) : ∃ p b,
    s.writeUnit tag k bs = { s with
      mem := (s.writeUnit tag k bs).mem, tags := Tbl.put s.tags (unitOf k) tag, poison := p, badLines := b } := by
  rw [writeUnit_mem]
  unfold State.writeUnit
  simp only [isRS_eq_false_of_isVault hk, Bool.false_eq_true, if_false]
  split
  · exact ⟨_, _, rfl⟩
  · exact ⟨_, _, rfl⟩

/-- An ACTION byte that is written puts events on the agenda, and changes nothing else. -/
theorem noteAction_agenda (s : State) (key n : Nat) : ∃ ag, s.noteAction key n = { s with agenda := ag } := by
  unfold State.noteAction
  have hfold : ∀ (l : List (Nat × Gang)) (f : State → Nat × Gang → State),
      (∀ t e, f t e = t ∨ ∃ i, f t e = t.after 0 i) → ∀ t, ∃ ag, l.foldl f t = { t with agenda := ag } := by
    intro l f hf
    induction l with
    | nil => exact fun t => ⟨t.agenda, rfl⟩
    | cons e l ih =>
      intro t
      obtain ⟨ag, hag⟩ := ih (f t e)
      rw [List.foldl_cons, hag]
      obtain h | ⟨i, h⟩ := hf t e
      · exact ⟨ag, by rw [h]⟩
      · exact ⟨ag, by rw [h]; rfl⟩
  refine hfold _ _ (fun t e => ?_) s
  dsimp only
  split
  · split
    · split
      · exact .inr ⟨_, rfl⟩
      · exact .inr ⟨_, rfl⟩
      · exact .inr ⟨_, rfl⟩
      · exact .inl rfl
    · exact .inl rfl
  · exact .inl rfl

theorem finish_of_no_post {s : State} {o : Origin} (h : o.post = 0) (h2 : o.post2 = 0) :
    s.finish o = s.modW o.core o.walker (fun v => { v with pend := v.pend - 1 }) := by
  simp [State.finish, State.complete, State.post, h, h2]

/-- What a store that performs leaves of a core. -/
def Core.aside (k : Core) :=
  (k.x, k.views, k.aviews, k.queues, k.sems, k.vstat, k.merrlog, k.gibbs, k.counters, k.lq, k.empty, k.time, k.step)

theorem aside_modW (k : Core) (w : Walker) (f : WalkerSt → WalkerSt) : (k.modW w f).aside = k.aside := by
  cases w <;> rfl

/-- What a change of one core leaves of every core. -/
theorem core_modCore_field {α : Type} (P : Core → α) {s : State} {c : Nat} {f : Core → Core} (hf : ∀ k, P (f k) = P k)
    (d : Nat) : P ((s.modCore c f).core d) = P (s.core d) := by
  rw [core_modCore_any]
  split
  · exact hf _
  · rfl

theorem aside_againS (s : State) (c n d : Nat) : ((s.againS c n).core d).aside = (s.core d).aside := by
  unfold State.againS
  split
  · rfl
  · unfold State.later
    exact core_modCore_field Core.aside (fun _ => by rfl) d

theorem againS_frame (s : State) (c d : Nat) : ∃ cs, s.againS c d = { s with cores := cs } := by
  unfold State.againS
  split
  · exact ⟨s.cores, rfl⟩
  · exact ⟨_, rfl⟩

/-- A store of n bytes within one unit, under the core's own tag. -/
def State.stored (s : State) (c key n : Nat) (v : Word) : State :=
  s.writeUnit (s.ownTag c) key (s.keptBytes (s.ownTag c) key (leBytes n v.toNat))

/-- The state after a store without a post: the state with its unit written, but for cores, marks and the agenda. -/
theorem storePerforms_frame {c : Nat} {s t : State} {o : Origin} {n key r : Nat} {v : Word} {rel : Option Scope}
    {l : List QOp} (hq : (s.core c).sq = ⟨o, .store n key v rel, some r⟩ :: l) (hl : (s.core c).lq = [])
    (hk : isVault key = true) (hr : r ≤ (s.core c).time) (hp : o.post = 0) (hp2 : o.post2 = 0)
    (hu : key % 64 + n ≤ 64) (hn : 0 < n) (ht : execStorePerforms c s = .next t) : ∃ cs p b ag,
    t = { s with
      mem := (s.stored c key n v).mem
      tags := Tbl.put s.tags (unitOf key) (s.ownTag c)
      cores := cs, poison := p, badLines := b, agenda := ag } ∧
    ∀ d, (t.core d).aside = (s.core d).aside := by
  rw [execStorePerforms_vault hq hk hr hl, finish_of_no_post hp hp2, writeUser_of_isVault hk,
    write_within (isTagged_of_isVault hk) (by simpa using hn) (by simpa [unitSize_of_isVault hk] using hu)] at ht
  obtain rfl := Host.Outcome.next.inj ht
  obtain ⟨p, b, hw⟩ := writeUnit_of_isVault s (s.ownTag c) (s.keptBytes (s.ownTag c) key (leBytes n v.toNat)) hk
  unfold State.stored
  generalize (s.writeUnit (s.ownTag c) key (s.keptBytes (s.ownTag c) key (leBytes n v.toNat))).mem = m at hw ⊢
  obtain ⟨ag, ha⟩ := noteAction_agenda (s.stored c key n v) key n
  unfold State.stored at ha
  rw [ha, hw]
  obtain ⟨cs, hcs⟩ := againS_frame _ c 0
  refine ⟨cs, p, b, ag, hcs, fun d => ?_⟩
  rw [aside_againS, State.modW, core_modCore_field Core.aside (fun k => aside_modW k _ _)]
  exact core_modCore_field Core.aside (fun _ => by rfl) d

/-- Settles O60. The unit's bytes are those of `writeUnit`, the registers and views those of `Core.aside`. -/
theorem storeFrame : Obligations.StoreFrame := by
  unfold Obligations.StoreFrame
  intro c s t o n key r v rel l hq hl hk hr _ hp hp2 hu hn _ _ ht
  obtain ⟨cs, p, b, ag, hframe, haside⟩ := storePerforms_frame hq hl hk hr hp hp2 hu hn ht
  have hlen : (s.keptBytes (s.ownTag c) key (leBytes n v.toNat)).length = n := by simp
  have hunit : key % unitSize key + (s.keptBytes (s.ownTag c) key (leBytes n v.toNat)).length ≤ unitSize key := by
    rwa [hlen, unitSize_of_isVault hk]
  have hmem : t.mem = (s.stored c key n v).mem := by rw [hframe]
  have htag (k : Nat) : t.tagAt k = (s.stored c key n v).tagAt k := by
    simp only [State.tagAt, State.stored, writeUnit_tags, hframe]
  refine ⟨fun a ha => ?_, fun hown a ha => ?_, fun i hi hi8 => ?_, ?_, fun k hne => ?_, ?_⟩
  · rw [hmem]
    exact memByte_writeUnit_outside hunit (by rwa [unitSize_of_isVault hk])
  · rw [hmem]
    exact memByte_writeUnit_own hown (by rwa [hlen])
  · have hb : i < (leBytes n v.toNat).length := by simpa using hi
    rw [hmem, State.stored, writeUnit_mem, memByte_memWrite_in _ _ _ (by simpa using hi), keptBytes_getElem _ _ _ _ hb, leBytes_getElem]
  · rw [htag, State.stored, writeUnit_tagAt]
  · rw [htag, State.stored, writeUnit_tagAt_ne _ _ _ hne]
  · refine ⟨by rw [hframe], by rw [hframe], by rw [hframe], by rw [hframe], by rw [hframe], fun d => ?_⟩
    have hd := haside d
    simp only [Core.aside, Prod.mk.injEq] at hd
    obtain ⟨hx, hrest⟩ := hd
    refine ⟨fun q => ?_, hrest⟩
    unfold Core.readX
    rw [hx]

end Sys2Proof.Machine
end

section
namespace Sys2Proof.Machine

/-! ## Spill and fill (R60, R72) -/

/-- A wait that is granted leaves a walker of the core as it was. -/
theorem waited_w (s : State) (wait : BitVec 4) (w : Walker) : ((s.waited wait).core s.cur).w w = (s.core s.cur).w w := by
  unfold State.waited
  split
  · rfl
  · simp only [State.setSem, core_modCore]
    cases w <;> rfl

theorem wordAge_waited (s : State) (wait : BitVec 4) (w : Walker) (h : Hdr) :
    ((s.waited wait).core s.cur).wordAge (s.word w h) = s.bankAge w := by
  simp only [Core.wordAge, State.bankAge, word_walker, word_age, waited_w]

/-- A word that wins its banks at issue. -/
theorem claimBanks_word {s : State} {wait : BitVec 4} {w : Walker} {h : Hdr} {b : BitVec 32}
    (hw : (s.waited wait).wins s w b) :
    (claimBanks (s.word w h) b).run (s.waited wait) = .ok ((), (s.waited wait).claims s w b) := by
  have h1 : (((s.waited wait).core (s.word w h).core).banksLost (((s.waited wait).core (s.word w h).core).wordAge
      (s.word w h)) b) = 0 := by
    rw [word_core, wordAge_waited]
    exact hw
  rw [claimBanks_run h1, word_core, wordAge_waited]
  rfl

/-- Operations over a list that read the state and change nothing. -/
theorem op_mapM_reads {α β : Type} {f : α → Op β} {g : α → β} {s : State} {l : List α}
    (h : ∀ a ∈ l, (f a).run s = .ok (g a, s)) : (l.mapM f).run s = .ok (l.map g, s) := by
  induction l with
  | nil => rfl
  | cons a l ih =>
    rw [List.mapM_cons, op_bind_ok (h a (List.mem_cons_self ..)),
      op_bind_ok (ih fun b hb => h b (List.mem_cons_of_mem a hb))]
    rfl

theorem destReady_x {o : Origin} {r : BitVec 6} {s : State} (h : (s.core o.core).scoreboard.contains r.toNat = false) :
    (destReady o (.x r)).run s = .ok ((), s) := by
  unfold destReady
  dsimp only
  rw [op_bind_ok (op_getCore _ _), op_need (by rw [h]; rfl)]

theorem reserve_x {o : Origin} {r : BitVec 6} {s : State} (h : (s.core o.core).scoreboard.contains r.toNat = false) :
    (reserve o (.x r)).run s = .ok ((), s.modCore o.core (fun k =>
      if r = 0 then k else { k with scoreboard := k.scoreboard ++ [r.toNat] })) := by
  unfold reserve
  dsimp only
  rw [op_bind_ok (op_getCore _ _), op_bind_ok (op_need (by rw [h]; rfl) _)]
  rfl

/-- A value that comes to a register later: the register is held, and the word is begun. -/
theorem resultLater_x {o : Origin} {r : BitVec 6} {s : State} (d : Nat) (v : Word)
    (h : (s.core o.core).scoreboard.contains r.toNat = false) :
    (resultLater o (.x r) d v).run s = .ok (.seq, s.comes o r d v) := by
  unfold resultLater
  rw [op_bind_ok (reserve_x h)]
  rfl

/-- The registers that wait for a value after one more does. -/
theorem comes_scoreboard {s : State} {o : Origin} {r q : BitVec 6} {d : Nat} {v : Word}
    (h : (s.core o.core).scoreboard.contains q.toNat = false) (hq : q ≠ r) :
    ((s.comes o r d v).core o.core).scoreboard.contains q.toNat = false := by
  have hne : q.toNat ≠ r.toNat := fun e => hq (BitVec.eq_of_toNat_eq e)
  have hmod : ∀ k : Core, ∀ w f, (k.modW w f).scoreboard = k.scoreboard := fun k w f => by cases w <;> rfl
  simp only [State.comes, State.begin, core_later, core_modW, core_modCore, hmod]
  split
  · exact h
  · simp only [List.contains_append, h, Bool.false_or]
    simpa using hne

/-- Values that come to several registers, one word's each. -/
theorem op_mapM_resultLater {o : Nat → Origin} {c : Nat} (ho : ∀ i, (o i).core = c) (v : Nat → Word) :
    ∀ (l : List (BitVec 6 × Nat)) (s : State), (l.map Prod.fst).Nodup →
      (∀ e ∈ l, (s.core c).scoreboard.contains e.1.toNat = false) →
      ∃ fs, (l.mapM (fun e => resultLater (o e.2) (.x e.1) 1 (v e.2))).run s =
        .ok (fs, l.foldl (fun t e => t.comes (o e.2) e.1 1 (v e.2)) s) := by
  intro l
  induction l with
  | nil => exact fun s _ _ => ⟨[], rfl⟩
  | cons e l ih =>
    intro s hnd hs
    obtain ⟨hne, hnd⟩ := List.nodup_cons.1 hnd
    have hfree : ∀ q, q ≠ e.1 → (s.core c).scoreboard.contains q.toNat = false →
        ((s.comes (o e.2) e.1 1 (v e.2)).core c).scoreboard.contains q.toNat = false := by
      intro q hq h
      rw [← ho e.2] at h ⊢
      exact comes_scoreboard h hq
    obtain ⟨fs, hfs⟩ := ih (s.comes (o e.2) e.1 1 (v e.2)) hnd fun x hx =>
      hfree x.1 (fun h => hne (h ▸ List.mem_map_of_mem hx)) (hs x (List.mem_cons_of_mem e hx))
    have he : (s.core (o e.2).core).scoreboard.contains e.1.toNat = false := by
      rw [ho]
      exact hs e (List.mem_cons_self ..)
    refine ⟨.seq :: fs, ?_⟩
    rw [List.mapM_cons, op_bind_ok (resultLater_x 1 (v e.2) he), op_bind_ok hfs]
    rfl

/-- A spill offset that is in range and aligned. -/
theorem spillPlace_run {o : Origin} {size : BitVec 8} {off : BitVec 15} {s : State} {p n : Nat}
    (hn : 2 ^ (3 * (size.toNat + 1)) = n) (hp : (off.toNat : Int) + ((s.core o.core).w o.walker).addrAdd = p)
    (ha : p % n = 0) (hr : p + n ≤ 2 ^ 14) : (spillPlace o size off).run s = .ok ((p, n), s) := by
  unfold spillPlace
  rw [op_bind_ok (op_getCore _ _)]
  simp only [hn, hp]
  have hok : (decide ((0 : Int) ≤ p) && decide ((p : Int) + n ≤ 2 ^ 14) && decide ((p : Int) % n = 0)) = true := by
    simp only [Bool.and_eq_true, decide_eq_true_eq]
    exact ⟨⟨Int.natCast_nonneg p, by exact_mod_cast hr⟩, by exact_mod_cast ha⟩
  rw [op_bind_ok (op_demand hok _ _ _)]
  rfl

/-- A block of 512 bytes of register space that is in range and aligned. -/
theorem spillBlock_run {o : Origin} {d : BitVec 6} {s : State} (hd : (s.core o.core).scoreboard.contains d.toNat = false)
    {a : Nat} (hx : ((s.core o.core).readX d).toNat = a) (ha : a % 512 = 0) (hr : a + 512 ≤ 0x40000) :
    (spillBlock o (.x d)).run s = .ok (a, s) := by
  unfold spillBlock
  rw [op_bind_ok (src_x hd)]
  simp only [hx]
  rw [op_bind_ok (op_demand (by simp [ha]; omega) _ _ _)]
  rfl

theorem eightFrom_x (d : BitVec 6) : eightFrom (.x d) = (List.range 8).map (fun i => d + BitVec.ofNat 6 i) := rfl

theorem eightFrom_free {k : Core} {d : BitVec 6}
    (h : ∀ i < 8, k.scoreboard.contains (d + BitVec.ofNat 6 i).toNat = false) :
    ∀ r ∈ eightFrom (.x d), k.scoreboard.contains r.toNat = false := by
  rw [eightFrom_x]
  intro r hr
  obtain ⟨i, hi, rfl⟩ := List.mem_map.1 hr
  exact h i (List.mem_range.1 hi)

theorem eightFrom_zipIdx (d : BitVec 6) :
    (eightFrom (.x d)).zipIdx = (List.range 8).map (fun i => (d + BitVec.ofNat 6 i, i)) := rfl

theorem eightFrom_nodup (d : BitVec 6) : (eightFrom (.x d)).Nodup := by
  refine List.Nodup.map_on (fun i hi j hj h => ?_) List.nodup_range
  rw [List.mem_range] at hi hj
  have := congrArg BitVec.toNat h
  bv_omega

section
variable {h : Hdr} {d : BitVec 6} {off : BitVec 15} {s : State} {p : Nat}

/-- SPL of one register or of eight. -/
theorem execSpl_registers {size : BitVec 8} {rs : List (BitVec 6)} {n : Nat} (hm : s.mayIssue .C h.wait) (hsize : size ≠ 2)
    (hrs : (if size = 0 then [xNum (.x d)] else eightFrom (.x d)) = rs) (hn : 2 ^ (3 * (size.toNat + 1)) = n)
    (hp : (off.toNat : Int) + ((s.core s.cur).w .C).addrAdd = p) (ha : p % n = 0) (hr : p + n ≤ 2 ^ 14)
    (hs : ∀ r ∈ rs, ((s.waited h.wait).core s.cur).scoreboard.contains r.toNat = false)
    (hq : ((s.waited h.wait).core s.cur).acquiring = false) :
    execSpl h size (.x d) off s = .next (State.settles ((s.waited h.wait).write ((s.waited h.wait).ownTag s.cur)
      (keySpill s.cur p) (rs.flatMap (fun r => leBytes 8 (((s.waited h.wait).core s.cur).readX r).toNat))) s .C h 1 []) := by
  have hplace : (spillPlace (s.word .C h) size off).run (s.waited h.wait) = .ok ((p, n), s.waited h.wait) :=
    spillPlace_run hn (by rw [word_core, word_walker, waited_w]; exact hp) ha hr
  unfold execSpl
  rw [if_neg hsize]
  refine issue_seq hm ?_
  rw [if_neg hsize, hrs, op_bind_ok (op_mapM_reads fun r hr => srcX_run (by rw [word_core]; exact hs r hr)),
    op_bind_ok (op_getCore _ _), op_bind_ok (op_need (by rw [word_core, hq]; rfl) _), op_bind_ok hplace,
    op_bind_ok (op_modify _ _), op_doneNext, word_core, List.flatMap_map]

/-- FIL of one register or of eight, whose destinations are held one after the other. -/
theorem execFil_registers {size : BitVec 8} {rs : List (BitVec 6)} {n : Nat} (hm : s.mayIssue .C h.wait) (hsize : size ≠ 2)
    (hrs : (if size = 0 then [xNum (.x d)] else eightFrom (.x d)) = rs) (hn : 2 ^ (3 * (size.toNat + 1)) = n)
    (hp : (off.toNat : Int) + ((s.core s.cur).w .C).addrAdd = p) (ha : p % n = 0) (hr : p + n ≤ 2 ^ 14) (hnd : rs.Nodup)
    (hs : ∀ r ∈ rs, ((s.waited h.wait).core s.cur).scoreboard.contains r.toNat = false)
    (hq : ((s.waited h.wait).core s.cur).acquiring = false) :
    execFil h size (.x d) off s = .next (State.advanced (rs.zipIdx.foldl (fun t e =>
      t.comes (if e.2 + 1 = rs.length then s.word .C h else quiet (s.word .C h)) e.1 1
        ((s.waited h.wait).spilled s.cur (p + 8 * e.2))) (s.waited h.wait)) s .C 1) := by
  have hplace : (spillPlace (s.word .C h) size off).run (s.waited h.wait) = .ok ((p, n), s.waited h.wait) :=
    spillPlace_run hn (by rw [word_core, word_walker, waited_w]; exact hp) ha hr
  have ho : ∀ i, (if i + 1 = rs.length then s.word .C h else quiet (s.word .C h)).core = s.cur := by
    intro i
    split
    · exact word_core ..
    · exact word_core ..
  obtain ⟨fs, hfs⟩ := op_mapM_resultLater ho (fun i => (s.waited h.wait).spilled s.cur (p + 8 * i)) rs.zipIdx (s.waited h.wait)
    (by rwa [List.zipIdx_map_fst]) fun e he => hs e.1 (List.fst_mem_of_mem_zipIdx he)
  unfold execFil
  rw [if_neg hsize]
  refine issue_seq hm ?_
  rw [if_neg hsize, hrs, op_bind_ok (op_mapM_reads (g := fun _ => ()) fun r hr => destReady_x (by rw [word_core]; exact hs r hr)),
    op_bind_ok (op_getCore _ _), op_bind_ok (op_need (by rw [word_core, hq]; rfl) _), op_bind_ok hplace,
    op_bind_ok (op_get _), word_core]
  exact op_bind_ok hfs

variable {a : Nat}

/-- FIL of 512 bytes. -/
theorem execFil_block (hm : s.mayIssue .C h.wait) (hp : (off.toNat : Int) + ((s.core s.cur).w .C).addrAdd = p)
    (hpa : p % 512 = 0) (hpr : p + 512 ≤ 2 ^ 14)
    (hd : ((s.waited h.wait).core s.cur).scoreboard.contains d.toNat = false)
    (hx : (((s.waited h.wait).core s.cur).readX d).toNat = a) (ha : a % 512 = 0) (hr : a + 512 ≤ 0x40000)
    (hf : (s.waited h.wait).full s.cur a 512 = true) (hh : (s.waited h.wait).hits s.cur (keyRS s.cur a) 512 = false)
    (hq : ((s.waited h.wait).core s.cur).acquiring = false)
    (hmeet : ((s.waited h.wait).core s.cur).queuesMeet (keyRS s.cur a) 512 = false)
    (ht : ((s.waited h.wait).core s.cur).inText a 512 = false) :
    execFil h 2 (.x d) off s = .next ((s.waited h.wait).landsLater s .C h 8 8
      (.vectorResultLands (s.word .C h) (keyRS s.cur a)
        ((s.waited h.wait).read ((s.waited h.wait).ownTag s.cur) (keySpill s.cur p) 512) 0)) := by
  have hplace : (spillPlace (s.word .C h) 2 off).run (s.waited h.wait) = .ok ((p, 512), s.waited h.wait) :=
    spillPlace_run rfl (by rw [word_core, word_walker, waited_w]; exact hp) hpa hpr
  have hblock : (spillBlock (s.word .C h) (.x d)).run (s.waited h.wait) = .ok (a, s.waited h.wait) :=
    spillBlock_run (by rwa [word_core]) (by rwa [word_core]) ha hr
  unfold execFil
  rw [if_pos rfl]
  refine issue_seq hm ?_
  rw [if_pos rfl, op_bind_ok (src_x (by rwa [word_core])), op_bind_ok (op_get _)]
  simp only [word_core, hx]
  rw [op_bind_ok (op_getCore _ _), op_bind_ok (op_need (by simp [hf, hh]) _),
    op_bind_ok (op_need (by simp [word_core, hq, hmeet]) _), op_bind_ok hplace, op_bind_ok hblock,
    op_bind_ok (op_demand (by simp [word_core, ht]) _ _ _), op_doneLater, word_core]

/-- SPL of 512 bytes. -/
theorem execSpl_block (hm : s.mayIssue .C h.wait) (hp : (off.toNat : Int) + ((s.core s.cur).w .C).addrAdd = p)
    (hpa : p % 512 = 0) (hpr : p + 512 ≤ 2 ^ 14)
    (hd : ((s.waited h.wait).core s.cur).scoreboard.contains d.toNat = false)
    (hx : (((s.waited h.wait).core s.cur).readX d).toNat = a) (ha : a % 512 = 0) (hr : a + 512 ≤ 0x40000)
    (hf : (s.waited h.wait).full s.cur a 512 = true) (hh : (s.waited h.wait).hits s.cur (keyRS s.cur a) 512 = false)
    (hq : ((s.waited h.wait).core s.cur).acquiring = false)
    (hmeet : ((s.waited h.wait).core s.cur).queuesMeet (keyRS s.cur a) 512 = false)
    (hw : (s.waited h.wait).wins s .C (banksOf a 512)) :
    let t := (s.waited h.wait).claims s .C (banksOf a 512)
    execSpl h 2 (.x d) off s = .next (State.landsLater (t.write (t.ownTag s.cur) (keySpill s.cur p)
      (t.read (t.ownTag s.cur) (keyRS s.cur a) 512)) s .C h 8 8 (.scalarResultLands (s.word .C h) (.x 0) 0)) := by
  intro t
  have hplace : (spillPlace (s.word .C h) 2 off).run (s.waited h.wait) = .ok ((p, 512), s.waited h.wait) :=
    spillPlace_run rfl (by rw [word_core, word_walker, waited_w]; exact hp) hpa hpr
  have hblock : (spillBlock (s.word .C h) (.x d)).run (s.waited h.wait) = .ok (a, s.waited h.wait) :=
    spillBlock_run (by rwa [word_core]) (by rwa [word_core]) ha hr
  unfold execSpl
  rw [if_pos rfl]
  refine issue_seq hm ?_
  rw [if_pos rfl, op_bind_ok (src_x (by rwa [word_core])), op_bind_ok (op_get _)]
  simp only [word_core, hx]
  rw [op_bind_ok (op_need (by simp [hf, hh]) _), op_bind_ok (op_need (by simp [hq, hmeet]) _), op_bind_ok hplace,
    op_bind_ok hblock, op_bind_ok (claimBanks_word hw), op_bind_ok (op_modify _ _)]
  unfold completeLater
  rw [op_doneLater, word_core]
end

/-- Settles O17: one register and eight go through the lists of registers, 512 bytes through the block. -/
theorem spillFillComplete : Obligations.SpillFillComplete := by
  unfold Obligations.SpillFillComplete
  refine ⟨?_, ?_, ?_, ?_, ?_⟩
  · intro h d off s p hm hp ha hr hd hq
    have hspl := execSpl_registers (size := 0) (rs := [d]) hm (by decide) rfl rfl hp ha hr (by simpa using hd) hq
    rwa [List.flatMap_singleton] at hspl
  · intro h d off s p hm hp ha hr hd hq
    have hspl := execSpl_registers (size := 1) hm (by decide) rfl rfl hp ha hr (eightFrom_free hd) hq
    rwa [if_neg (by decide), eightFrom_x, List.flatMap_map] at hspl
  · intro h d off s t p hm hp ha hr ht hq
    obtain ⟨r, hrd, hd, rfl⟩ | ⟨q, hqd, -⟩ := reserve_ok ht
    · cases hrd
      rw [word_core] at hd
      have hfil := execFil_registers (size := 0) (rs := [d]) hm (by decide) rfl rfl hp ha hr (List.nodup_singleton d)
        (by simpa using hd) hq
      refine hfil.trans ?_
      simp only [List.zipIdx_singleton, List.foldl_cons, List.foldl_nil, List.length_singleton, Nat.zero_add, if_true,
        State.comes, State.landsLater, word_core, Nat.mul_zero, Nat.add_zero]
    · cases hqd
  · intro h d off s p hm hp ha hr hd hq
    have hfil := execFil_registers (size := 1) hm (by decide) rfl rfl hp ha hr (eightFrom_nodup d) (eightFrom_free hd) hq
    rw [if_neg (by decide), eightFrom_zipIdx, List.foldl_map] at hfil
    simp only [eightFrom_x, List.length_map, List.length_range, Nat.reduceEqDiff] at hfil
    exact hfil
  · intro h d off s p a hm hp hpa hpr hd hx ha hr hf hh hq hmeet
    exact ⟨fun ht => execFil_block hm hp hpa hpr hd hx ha hr hf hh hq hmeet ht,
      fun hw => execSpl_block hm hp hpa hpr hd hx ha hr hf hh hq hmeet hw⟩

end Sys2Proof.Machine
end

section
namespace Sys2Proof.Machine

/-! ## Galleys in the table -/

theorem modGalley_of_find {s : State} {id : Nat} {g : Galley} (h : Tbl.find s.galleys id = some g) (f : Galley → Galley) :
    s.modGalley id f = { s with galleys := Tbl.put s.galleys id (f g) } := by
  unfold State.modGalley
  rw [h]

theorem find_modGalley {s : State} {id : Nat} {g : Galley} (h : Tbl.find s.galleys id = some g) (f : Galley → Galley) :
    Tbl.find (s.modGalley id f).galleys id = some (f g) := by
  rw [modGalley_of_find h]
  exact find_put ..

theorem modGang_galleys (s : State) (n : Nat) (f : Gang → Gang) : (s.modGang n f).galleys = s.galleys := by
  unfold State.modGang
  split
  · rfl
  · rfl

/-- A change to a gang's core that stands where it issues. -/
theorem modHome_of_gang {s : State} {gang c : Nat} (h : (s.core c).gang = gang) (f : Core → Core) :
    s.modHome gang c f = s.modCore c f := if_pos h

theorem home_of_gang {s : State} {gang c : Nat} (h : (s.core c).gang = gang) : s.home gang c = s.core c := if_pos h

/-- The start of a galley, as far as its own entry shows it. -/
def Galley.startedFrom (h g : Galley) : Prop := h.started = true ∧ h.o = g.o

theorem galleyGo_galley {s : State} {id : Nat} {g h : Galley} (hh : Tbl.find s.galleys id = some h) (hg : h.startedFrom g) :
    ∃ h', Tbl.find (s.galleyGo id).galleys id = some h' ∧ h'.startedFrom g := by
  unfold State.galleyGo
  simp only [hh]
  split
  · exact ⟨h, hh, hg⟩
  · split
    · exact ⟨h, hh, hg⟩
    · exact ⟨_, find_modGalley hh _, hg⟩

theorem foldl_later_galleys {α : Type} (l : List α) (c : Nat) (d : α → Nat) (i : α → Instr) :
    ∀ s : State, (l.foldl (fun (a : State) x => a.later c (d x) (i x)) s).galleys = s.galleys := by
  induction l with
  | nil => exact fun _ => rfl
  | cons x l ih => exact fun s => ih _

/-- A galley that starts is in the table as started. -/
theorem startCopy_galley {s : State} {id : Nat} {g : Galley} (hg : Tbl.find s.galleys id = some g) (plan : List Piece)
    (oor : Nat) : ∃ h, Tbl.find (s.startCopy id g plan oor).galleys id = some h ∧ h.startedFrom g := by
  unfold State.startCopy
  extract_lets s1 begins time ordinary
  have h1 : Tbl.find s1.galleys id = some g := by
    unfold s1
    split
    · exact hg
    · exact hg
  split
  next timed s2 e =>
  have h2 : Tbl.find s2.galleys id = some g := by
    split at e
    · split at e
      · cases e
        rwa [modGang_galleys]
      · cases e; exact h1
    · cases e; exact h1
  extract_lets s3 s4
  have h4 : ∃ h, Tbl.find s4.galleys id = some h ∧ h.startedFrom g := by
    unfold s4
    split
    · exact ⟨_, find_modGalley h2 _, rfl, rfl⟩
    · exact ⟨_, find_modGalley h2 _, rfl, rfl⟩
  obtain ⟨h, hh, hs⟩ := h4
  split
  · extract_lets lines
    refine ⟨h, ?_, hs⟩
    rw [after_galleys, foldl_later_galleys]
    exact hh
  · exact galleyGo_galley hh hs

/-! ## GALLEY_START and GALLEY_ACCEPT -/

section
variable {s : State} {id : Nat} {g : Galley}

theorem execGalleyStart_started (hg : Tbl.find s.galleys id = some g) (h : g.started = true) :
    execGalleyStart id s = .next s := by
  simp only [execGalleyStart, hg, h, if_true]

theorem execGalleyStart_waits (hg : Tbl.find s.galleys id = some g) (h : g.started = false) (hm : s.mayStart g = false) :
    execGalleyStart id s = .next (s.after 1 (.galleyStart id)) := by
  simp only [execGalleyStart, hg, h, hm, Bool.not_false, if_true, Bool.false_eq_true, if_false]

/-- What holds a galley back: its release, an edge, its core's gang or a freeze. -/
theorem mayStart_eq_false (h : g.rel ≠ none ∨ s.edgeHolds g.core g.o.age g.reads g.writes = true ∨
    (s.core g.core).gang ≠ g.gang ∨ (s.core g.core).frozen ≠ none) : s.mayStart g = false := by
  unfold State.mayStart
  obtain h | h | h | h := h
  · rw [Option.isNone_eq_false_iff.2 (Option.isSome_iff_ne_none.2 h)]; rfl
  · simp [h]
  · simp [h]
  · rw [Option.isNone_eq_false_iff.2 (Option.isSome_iff_ne_none.2 h)]; simp

theorem execGalleyStart_copy (hg : Tbl.find s.galleys id = some g) (h : g.started = false) (hm : s.mayStart g = true)
    (hx : g.job ≠ .gxch) (hp : ∀ a b c d, g.job ≠ .put a b c d) (hc : ∀ a b c, g.job ≠ .coll a b c)
    (hl : g.job.listRange g.reads = none) : execGalleyStart id s = .next (s.startCopy id g g.plan 0) := by
  have ht : s.tryCopy id g = s.startCopy id g g.plan 0 := by simp only [State.tryCopy, hl]
  simp only [execGalleyStart, hg, h, hm, Bool.not_true, Bool.false_eq_true, if_false]
  rw [ht]

theorem execGalleyStart_gxch (hg : Tbl.find s.galleys id = some g) (h : g.started = false) (hm : s.mayStart g = true)
    (hj : g.job = .gxch) : execGalleyStart id s = .next (s.after 0 (.gxchPublish id)) := by
  simp only [execGalleyStart, hg, h, hm, hj, Bool.not_true, Bool.false_eq_true, if_false]

theorem execGalleyStart_put {dm : BitVec 12} {dc : BitVec 8} {rs : Bool} {a : Nat} (hg : Tbl.find s.galleys id = some g)
    (h : g.started = false) (hm : s.mayStart g = true) (hj : g.job = .put dm dc rs a) :
    execGalleyStart id s = .next (s.startPut id) := by
  simp only [execGalleyStart, hg, h, hm, hj, Bool.not_true, Bool.false_eq_true, if_false]

/-- The targets run, and no granule of theirs is empty. -/
theorem acceptable_of_ready (hr : ∀ r ∈ g.far, (s.core (rsCore r.key)).frozen = none ∧ (s.core (rsCore r.key)).gang = g.gang ∧
    s.full (rsCore r.key) (rsOff r.key) r.len = true) : s.acceptable g = true := by
  refine List.all_eq_true.2 fun r h => ?_
  obtain ⟨hz, hgang, hf⟩ := hr r h
  simp [hz, hgang, hf]

theorem acceptable_eq_false {r : Rng} (hr : r ∈ g.far) (hf : s.full (rsCore r.key) (rsOff r.key) r.len = false) :
    s.acceptable g = false :=
  List.all_eq_false.2 ⟨r, hr, by simp [hf]⟩

theorem execGalleyAccept_accepted (hg : Tbl.find s.galleys id = some g) (h : g.accepted = true) :
    execGalleyAccept id s = .next s := by
  simp only [execGalleyAccept, hg, h, if_true]

theorem execGalleyAccept_gone (hg : Tbl.find s.galleys id = some g) (h : g.accepted = false)
    (hs : s.gen g.vf ≠ g.gen ∨ s.gang g.gang = none) :
    execGalleyAccept id s = .next (s.modGalley id (fun g => { g with accepted := true })) := by
  have hc : (decide (s.gen g.vf ≠ g.gen) || (s.gang g.gang).isNone) = true := by simpa using hs
  simp only [execGalleyAccept, hg, h, hc, if_true, Bool.false_eq_true, if_false]

theorem execGalleyAccept_current (hg : Tbl.find s.galleys id = some g) (h : g.accepted = false)
    (hs : s.gen g.vf = g.gen) (hn : s.gang g.gang ≠ none) : execGalleyAccept id s =
      if s.acceptable g then .next (s.accept id g) else .next (s.after 1 (.galleyAccept id)) := by
  have hc : (decide (s.gen g.vf ≠ g.gen) || (s.gang g.gang).isNone) = false := by
    simpa [hs] using Option.isSome_iff_ne_none.2 hn
  simp only [execGalleyAccept, hg, h, hc, Bool.false_eq_true, if_false]

theorem writeUnit_galleys (s : State) (tag : Tag) (k : Nat) (bs : List Byte) :
    (s.writeUnit tag k bs).galleys = s.galleys := by
  unfold State.writeUnit
  dsimp only
  split
  · rfl
  · split
    · rfl
    · rfl

theorem markEmpty_galleys (s : State) (tag : Tag) (c off n : Nat) : (s.markEmpty tag c off n).galleys = s.galleys := by
  have hfold : ∀ (l : List (Nat × Nat)) (t : State), (l.foldl (fun (a : State) r =>
      if a.tagAt r.1 ≠ tag then a.writeUnit tag (unitOf r.1) (zeros 128) else a) t).galleys = t.galleys := by
    intro l
    induction l with
    | nil => exact fun _ => rfl
    | cons r l ih =>
      intro t
      rw [List.foldl_cons, ih]
      split
      · exact writeUnit_galleys ..
      · rfl
  exact hfold _ s

theorem foldl_markEmpty_galleys {α : Type} (tag : Tag) (c off n : α → Nat) (l : List α) :
    ∀ t : State, (l.foldl (fun t r => t.markEmpty tag (c r) (off r) (n r)) t).galleys = t.galleys := by
  induction l with
  | nil => exact fun _ => rfl
  | cons r l ih => exact fun t => (ih _).trans (markEmpty_galleys ..)

/-- A galley whose targets are ready is accepted there. -/
theorem execGalleyAccept_ready (hg : Tbl.find s.galleys id = some g) (h : g.accepted = false) (hs : s.gen g.vf = g.gen)
    (hn : s.gang g.gang ≠ none) (hr : ∀ r ∈ g.far, (s.core (rsCore r.key)).frozen = none ∧
      (s.core (rsCore r.key)).gang = g.gang ∧ s.full (rsCore r.key) (rsOff r.key) r.len = true) :
    execGalleyAccept id s = .next (State.modGalley (g.far.foldl (fun t r => t.markEmpty ⟨false, g.vf, g.gen⟩ (rsCore r.key)
      (rsOff r.key) r.len) s) id (fun g' => { g' with
        accepted := true, farAge := g.far.head?.map (fun r => (s.core (rsCore r.key)).time * 8 + 7) })) := by
  have hfind : Tbl.find (g.far.foldl (fun t r => t.markEmpty ⟨false, g.vf, g.gen⟩ (rsCore r.key) (rsOff r.key) r.len) s).galleys
      id = some g := by
    rw [foldl_markEmpty_galleys _ (fun r : Rng => rsCore r.key) (fun r => rsOff r.key) (fun r => r.len)]
    exact hg
  rw [execGalleyAccept_current hg h hs hn, if_pos (acceptable_of_ready hr), State.accept, modGalley_of_find hfind,
    modGalley_of_find hfind]
end

theorem mem_empty_markEmpty {s : State} {tag : Tag} {c off n q : Nat} (hq : q ∈ granules off n) :
    q ∈ ((s.markEmpty tag c off n).core c).empty := by
  unfold State.markEmpty
  simp only [core_modCore]
  exact List.mem_append_right _ hq
/-! ## Lines of a galley: GALLEY_LINE_WRITE -/

theorem writeUnit_now (s : State) (tag : Tag) (k : Nat) (bs : List Byte) : (s.writeUnit tag k bs).now = s.now := by
  unfold State.writeUnit
  dsimp only
  split
  · rfl
  · split
    · rfl
    · rfl

theorem write_now (s : State) (tag : Tag) (k : Nat) (bs : List Byte) : (s.write tag k bs).now = s.now := by
  unfold State.write
  split
  · generalize unitRuns k bs.length = l
    have hfold : ∀ a : State × List Byte, (l.foldl (fun (a : State × List Byte) r =>
        (a.1.writeUnit tag r.1 (a.2.take r.2), a.2.drop r.2)) a).1.now = a.1.now := by
      induction l with
      | nil => exact fun _ => rfl
      | cons r l ih => exact fun a => (ih _).trans (writeUnit_now ..)
    exact hfold _
  · rfl

theorem writeUser_now (s : State) (tag : Tag) (k : Nat) (bs : List Byte) : (s.writeUser tag k bs).now = s.now := by
  unfold State.writeUser
  split
  · exact write_now ..
  · exact write_now ..

theorem isVoid_eq_false_of_isVault {k : Nat} (h : isVault k = true) : isVoid k = false := by
  simp only [isVault, decide_eq_true_eq] at h
  simp only [isVoid, decide_eq_false_iff_not]
  omega

theorem isVirt_eq_false_of_isVault {k : Nat} (h : isVault k = true) : isVirt k = false := by
  simp only [isVault, decide_eq_true_eq] at h
  simp only [isVirt, Bool.and_eq_false_iff, decide_eq_false_iff_not]
  omega

section
variable {s : State} {id : Nat} {g : Galley}

/-- A galley that is neither a PUT nor a collective moves its lines. -/
theorem execGalleyLineWrite_moves (hg : Tbl.find s.galleys id = some g) (hp : ∀ a b c d, g.job ≠ .put a b c d)
    (hc : ∀ a b c, g.job ≠ .coll a b c) : execGalleyLineWrite id s = moveLine id s := by
  simp only [execGalleyLineWrite, hg]

/-- A whole line of a current galley is written to the vault. -/
theorem landLine_vault {p : Piece} {bs : List Byte} (hb : bs ≠ []) (hh : p.holes = []) (hv : isVault p.dst = true)
    (hgen : s.gen g.vf = g.gen) : s.landLine id g p bs false = .ok (s.writeUser ⟨false, g.vf, g.gen⟩ p.dst bs) := by
  have hruns : writtenRuns 0 bs [] = [(0, bs)] := by simp [writtenRuns, hb]
  unfold State.landLine
  dsimp only
  rw [if_neg (by simp [isVoid_eq_false_of_isVault hv]), if_neg (by simp [isVirt_eq_false_of_isVault hv]),
    if_neg (by simp [isRS_eq_false_of_isVault hv]), if_neg (by simp [hgen]), hh, hruns]
  rfl

theorem moveLine_lands {p : Piece} {fs : List Piece} {bs : List Byte} {t : State} (hg : Tbl.find s.galleys id = some g)
    (hf : g.flight = p :: fs) (hd : p.due ≤ s.now) (hs : p.src = .data bs false) (ht : s.landLine id g p bs false = .ok t) :
    moveLine id s = .next ((t.modGalley id (fun g => { g with flight := fs, ack := max g.ack (t.now + p.ack) })).galleyGo id) := by
  have hgot : p.src.got = some (bs, false) := by rw [hs]; rfl
  simp only [moveLine, hg, hf, hd, hgot, ht, if_true]

theorem moveLine_frozen {p : Piece} {ps : List Piece} (hg : Tbl.find s.galleys id = some g) (hf : g.flight = [])
    (hp : g.plan = p :: ps) (hd : p.due ≤ (s.core g.core).time) (hgang : (s.core g.core).gang = g.gang)
    (hz : (s.core g.core).frozen ≠ none) : moveLine id s = .next (s.after 1 (.galleyLineWrite id)) := by
  have hd' : ¬ (s.core g.core).time < p.due := Nat.not_lt.2 hd
  simp only [moveLine, moveLine.sendNext, hg, hf, hp, home_of_gang hgang, hd', Option.isSome_iff_ne_none.2 hz,
    Bool.true_or, if_true, if_false]
end

/-! ## GALLEY_RETIRE -/

/-- What the retirement of an XFENCE looks at in a core. -/
def Core.fenceView (k : Core) := (k.gang, k.xfence)

theorem fenceView_rearm (k : Core) (off n : Nat) : (rearm k off n).fenceView = k.fenceView := by
  unfold rearm
  split
  · rfl
  · rfl

theorem core_clearMarks (s : State) (p : Nat → Bool) (d : Nat) : (s.clearMarks p).core d = s.core d := rfl

theorem fenceView_writeUnit (s : State) (tag : Tag) (k : Nat) (bs : List Byte) (d : Nat) :
    ((s.writeUnit tag k bs).core d).fenceView = (s.core d).fenceView := by
  unfold State.writeUnit
  extract_lets u fresh mem0 s1
  split
  · rw [core_clearMarks]
    refine (core_modCore_field Core.fenceView (fun k => ?_) d).trans (?_ : (s1.core d).fenceView = _)
    · rw [fenceView_rearm]
      split
      · rfl
      · rfl
    · rfl
  · split
    · rfl
    · rfl

theorem fenceView_write (s : State) (tag : Tag) (k : Nat) (bs : List Byte) (d : Nat) :
    ((s.write tag k bs).core d).fenceView = (s.core d).fenceView := by
  unfold State.write
  split
  · generalize unitRuns k bs.length = l
    have hfold : ∀ a : State × List Byte, ((l.foldl (fun (a : State × List Byte) r =>
        (a.1.writeUnit tag r.1 (a.2.take r.2), a.2.drop r.2)) a).1.core d).fenceView = (a.1.core d).fenceView := by
      induction l with
      | nil => exact fun _ => rfl
      | cons r l ih => exact fun a => (ih _).trans (fenceView_writeUnit ..)
    exact hfold _
  · rfl

theorem fenceView_saveCore (s : State) (c g d : Nat) : ((s.saveCore c g).core d).fenceView = (s.core d).fenceView := by
  unfold State.saveCore
  extract_lets k tag
  split
  · rfl
  · next a _ =>
    extract_lets s1
    have hfold : ∀ (l : List (Nat × List Byte)) (t : State), ((l.foldl (fun (t : State) p =>
        match t.vaultKey k.vf (a + p.1) with
        | some key => t.write tag key p.2
        | none => t) t).core d).fenceView = (t.core d).fenceView := by
      intro l
      induction l with
      | nil => exact fun _ => rfl
      | cons p l ih =>
        intro t
        rw [List.foldl_cons, ih]
        split
        · exact fenceView_write ..
        · rfl
    exact hfold _ s

theorem modGang_core (s : State) (n : Nat) (f : Gang → Gang) (d : Nat) : (s.modGang n f).core d = s.core d := by
  unfold State.modGang
  split
  · rfl
  · rfl

theorem fenceView_takeTrap (s : State) (o : Origin) (cls : TrapClass) (code addr d : Nat) :
    ((s.takeTrap o cls code addr).core d).fenceView = (s.core d).fenceView := by
  have hz : ((s.modCore o.core (fun k => { k with frozen := some .trap })).core d).fenceView = (s.core d).fenceView :=
    core_modCore_field Core.fenceView (fun _ => by rfl) d
  unfold State.takeTrap
  extract_lets k s1 g
  split
  · rfl
  · split
    · extract_lets bytes s2
      have h2 : (s2.core d).fenceView = (s.core d).fenceView := by
        unfold s2
        rw [modGang_core, fenceView_saveCore]
        exact hz
      split
      · exact h2
      · split
        · rwa [core_after]
        · rwa [core_after]
    · rwa [core_send]

/-- A field of a core that its walkers do not touch stands through `retry`. -/
theorem retry_field {α : Type} (P : Core → α) (hP : ∀ k w f, P (Core.modW k w f) = P k) (k : Core) : P k.retry = P k := by
  unfold Core.retry
  generalize allWalkers = l
  induction l generalizing k with
  | nil => rfl
  | cons w l ih =>
    rw [List.foldl_cons, ih]
    exact hP ..

theorem fenceView_modW (k : Core) (w : Walker) (f : WalkerSt → WalkerSt) : (k.modW w f).fenceView = k.fenceView := by
  cases w <;> rfl

theorem fenceView_later (s : State) (c n : Nat) (i : Instr) (d : Nat) :
    ((s.later c n i).core d).fenceView = (s.core d).fenceView := by
  unfold State.later
  exact core_modCore_field Core.fenceView (fun _ => by rfl) d

theorem fenceView_post (s : State) (o : Origin) (n : BitVec 4) (d : Nat) :
    ((s.post o n).core d).fenceView = (s.core d).fenceView := by
  have hsem : ∀ v, ((s.setSem o.core n v).core d).fenceView = (s.core d).fenceView := fun v =>
    core_modCore_field Core.fenceView (fun _ => by rfl) d
  unfold State.post
  extract_lets v w s1
  split
  · rfl
  · split
    · rw [core_modCore_field Core.fenceView (retry_field _ fenceView_modW) d, hsem]
    · split
      · rw [fenceView_later, hsem]
      · rw [fenceView_takeTrap, hsem]

theorem fenceView_finish (s : State) (o : Origin) (d : Nat) : ((s.finish o).core d).fenceView = (s.core d).fenceView := by
  unfold State.finish State.complete
  rw [fenceView_post, fenceView_post]
  exact core_modCore_field Core.fenceView (fun k => fenceView_modW k _ _) d

/-- A word that is complete where its core runs its gang, with no fence waiting there. -/
theorem finishHome_fenceDone {s : State} {gang : Nat} {o : Origin} (hg : (s.core o.core).gang = gang)
    (hx : (s.core o.core).xfence = none) : (s.finishHome gang o).fenceDone gang o.core = s.finish o := by
  have hv := fenceView_finish s o o.core
  simp only [Core.fenceView, Prod.mk.injEq, hg, hx] at hv
  obtain ⟨hgang, hfence⟩ := hv
  have hf : s.finishHome gang o = s.finish o := if_pos hg
  rw [hf]
  unfold State.fenceDone
  rw [home_of_gang hgang, hfence]
/-- What a galley that retires may change of a core, and what it reads of it. -/
def Core.books (k : Core) := (k.gang, k.vf, k.x, k.counters, k.tcache, k.xfence)

theorem books_modW (k : Core) (w : Walker) (f : WalkerSt → WalkerSt) : (k.modW w f).books = k.books := by
  cases w <;> rfl

theorem books_retry (k : Core) : k.retry.books = k.books := retry_field _ books_modW k

/-- A galley's completion in its counter, if it names one. -/
def Galley.bookedIn (g : Galley) (s : State) : State :=
  match g.counter with
  | some n => s.countHome g.gang g.core n g.code
  | none => s

/-- The dispenser's advance that a galley sends as a release, if its card asks for one. -/
def Galley.advancedIn (g : Galley) (s : State) : State :=
  match (if g.disp.getLsbD 15 then scopeOf (bitsOf g.disp.toNat 10 8) else none) with
  | some sc => s.after 0 (.releaseTakesEffect g.o sc (g.o.age + 1) (.advance g.gang (g.disp.setWidth 8) g.vf g.gen))
  | none => s

/-- The state without a galley: its translations are counted down, and walkers that it held are tried again. -/
def State.without (s : State) (id : Nat) (g : Galley) : State :=
  (({ s with galleys := Tbl.del s.galleys id } : State).modCore g.core
    (fun k => k.holdPages g.pages (· - 1))).modHome g.gang g.core Core.retry

/-- The state that a galley leaves when it retires, before its word is complete. -/
def State.leaves (s : State) (id : Nat) (g : Galley) : State := g.advancedIn (g.bookedIn (s.without id g))

/-- The prefetch's fills that are still to come hold its retirement. -/
def Galley.fillsIn (g : Galley) (k : Core) : Prop :=
  ∃ tb t f n, g.job = .pref tb t f n ∧ ∃ d c x, (d, Instr.operandCacheFill c x) ∈ k.agenda ∧ x.tensor = t

section
variable {s : State} {id : Nat} {g : Galley}

theorem execGalleyRetire_fills (hg : Tbl.find s.galleys id = some g) (h : g.fillsIn (s.home g.gang g.core)) :
    execGalleyRetire id s = .next (s.after 1 (.galleyRetire id)) := by
  obtain ⟨tb, t, f, n, hj, d, c, x, hmem, hx⟩ := h
  have hany : (s.home g.gang g.core).agenda.any (fun e => match e.2 with
      | .operandCacheFill _ k => k.tensor = t
      | _ => false) = true :=
    List.any_eq_true.2 ⟨_, hmem, by simpa using hx⟩
  simp only [execGalleyRetire, hg, hj]
  rw [if_pos]
  exact hany

/-- A galley without fills to come retires once its lines have gone and are acknowledged. -/
theorem execGalleyRetire_of_not_fills (hg : Tbl.find s.galleys id = some g) (h : ¬ g.fillsIn (s.home g.gang g.core)) :
    execGalleyRetire id s =
      if !(g.plan.isEmpty && g.flight.isEmpty && g.started && g.waitAck = 0 && g.ack ≤ s.now) then .next s
      else .next (((s.leaves id g).finishHome g.gang g.o).fenceDone g.gang g.core) := by
  unfold execGalleyRetire
  simp only [hg]
  refine (if_neg fun hf => h ?_).trans rfl
  split at hf
  · next tb t f n hj =>
    obtain ⟨⟨d, i⟩, he, hx⟩ := List.any_eq_true.1 hf
    dsimp only at hx
    split at hx
    · next c x => exact ⟨tb, t, f, n, hj, d, c, x, he, by simpa using hx⟩
    · cases hx
  · cases hf

/-- A galley with a line that is still to come, or unacknowledged, does not retire yet. -/
theorem execGalleyRetire_waits (hg : Tbl.find s.galleys id = some g) (h : ¬ g.fillsIn (s.home g.gang g.core))
    (hw : g.plan ≠ [] ∨ g.flight ≠ [] ∨ g.started = false ∨ g.waitAck ≠ 0 ∨ s.now < g.ack) :
    execGalleyRetire id s = .next s := by
  have hc : (g.plan.isEmpty && g.flight.isEmpty && g.started && decide (g.waitAck = 0) && decide (g.ack ≤ s.now)) = false := by
    obtain h | h | h | h | h := hw
    · simp [h]
    · simp [h]
    · simp [h]
    · simp [h]
    · simp [Nat.not_le.2 h]
  rw [execGalleyRetire_of_not_fills hg h, hc]
  rfl

theorem bookedIn_frame {α : Type} {P : State → α} (hP : ∀ (t : State) f, P (t.modHome g.gang g.core f) = P t) (t : State) :
    P (g.bookedIn t) = P t := by
  unfold Galley.bookedIn
  split
  · exact hP ..
  · rfl

theorem advancedIn_core (t : State) (d : Nat) : (g.advancedIn t).core d = t.core d := by
  unfold Galley.advancedIn
  split
  · rfl
  · rfl

theorem modHome_galleys (t : State) (gang c : Nat) (f : Core → Core) : (t.modHome gang c f).galleys = t.galleys := by
  unfold State.modHome
  split
  · rfl
  · rfl

theorem modHome_agenda (t : State) (gang c : Nat) (f : Core → Core) : (t.modHome gang c f).agenda = t.agenda := by
  unfold State.modHome
  split
  · rfl
  · rfl

theorem leaves_galleys : (s.leaves id g).galleys = Tbl.del s.galleys id := by
  have hb : (g.bookedIn (s.without id g)).galleys = Tbl.del s.galleys id := by
    rw [bookedIn_frame (P := State.galleys) fun t f => modHome_galleys .., State.without, modHome_galleys]
    rfl
  unfold State.leaves Galley.advancedIn
  split
  · exact hb
  · exact hb

theorem leaves_mem : (s.leaves id g).mem = s.mem := by
  have hb : (g.bookedIn (s.without id g)).mem = s.mem := by
    rw [bookedIn_frame (P := State.mem) fun t f => modHome_mem .., State.without, modHome_mem]
    rfl
  unfold State.leaves Galley.advancedIn
  split
  · exact hb
  · exact hb

theorem bookedIn_without_agenda : (g.bookedIn (s.without id g)).agenda = s.agenda := by
  rw [bookedIn_frame (P := State.agenda) fun t f => modHome_agenda .., State.without, modHome_agenda]
  rfl

theorem leaves_agenda_of_quiet (h : g.disp.getLsbD 15 = false) : (s.leaves id g).agenda = s.agenda := by
  unfold State.leaves Galley.advancedIn
  rw [h]
  exact bookedIn_without_agenda

theorem leaves_agenda_of_advance {sc : Scope} (h : g.disp.getLsbD 15 = true)
    (hsc : scopeOf (bitsOf g.disp.toNat 10 8) = some sc) : (s.leaves id g).agenda =
      addDue s.now (.releaseTakesEffect g.o sc (g.o.age + 1) (.advance g.gang (g.disp.setWidth 8) g.vf g.gen)) s.agenda := by
  have hnow : ∀ (t : State) f, (t.modHome g.gang g.core f).now = t.now := by
    intro t f
    unfold State.modHome
    split
    · rfl
    · rfl
  have hb : (g.bookedIn (s.without id g)).now = s.now := by
    rw [bookedIn_frame (P := State.now) hnow, State.without, hnow]
    rfl
  unfold State.leaves Galley.advancedIn
  simp only [h, hsc, if_true, State.after, hb, bookedIn_without_agenda, Nat.add_zero]

theorem without_gen (v : BitVec 6) : (s.without id g).gen v = s.gen v := by
  unfold State.without State.modHome
  split
  · rfl
  · rfl

/-- The core of a galley that retires and names no counter. -/
theorem leaves_core_of_none (hc : g.counter = none) : (s.leaves id g).core g.core = (s.without id g).core g.core := by
  unfold State.leaves Galley.bookedIn
  rw [advancedIn_core, hc]

section
variable (hgang : (s.core g.core).gang = g.gang)
include hgang

theorem without_core : (s.without id g).core g.core = ((s.core g.core).holdPages g.pages (· - 1)).retry := by
  have h1 : ((({ s with galleys := Tbl.del s.galleys id } : State).modCore g.core
      (fun k => k.holdPages g.pages (· - 1))).core g.core) = (s.core g.core).holdPages g.pages (· - 1) := core_modCore ..
  unfold State.without
  rw [modHome_of_gang (by rw [h1]; exact hgang), core_modCore, h1]

theorem without_books : ((s.without id g).core g.core).books = ((s.core g.core).holdPages g.pages (· - 1)).books := by
  rw [without_core hgang, books_retry]

/-- The core of a galley that retires and names a counter. -/
theorem leaves_core_of_some {n : BitVec 4} (hc : g.counter = some n) : (s.leaves id g).core g.core =
    ((s.without id g).core g.core).count ⟨false, (s.core g.core).vf, s.gen (s.core g.core).vf⟩ n g.code := by
  have hb := without_books (id := id) hgang
  simp only [Core.books, Prod.mk.injEq] at hb
  obtain ⟨hg, hv, -⟩ := hb
  have hg' : ((s.without id g).core g.core).gang = g.gang := hg.trans hgang
  have hv' : ((s.without id g).core g.core).vf = (s.core g.core).vf := hv
  unfold State.leaves Galley.bookedIn State.countHome
  rw [advancedIn_core, hc]
  dsimp only
  rw [modHome_of_gang hg', core_modCore, without_gen, hv']

theorem leaves_fence : ((s.leaves id g).core g.core).gang = g.gang ∧
    ((s.leaves id g).core g.core).xfence = (s.core g.core).xfence ∧ ((s.leaves id g).core g.core).x = (s.core g.core).x ∧
    ((s.leaves id g).core g.core).tcache = ((s.core g.core).holdPages g.pages (· - 1)).tcache := by
  have hb := without_books (id := id) hgang
  simp only [Core.books, Prod.mk.injEq] at hb
  obtain ⟨hg, -, hx, -, ht, hf⟩ := hb
  cases hc : g.counter with
  | none =>
    rw [leaves_core_of_none hc]
    exact ⟨hg.trans hgang, hf, hx, ht⟩
  | some n =>
    rw [leaves_core_of_some hgang hc]
    generalize (s.without id g).core g.core = k at hg hx ht hf ⊢
    exact ⟨hg.trans hgang, hf, hx, ht⟩

theorem without_counters : ((s.without id g).core g.core).counters = (s.core g.core).counters := by
  have hb := without_books (id := id) hgang
  simp only [Core.books, Prod.mk.injEq] at hb
  obtain ⟨-, -, -, hk, -, -⟩ := hb
  exact hk
theorem leaves_counters_of_none (hc : g.counter = none) :
    ((s.leaves id g).core g.core).counters = (s.core g.core).counters := by
  rw [leaves_core_of_none hc, without_counters hgang]
end

/-- A counter of the core's own tag after a completion. -/
theorem find_count {k : Core} {tag : Tag} {n : BitVec 4} {c : Counter} {code : Byte}
    (hc : Tbl.find k.counters n.toNat = some c) (ht : c.tag = tag) (hg : tag.gen ≠ 0) :
    Tbl.find (k.count tag n code).counters n.toNat = some (if code = 0 then { c with done := min (2 ^ 32 - 1) (c.done + 1) }
      else { c with done := min (2 ^ 32 - 1) (c.done + 1), errs := min (2 ^ 16 - 1) (c.errs + 1), last := code }) := by
  have hget : Tbl.get k.counters n.toNat ⟨voidTag, 0, 0, 0⟩ = c := by simp [Tbl.get, hc]
  unfold Core.count
  simp only [hget, ht, tagOk_self hg, if_true, find_put, satAdd, Nat.min_comm]

theorem find_count_ne {k : Core} {tag : Tag} {n : BitVec 4} {code : Byte} {m : Nat} (h : m ≠ n.toNat) :
    Tbl.find (k.count tag n code).counters m = Tbl.find k.counters m := find_put_ne _ _ h

theorem mem_holdPages {k : Core} {pages : List Nat} {f : Nat → Nat} {x : TEnt} : x ∈ (k.holdPages pages f).tcache ↔
    ∃ y ∈ k.tcache, x = (if y.id ∈ pages then { y with count := f y.count } else y) ∧ ¬(x.gone = true ∧ x.count = 0) := by
  unfold Core.holdPages
  simp only [List.mem_filter, List.mem_map, List.contains_iff_mem, Bool.not_eq_true', Bool.and_eq_false_iff,
    decide_eq_false_iff_not, not_and]
  constructor
  · rintro ⟨⟨y, hy, rfl⟩, hx⟩
    exact ⟨y, hy, rfl, fun hg => by simpa [hg] using hx⟩
  · rintro ⟨y, hy, rfl, hx⟩
    refine ⟨⟨y, hy, rfl⟩, ?_⟩
    by_cases hg : (if y.id ∈ pages then { y with count := f y.count } else y).gone = true
    · exact .inr (hx hg)
    · exact .inl (by simpa using hg)

/-- A galley that is done leaves, and its word is complete. -/
theorem execGalleyRetire_leaves (hg : Tbl.find s.galleys id = some g) (h : ¬ g.fillsIn (s.home g.gang g.core))
    (ho : g.o.core = g.core) (hgang : (s.core g.core).gang = g.gang) (hx : (s.core g.core).xfence = none)
    (hp : g.plan = []) (hf : g.flight = []) (hs : g.started = true) (hw : g.waitAck = 0) (ha : g.ack ≤ s.now) :
    execGalleyRetire id s = .next ((s.leaves id g).finish g.o) := by
  obtain ⟨hg', hf', -, -⟩ := leaves_fence (id := id) hgang
  rw [execGalleyRetire_of_not_fills hg h, if_neg (by simp [hp, hf, hs, hw, ha])]
  rw [← ho] at hg' hf' ⊢
  rw [finishHome_fenceDone hg' (hf'.trans (by rw [ho]; exact hx))]
end

/-! ## The coalescer (R233) -/

theorem coalescer_first {s : State} {n : Nat} {l : CoalLine} (h : ∀ e ∈ s.coalescer, e.1 < n → e.2.key ≠ l.key) :
    s.coalescer.any (fun e => decide (e.1 < n) && decide (e.2.key = l.key)) = false := by
  rw [List.any_eq_false]
  intro e he
  simpa using h e he

theorem execCoalescerSend_goes {s : State} {n : Nat} {l : CoalLine} (hl : Tbl.find s.coalescer n = some l)
    (h : ∀ e ∈ s.coalescer, e.1 < n → e.2.key ≠ l.key) (hp : l.host = true ∨ s.poolDown.contains (s.poolPort l.key) = false) :
    execCoalescerSend n s = .next ((State.send { s with coalescer := Tbl.put s.coalescer n { l with sent := true } }
      (if l.host then .hostLine l.key (l.bytes.map (fun b => b.getD 0)) else .poolLine l.key (l.bytes.map (fun b => b.getD 0)))).after
        (Config.deviceDelay n) (.poolAck n)) := by
  have hup : (!l.host && s.poolDown.contains (s.poolPort l.key)) = false := by
    obtain hp | hp := hp
    · simp [hp]
    · rw [hp, Bool.and_false]
  simp only [execCoalescerSend, hl, coalescer_first h, hup, Bool.false_eq_true, if_false]

theorem execCoalescerSend_down {s : State} {n : Nat} {l : CoalLine} (hl : Tbl.find s.coalescer n = some l)
    (h : ∀ e ∈ s.coalescer, e.1 < n → e.2.key ≠ l.key) (hh : l.host = false)
    (hp : s.poolDown.contains (s.poolPort l.key) = true) :
    execCoalescerSend n s = .next (s.after 0 (.poolPortDown (BitVec.ofNat 4 (s.poolPort l.key)))) := by
  simp only [execCoalescerSend, hl, coalescer_first h, hh, hp, Bool.false_eq_true, if_false, Bool.not_false, Bool.and_self,
    if_true]

/-- The bytes of a line as its device then holds them: those that the line has, and the others as they were. -/
def CoalLine.merged (l : CoalLine) (m : Memory) : List Byte :=
  List.zipWith (fun (a : Byte) (b : Option Byte) => b.getD a) (memRead m l.key 64) l.bytes

theorem execPoolAck_mem {s : State} {n : Nat} {l : CoalLine} (hl : Tbl.find s.coalescer n = some l) :
    ∃ t : State, execPoolAck n s = .next t ∧ t.mem = memWrite s.mem l.key (l.merged s.mem) := by
  unfold execPoolAck
  simp only [hl]
  refine ⟨_, rfl, ?_⟩
  have hdirty : ∀ (p : Prop) [Decidable p] (t : State) v f, (if p then t.modVf v f else t).mem = t.mem := by
    intro p _ t v f
    split
    · rfl
    · rfl
  split
  · rw [after_mem, modGalley_mem, hdirty, mark_mem]
    rfl
  · rw [hdirty, mark_mem]
    rfl

/-- A byte of the line's place after its acknowledgement. -/
theorem memByte_merged {m : Memory} {l : CoalLine} (hlen : l.bytes.length = 64) {i : Nat} (hi : i < 64) :
    memByte (memWrite m l.key (l.merged m)) (l.key + i) = (l.bytes.getD i none).getD (memByte m (l.key + i)) := by
  have hin : i < (l.merged m).length := by simpa [CoalLine.merged, hlen] using hi
  have hb : l.bytes.getD i none = l.bytes[i]'(by omega) := by simp [hlen, hi]
  rw [memByte_memWrite_in _ _ _ hin, hb]
  simp only [CoalLine.merged, List.getElem_zipWith, memRead_getElem]

theorem memByte_merged_outside {m : Memory} {l : CoalLine} (hlen : l.bytes.length = 64) {a : Nat}
    (ha : a < l.key ∨ l.key + 64 ≤ a) : memByte (memWrite m l.key (l.merged m)) a = memByte m a :=
  memByte_memWrite_out _ _ (by simpa [CoalLine.merged, hlen] using ha)

/-! ## GXCH (R281, R282) -/

/-- What a GXCH publishes: the image kept when the compute phase closed, or the states as they stand. -/
def Galley.image (g : Galley) (s : State) : List Byte :=
  match g.plan.head?.map (fun p => p.src) with
  | some (PieceSrc.data bs _) => bs
  | _ => s.stateImage g.core

/-- The lines of an image, over the ranges that it goes to. -/
def publishPlan (img : List Byte) (ws : List Rng) : List Piece :=
  (ws.foldl (fun (a : Nat × List Piece) w =>
    (a.1 + w.len, a.2 ++ (splitAt 64 (w.len / 64 + 2) w.key w.len).map (fun p =>
      .of (.data ((img.drop (a.1 + (p.1 - w.key))).take p.2) false) p.1 0 0))) (0, [])).2

theorem publishPlan_line {img : List Byte} {w : Rng} (hl : w.len = 64) (hk : w.key % 64 = 0) :
    publishPlan img [w] = [.of (.data (img.take 64) false) w.key 0 0] := by
  have hs : splitAt 64 (w.len / 64 + 2) w.key w.len = [(w.key, 64)] := by
    simp [hl, splitAt, hk]
  simp [publishPlan, hs]

section
variable {s : State} {id : Nat} {g : Galley}

theorem execGxchPublish_of_find (hg : Tbl.find s.galleys id = some g) :
    execGxchPublish id s = .next (s.startCopy id g (publishPlan (g.image s) g.writes) 0) := by
  unfold execGxchPublish
  simp only [hg]
  rfl

theorem execGxchFetch_no_phase (hg : Tbl.find s.galleys id = some g) (hp : (s.gang g.gang).bind (fun v => v.phase) = none) :
    execGxchFetch id s = .next (s.after 1 (.gxchFetch id)) := by
  simp only [execGxchFetch, hg, hp]

/-- The galleys of a phase that have published, with one more. -/
def Phase.publishedWith (ph : Phase) (id : Nat) : List Nat :=
  if ph.published.contains id then ph.published else ph.published ++ [id]

/-- The state in which a galley counts as published. -/
def State.notePublished (s : State) (id : Nat) (g : Galley) (ph : Phase) : State :=
  s.modGang g.gang (fun v => { v with phase := some { ph with published := ph.publishedWith id } })

theorem execGxchFetch_waits {ph : Phase} (hg : Tbl.find s.galleys id = some g)
    (hp : (s.gang g.gang).bind (fun v => v.phase) = some ph)
    (hw : ∃ e ∈ s.galleys, e.2.gang = g.gang ∧ e.2.job = .gxch ∧ e.1 ∉ ph.publishedWith id) :
    execGxchFetch id s = .next ((s.notePublished id g ph).after 1 (.gxchFetch id)) := by
  have hall : (s.galleys.all (fun e => !(decide (e.2.gang = g.gang) && decide (e.2.job = .gxch)) ||
      (ph.publishedWith id).contains e.1)) = false := by
    obtain ⟨e, he, hgang, hj, hn⟩ := hw
    exact List.all_eq_false.2 ⟨e, he, by simp [hgang, hj, hn]⟩
  unfold Phase.publishedWith at hall
  unfold execGxchFetch
  simp only [hg, hp, modGang_galleys, hall, Bool.not_false, if_true]
  rfl

theorem execGxchFetch_reads {ph : Phase} (hg : Tbl.find s.galleys id = some g)
    (hp : (s.gang g.gang).bind (fun v => v.phase) = some ph)
    (hw : ∀ e ∈ s.galleys, e.2.gang = g.gang → e.2.job = .gxch → e.1 ∈ ph.publishedWith id) :
    execGxchFetch id s = .next (State.after (State.modGalley
      (if g.reads.any (fun r => s.anyBad ⟨false, g.vf, g.gen⟩ r.key r.len) then
        (s.notePublished id g ph).modHome g.gang g.core (fun k => { k with xpoison := satAdd 16 k.xpoison 1 })
        else s.notePublished id g ph) id (fun g' => { g' with
        flight := [.of (.data (g'.reads.flatMap (fun r => s.readClean ⟨false, g.vf, g.gen⟩ r.key r.len))
          (g.reads.any (fun r => s.anyBad ⟨false, g.vf, g.gen⟩ r.key r.len))) 0 0 0] }))
      (g.reads.foldl (fun a r => match siteOf r.key with
        | some d => max a (if d = g.core then 12 else lineLatency g.core d)
        | none => a) 0 + ((g.reads.foldl (fun a r => a + r.len) 0) + 63) / 64) (.gxchRetire id)) := by
  have hall : (s.galleys.all (fun e => !(decide (e.2.gang = g.gang) && decide (e.2.job = .gxch)) ||
      (ph.publishedWith id).contains e.1)) = true := by
    refine List.all_eq_true.2 fun e he => ?_
    have := hw e he
    by_cases hgang : e.2.gang = g.gang
    · by_cases hj : e.2.job = .gxch
      · simp [this hgang hj]
      · simp [hj]
    · simp [hgang]
  have hfind : Tbl.find (if g.reads.any (fun r => s.anyBad ⟨false, g.vf, g.gen⟩ r.key r.len) then
      (s.notePublished id g ph).modHome g.gang g.core (fun k => { k with xpoison := satAdd 16 k.xpoison 1 })
      else s.notePublished id g ph).galleys id = some g := by
    unfold State.notePublished
    split
    · rwa [modHome_galleys, modGang_galleys]
    · rwa [modGang_galleys]
  rw [modGalley_of_find hfind]
  unfold State.notePublished Phase.publishedWith at hfind ⊢
  unfold Phase.publishedWith at hall
  unfold execGxchFetch
  simp only [hg, hp, modGang_galleys, hall, Bool.not_true, Bool.false_eq_true, if_false]
  rw [modGalley_of_find hfind]
  rfl

/-- The halo memory is replaced whole. -/
theorem execGxchRetire_current {p : Piece} {fs : List Piece} {bs : List Byte} {bad : Bool}
    (hg : Tbl.find s.galleys id = some g) (hf : g.flight = p :: fs) (hs : p.src = .data bs bad) (hgen : s.gen g.vf = g.gen)
    (hgang : (s.core g.core).gang = g.gang) : execGxchRetire id s = .next (State.after ((s.modCore g.core (fun k => { k with
      gibbs := { k.gibbs with halo := bs, haloTag := ⟨false, g.vf, g.gen⟩ } })).modGalley id (fun g => { g with
        flight := [], moved := true })) 0 (.galleyRetire id)) := by
  simp only [execGxchRetire, hg, hf, hs, hgen, modHome_of_gang hgang, ne_eq, not_true_eq_false, if_false]

theorem modGalley_core (t : State) (f : Galley → Galley) (c : Nat) : (t.modGalley id f).core c = t.core c := by
  unfold State.modGalley
  split
  · rfl
  · rfl
end
/-! ## The obligation about galleys -/

/-- Settles O48, each event by the lemmas about its galley. -/
theorem galleyEvents : Obligations.GalleyEvents := by
  unfold Obligations.GalleyEvents
  refine ⟨?_, ?_, fun _ _ => rfl, ?_, ?_, fun _ _ _ _ _ _ hq => mem_empty_markEmpty hq, ?_, ?_, ?_, ?_, ?_, ?_, ?_, ?_, ?_, ?_, ?_⟩
  · intro id s hg
    have hstart : execGalleyStart id s = .next s := by simp only [execGalleyStart, hg]
    have haccept : execGalleyAccept id s = .next s := by simp only [execGalleyAccept, hg]
    have hline : execGalleyLineWrite id s = .next s := by simp only [execGalleyLineWrite, hg]
    have hretire : execGalleyRetire id s = .next s := by simp only [execGalleyRetire, hg]
    have hpublish : execGxchPublish id s = .next s := by simp only [execGxchPublish, hg]
    have hfetch : execGxchFetch id s = .next s := by simp only [execGxchFetch, hg]
    have hhalo : execGxchRetire id s = .next s := by simp only [execGxchRetire, hg]
    exact ⟨hstart, haccept, hline, hretire, hpublish, hfetch, hhalo⟩
  · intro id s g hg
    refine ⟨fun h => execGalleyStart_started hg h, fun h hw => execGalleyStart_waits hg h (mayStart_eq_false hw),
      fun h hm => ⟨fun hj => ?_, fun dm dc sp a hj => ?_, fun hx hp hc hl => execGalleyStart_copy hg h hm hx hp hc hl⟩⟩
    · exact execGalleyStart_gxch hg h hm hj
    · exact execGalleyStart_put hg h hm hj
  · intro id oor s g plan hg
    obtain ⟨h, hh, hs, ho⟩ := startCopy_galley hg plan oor
    exact ⟨h, hh, hs, ho, startCopy_mem ..⟩
  · intro id s g hg
    refine ⟨fun h => execGalleyAccept_accepted hg h, fun h hs => execGalleyAccept_gone hg h hs, fun h hs hn => ⟨fun hr => ?_, ?_⟩⟩
    · exact execGalleyAccept_ready hg h hs hn hr
    · rintro ⟨r, hr, hf⟩
      exact (execGalleyAccept_current hg h hs hn).trans (if_neg (Bool.eq_false_iff.1 (acceptable_eq_false hr hf)))
  · intro id s g p fs bs hg hp hc hf hd hs hb hh hv hgen
    refine (execGalleyLineWrite_moves hg hp hc).trans ((moveLine_lands hg hf hd hs (landLine_vault hb hh hv hgen)).trans ?_)
    rw [writeUser_now]
  · intro id s g p ps hg hp hc hf hpl hd hgang hz
    exact (execGalleyLineWrite_moves hg hp hc).trans (moveLine_frozen hg hf hpl hd hgang hz)
  · intro id s g hg hpref ho hgang hx
    have hfill : ¬ g.fillsIn (s.home g.gang g.core) := by
      rintro ⟨tb, t, f, n, hj, d, c, x, hmem, hx⟩
      rw [home_of_gang hgang] at hmem
      exact hpref tb t f n hj _ hmem c x rfl hx
    refine ⟨fun hw => execGalleyRetire_waits hg hfill hw, fun hp hf hs hw ha => ⟨s.leaves id g,
      execGalleyRetire_leaves hg hfill ho hgang hx hp hf hs hw ha, leaves_galleys, leaves_mem, ?_⟩⟩
    obtain ⟨-, -, hregs, hcache⟩ := leaves_fence (id := id) hgang
    refine ⟨hregs, fun hc => leaves_counters_of_none hgang hc, fun n c hc hk ht hgen => ?_, fun x => ?_,
      fun h => leaves_agenda_of_quiet h, fun sc h hsc => leaves_agenda_of_advance h hsc⟩
    · rw [leaves_core_of_some hgang hc]
      rw [← without_counters (id := id) hgang] at hk ⊢
      exact ⟨find_count hk ht (ht ▸ hgen), fun m hm => find_count_ne hm⟩
    · rw [hcache]
      exact mem_holdPages
  · intro id s g tb t f n hg hj hfill
    obtain ⟨d, c, x, hmem, hx⟩ := hfill
    exact execGalleyRetire_fills hg ⟨tb, t, f, n, hj, d, c, x, hmem, hx⟩
  · intro n s l hl h hp
    exact ⟨_, execCoalescerSend_goes hl h hp, find_put .., rfl, rfl⟩
  · intro n s l hl h hh hp
    exact execCoalescerSend_down hl h hh hp
  · intro n s l a hl _ hlen
    obtain ⟨t, ht, hmem⟩ := execPoolAck_mem hl
    refine ⟨t, ht, fun ha => ?_, fun i b hi hb => ?_, fun i hi hb => ?_⟩
    · rw [hmem, memByte_merged_outside hlen ha]
    · rw [hmem, memByte_merged hlen hi, hb]
      rfl
    · rw [hmem, memByte_merged hlen hi, hb]
      rfl
  · intro id s g hg
    refine ⟨_, execGxchPublish_of_find hg, fun w hw hl hk _ => ⟨fun hp => ?_, fun p ps bs bad hp hs => ?_⟩⟩
    · rw [hw, publishPlan_line hl hk, Galley.image, hp]
      rfl
    · rw [hw, publishPlan_line hl hk, Galley.image, hp, List.head?_cons, Option.map_some, hs]
  · intro id s g hg hp
    exact execGxchFetch_no_phase hg hp
  · intro id s g ph hg hp
    refine ⟨fun hw => ?_, fun hw => ?_⟩
    · exact execGxchFetch_waits hg hp hw
    · intro own bad far
      exact execGxchFetch_reads hg hp hw
  · intro id s g p fs bs bad hg hf hs hgen hgang
    refine ⟨_, execGxchRetire_current hg hf hs hgen hgang, ?_, ?_, modGalley_mem ..⟩
    · rw [modGalley_core, core_modCore]
    · rw [modGalley_core, core_modCore]

end Sys2Proof.Machine
end

section
namespace Sys2Proof.Machine

/-! ## A step (R12 to R16) -/

section
variable {s : State} {c : Nat} {w : Walker}

/-- A step with no input, no due event and no kernel end is the next walker's attempt. -/
theorem step_of_attempt {i : Instr} {t : State} (hin : s.inputs = []) (hd : dueEvent s = none) (he : endedCore s = none)
    (hn : nextWalker s = some (c, w)) (ha : attempt s c w = .run i t) : step s = exec i t := by
  unfold step
  simp only [hin, hd, he, hn, ha]

/-- The attempt of a walker that may go on, at a word of its own that decodes. -/
theorem attempt_runs {i : Instr} (hb : ((s.core c).w w).blocked = false)
    (hr : ((s.core c).w w).readyAt ≤ (s.core c).time) (hp : ((s.core c).w w).passes < 4) (hs : (s.core c).slipOk w = true)
    (hi : ((s.core c).w w).index < (s.core c).words)
    (ht : isTransfer (s.textWord c ((s.core c).w w).index) = true → w = .C)
    (hm : mine w (s.textWord c ((s.core c).w w).index) = true)
    (hdec : decodeNext { s with cur := c, curW := w } c w = .ok i) :
    attempt s c w = .run i (State.modW { s with cur := c, curW := w } c w
      (fun v => { v with addrAdd := stepAdd ((s.core c).w w) })) := by
  have hcore : State.core { s with cur := c, curW := w } c = s.core c := rfl
  have htext : State.textWord { s with cur := c, curW := w } c = s.textWord c := rfl
  have hgo : (((s.core c).w w).blocked || decide ((s.core c).time < ((s.core c).w w).readyAt) ||
      decide (4 ≤ ((s.core c).w w).passes)) = false := by simp [hb, hr, hp]
  have hfollow : (isTransfer (s.textWord c ((s.core c).w w).index) && decide (w ≠ .C)) = false := by
    rw [Bool.and_eq_false_iff, decide_eq_false_iff_not, not_not]
    exact (Bool.eq_false_or_eq_true _).symm.imp_right ht
  unfold attempt
  simp only [hcore, htext, hgo, hs, hm, hfollow, hdec, Nat.not_le.2 hi, Bool.false_eq_true, Bool.not_true, if_false]
  exact congrArg _ (modCore_congr (by rw [hcore]; unfold Core.modW; rfl))

/-- What is decoded next at a walker with no REP. -/
theorem decodeNext_plain {i : Instr} (hrep : ((s.core c).w w).rep = none)
    (h : decodeWord (s.dctx c) (s.textWord c ((s.core c).w w).index) = .ok i) : decodeNext s c w = .ok (resolve s c i) := by
  unfold decodeNext
  simp only [hrep, h]
  rfl

/-- What is decoded next at a walker with a REP: its word with the steppable fields moved (R53). -/
theorem decodeNext_rep {i : Instr} {r : RepSt} {word : IWord} (hrep : ((s.core c).w w).rep = some r)
    (hw : steppedWord (s.textWord c ((s.core c).w w).index) ((r.iter : Int) * r.regstep) = some word)
    (h : decodeWord (s.dctx c) word = .ok i) : decodeNext s c w = .ok (resolve s c i) := by
  unfold decodeNext
  simp only [hrep, hw, h]
  rfl
end

/-- Settles O8: the attempt of the walker that is next runs what is decoded at it. -/
theorem stepRunsTheDecodedWord : Obligations.StepRunsTheDecodedWord := by
  unfold Obligations.StepRunsTheDecodedWord
  intro s c w i hin hd he hn hb hr hp hs hi ht hm
  refine ⟨fun hrep hdec => ?_, fun r word hrep hw hdec => ?_⟩
  · rw [step_of_attempt hin hd he hn (attempt_runs hb hr hp hs hi ht hm (decodeNext_plain hrep hdec)), stepAdd, hrep]
    rfl
  · rw [step_of_attempt hin hd he hn (attempt_runs hb hr hp hs hi ht hm (decodeNext_rep hrep hw hdec)), stepAdd, hrep]
    rfl

/-- Settles O9, in the order of the model (log entry 3). -/
theorem stepRunsEventsFirst : Obligations.StepRunsEventsFirst := by
  unfold Obligations.StepRunsEventsFirst
  refine ⟨fun s i l hin => ?_, fun s t i hin hd => ?_, fun s c hin hd he => ?_, fun s hin hd he hn => ?_⟩
  · simp only [step, hin]
  · simp only [step, hin, hd]
  · simp only [step, hin, hd, he]
  · simp only [step, hin, hd, he, hn]

end Sys2Proof.Machine
end

section
namespace Sys2Proof.Machine

/-! ## Arithmetic on words (R63 to R65): the model's operations are the exact results narrowed to 64 bits -/

theorem ofInt_toInt_add (x y : Word) : BitVec.ofInt 64 (x.toInt + y.toInt) = x + y := by
  rw [BitVec.ofInt_add, BitVec.ofInt_toInt, BitVec.ofInt_toInt]

theorem ofInt_toInt_sub (x y : Word) : BitVec.ofInt 64 (x.toInt - y.toInt) = x - y := by
  rw [Int.sub_eq_add_neg, BitVec.ofInt_add, BitVec.ofInt_neg, BitVec.ofInt_toInt, BitVec.ofInt_toInt, BitVec.sub_eq_add_neg]

theorem ofInt_toInt_mul (x y : Word) : BitVec.ofInt 64 (x.toInt * y.toInt) = x * y := by
  rw [BitVec.ofInt_mul, BitVec.ofInt_toInt, BitVec.ofInt_toInt]

theorem ofNat_mul_two_pow (x : Word) (n : Nat) : BitVec.ofNat 64 (x.toNat * 2 ^ n) = x <<< n := by
  apply BitVec.eq_of_toNat_eq
  rw [BitVec.toNat_ofNat, BitVec.toNat_shiftLeft, Nat.shiftLeft_eq]

theorem ofNat_div_two_pow (x : Word) (n : Nat) : BitVec.ofNat 64 (x.toNat / 2 ^ n) = x >>> n := by
  apply BitVec.eq_of_toNat_eq
  rw [BitVec.toNat_ofNat, BitVec.toNat_ushiftRight, Nat.shiftRight_eq_div_pow]
  exact Nat.mod_eq_of_lt (lt_of_le_of_lt (Nat.div_le_self ..) x.isLt)

theorem ofInt_div_two_pow (x : Word) (n : Nat) : BitVec.ofInt 64 (x.toInt / 2 ^ n) = x.sshiftRight n := by
  rw [BitVec.sshiftRight, Int.shiftRight_eq_div_pow]
  push_cast
  rfl

theorem sextWord_toNat {n : Nat} (x : BitVec n) : sextWord n x.toNat = x.signExtend 64 := by
  have hs : signedOf n x.toNat = x.toInt := by
    simp only [signedOf, BitVec.toInt_eq_toNat_cond, Nat.mod_eq_of_lt x.isLt]
  rw [sextWord, hs, BitVec.signExtend]

theorem wordLt_signed (x y : Word) : wordLt false x y = decide (x.toInt < y.toInt) := rfl

theorem wordLt_unsigned (x y : Word) : wordLt true x y = decide (x.toNat < y.toNat) := rfl

theorem least_unsigned (x y : Word) : BitVec.ofNat 64 (min x.toNat y.toNat) = if wordLt true y x then y else x := by
  rw [wordLt_unsigned]
  by_cases h : y.toNat < x.toNat
  · rw [if_pos (by simpa using h), Nat.min_eq_right h.le, BitVec.ofNat_toNat, BitVec.setWidth_eq]
  · rw [if_neg (by simpa using h), Nat.min_eq_left (not_lt.1 h), BitVec.ofNat_toNat, BitVec.setWidth_eq]

theorem greatest_unsigned (x y : Word) : BitVec.ofNat 64 (max x.toNat y.toNat) = if wordLt true x y then y else x := by
  rw [wordLt_unsigned]
  by_cases h : x.toNat < y.toNat
  · rw [if_pos (by simpa using h), Nat.max_eq_right h.le, BitVec.ofNat_toNat, BitVec.setWidth_eq]
  · rw [if_neg (by simpa using h), Nat.max_eq_left (not_lt.1 h), BitVec.ofNat_toNat, BitVec.setWidth_eq]

theorem least_signed (x y : Word) : BitVec.ofInt 64 (min x.toInt y.toInt) = if wordLt false y x then y else x := by
  rw [wordLt_signed]
  by_cases h : y.toInt < x.toInt
  · rw [if_pos (by simpa using h), min_eq_right h.le, BitVec.ofInt_toInt]
  · rw [if_neg (by simpa using h), min_eq_left (not_lt.1 h), BitVec.ofInt_toInt]

theorem greatest_signed (x y : Word) : BitVec.ofInt 64 (max x.toInt y.toInt) = if wordLt false x y then y else x := by
  rw [wordLt_signed]
  by_cases h : x.toInt < y.toInt
  · rw [if_pos (by simpa using h), max_eq_right h.le, BitVec.ofInt_toInt]
  · rw [if_neg (by simpa using h), max_eq_left (not_lt.1 h), BitVec.ofInt_toInt]

theorem length_takeWhile_range {p : Nat → Bool} {n m : Nat} (hn : n < m) (hlow : ∀ i < n, p i = true) (hat : p n = false) :
    ((List.range m).takeWhile p).length = n := by
  obtain ⟨k, rfl⟩ : ∃ k, m = n + (k + 1) := ⟨m - n - 1, by omega⟩
  rw [List.range_add, List.range_succ_eq_map, List.takeWhile_append_of_pos (by simpa using hlow)]
  simp [hat]

/-- The zeros before the first one bit of a word, counted from the top (R65). -/
theorem leadingZeros_eq (x : Word) :
    ((List.range 64).takeWhile (fun i => !(x.getLsbD (63 - i)))).length = leadingZeros x := by
  unfold leadingZeros
  by_cases hx : x = 0
  · subst hx
    rw [if_pos rfl, List.takeWhile_eq_self_iff.2 (by simp), List.length_range]
  · have hne : x.toNat ≠ 0 := fun h => hx (BitVec.eq_of_toNat_eq h)
    have hlog : Nat.log2 x.toNat < 64 := (Nat.log2_lt hne).2 x.isLt
    rw [if_neg hx]
    refine length_takeWhile_range (by omega) (fun i hi => ?_) ?_
    · rw [BitVec.getLsbD, Nat.testBit_lt_two_pow ((Nat.log2_lt hne).1 (by omega))]
      rfl
    · rw [BitVec.getLsbD, show 63 - (63 - Nat.log2 x.toNat) = Nat.log2 x.toNat by omega, Nat.testBit_log2 hne]
      rfl

theorem popCount_eq (x : Word) : (List.range 64).countP (fun i => x.getLsbD i) = popCount x.toNat 64 := by
  have key : ∀ n, (List.range n).countP (fun i => x.getLsbD i) = popCount x.toNat n := by
    intro n
    induction n with
    | zero => rfl
    | succ n ih =>
      rw [List.range_succ, List.countP_append, ih, popCount, Nat.add_comm]
      simp [bitOf, BitVec.getLsbD, Nat.testBit_eq_decide_div_mod_eq]
  exact key 64

/-! ## Scalar words (R59, R63, R64, R65) -/

section
variable {h : Hdr} {d a b : Name} {s s1 s2 s3 : State} {x y : Word}

/-- Two operations with the same results make one word. -/
theorem scalar2_congr {f g : Word → Word → Word} (hfg : ∀ x y, f x y = g x y) : scalar2 h d a b g s = scalar2 h d a b f s := by
  rw [funext₂ hfg]

theorem scalar1_congr {f g : Word → Word} (hfg : ∀ x, f x = g x) : scalar1 h d a g s = scalar1 h d a f s := by
  rw [funext hfg]

/-- What a word of two sources runs: its exact result, narrowed, to its destination. -/
theorem exec_of_binaryWord {i : Instr} {f : Word → Word → Word} (hi : binaryWord i = some (h, d, a, b, f)) :
    exec i s = scalar2 h d a b f s := by
  cases i <;> cases hi
  case add.refl => exact scalar2_congr (g := (· + ·)) ofInt_toInt_add
  case sub.refl => exact scalar2_congr (g := (· - ·)) ofInt_toInt_sub
  case and.refl => rfl
  case or.refl => rfl
  case xor.refl => rfl
  case shl.refl => exact scalar2_congr fun x y => ofNat_mul_two_pow x _
  case shr.refl => exact scalar2_congr fun x y => ofNat_div_two_pow x _
  case sar.refl => exact scalar2_congr fun x y => ofInt_div_two_pow x _
  case min.refl u =>
    cases u
    · exact scalar2_congr least_signed
    · exact scalar2_congr least_unsigned
  case max.refl u =>
    cases u
    · exact scalar2_congr greatest_signed
    · exact scalar2_congr greatest_unsigned
  case slt.refl => exact scalar2_congr fun x y => by simp [wordLt_signed]
  case sltu.refl => exact scalar2_congr fun x y => by simp [wordLt_unsigned]

/-- What a word of one source runs. -/
theorem exec_of_unaryWord {i : Instr} {f : Word → Word} (hi : unaryWord i = some (h, d, a, f)) :
    exec i s = scalar1 h d a f s := by
  cases i <;> cases hi
  case clz.refl => exact scalar1_congr fun x => congrArg _ (leadingZeros_eq x)
  case popc.refl => exact scalar1_congr fun x => congrArg _ (popCount_eq x)
  case addi.refl imm => exact scalar1_congr fun x => by rw [sextWord_toNat, BitVec.ofInt_add, BitVec.ofInt_toInt, BitVec.signExtend]
  case andi.refl imm => exact scalar1_congr fun x => by rw [sextWord_toNat]
  case ori.refl imm => exact scalar1_congr fun x => by rw [sextWord_toNat]

/-- A word of two sources whose result comes in three cycles. -/
theorem issue_later {f : Word → Word → Word} (hm : s.mayIssue .C h.wait)
    (ha : (src (s.word .C h) a).run (s.waited h.wait) = .ok (x, s1)) (hb : (src (s.word .C h) b).run s1 = .ok (y, s2))
    (hd : (reserve (s.word .C h) d).run s2 = .ok ((), s3)) :
    issue .C h 1 (fun o => do
      let x ← src o a
      let y ← src o b
      resultLater o d 3 (f x y)) s = .next (s3.landsLater s .C h 1 3 (.scalarResultLands (s.word .C h) d (f x y))) := by
  refine issue_seq hm ?_
  rw [op_bind_ok ha, op_bind_ok hb]
  unfold resultLater
  rw [op_bind_ok hd, op_doneLater, word_core]
end

/-- Settles O12: each word runs as a word of two sources or of one. -/
theorem arithmeticWordsComplete : Obligations.ArithmeticWordsComplete := by
  unfold Obligations.ArithmeticWordsComplete
  refine ⟨fun i h d a b f s s1 s2 s3 x y hi hm ha hb hd => ?_, fun i h d a f s s1 s2 x hi hm ha hd => ?_⟩
  · rw [exec_of_binaryWord hi]
    refine issue_seq hm ?_
    rw [op_bind_ok ha, op_bind_ok hb, op_bind_ok hd, op_doneNext, word_core]
  · rw [exec_of_unaryWord hi]
    refine issue_seq hm ?_
    rw [op_bind_ok ha, op_bind_ok hd, op_doneNext, word_core]

/-- Settles O14. -/
theorem immediatesAndProductsComplete : Obligations.ImmediatesAndProductsComplete := by
  unfold Obligations.ImmediatesAndProductsComplete
  refine ⟨⟨?_, ?_, ?_⟩, ?_, ?_⟩
  · intro h d imm s t hm hd
    refine issue_seq hm ?_
    rw [sextWord_toNat, op_bind_ok hd, op_doneNext, word_core]
  · intro h d imm s s1 t x hm ha hd
    have hv : BitVec.ofNat 64 (x.toNat * 2 ^ 23 + imm.toNat) = x <<< 23 + imm.setWidth 64 := by
      rw [BitVec.ofNat_add, ofNat_mul_two_pow, BitVec.ofNat_toNat]
    refine issue_seq hm ?_
    rw [op_bind_ok ha, ← hv, op_bind_ok hd, op_doneNext, word_core]
  · intro h d a b s s1 s2 s3 t m x y hm hc ha hb hd
    refine issue_seq hm ?_
    rw [op_bind_ok hc, op_bind_ok ha, op_bind_ok hb, ite_not, op_bind_ok hd, op_doneNext, word_core]
  · intro h d a b s s1 s2 s3 x y hm ha hb hd
    rw [ofInt_toInt_mul]
    exact issue_later hm ha hb hd
  · intro h u d a b s s1 s2 s3 x y hm ha hb hd
    exact issue_later (f := mulHigh u) hm ha hb hd

end Sys2Proof.Machine
end

section
namespace Sys2Proof.Machine

/-! ## Control transfers (R14, R41, R66 to R68) -/

/-- The model's conditions are those of R41. -/
theorem condHolds_eq_condTrue {cond : BitVec 4} (hc : cond.toNat < 8) (v : Word) : condHolds cond v = condTrue cond v := by
  have hzero : v = 0#64 ↔ v.toInt = 0 := by
    rw [← BitVec.toInt_inj, BitVec.toInt_zero]
  have hneg : v.slt 0#64 = decide (v.toInt < 0) := rfl
  have hpos : (0#64).slt v = decide (0 < v.toInt) := rfl
  have hnonneg : decide (0 ≤ v.toInt) = !decide (v.toInt < 0) := by simp [← decide_not]
  have hnonpos : decide (v.toInt ≤ 0) = !decide (0 < v.toInt) := by simp [← decide_not]
  have hodd : v[0] = decide (v.toNat % 2 = 1) := by
    rw [BitVec.getElem_eq_testBit_toNat, Nat.testBit_zero]
  unfold condHolds condTrue
  generalize cond.toNat = n at hc
  interval_cases n <;> simp [hzero, hneg, hpos, hnonneg, hnonpos, hodd]

theorem ofInt_toInt_sub_one (v : Word) : BitVec.ofInt 64 (v.toInt - 1) = v - 1 := ofInt_toInt_sub v 1

/-- A target within the text. -/
theorem target_eq_some {k : Core} {idx : Nat} {off : BitVec 19} {tgt : Nat} (ht : (idx : Int) + off.toInt = tgt)
    (hw : tgt < k.words) : k.target idx off = some tgt := by
  unfold Core.target
  simp only [ht, Int.toNat_natCast]
  exact if_pos (by simpa using hw)

theorem target_eq_none {k : Core} {idx : Nat} {off : BitVec 19}
    (h : (idx : Int) + off.toInt < 0 ∨ (k.words : Int) ≤ idx + off.toInt) : k.target idx off = none := by
  unfold Core.target
  refine if_neg ?_
  simp only [Bool.and_eq_true, decide_eq_true_eq, not_and, not_lt]
  omega

/-- A transfer that is not taken, or has a target, goes on. -/
theorem transfer_run {o : Origin} {taken : Bool} {to? : Option Nat} {stack : List Nat} {s : State}
    (hroom : (s.core o.core).outcomesRoom = true) (ht : taken = true → to? ≠ none) :
    (transfer o taken to? stack).run s = .ok (.own, (s.modCore o.core (fun k =>
      { (k.pushOutcome taken (to?.getD 0)).continueAt taken (to?.getD 0) with
        retStack := if taken then stack else k.retStack })).complete o) := by
  unfold Core.outcomesRoom at hroom
  unfold transfer
  rw [op_bind_ok (op_getCore _ _), op_bind_ok (op_need hroom _)]
  cases taken with
  | false => rfl
  | true =>
    obtain ⟨t, rfl⟩ := Option.ne_none_iff_exists'.1 (ht rfl)
    rfl

/-- A transfer that is taken without a target raises ADDR. -/
theorem transfer_trap {o : Origin} {stack : List Nat} {s : State} (hroom : (s.core o.core).outcomesRoom = true) :
    (transfer o true none stack).run s = .error (.trap .addr 0 ((s.core o.core).base + 6 * o.index)) := by
  unfold Core.outcomesRoom at hroom
  unfold transfer
  rw [op_bind_ok (op_getCore _ _), op_bind_ok (op_need hroom _)]
  rfl

section
variable {h : Hdr} {cond : BitVec 4} {r : Name} {off : BitVec 19} {s s1 s2 : State} {v : Word}

/-- The return stack of a transfer that is not taken does not matter. -/
theorem transfers_false (t : State) (tgt : Nat) (l l' : List Nat) : t.transfers s h false tgt l = t.transfers s h false tgt l' := rfl

/-- The transfer of the word that issues now. -/
theorem transfer_word {taken : Bool} {to? : Option Nat} {stack : List Nat} {t : State}
    (hroom : (t.core s.cur).outcomesRoom = true) (ht : taken = true → to? ≠ none) :
    (transfer (s.word .C h) taken to? stack).run t = .ok (.own, t.transfers s h taken (to?.getD 0) stack) := by
  rw [transfer_run (by rwa [word_core]) ht, word_core]
  rfl

section
variable (hc : cond.toNat < 8) (hm : s.mayIssue .C h.wait)
include hc hm

section
variable (hv : (condSrc (s.word .C h) cond r).run (s.waited h.wait) = .ok (v, s1)) (hroom : (s1.core s.cur).outcomesRoom = true)
include hv hroom

theorem execBr_goes (ht : condTrue cond v = true → (s1.core s.cur).target (s.word .C h).index off ≠ none) :
    execBr h cond r off s = .next (s1.transfers s h (condTrue cond v)
      (((s1.core s.cur).target (s.word .C h).index off).getD 0) (s1.core s.cur).retStack) := by
  refine issue_own hm ?_
  rw [op_bind_ok hv, op_bind_ok (op_getCore _ _), word_core, condHolds_eq_condTrue hc, transfer_word hroom ht]

theorem execCall_goes {to? : Option Nat} (hto : (if (s1.core s.cur).retStack.length < 16 then
    (s1.core s.cur).target (s.word .C h).index off else none) = to?) (ht : condTrue cond v = true → to? ≠ none) :
    execCall h cond r off s = .next (s1.transfers s h (condTrue cond v) (to?.getD 0)
      (((s.word .C h).index + 1) :: (s1.core s.cur).retStack)) := by
  refine issue_own hm ?_
  rw [op_bind_ok hv, op_bind_ok (op_getCore _ _), word_core, condHolds_eq_condTrue hc, hto, transfer_word hroom ht]

/-- The target of RET: the top of the return stack, where that lies in the text. -/
def Core.returnTarget (k : Core) : Option Nat := k.retStack.head?.filter (· < k.words)

theorem execRet_goes (ht : condTrue cond v = true → (s1.core s.cur).returnTarget ≠ none) :
    execRet h cond r s = .next (s1.transfers s h (condTrue cond v) ((s1.core s.cur).returnTarget.getD 0)
      (s1.core s.cur).retStack.tail) := by
  have hto : (match (s1.core s.cur).retStack with
      | t :: _ => if t < (s1.core s.cur).words then some t else none
      | [] => none) = (s1.core s.cur).returnTarget := by
    unfold Core.returnTarget
    cases (s1.core s.cur).retStack with
    | nil => rfl
    | cons t l => simp [Option.filter]
  refine issue_own hm ?_
  rw [op_bind_ok hv, op_bind_ok (op_getCore _ _), word_core, condHolds_eq_condTrue hc]
  exact (congrArg (fun a => (transfer (s.word .C h) (condTrue cond v) a _).run s1) hto).trans (transfer_word hroom ht)
end

theorem execLoop_goes (hv : (src (s.word .C h) r).run (s.waited h.wait) = .ok (v, s1))
    (hd : (dst (s.word .C h) r (BitVec.ofInt 64 (v.toInt - 1))).run s1 = .ok ((), s2))
    (hroom : (s2.core s.cur).outcomesRoom = true)
    (ht : condTrue cond (BitVec.ofInt 64 (v.toInt - 1)) = true → (s1.core s.cur).target (s.word .C h).index off ≠ none) :
    execLoop h cond r off s = .next (s2.transfers s h (condTrue cond (BitVec.ofInt 64 (v.toInt - 1)))
      (((s1.core s.cur).target (s.word .C h).index off).getD 0) (s1.core s.cur).retStack) := by
  refine issue_own hm ?_
  rw [op_bind_ok hv, op_bind_ok (op_getCore _ _), word_core, ← ofInt_toInt_sub_one, op_bind_ok hd, condHolds_eq_condTrue hc,
    transfer_word hroom ht]
end
end

/-- Settles O15, each transfer by where it goes. -/
theorem transfersComplete : Obligations.TransfersComplete := by
  unfold Obligations.TransfersComplete
  refine ⟨?_, ?_, ?_, ?_⟩
  · intro h cond r off s s1 v tgt hc hm hv hroom htaken hnot
    have htarget : ((s1.core s.cur).target (s.word .C h).index off).getD 0 = tgt := by
      cases hcond : condTrue cond v with
      | false => exact (hnot hcond).symm
      | true =>
        obtain ⟨ht, hw⟩ := htaken hcond
        rw [target_eq_some ht hw]
        rfl
    refine htarget ▸ execBr_goes hc hm hv hroom fun hcond => ?_
    obtain ⟨ht, hw⟩ := htaken hcond
    rw [target_eq_some ht hw]
    exact Option.some_ne_none _
  · intro h cond r off s s1 v tgt hc hm hv hroom hcond ht hw hlen
    have hto := execCall_goes hc hm hv hroom (to? := some tgt) (by rw [if_pos hlen, target_eq_some ht hw])
      fun _ => Option.some_ne_none _
    rwa [hcond] at hto
  · intro h cond r s s1 v tgt l hc hm hv hroom hcond hstack hw
    have htop : (s1.core s.cur).returnTarget = some tgt := by simp [Core.returnTarget, hstack, Option.filter, hw]
    have hto := execRet_goes hc hm hv hroom fun _ => htop ▸ Option.some_ne_none _
    rwa [hcond, htop, hstack] at hto
  · intro h cond r off s s1 s2 v tgt hc hm hv hd hroom hcond ht hw
    have hto := execLoop_goes hc hm hv hd hroom fun _ => target_eq_some ht hw ▸ Option.some_ne_none _
    rwa [hcond, target_eq_some ht hw] at hto

section
variable {h : Hdr} {r : Name} {s : State}

/-- The body of a transfer of no condition, which reads the core and then transfers to what it finds there. -/
theorem uncond_trap (to? : Origin → Core → Option Nat) (stack : Origin → Core → List Nat) (hw : h.wait = 0)
    (hm : s.mayIssue .C h.wait) (hroom : (s.core s.cur).outcomesRoom = true)
    (ht : to? (s.word .C h) (s.core s.cur) = none) :
    issue .C h 1 (fun o => do
      let v ← condSrc o 0 r
      let k ← getCore o
      transfer o (condHolds 0 v) (to? o k) (stack o k)) s = .next ((s.takeTrap { s.word .C h with post2 := 0 } .addr 0
        ((s.core s.cur).base + 6 * (s.word .C h).index)).stalled s.cur .C) := by
  refine issue_trap hm ?_
  have hv : (condSrc (s.word .C h) 0 r).run (s.waited h.wait) = .ok (0, s) := by
    rw [hw]
    rfl
  rw [op_bind_ok hv, op_bind_ok (op_getCore _ _), word_core, ht]
  have htrap := transfer_trap (o := s.word .C h) (stack := stack (s.word .C h) (s.core s.cur)) (s := s) (by rwa [word_core])
  rwa [word_core] at htrap
end

/-- Settles O16: a transfer that is not taken goes on with any stack, and one without a target raises ADDR. -/
theorem transfersStay : Obligations.TransfersStay := by
  unfold Obligations.TransfersStay
  refine ⟨⟨?_, ?_⟩, ?_⟩
  · intro h cond r off s s1 v hc hm hv hroom hcond
    have hn : ∀ o : Option Nat, condTrue cond v = true → o ≠ none := fun _ ht => by
      rw [hcond] at ht
      cases ht
    have hbr := execBr_goes (off := off) hc hm hv hroom (hn _)
    have hcall := execCall_goes (off := off) hc hm hv hroom rfl (hn _)
    have hret := execRet_goes hc hm hv hroom (hn _)
    rw [hcond] at hbr hcall hret
    exact ⟨⟨_, hbr⟩, ⟨_, hcall⟩, ⟨_, hret⟩⟩
  · intro h cond r off s s1 s2 v hc hm hv hd hroom hcond
    have hloop := execLoop_goes (off := off) hc hm hv hd hroom fun ht => by
      rw [hcond] at ht
      cases ht
    rw [hcond] at hloop
    exact ⟨_, hloop⟩
  · intro h r off s hm hw hroom o trap
    refine ⟨fun ht => ?_, fun hlen => ?_, fun hnil => ?_⟩
    · exact uncond_trap (fun o k => k.target o.index off) (fun _ k => k.retStack) hw hm hroom (target_eq_none ht)
    · exact uncond_trap (fun o k => if k.retStack.length < 16 then k.target o.index off else none)
        (fun o k => (o.index + 1) :: k.retStack) hw hm hroom (by simp [hlen])
    · exact uncond_trap (fun _ k => match k.retStack with
        | t :: _ => if t < k.words then some t else none
        | [] => none) (fun _ k => k.retStack.tail) hw hm hroom (by simp [hnil])

/-! ## Words that set (R73 to R76) -/

/-- A word whose setting takes force in the next cycle. -/
theorem issue_settles {w : Walker} {h : Hdr} {cost : Nat} {body : Origin → Op Flow} {s t : State} {l : List Latch}
    (hm : s.mayIssue w h.wait) (hb : (body (s.word w h)).run (s.waited h.wait) = (doneNext (s.word w h) l).run t) :
    issue w h cost body s = .next (t.settles s w h cost l) := by
  refine issue_seq hm ?_
  rw [hb, op_doneNext, word_core]

/-- Settles O18. -/
theorem settingWordsComplete : Obligations.SettingWordsComplete := by
  unfold Obligations.SettingWordsComplete
  refine ⟨?_, ?_, ?_, ?_⟩
  · intro h n a f s s1 v hm ha hpage hext
    refine issue_settles hm ?_
    rw [op_bind_ok ha, op_bind_ok (op_demand (by simp [hpage, hext]) _ _ _)]
  · intro h n a f s s1 v hm ha hpage hext
    refine issue_settles hm ?_
    rw [op_bind_ok ha, op_bind_ok (op_demand (by simp [hpage, hext]) _ _ _)]
  · intro h n s hm
    exact issue_settles (t := s.waited h.wait) hm rfl
  · intro h n v s hm
    exact issue_settles (t := s.waited h.wait) hm rfl

end Sys2Proof.Machine
end

section
namespace Sys2Proof.Machine

/-! ## What the completion of a word leaves alone (R19 to R21, R318) -/

/-- What neither a trap nor a post changes of a core. -/
def Core.rest (k : Core) := (k.ctx, k.vf, k.time, k.clk, k.latches, k.x, k.slip, k.views, k.aviews, k.granted)

/-- The core after a change that leaves the rest of it, fills granules at most, and leaves the semaphores of p. -/
structure Core.Quiet (p : Nat → Prop) (k l : Core) : Prop where
  rest : l.rest = k.rest
  empty : ∀ g ∈ l.empty, g ∈ k.empty
  sems : ∀ n, p n → Tbl.get l.sems n ⟨voidTag, 0⟩ = Tbl.get k.sems n ⟨voidTag, 0⟩

/-- A state after such changes of its cores, its VFs and its routing version as they were. -/
structure State.Quiet (p : Nat → Prop) (s t : State) : Prop where
  vfs : t.vfs = s.vfs
  rv : t.rv = s.rv
  core : ∀ d, Core.Quiet p (s.core d) (t.core d)

section
variable {p : Nat → Prop}

theorem Core.Quiet.refl (k : Core) : Core.Quiet p k k := ⟨rfl, fun _ h => h, fun _ _ => rfl⟩

theorem Core.Quiet.trans {j k l : Core} (h : Core.Quiet p j k) (h' : Core.Quiet p k l) : Core.Quiet p j l :=
  ⟨h'.rest.trans h.rest, fun g hg => h.empty g (h'.empty g hg), fun n hn => (h'.sems n hn).trans (h.sems n hn)⟩

theorem State.Quiet.refl (s : State) : State.Quiet p s s := ⟨rfl, rfl, fun _ => .refl _⟩

theorem State.Quiet.trans {s t u : State} (h : State.Quiet p s t) (h' : State.Quiet p t u) : State.Quiet p s u :=
  ⟨h'.vfs.trans h.vfs, h'.rv.trans h.rv, fun d => (h.core d).trans (h'.core d)⟩

theorem State.Quiet.weaken {q : Nat → Prop} {s t : State} (h : State.Quiet p s t) (hq : ∀ n, q n → p n) :
    State.Quiet q s t :=
  ⟨h.vfs, h.rv, fun d => ⟨(h.core d).rest, (h.core d).empty, fun n hn => (h.core d).sems n (hq n hn)⟩⟩

theorem quiet_modCore {s : State} {c : Nat} {f : Core → Core} (h : Core.Quiet p (s.core c) (f (s.core c))) :
    State.Quiet p s (s.modCore c f) := by
  refine ⟨rfl, rfl, fun d => ?_⟩
  rw [core_modCore_any]
  split
  · next e => rwa [e]
  · exact .refl _

theorem quiet_foldl {β : Type} {f : State → β → State} (h : ∀ s b, State.Quiet p s (f s b)) (l : List β) :
    ∀ s, State.Quiet p s (l.foldl f s) := by
  induction l with
  | nil => exact State.Quiet.refl
  | cons b l ih => exact fun s => (h s b).trans (ih _)

theorem quiet_modW (k : Core) (w : Walker) (f : WalkerSt → WalkerSt) : Core.Quiet p k (k.modW w f) := by
  cases w <;> exact ⟨rfl, fun _ h => h, fun _ _ => rfl⟩

theorem quiet_retry (k : Core) : Core.Quiet p k k.retry := by
  unfold Core.retry
  generalize allWalkers = l
  induction l generalizing k with
  | nil => exact .refl _
  | cons w l ih => exact (quiet_modW k w _).trans (ih _)

theorem quiet_rearm (k : Core) (off n : Nat) : Core.Quiet p k (rearm k off n) := by
  unfold rearm
  split
  · exact .refl _
  · exact ⟨rfl, fun _ h => h, fun _ _ => rfl⟩

theorem quiet_clearMarks (s : State) (q : Nat → Bool) : State.Quiet p s (s.clearMarks q) := ⟨rfl, rfl, fun _ => .refl _⟩

theorem quiet_after (s : State) (d : Nat) (i : Instr) : State.Quiet p s (s.after d i) := ⟨rfl, rfl, fun _ => .refl _⟩

theorem quiet_send (s : State) (m : Sent) : State.Quiet p s (s.send m) := ⟨rfl, rfl, fun _ => .refl _⟩

theorem quiet_writeUnit (s : State) (tag : Tag) (k : Nat) (bs : List Byte) : State.Quiet p s (s.writeUnit tag k bs) := by
  unfold State.writeUnit
  extract_lets u fresh mem0 s1
  have h1 : State.Quiet p s s1 := ⟨rfl, rfl, fun _ => .refl _⟩
  split
  · refine h1.trans ((quiet_modCore ?_).trans (quiet_clearMarks ..))
    refine Core.Quiet.trans ?_ (quiet_rearm ..)
    split
    · exact ⟨rfl, fun g hg => (List.mem_filter.1 hg).1, fun _ _ => rfl⟩
    · exact .refl _
  · split
    · exact h1.trans (quiet_clearMarks ..)
    · exact h1

theorem quiet_write (s : State) (tag : Tag) (k : Nat) (bs : List Byte) : State.Quiet p s (s.write tag k bs) := by
  unfold State.write
  split
  · generalize unitRuns k bs.length = l
    have hfold : ∀ a : State × List Byte, State.Quiet p a.1 (l.foldl (fun (a : State × List Byte) r =>
        (a.1.writeUnit tag r.1 (a.2.take r.2), a.2.drop r.2)) a).1 := by
      induction l with
      | nil => exact fun _ => .refl _
      | cons r l ih => exact fun a => (quiet_writeUnit a.1 tag r.1 (a.2.take r.2)).trans (ih (_, _))
    exact hfold (s, bs)
  · exact ⟨rfl, rfl, fun _ => .refl _⟩

theorem quiet_saveCore (s : State) (c g : Nat) : State.Quiet p s (s.saveCore c g) := by
  unfold State.saveCore
  extract_lets k tag
  split
  · exact .refl _
  · extract_lets s1
    refine (quiet_foldl (fun t e => ?_) _ s : State.Quiet p s s1).trans ⟨rfl, rfl, fun _ => .refl _⟩
    split
    · exact quiet_write ..
    · exact .refl _

theorem quiet_modGang (s : State) (n : Nat) (f : Gang → Gang) : State.Quiet p s (s.modGang n f) := by
  unfold State.modGang
  split
  · exact ⟨rfl, rfl, fun _ => .refl _⟩
  · exact .refl _

theorem quiet_later (s : State) (c n : Nat) (i : Instr) : State.Quiet p s (s.later c n i) :=
  quiet_modCore ⟨rfl, fun _ h => h, fun _ _ => rfl⟩

theorem quiet_takeTrap (s : State) (o : Origin) (cls : TrapClass) (code addr : Nat) :
    State.Quiet p s (s.takeTrap o cls code addr) := by
  unfold State.takeTrap
  extract_lets k s1 g
  have h1 : State.Quiet p s s1 := quiet_modCore ⟨rfl, fun _ h => h, fun _ _ => rfl⟩
  split
  · exact .refl _
  · split
    · extract_lets bytes s2
      have h2 : State.Quiet p s s2 := (h1.trans (quiet_saveCore ..)).trans (quiet_modGang ..)
      split
      · exact h2
      · split
        · exact h2.trans (quiet_after ..)
        · exact h2.trans (quiet_after ..)
    · exact h1.trans (quiet_send ..)

theorem quiet_setSem (s : State) (c : Nat) (n : BitVec 4) (v : Nat) : State.Quiet (· ≠ n.toNat) s (s.setSem c n v) := by
  unfold State.setSem
  exact quiet_modCore ⟨rfl, fun _ h => h, fun _ hm => get_put_ne _ _ _ hm⟩

theorem quiet_post (s : State) (o : Origin) (n : BitVec 4) : State.Quiet (· ≠ n.toNat) s (s.post o n) := by
  unfold State.post
  extract_lets v w s1
  split
  · exact .refl _
  · split
    · exact (quiet_setSem ..).trans (quiet_modCore (quiet_retry _))
    · split
      · exact (quiet_setSem ..).trans (quiet_later ..)
      · exact (quiet_setSem ..).trans (quiet_takeTrap ..)

theorem quiet_finish (s : State) (o : Origin) :
    State.Quiet (fun n => n ≠ o.post.toNat ∧ n ≠ o.post2.toNat) s (s.finish o) := by
  unfold State.finish State.complete
  have hw : State.Quiet (fun n => n ≠ o.post.toNat ∧ n ≠ o.post2.toNat) s
      (s.modW o.core o.walker (fun v => { v with pend := v.pend - 1 })) := quiet_modCore (quiet_modW ..)
  exact (hw.trans ((quiet_post _ o o.post).weaken fun _ h => h.1)).trans ((quiet_post _ o o.post2).weaken fun _ h => h.2)
end

section
variable {p : Nat → Prop} {s t : State}

/-- The fields of a core that stand. -/
theorem Core.Quiet.fields {k l : Core} (h : Core.Quiet p k l) : l.ctx = k.ctx ∧ l.vf = k.vf ∧ l.time = k.time ∧ l.clk = k.clk ∧
    l.latches = k.latches ∧ l.x = k.x ∧ l.slip = k.slip ∧ l.views = k.views ∧ l.aviews = k.aviews ∧ l.granted = k.granted := by
  have hr := h.rest
  simpa only [Core.rest, Prod.mk.injEq] using hr

theorem State.Quiet.ownTag (h : State.Quiet p s t) (c : Nat) : t.ownTag c = s.ownTag c := by
  obtain ⟨hctx, hvf, -⟩ := (h.core c).fields
  unfold State.ownTag State.gen State.vf
  simp only [hctx, hvf, h.vfs]

theorem State.Quiet.semVal (h : State.Quiet p s t) {c : Nat} {n : BitVec 4} (hn : p n.toNat) : t.semVal c n = s.semVal c n := by
  unfold State.semVal
  simp only [(h.core c).sems _ hn, h.ownTag c]

/-- A semaphore that is set, as its core reads it. -/
theorem semVal_setSem {c : Nat} {n : BitVec 4} (ht : tagOk (s.ownTag c) (s.ownTag c) = true) (v : Nat) :
    (s.setSem c n v).semVal c n = v := by
  have h : (s.setSem c n v).ownTag c = s.ownTag c := (quiet_setSem s c n v).ownTag c
  unfold State.semVal
  rw [h]
  simp only [State.setSem, core_modCore, get_put, ht, if_true]

/-- A post below 255 adds one. -/
theorem semVal_post {o : Origin} {n : BitVec 4} (hn : n ≠ 0) (ht : tagOk (s.ownTag o.core) (s.ownTag o.core) = true)
    (hv : s.semVal o.core n + s.grantedWaits o.core n < 255) : (s.post o n).semVal o.core n = s.semVal o.core n + 1 := by
  have hp : s.post o n = (s.setSem o.core n (s.semVal o.core n + 1)).modCore o.core Core.retry := by
    unfold State.post
    rw [if_neg hn, if_pos hv]
  rw [hp, (quiet_modCore (p := fun _ => True) (quiet_retry _)).semVal trivial, semVal_setSem ht]

/-- A word that is complete posts once to a semaphore below 255 that no wait was granted on. -/
theorem semVal_finish {o : Origin} (hn : o.post ≠ 0) (h2 : o.post2 ≠ o.post)
    (ht : tagOk (s.ownTag o.core) (s.ownTag o.core) = true)
    (hg : (s.core o.core).granted = []) (hv : s.semVal o.core o.post < 255) :
    (s.finish o).semVal o.core o.post = s.semVal o.core o.post + 1 := by
  have hw : State.Quiet (fun _ => True) s (s.modW o.core o.walker (fun v => { v with pend := v.pend - 1 })) :=
    quiet_modCore (quiet_modW ..)
  obtain ⟨-, -, -, -, -, -, -, -, -, hgranted⟩ := (hw.core o.core).fields
  have hval := hw.semVal (c := o.core) (n := o.post) trivial
  unfold State.finish State.complete
  rw [(quiet_post _ o o.post2).semVal (fun e => h2 (BitVec.eq_of_toNat_eq e.symm)), semVal_post hn (by rwa [hw.ownTag]), hval]
  rw [hval, State.grantedWaits, hgranted, hg]
  exact hv
end


/-! ## The end of a cycle (R17 to R22, R34, R61, R74) -/

/-- The latches of a cycle taking force in order. -/
def State.latched (s : State) (c : Nat) (l : List Latch) : State := l.foldl (fun t a => applyLatch t c a) s

/-- The counts and walkers of a core at its next cycle. -/
def Core.nextCycle (k : Core) : Core :=
  { k with
    latches := [], time := k.time + 1, clk := if k.live then k.clk + 1 else k.clk,
    claimed := 0, standing := k.asking, asking := [], granted := [], fixedNow := [], popped := [], slipHeld := false, walkFault := [],
    stalls := if k.slipHeld then satAdd 29 k.stalls 1 else k.stalls,
    wC := k.wC.fresh, wV := k.wV.fresh, wM := k.wM.fresh, wX := k.wX.fresh, wG := k.wG.fresh, wF := k.wF.fresh }

/-- The word of a latch is complete. -/
def State.tidied (s : State) (a : Latch) : State :=
  match a with
  | .tidy o => s.finish o
  | _ => s

/-- A core's next cycle, before the words that complete with it post. -/
def State.cycled (s : State) (c : Nat) : State := (s.latched c (s.core c).latches).modCore c Core.nextCycle

theorem tickCore_frozen {s : State} {c : Nat} (h : (s.core c).frozen ≠ none) : tickCore s c = s :=
  if_pos (Option.isSome_iff_ne_none.2 h)

theorem tickCore_running {s : State} {c : Nat} (h : (s.core c).frozen = none) :
    tickCore s c = (s.core c).latches.foldl State.tidied (s.cycled c) := by
  unfold tickCore
  rw [if_neg (by simp [h])]
  rfl

/-- The words that complete leave all but the semaphores that they post. -/
theorem quiet_tidied {p : Nat → Prop} {l : List Latch}
    (h : ∀ o, Latch.tidy o ∈ l → ∀ n, p n → n ≠ o.post.toNat ∧ n ≠ o.post2.toNat) :
    ∀ s : State, State.Quiet p s (l.foldl State.tidied s) := by
  induction l with
  | nil => exact State.Quiet.refl
  | cons a l ih =>
    intro s
    refine State.Quiet.trans ?_ (ih (fun o ho => h o (List.mem_cons_of_mem a ho)) _)
    unfold State.tidied
    split
    · next o => exact (quiet_finish s o).weaken (h o (List.mem_cons_self ..))
    · exact .refl _

/-- The core at the end of its cycle: as it stands in its next, but for what posts change. -/
theorem quiet_tickCore {s : State} {c : Nat} (h : (s.core c).frozen = none) :
    State.Quiet (fun _ => False) (s.cycled c) (tickCore s c) := by
  rw [tickCore_running h]
  exact quiet_tidied (fun _ _ _ hn => hn.elim) _

/-- Something that the latches of a list do not touch. -/
theorem latched_keeps {α : Type} {P : State → α} {c : Nat} {l : List Latch} (h : ∀ a ∈ l, ∀ s, P (applyLatch s c a) = P s) :
    ∀ s : State, P (s.latched c l) = P s := by
  induction l with
  | nil => exact fun _ => rfl
  | cons a l ih =>
    exact fun s => (ih (fun b hb => h b (List.mem_cons_of_mem a hb)) _).trans (h a (List.mem_cons_self ..) s)

theorem latched_append (s : State) (c : Nat) (l1 l2 : List Latch) (a : Latch) :
    s.latched c (l1 ++ a :: l2) = (applyLatch (s.latched c l1) c a).latched c l2 := by
  unfold State.latched
  rw [List.foldl_append, List.foldl_cons]

/-- What no latch sets. -/
def Core.clocks (k : Core) := (k.ctx, k.vf, k.time, k.clk, k.live)

/-- A write of a register leaves what does not look at the registers. -/
theorem writeX_field {α : Type} (P : Core → α) (hP : ∀ k x, P { k with x := x } = P k) (k : Core) (n : BitVec 6) (v : Word) :
    P (k.writeX n v) = P k := by
  unfold Core.writeX
  split
  · rfl
  · exact hP ..

/-- What a latch sets in its core, which writes under the tag own. -/
def Core.latch (k : Core) (own : Tag) : Latch → Core
  | .sem n v => { k with sems := Tbl.put k.sems n.toNat ⟨own, v.toNat⟩ }
  | .slip w => { k with slip := w }
  | .view n p f => { k with views := Tbl.put k.views n.toNat ⟨f, p⟩ }
  | .aview n p => { k with aviews := Tbl.put k.aviews n.toNat ⟨0x0A, p⟩ }
  | .xreg n v => k.writeX n v
  | .fill off n => { k with empty := k.empty.filter (fun g => !(off < 4 * g + 4 && 4 * g < off + n)) }
  | .version _ => k
  | .tidy o => { k with vpend := k.vpend.filter (fun e => e.2.2 ≠ o.age) }

theorem core_applyLatch (s : State) (c : Nat) (a : Latch) : (applyLatch s c a).core c = (s.core c).latch (s.ownTag c) a := by
  cases a with
  | version v => rfl
  | _ => exact core_modCore ..

theorem clocks_latch (k : Core) (own : Tag) (a : Latch) : (k.latch own a).clocks = k.clocks := by
  cases a with
  | xreg n v => exact writeX_field Core.clocks (fun _ _ => rfl) k n v
  | _ => rfl

theorem clocks_latched (s : State) (c : Nat) (l : List Latch) : ((s.latched c l).core c).clocks = (s.core c).clocks :=
  latched_keeps (P := fun t => (t.core c).clocks) (fun a _ t => core_applyLatch t c a ▸ clocks_latch ..) s

theorem vfs_latched (s : State) (c : Nat) (l : List Latch) : (s.latched c l).vfs = s.vfs :=
  latched_keeps (P := State.vfs) (fun a _ _ => by cases a <;> rfl) s

theorem ownTag_latched (s : State) (c : Nat) (l : List Latch) : (s.latched c l).ownTag c = s.ownTag c := by
  have hk := clocks_latched s c l
  simp only [Core.clocks, Prod.mk.injEq] at hk
  obtain ⟨hctx, hvf, -⟩ := hk
  unfold State.ownTag State.gen State.vf
  simp only [hctx, hvf, vfs_latched]

/-- The core at the end of its cycle, from the core in which its latches have taken force. -/
theorem core_tickCore {s : State} {c : Nat} (h : (s.core c).frozen = none) :
    ((tickCore s c).core c).latches = [] ∧
    ((tickCore s c).core c).time = ((s.latched c (s.core c).latches).core c).time + 1 ∧
    ((tickCore s c).core c).clk = (if ((s.latched c (s.core c).latches).core c).live then
      ((s.latched c (s.core c).latches).core c).clk + 1 else ((s.latched c (s.core c).latches).core c).clk) ∧
    ((tickCore s c).core c).x = ((s.latched c (s.core c).latches).core c).x ∧
    ((tickCore s c).core c).slip = ((s.latched c (s.core c).latches).core c).slip ∧
    ((tickCore s c).core c).views = ((s.latched c (s.core c).latches).core c).views ∧
    ((tickCore s c).core c).aviews = ((s.latched c (s.core c).latches).core c).aviews := by
  have hc : (s.cycled c).core c = ((s.latched c (s.core c).latches).core c).nextCycle := core_modCore ..
  obtain ⟨-, -, ht, hk, hl, hx, hs, hv, ha, -⟩ := ((quiet_tickCore h).core c).fields
  rw [hc] at ht hk hl hx hs hv ha
  exact ⟨hl, ht, hk, hx, hs, hv, ha⟩

/-- Where no word completes with a cycle, memory is as before. -/
theorem mem_tickCore {s : State} {c : Nat} (h : (s.core c).frozen = none) (ht : (s.core c).latches.any Latch.isTidy = false) :
    (tickCore s c).mem = s.mem := by
  have hnone : ∀ (l : List Latch) (t : State), l.any Latch.isTidy = false → l.foldl State.tidied t = t := by
    intro l
    induction l with
    | nil => exact fun _ _ => rfl
    | cons a l ih =>
      intro t hl
      rw [List.any_cons, Bool.or_eq_false_iff] at hl
      have ha : t.tidied a = t := by
        cases a with
        | tidy o => cases hl.1
        | _ => rfl
      rw [List.foldl_cons, ha, ih t hl.2]
  rw [tickCore_running h, hnone _ _ ht]
  exact latched_keeps (P := State.mem) (fun a _ t => applyLatch_mem t c a) s

section
variable {k : Core} {own : Tag} {a : Latch}

/-! What a latch leaves that does not set it. -/

theorem readX_latch {r : BitVec 6} (h : ∀ v, a ≠ .xreg r v) : (k.latch own a).readX r = k.readX r := by
  cases a with
  | xreg n v =>
    refine readX_writeX_ne k v ?_
    rintro rfl
    exact h v rfl
  | _ => rfl

theorem slip_latch (h : ∀ n, a ≠ .slip n) : (k.latch own a).slip = k.slip := by
  cases a with
  | slip n => exact absurd rfl (h n)
  | xreg n v =>
    exact writeX_field Core.slip (fun _ _ => rfl) k n v
  | _ => rfl

theorem viewReg_latch {n : BitVec 6} (h : ∀ p f, a ≠ .view n p f) : (k.latch own a).viewReg n = k.viewReg n := by
  cases a with
  | view m p f =>
    refine get_put_ne _ _ _ fun e => ?_
    cases BitVec.eq_of_toNat_eq e
    exact h p f rfl
  | xreg m v =>
    exact writeX_field (Core.viewReg · n) (fun _ _ => rfl) k m v
  | _ => rfl

theorem aviewReg_latch {n : BitVec 4} (h : ∀ p, a ≠ .aview n p) : (k.latch own a).aviewReg n = k.aviewReg n := by
  cases a with
  | aview m p =>
    refine get_put_ne _ _ _ fun e => ?_
    cases BitVec.eq_of_toNat_eq e
    exact h p rfl
  | xreg m v =>
    exact writeX_field (Core.aviewReg · n) (fun _ _ => rfl) k m v
  | _ => rfl

theorem sems_latch {n : BitVec 4} (h : ∀ v, a ≠ .sem n v) :
    Tbl.get (k.latch own a).sems n.toNat ⟨voidTag, 0⟩ = Tbl.get k.sems n.toNat ⟨voidTag, 0⟩ := by
  cases a with
  | sem m v =>
    refine get_put_ne _ _ _ fun e => ?_
    cases BitVec.eq_of_toNat_eq e
    exact h v rfl
  | xreg m v =>
    exact writeX_field (fun k => Tbl.get (Core.sems k) n.toNat ⟨voidTag, 0⟩) (fun _ _ => rfl) k m v
  | _ => rfl

theorem empty_latch {g : Nat} (h : g ∈ (k.latch own a).empty) : g ∈ k.empty := by
  cases a with
  | fill off n => exact (List.mem_filter.1 h).1
  | xreg m v =>
    have he : (k.writeX m v).empty = k.empty := writeX_field Core.empty (fun _ _ => rfl) k m v
    exact he ▸ h
  | _ => exact h
end

theorem rv_applyLatch {s : State} {c : Nat} {a : Latch} (h : ∀ v, a ≠ .version v) : (applyLatch s c a).rv = s.rv := by
  cases a with
  | version v => exact absurd rfl (h v)
  | _ => rfl

section
variable {s : State} {c : Nat} {l l1 l2 : List Latch} {a : Latch}

/-- Something of a core that the latches of a list do not set. -/
theorem latched_core_keeps {α : Type} {P : Core → α} (h : ∀ a ∈ l, ∀ k own, P (Core.latch k own a) = P k) (s : State) :
    P ((s.latched c l).core c) = P (s.core c) :=
  latched_keeps (P := fun t => P (t.core c)) (fun a ha t => core_applyLatch t c a ▸ h a ha _ _) s

/-- Something of a core that one latch sets, and those after it do not. -/
theorem latched_core_last {α : Type} {P : Core → α} {v : α} (ha : ∀ k own, P (Core.latch k own a) = v)
    (h : ∀ b ∈ l2, ∀ k own, P (Core.latch k own b) = P k) (s : State) :
    P ((s.latched c (l1 ++ a :: l2)).core c) = v := by
  rw [latched_append, latched_core_keeps h, core_applyLatch, ha]

theorem empty_latched {g : Nat} : ∀ {s : State}, g ∈ ((s.latched c l).core c).empty → g ∈ (s.core c).empty := by
  induction l with
  | nil => exact fun h => h
  | cons a l ih =>
    intro s h
    have hg := ih h
    rw [core_applyLatch] at hg
    exact empty_latch hg

/-- A semaphore that no latch of a list sets. -/
theorem semVal_latched {n : BitVec 4} (h : ∀ v, Latch.sem n v ∉ l) : (s.latched c l).semVal c n = s.semVal c n := by
  have hs : Tbl.get ((s.latched c l).core c).sems n.toNat ⟨voidTag, 0⟩ = Tbl.get (s.core c).sems n.toNat ⟨voidTag, 0⟩ :=
    latched_core_keeps (P := fun k => Tbl.get k.sems n.toNat ⟨voidTag, 0⟩) (fun a ha k own => sems_latch fun v e => h v (e ▸ ha)) s
  unfold State.semVal
  rw [hs, ownTag_latched]

theorem ownTag_cycled : (s.cycled c).ownTag c = (s.latched c (s.core c).latches).ownTag c := by
  unfold State.cycled State.ownTag State.gen State.vf
  simp only [core_modCore]
  rfl

/-- The semaphores as the latches leave them, in the next cycle. -/
theorem semVal_cycled (n : BitVec 4) : (s.cycled c).semVal c n = (s.latched c (s.core c).latches).semVal c n := by
  unfold State.semVal
  rw [ownTag_cycled, State.cycled, core_modCore]
  rfl
end

/-- A run that a latched fill covers is full at the end of the cycle. -/
theorem full_tickCore {s : State} {c off n : Nat} (h : (s.core c).frozen = none) (hl : Latch.fill off n ∈ (s.core c).latches) :
    (tickCore s c).full c off n = true := by
  obtain ⟨l1, l2, hs⟩ := List.append_of_mem hl
  refine List.all_eq_true.2 fun g hg => ?_
  have hcyc := ((quiet_tickCore h).core c).empty g hg
  rw [State.cycled, core_modCore] at hcyc
  have hfill : g ∈ ((s.latched c (s.core c).latches).core c).empty := hcyc
  rw [hs, latched_append] at hfill
  have hout := empty_latched hfill
  rw [core_applyLatch] at hout
  rw [(List.mem_filter.1 hout).2]
  rfl

/-- Settles O11: latches apply in their order, and the words that complete with the cycle leave what they set. -/
theorem latchesApplyAtCycleEnd : Obligations.LatchesApplyAtCycleEnd := by
  unfold Obligations.LatchesApplyAtCycleEnd
  refine ⟨fun s c hf => tickCore_frozen hf, ?_, ?_, ?_, ?_, ?_, ?_, ?_, ?_, ?_, ?_⟩
  · intro s c hf
    obtain ⟨hlatch, htime, hclk, -⟩ := core_tickCore hf
    have hk := clocks_latched s c (s.core c).latches
    simp only [Core.clocks, Prod.mk.injEq] at hk
    obtain ⟨-, -, ht, hc, hlive⟩ := hk
    rw [ht] at htime
    rw [hc, hlive] at hclk
    exact ⟨htime, hclk, hlatch, mem_tickCore hf⟩
  · intro s c r hf hr
    obtain ⟨-, -, -, hx, -⟩ := core_tickCore hf
    have hread := latched_core_keeps (c := c) (P := (Core.readX · r)) (l := (s.core c).latches)
      (fun a ha k own => readX_latch fun v e => hr v (e ▸ ha)) s
    unfold Core.readX at hread ⊢
    rwa [hx]
  · intro s c l1 l2 r v hf hr hl hlast
    obtain ⟨-, -, -, hx, -⟩ := core_tickCore hf
    have hread := latched_core_last (c := c) (P := (Core.readX · r)) (l1 := l1) (a := .xreg r v)
      (fun k own => readX_writeX k v hr)
      (fun b hb k own => readX_latch fun u e => hlast u (e ▸ hb)) s
    rw [← hl] at hread
    unfold Core.readX at hread ⊢
    rwa [hx]
  · intro s c l1 l2 n hf hl hlast
    obtain ⟨-, -, -, -, hslip, -⟩ := core_tickCore hf
    rw [hslip, hl]
    exact latched_core_last (P := Core.slip) (fun k own => rfl) (fun b hb k own => slip_latch fun m e => hlast m (e ▸ hb)) s
  · intro s c l1 l2 n p f hf hl hlast
    obtain ⟨-, -, -, -, -, hviews, -⟩ := core_tickCore hf
    unfold Core.viewReg
    rw [hviews, hl]
    exact latched_core_last (P := (Core.viewReg · n)) (a := .view n p f) (fun k own => get_put ..)
      (fun b hb k own => viewReg_latch fun p' f' e => hlast p' f' (e ▸ hb)) s
  · intro s c l1 l2 n p hf hl hlast
    obtain ⟨-, -, -, -, -, -, haviews⟩ := core_tickCore hf
    unfold Core.aviewReg
    rw [haviews, hl]
    exact latched_core_last (P := (Core.aviewReg · n)) (a := .aview n p) (fun k own => get_put ..)
      (fun b hb k own => aviewReg_latch fun p' e => hlast p' (e ▸ hb)) s
  · intro s c l1 l2 v hf hl hlast
    rw [(quiet_tickCore hf).rv, State.cycled, modCore_rv, hl, latched_append]
    exact latched_keeps (P := State.rv) (fun b hb t => rv_applyLatch fun u e => hlast u (e ▸ hb)) _
  · intro s c off n hf hl
    exact full_tickCore hf hl
  · intro s c l1 l2 n v hf ht hl hlast hposts
    have hne : ∀ {m : BitVec 4}, m ≠ n → n.toNat ≠ m.toNat := fun hm e => hm (BitVec.eq_of_toNat_eq e.symm)
    have hq : State.Quiet (· = n.toNat) (s.cycled c) (tickCore s c) := by
      rw [tickCore_running hf]
      refine quiet_tidied (fun o ho m hm => ?_) _
      obtain ⟨hp, hp2⟩ := hposts o ho
      exact hm ▸ ⟨hne hp, hne hp2⟩
    rw [hq.semVal rfl, semVal_cycled, hl, latched_append, semVal_latched hlast]
    exact semVal_setSem (by rwa [ownTag_latched]) _
  · intro s c l1 l2 o hf ho hpost hpost2 ht hl hsem hothers hv
    subst ho
    have hne : ∀ {m : BitVec 4}, m ≠ o.post → o.post.toNat ≠ m.toNat := fun hm e => hm (BitVec.eq_of_toNat_eq e.symm)
    have hquiet : ∀ l : List Latch, (∀ p, Latch.tidy p ∈ l → Latch.tidy p ∈ l1 ++ l2) → ∀ t : State,
        State.Quiet (· = o.post.toNat) t (l.foldl State.tidied t) := fun l hsub t => by
      refine quiet_tidied (fun p hp m hm => ?_) t
      obtain ⟨h1, h2⟩ := hothers p (hsub p hp)
      exact hm ▸ ⟨hne h1, hne h2⟩
    have hbefore := hquiet l1 (fun p hp => List.mem_append_left _ hp) (s.cycled o.core)
    have hafter := hquiet l2 (fun p hp => List.mem_append_right _ hp)
    have hval : (s.cycled o.core).semVal o.core o.post = s.semVal o.core o.post := by
      rw [semVal_cycled, hl, semVal_latched]
      intro v hmem
      rw [List.mem_append, List.mem_cons] at hmem
      obtain h1 | h2 | h3 := hmem
      · exact hsem v (List.mem_append_left _ h1)
      · cases h2
      · exact hsem v (List.mem_append_right _ h3)
    have htag : (s.cycled o.core).ownTag o.core = s.ownTag o.core := by rw [ownTag_cycled, ownTag_latched]
    have hgranted : ((l1.foldl State.tidied (s.cycled o.core)).core o.core).granted = [] := by
      obtain ⟨-, -, -, -, -, -, -, -, -, hg⟩ := (hbefore.core o.core).fields
      rw [hg, State.cycled, core_modCore]
      rfl
    have hl1 := hbefore.semVal (c := o.core) (n := o.post) rfl
    rw [hval] at hl1
    rw [tickCore_running hf, hl, List.foldl_append, List.foldl_cons, (hafter _).semVal rfl, State.tidied,
      semVal_finish hpost hpost2 (by rwa [hbefore.ownTag, htag]) hgranted (by rwa [hl1]), hl1]

end Sys2Proof.Machine
end

section
namespace Sys2Proof.Machine

/-! ## The landing of results (R34, R60, R80, R81, R251, R254) -/

section
variable {o : Origin} {d : Name} {v : Word} {s : State}

theorem execScalarResultLands_goes (h : ((s.core o.core).w o.walker).blocked = false) :
    execScalarResultLands o d v s = .next (((s.land o d v).modCore o.core (fun k => { k with
      lq := k.lq.filter (fun e => !(e.op = .away && e.o.age = o.age)) })).finish o) := by
  simp only [execScalarResultLands, h, Bool.false_and, Bool.false_eq_true, if_false]

theorem execScalarResultLands_unblocks (h : ((s.core o.core).w o.walker).blocked = true)
    (hp : ((s.core o.core).w o.walker).pend = 1) :
    execScalarResultLands o d v s = .next ((((s.land o d v).modCore o.core (fun k => { k with
      lq := k.lq.filter (fun e => !(e.op = .away && e.o.age = o.age)) })).unblock o).finish o) := by
  simp only [execScalarResultLands, h, hp, Bool.true_and, decide_true, if_true]

/-- A ticket that no TKNEXT waits for lands. -/
theorem execTicketLands_lands
    (h : ∀ e ∈ (s.core o.core).sq, e.o.age = o.age → (∀ n sc, e.op ≠ .tknext n sc) ∧ e.op ≠ .advanced) :
    execTicketLands o d v s = .next (((s.popAway o).land o d v).finish o) := by
  unfold execTicketLands
  extract_lets op
  have hop : ∀ m, op = some m → (∀ n sc, m ≠ .tknext n sc) ∧ m ≠ .advanced := by
    intro m hm
    obtain ⟨e, he, rfl⟩ := Option.map_eq_some_iff.1 hm
    exact h e (List.mem_of_find?_eq_some he) (by simpa using List.find?_some he)
  clear_value op
  split
  · next n sc => exact absurd rfl ((hop _ rfl).1 n sc)
  · exact absurd rfl (hop _ rfl).2
  · rfl

/-- The entry of the store queue that a ticket belongs to, where it stands at the head. -/
theorem find_sq_head {e : QOp} {l : List QOp} (hl : (s.core o.core).sq = e :: l) (ha : e.o.age = o.age) :
    ((s.core o.core).sq.find? (fun e => e.o.age = o.age)).map (fun e => e.op) = some e.op := by
  rw [hl, List.find?_cons_of_pos (by simpa using ha)]
  rfl

theorem execLaunchHandleReady_lands (h : ∀ l, Tbl.find s.launches v.toNat = some l → l.reason = 0) :
    execLaunchHandleReady o d v s = .next ((s.land o d v).finish o) := by
  unfold execLaunchHandleReady
  cases hl : Tbl.find s.launches v.toNat with
  | none => rfl
  | some l =>
    rw [Option.map_some, h l hl]
    rfl

theorem execLaunchHandleReady_refused {l : Launch} (hl : Tbl.find s.launches v.toNat = some l) (h : l.reason ≠ 0) :
    execLaunchHandleReady o d v s = .next (State.finish (State.land
      { s with launches := Tbl.put s.launches v.toNat { l with collected := true } } o d
        (BitVec.ofNat 64 (l.reason * 2 ^ 56))) o) := by
  obtain ⟨n, hn⟩ := Nat.exists_eq_succ_of_ne_zero h
  simp only [execLaunchHandleReady, State.modLaunch, hl, Option.map_some, hn]

theorem execWaitlWake_lands {l : Launch} (hl : Tbl.find s.launches v.toNat = some l) :
    execWaitlWake o d v s = .next ((((({ s with launches := Tbl.put s.launches v.toNat { l with collected := true } } :
      State).modCore o.core (fun k => { k with waitl := none })).land o d
        (if l.st = .aborted then 1 else if l.st = .refused then 2 else 0)).unblock o).finish o) := by
  simp only [execWaitlWake, State.modLaunch, hl]

/-- The core in which a value has landed in a register. -/
theorem core_land_x (r : BitVec 6) : (s.land o (.x r) v).core o.core =
    Core.retry ({ s.core o.core with scoreboard := (s.core o.core).scoreboard.filter (· ≠ r.toNat) }.writeX r v) :=
  core_modCore ..

theorem readX_retry (k : Core) (r : BitVec 6) : k.retry.readX r = k.readX r :=
  retry_field (fun k => k.readX r) (fun _ w _ => by cases w <;> rfl) k

theorem scoreboard_retry (k : Core) : k.retry.scoreboard = k.scoreboard :=
  retry_field Core.scoreboard (fun _ w _ => by cases w <;> rfl) k
end

/-- Settles O26, each landing by its event's lemma. -/
theorem resultsLand : Obligations.ResultsLand := by
  unfold Obligations.ResultsLand
  refine ⟨?_, ?_, fun o d v s => rfl, ?_, ?_, ?_, ?_, ?_, ?_⟩
  · intro o d v s h
    exact ⟨_, execScalarResultLands_goes h, rfl⟩
  · intro o d v s h hp
    exact ⟨_, execScalarResultLands_unblocks h hp, rfl⟩
  · intro o d v s h
    exact execTicketLands_lands h
  · intro o d v s e l hl ha
    have hop := find_sq_head hl ha
    refine ⟨fun n sc he => ?_, fun he => ?_⟩
    · show execTicketLands o d v s = _
      simp only [execTicketLands, hop, he]
      rfl
    · show execTicketLands o d v s = _
      simp only [execTicketLands, hop, he]
  · intro o d v s h
    exact execLaunchHandleReady_lands h
  · intro o d v s l hl h
    exact execLaunchHandleReady_refused hl h
  · intro s o r v hr t
    refine ⟨?_, ?_, fun q hq => ?_, rfl⟩
    · rw [core_land_x, readX_retry, readX_writeX _ _ hr]
    · rw [core_land_x, scoreboard_retry, writeX_field Core.scoreboard (fun _ _ => rfl)]
      simp
    · rw [core_land_x, readX_retry, readX_writeX_ne _ _ hq]
      rfl
  · intro o d x s l hl
    exact execWaitlWake_lands hl

end Sys2Proof.Machine
end

section
namespace Sys2Proof.Machine

/-! ## Specials that look over the banks and the walkers (R17, R28, R417) -/

/-- The bank with the highest count among the first n, the lowest on a tie, and its count. -/
def worstOf (f : Nat → Nat) (n : Nat) : Nat × Nat :=
  (List.range n).foldl (fun (a : Nat × Nat) i => if a.2 < f i then (i, f i) else a) (0, 0)

theorem worstOf_succ (f : Nat → Nat) (n : Nat) :
    worstOf f (n + 1) = if (worstOf f n).2 < f n then (n, f n) else worstOf f n := by
  unfold worstOf
  rw [List.range_succ, List.foldl_append]
  rfl

theorem worstOf_spec (f : Nat → Nat) (n : Nat) : (worstOf f (n + 1)).1 < n + 1 ∧
    (worstOf f (n + 1)).2 = f (worstOf f (n + 1)).1 ∧
    ∀ i, i < n + 1 → f i ≤ f (worstOf f (n + 1)).1 ∧ (f i = f (worstOf f (n + 1)).1 → (worstOf f (n + 1)).1 ≤ i) := by
  induction n with
  | zero =>
    have h0 : worstOf f 1 = (0, f 0) := by
      rw [worstOf_succ]
      split
      · rfl
      · next h =>
        have : f 0 = 0 := by simpa [worstOf] using h
        rw [this]
        rfl
    rw [h0]
    refine ⟨by omega, rfl, fun i hi => ?_⟩
    obtain rfl : i = 0 := by omega
    exact ⟨le_refl _, fun _ => le_refl _⟩
  | succ n ih =>
    obtain ⟨hlt, heq, hall⟩ := ih
    rw [worstOf_succ]
    split
    · next h =>
      refine ⟨by omega, rfl, fun i hi => ?_⟩
      obtain hi | rfl : i < n + 1 ∨ i = n + 1 := by omega
      · have hle := (hall i hi).1
        dsimp only
        exact ⟨by omega, by omega⟩
      · exact ⟨le_refl _, fun _ => le_refl _⟩
    · next h =>
      refine ⟨by omega, heq, fun i hi => ?_⟩
      obtain hi | rfl : i < n + 1 ∨ i = n + 1 := by omega
      · exact hall i hi
      · exact ⟨by omega, by omega⟩

/-- A saturating sum is the sum, cut at the top. -/
theorem foldl_satAdd (f : Nat → Nat) (l : List Nat) : ∀ a, a ≤ 0xFFFFFFFF →
    l.foldl (fun a i => satAdd 32 a (f i)) a = min 0xFFFFFFFF (a + (l.map f).sum) := by
  induction l with
  | nil =>
    intro a ha
    simpa using ha
  | cons i l ih =>
    intro a _
    have hs : satAdd 32 a (f i) = min (a + f i) 0xFFFFFFFF := rfl
    rw [List.foldl_cons, ih _ (by rw [hs]; exact min_le_right ..), hs, List.map_cons, List.sum_cons]
    omega

theorem bankLossWord_eq (k : Core) : bankLossWord k = BitVec.ofNat 64 ((worstOf (fun i => Tbl.get k.bankLoss i 0) 32).1 * 2 ^ 48 +
    min 0xFFFF (worstOf (fun i => Tbl.get k.bankLoss i 0) 32).2 * 2 ^ 32 +
    min 0xFFFFFFFF ((List.range 32).map (fun i => Tbl.get k.bankLoss i 0)).sum) := by
  unfold bankLossWord
  dsimp only
  rw [foldl_satAdd _ _ _ (Nat.zero_le _), Nat.zero_add]
  rfl

theorem walkerNum_injective {a b : Walker} (h : walkerNum a = walkerNum b) : a = b := by
  cases a <;> cases b <;> first | rfl | cases h

/-- The walkers that count are in tag order. -/
theorem counted_sorted (k : Core) : k.counted.Pairwise (fun a b => walkerNum a < walkerNum b) :=
  List.Pairwise.filter _ (by decide)

/-- The first walker, in tag order, of those with the greatest measure. -/
theorem foldl_first {α : Type} [LinearOrder α] (f : Walker → α) (l : List Walker) : ∀ w : Walker,
    (w :: l).Pairwise (fun a b => walkerNum a < walkerNum b) →
    let r := l.foldl (fun a b => if f a < f b then b else a) w
    r ∈ w :: l ∧ ∀ x ∈ w :: l, f x < f r ∨ f x = f r ∧ walkerNum r ≤ walkerNum x := by
  induction l with
  | nil =>
    intro w _
    refine ⟨List.mem_cons_self .., fun x hx => .inr ?_⟩
    rw [List.mem_singleton.1 hx]
    exact ⟨rfl, le_refl _⟩
  | cons b l ih =>
    intro w hs
    obtain ⟨hw, hs'⟩ := List.pairwise_cons.1 hs
    obtain ⟨hb, hl⟩ := List.pairwise_cons.1 hs'
    have hwb := hw b (List.mem_cons_self ..)
    rw [List.foldl_cons]
    by_cases h : f w < f b
    · rw [if_pos h]
      obtain ⟨hmem, hall⟩ := ih b hs'
      refine ⟨List.mem_cons_of_mem w hmem, fun x hx => ?_⟩
      obtain rfl | hx := List.mem_cons.1 hx
      · obtain h1 | h1 := hall b (List.mem_cons_self ..)
        · exact .inl (h.trans h1)
        · exact .inl (h.trans_eq h1.1)
      · exact hall x hx
    · rw [if_neg h]
      obtain ⟨hmem, hall⟩ := ih w (List.pairwise_cons.2 ⟨fun x hx => hw x (List.mem_cons_of_mem b hx), hl⟩)
      refine ⟨?_, fun x hx => ?_⟩
      · obtain h1 | h1 := List.mem_cons.1 hmem
        · rw [h1]
          exact List.mem_cons_self ..
        · exact List.mem_cons_of_mem w (List.mem_cons_of_mem b h1)
      · obtain rfl | hx := List.mem_cons.1 hx
        · exact hall x (List.mem_cons_self ..)
        · obtain rfl | hx := List.mem_cons.1 hx
          · have hle := not_lt.1 h
            obtain h1 | h1 := hall w (List.mem_cons_self ..)
            · exact .inl (hle.trans_lt h1)
            · obtain h2 | h2 := (hle.trans_eq h1.1).lt_or_eq
              · exact .inl h2
              · exact .inr ⟨h2, h1.2.trans hwb.le⟩
          · exact hall x (List.mem_cons_of_mem w hx)

/-- Two walkers that both come first among those of a list are one. -/
theorem first_unique {α : Type} [LinearOrder α] {f : Walker → α} {l : List Walker} {a b : Walker} (ha : a ∈ l) (hb : b ∈ l)
    (hfa : ∀ x ∈ l, f x < f a ∨ f x = f a ∧ walkerNum a ≤ walkerNum x)
    (hfb : ∀ x ∈ l, f x < f b ∨ f x = f b ∧ walkerNum b ≤ walkerNum x) : a = b := by
  refine walkerNum_injective (le_antisymm ?_ ?_)
  · obtain h | h := hfa b hb
    · obtain h' | h' := hfb a ha
      · exact absurd h' h.asymm
      · exact absurd h'.1 h.ne'
    · exact h.2
  · obtain h | h := hfb a ha
    · obtain h' | h' := hfa b hb
      · exact absurd h' h.asymm
      · exact absurd h'.1 h.ne'
    · exact h.2

/-- SLIPNOW from the walkers with the most and the fewest steps. -/
theorem slipNow_eq {k : Core} {hi lo : Walker} (hhi : hi ∈ k.counted) (hlo : lo ∈ k.counted)
    (hmost : ∀ w ∈ k.counted, (k.w w).steps < (k.w hi).steps ∨ (k.w w).steps = (k.w hi).steps ∧ walkerNum hi ≤ walkerNum w)
    (hleast : ∀ w ∈ k.counted, (k.w lo).steps < (k.w w).steps ∨ (k.w w).steps = (k.w lo).steps ∧ walkerNum lo ≤ walkerNum w) :
    slipNow k = BitVec.ofNat 64 (walkerNum hi * 2 ^ 45 + walkerNum lo * 2 ^ 42 + k.stalls * 2 ^ 13 +
      min 0x1FFF ((k.w hi).steps - (k.w lo).steps)) := by
  have hs := counted_sorted k
  unfold slipNow
  cases hc : k.counted with
  | nil =>
    rw [hc] at hhi
    cases hhi
  | cons w ws =>
    rw [hc] at hhi hlo hmost hleast hs
    obtain ⟨hmem, hall⟩ := foldl_first (fun w => (k.w w).steps) ws w hs
    obtain ⟨hmem', hall'⟩ := foldl_first (fun w => OrderDual.toDual (k.w w).steps) ws w hs
    have ehi := first_unique hmem hhi hall hmost
    have elo := first_unique hmem' hlo hall' hleast
    have elo' : ws.foldl (fun a b => if (k.w b).steps < (k.w a).steps then b else a) w = lo := elo
    dsimp only at ehi ⊢
    rw [ehi, elo']

/-! ## Sources and destinations (R28, R29, R34, R59 to R61) -/

section
variable {o : Origin} {s : State}

theorem src_x_pending {r : BitVec 6} (h : (s.core o.core).scoreboard.contains r.toNat = true) :
    (src o (.x r)).run s = .error .stall := by
  unfold src srcX
  dsimp only
  rw [op_bind_ok (op_getCore _ _), op_bind_error (op_need_not (by rw [h]; rfl) _)]

theorem src_q_empty {q : BitVec 5} (h : s.queue o.core q.toNat = []) : (src o (.q q)).run s = .error .stall := by
  unfold src popQueue
  dsimp only
  rw [op_bind_ok (op_get _), h]
  rfl

theorem src_q_pending {q : BitVec 5} {e : QEntry} {l : List QEntry} (h : s.queue o.core q.toNat = e :: l) (hw : e.wait ≠ none) :
    (src o (.q q)).run s = .error .stall := by
  unfold src popQueue
  dsimp only
  rw [op_bind_ok (op_get _), h]
  dsimp only
  rw [op_bind_error (op_need_not (Option.isNone_eq_false_iff.2 (Option.isSome_iff_ne_none.2 hw)) _)]

/-- The oldest entry of a queue is popped. -/
theorem src_q_pops {q : BitVec 5} {e : QEntry} {l : List QEntry} (h : s.queue o.core q.toNat = e :: l) (hw : e.wait = none) :
    (src o (.q q)).run s = .ok (if tagOk (s.ownTag o.core) e.tag then e.val else 0, s.modCore o.core (fun k => { k with
      queues := Tbl.put k.queues q.toNat l, popped := Tbl.upd k.popped q.toNat 0 (· + 1) })) := by
  unfold src popQueue
  dsimp only
  rw [op_bind_ok (op_get _), h]
  dsimp only
  rw [op_bind_ok (op_need (by rw [hw]; rfl) _), op_bind_ok (op_modifyCore _ _ _)]
  rfl

/-- A register that may be written, from the next cycle on. -/
theorem dst_x {r : BitVec 6} (v : Word) (h : (s.core o.core).scoreboard.contains r.toNat = false) :
    (dst o (.x r) v).run s = .ok ((), s.modCore o.core (fun k =>
      if r = 0 then k else { k with latches := k.latches ++ [.xreg r v] })) := by
  unfold dst
  dsimp only
  rw [op_bind_ok (op_getCore _ _), op_bind_ok (op_need (by rw [h]; rfl) _), op_modifyCore]

theorem dst_q_full {q : BitVec 5} (v : Word) (h : s.queueRoom o.core q = false) : (dst o (.q q) v).run s = .error .stall := by
  unfold dst
  dsimp only
  rw [op_bind_ok (op_get _), op_bind_error (op_need_not h _)]

theorem dst_q {q : BitVec 5} (v : Word) (h : s.queueRoom o.core q = true) :
    (dst o (.q q) v).run s = .ok ((), s.push o q v) := by
  unfold dst
  dsimp only
  rw [op_bind_ok (op_get _), op_bind_ok (op_need h _), op_modify]

/-! ## A queue of the core's own -/

theorem queues_retry (k : Core) : k.retry.queues = k.queues :=
  retry_field Core.queues (fun _ w _ => by cases w <;> rfl) k

theorem queue_enqueueAt (d n : Nat) (e : QEntry) : (s.enqueueAt d n e).queue d n = s.queue d n ++ [e] := by
  unfold State.enqueueAt State.queue
  rw [core_modCore, queues_retry, get_upd]

theorem queue_fillPlace (d n age : Nat) (tag : Tag) (v : Word) :
    (s.fillPlace d n age tag v).queue d n = (s.queue d n).map (QEntry.fill age tag v) := by
  unfold State.fillPlace State.queue
  rw [core_modCore, queues_retry, get_upd]

theorem ownTag_enqueueAt (d n : Nat) (e : QEntry) (c : Nat) : (s.enqueueAt d n e).ownTag c = s.ownTag c := by
  have hq : State.Quiet (fun _ => True) s (s.enqueueAt d n e) := by
    unfold State.enqueueAt
    refine quiet_modCore ?_
    refine Core.Quiet.trans ?_ (quiet_retry _)
    exact ⟨rfl, fun _ h => h, fun _ _ => rfl⟩
  exact hq.ownTag c

/-- A push to a queue of the core's own: its entry is the last, under the core's tag. -/
theorem queue_push {q : BitVec 5} (v : Word) (hq : q.toNat < 16) (hnew : ∀ e ∈ s.queue o.core q.toNat, e.wait ≠ some o.age) :
    (s.push o q v).queue o.core q.toNat = s.queue o.core q.toNat ++ [⟨s.ownTag o.core, v, none⟩] := by
  have hkept : (s.queue o.core q.toNat).map (QEntry.fill o.age (s.ownTag o.core) v) = s.queue o.core q.toNat :=
    (List.map_congr_left (g := id) fun e he => if_neg (hnew e he)).trans (List.map_id _)
  have hend : ∀ t : State, t.queueEnd o.core q = some (o.core, q.toNat) := fun t => if_pos hq
  unfold State.push State.holdPlace State.sendEntry
  simp only [hend, hq, if_true, queue_fillPlace, queue_enqueueAt, ownTag_enqueueAt, List.map_append, hkept, List.map_cons,
    List.map_nil, QEntry.fill]
end

/-- Settles O10, each source and destination by its lemma. -/
theorem scalarOperands : Obligations.ScalarOperands := by
  unfold Obligations.ScalarOperands
  refine ⟨⟨fun o s h => src_x h, fun o s r hr h => ?_, fun o s r h => src_x_pending h,
    fun o s => ⟨rfl, rfl, rfl, rfl, rfl, rfl⟩, fun o s => ?_, fun o s hi lo hhi hlo hmost hleast => ?_, fun o s h => ?_,
    fun o s q h => src_q_empty h, fun o s q e l h => ⟨fun hw => src_q_pending h hw, fun hw => ?_⟩⟩,
    fun o s v h => ?_, fun o s r v hr h => ?_, fun o s q v hq hroom hnew => ?_, fun o s q v h => dst_q_full v h⟩
  · rw [src_x h, Core.readX, if_neg hr]
  · obtain ⟨hlt, heq, hall⟩ := worstOf_spec (fun i => Tbl.get (s.core o.core).bankLoss i 0) 31
    refine ⟨_, hlt, hall, ?_⟩
    rw [← heq]
    exact congrArg (fun v => Except.ok (v, s)) (bankLossWord_eq _)
  · exact congrArg (fun v => Except.ok (v, s)) (slipNow_eq hhi hlo hmost hleast)
  · have hslip : slipNow (s.core o.core) = BitVec.ofNat 64 ((s.core o.core).stalls * 2 ^ 13) := by
      unfold slipNow
      rw [h]
    exact congrArg (fun v => Except.ok (v, s)) hslip
  · have htag : (if tagOk (s.ownTag o.core) e.tag = true then e.val else 0) =
        if e.tag = s.ownTag o.core ∧ e.tag.gen ≠ 0 then e.val else 0 := by simp [tagOk]
    refine ⟨_, (src_q_pops h hw).trans (congrArg (fun v => Except.ok (v, _)) htag), ?_, rfl, fun c => ?_⟩
    · unfold State.queue
      rw [core_modCore, get_put]
    · exact core_modCore_field Core.x (fun _ => by rfl) c
  · refine ⟨_, dst_x v h, fun c => ?_⟩
    exact core_modCore_field (fun k => k) (fun _ => if_pos rfl) c
  · simp only [dst_x v h, if_neg hr]
  · have hroom' : s.queueRoom o.core q = true := by
      unfold State.queueRoom State.queueEnd
      rw [if_pos hq]
      exact decide_eq_true hroom
    exact ⟨_, dst_q v hroom', queue_push v hq hnew, push_mem ..⟩

end Sys2Proof.Machine
end

section
namespace Sys2Proof.Machine

/-! ## Words between views (R159 to R164): each is the issue of what its specification reads and makes -/

/-- What a word between views does at its issue: its scalar is read, then its views and ports. -/
def ViewSpec.body (v : ViewSpec) (o : Origin) : Op Flow :=
  match v.arg with
  | some n => src o n >>= fun x => viewWord o v.d v.readD v.ops v.lat v.chk (v.f x)
  | none => viewWord o v.d v.readD v.ops v.lat v.chk (v.f 0)

section
variable {s : State} {h : Hdr} {cost lat : Nat} {d a b : Name}

theorem issue_viewUnary (tea : Bool) (chk : Byte → Byte → Bool) (f : Byte → Byte → List Nat → List Nat × BitVec 7) :
    issue .V h cost (fun o => viewUnary o d a tea lat chk f) s =
      issue .V h cost (spec1 h cost lat d a tea chk f).body s := rfl

theorem issue_viewBinary (te : Te) (bx readD : Bool) (chk : Byte → Byte → Byte → Bool)
    (f : Byte → Byte → Byte → List Nat → List Nat → List Nat → List Nat × BitVec 7) :
    issue .V h cost (fun o => viewBinary o d a b te bx readD lat chk f) s =
      issue .V (spec2 h cost lat d a b te bx readD chk f).h (spec2 h cost lat d a b te bx readD chk f).cost
        (spec2 h cost lat d a b te bx readD chk f).body s := by
  cases bx <;> rfl

theorem issue_moveWord (tea : Bool) (n : Amount) (limit : Nat) (place : Nat → Nat → Nat → Nat × Nat) :
    issue .V h cost (fun o => amount o limit n >>= fun m => moveWord o d a tea lat (place m)) s =
      issue .V h cost (specMove h cost lat d a tea n limit place).body s := by
  cases n with
  | val m => rfl
  | reg r =>
    unfold amount
    simp only [bind_assoc, pure_bind]
    rfl

end

/-- An elementwise word is the issue of its specification. -/
theorem exec_of_elementWord {i : Instr} {v : ViewSpec} (hi : elementWord i = some v) (s : State) :
    exec i s = issue .V v.h v.cost v.body s := by
  cases i <;> cases hi
  case vabs | vneg | vcvt | vrnd | vexp2 | vlog2 | vrcp | vrsq | vmov => exact issue_viewUnary _ _ _
  case vsplat | viota => rfl
  all_goals exact issue_viewBinary _ _ _ _ _

/-- A word that moves, reduces or ranks elements is the issue of its specification. -/
theorem exec_of_movementWord {i : Instr} {v : ViewSpec} (hi : movementWord i = some v) (s : State) :
    exec i s = issue .V v.h v.cost v.body s := by
  cases i <;> cases hi
  case vredr | vredc | vscanr => exact issue_viewUnary _ _ _
  case vcomp | vsfc => exact issue_viewBinary _ _ _ _ _
  all_goals exact issue_moveWord _ _ _ _

/-- A word between views that may issue and whose scalar has been read does the rest of its issue in the state after it. -/
theorem ViewSpec.body_run {v : ViewSpec} {o : Origin} {s s1 : State} {x : Word} (ha : v.argRead o s s1 x)
    (hf : v.arg = none → v.f x = v.f 0) :
    (v.body o).run s = (viewWord o v.d v.readD v.ops v.lat v.chk (v.f x)).run s1 := by
  unfold ViewSpec.argRead at ha
  unfold ViewSpec.body
  cases hv : v.arg with
  | none => rw [hv] at ha; rw [hf hv]; cases ha; rfl
  | some n => rw [hv] at ha; exact op_bind_ok ha

/-- A word that reads no scalar makes the same of every scalar. -/
theorem spec2_f (h : Hdr) (cost lat : Nat) (d a b : Name) (te : Te) (bx readD : Bool) (chk : Byte → Byte → Byte → Bool)
    (f : Byte → Byte → Byte → List Nat → List Nat → List Nat → List Nat × BitVec 7) (x : Word)
    (ha : (spec2 h cost lat d a b te bx readD chk f).arg = none) :
    (spec2 h cost lat d a b te bx readD chk f).f x = (spec2 h cost lat d a b te bx readD chk f).f 0 := by
  cases bx
  · rfl
  · cases ha

theorem specMove_f (h : Hdr) (cost lat : Nat) (d a : Name) (tea : Bool) (n : Amount) (limit : Nat)
    (place : Nat → Nat → Nat → Nat × Nat) (x : Word) (ha : (specMove h cost lat d a tea n limit place).arg = none) :
    (specMove h cost lat d a tea n limit place).f x = (specMove h cost lat d a tea n limit place).f 0 := by
  cases n
  · rfl
  · cases ha

theorem elementWord_f {i : Instr} {v : ViewSpec} (hi : elementWord i = some v) (x : Word) (ha : v.arg = none) : v.f x = v.f 0 := by
  cases i <;> cases hi
  case vabs | vneg | vcvt | vrnd | vexp2 | vlog2 | vrcp | vrsq | vmov => rfl
  case vsplat | viota => cases ha
  all_goals exact spec2_f _ _ _ _ _ _ _ _ _ _ _ _ ha

theorem movementWord_f {i : Instr} {v : ViewSpec} (hi : movementWord i = some v) (x : Word) (ha : v.arg = none) : v.f x = v.f 0 := by
  cases i <;> cases hi
  case vredr | vredc | vscanr => rfl
  case vcomp | vsfc => exact spec2_f _ _ _ _ _ _ _ _ _ _ _ _ ha
  all_goals exact specMove_f _ _ _ _ _ _ _ _ _ _ ha

/-! ## A word between views that may issue (R161, R163, R164) -/

section
variable {s s1 s2 : State} {v : ViewSpec} {x : Word} {fmt : Byte} {r : Nat × Nat} {old : List Nat} {ss : List Source}

/-- Its result is owed to its destination and lands after its latency. -/
theorem issue_view (hf : v.arg = none → v.f x = v.f 0) (hm : s.mayIssue .V v.h.wait)
    (ha : v.argRead (s.word .V v.h) (s.waited v.h.wait) s1 x)
    (hv : (vectorOperands (s.word .V v.h) v.d v.readD v.ops).run s1 = .ok ((fmt, r, old, ss), s2))
    (hc : v.chk fmt (ss.map Source.fmt) = true) (ht : (s2.core s.cur).inText r.1 r.2 = false) :
    issue .V v.h v.cost v.body s = .next ((s2.owes s r).landsLater s .V v.h v.cost v.lat (.vectorResultLands (s.word .V v.h)
      (keyRS s.cur r.1) (unelems (fmtSize fmt) (v.f x fmt old ss).1) (v.f x fmt old ss).2)) := by
  have hr := viewWord_run (f := v.f x) (lat := v.lat) hv hc (by rw [word_core]; exact ht)
  rw [← ViewSpec.body_run ha hf, word_core, word_age] at hr
  exact issue_seq hm hr

/-- With formats that do not pass it raises RSVD. -/
theorem issue_view_format (hf : v.arg = none → v.f x = v.f 0) (hm : s.mayIssue .V v.h.wait)
    (ha : v.argRead (s.word .V v.h) (s.waited v.h.wait) s1 x)
    (hv : (vectorOperands (s.word .V v.h) v.d v.readD v.ops).run s1 = .ok ((fmt, r, old, ss), s2))
    (hc : v.chk fmt (ss.map Source.fmt) = false) :
    issue .V v.h v.cost v.body s = .next ((s.takeTrap { s.word .V v.h with post2 := 0 } .rsvd 0 0).stalled s.cur .V) :=
  issue_trap hm ((ViewSpec.body_run ha hf).trans (viewWord_format hv hc))

end

/-- Settles O35: each word is the issue of its specification, whose result goes its way or whose formats trap. -/
theorem viewWordsComplete : Obligations.ViewWordsComplete := by
  unfold Obligations.ViewWordsComplete
  refine ⟨fun i v s s1 s2 x fmt r old ss hi hm ha hv => ?_, fun i v s s1 s2 x fmt r old ss hi hm ha hv => ?_⟩
  · rw [exec_of_elementWord hi]
    exact ⟨issue_view (elementWord_f hi x) hm ha hv, issue_view_format (elementWord_f hi x) hm ha hv⟩
  · rw [exec_of_movementWord hi]
    exact ⟨issue_view (movementWord_f hi x) hm ha hv, issue_view_format (movementWord_f hi x) hm ha hv⟩

end Sys2Proof.Machine
end

section
namespace Sys2Proof.Machine

/-! ## What an operation does, and how it may stop

`m.Does R E`: where m goes well, the state after it is in relation R to the one before; where it stops, E holds of why. -/

structure Op.Does {α : Type} (R : State → State → Prop) (E : Stop → Prop) (m : Op α) : Prop where
  ok : ∀ s a t, m.run s = .ok (a, t) → R s t
  stop : ∀ s e, m.run s = .error e → E e

section
variable {α β : Type} {R : State → State → Prop} {E : Stop → Prop}

theorem does_bind {m : Op α} {f : α → Op β} (hR : ∀ {s t u}, R s t → R t u → R s u) (hm : m.Does R E) (hf : ∀ a, (f a).Does R E) :
    (m >>= f).Does R E := by
  refine ⟨fun s b u h => ?_, fun s e h => ?_⟩
  · cases hr : m.run s with
    | error e => rw [op_bind_error hr] at h; cases h
    | ok r => rw [op_bind_ok hr] at h; exact hR (hm.ok s _ _ hr) ((hf _).ok _ _ _ h)
  · cases hr : m.run s with
    | error e' => rw [op_bind_error hr] at h; cases h; exact hm.stop _ _ hr
    | ok r => rw [op_bind_ok hr] at h; exact (hf _).stop _ _ h

theorem does_pure (hR : ∀ s, R s s) (a : α) : (pure a : Op α).Does R E :=
  ⟨fun s _ _ h => by cases h; exact hR s, fun _ _ h => by cases h⟩

theorem does_get_bind {f : State → Op β} (hf : ∀ s, (f s).Does R E) : (get >>= f).Does R E :=
  ⟨fun s b t h => (hf s).ok s b t h, fun s e h => (hf s).stop s e h⟩

theorem does_getCore_bind {o : Origin} {f : Core → Op β} (hf : ∀ k, (f k).Does R E) : (getCore o >>= f).Does R E :=
  ⟨fun s b t h => (hf (s.core o.core)).ok s b t h, fun s e h => (hf (s.core o.core)).stop s e h⟩

theorem does_modify {f : State → State} (hf : ∀ s, R s (f s)) : (modify f : Op PUnit).Does R E :=
  ⟨fun s _ _ h => by cases h; exact hf s, fun _ _ h => by cases h⟩

theorem does_stall (hE : E .stall) : (stall : Op α).Does R E :=
  ⟨fun _ _ _ h => (by cases h), fun _ _ h => by cases h; exact hE⟩

theorem does_trapNow (hE : ∀ cls code addr, E (.trap cls code addr)) (cls : TrapClass) (code addr : Nat) :
    (trapNow cls code addr : Op α).Does R E :=
  ⟨fun _ _ _ h => (by cases h), fun _ _ h => by cases h; exact hE _ _ _⟩

theorem does_need (hR : ∀ s, R s s) (hE : E .stall) (b : Bool) : (need b).Does R E := by
  cases b
  · exact does_stall hE
  · exact does_pure hR ()

theorem does_demand (hR : ∀ s, R s s) (hE : ∀ cls code addr, E (.trap cls code addr)) (b : Bool) (cls : TrapClass) (addr : Nat) :
    (demand b cls addr).Does R E := by
  cases b
  · exact does_trapNow hE _ _ _
  · exact does_pure hR ()

theorem does_foldlM {f : β → α → Op β} (hr : ∀ s, R s s) (hR : ∀ {s t u}, R s t → R t u → R s u)
    (hf : ∀ b a, (f b a).Does R E) (l : List α) (b : β) : (l.foldlM f b).Does R E := by
  induction l generalizing b with
  | nil => exact does_pure hr b
  | cons a l ih => exact does_bind hR (hf b a) ih

end

/-! ## The issue of a word, with how its body ran -/

section
variable {w : Walker} {h : Hdr} {cost : Nat} {body : Origin → Op Flow} {s t : State}

theorem tryWord_not_mayIssue (hk : (s.core s.cur).slipOk w = true) (hm : ¬ s.mayIssue w h.wait) :
    tryWord s.cur w h false body s = .error .stall := by
  unfold tryWord
  dsimp only
  split
  · rename_i hc
    simp only [Bool.and_eq_true, decide_eq_true_eq, Bool.not_eq_true', Option.isNone_iff_eq_none] at hc
    obtain ⟨⟨⟨h1, h2⟩, h3⟩, h4⟩ := hc
    have hw : h.wait ≠ 0 := fun hw => hm ⟨h2, h1, h3, h4, hk, .inl hw⟩
    have hv : s.semVal s.cur h.wait = 0 := not_not.1 fun hv => hm ⟨h2, h1, h3, h4, hk, .inr hv⟩
    rw [if_neg (by simpa using hw), if_pos hv]
  · rfl

/-- A word that issues has its effect; one that does not leaves its walker where it stands, after what stopped it. -/
theorem issue_outcomes (ht : issue w h cost body s = .next t) :
    (∃ f u, (body (s.word w h)).run (s.waited h.wait) = .ok (f, u) ∧ (t = u.advanced s w cost ∨ t = u)) ∨
    t = s.stalled s.cur w ∨
    (t = (s.modCore s.cur (fun k => { k with slipHeld := true })).stalled s.cur w) ∨
    (∃ e, (body (s.word w h)).run (s.waited h.wait) = .error e ∧ e ≠ .stall ∧
      ((∃ age b, e = .lost age b ∧ t = (s.modCore s.cur (fun k => (k.missBanks age b).loseWord w age)).stalled s.cur w) ∨
      (∃ p, e = .prefetch p) ∨ (∃ d i, e = .await d i) ∨
      (∃ cls code addr, e = .trap cls code addr ∧
        t = (s.takeTrap { s.word w h with post2 := 0 } cls code addr).stalled s.cur w))) := by
  have e := Host.Outcome.next.inj ht
  unfold issueAt at e
  dsimp only at e
  subst e
  by_cases hk : (s.core s.cur).slipOk w = true
  · rw [if_pos hk]
    by_cases hm : s.mayIssue w h.wait
    · rw [tryWord_of_mayIssue hm rfl]
      cases hb : (body (s.word w h)).run (s.waited h.wait) with
      | ok a =>
        obtain ⟨f, u⟩ := a
        cases f with
        | seq => exact .inl ⟨_, u, rfl, .inl rfl⟩
        | own => exact .inl ⟨_, u, rfl, .inr rfl⟩
      | error e =>
        cases e with
        | stall => exact .inr (.inl rfl)
        | lost age b => exact .inr (.inr (.inr ⟨_, rfl, nofun, .inl ⟨age, b, rfl, rfl⟩⟩))
        | prefetch p => exact .inr (.inr (.inr ⟨_, rfl, nofun, .inr (.inl ⟨p, rfl⟩)⟩))
        | await d i => exact .inr (.inr (.inr ⟨_, rfl, nofun, .inr (.inr (.inl ⟨d, i, rfl⟩))⟩))
        | trap cls code addr => exact .inr (.inr (.inr ⟨_, rfl, nofun, .inr (.inr (.inr ⟨cls, code, addr, rfl, rfl⟩))⟩))
    · rw [tryWord_not_mayIssue hk hm]; exact .inr (.inl rfl)
  · rw [if_neg hk]
    split
    · exact .inr (.inr (.inl rfl))
    · exact .inr (.inl rfl)
end

end Sys2Proof.Machine
end

section
namespace Sys2Proof.Machine

/-! ## The frame of the words that compute a scalar (R19, R29, R34, R59, R60) -/

/-- The storage outside the cores that a frame speaks of. -/
def State.shared (s : State) := (s.mem, s.tags, s.poison, s.vfs, s.gangs, s.galleys, s.launches, s.dispensers, s.keys,
  s.coalescer, s.ops, s.replies, s.outbox, s.now)

/-- The storage of a core that a frame speaks of, with what its tag is made of. -/
def Core.stored (k : Core) := (k.ctx, k.vf, k.x, k.views, k.aviews, k.codebooks, k.ports, k.vstat, k.shadow, k.nest, k.matq,
  k.merrlog, k.gibbs, k.counters, k.groups, k.xpoison, k.xoor, k.lq, k.sq, k.empty, k.ocache, k.tcache, k.retStack, k.slip,
  k.step, k.clk, k.time, k.frozen, k.live)

/-- Where a walker stands. -/
def WalkerSt.stand (v : WalkerSt) := (v.st, v.index, v.steps, v.readyAt, v.pend)

theorem sharedSame_of_shared {s t : State} (h : t.shared = s.shared) : s.sharedSame t := by
  simp only [State.shared, Prod.mk.injEq] at h
  exact h

theorem storageSame_of_stored {k l : Core} (h : l.stored = k.stored) : k.storageSame l := by
  simp only [Core.stored, Prod.mk.injEq] at h
  obtain ⟨-, -, hx, hv, h⟩ := h
  exact ⟨fun r => by rw [Core.readX, Core.readX, hx], fun n => by rw [Core.viewReg, Core.viewReg, hv], h⟩

theorem othersSame_of_stand {k l : Core} {w : Walker} (h : ∀ u, u ≠ w → (l.w u).stand = (k.w u).stand) : k.othersSame l w := by
  intro u hu
  have he := h u hu
  simp only [WalkerSt.stand, Prod.mk.injEq] at he
  exact he

theorem stored_modW (k : Core) (w : Walker) (f : WalkerSt → WalkerSt) : (k.modW w f).stored = k.stored := by
  cases w <;> rfl

theorem ownTag_of_stored {s t : State} {c : Nat} (hv : t.vfs = s.vfs) (h : (t.core c).stored = (s.core c).stored) :
    t.ownTag c = s.ownTag c := by
  simp only [Core.stored, Prod.mk.injEq] at h
  obtain ⟨hctx, hvf, -⟩ := h
  unfold State.ownTag State.gen State.vf
  dsimp only
  rw [hctx, hvf, hv]

/-- The word of o, with destination d, may latch this in core c: a value for its register, and its end. -/
def mayLatch (o : Origin) (d : Name) (c : Nat) (a : Latch) : Prop :=
  c = o.core ∧ ((∃ r v, d = .x r ∧ r ≠ 0 ∧ a = .xreg r v) ∨ a = .tidy o)

/-- The word of o, with destination d, may hold this register of core c. -/
def mayHold (o : Origin) (d : Name) (c n : Nat) : Prop := c = o.core ∧ ∃ r, d = .x r ∧ r ≠ 0 ∧ n = r.toNat

/-- A core after changes that leave its storage and every walker but w, the semaphores of p, and add to its latches and
to its scoreboard what L and N allow. -/
structure Core.Kept (w : Walker) (p : Nat → Prop) (L : Latch → Prop) (N : Nat → Prop) (k l : Core) : Prop where
  stored : l.stored = k.stored
  others : ∀ u, u ≠ w → (l.w u).stand = (k.w u).stand
  allSems : (∀ n, p n) → l.sems = k.sems
  sems : ∀ n, p n → Tbl.get l.sems n ⟨voidTag, 0⟩ = Tbl.get k.sems n ⟨voidTag, 0⟩
  latches : ∃ m, l.latches = k.latches ++ m ∧ ∀ a ∈ m, L a
  board : ∃ m, l.scoreboard = k.scoreboard ++ m ∧ ∀ n ∈ m, N n

section
variable {w : Walker} {p : Nat → Prop} {L : Latch → Prop} {N : Nat → Prop}

/-- A change of other fields. -/
theorem Core.Kept.of_eq {k l : Core} (hs : l.stored = k.stored) (hw : ∀ u, u ≠ w → (l.w u).stand = (k.w u).stand)
    (hm : l.sems = k.sems) (hl : l.latches = k.latches) (hb : l.scoreboard = k.scoreboard) : Core.Kept w p L N k l :=
  ⟨hs, hw, fun _ => hm, fun _ _ => by rw [hm], ⟨[], by rw [hl, List.append_nil], by simp⟩,
    ⟨[], by rw [hb, List.append_nil], by simp⟩⟩

theorem Core.Kept.refl (k : Core) : Core.Kept w p L N k k := .of_eq rfl (fun _ _ => rfl) rfl rfl rfl

theorem Core.Kept.trans {j k l : Core} (h : Core.Kept w p L N j k) (h' : Core.Kept w p L N k l) : Core.Kept w p L N j l := by
  obtain ⟨m, hm, hL⟩ := h.latches
  obtain ⟨m', hm', hL'⟩ := h'.latches
  obtain ⟨b, hb, hN⟩ := h.board
  obtain ⟨b', hb', hN'⟩ := h'.board
  refine ⟨h'.stored.trans h.stored, fun u hu => (h'.others u hu).trans (h.others u hu), fun hp => (h'.allSems hp).trans (h.allSems hp),
    fun n hn => (h'.sems n hn).trans (h.sems n hn), ⟨m ++ m', by rw [hm', hm, List.append_assoc], ?_⟩,
    ⟨b ++ b', by rw [hb', hb, List.append_assoc], ?_⟩⟩
  · exact fun a ha => (List.mem_append.1 ha).elim (hL a) (hL' a)
  · exact fun a ha => (List.mem_append.1 ha).elim (hN a) (hN' a)

/-- A change of a walker that is w, or that leaves where it stands. -/
theorem kept_modW (k : Core) (u : Walker) (f : WalkerSt → WalkerSt) (h : u = w ∨ ∀ v, (f v).stand = v.stand) :
    Core.Kept w p L N k (k.modW u f) := by
  refine .of_eq (stored_modW k u f) (fun x hx => ?_) (by cases u <;> rfl) (by cases u <;> rfl) (by cases u <;> rfl)
  by_cases hxu : x = u
  · subst hxu
    rw [w_modW]
    exact h.resolve_left hx _
  · rw [w_modW_ne _ _ hxu]

theorem kept_retry (k : Core) : Core.Kept w p L N k k.retry := by
  unfold Core.retry
  generalize allWalkers = l
  induction l generalizing k with
  | nil => exact .refl _
  | cons u l ih =>
    refine (kept_modW k u _ (.inr fun v => ?_)).trans (ih _)
    split <;> rfl
end

/-- What the word of o, with wait and destination d, may make of a state until its value lands. -/
structure State.ScalarKept (o : Origin) (wait : BitVec 4) (d : Name) (s t : State) : Prop where
  shared : t.shared = s.shared
  core : ∀ c, Core.Kept o.walker (fun n => c = o.core → n ≠ wait.toNat) (mayLatch o d c) (mayHold o d c) (s.core c) (t.core c)

section
variable {o : Origin} {wait : BitVec 4} {d : Name}

theorem State.ScalarKept.refl (s : State) : State.ScalarKept o wait d s s := ⟨rfl, fun _ => .refl _⟩

theorem State.ScalarKept.trans {s t u : State} (h : State.ScalarKept o wait d s t) (h' : State.ScalarKept o wait d t u) :
    State.ScalarKept o wait d s u := ⟨h'.shared.trans h.shared, fun c => (h.core c).trans (h'.core c)⟩

theorem scalarKept_modCore {s : State} {c : Nat} {f : Core → Core}
    (h : Core.Kept o.walker (fun n => c = o.core → n ≠ wait.toNat) (mayLatch o d c) (mayHold o d c) (s.core c) (f (s.core c))) :
    State.ScalarKept o wait d s (s.modCore c f) := by
  refine ⟨rfl, fun e => ?_⟩
  rw [core_modCore_any]
  split
  · next h' => rwa [h']
  · exact .refl _

theorem scalarKept_later (s : State) (c n : Nat) (i : Instr) : State.ScalarKept o wait d s (s.later c n i) :=
  scalarKept_modCore (.of_eq rfl (fun u _ => by cases u <;> rfl) rfl rfl rfl)

theorem scalarKept_modW (s : State) (f : WalkerSt → WalkerSt) : State.ScalarKept o wait d s (s.modW o.core o.walker f) :=
  scalarKept_modCore (kept_modW _ _ _ (.inl rfl))

theorem scalarKept_waited {s : State} (hc : o.core = s.cur) : State.ScalarKept o wait d s (s.waited wait) := by
  unfold State.waited
  split
  · exact .refl _
  · have hset : State.ScalarKept o wait d s (s.setSem s.cur wait (s.semVal s.cur wait - 1)) := by
      unfold State.setSem
      refine scalarKept_modCore ?_
      refine ⟨rfl, fun u _ => by cases u <;> rfl, fun hp => ?_, fun n hn => ?_, ⟨[], (List.append_nil _).symm, by simp⟩, ⟨[], (List.append_nil _).symm, by simp⟩⟩
      · exact absurd rfl (hp _ hc.symm)
      · exact get_put_ne _ _ _ (hn hc.symm)
    refine hset.trans (scalarKept_modCore ?_)
    exact .of_eq rfl (fun u _ => by cases u <;> rfl) rfl rfl rfl

theorem scalarKept_enqueueAt (s : State) (c n : Nat) (e : QEntry) : State.ScalarKept o wait d s (s.enqueueAt c n e) := by
  refine scalarKept_modCore (Core.Kept.trans ?_ (kept_retry _))
  exact .of_eq rfl (fun u _ => by cases u <;> rfl) rfl rfl rfl

theorem scalarKept_holdPlace (s : State) (q : BitVec 5) : State.ScalarKept o wait d s (s.holdPlace o q) := by
  unfold State.holdPlace
  split
  · exact scalarKept_enqueueAt ..
  · exact .refl _

theorem scalarKept_sendEntry (s : State) (q : BitVec 5) (v : Word) : State.ScalarKept o wait d s (s.sendEntry o q v) := by
  unfold State.sendEntry
  split
  · split
    · refine scalarKept_modCore (Core.Kept.trans ?_ (kept_retry _))
      exact .of_eq rfl (fun u _ => by cases u <;> rfl) rfl rfl rfl
    · exact scalarKept_later ..
  · exact .refl _

/-! ### Its steps -/

/-- An operation of the word, which stops by a stall alone. -/
abbrev Op.Scalar {α : Type} (o : Origin) (wait : BitVec 4) (d : Name) (m : Op α) : Prop :=
  m.Does (State.ScalarKept o wait d) (· = .stall)

theorem scalar_bind {α β : Type} {m : Op α} {f : α → Op β} (hm : m.Scalar o wait d) (hf : ∀ a, (f a).Scalar o wait d) :
    (m >>= f).Scalar o wait d := does_bind State.ScalarKept.trans hm hf

theorem scalar_need (b : Bool) : (need b).Scalar o wait d := does_need (E := (· = .stall)) State.ScalarKept.refl rfl b

theorem scalar_src (n : Name) : (src o n).Scalar o wait d := by
  refine ⟨fun s a t h => ?_, fun s e h => ?_⟩
  · obtain ⟨r, -, -, -, rfl⟩ | ⟨r, -, -, rfl⟩ | ⟨q, e, es, -, -, -, -, rfl⟩ := src_ok h
    · exact .refl _
    · exact .refl _
    · exact scalarKept_modCore (.of_eq rfl (fun u _ => by cases u <;> rfl) rfl rfl rfl)
  · cases n with
    | x r =>
      cases hc : (s.core o.core).scoreboard.contains r.toNat with
      | true => rw [src_x_pending hc] at h; cases h; rfl
      | false => rw [src_x hc] at h; cases h
    | sp r => cases h
    | q q =>
      cases hq : s.queue o.core q.toNat with
      | nil => rw [src_q_empty hq] at h; cases h; rfl
      | cons e es =>
        cases hw : e.wait with
        | some a => rw [src_q_pending hq (by rw [hw]; nofun)] at h; cases h; rfl
        | none => rw [src_q_pops hq hw] at h; cases h
    | v _ | a _ | k _ | p _ => cases h; rfl

theorem scalar_dst (v : Word) : (dst o d v).Scalar o wait d := by
  refine ⟨fun s a t h => ?_, fun s e h => ?_⟩
  · obtain ⟨r, rfl, -, rfl⟩ | ⟨q, rfl, -, rfl⟩ := dst_ok h
    · refine scalarKept_modCore ?_
      split
      · exact .refl _
      · next hr =>
        refine ⟨rfl, fun u _ => by cases u <;> rfl, fun _ => rfl, fun _ _ => rfl, ⟨[.xreg r v], rfl, fun a ha => ?_⟩,
          ⟨[], (List.append_nil _).symm, by simp⟩⟩
        exact ⟨rfl, .inl ⟨r, v, rfl, hr, List.mem_singleton.1 ha⟩⟩
    · exact (scalarKept_holdPlace s q).trans (scalarKept_sendEntry _ q v)
  · cases d with
    | x r =>
      cases hc : (s.core o.core).scoreboard.contains r.toNat with
      | true =>
        have he : (dst o (.x r) v).run s = .error .stall := by
          unfold dst
          rw [op_bind_ok (op_getCore _ _)]
          exact op_bind_error (op_need_not (by rw [hc]; rfl) _)
        rw [he] at h; cases h; rfl
      | false => rw [dst_x v hc] at h; cases h
    | q q =>
      cases hq : s.queueRoom o.core q with
      | false => rw [dst_q_full v hq] at h; cases h; rfl
      | true => rw [dst_q v hq] at h; cases h
    | sp _ | v _ | a _ | k _ | p _ => cases h; rfl

theorem scalar_reserve : (reserve o d).Scalar o wait d := by
  cases d with
  | x r =>
    refine does_getCore_bind fun k => scalar_bind (scalar_need _) fun _ => does_modify fun s => scalarKept_modCore ?_
    split
    · exact .refl _
    · next hr =>
      refine ⟨rfl, fun u _ => by cases u <;> rfl, fun _ => rfl, fun _ _ => rfl, ⟨[], (List.append_nil _).symm, by simp⟩,
        ⟨[r.toNat], rfl, fun a ha => ?_⟩⟩
      exact ⟨rfl, r, rfl, hr, List.mem_singleton.1 ha⟩
  | q q =>
    exact does_get_bind fun s => scalar_bind (scalar_need _) fun _ => does_modify fun s => scalarKept_holdPlace s q
  | sp _ | v _ | a _ | k _ | p _ => exact does_stall rfl

theorem scalar_doneNext : (doneNext o []).Scalar o wait d := by
  refine scalar_bind (does_modify fun s => scalarKept_modCore ?_) fun _ =>
    scalar_bind (does_modify fun s => scalarKept_modW s _) fun _ => does_pure State.ScalarKept.refl _
  refine ⟨rfl, fun u _ => by cases u <;> rfl, fun _ => rfl, fun _ _ => rfl, ⟨[.tidy o], by rw [List.append_nil], fun a ha => ?_⟩,
    ⟨[], (List.append_nil _).symm, by simp⟩⟩
  exact ⟨rfl, .inr (List.mem_singleton.1 ha)⟩

theorem scalar_doneLater (n : Nat) (i : Instr) : (doneLater o n i).Scalar o wait d :=
  scalar_bind (does_modify fun s => (scalarKept_modW s _).trans (scalarKept_later ..)) fun _ => does_pure State.ScalarKept.refl _

theorem scalar_resultLater (lat : Nat) (v : Word) : (resultLater o d lat v).Scalar o wait d :=
  scalar_bind scalar_reserve fun _ => scalar_doneLater ..

end

/-! ### The words -/

/-- A word whose body, whatever its origin, takes only the steps of a scalar word. -/
def scalarIssue (w : Walker) (h : Hdr) (d : Name) (i : Instr) : Prop :=
  ∃ body : Origin → Op Flow, (∀ o, (body o).Scalar o h.wait d) ∧ ∀ s, exec i s = issue w h 1 body s

theorem scalarIssue_of_binaryWord {i : Instr} {h : Hdr} {d a b : Name} {f : Word → Word → Word}
    (hi : binaryWord i = some (h, d, a, b, f)) : scalarIssue .C h d i :=
  ⟨_, fun _ => scalar_bind (scalar_src a) fun _ => scalar_bind (scalar_src b) fun _ => scalar_bind (scalar_dst _) fun _ =>
    scalar_doneNext, fun _ => exec_of_binaryWord hi⟩

theorem scalarIssue_of_unaryWord {i : Instr} {h : Hdr} {d a : Name} {f : Word → Word}
    (hi : unaryWord i = some (h, d, a, f)) : scalarIssue .C h d i :=
  ⟨_, fun _ => scalar_bind (scalar_src a) fun _ => scalar_bind (scalar_dst _) fun _ => scalar_doneNext,
    fun _ => exec_of_unaryWord hi⟩

theorem scalarIssue_of_scalarWord {i : Instr} {w : Walker} {h : Hdr} {d : Name} (hi : scalarWord i = some (w, h, d)) :
    scalarIssue w h d i := by
  unfold scalarWord at hi
  split at hi
  · next hb => cases hi; exact scalarIssue_of_binaryWord hb
  · next hu _ => cases hi; exact scalarIssue_of_unaryWord hu
  · split at hi
    case h_1 =>
      cases hi
      exact ⟨_, fun _ => scalar_bind (scalar_dst _) fun _ => scalar_doneNext, fun _ => rfl⟩
    case h_2 =>
      cases hi
      exact ⟨_, fun _ => scalar_bind (scalar_src _) fun _ => scalar_bind (scalar_dst _) fun _ => scalar_doneNext, fun _ => rfl⟩
    case h_3 =>
      cases hi
      exact ⟨_, fun _ => scalar_bind (scalar_src _) fun _ => scalar_bind (scalar_src _) fun _ => scalar_bind (scalar_src _) fun _ =>
        scalar_bind (scalar_dst _) fun _ => scalar_doneNext, fun _ => rfl⟩
    case h_4 | h_5 =>
      cases hi
      exact ⟨_, fun _ => scalar_bind (scalar_src _) fun _ => scalar_bind (scalar_src _) fun _ => scalar_resultLater .., fun _ => rfl⟩
    case h_6 =>
      cases hi
      exact ⟨_, fun _ => does_get_bind fun _ => does_getCore_bind fun _ => scalar_bind (scalar_need _) fun _ =>
        scalar_resultLater .., fun _ => rfl⟩
    case h_7 =>
      cases hi
      exact ⟨_, fun _ => does_getCore_bind fun _ => scalar_bind (scalar_need _) fun _ => scalar_resultLater .., fun _ => rfl⟩
    case h_8 =>
      cases hi
      exact ⟨_, fun _ => does_getCore_bind fun _ => scalar_resultLater .., fun _ => rfl⟩
    case h_9 =>
      cases hi
      exact ⟨_, fun _ => does_get_bind fun _ => does_getCore_bind fun _ => scalar_resultLater .., fun _ => rfl⟩
    case h_10 =>
      cases hi
      exact ⟨_, fun _ => scalar_bind (does_get_bind fun _ => scalar_need _) fun _ => does_get_bind fun _ => scalar_resultLater .., fun _ => rfl⟩
    case h_11 | h_12 =>
      cases hi
      exact ⟨_, fun _ => does_get_bind fun _ => scalar_resultLater .., fun _ => rfl⟩
    case h_13 => cases hi

/-- Whatever comes of the issue of a scalar word, the state after it is as the word's steps leave it. -/
theorem scalarKept_issue {w : Walker} {h : Hdr} {d : Name} {body : Origin → Op Flow} {s t : State}
    (hb : ∀ o, (body o).Scalar o h.wait d) (ht : issue w h 1 body s = .next t) : State.ScalarKept (s.word w h) h.wait d s t := by
  have hW : ∀ (u : State) (f : WalkerSt → WalkerSt), State.ScalarKept (s.word w h) h.wait d u (u.modW s.cur w f) := fun u f => by
    have hm := scalarKept_modW (o := s.word w h) (wait := h.wait) (d := d) u f
    rwa [word_core, word_walker] at hm
  obtain ⟨f, u, hr, ht⟩ | rfl | rfl | ⟨e, hr, hne, -⟩ := issue_outcomes ht
  · have hu := (scalarKept_waited (word_core s w h)).trans ((hb _).ok _ _ _ hr)
    obtain rfl | rfl := ht
    · exact hu.trans (hW _ _)
    · exact hu
  · exact hW _ _
  · refine State.ScalarKept.trans (scalarKept_modCore ?_) (hW _ _)
    exact .of_eq rfl (fun u _ => by cases u <;> rfl) rfl rfl rfl
  · exact absurd ((hb _).stop _ _ hr) hne

theorem semVal_of_kept {o : Origin} {wait : BitVec 4} {d : Name} {s t : State} (hk : State.ScalarKept o wait d s t)
    {n : BitVec 4} (hn : n ≠ wait) : t.semVal o.core n = s.semVal o.core n := by
  have hv : t.vfs = s.vfs := (sharedSame_of_shared hk.shared).2.2.2.1
  unfold State.semVal
  rw [ownTag_of_stored hv (hk.core _).stored, (hk.core _).sems n.toNat fun _ e => hn (BitVec.eq_of_toNat_eq e)]

/-- Settles O58: each word's body takes only steps that keep the frame, and stops by a stall alone. -/
theorem scalarFrame : Obligations.ScalarFrame := by
  unfold Obligations.ScalarFrame
  intro i w h d s t hi ht
  obtain ⟨body, hb, he⟩ := scalarIssue_of_scalarWord hi
  have hk := scalarKept_issue hb ((he s).symm.trans ht)
  have hc : (s.word w h).core = s.cur := word_core s w h
  obtain ⟨m, hm, hL⟩ := (hk.core s.cur).latches
  obtain ⟨b, hbd, hN⟩ := (hk.core s.cur).board
  refine ⟨sharedSame_of_shared hk.shared, fun c => ⟨storageSame_of_stored (hk.core c).stored, othersSame_of_stand ?_⟩,
    fun c hcc => ?_, fun l hl => ?_, fun n hn => ?_, fun n hn => ?_⟩
  · have ho := (hk.core c).others
    rwa [word_walker] at ho
  · have hne : c ≠ (s.word w h).core := fun e => hcc (e.trans hc)
    obtain ⟨m, hm, hL⟩ := (hk.core c).latches
    obtain ⟨b, hbd, hN⟩ := (hk.core c).board
    have hm0 : m = [] := List.eq_nil_iff_forall_not_mem.2 fun a ha => hne (hL a ha).1
    have hb0 : b = [] := List.eq_nil_iff_forall_not_mem.2 fun a ha => hne (hN a ha).1
    rw [hm0, List.append_nil] at hm
    rw [hb0, List.append_nil] at hbd
    exact ⟨hm, (hk.core c).allSems fun _ e => absurd e hne, hbd⟩
  · rw [hm] at hl
    exact (List.mem_append.1 hl).imp_right fun hl => (hL l hl).2
  · rw [hbd] at hn
    exact (List.mem_append.1 hn).imp_right fun hn => (hN n hn).2
  · rw [← hc]
    exact semVal_of_kept hk hn

end Sys2Proof.Machine
end

section
namespace Sys2Proof.Machine

/-! ## A trap freezes its core (R50, R318) -/

section
variable {α : Type} (P : Core → α) (hempty : ∀ k l, P { k with empty := l } = P k)
  (hports : ∀ k l a, P { k with ports := l, agenda := a } = P k)
include hempty hports

/-- A field of a core that is not its empty granules, its ports or its agenda stands through the writes to memory. -/
theorem field_writeUnit (s : State) (tag : Tag) (k : Nat) (bs : List Byte) (d : Nat) :
    P ((s.writeUnit tag k bs).core d) = P (s.core d) := by
  have hrearm : ∀ (k : Core) (off n : Nat), P (rearm k off n) = P k := fun k off n => by
    unfold rearm
    split
    · rfl
    · exact hports ..
  unfold State.writeUnit
  extract_lets u fresh mem0 s1
  split
  · rw [core_clearMarks]
    refine (core_modCore_field P (fun k => ?_) d).trans (?_ : P (s1.core d) = _)
    · rw [hrearm]
      split
      · exact hempty ..
      · rfl
    · rfl
  · split
    · rfl
    · rfl

theorem field_write (s : State) (tag : Tag) (k : Nat) (bs : List Byte) (d : Nat) :
    P ((s.write tag k bs).core d) = P (s.core d) := by
  unfold State.write
  split
  · generalize unitRuns k bs.length = l
    have hfold : ∀ a : State × List Byte, P ((l.foldl (fun (a : State × List Byte) r =>
        (a.1.writeUnit tag r.1 (a.2.take r.2), a.2.drop r.2)) a).1.core d) = P (a.1.core d) := by
      induction l with
      | nil => exact fun _ => rfl
      | cons r l ih => exact fun a => (ih _).trans (field_writeUnit P hempty hports ..)
    exact hfold _
  · rfl

theorem field_saveCore (s : State) (c g d : Nat) : P ((s.saveCore c g).core d) = P (s.core d) := by
  unfold State.saveCore
  extract_lets k tag
  split
  · rfl
  · next a _ =>
    extract_lets s1
    have hfold : ∀ (l : List (Nat × List Byte)) (t : State), P ((l.foldl (fun (t : State) p =>
        match t.vaultKey k.vf (a + p.1) with
        | some key => t.write tag key p.2
        | none => t) t).core d) = P (t.core d) := by
      intro l
      induction l with
      | nil => exact fun _ => rfl
      | cons p l ih =>
        intro t
        rw [List.foldl_cons, ih]
        split
        · exact field_write P hempty hports ..
        · rfl
    exact hfold _ s

end

theorem frozen_takeTrap {s : State} {o : Origin} (h : (s.core o.core).frozen = none) (cls : TrapClass) (code addr : Nat) :
    ((s.takeTrap o cls code addr).core o.core).frozen = some .trap := by
  unfold State.takeTrap
  extract_lets k s1 g
  have hs1 : (s1.core o.core).frozen = some .trap := by unfold s1; rw [core_modCore]
  split
  · next hz => rw [h] at hz; cases hz
  · split
    · extract_lets bytes s2
      have hs2 : (s2.core o.core).frozen = some .trap := by
        unfold s2
        rw [modGang_core, field_saveCore Core.frozen (fun _ _ => rfl) (fun _ _ _ => rfl), hs1]
      split
      · exact hs2
      · split
        · rwa [core_after]
        · rwa [core_after]
    · rwa [core_send]

/-- A word that traps freezes its core. -/
theorem frozen_trapped_word {s : State} {w : Walker} {h : Hdr} (hz : (s.core s.cur).frozen = none) (cls : TrapClass)
    (code addr : Nat) :
    (((s.takeTrap { s.word w h with post2 := 0 } cls code addr).stalled s.cur w).core s.cur).frozen = some .trap := by
  have hc : ({ s.word w h with post2 := 0 } : Origin).core = s.cur := word_core s w h
  have hf := frozen_takeTrap (o := { s.word w h with post2 := 0 }) (by rw [hc]; exact hz) cls code addr
  rw [hc] at hf
  rw [State.stalled, core_modW]
  cases w <;> exact hf

/-! ## Words between views whose sources are views -/

/-- Why a word stops that waits for nothing it starts itself. -/
def Stop.Plain : Stop → Prop
  | .prefetch _ => False
  | .await _ _ => False
  | _ => True

/-- A found operand that is a view, or that traps. -/
def Found.IsView : Found → Prop
  | .trap _ => True
  | .view _ _ => True
  | _ => False

/-- An operation that changes nothing, and starts nothing when it stops. -/
abbrev Op.Reads {α : Type} (m : Op α) : Prop := m.Does (fun s t => t = s) Stop.Plain

section
variable {o : Origin}

theorem reads_bind {α β : Type} {m : Op α} {f : α → Op β} (hm : m.Reads) (hf : ∀ a, (f a).Reads) : (m >>= f).Reads :=
  does_bind (fun h h' => h'.trans h) hm hf

theorem reads_pure {α : Type} (a : α) : (pure a : Op α).Reads := does_pure (R := fun s t => t = s) (fun _ => rfl) a

theorem reads_need (b : Bool) : (need b).Reads := does_need (R := fun s t => t = s) (fun _ => rfl) trivial b

theorem findOperand_view (s : State) (c : Nat) (n : BitVec 6) : (findOperand s c (.v n)).IsView := by
  unfold findOperand
  dsimp only
  split <;> trivial

theorem findOperands_views {ops : List (Name × Bool)} (hv : ∀ e ∈ ops, ∃ n, e.1 = .v n) (s : State) (c : Nat) :
    ∀ f ∈ findOperands s c ops, f.1.IsView := by
  induction ops generalizing s with
  | nil => exact fun f hf => by cases hf
  | cons e es ih =>
    obtain ⟨n, hn⟩ := hv e List.mem_cons_self
    intro f hf
    unfold findOperands at hf
    obtain rfl | hf := List.mem_cons.1 hf
    · rw [hn]; exact findOperand_view s c n
    · exact ih (fun e he => hv e (List.mem_cons_of_mem _ he)) _ f hf

theorem reads_operandStall {f : Found} (hf : f.IsView) (s : State) (c : Nat) (te : Bool) :
    (liftM (operandStall s c te f) : Op Unit).Reads := by
  have he : operandStall s c te f = .ok () ∨ operandStall s c te f = .error .stall := by
    cases f with
    | trap _ => exact .inl (by cases te <;> rfl)
    | view fmt r =>
      unfold operandStall
      dsimp only
      split
      · exact .inr rfl
      · split
        · exact .inr rfl
        · exact .inl rfl
    | stall | fetch _ | port _ _ _ _ _ => cases hf
  obtain he | he := he
  · rw [he]; exact reads_pure ()
  · rw [he]; exact does_stall trivial

theorem reads_takeOperand {f : Found} (hf : f.IsView) (te : Bool) (code : Nat) : (takeOperand o te code f).Reads := by
  refine does_get_bind fun s => ?_
  cases f with
  | trap _ => exact does_trapNow (fun _ _ _ => trivial) _ _ _
  | view fmt r =>
    dsimp only
    split
    · exact reads_bind (does_trapNow (fun _ _ _ => trivial) _ _ _) fun _ => reads_pure _
    · exact reads_pure _
  | stall | fetch _ | port _ _ _ _ _ => cases hf

theorem reads_foldlM {α β : Type} {f : β → α → Op β} {l : List α} (hf : ∀ a ∈ l, ∀ b, (f b a).Reads) (b : β) :
    (l.foldlM f b).Reads := by
  induction l generalizing b with
  | nil => exact reads_pure b
  | cons a l ih => exact reads_bind (hf a List.mem_cons_self b) fun b' => ih (fun a ha => hf a (List.mem_cons_of_mem _ ha)) b'

theorem reads_src {n : Name} (hq : ∀ q, n ≠ .q q) : (src o n).Reads := by
  cases n with
  | x r => exact does_getCore_bind fun k => reads_bind (reads_need _) fun _ => reads_pure _
  | sp r => exact does_get_bind fun s => reads_pure _
  | q q => exact absurd rfl (hq q)
  | v _ | a _ | k _ | p _ => exact does_stall trivial

theorem claimBanks_cases (o : Origin) (b : BitVec 32) (s : State) :
    (claimBanks o b).run s = .ok ((), s.setCore o.core ((s.core o.core).winBanks ((s.core o.core).wordAge o) b)) ∨
    (claimBanks o b).run s = .error (.lost ((s.core o.core).wordAge o) b) := by
  by_cases h : (s.core o.core).banksLost ((s.core o.core).wordAge o) b = 0
  · exact .inl (claimBanks_run h)
  · refine .inr ?_
    show (match (s.core o.core).requestBanks ((s.core o.core).wordAge o) b with
      | some k1 => Except.ok ((), s.setCore o.core k1)
      | none => Except.error (Stop.lost ((s.core o.core).wordAge o) b)) = _
    unfold Core.requestBanks
    rw [if_neg h]

end

/-- What the issue of a word between views leaves of a state, in which its result to come is added. -/
structure State.ViewKept (o : Origin) (d : Name) (s t : State) : Prop where
  shared : t.shared = s.shared
  away : ∀ c, c ≠ o.core → t.core c = s.core c
  stored : (t.core o.core).stored = (s.core o.core).stored
  others : ∀ u, u ≠ o.walker → ((t.core o.core).w u).stand = ((s.core o.core).w u).stand
  latches : (t.core o.core).latches = (s.core o.core).latches
  sems : (t.core o.core).sems = (s.core o.core).sems
  owed : ∀ r ∈ (t.core o.core).vpend, r ∈ (s.core o.core).vpend ∨ ∃ f run, destView s o.core d = some (f, run) ∧
    r = (keyRS o.core run.1, run.2, o.age)

theorem destView_of_stored {s t : State} {c : Nat} (h : (t.core c).stored = (s.core c).stored) (d : Name) :
    destView t c d = destView s c d := by
  simp only [Core.stored, Prod.mk.injEq] at h
  obtain ⟨-, -, -, hv, -⟩ := h
  cases d with
  | v n => unfold destView Core.viewReg; dsimp only; rw [hv]
  | x _ | sp _ | q _ | a _ | k _ | p _ => rfl

section
variable {o : Origin} {d : Name}

theorem State.ViewKept.refl (s : State) : State.ViewKept o d s s := ⟨rfl, fun _ _ => rfl, rfl, fun _ _ => rfl, rfl, rfl, fun _ h => .inl h⟩

theorem State.ViewKept.trans {s t u : State} (h : State.ViewKept o d s t) (h' : State.ViewKept o d t u) : State.ViewKept o d s u := by
  refine ⟨h'.shared.trans h.shared, fun c hc => (h'.away c hc).trans (h.away c hc), h'.stored.trans h.stored,
    fun w hw => (h'.others w hw).trans (h.others w hw), h'.latches.trans h.latches, h'.sems.trans h.sems, fun r hr => ?_⟩
  obtain hr | hr := h'.owed r hr
  · exact h.owed r hr
  · rw [destView_of_stored h.stored] at hr
    exact .inr hr

/-- A change of the word's own core. -/
theorem viewKept_modCore {s : State} {f : Core → Core} (hs : (f (s.core o.core)).stored = (s.core o.core).stored)
    (hw : ∀ u, u ≠ o.walker → ((f (s.core o.core)).w u).stand = ((s.core o.core).w u).stand)
    (hl : (f (s.core o.core)).latches = (s.core o.core).latches) (hm : (f (s.core o.core)).sems = (s.core o.core).sems)
    (hv : ∀ r ∈ (f (s.core o.core)).vpend, r ∈ (s.core o.core).vpend ∨ ∃ g run, destView s o.core d = some (g, run) ∧
      r = (keyRS o.core run.1, run.2, o.age)) : State.ViewKept o d s (s.modCore o.core f) := by
  refine ⟨rfl, fun c hc => core_modCore_ne _ _ hc, ?_, ?_, ?_, ?_, ?_⟩
  all_goals rw [core_modCore]
  · exact hs
  · exact hw
  · exact hl
  · exact hm
  · exact hv

theorem viewKept_modW (s : State) (f : WalkerSt → WalkerSt) : State.ViewKept o d s (s.modW o.core o.walker f) := by
  refine viewKept_modCore (stored_modW ..) (fun u hu => by rw [w_modW_ne _ _ hu]) ?_ ?_ (fun r hr => .inl ?_)
  · cases o.walker <;> rfl
  · cases o.walker <;> rfl
  · revert hr; cases o.walker <;> exact id

theorem viewKept_later (s : State) (n : Nat) (i : Instr) : State.ViewKept o d s (s.later o.core n i) :=
  viewKept_modCore rfl (fun u _ => by cases u <;> rfl) rfl rfl fun _ h => .inl h

theorem viewKept_winBanks (s : State) (age : Nat) (b : BitVec 32) :
    State.ViewKept o d s (s.setCore o.core ((s.core o.core).winBanks age b)) :=
  viewKept_modCore (f := fun k => k.winBanks age b) rfl (fun u _ => by cases u <;> rfl) rfl rfl fun _ h => .inl h

theorem op_bind_eq_ok {α β : Type} {m : Op α} {f : α → Op β} {s t : State} {b : β} (h : (m >>= f).run s = .ok (b, t)) :
    ∃ a s1, m.run s = .ok (a, s1) ∧ (f a).run s1 = .ok (b, t) := by
  cases hr : m.run s with
  | error e => rw [op_bind_error hr] at h; cases h
  | ok r => rw [op_bind_ok hr] at h; exact ⟨r.1, r.2, rfl, h⟩

/-- The destination of a word whose operands were found is the view that it names. -/
theorem vectorOperands_dest {readD : Bool} {ops : List (Name × Bool)} {s t : State} {fmt : Byte} {r : Nat × Nat} {old : List Nat}
    {ss : List Source} (h : (vectorOperands o d readD ops).run s = .ok ((fmt, r, old, ss), t)) :
    destView s o.core d = some (fmt, r) := by
  unfold vectorOperands at h
  rw [op_bind_ok (op_get s)] at h
  dsimp only at h
  cases hd : destView s o.core d with
  | none =>
    rw [hd] at h
    obtain ⟨_, _, -, h⟩ := op_bind_eq_ok h
    cases h
  | some v =>
    rw [hd] at h
    obtain ⟨_, _, -, h⟩ := op_bind_eq_ok h
    obtain ⟨_, _, -, h⟩ := op_bind_eq_ok h
    obtain ⟨_, _, -, h⟩ := op_bind_eq_ok h
    obtain ⟨_, _, -, h⟩ := op_bind_eq_ok h
    cases h
    rfl

/-- An operation of a word between views. -/
abbrev Op.Views {α : Type} (o : Origin) (d : Name) (m : Op α) : Prop := m.Does (State.ViewKept o d) Stop.Plain

theorem views_bind {α β : Type} {m : Op α} {f : α → Op β} (hm : m.Views o d) (hf : ∀ a, (f a).Views o d) :
    (m >>= f).Views o d := does_bind State.ViewKept.trans hm hf

theorem views_of_reads {α : Type} {m : Op α} (hm : m.Reads) : m.Views o d :=
  ⟨fun s a t h => by rw [hm.ok s a t h]; exact .refl s, hm.stop⟩

theorem views_claimBanks (b : BitVec 32) : (claimBanks o b).Views o d := by
  refine ⟨fun s a t h => ?_, fun s e h => ?_⟩
  · obtain hr | hr := claimBanks_cases o b s
    · rw [hr] at h; cases h; exact viewKept_winBanks ..
    · rw [hr] at h; cases h
  · obtain hr | hr := claimBanks_cases o b s
    · rw [hr] at h; cases h
    · rw [hr] at h; cases h; trivial

/-- Finding the operands of a word whose sources are views takes banks, and no more. -/
theorem views_vectorOperands {readD : Bool} {ops : List (Name × Bool)} (hv : ∀ e ∈ ops, ∃ n, e.1 = .v n) :
    (vectorOperands o d readD ops).Views o d := by
  refine does_get_bind fun s => ?_
  have hstalls : Op.Reads ((findOperands s o.core ops).foldlM
      (fun (_ : Unit) f => (liftM (operandStall s o.core f.2 f.1) : Op Unit)) ()) :=
    reads_foldlM (fun f hf _ => reads_operandStall (findOperands_views hv s o.core f hf) ..) ()
  have hread : ∀ e ∈ ops.zipIdx, ∀ acc : List Source, Op.Reads (do
      let f := findOperand (← get) o.core e.1.1
      (liftM (operandStall s o.core e.1.2 f) : Op Unit)
      return acc ++ [← takeOperand o e.1.2 e.2 f]) := by
    intro e he acc
    obtain ⟨n, hn⟩ := hv e.1 (List.fst_mem_of_mem_zipIdx he)
    refine does_get_bind fun t => ?_
    have hf : (findOperand t o.core e.1.1).IsView := by rw [hn]; exact findOperand_view t o.core n
    exact reads_bind (reads_operandStall hf ..) fun _ => reads_bind (reads_takeOperand hf ..) fun _ => reads_pure _
  dsimp only
  cases destView s o.core d with
  | none => exact views_bind (views_of_reads hstalls) fun _ => does_trapNow (fun _ _ _ => trivial) ..
  | some v =>
    exact views_bind (views_of_reads (reads_need _)) fun _ => views_bind (views_of_reads hstalls) fun _ =>
      views_bind (views_of_reads (reads_foldlM hread _)) fun _ => views_bind (views_claimBanks _) fun _ =>
      views_of_reads (reads_pure _)

/-- A result on its way to the word's destination. -/
theorem viewKept_fixedResult {r : Nat × Nat} {lat : Nat} {bytes : List Byte} {flags : BitVec 7} {s t : State} {f : Flow}
    {fmt : Byte} (hd : destView s o.core d = some (fmt, r)) (h : (fixedResult o r lat bytes flags).run s = .ok (f, t)) :
    State.ViewKept o d s t := by
  unfold fixedResult at h
  rw [op_bind_ok (op_getCore _ _)] at h
  obtain ⟨_, s1, h1, h⟩ := op_bind_eq_ok h
  cases (does_demand (E := Stop.Plain) (R := fun s t => t = s) (fun _ => rfl) (fun _ _ _ => trivial) ..).ok _ _ _ h1
  rw [op_bind_ok (op_modifyCore _ _ _), op_doneLater] at h
  cases h
  have hadd : State.ViewKept o d s (s.modCore o.core (fun k => k.pendAdd (keyRS o.core r.1) r.2 o.age)) := by
    refine viewKept_modCore rfl (fun u _ => by cases u <;> rfl) rfl rfl fun e he => ?_
    exact (List.mem_append.1 he).imp_right fun he => ⟨fmt, r, hd, List.mem_singleton.1 he⟩
  exact (hadd.trans (viewKept_modW _ _)).trans (viewKept_later ..)

theorem plain_fixedResult {r : Nat × Nat} {lat : Nat} {bytes : List Byte} {flags : BitVec 7} :
    (fixedResult o r lat bytes flags).Does (fun _ _ => True) Stop.Plain :=
  does_getCore_bind fun _ => does_bind (fun _ _ => trivial) (does_demand (fun _ => trivial) (fun _ _ _ => trivial) ..) fun _ =>
    does_bind (fun _ _ => trivial) (does_modify fun _ => trivial) fun _ => does_bind (fun _ _ => trivial)
      (does_modify fun _ => trivial) fun _ => does_pure (fun _ => trivial) _

theorem views_viewWord {readD : Bool} {ops : List (Name × Bool)} (hv : ∀ e ∈ ops, ∃ n, e.1 = .v n) (lat : Nat)
    (chk : Byte → List Byte → Bool) (f : Byte → List Nat → List Source → List Nat × BitVec 7) :
    (viewWord o d readD ops lat chk f).Views o d := by
  refine ⟨fun s a t h => ?_, fun s e h => ?_⟩
  · unfold viewWord at h
    obtain ⟨⟨fmt, r, old, ss⟩, s1, hr, h⟩ := op_bind_eq_ok h
    have h1 := (views_vectorOperands hv).ok _ _ _ hr
    obtain ⟨_, s2, h2, h⟩ := op_bind_eq_ok h
    cases (does_demand (E := Stop.Plain) (R := fun s t => t = s) (fun _ => rfl) (fun _ _ _ => trivial) ..).ok _ _ _ h2
    exact h1.trans (viewKept_fixedResult ((destView_of_stored h1.stored d).trans (vectorOperands_dest hr)) h)
  · refine (does_bind (R := fun _ _ => True) (fun _ _ => trivial) ⟨fun _ _ _ _ => trivial, (views_vectorOperands hv).stop⟩ fun a => ?_).stop s e h
    exact does_bind (fun _ _ => trivial) (does_demand (fun _ => trivial) (fun _ _ _ => trivial) ..) fun _ => plain_fixedResult
end

theorem views_body {v : ViewSpec} {o : Origin} (hv : ∀ e ∈ v.ops, ∃ n, e.1 = .v n) (hq : ∀ q, v.arg ≠ some (.q q)) :
    (v.body o).Views o v.d := by
  unfold ViewSpec.body
  cases ha : v.arg with
  | none => exact views_viewWord hv ..
  | some n =>
    exact views_bind (views_of_reads (reads_src fun q e => hq q (ha.trans (congrArg some e)))) fun _ => views_viewWord hv ..

/-- A core after its wait has been taken: its semaphore and the count of its waits. -/
theorem core_waited (s : State) (n : BitVec 4) : ∃ sems granted,
    (s.waited n).core s.cur = { s.core s.cur with sems := sems, granted := granted } ∧
    ∀ m, m ≠ n.toNat → Tbl.get sems m ⟨voidTag, 0⟩ = Tbl.get (s.core s.cur).sems m ⟨voidTag, 0⟩ := by
  unfold State.waited
  split
  · exact ⟨_, _, rfl, fun _ _ => rfl⟩
  · rw [core_modCore]
    unfold State.setSem
    dsimp only
    rw [core_modCore]
    exact ⟨_, _, rfl, fun m hm => get_put_ne _ _ _ hm⟩

theorem core_waited_ne (s : State) (n : BitVec 4) {c : Nat} (hc : c ≠ s.cur) : (s.waited n).core c = s.core c := by
  unfold State.waited
  split
  · rfl
  · exact (core_modCore_ne _ _ hc).trans (core_modCore_ne _ _ hc)

theorem shared_waited (s : State) (n : BitVec 4) : (s.waited n).shared = s.shared := by
  unfold State.waited
  split <;> rfl

/-- The frame of a view word, from what its issue keeps of the state before or after its wait. -/
theorem viewFrame_of_kept {s u t : State} {h : Hdr} {d : Name} (hu : u = s ∨ u = s.waited h.wait)
    (hk : State.ViewKept (s.word .V h) d u t) :
    s.sharedSame t ∧ (∀ c, c ≠ s.cur → t.core c = s.core c) ∧ (s.core s.cur).storageSame (t.core s.cur) ∧
    (s.core s.cur).othersSame (t.core s.cur) .V ∧ (t.core s.cur).latches = (s.core s.cur).latches ∧
    (∀ n, n ≠ h.wait → t.semVal s.cur n = s.semVal s.cur n) ∧
    (∀ r ∈ (t.core s.cur).vpend, r ∈ (s.core s.cur).vpend ∨ ∃ f run, destView (s.waited h.wait) s.cur d = some (f, run) ∧
      r = (keyRS s.cur run.1, run.2, (s.core s.cur).time * 8 + walkerNum .V)) := by
  obtain ⟨hshared, haway, hstored, hothers, hlatches, hsems, howed⟩ := hk
  rw [word_core] at haway hstored hothers hlatches hsems howed
  rw [word_walker] at hothers
  rw [word_age] at howed
  obtain ⟨sems, granted, hw, hne⟩ := core_waited s h.wait
  have hwd : destView (s.waited h.wait) s.cur d = destView s s.cur d := destView_of_stored (by rw [hw]; rfl) d
  have hus : (u.core s.cur).stored = (s.core s.cur).stored := by
    obtain rfl | rfl := hu
    · rfl
    · rw [hw]; rfl
  have huw : ∀ v, (u.core s.cur).w v = (s.core s.cur).w v := fun v => by
    obtain rfl | rfl := hu
    · rfl
    · rw [hw]; cases v <;> rfl
  have hul : (u.core s.cur).latches = (s.core s.cur).latches ∧ (u.core s.cur).vpend = (s.core s.cur).vpend := by
    obtain rfl | rfl := hu
    · exact ⟨rfl, rfl⟩
    · rw [hw]; exact ⟨rfl, rfl⟩
  have hsem : ∀ m, m ≠ h.wait.toNat → Tbl.get (u.core s.cur).sems m ⟨voidTag, 0⟩ = Tbl.get (s.core s.cur).sems m ⟨voidTag, 0⟩ := by
    obtain rfl | rfl := hu
    · exact fun _ _ => rfl
    · rw [hw]; exact hne
  have hud : destView u s.cur d = destView (s.waited h.wait) s.cur d := (destView_of_stored hus d).trans hwd.symm
  have hushared : u.shared = s.shared := by
    obtain rfl | rfl := hu
    · rfl
    · exact shared_waited ..
  have hsh := sharedSame_of_shared (hshared.trans hushared)
  refine ⟨hsh, fun c hc => ?_, storageSame_of_stored (hstored.trans hus), othersSame_of_stand fun v hv => ?_,
    hlatches.trans hul.1, fun n hn => ?_, fun r hr => ?_⟩
  · rw [haway c hc]
    obtain rfl | rfl := hu
    · rfl
    · exact core_waited_ne _ _ hc
  · rw [hothers v hv, huw]
  · unfold State.semVal
    rw [ownTag_of_stored hsh.2.2.2.1 (hstored.trans hus), hsems, hsem _ fun e => hn (BitVec.eq_of_toNat_eq e)]
  · rw [← hul.2, ← hud]
    exact howed r hr

theorem asideKept_missWord (k : Core) (w : Walker) (age : Nat) (b : BitVec 32) :
    ((k.missBanks age b).loseWord w age).stored = k.stored ∧
    (∀ u, u ≠ w → ((k.missBanks age b).loseWord w age).w u = k.w u) ∧
    ((k.missBanks age b).loseWord w age).latches = k.latches ∧ ((k.missBanks age b).loseWord w age).sems = k.sems ∧
    ((k.missBanks age b).loseWord w age).vpend = k.vpend := by
  obtain ⟨loss, asks, hm⟩ : ∃ loss asks, k.missBanks age b = { k with bankLoss := loss, asking := asks } := ⟨_, _, rfl⟩
  rw [hm]
  refine ⟨stored_modW .., fun u hw => (w_modW_ne _ _ hw).trans (by cases u <;> rfl), ?_, ?_, ?_⟩
  all_goals cases w <;> rfl

/-- Whatever comes of the issue of a word between views but a trap, its frame holds. -/
theorem viewKept_issue {v : ViewSpec} {s t : State} (hv : ∀ e ∈ v.ops, ∃ n, e.1 = .v n) (hq : ∀ q, v.arg ≠ some (.q q))
    (hz : (s.core s.cur).frozen = none) (ht : issue .V v.h v.cost v.body s = .next t) (hzt : (t.core s.cur).frozen = none) :
    ∃ u, (u = s ∨ u = s.waited v.h.wait) ∧ State.ViewKept (s.word .V v.h) v.d u t := by
  have hW : ∀ (u : State) (f : WalkerSt → WalkerSt), State.ViewKept (s.word .V v.h) v.d u (u.modW s.cur .V f) := fun u f => by
    have hm := viewKept_modW (o := s.word .V v.h) (d := v.d) u f
    rwa [word_core, word_walker] at hm
  have hC : ∀ (f : Core → Core), (f (s.core s.cur)).stored = (s.core s.cur).stored →
      (∀ u, u ≠ .V → ((f (s.core s.cur)).w u).stand = ((s.core s.cur).w u).stand) →
      (f (s.core s.cur)).latches = (s.core s.cur).latches → (f (s.core s.cur)).sems = (s.core s.cur).sems →
      (f (s.core s.cur)).vpend = (s.core s.cur).vpend → State.ViewKept (s.word .V v.h) v.d s (s.modCore s.cur f) := by
    intro f h1 h2 h3 h4 h5
    have hm := viewKept_modCore (o := s.word .V v.h) (d := v.d) (s := s) (f := f)
    rw [word_core, word_walker] at hm
    exact hm h1 h2 h3 h4 fun r hr => .inl (h5 ▸ hr)
  obtain ⟨f, u, hr, ht⟩ | rfl | rfl | ⟨e, hr, -, he⟩ := issue_outcomes ht
  · have hu := (views_body hv hq).ok _ _ _ hr
    obtain rfl | rfl := ht
    · exact ⟨_, .inr rfl, hu.trans (hW _ _)⟩
    · exact ⟨_, .inr rfl, hu⟩
  · exact ⟨s, .inl rfl, hW _ _⟩
  · exact ⟨s, .inl rfl, (hC _ rfl (fun u _ => by cases u <;> rfl) rfl rfl rfl).trans (hW _ _)⟩
  · have hp := (views_body hv hq).stop _ _ hr
    obtain ⟨age, b, rfl, rfl⟩ | ⟨p, rfl⟩ | ⟨n, i, rfl⟩ | ⟨cls, code, addr, rfl, rfl⟩ := he
    · obtain ⟨h1, h2, h3, h4, h5⟩ := asideKept_missWord (s.core s.cur) .V age b
      exact ⟨s, .inl rfl, (hC _ h1 (fun u hu => congrArg WalkerSt.stand (h2 u hu)) h3 h4 h5).trans (hW _ _)⟩
    · cases hp
    · cases hp
    · rw [frozen_trapped_word hz] at hzt
      cases hzt

/-- Settles O59: each word is the issue of its specification, whose steps keep the frame; a trap freezes the core. -/
theorem vectorFrame : Obligations.VectorFrame := by
  unfold Obligations.VectorFrame
  intro i v s t hi hv hq hz ht hzt
  have he : exec i s = issue .V v.h v.cost v.body s := hi.elim (exec_of_elementWord · s) (exec_of_movementWord · s)
  obtain ⟨u, hu, hk⟩ := viewKept_issue hv hq hz (he.symm.trans ht) hzt
  exact viewFrame_of_kept hu hk

end Sys2Proof.Machine
end

section
namespace Sys2Proof.Machine

/-! ## A destination that can be held after a word's reads could be before them (R50, R60) -/

/-- What a destination looks at in a core. -/
def Core.room (k : Core) := (k.scoreboard, k.queues, k.popped)

/-- Two states in which the same destinations are ready. -/
structure State.SameRoom (s t : State) : Prop where
  room : ∀ c, (t.core c).room = (s.core c).room

theorem State.SameRoom.refl (s : State) : s.SameRoom s := ⟨fun _ => rfl⟩

theorem State.SameRoom.trans {s t u : State} (h : s.SameRoom t) (h' : t.SameRoom u) : s.SameRoom u :=
  ⟨fun c => (h'.room c).trans (h.room c)⟩

theorem sameRoom_modCore {s : State} {c : Nat} {f : Core → Core} (h : ∀ k, (f k).room = k.room) : s.SameRoom (s.modCore c f) :=
  ⟨core_modCore_field Core.room h⟩

theorem sameRoom_setCore {s : State} {c : Nat} {k : Core} (h : k.room = (s.core c).room) : s.SameRoom (s.setCore c k) := by
  refine ⟨fun d => ?_⟩
  by_cases hd : d = c
  · subst hd; rw [core_setCore]; exact h
  · rw [core_setCore_ne _ _ hd]

theorem sameRoom_startPrefetch (s : State) (c : Nat) (p : BitVec 4) : s.SameRoom (s.startPrefetch c p) := by
  unfold State.startPrefetch
  extract_lets k t t1
  split
  · refine State.SameRoom.trans (sameRoom_setCore ?_) (sameRoom_modCore fun _ => ?_)
    · rfl
    · rfl
  · exact .refl s

theorem sameRoom_setPort (s : State) (c : Nat) (p : BitVec 4) (t : PortSt) : s.SameRoom (s.setPort c p t) := by
  have h1 : s.SameRoom (s.modCore c (fun k => { k with ports := Tbl.put k.ports p.toNat t })) := sameRoom_modCore fun _ => rfl
  unfold State.setPort
  extract_lets s1
  split
  · exact h1.trans (sameRoom_startPrefetch ..)
  · exact h1

theorem sameRoom_claimBanks {o : Origin} {b : BitVec 32} {s t : State} (h : (claimBanks o b).run s = .ok ((), t)) : s.SameRoom t := by
  obtain hr | hr := claimBanks_cases o b s
  · rw [hr] at h; cases h
    exact sameRoom_setCore rfl
  · rw [hr] at h; cases h

theorem sameRoom_takeOperand {o : Origin} {te : Bool} {code : Nat} {f : Found} {s t : State} {v : Source}
    (h : (takeOperand o te code f).run s = .ok (v, t)) : s.SameRoom t := by
  unfold takeOperand at h
  rw [op_bind_ok (op_get s)] at h
  cases f with
  | view fmt r =>
    dsimp only at h
    split at h
    · cases h
    · cases h; exact .refl s
  | port p fmt runs bs q =>
    dsimp only at h
    split at h
    · cases h
    · obtain ⟨_, _, h1, h⟩ := op_bind_eq_ok h
      cases h1; cases h
      exact sameRoom_setPort ..
  | stall | trap _ | fetch _ => cases h

theorem destReady_of_reserve {o : Origin} {d : Name} {s t u : State} (hs : s.SameRoom t) (h : (reserve o d).run t = .ok ((), u)) :
    (destReady o d).run s = .ok ((), s) := by
  have hroom : ∀ c, (t.core c).scoreboard = (s.core c).scoreboard ∧ (t.core c).queues = (s.core c).queues ∧
      (t.core c).popped = (s.core c).popped := fun c => by
    have he := hs.room c
    simp only [Core.room, Prod.mk.injEq] at he
    exact he
  obtain ⟨r, rfl, hr, -⟩ | ⟨q, rfl, hq, -⟩ := reserve_ok h
  · rw [(hroom _).1] at hr
    unfold destReady
    rw [op_bind_ok (op_getCore _ _), op_need (by rw [hr]; rfl)]
  · have hq' : s.queueRoom o.core q = true := by
      rw [← hq]
      unfold State.queueRoom State.queueEnd State.queue
      simp only [hroom]
    unfold destReady
    rw [op_bind_ok (op_get _), op_need hq']

theorem op_liftM_ok {x : Except Stop Unit} (h : x = .ok ()) (s : State) : (liftM x : Op Unit).run s = .ok ((), s) := by
  subst h; rfl

/-- An element of a source comes to a register or a queue. -/
theorem execVgets_lands {h : Hdr} {tea : Bool} {d a b : Name} {s s1 s2 s3 s4 : State} {n : Word} {v : Source}
    (hm : s.mayIssue .V h.wait) (hb : (src (s.word .V h) b).run (s.waited h.wait) = .ok (n, s1))
    (hs : operandStall s1 s.cur tea (findOperand s1 s.cur a) = .ok ())
    (ht : (takeOperand (s.word .V h) tea 0 (findOperand s1 s.cur a)).run s1 = .ok (v, s2))
    (hc : (claimBanks (s.word .V h) (v.runs.foldl (fun m r => m ||| banksOf r.1 r.2) 0#32)).run s2 = .ok ((), s3))
    (hd : (reserve (s.word .V h) d).run s3 = .ok ((), s4)) :
    execVgets h tea d a b s = .next (s4.landsLater s .V h 1 3 (.scalarResultLands (s.word .V h) d
      (getsWord v.fmt (v.elems.getD (n.toNat % 1024) 0)))) := by
  have hroom : s1.SameRoom s3 := (sameRoom_takeOperand ht).trans (sameRoom_claimBanks hc)
  refine issue_seq hm ?_
  rw [op_bind_ok hb, op_bind_ok (destReady_of_reserve hroom hd), op_bind_ok (op_get _), word_core, op_bind_ok (op_liftM_ok hs _),
    op_bind_ok ht, op_bind_ok hc]
  unfold resultLater
  rw [op_bind_ok hd, op_doneLater, word_core]

/-- The vector status comes to a register or a queue, and is cleared where the word says so. -/
theorem execVgetsSt_lands {h : Hdr} {clr : Bool} {d : Name} {s t : State} (hm : s.mayIssue .V h.wait)
    (hp : ((s.waited h.wait).core s.cur).wV.pend = 0)
    (hd : (reserve (s.word .V h) d).run (if clr then (s.waited h.wait).modCore s.cur (fun k => { k with vstat := 0 })
      else s.waited h.wait) = .ok ((), t)) :
    execVgetsSt h clr d s = .next (t.landsLater s .V h 1 3 (.scalarResultLands (s.word .V h) d
      (((s.waited h.wait).core s.cur).vstat.setWidth 64))) := by
  have hrest : (resultLater (s.word .V h) d 3 (((s.waited h.wait).core s.cur).vstat.setWidth 64)).run
      (if clr then (s.waited h.wait).modCore s.cur (fun k => { k with vstat := 0 }) else s.waited h.wait) = .ok (.seq,
        (t.begin (s.word .V h)).later s.cur 3 (.scalarResultLands (s.word .V h) d (((s.waited h.wait).core s.cur).vstat.setWidth 64))) := by
    unfold resultLater
    rw [op_bind_ok hd, op_doneLater, word_core]
  refine issue_seq hm ?_
  rw [op_bind_ok (op_getCore _ _), word_core, op_bind_ok (op_need (decide_eq_true hp) _)]
  cases clr with
  | false => exact hrest
  | true =>
    rw [if_pos rfl, op_bind_ok (op_modifyCore _ _ _), word_core]
    exact hrest

/-- A codebook's entries come to a view. -/
theorem execVlut_lands {h : Hdr} {tea sat hi : Bool} {d a : Name} {n : BitVec 3} {s s2 : State} {fmt : Byte} {r : Nat × Nat}
    {old : List Nat} {v : Source} (hm : s.mayIssue .V h.wait)
    (hv : (vectorOperands (s.word .V h) d false [(a, tea)]).run (s.waited h.wait) = .ok ((fmt, r, old, [v]), s2))
    (hi' : fmtClass v.fmt = .int) (hf : isFloat fmt = true) (hx : (s2.core s.cur).inText r.1 r.2 = false) :
    execVlut h tea sat hi d a (.k n) s =
      let res := v.elems.map (fun x => lutElem fmt sat (((s.waited h.wait).codebook s.cur n).getD
        (if hi then x / 16 % 16 else x % 16) 0))
      .next ((s2.owes s r).landsLater s .V h 4 6 (.vectorResultLands (s.word .V h) (keyRS s.cur r.1)
        (unelems (fmtSize fmt) (res.map (fun x => x.1))) (orFlags (res.map (fun x => x.2))))) := by
  refine issue_seq hm ?_
  rw [op_bind_ok (op_get _), word_core]
  unfold viewUnary
  dsimp only
  rw [viewWord_run hv (by simp [hi', hf]) (by rw [word_core]; exact hx), word_core, word_age]
  dsimp only [gather, List.headD_cons]
  rfl

/-- A tile takes each element of a source exactly. -/
theorem execVacc_lands {h : Hdr} {tea : Bool} {n : BitVec 4} {a : Name} {s s1 s2 : State} {r : Nat × Nat} {v : Source}
    (hm : s.mayIssue .V h.wait) (hr : ((s.waited h.wait).core s.cur).tileRun n = some r)
    (hd : destFree (s.waited h.wait) s.cur r = true)
    (hs : operandStall (s.waited h.wait) s.cur tea (findOperand (s.waited h.wait) s.cur a) = .ok ())
    (ht : (takeOperand (s.word .V h) tea 0 (findOperand (s.waited h.wait) s.cur a)).run (s.waited h.wait) = .ok (v, s1))
    (hf : fmtClass v.fmt ≠ .bit) (hc : (claimBanks (s.word .V h) (BitVec.allOnes 32)).run s1 = .ok ((), s2))
    (hx : (s2.core s.cur).inText r.1 r.2 = false) :
    execVacc h tea (.a n) a s =
      let img := s2.read ((s.waited h.wait).ownTag s.cur) (keyRS s.cur r.1) r.2
      .next (State.landsLater (State.owes (s2.modCore s.cur (fun k => { k with
        busyTiles := k.busyTiles ++ [(r.1, r.2, (s.word .V h).age)] })) s r) s .V h 4 8 (.vectorResultLands (s.word .V h)
          (keyRS s.cur r.1) (tileOver img (fun _ => true) (accumulate v.fmt v.elems v.bad (wtile img))) 0)) := by
  refine issue_seq hm ?_
  rw [op_bind_ok (op_get _), op_bind_ok (op_getCore _ _), word_core]
  unfold accNum
  dsimp only
  rw [hr]
  dsimp only
  rw [op_bind_ok (op_need hd _), op_bind_ok (op_liftM_ok hs _), op_bind_ok ht, op_bind_ok (op_demand (decide_eq_true hf) _ _ _), op_bind_ok hc,
    op_bind_ok (op_get _), op_bind_ok (op_modifyCore _ _ _), word_core, fixedResult_run, word_core, word_age]
  · rfl
  · rw [word_core, core_modCore]; exact hx

/-- Settles O37. -/
theorem vectorScalarsAndTiles : Obligations.VectorScalarsAndTiles := by
  unfold Obligations.VectorScalarsAndTiles
  refine ⟨?_, ?_, ?_, ?_⟩
  · intro h tea d a b s s1 s2 s3 s4 n v hm hb hs ht hc hd
    exact execVgets_lands hm hb hs ht hc hd
  · intro h clr d s t hm hp hd
    exact execVgetsSt_lands hm hp hd
  · intro h tea sat hi d a n s s2 fmt r old v hm hv hi' hf hx
    exact execVlut_lands hm hv hi' hf hx
  · intro h tea n a s s1 s2 r v hm hr hd hs ht hf hc hx
    exact execVacc_lands hm hr hd hs ht hf hc hx

end Sys2Proof.Machine
end

section
namespace Sys2Proof.Machine

/-! ## VST to the vault from a kept run (R34, R193)

The cost of a VST's last grant is that of its operand's kind of view, an access's that of the run which the walker keeps. In
a state where the two differ, an accumulator view's run kept for a VST of a vector view, its walker goes on 8 cycles after
the last grant, where the statement says 6. -/

/-- A vector walker at the last grant of an accumulator view's run. -/
def lastGrantWalker : WalkerSt :=
  { WalkerSt.start with st := .running, grant := 2, run := some ((0x10000, 12288), true), baseVal := 0x800000000 }

/-- Core 0 with that walker, its text in the first 600 bytes of register space, and vault 0 in slot 0 of its VF. -/
def lastGrant : State :=
  { State.reset with
    cores := [(0, { Core.reset with live := true, words := 100, wV := lastGrantWalker })]
    vfs := [(0, { Vf.reset with created := true, record := zeros 576 ++ [1] })] }

/-- When the vector walker of core 0 issues again after a step. -/
def readyAfter : Host.Outcome State Fault Refusal → Nat
  | .next t => (t.core 0).wV.readyAt
  | _ => 0

/-- Refutes O38: VST of a vector view, one access, at the last grant of a kept accumulator view's run. The model's walker is
ready at 8, the statement's at 6. -/
theorem not_viewLoadsAndStores : ¬ Obligations.ViewLoadsAndStores := by
  unfold Obligations.ViewLoadsAndStores
  rintro ⟨-, -, -, h⟩
  have hissue : lastGrant.mayIssue .V (lastGrant.accessWait ⟨0, 0⟩) := ⟨rfl, by decide, rfl, rfl, rfl, .inl rfl⟩
  have hm : lastGrant.mayAccess ⟨0, 0⟩ (.v 1) (.x 1) (0x10000, 12288) true := ⟨hissue, fun _ => rfl, rfl⟩
  have he := h ⟨0, 0⟩ (.v 1) (.x 1) 0 0 lastGrant (0x10000, 12288) true (keyVault 0 0) hm (by decide) (by decide)
    (by decide +kernel) (fun hg => absurd hg (by decide)) (by decide : _ = 0#32)
  have hr := congrArg readyAfter he
  have hmodel : readyAfter (exec (.vst ⟨0, 0⟩ (.v 1) (.x 1) 0 0) lastGrant) = 8 := by decide +kernel
  rw [hmodel] at hr
  revert hr
  decide +kernel

end Sys2Proof.Machine
end

section
namespace Sys2Proof.Machine

/-! ## A write of a run outside the units it meets (R3, R307) -/

/-- Each piece of a run that is cut at multiples of a size lies in the run and within one such multiple. -/
theorem splitAt_piece {size : Nat} (hs : 0 < size) {fuel k n : Nat} {r : Nat × Nat} (hr : r ∈ splitAt size fuel k n) :
    k ≤ r.1 ∧ 0 < r.2 ∧ r.1 + r.2 ≤ k + n ∧ r.1 % size + r.2 ≤ size := by
  induction fuel generalizing k n with
  | zero => cases hr
  | succ fuel ih =>
    unfold splitAt at hr
    split at hr
    · cases hr
    · next hn =>
      have hm := Nat.mod_lt k hs
      obtain rfl | hr := List.mem_cons.1 hr
      · refine ⟨Nat.le_refl _, ?_, ?_, ?_⟩ <;> dsimp only <;> omega
      · obtain ⟨h1, h2, h3, h4⟩ := ih hr
        exact ⟨by omega, h2, by omega, h4⟩

theorem unitSize_pos (k : Nat) : 0 < unitSize k := by
  unfold unitSize
  split <;> omega

theorem isRS_iff {k : Nat} : isRS k = true ↔ 2 ^ 36 ≤ k ∧ k < 2 ^ 37 := by
  unfold isRS
  rw [Bool.and_eq_true, decide_eq_true_eq, decide_eq_true_eq]

/-- Units stand in the order of their keys. -/
theorem unit_mono {k m : Nat} (h : k ≤ m) : unitOf k ≤ unitOf m ∧ unitOf k + unitSize k ≤ unitOf m + unitSize m := by
  unfold unitOf unitSize
  by_cases hk : isRS k = true
  · by_cases hm : isRS m = true
    · rw [if_pos hk, if_pos hm]; omega
    · rw [if_pos hk, if_neg hm]
      rw [isRS_iff] at hk hm
      omega
  · by_cases hm : isRS m = true
    · rw [if_neg hk, if_pos hm]
      rw [isRS_iff] at hk hm
      omega
    · rw [if_neg hk, if_neg hm]; omega

/-- Between two keys whose units have one size, a piece within that size lies within its own unit. -/
theorem piece_within {k e : Nat} {r : Nat × Nat} (hsize : unitSize e = unitSize k) (hk : k ≤ r.1) (hpos : 0 < r.2)
    (he : r.1 + r.2 ≤ e + 1) (hin : r.1 % unitSize k + r.2 ≤ unitSize k) : r.1 % unitSize r.1 + r.2 ≤ unitSize r.1 := by
  unfold unitSize at hsize hin ⊢
  by_cases h0 : isRS k = true
  · have h1 : isRS e = true := by
      by_contra h1
      rw [if_neg h1, if_pos h0] at hsize
      omega
    have h2 : isRS r.1 = true := by rw [isRS_iff] at h0 h1 ⊢; omega
    rw [if_pos h0] at hin
    rwa [if_pos h2]
  · rw [if_neg h0] at hin
    by_cases h2 : isRS r.1 = true
    · rw [if_pos h2]; omega
    · rwa [if_neg h2]

/-- A write leaves what lies before its first unit and after its last. -/
theorem memByte_write_outside {s : State} {tag : Tag} {k : Nat} {bs : List Byte} {a : Nat} (hk : isTagged k = true) (hbs : bs ≠ [])
    (hsize : unitSize (k + bs.length - 1) = unitSize k)
    (ha : a < unitOf k ∨ unitOf (k + bs.length - 1) + unitSize (k + bs.length - 1) ≤ a) :
    memByte (s.write tag k bs).mem a = memByte s.mem a := by
  have hlen : 0 < bs.length := List.length_pos_iff.2 hbs
  have hfold : ∀ (l : List (Nat × Nat)) (p : State × List Byte), (∀ r ∈ l, r ∈ unitRuns k bs.length) →
      memByte (l.foldl (fun (a : State × List Byte) r => (a.1.writeUnit tag r.1 (a.2.take r.2), a.2.drop r.2)) p).1.mem a =
        memByte p.1.mem a := by
    intro l
    induction l with
    | nil => exact fun _ _ => rfl
    | cons r l ih =>
      intro p hl
      obtain ⟨hk', hpos, hend, hin⟩ := splitAt_piece (unitSize_pos k) (hl r List.mem_cons_self)
      have hw := piece_within hsize hk' hpos (by omega) hin
      have hlo := (unit_mono hk').1
      have hhi := (unit_mono (k := r.1) (m := k + bs.length - 1) (by omega)).2
      have htake : (p.2.take r.2).length ≤ r.2 := List.length_take_le ..
      rw [List.foldl_cons, ih _ fun r hr => hl r (List.mem_cons_of_mem _ hr)]
      exact memByte_writeUnit_outside (by omega) (by omega)
  unfold State.write
  rw [if_pos hk]
  exact hfold _ (s, bs) fun _ h => h

/-! ## The landing of vector results (R125, R164) -/

/-- A result that no other walker's meets in its cycle is written whole, with its bits. -/
theorem execVectorResultLands_writes {o : Origin} {key : Nat} {bytes : List Byte} {flags : BitVec 7} {s : State}
    (hk : key + bytes.length < 2 ^ 56) (hf : (s.core o.core).fixedNow = []) :
    execVectorResultLands o key bytes flags s = .next ((((s.writeUser (s.ownTag o.core) key bytes).modCore o.core (fun k =>
      { k with fixedNow := k.fixedNow ++ [(key, bytes.length, o.steps * 8 + walkerNum o.walker)] })).modCore o.core (fun k =>
        { k with vpend := dropFirst (fun e => e.1 = key && e.2.2 = o.age) k.vpend, moves := k.moves.filter (· ≠ o.age),
                 busyTiles := k.busyTiles.filter (fun e => e.2.2 ≠ o.age), vstat := k.vstat ||| flags })).finish o) := by
  have hg : key ≠ keyGibbs := by unfold keyGibbs; omega
  have hwrite : s.writeFixed o key bytes = (s.writeUser (s.ownTag o.core) key bytes).modCore o.core (fun k =>
      { k with fixedNow := k.fixedNow ++ [(key, bytes.length, o.steps * 8 + walkerNum o.walker)] }) := by
    unfold State.writeFixed
    dsimp only
    rw [hf]
    rfl
  have hland : s.landAt o key bytes = s.writeFixed o key bytes := by
    unfold State.landAt State.entryWritten
    rw [if_neg (by omega), if_neg (by omega), if_neg (by rw [Bool.and_eq_true, decide_eq_true_eq]; omega)]
  unfold execVectorResultLands
  rw [if_neg hg, hland, hwrite]

theorem grant_won {s : State} {c age : Nat} {b : BitVec 32} (h : (s.core c).banksLost age b = 0) :
    s.grant c age b = (true, s.modCore c (fun k => k.winBanks age b)) := by
  unfold State.grant Core.requestBanks
  rw [if_pos h]
  rfl

theorem grant_lost {s : State} {c age : Nat} {b : BitVec 32} (h : (s.core c).banksLost age b ≠ 0) :
    s.grant c age b = (false, s.modCore c (fun k => k.missBanks age b)) := by
  unfold State.grant Core.requestBanks
  rw [if_neg h]

/-- Settles O39. -/
theorem vectorResultsLand : Obligations.VectorResultsLand := by
  unfold Obligations.VectorResultsLand
  refine ⟨?_, ?_, ?_⟩
  · intro o key bytes flags s hk hf
    exact execVectorResultLands_writes hk hf
  · intro o off bytes s
    refine ⟨fun hw => ?_, fun hl => ?_⟩
    · show execLongLatencyWriteComplete o off bytes s = _
      unfold execLongLatencyWriteComplete
      rw [grant_won hw]
      rfl
    · show execLongLatencyWriteComplete o off bytes s = _
      unfold execLongLatencyWriteComplete
      rw [grant_lost hl]
      rfl
  · intro s tag k bs a _ hbs ha hk _ hsize
    exact memByte_write_outside hk hbs hsize (by rwa [hsize])

end Sys2Proof.Machine
end

section
namespace Sys2Proof.Machine

/-! ## Events inside a core: queue entries, port fetches, banks and translations -/

section
variable {s : State} {c : Nat}

/-- The one place that waits for the word of an age takes the value. -/
theorem map_fill_place {age : Nat} {tag t0 : Tag} {v v0 : Word} {a b : List QEntry} (h : ∀ e ∈ a ++ b, e.wait ≠ some age) :
    (a ++ ⟨t0, v0, some age⟩ :: b).map (QEntry.fill age tag v) = a ++ ⟨tag, v, none⟩ :: b := by
  have hid : ∀ l : List QEntry, (∀ e ∈ l, e.wait ≠ some age) → l.map (QEntry.fill age tag v) = l := fun l hl =>
    (List.map_congr_left fun e he => if_neg (hl e he)).trans (List.map_id l)
  rw [List.map_append, List.map_cons, hid a fun e he => h e (List.mem_append_left _ he),
    hid b fun e he => h e (List.mem_append_right _ he)]
  rw [show QEntry.fill age tag v ⟨t0, v0, some age⟩ = ⟨tag, v, none⟩ from if_pos rfl]

theorem execPortPrefetch_idle {p : BitVec 4} (h : Tbl.find (s.core c).ports p.toNat = none ∨
    ∃ t, Tbl.find (s.core c).ports p.toNat = some t ∧ t.fetching = []) : execPortPrefetch c p s = .next s := by
  unfold execPortPrefetch
  obtain h | ⟨t, h, hf⟩ := h
  · rw [h]
  · simp only [h, hf]

theorem ports_retry (k : Core) : k.retry.ports = k.ports :=
  retry_field Core.ports (fun _ w _ => by cases w <;> rfl) k

/-- A block under way is added to those that its port has fetched. -/
theorem execPortPrefetch_fetches {p : BitVec 4} {t : PortSt} {i : Nat} {l rows : List Nat}
    (h : Tbl.find (s.core c).ports p.toNat = some t) (hf : t.fetching = i :: l) (hn : t.fetched.any (fun e => e.1 = i) = false)
    (hr : portRows s c t.desc i = some rows) :
    ∃ u w, execPortPrefetch c p s = .next u ∧ Tbl.find (u.core c).ports p.toNat = some w ∧
      w.fetched = t.fetched ++ [(i, portVaultBlock s c t.desc rows)] ∧ u.mem = s.mem := by
  unfold execPortPrefetch
  simp only [h, hf, hn, hr, Bool.false_eq_true, if_false]
  generalize hm : s.toFetch c _ = more
  refine ⟨_, { t with fetched := t.fetched ++ [(i, portVaultBlock s c t.desc rows)], fetching := more.toList }, rfl, ?_, rfl, ?_⟩
  · split
    · rw [core_later, core_modCore]
      dsimp only
      rw [ports_retry, find_put]
    · rw [core_modCore, ports_retry, find_put]
  · split
    · rw [later_mem, modCore_mem]
    · rw [modCore_mem]

/-! ### Banks (R26 to R28) -/

/-- A request of no word on a tile is one for banks. -/
theorem arbitrate_banks {r : BankReq} (h : (s.core c).matq.find? (fun e => e.o.age = r.age) = none) :
    s.arbitrate c r = ((s.grant c r.age r.banks).2, !(s.grant c r.age r.banks).1) := by
  unfold State.arbitrate
  rw [h]

theorem arbitrate_tile {r : BankReq} {e : MatWait} (h : (s.core c).matq.find? (fun e => e.o.age = r.age) = some e) :
    s.arbitrate c r = (s.matTry c e, ((s.matTry c e).core c).matq.any (fun e => e.o.age = r.age)) := by
  unfold State.arbitrate
  rw [h]

theorem execBankArbitration_one (r : BankReq) : execBankArbitration c [r] s =
    .next (if (s.arbitrate c r).2 then (s.arbitrate c r).1.later c 1 (.bankArbitration c [r]) else (s.arbitrate c r).1) := by
  unfold execBankArbitration
  simp only [List.foldl_cons, List.foldl_nil, insertReq]
  cases (s.arbitrate c r).2 <;> rfl

/-- Of two requests for one bank the older is granted, and the younger is made again. -/
theorem execBankArbitration_two {q r : BankReq} (ha : q.age < r.age) (hc : (s.core c).claimed = 0) (hs : (s.core c).standing = [])
    (hm : (s.core c).matq = []) (hb : q.banks &&& r.banks ≠ 0) :
    ∃ t : State, execBankArbitration c [r, q] s = .next (t.later c 1 (.bankArbitration c [r])) ∧ (t.core c).claimed = q.banks := by
  have hwin : (s.core c).banksLost q.age q.banks = 0 := by
    unfold Core.banksLost
    rw [hc, hs]
    simp
  have hq : s.arbitrate c q = (s.modCore c (fun k => k.winBanks q.age q.banks), false) := by
    rw [arbitrate_banks (by rw [hm]; rfl), grant_won hwin]
    rfl
  have hclaimed : ((s.modCore c (fun k => k.winBanks q.age q.banks)).core c).claimed = q.banks := by
    rw [core_modCore]
    show (s.core c).claimed ||| q.banks = q.banks
    rw [hc]
    simp
  have hlost : ((s.modCore c (fun k => k.winBanks q.age q.banks)).core c).banksLost r.age r.banks ≠ 0 := by
    unfold Core.banksLost
    rw [hclaimed, core_modCore]
    show ((s.core c).standing.filter _).foldl _ _ ≠ 0
    rw [hs]
    exact hb
  have hr : (s.modCore c (fun k => k.winBanks q.age q.banks)).arbitrate c r =
      ((s.modCore c (fun k => k.winBanks q.age q.banks)).modCore c (fun k => k.missBanks r.age r.banks), true) := by
    rw [arbitrate_banks (by rw [core_modCore]; show (s.core c).matq.find? _ = none; rw [hm]; rfl), grant_lost hlost]
    rfl
  refine ⟨(s.modCore c (fun k => k.winBanks q.age q.banks)).modCore c (fun k => k.missBanks r.age r.banks), ?_, ?_⟩
  · unfold execBankArbitration
    simp only [List.foldl_cons, List.foldl_nil, insertReq, ha, if_true, hq, hr]
    rfl
  · rw [core_modCore]
    exact hclaimed

/-! ### Translations (R207, R208) -/

theorem execPageWalkComplete_maps {v : BitVec 6} {sp : BitVec 2} {wr big w : Bool} {a phys : Nat}
    (h : (s.walk v sp.toNat wr a).2 = some (big, w, phys)) (hl : (s.core c).tcache.length < 256) :
    ∃ t : State, execPageWalkComplete c v sp wr a s = .next t ∧ t.mem = s.mem ∧
      (⟨v, s.gen v, sp, if big then a / 2 ^ 21 * 2 ^ 21 else a / 2 ^ 16 * 2 ^ 16, big, w, phys, 0, false,
        (s.core c).nextTrans⟩ : TEnt) ∈ (t.core c).tcache := by
  unfold execPageWalkComplete
  simp only [h]
  refine ⟨_, rfl, rfl, ?_⟩
  rw [core_modCore, if_pos (Nat.lt_of_le_of_lt (List.length_filter_le ..) hl)]
  exact List.mem_append_right _ (List.mem_singleton.2 rfl)

/-- What remains of the entries that a removal matches serves no lookup and is held. -/
theorem removePage_matching {k : Core} {v : BitVec 6} {page : Nat} {x : TEnt} (hx : x ∈ (k.removePage v page).tcache)
    (hm : x.removedBy v page = true) : x.gone = true ∧ x.count ≠ 0 := by
  obtain ⟨hx, hkeep⟩ := List.mem_filter.1 hx
  obtain ⟨y, -, rfl⟩ := List.mem_map.1 hx
  have hgone : (if y.removedBy v page then { y with gone := true } else y : TEnt).gone = true := by
    by_cases hy : y.removedBy v page = true
    · rw [if_pos hy]
    · rw [if_neg hy] at hm; exact absurd hm hy
  refine ⟨hgone, fun h0 => ?_⟩
  simp [hgone, h0] at hkeep

end

/-- Settles O50, each event by the lemmas about it. -/
theorem coreEvents : Obligations.CoreEvents := by
  unfold Obligations.CoreEvents
  refine ⟨?_, ?_, ?_, ?_, ?_, ?_, ?_, ?_⟩
  · intro c q age v tag s a b t0 v0 hq hw
    refine ⟨_, rfl, ?_, rfl⟩
    rw [queue_fillPlace, hq, map_fill_place hw]
  · intro c p s h
    exact execPortPrefetch_idle h
  · intro c p s t i l rows h hf hn hr
    exact execPortPrefetch_fetches h hf hn hr
  · intro c r s h
    refine ⟨fun hl => ?_, fun hl => ?_⟩
    · show execBankArbitration c [r] s = _
      rw [execBankArbitration_one, arbitrate_banks h, grant_won hl]
      rfl
    · show execBankArbitration c [r] s = _
      rw [execBankArbitration_one, arbitrate_banks h, grant_lost hl]
      rfl
  · intro c r s e h
    show execBankArbitration c [r] s = _
    rw [execBankArbitration_one, arbitrate_tile h]
  · intro c q r s ha hc hs hm hb
    exact execBankArbitration_two ha hc hs hm hb
  · intro c v sp wr a s
    refine ⟨fun h => ?_, fun big w phys h hl => execPageWalkComplete_maps h hl⟩
    show execPageWalkComplete c v sp wr a s = _
    unfold execPageWalkComplete
    rw [h]
  · intro v page s
    refine ⟨_, rfl, rfl, fun e he x hx hv hp => ?_⟩
    obtain ⟨e0, -, rfl⟩ := List.mem_map.1 he
    refine removePage_matching hx ?_
    unfold TEnt.removedBy
    rw [Bool.and_eq_true, decide_eq_true_eq]
    refine ⟨hv, ?_⟩
    by_cases hb : x.big = true
    · rw [if_pos hb] at hp ⊢; exact decide_eq_true hp
    · rw [if_neg hb] at hp ⊢; exact decide_eq_true hp

end Sys2Proof.Machine
end

section
namespace Sys2Proof.Machine

/-! ## A step of a nest whose tile lies over the ports' descriptors (R126, R128, R137)

The write of a tile re-arms the ports whose descriptors it touches and drops what they were fetching, so that the agenda of a
core after a step is not always its agenda before with the next step added. -/

/-- A nest with the tile of its one accumulator over the descriptors. -/
def coveringNest : NestRun :=
  { cfg := NestCfg.reset, acc := true, o := ⟨0, .M, 0, 0, 0, 0, 0, 0⟩, aent := [], bent := [], arun := none, brun := none,
    asnap := [], bsnap := [], abad := [], bbad := [], cba := [], cbb := [], reads := [], tiles := [(0, 0x3FC00)],
    block := [], blockBad := [], taken := 0, started := true }

/-- Core 0 while port 0 fetches a block. -/
def fetchingPort : State :=
  { State.reset with cores := [(0, { Core.reset with live := true, agenda := [(5, .portPrefetch 0 0)] })] }

/-- Refutes O42: the step drops the port's fetch, which the statement keeps in the core's agenda. -/
theorem not_nestsRun : ¬ Obligations.NestsRun := by
  unfold Obligations.NestsRun
  rintro ⟨-, -, -, -, -, h, -⟩
  obtain ⟨-, -, hagenda⟩ := h 0 fetchingPort coveringNest [[]] []
  have hmodel : ((fetchingPort.nestAdd 0 coveringNest [[]] []).core 0).agenda.length = 1 := by decide +kernel
  rw [hagenda] at hmodel
  revert hmodel
  decide +kernel

end Sys2Proof.Machine
end

section
namespace Sys2Proof.Machine

/-! ## What the links send leaves the cores (R353 to R356) -/

theorem sendFlit_cores (s : State) (p : Nat) (rv : Bool) (segs : List Seg) : (s.sendFlit p rv segs).cores = s.cores := by
  unfold State.sendFlit
  extract_lets t f s1 s2
  split <;> rfl

theorem freeFrom_cores (s : State) (via : Option (Nat × Nat)) (n : Nat) : (s.freeFrom via n).cores = s.cores := by
  cases via <;> rfl

theorem freeResp_cores (s : State) (via : Option (Nat × Nat)) : (s.freeResp via).cores = s.cores := by
  unfold State.freeResp
  split
  · rfl
  · extract_lets left s1
    split <;> rfl

theorem foldl_cores {β : Type} {f : State → β → State} (h : ∀ s b, (f s b).cores = s.cores) (l : List β) :
    ∀ s : State, (l.foldl f s).cores = s.cores := by
  induction l with
  | nil => exact fun _ => rfl
  | cons b l ih => exact fun s => (ih _).trans (h s b)

theorem sendRest_cores (s : State) (p : Nat) : (s.sendRest p).cores = s.cores := by
  unfold State.sendRest
  split
  · rfl
  · exact sendFlit_cores ..

theorem sendPacket_cores (s : State) (p vc : Nat) (e : Queued) : (s.sendPacket p vc e).cores = s.cores := by
  unfold State.sendPacket
  extract_lets k s0 s1
  have h0 : s0.cores = s.cores := by unfold s0; split <;> rfl
  rw [freeFrom_cores, sendRest_cores]
  exact h0

theorem sendResps_cores (s : State) (p : Nat) (two : List (Option (Nat × Nat) × Response)) :
    (s.sendResps p two).cores = s.cores := by
  unfold State.sendResps
  extract_lets who s0 s1
  have h0 : s0.cores = s.cores := by
    unfold s0
    generalize who = x
    cases x <;> rfl
  rw [foldl_cores fun _ _ => freeResp_cores .., sendFlit_cores]
  exact h0

theorem sendOne_packet_cores {s : State} {p : Nat} {f : FPort} {t : State} (e : State.sendOne.packet s p f = some t) :
    t.cores = s.cores := by
  obtain ⟨vc, -, hv⟩ := List.exists_of_findSome?_eq_some e
  obtain ⟨x, -, rfl⟩ := Option.map_eq_some_iff.1 hv
  exact sendPacket_cores ..

theorem sendOne_cores {s : State} {p : Nat} {t : State} (e : s.sendOne p = some t) : t.cores = s.cores := by
  unfold State.sendOne at e
  dsimp only at e
  split at e
  · cases e
  · split at e
    · cases e; exact sendRest_cores ..
    · split at e
      · split at e
        · cases e; exact sendResps_cores ..
        · exact sendOne_packet_cores e
      · exact sendOne_packet_cores e

theorem pump_cores (s : State) (p : Nat) : (s.pump p).cores = s.cores := by
  have hfrom : ∀ n (s : State), (State.pumpFrom p n s).cores = s.cores := by
    intro n
    induction n with
    | zero => exact fun _ => rfl
    | succ n ih =>
      intro s
      unfold State.pumpFrom
      split
      · next e => exact (ih _).trans (sendOne_cores e)
      · rfl
  exact hfrom _ s

theorem pumpAll_cores (s : State) : s.pumpAll.cores = s.cores := by
  unfold State.pumpAll
  extract_lets s1 s2
  have h1 : s1.cores = s.cores := foldl_cores (fun _ _ => pump_cores ..) _ s
  have h2 : s2.cores = s1.cores := foldl_cores (fun t e => by
    split
    · unfold State.sendIdle
      split
      · exact sendFlit_cores ..
      · rfl
    · rfl) _ s1
  refine (foldl_cores (fun t e => ?_) _ s2).trans (h2.trans h1)
  dsimp only
  split <;> rfl

theorem inject_cores {s : State} {p : Packet} {t : State} (e : s.inject p = some t) : t.cores = s.cores := by
  obtain ⟨u, hu, rfl⟩ := Option.map_eq_some_iff.1 e
  obtain ⟨port, -, rfl⟩ := Option.map_eq_some_iff.1 hu
  exact pumpAll_cores ..

theorem sendOut_cores (s : State) (f : FabOp) : (s.sendOut f).cores = s.cores := by
  have hi : ∀ (t d : State) (p : Packet), d.cores = t.cores → ((t.inject p).getD d).cores = t.cores := by
    intro t d p hd
    cases e : t.inject p with
    | none => exact hd
    | some u => exact inject_cores e
  unfold State.sendOut
  dsimp only
  split
  · rfl
  · split
    · exact foldl_cores (fun t p => hi t t p rfl) _ _
    · exact hi _ _ _ rfl

theorem startOp_cores (s : State) (f : FabOp) : (s.startOp f).cores = s.cores :=
  sendOut_cores _ f

theorem tellAll_cores (s : State) (c : Coll) (b : CollBody) : (s.tellAll c b).cores = s.cores := by
  have hsend : ∀ (s : State) (m : CollMsg), (s.sendColl m).cores = s.cores := by
    intro s m
    unfold State.sendColl
    split
    · rfl
    · split
      · rfl
      · exact startOp_cores ..
  refine foldl_cores (fun t i => ?_) _ s
  unfold State.tell
  split
  · rfl
  · exact hsend ..

/-! ## Words of the copy and the fabric walker that complete at once or by an event (R243, R244, R376 to R378) -/

section
variable {s t : State} {h : Hdr}

theorem execXfence_holds (hm : s.mayIssue .X h.wait) (hb : (s.waited h.wait).galleys.any (fun g =>
    g.2.core = s.cur && g.2.o.walker = .X && g.2.gang = ((s.waited h.wait).core s.cur).gang) = true) :
    execXfence h s = .next ((((s.waited h.wait).begin (s.word .X h)).modCore s.cur (fun k => { k.modW .X (fun v => { v with
      blocked := true }) with xfence := some (s.word .X h) })).advanced s .X 1) := by
  refine issue_seq hm ?_
  rw [op_bind_ok (op_get _), word_core, if_pos hb]
  rfl

theorem execXfence_passes (hm : s.mayIssue .X h.wait) (hb : (s.waited h.wait).galleys.any (fun g =>
    g.2.core = s.cur && g.2.o.walker = .X && g.2.gang = ((s.waited h.wait).core s.cur).gang) = false) :
    execXfence h s = .next ((s.waited h.wait).landsLater s .X h 1 1 (.vectorResultLands (s.word .X h) (keyCache s.cur) [] 0)) := by
  refine issue_seq hm ?_
  rw [op_bind_ok (op_get _), word_core, if_neg (by rw [hb]; exact Bool.false_ne_true), op_doneLater, word_core]

/-- A word whose result comes in three cycles, its destination held. -/
theorem resultLater_run {o : Origin} {d : Name} {v : Word} (hr : (reserve o d).run s = .ok ((), t)) :
    (resultLater o d 3 v).run s = .ok (.seq, (t.begin o).later o.core 3 (.scalarResultLands o d v)) := by
  unfold resultLater
  rw [op_bind_ok hr, op_doneLater]

theorem execXstat_lands {clr : Bool} {d : Name} (hm : s.mayIssue .X h.wait)
    (hr : (reserve (s.word .X h) d).run (if clr then (s.waited h.wait).modCore s.cur (fun k => { k with xpoison := 0, xoor := 0 })
      else s.waited h.wait) = .ok ((), t)) :
    execXstat h clr d s = .next (t.landsLater s .X h 1 3 (.scalarResultLands (s.word .X h) d (BitVec.ofNat 64
      (((s.waited h.wait).core s.cur).xpoison * 2 ^ 32 + ((s.waited h.wait).core s.cur).xoor * 2 ^ 16 +
        ((s.waited h.wait).galleys.filter (fun g => g.2.core = s.cur && g.2.gang = ((s.waited h.wait).core s.cur).gang)).length)))) := by
  refine issue_seq hm ?_
  rw [op_bind_ok (op_get _), op_bind_ok (op_getCore _ _), word_core]
  cases clr with
  | false => exact (resultLater_run hr).trans (by rw [word_core])
  | true =>
    rw [if_pos rfl, op_bind_ok (op_modifyCore _ _ _), word_core]
    exact (resultLater_run hr).trans (by rw [word_core])

theorem execFcnt_lands {clr : Bool} {d : Name} {n : BitVec 4} {c : Counter} (hm : s.mayIssue .F h.wait)
    (hc : Tbl.find ((s.waited h.wait).core s.cur).counters n.toNat = some c) (ht : c.tag = (s.waited h.wait).ownTag s.cur)
    (hg : c.tag.gen ≠ 0)
    (hr : (reserve (s.word .F h) d).run (if clr then (s.waited h.wait).modCore s.cur (fun k => { k with
      counters := Tbl.put k.counters n.toNat ⟨(s.waited h.wait).ownTag s.cur, 0, 0, 0⟩ }) else s.waited h.wait) = .ok ((), t)) :
    execFcnt h clr d n s = .next (t.landsLater s .F h 1 3 (.scalarResultLands (s.word .F h) d
      (BitVec.ofNat 64 (c.last.toNat * 2 ^ 48 + c.errs * 2 ^ 32 + c.done)))) := by
  have hv : counterWord ((s.waited h.wait).ownTag s.cur) (Tbl.get ((s.waited h.wait).core s.cur).counters n.toNat ⟨voidTag, 0, 0, 0⟩) =
      BitVec.ofNat 64 (c.last.toNat * 2 ^ 48 + c.errs * 2 ^ 32 + c.done) := by
    unfold Tbl.get counterWord
    rw [hc, Option.getD_some, ← ht, if_pos (by simpa [tagOk] using hg)]
  refine issue_seq hm ?_
  rw [op_bind_ok (op_get _), word_core]
  dsimp only
  rw [hv]
  cases clr with
  | false => exact (resultLater_run hr).trans (by rw [word_core])
  | true =>
    rw [if_pos rfl, op_bind_ok (op_modifyCore _ _ _), word_core]
    exact (resultLater_run hr).trans (by rw [word_core])

theorem execFstat_lands {sel : BitVec 3} {d : Name} (hm : s.mayIssue .F h.wait)
    (hr : (reserve (s.word .F h) d).run (s.waited h.wait) = .ok ((), t)) :
    execFstat h sel d s = .next (t.landsLater s .F h 1 3 (.scalarResultLands (s.word .F h) d
      (if sel = 0 then (s.waited h.wait).fabricStatus s.cur else if sel = 1 then BitVec.ofNat 64 (s.waited h.wait).domainNs
        else (s.waited h.wait).moduleId.setWidth 64))) := by
  refine issue_seq hm ?_
  rw [op_bind_ok (op_get _), word_core]
  exact (resultLater_run hr).trans (by rw [word_core])

theorem op_demandScope {o : Origin} {sc : Scope} (hs : s.scopeOk o.core sc = true) : (demandScope o sc).run s = .ok ((), s) := by
  unfold demandScope
  rw [op_bind_ok (op_get _), op_demand hs]

/-- A word that holds its walker until its release takes effect. -/
theorem issue_release {sc : Scope} {d : Nat} {work : RelWork} (hm : s.mayIssue .F h.wait)
    (hs : (s.waited h.wait).scopeOk s.cur sc = true) :
    issue .F h 1 (fun o => do
      demandScope o sc
      modify (fun t => ((t.begin o).modW o.core .F (fun v => { v with blocked := true })).later o.core d
        (.releaseTakesEffect o sc o.age work))
      return .seq) s = .next (State.advanced ((((s.waited h.wait).begin (s.word .F h)).modW s.cur .F (fun v => { v with
        blocked := true })).later s.cur d (.releaseTakesEffect (s.word .F h) sc (s.word .F h).age work)) s .F 1) := by
  refine issue_seq hm ?_
  rw [op_bind_ok (op_demandScope (by rw [word_core]; exact hs)), op_bind_ok (op_modify _ _), word_core]
  rfl

end

/-! ## FATOM and FPULL (R374, R375) -/

theorem atomWordBits_eq (op : AtomOp) (dbl uns : Bool) : atomWordBits op dbl uns = op.code.toNat * 4 + dbl.toNat * 2 + uns.toNat := by
  cases dbl <;> cases uns <;> rfl

section
variable {s s1 s2 s3 s4 : State} {h : Hdr} {tag : BitVec 16}

theorem execFatom_starts {op : AtomOp} {dbl uns : Bool} {d a b : Name} {e x v : Word} (hm : s.mayIssue .F h.wait)
    (he : if op = .cas then (src (s.word .F h) d).run (s.waited h.wait) = .ok (e, s1) else e = 0 ∧ s1 = s.waited h.wait)
    (ha : (src (s.word .F h) a).run s1 = .ok (x, s2)) (hb : (src (s.word .F h) b).run s2 = .ok (v, s3))
    (ht : s3.freeTag s.cur = some tag) (hr : (reserve (s.word .F h) d).run s3 = .ok ((), s4))
    (hc : (s3.core s.cur).ctx = .tenant) (hz : bitsOf x.toNat 51 35 = 0) (hal : x.toNat % (if dbl then 8 else 4) = 0)
    (hdm : BitVec.ofNat 12 (x.toNat / 2 ^ 52) ≠ s3.moduleId) :
    execFatom h op dbl uns d a b s = .next (((s4.begin (s.word .F h)).startOp ⟨s.cur, (s3.core s.cur).gang,
      { s3.packet .atom s.cur tag (BitVec.ofNat 12 (x.toNat / 2 ^ 52)) 0 with
        addr := BitVec.ofNat 64 (x.toNat % 2 ^ 35), opnd0 := v, opnd1 := e
        opword := BitVec.ofNat 32 (op.code.toNat * 4 + dbl.toNat * 2 + uns.toNat) },
      0, none, .atom (s.word .F h) d⟩).advanced s .F 1) := by
  have hold : ∀ f : Word → Op Flow,
      (if op = .cas then src (s.word .F h) d >>= f else pure 0 >>= f : Op Flow).run (s.waited h.wait) = (f e).run s1 := by
    intro f
    by_cases hop : op = .cas
    · rw [if_pos hop] at he ⊢; exact op_bind_ok he
    · rw [if_neg hop] at he ⊢; obtain ⟨rfl, rfl⟩ := he; rfl
  refine issue_seq hm ((hold _).trans ?_)
  rw [op_bind_ok ha]
  dsimp only
  rw [op_bind_ok hb, op_bind_ok (op_get _), op_bind_ok (op_getCore _ _), word_core, ht]
  dsimp only
  rw [op_bind_ok hr, op_bind_ok (op_demand (by simpa [hc, hz, hal] using hdm) _ _ _), op_bind_ok (op_modify _ _), atomWordBits_eq]
  rfl

theorem execFpull_starts {card : Name} {n : BitVec 4} {r : List Byte} (hm : s.mayIssue .F h.wait)
    (hr : (steppedRecord (s.word .F h) card 32 32).run (s.waited h.wait) = .ok (r, s1)) (ht : s1.freeTag s.cur = some tag)
    (hz : bitsOf (field r 0 8) 63 28 = 0) (hz' : bitsOf (field r 0 8) 15 8 = 0) (hc : (s1.core s.cur).ctx = .tenant)
    (hdm : BitVec.ofNat 12 (bitsOf (field r 0 8) 27 16) ≠ s1.moduleId) :
    execFpull h card n s = .next (((s1.begin (s.word .F h)).startOp ⟨s.cur, (s1.core s.cur).gang,
      { s1.packet .pull s.cur tag (BitVec.ofNat 12 (bitsOf (field r 0 8) 27 16)) (BitVec.ofNat 8 (field r 0 8)) with
        addr := BitVec.ofNat 64 (field r 8 8), opnd0 := BitVec.ofNat 64 (field r 16 8), opnd1 := BitVec.ofNat 64 (field r 24 8) },
      0, none, .pull (s.word .F h) n⟩).advanced s .F 1) := by
  refine issue_seq hm ?_
  rw [op_bind_ok hr, op_bind_ok (op_get _), op_bind_ok (op_getCore _ _), word_core, ht]
  dsimp only
  rw [op_bind_ok (op_demand (by simp [hz, hz']) _ _ _), op_bind_ok (op_demand (by simp [hc, hdm]) _ _ _), op_bind_ok (op_modify _ _)]
  rfl

end

/-! ## FGRP (R379) -/

/-- A grant after a word's first takes no wait (R39). -/
theorem tryWord_grant {w : Walker} {h : Hdr} {i : Nat} {body : Origin → Op Flow} {s : State}
    (hm : s.mayIssue w (if i = 0 then h.wait else 0)) :
    tryWord s.cur w h (decide (0 < i)) body s = (body (s.word w h)).run (s.waited (if i = 0 then h.wait else 0)) := by
  by_cases hi : i = 0
  · rw [if_pos hi] at hm ⊢
    exact tryWord_of_mayIssue hm (by rw [hi]; rfl)
  · rw [if_neg hi] at hm ⊢
    obtain ⟨h1, h2, h3, h4, -, -⟩ := hm
    unfold tryWord State.waited State.word
    simp [h1, h2, h3, h4, Nat.pos_of_ne_zero hi]

section
variable {w : Walker} {h : Hdr} {i cost : Nat} {body : Origin → Op Flow} {s t : State}

theorem issueAt_seq (hm : s.mayIssue w (if i = 0 then h.wait else 0))
    (hb : (body (s.word w h)).run (s.waited (if i = 0 then h.wait else 0)) = .ok (.seq, t)) :
    issueAt s.cur w h cost (decide (0 < i)) body s = t.advanced s w cost := by
  unfold issueAt
  rw [tryWord_grant hm, hb, if_pos hm.2.2.2.2.1]
  rfl

theorem issueAt_own (hm : s.mayIssue w (if i = 0 then h.wait else 0))
    (hb : (body (s.word w h)).run (s.waited (if i = 0 then h.wait else 0)) = .ok (.own, t)) :
    issueAt s.cur w h cost (decide (0 < i)) body s = t := by
  unfold issueAt
  rw [tryWord_grant hm, hb, if_pos hm.2.2.2.2.1]
end

/-- Banks that are won leave what else a core holds. -/
theorem claimBanks_ok {o : Origin} {b : BitVec 32} {s t : State} (h : (claimBanks o b).run s = .ok ((), t)) :
    t = s.setCore o.core ((s.core o.core).winBanks ((s.core o.core).wordAge o) b) := by
  obtain hr | hr := claimBanks_cases o b s
  · rw [hr] at h; cases h; rfl
  · rw [hr] at h; cases h

/-- A member that goes on later keeps what its core holds but its agenda. -/
theorem field_wakeColl {α : Type} (P : Core → α) (hP : ∀ k a, P { k with agenda := a } = P k) (s : State) (c : Coll) (d : Nat) :
    P ((s.wakeColl c).core d) = P (s.core d) := by
  unfold State.wakeColl State.wakeCollIn State.modHome
  split
  · exact core_modCore_field P (fun k => hP k _) d
  · rfl

/-- A core after the telling of a group word's members, and its going on. -/
theorem field_collTold {α : Type} (P : Core → α) (hP : ∀ k a, P { k with agenda := a } = P k) {s t : State} {id : Nat} {c : Coll}
    {b : CollBody} {d : Nat} (h : t.cores = s.cores) : P ((((t.setColl id c).tellAll c b).wakeColl c).core d) = P (s.core d) := by
  have hc : ((t.setColl id c).tellAll c b).core d = s.core d := by
    unfold State.core
    rw [tellAll_cores]
    exact congrArg (fun l => Tbl.get l d (coreDefault d)) h
  rw [field_wakeColl P hP, hc]

/-- A group's list as it begins replaces its group, and holds the fabric walker. -/
theorem beginGroup_run (o : Origin) (g : BitVec 4) (list : List Byte) (s : State) :
    ∃ t grp, (beginGroup o g list).run s = .ok (.seq, t) ∧ Tbl.find (t.core o.core).groups g.toNat = some grp ∧
      grp.members = listMembers (list.drop 8) ∧ grp.digest = sha512 list ∧ grp.defined = false ∧ grp.seq = 0 ∧
      (t.core o.core).wF.blocked = true ∧ t.mem = s.mem := by
  let grp : Group := ⟨listMembers (list.drop 8),
    ((listMembers (list.drop 8)).findIdx? (· = (s.moduleId, BitVec.ofNat 8 o.core))).getD 0, sha512 list, [], false, false, 0⟩
  let u := ((s.modCore o.core (fun k => { k with groups := Tbl.put k.groups g.toNat grp })).begin o).modW o.core .F
    (fun v => { v with blocked := true, grant := 0 })
  have hgroups : ∀ (k : Core) (w : Walker) (f : WalkerSt → WalkerSt), (k.modW w f).groups = k.groups := by
    intro k w f
    cases w <;> rfl
  have hu : ({ u with nextColl := u.nextColl + 1 } : State).cores = u.cores := rfl
  have hput : Tbl.find (u.core o.core).groups g.toNat = some grp := by
    unfold u State.begin
    rw [core_modW, hgroups, core_modW, hgroups, core_modCore]
    exact find_put ..
  have hblocked : (u.core o.core).wF.blocked = true := by
    unfold u
    rw [core_modW]
    rfl
  refine ⟨_, grp, rfl, ?_, rfl, rfl, rfl, rfl, ?_, ?_⟩
  · exact (congrArg (fun t => Tbl.find t g.toNat) (field_collTold Core.groups (fun _ _ => rfl) hu)).trans hput
  · exact (congrArg WalkerSt.blocked (field_collTold Core.wF (fun _ _ => rfl) hu)).trans hblocked
  · rw [wakeColl_mem, tellAll_mem, setColl_mem]
    rfl

/-- The banks of grant j of a run that is read in grants. -/
def grantBanks (off n j : Nat) : BitVec 32 := ((grantRuns off n)[j]?).elim 0 (fun r => banksOf r.1 r.2)

/-- A list that FGRP may take, at an offset, with the member count that its header gives. -/
structure State.MayGroup (s : State) (c : Nat) (g : BitVec 4) (off n : Nat) : Prop where
  count : field (s.read (s.ownTag c) (keyRS c off) 8) 0 2 = n
  some_ : 1 ≤ n
  most : n ≤ 4096
  fits : off + 8 + 4 * n ≤ 0x40000
  tenant : (s.core c).ctx = .tenant
  full : s.full c off (8 + 4 * n) = true
  free : s.hits c (keyRS c off) (8 + 4 * n) = false
  self : ((listMembers ((s.read (s.ownTag c) (keyRS c off) (8 + 4 * n)).drop 8)).filter
    (· = (s.moduleId, BitVec.ofNat 8 c))).length = 1
  noColl : s.colls.any (fun e => e.2.core = c && e.2.gang = (s.core c).gang && e.2.group = g) = false
  noGalley : s.galleys.any (fun e => e.2.core = c && e.2.gang = (s.core c).gang && e.2.job.onGroup g) = false

/-- FGRP's body, once its list is found good and this grant's banks are won: the last grant begins the group, another leaves the
walker to ask for the next. -/
theorem execFgrp_body (h : Hdr) (card : Name) (g : BitVec 4) (s : State) :
    ∃ body, execFgrp h card g s = .next (issueAt s.cur .F h 1 (decide (0 < (s.core s.cur).wF.grant)) body s) ∧
      ∀ (o : Origin) (w s1 s2 : State) (off n i : Nat), i = ((w.core o.core).w o.walker).grant →
        (recordAt o card 64 8).run w = .ok (off, w) →
        (claimBanks o (if i = 0 then banksOf off 8 else 0)).run w = .ok ((), s1) → s1.MayGroup o.core g off n →
        (claimMore o (if i = 0 then banksOf off 8 else 0) (grantBanks off (8 + 4 * n) i)).run s1 = .ok ((), s2) →
        (body o).run w = (if (grantRuns off (8 + 4 * n)).length ≤ i + 1 then
            beginGroup o g (s1.read (s1.ownTag o.core) (keyRS o.core off) (8 + 4 * n))
          else do
            modifyCore o (fun k' => k'.askNext ((w.core o.core).wordAge o) (grantBanks off (8 + 4 * n) (i + 1)))
            afterAccess o false 1 (fun v => { v with grant := i + 1, asked := some ((w.core o.core).wordAge o) })).run s2 := by
  refine ⟨_, rfl, fun o w s1 s2 off n i hi hrec hclaim hmay hmore => ?_⟩
  obtain ⟨rfl, h1, h2, hfit, hten, hfull, hfree, hself, hcoll, hgal⟩ := hmay
  have hs1 := claimBanks_ok hclaim
  have hctx : (w.core o.core).ctx = (s1.core o.core).ctx ∧ (w.core o.core).gang = (s1.core o.core).gang := by
    rw [hs1, core_setCore]; exact ⟨rfl, rfl⟩
  subst hi
  rw [op_bind_ok hrec, op_bind_ok (op_getCore _ _)]
  dsimp only
  rw [op_bind_ok hclaim, op_bind_ok (op_get _), hctx.1, hctx.2]
  rw [op_bind_ok (op_demand (by simp [h1, h2]) _ _ _), op_bind_ok (op_demand (decide_eq_true hfit) _ _ _),
    op_bind_ok (op_demand (decide_eq_true hten) _ _ _), op_bind_ok (op_need (by rw [hfull, hfree]; rfl) _),
    op_bind_ok (op_demand (decide_eq_true hself) _ _ _), op_bind_ok (op_need (by rw [hcoll]; rfl) _),
    op_bind_ok (op_need (by rw [hgal]; rfl) _)]
  exact op_bind_ok hmore

theorem afterAccess_own (o : Origin) (cost : Nat) (f : WalkerSt → WalkerSt) (s : State) : (afterAccess o false cost f).run s =
    .ok (.own, s.modW o.core o.walker (fun v => f { v with readyAt := (s.core o.core).time + cost, asked := none })) := rfl

theorem blocked_advance (v : WalkerSt) (n : Nat) : (v.advance n).blocked = v.blocked := by
  unfold WalkerSt.advance
  split
  · split <;> rfl
  · rfl

theorem time_waited (s : State) (n : BitVec 4) : ((s.waited n).core s.cur).time = (s.core s.cur).time := by
  obtain ⟨sems, granted, hw, -⟩ := core_waited s n
  rw [hw]

theorem time_of_claimBanks {o : Origin} {b : BitVec 32} {s t : State} (h : (claimBanks o b).run s = .ok ((), t)) :
    (t.core o.core).time = (s.core o.core).time := by
  rw [claimBanks_ok h, core_setCore]
  rfl

section
variable {h : Hdr} {card : Name} {g : BitVec 4} {s s1 s2 : State} {off n i : Nat}

/-- FGRP at its last grant takes the list as its group. -/
theorem execFgrp_begins (hi : (s.core s.cur).wF.grant = i) (hm : s.mayIssue .F (if i = 0 then h.wait else 0))
    (hrec : (recordAt (s.word .F h) card 64 8).run (s.waited (if i = 0 then h.wait else 0)) =
      .ok (off, s.waited (if i = 0 then h.wait else 0)))
    (hclaim : (claimBanks (s.word .F h) (if i = 0 then banksOf off 8 else 0)).run (s.waited (if i = 0 then h.wait else 0)) =
      .ok ((), s1)) (hmay : s1.MayGroup s.cur g off n)
    (hmore : (claimMore (s.word .F h) (if i = 0 then banksOf off 8 else 0) (grantBanks off (8 + 4 * n) i)).run s1 = .ok ((), s2))
    (hlast : (grantRuns off (8 + 4 * n)).length ≤ i + 1) :
    ∃ t grp, execFgrp h card g s = .next t ∧ Tbl.find (t.core s.cur).groups g.toNat = some grp ∧
      grp.members = listMembers ((s1.read (s1.ownTag s.cur) (keyRS s.cur off) (8 + 4 * n)).drop 8) ∧
      grp.digest = sha512 (s1.read (s1.ownTag s.cur) (keyRS s.cur off) (8 + 4 * n)) ∧ grp.defined = false ∧ grp.seq = 0 ∧
      ((t.core s.cur).w .F).blocked = true ∧ t.mem = s1.mem := by
  obtain ⟨body, he, hbody⟩ := execFgrp_body h card g s
  have hrun := hbody (s.word .F h) _ s1 s2 off n i (by rw [word_core, word_walker, waited_w]; exact hi.symm) hrec hclaim
    (by rw [word_core]; exact hmay) hmore
  rw [if_pos hlast, word_core] at hrun
  obtain ⟨t, grp, ht, hgrp, hmem, hdig, hdef, hseq, hblock, htm⟩ := beginGroup_run (s.word .F h) g
    (s1.read (s1.ownTag s.cur) (keyRS s.cur off) (8 + 4 * n)) s2
  rw [word_core] at hgrp hblock
  rw [hi, issueAt_seq hm (hrun.trans ht)] at he
  refine ⟨_, grp, he, ?_, hmem, hdig, hdef, hseq, ?_, ?_⟩
  · rw [State.advanced, core_modW]
    exact hgrp
  · rw [State.advanced, core_modW, w_modW, blocked_advance]
    exact hblock
  · rw [State.advanced, modW_mem, htm, claimBanks_ok hmore]
    rfl

/-- FGRP before its last grant asks for the next. -/
theorem execFgrp_asks (hi : (s.core s.cur).wF.grant = i) (hm : s.mayIssue .F (if i = 0 then h.wait else 0))
    (hrec : (recordAt (s.word .F h) card 64 8).run (s.waited (if i = 0 then h.wait else 0)) =
      .ok (off, s.waited (if i = 0 then h.wait else 0)))
    (hclaim : (claimBanks (s.word .F h) (if i = 0 then banksOf off 8 else 0)).run (s.waited (if i = 0 then h.wait else 0)) =
      .ok ((), s1)) (hmay : s1.MayGroup s.cur g off n)
    (hmore : (claimMore (s.word .F h) (if i = 0 then banksOf off 8 else 0) (grantBanks off (8 + 4 * n) i)).run s1 = .ok ((), s2))
    (hnext : i + 1 < (grantRuns off (8 + 4 * n)).length) :
    execFgrp h card g s = .next (State.modW (s2.modCore s.cur (fun k =>
      k.askNext (s.bankAge .F) (grantBanks off (8 + 4 * n) (i + 1)))) s.cur .F (fun v => { v with
        grant := i + 1, readyAt := (s.core s.cur).time + 1, asked := some (s.bankAge .F) })) := by
  obtain ⟨body, he, hbody⟩ := execFgrp_body h card g s
  have hrun := hbody (s.word .F h) _ s1 s2 off n i (by rw [word_core, word_walker, waited_w]; exact hi.symm) hrec hclaim
    (by rw [word_core]; exact hmay) hmore
  have htime : (s2.core s.cur).time = (s.core s.cur).time := by
    have h2 := (time_of_claimBanks hmore).trans (time_of_claimBanks hclaim)
    rw [word_core, time_waited] at h2
    exact h2
  have hmoreGrants : ¬ (grantRuns off (8 + 4 * n)).length ≤ i + 1 := by omega
  rw [if_neg hmoreGrants, op_bind_ok (op_modifyCore _ _ _), afterAccess_own, word_core, word_walker, wordAge_waited, core_modCore] at hrun
  rw [he, hi, issueAt_own hm hrun]
  show _ = Host.Outcome.next (State.modW _ _ _ (fun v => { v with grant := _, readyAt := _, asked := _ }))
  rw [← htime]
  rfl

end

/-- Settles O49, clause by clause from the lemma of each word. -/
theorem fabricWordsComplete : Obligations.FabricWordsComplete := by
  unfold Obligations.FabricWordsComplete
  refine ⟨?_, ?_, ?_, ?_, ?_, ?_, ?_, ?_⟩
  · intro h s hm
    exact ⟨fun hb => execXfence_holds hm hb, fun hb => execXfence_passes hm hb⟩
  · intro h clr d s t hm w k n hr
    exact execXstat_lands hm hr
  · intro h op dbl uns d a b s s1 s2 s3 s4 e x v tag hm he ha hb ht hr dm hc hz hal hdm
    exact execFatom_starts hm he ha hb ht hr hc hz hal hdm
  · intro h card n s s1 r tag hm hr ht hz hz' hc dm hdm
    exact execFpull_starts hm hr ht hz hz' hc hdm
  · intro h sc g s hm hs
    exact ⟨issue_release hm hs, issue_release hm hs⟩
  · intro h clr d n s t c hm w hc ht hg hr
    exact execFcnt_lands hm hc ht hg hr
  · intro h d s t hm w hr
    exact ⟨execFstat_lands hm hr, execFstat_lands hm hr, execFstat_lands hm hr⟩
  · intro h card g s s1 s2 off i wt w o won n list parts banks hm hrec hclaim h1 h2 hfit hten hfull hfree hself hcoll hgal hmore
    have hmay : s1.MayGroup s.cur g off n := ⟨rfl, h1, h2, hfit, hten, hfull, hfree, hself, hcoll, hgal⟩
    exact ⟨execFgrp_begins rfl hm hrec hclaim hmay hmore, execFgrp_asks rfl hm hrec hclaim hmay hmore⟩

end Sys2Proof.Machine
end

section
namespace Sys2Proof

/-! ## The formats of a word (R36, R38): a word is the pack of its fields, whatever they are -/

theorem ofBool_decide_eq_one : ∀ x : BitVec 1, BitVec.ofBool (decide (x = 1)) = x := by decide
theorem decide_ofBool_eq_one : ∀ b : Bool, decide (BitVec.ofBool b = 1) = b := by decide

theorem eq_packR_iff {w : IWord} {t : BitVec 3} {op : BitVec 6} {h : Hdr} {d a b : BitVec 8} {te : Te} {m : BitVec 5} :
    w = packR t op h d a b te m ↔
      fTag w = t ∧ fOp w = op ∧ hdrOf w = h ∧ fD w = d ∧ fA w = a ∧ fB w = b ∧ teOf w = te ∧ fMod w = m := by
  constructor
  · rintro rfl
    simp (disch := decide) only [packR, hdrOf, teOf, fTag, fOp, fWait, fPost, fD, fA, fB, fTeA, fTeB, fMod,
      BitVec.extractLsb'_append_eq_of_le,
      BitVec.extractLsb'_append_eq_of_add_le, BitVec.extractLsb'_eq_self, Nat.reduceSub, decide_ofBool_eq_one, and_self]
  · rintro ⟨rfl, rfl, rfl, rfl, rfl, rfl, rfl, rfl⟩
    unfold packR hdrOf teOf
    dsimp only
    rw [ofBool_decide_eq_one, ofBool_decide_eq_one]
    unfold fTag fOp fWait fPost fD fA fB fTeA fTeB fMod
    repeat rw [BitVec.extractLsb'_append_extractLsb'_eq_extractLsb' (by rfl)]
    exact BitVec.extractLsb'_eq_self.symm

theorem eq_packI_iff {w : IWord} {t : BitVec 3} {op : BitVec 6} {h : Hdr} {d a : BitVec 8} {imm : BitVec 15} :
    w = packI t op h d a imm ↔
      fTag w = t ∧ fOp w = op ∧ hdrOf w = h ∧ fD w = d ∧ fA w = a ∧ fImm15 w = imm := by
  constructor
  · rintro rfl
    simp (disch := decide) only [packI, hdrOf, fTag, fOp, fWait, fPost, fD, fA, fImm15, BitVec.extractLsb'_append_eq_of_le,
      BitVec.extractLsb'_append_eq_of_add_le, BitVec.extractLsb'_eq_self, Nat.reduceSub, and_self]
  · rintro ⟨rfl, rfl, rfl, rfl, rfl, rfl⟩
    unfold packI hdrOf
    unfold fTag fOp fWait fPost fD fA fImm15
    repeat rw [BitVec.extractLsb'_append_extractLsb'_eq_extractLsb' (by rfl)]
    exact BitVec.extractLsb'_eq_self.symm

theorem eq_packL_iff {w : IWord} {t : BitVec 3} {op : BitVec 6} {h : Hdr} {d : BitVec 8} {imm : BitVec 23} :
    w = packL t op h d imm ↔
      fTag w = t ∧ fOp w = op ∧ hdrOf w = h ∧ fD w = d ∧ fImm23 w = imm := by
  constructor
  · rintro rfl
    simp (disch := decide) only [packL, hdrOf, fTag, fOp, fWait, fPost, fD, fImm23, BitVec.extractLsb'_append_eq_of_le,
      BitVec.extractLsb'_append_eq_of_add_le, BitVec.extractLsb'_eq_self, Nat.reduceSub, and_self]
  · rintro ⟨rfl, rfl, rfl, rfl, rfl⟩
    unfold packL hdrOf
    unfold fTag fOp fWait fPost fD fImm23
    repeat rw [BitVec.extractLsb'_append_extractLsb'_eq_extractLsb' (by rfl)]
    exact BitVec.extractLsb'_eq_self.symm

theorem eq_packM_iff {w : IWord} {t : BitVec 3} {op : BitVec 6} {h : Hdr} {d a b : BitVec 8} {n : BitVec 7} :
    w = packM t op h d a b n ↔
      fTag w = t ∧ fOp w = op ∧ hdrOf w = h ∧ fD w = d ∧ fA w = a ∧ fB w = b ∧ fCount w = n := by
  constructor
  · rintro rfl
    simp (disch := decide) only [packM, hdrOf, fTag, fOp, fWait, fPost, fD, fA, fB, fCount,
      BitVec.extractLsb'_append_eq_of_le,
      BitVec.extractLsb'_append_eq_of_add_le, BitVec.extractLsb'_eq_self, Nat.reduceSub, and_self]
  · rintro ⟨rfl, rfl, rfl, rfl, rfl, rfl, rfl⟩
    unfold packM hdrOf
    unfold fTag fOp fWait fPost fD fA fB fCount
    repeat rw [BitVec.extractLsb'_append_extractLsb'_eq_extractLsb' (by rfl)]
    exact BitVec.extractLsb'_eq_self.symm

theorem eq_packB_iff {w : IWord} {op : BitVec 6} {h : Hdr} {c : BitVec 4} {r : BitVec 8} {off : BitVec 19} :
    w = packB op h c r off ↔
      fTag w = 0 ∧ fOp w = op ∧ hdrOf w = h ∧ fCond w = c ∧ fReg w = r ∧ fOff w = off := by
  constructor
  · rintro rfl
    simp (disch := decide) only [packB, hdrOf, fTag, fOp, fWait, fPost, fCond, fReg, fOff,
      BitVec.extractLsb'_append_eq_of_le,
      BitVec.extractLsb'_append_eq_of_add_le, BitVec.extractLsb'_eq_self, Nat.reduceSub, and_self]
  · rintro ⟨ht, rfl, rfl, rfl, rfl, rfl⟩
    unfold packB hdrOf
    rw [← ht]
    unfold fTag fOp fWait fPost fCond fReg fOff
    repeat rw [BitVec.extractLsb'_append_extractLsb'_eq_extractLsb' (by rfl)]
    exact BitVec.extractLsb'_eq_self.symm

theorem eq_packG_iff {w : IWord} {t : BitVec 3} {op : BitVec 6} {h : Hdr} {d : BitVec 8} {n : BitVec 12} {m : BitVec 11} :
    w = packG t op h d n m ↔
      fTag w = t ∧ fOp w = op ∧ hdrOf w = h ∧ fD w = d ∧ fTensor w = n ∧ fGMod w = m := by
  constructor
  · rintro rfl
    simp (disch := decide) only [packG, hdrOf, fTag, fOp, fWait, fPost, fD, fTensor, fGMod,
      BitVec.extractLsb'_append_eq_of_le,
      BitVec.extractLsb'_append_eq_of_add_le, BitVec.extractLsb'_eq_self, Nat.reduceSub, and_self]
  · rintro ⟨rfl, rfl, rfl, rfl, rfl, rfl⟩
    unfold packG hdrOf
    unfold fTag fOp fWait fPost fD fTensor fGMod
    repeat rw [BitVec.extractLsb'_append_extractLsb'_eq_extractLsb' (by rfl)]
    exact BitVec.extractLsb'_eq_self.symm

end Sys2Proof
end

section
namespace Sys2Proof

/-! ## Bits of a field -/

/-- A field that is two fields side by side. -/
theorem eq_append_iff {m n : Nat} {x : BitVec (m + n)} {y : BitVec m} {z : BitVec n} :
    x = y ++ z ↔ x.extractLsb' n m = y ∧ x.extractLsb' 0 n = z := by
  constructor
  · rintro rfl
    exact ⟨BitVec.extractLsb'_append_eq_left, BitVec.extractLsb'_append_eq_right⟩
  · rintro ⟨rfl, rfl⟩
    rw [BitVec.extractLsb'_append_extractLsb'_eq_extractLsb' (Nat.zero_add n).symm, BitVec.extractLsb'_eq_self]

/-- A bit of a field, as a field of one bit. -/
theorem ofBool_getLsbD {n : Nat} (x : BitVec n) (k : Nat) : BitVec.ofBool (x.getLsbD k) = x.extractLsb' k 1 := by
  ext i hi
  simp [BitVec.getElem_extractLsb', show i = 0 by omega]

theorem bit_iff {n k : Nat} {x : BitVec n} {b : Bool} : x.extractLsb' k 1 = BitVec.ofBool b ↔ x.getLsbD k = b := by
  rw [← ofBool_getLsbD, BitVec.ofBool_eq_iff_eq]

/-- A field of a field. -/
theorem extract_extract {n k l j m : Nat} {x : BitVec n} (h : j + m ≤ l) :
    (x.extractLsb' k l).extractLsb' j m = x.extractLsb' (k + j) m := by
  ext i hi
  simp only [BitVec.getElem_extractLsb', BitVec.getLsbD_extractLsb', show j + i < l by omega, decide_true, Bool.true_and,
    Nat.add_assoc]

/-! ## Fields with their checks: a field holds what the encoder writes there exactly where the parser reads that and the
field's checks pass (R40, R42, R49) -/

@[simp] theorem req_eq_nil {n : Nat} {ok : Bool} : req n ok = [] ↔ ok = true := by
  cases ok <;> simp [req]

theorem zero_iff {n : Nat} {b : BitVec n} : b = 0 ↔ zero3 b = [] := by simp [zero3]

/-- A field below bits that must be zero. -/
theorem padded_iff {m n : Nat} {x : BitVec (m + n)} {y : BitVec n} :
    x = 0#m ++ y ↔ x.extractLsb' 0 n = y ∧ zero3 (x.extractLsb' n m) = [] := by
  rw [eq_append_iff, and_comm, ← zero_iff]; rfl

theorem nameIn_code (n : Name) : nameIn n.code = n ∧ badName n.code = [] := by
  have h : Name.ofCode n.code = some n := by
    cases n with
    | x n => revert n; decide
    | v n => revert n; decide
    | a n => revert n; decide
    | p n => revert n; decide
    | q n => revert n; decide
    | k n => revert n; decide
    | sp r => cases r <;> rfl
  simp [nameIn, badName, h]

theorem code_nameIn {b : BitVec 8} (h : badName b = []) : b = (nameIn b).code := by revert b; decide

theorem code_iff {b : BitVec 8} {n : Name} : b = n.code ↔ nameIn b = n ∧ badName b = [] := by
  constructor
  · rintro rfl; exact nameIn_code n
  · rintro ⟨rfl, h⟩; exact code_nameIn h

theorem bit_ne_one_iff : ∀ b : BitVec 1, ¬ b = 1#1 ↔ b = 0#1 := by decide

theorem noTe_iff {w : IWord} : teOf w = noTeBits ↔ noTe w = [] := by
  simp [noTe, noTeA, noTeB, teOf, noTeBits, bit_ne_one_iff]

theorem noTeB_iff {w : IWord} {t : Bool} : teOf w = ⟨t, false⟩ ↔ (teOf w).a = t ∧ noTeB w = [] := by
  simp [noTeB, teOf, bit_ne_one_iff]

theorem scope_code_iff {b : BitVec 3} {s : Scope} : b = s.code ↔ scopeIn b = s ∧ badScope b = [] := by
  constructor
  · rintro rfl; cases s <;> exact ⟨rfl, rfl⟩
  · rintro ⟨rfl, h⟩; revert b; decide

theorem scope_iff {w : IWord} {s : Scope} : fB w = scopeByte s ↔ scopeB w = s ∧ scopeWord w = [] := by
  rw [scopeByte, padded_iff (m := 5) (n := 3), scope_code_iff, scopeWord, List.append_eq_nil_iff, scopeB, and_assoc,
    and_comm (a := badScope _ = [])]

theorem low_zero_iff {w : IWord} : fD w = 0 ∧ fImm23 w = 0 ↔ zero3 (fLow w) = [] := by
  have hd : (fLow w).extractLsb' 23 8 = fD w := extract_extract (by decide)
  have hm : (fLow w).extractLsb' 0 23 = fImm23 w := extract_extract (by decide)
  rw [← zero_iff, ← hd, ← hm]
  exact (eq_append_iff (m := 8) (n := 23) (y := 0) (z := 0)).symm

/-! ## The mod fields of the words (R38, R44, R69, R169) -/

section
variable {m : BitVec 5} {b0 b1 b2 b3 b4 : Bool}

theorem mod_flag_iff : m = m5 false false false false b0 ↔ m.getLsbD 0 = b0 ∧ zero3 (m.extractLsb' 1 4) = [] := by
  revert m b0; decide

theorem mod_load_iff {z : BitVec 2} : m = mMem b3 b2 z ↔
    m.extractLsb' 0 2 = z ∧ m.getLsbD 3 = b3 ∧ m.getLsbD 2 = b2 ∧ zero3 (m.extractLsb' 4 1) = [] := by
  constructor
  · rintro rfl; revert b3 b2 z; decide
  · rintro ⟨rfl, rfl, rfl, h⟩; revert m; decide

theorem mod_store_iff {z : BitVec 2} : m = mMem false b2 z ↔
    m.extractLsb' 0 2 = z ∧ m.getLsbD 2 = b2 ∧ zero3 (m.extractLsb' 3 2) = [] := by
  constructor
  · rintro rfl; revert b2 z; decide
  · rintro ⟨rfl, rfl, h⟩; revert m; decide

theorem mod_arith_iff {r : Rnd} : m = mRnd b4 false b2 r ↔
    m.getLsbD 4 = b4 ∧ m.getLsbD 2 = b2 ∧ Rnd.ofCode (m.extractLsb' 0 2) = r ∧ zero3 (m.extractLsb' 3 1) = [] := by
  constructor
  · rintro rfl; cases r <;> revert b4 b2 <;> decide
  · rintro ⟨rfl, rfl, rfl, h⟩; revert m; decide

theorem mod_rounded_iff {r : Rnd} : m = mRnd false false b2 r ↔
    m.getLsbD 2 = b2 ∧ Rnd.ofCode (m.extractLsb' 0 2) = r ∧ zero3 (m.extractLsb' 3 2) = [] := by
  constructor
  · rintro rfl; cases r <;> revert b2 <;> decide
  · rintro ⟨rfl, rfl, h⟩; revert m; decide

theorem mod_rounding_iff {r : Rnd} : m = mRnd false false false r ↔
    Rnd.ofCode (m.extractLsb' 0 2) = r ∧ zero3 (m.extractLsb' 2 3) = [] := by
  constructor
  · rintro rfl; cases r <;> decide
  · rintro ⟨rfl, h⟩; revert m; decide

theorem mod_minmax_iff : m = m5 b4 b3 false false false ↔
    m.getLsbD 4 = b4 ∧ m.getLsbD 3 = b3 ∧ zero3 (m.extractLsb' 0 3) = [] := by
  revert m b4 b3; decide

theorem mod_scalar_iff : m = m5 b4 false false false false ↔ m.getLsbD 4 = b4 ∧ zero3 (m.extractLsb' 0 4) = [] := by
  revert m b4; decide

theorem mod_compare_iff {o : CmpOp} : m = BitVec.ofBool b4 ++ o.code ++ BitVec.ofBool b0 ↔
    m.getLsbD 4 = b4 ∧ CmpOp.ofCode (m.extractLsb' 1 3) = o ∧ m.getLsbD 0 = b0 ∧ req 8 (m.extractLsb' 1 3 ≠ 7) = [] := by
  constructor
  · rintro rfl; cases o <;> revert b4 b0 <;> decide
  · rintro ⟨rfl, rfl, rfl, h⟩; revert m; decide

theorem mod_lookup_iff : m = m5 false false b2 false b0 ↔
    m.getLsbD 2 = b2 ∧ m.getLsbD 0 = b0 ∧ zero3 (m.extractLsb' 3 2) = [] ∧ zero3 (m.extractLsb' 1 1) = [] := by
  revert m b2 b0; decide

theorem mod_scan_iff {o : RedOp} : m = mOp o.code b1 b0 ↔
    RedOp.ofCode (m.extractLsb' 2 3) = o ∧ m.getLsbD 1 = b1 ∧ m.getLsbD 0 = b0 ∧ req 8 (m.extractLsb' 2 3 ≠ 7) = [] := by
  constructor
  · rintro rfl; cases o <;> revert b1 b0 <;> decide
  · rintro ⟨rfl, rfl, rfl, h⟩; revert m; decide

theorem mod_reduce_iff {o : RedOp} : m = mOp o.code b1 false ↔ RedOp.ofCode (m.extractLsb' 2 3) = o ∧ m.getLsbD 1 = b1 ∧
    req 8 (m.extractLsb' 2 3 ≠ 7) = [] ∧ zero3 (m.extractLsb' 0 1) = [] := by
  constructor
  · rintro rfl; cases o <;> revert b1 <;> decide
  · rintro ⟨rfl, rfl, h, h'⟩; revert m; decide

theorem mod_curve_iff {o : SfcMode} : m = o.code ++ 0#3 ↔
    SfcMode.ofCode (m.extractLsb' 3 2) = o ∧ zero3 (m.extractLsb' 0 3) = [] := by
  constructor
  · rintro rfl; cases o <;> decide
  · rintro ⟨rfl, h⟩; revert m; decide

theorem mod_drain_iff {f : BitVec 3} : m = mOp f b1 b0 ↔ m.extractLsb' 2 3 = f ∧ m.getLsbD 1 = b1 ∧ m.getLsbD 0 = b0 := by
  constructor
  · rintro rfl; revert f b1 b0; decide
  · rintro ⟨rfl, rfl, rfl⟩; revert m; decide

theorem mod_status_iff {z : BitVec 3} : m = 0#1 ++ BitVec.ofBool b3 ++ z ↔
    m.getLsbD 3 = b3 ∧ m.extractLsb' 0 3 = z ∧ zero3 (m.extractLsb' 4 1) = [] := by
  constructor
  · rintro rfl; revert b3 z; decide
  · rintro ⟨rfl, rfl, h⟩; revert m; decide

/-- .U has its bit in AMIN and AMAX only (R44). -/
def unsignedBit : AtomOp → Bool → Bool
  | .min, u | .max, u => u
  | _, _ => false

theorem mod_atomic_iff {o : AtomOp} : m = mOp o.code b1 (unsignedBit o b0) ↔ AtomOp.ofCode (m.extractLsb' 2 3) = o ∧
    m.getLsbD 1 = b1 ∧ m.getLsbD 0 = unsignedBit o b0 ∧ req 8 (m.extractLsb' 2 3 ≠ 7) = [] ∧
    req 3 (m.extractLsb' 2 3 = 1 || m.extractLsb' 2 3 = 2 || !m.getLsbD 0) = [] := by
  constructor
  · rintro rfl; cases o <;> revert b1 b0 <;> decide
  · rintro ⟨rfl, rfl, h, h8, h3⟩; rw [← h]; clear h; revert m; decide

/-- A word of an atomic that passes has its .U bit where its operator has one. -/
theorem unsignedBit_checked (h8 : req 8 (m.extractLsb' 2 3 ≠ 7) = [])
    (h3 : req 3 (m.extractLsb' 2 3 = 1 || m.extractLsb' 2 3 = 2 || !m.getLsbD 0) = []) :
    m.getLsbD 0 = unsignedBit (AtomOp.ofCode (m.extractLsb' 2 3)) (m.getLsbD 0) := by
  revert m; decide

theorem mod_map_run_iff : m = 0 ↔ m.extractLsb' 0 2 = 0 ∧ zero3 (m.extractLsb' 2 3) = [] := by revert m; decide
theorem mod_map_stop_iff : m = 1 ↔ m.extractLsb' 0 2 = 1 ∧ zero3 (m.extractLsb' 2 3) = [] := by revert m; decide
theorem mod_map_iff : m = 2 ↔ m.extractLsb' 0 2 ≠ 0 ∧ m.extractLsb' 0 2 ≠ 1 ∧ zero3 (m.extractLsb' 2 3) = [] ∧
    req 8 (m.extractLsb' 0 2 ≠ 3) = [] := by revert m; decide
theorem mod_clear_iff : m = 0 ↔ m.getLsbD 0 ≠ true ∧ zero3 (m.extractLsb' 1 4) = [] := by revert m; decide
theorem mod_set_iff : m = 1 ↔ m.getLsbD 0 = true ∧ zero3 (m.extractLsb' 1 4) = [] := by revert m; decide
theorem mod_vstat_iff : m = m5 false false false b1 true ↔
    m.getLsbD 0 = true ∧ m.getLsbD 1 = b1 ∧ zero3 (m.extractLsb' 2 3) = [] := by revert m b1; decide

end

/-! ## The other fields that hold parts (R134, R235, R276, R371) -/

theorem relBits_iff {r : Bool} {sc : BitVec 3} {o : Option Scope} :
    BitVec.ofBool r ++ sc = relBits o ↔ relIn r sc = o ∧ badRel r sc = [] := by
  constructor
  · cases o with
    | none => revert r sc; decide
    | some s => cases s <;> revert r sc <;> decide
  · rintro ⟨rfl, h⟩; revert r sc; decide

/-- REL and its scope in the galley words (R235). -/
theorem gmod_release_iff {m : BitVec 11} {r : Option Scope} : m = relBits r ++ 0#7 ↔
    relIn (m.getLsbD 10) (m.extractLsb' 7 3) = r ∧ badRel (m.getLsbD 10) (m.extractLsb' 7 3) = [] ∧
      zero3 (m.extractLsb' 0 7) = [] := by
  rw [eq_append_iff (m := 4) (n := 7), ← and_assoc, ← relBits_iff, ofBool_getLsbD, ← zero_iff,
    BitVec.extractLsb'_append_extractLsb'_eq_extractLsb' (by rfl)]
  rfl

/-- REL and its scope in FPUT (R371). -/
theorem gmod_put_iff {m : BitVec 11} {r : Option Scope} {n : BitVec 4} : m = 0#3 ++ relBits r ++ n ↔
    relIn (m.getLsbD 7) (m.extractLsb' 4 3) = r ∧ m.extractLsb' 0 4 = n ∧ badRel (m.getLsbD 7) (m.extractLsb' 4 3) = [] ∧
      zero3 (m.extractLsb' 8 3) = [] := by
  rw [eq_append_iff (m := 7) (n := 4), padded_iff (m := 3) (n := 4), extract_extract (by decide),
    extract_extract (by decide),
    show m.extractLsb' (4 + 0) 4 = BitVec.ofBool (m.getLsbD 7) ++ m.extractLsb' 4 3 by
      rw [ofBool_getLsbD, BitVec.extractLsb'_append_extractLsb'_eq_extractLsb' (by rfl)], relBits_iff]
  tauto

theorem gmod_pair_iff {m : BitVec 11} {g n : BitVec 4} : m = 0#3 ++ g ++ n ↔
    m.extractLsb' 4 4 = g ∧ m.extractLsb' 0 4 = n ∧ zero3 (m.extractLsb' 8 3) = [] := by
  rw [eq_append_iff (m := 7) (n := 4), padded_iff (m := 3) (n := 4), extract_extract (by decide),
    extract_extract (by decide)]
  tauto

theorem gmod_operand_iff {m : BitVec 11} {k : BitVec 2} {b : Bool} : m = 0#8 ++ k ++ BitVec.ofBool b ↔
    m.getLsbD 0 = b ∧ m.extractLsb' 1 2 = k ∧ zero3 (m.extractLsb' 3 8) = [] := by
  rw [eq_append_iff (m := 10) (n := 1), padded_iff (m := 8) (n := 2), extract_extract (by decide),
    extract_extract (by decide),
    bit_iff]
  tauto

theorem imm_formats_iff {m : BitVec 15} {s z : Bool} {c : BitVec 3} :
    m = 0#10 ++ BitVec.ofBool s ++ c ++ BitVec.ofBool z ↔
      m.getLsbD 0 = z ∧ m.extractLsb' 1 3 = c ∧ m.getLsbD 4 = s ∧ zero3 (m.extractLsb' 5 10) = [] := by
  rw [eq_append_iff (m := 14) (n := 1), eq_append_iff (m := 11) (n := 3), padded_iff (m := 10) (n := 1)]
  simp (disch := decide) only [extract_extract, bit_iff, Nat.reduceAdd]
  tauto

theorem imm_flag_iff {m : BitVec 15} {b : Bool} : m = 0#14 ++ BitVec.ofBool b ↔
    m.getLsbD 0 = b ∧ zero3 (m.extractLsb' 1 14) = [] := by
  rw [padded_iff (m := 14) (n := 1), bit_iff]

theorem dest_flags_iff {d : BitVec 8} {r b : Bool} : d = 0#6 ++ BitVec.ofBool r ++ BitVec.ofBool b ↔
    d.getLsbD 1 = r ∧ d.getLsbD 0 = b ∧ zero3 (d.extractLsb' 2 6) = [] := by
  rw [eq_append_iff (m := 7) (n := 1), padded_iff (m := 6) (n := 1)]
  simp (disch := decide) only [extract_extract, bit_iff, Nat.reduceAdd]
  tauto

section
variable {w : IWord}

/-- The amount of a rotation or broadcast (R183). -/
theorem amount_iff {n : Amount} : fB w = n.byte ∧ (fMod w).getLsbD 4 = n.isReg ↔ amountIn w = n ∧
    (if (fMod w).getLsbD 4 then badName (fB w) else req 8 ((fB w).extractLsb' 6 2 = 0)) = [] := by
  unfold amountIn
  cases hx : (fMod w).getLsbD 4 with
  | true => cases n with
    | reg r => simp [Amount.byte, Amount.isReg, code_iff]
    | val v => simp [Amount.isReg]
  | false => cases n with
    | reg r => simp [Amount.isReg]
    | val v =>
      rw [Amount.byte, padded_iff (m := 2) (n := 6)]
      simp [Amount.isReg, zero3]

/-- A counter or group in the low half of a byte (R377, R381). -/
theorem high_iff {b : BitVec 8} {n : BitVec 4} : b = 0#4 ++ n ↔
    b.extractLsb' 0 4 = n ∧ req 8 (b.extractLsb' 4 4 = 0) = [] := by
  rw [padded_iff (m := 4) (n := 4), zero3, req_eq_nil, req_eq_nil]

/-- The scale view of an MDRAIN, as a byte (R153). -/
def scaleByte : Option (BitVec 6) → BitVec 8
  | none => 0
  | some n => (Name.v n).code

theorem code_of_nameIn : ∀ b : BitVec 8, nameIn b ≠ .x 0 → b = (nameIn b).code := by decide

theorem scaleByte_iff {v : Option (BitVec 6)} : fB w = scaleByte v ↔ (drainScale w).1 = v ∧ (drainScale w).2 = [] := by
  unfold drainScale
  have hc := code_of_nameIn (fB w)
  constructor
  · intro h
    cases v with
    | none => rw [if_pos (by exact h)]; exact ⟨rfl, rfl⟩
    | some n =>
      have hv : ∀ n : BitVec 6, (Name.v n).code ≠ 0 := by decide
      rw [if_neg (by rw [h]; exact hv n), ((code_iff (n := .v n)).1 h).1]
      exact ⟨rfl, rfl⟩
  · by_cases hz : fB w = 0
    · rw [if_pos hz]; rintro ⟨rfl, -⟩; exact hz
    · rw [if_neg hz]
      cases hn : nameIn (fB w) with
      | v k => rintro ⟨rfl, -⟩; rw [hn] at hc; exact hc (by simp)
      | _ => simp [Kind.check, Kind.accepts, Name.isQueue, Kind.isDst, Name.isSpecial]

theorem mopdBad_ne_nil (refuse : Bool) (nb : BitVec 8) : mopdBad refuse nb ≠ [] := by
  unfold mopdBad
  split
  · cases refuse <;> simp
  · simp

/-- A register named by an MOPD (R133). -/
theorem named_source_iff {n : Name} : fTensor w = 0#4 ++ n.code ↔ (nameIn ((fTensor w).extractLsb' 0 8) = n ∧
    badName ((fTensor w).extractLsb' 0 8) = []) ∧ zero3 ((fTensor w).extractLsb' 8 4) = [] := by
  rw [padded_iff (m := 4) (n := 8), code_iff]

theorem source_iff {s : MSrc} : fTensor w = s.tensorField ∧ (fGMod w).extractLsb' 1 2 = s.kind ↔
    (mopdSource w).1 = s ∧ (mopdSource w).2 = [] := by
  constructor
  · rintro ⟨hf, hk⟩
    unfold mopdSource
    dsimp only
    rw [hk]
    cases s with
    | tensor t => exact ⟨congrArg MSrc.tensor hf, rfl⟩
    | view n => obtain ⟨⟨hn, -⟩, hz⟩ := named_source_iff (n := .v n).1 hf; rw [hn]; exact ⟨rfl, hz⟩
    | port n => obtain ⟨⟨hn, -⟩, hz⟩ := named_source_iff (n := .p n).1 hf; rw [hn]; exact ⟨rfl, hz⟩
    | acc n => obtain ⟨⟨hn, -⟩, hz⟩ := named_source_iff (n := .a n).1 hf; rw [hn]; exact ⟨rfl, hz⟩
  · rintro ⟨rfl, h⟩
    have hk : ∀ k : BitVec 2, k ≠ 0 → k ≠ 1 → k ≠ 2 → k = 3 := by decide
    have hc := code_of_nameIn ((fTensor w).extractLsb' 0 8)
    have hz : ∀ n, zero3 ((fTensor w).extractLsb' 8 4) = [] → (fTensor w).extractLsb' 0 8 = n →
        fTensor w = 0#4 ++ n := fun n h0 h1 => (padded_iff (m := 4) (n := 8)).2 ⟨h1, h0⟩
    unfold mopdSource at h ⊢
    dsimp only at h ⊢
    by_cases h0 : (fGMod w).extractLsb' 1 2 = 0
    · rw [if_pos h0]; exact ⟨rfl, h0⟩
    rw [if_neg h0] at h ⊢
    by_cases h1 : (fGMod w).extractLsb' 1 2 = 1
    · rw [if_pos h1] at h ⊢
      cases hn : nameIn ((fTensor w).extractLsb' 0 8) with
      | v k => rw [hn] at hc h; exact ⟨hz _ h (hc (by simp)), h1⟩
      | _ => simp [hn, mopdBad_ne_nil] at h
    rw [if_neg h1] at h ⊢
    by_cases h2 : (fGMod w).extractLsb' 1 2 = 2
    · rw [if_pos h2] at h ⊢
      cases hn : nameIn ((fTensor w).extractLsb' 0 8) with
      | p k => rw [hn] at hc h; exact ⟨hz _ h (hc (by simp)), h2⟩
      | _ => simp [hn, mopdBad_ne_nil] at h
    rw [if_neg h2] at h ⊢
    cases hn : nameIn ((fTensor w).extractLsb' 0 8) with
    | a k => rw [hn] at hc h; exact ⟨hz _ h (hc (by simp)), hk _ h0 h1 h2⟩
    | _ => simp [hn, mopdBad_ne_nil] at h

end

end Sys2Proof
end

section
namespace Sys2Proof

/-! ## The parts of a list of failing checks -/

theorem nil_pair {l k : List Nat} (h : l ++ k = []) : l = [] ∧ k = [] := List.append_eq_nil_iff.1 h

theorem nil_triple {l k j : List Nat} (h : l ++ k ++ j = []) : l = [] ∧ k = [] ∧ j = [] := by
  simpa only [List.append_eq_nil_iff, and_assoc] using h

theorem nil_quadruple {l k j i : List Nat} (h : l ++ k ++ j ++ i = []) : l = [] ∧ k = [] ∧ j = [] ∧ i = [] := by
  simpa only [List.append_eq_nil_iff, and_assoc] using h

/-! ## A word is the encoding of an instruction that packs its fields (R36, R38) -/

section
variable {w : IWord} {i : Instr} {t : BitVec 3} {op : BitVec 6} {d a b : BitVec 8}

theorem encode_packR {te : Te} {m : BitVec 5} (ht : fTag w = t) (ho : fOp w = op)
    (he : encode i = some (packR t op (hdrOf w) d a b te m)) (hd : fD w = d) (ha : fA w = a) (hb : fB w = b)
    (hte : teOf w = te)
    (hm : fMod w = m) : encode i = some w :=
  he.trans (congrArg some (eq_packR_iff.2 ⟨ht, ho, rfl, hd, ha, hb, hte, hm⟩).symm)

theorem encode_packI {imm : BitVec 15} (ht : fTag w = t) (ho : fOp w = op)
    (he : encode i = some (packI t op (hdrOf w) d a imm)) (hd : fD w = d) (ha : fA w = a) (hm : fImm15 w = imm) :
    encode i = some w :=
  he.trans (congrArg some (eq_packI_iff.2 ⟨ht, ho, rfl, hd, ha, hm⟩).symm)

theorem encode_packL {imm : BitVec 23} (ht : fTag w = t) (ho : fOp w = op)
    (he : encode i = some (packL t op (hdrOf w) d imm)) (hd : fD w = d) (hm : fImm23 w = imm) : encode i = some w :=
  he.trans (congrArg some (eq_packL_iff.2 ⟨ht, ho, rfl, hd, hm⟩).symm)

theorem encode_packM {n : BitVec 7} (ht : fTag w = t) (ho : fOp w = op)
    (he : encode i = some (packM t op (hdrOf w) d a b n)) (hd : fD w = d) (ha : fA w = a) (hb : fB w = b)
    (hn : fCount w = n) :
    encode i = some w :=
  he.trans (congrArg some (eq_packM_iff.2 ⟨ht, ho, rfl, hd, ha, hb, hn⟩).symm)

theorem encode_packB {c : BitVec 4} {r : BitVec 8} {off : BitVec 19} (ht : fTag w = 0) (ho : fOp w = op)
    (he : encode i = some (packB op (hdrOf w) c r off)) (hc : fCond w = c) (hr : fReg w = r) (hf : fOff w = off) :
    encode i = some w :=
  he.trans (congrArg some (eq_packB_iff.2 ⟨ht, ho, rfl, hc, hr, hf⟩).symm)

theorem encode_packG {n : BitVec 12} {m : BitVec 11} (ht : fTag w = t) (ho : fOp w = op)
    (he : encode i = some (packG t op (hdrOf w) d n m)) (hd : fD w = d) (hn : fTensor w = n) (hm : fGMod w = m) :
    encode i = some w :=
  he.trans (congrArg some (eq_packG_iff.2 ⟨ht, ho, rfl, hd, hn, hm⟩).symm)

/-- A word of format R each of whose five fields has its own check. -/
theorem encode_checked {te : Te} {m : BitVec 5} {ld la lb lt lm : List Nat} (ht : fTag w = t) (ho : fOp w = op)
    (hn : ld ++ la ++ lb ++ lt ++ lm = []) (he : encode i = some (packR t op (hdrOf w) d a b te m)) (hd : ld = [] → fD w = d)
    (ha : la = [] → fA w = a) (hb : lb = [] → fB w = b) (hte : lt = [] → teOf w = te) (hm : lm = [] → fMod w = m) :
    encode i = some w := by
  simp only [List.append_eq_nil_iff, and_assoc] at hn
  obtain ⟨h1, h2, h3, h4, h5⟩ := hn
  exact encode_packR ht ho he (hd h1) (ha h2) (hb h3) (hte h4) (hm h5)

/-- One row of a table of opcodes: the row's own word, or the rows below it. -/
theorem encode_of_row {j : Instr} {bad : List Nat} {rest : Parsed} {k : Instr}
    (h : (if fOp w = op then some (j, bad) else rest) = some (k, []))
    (hrow : fOp w = op → bad = [] → encode j = some w)
    (hrest : rest = some (k, []) → encode k = some w) : encode k = some w := by
  by_cases ho : fOp w = op
  · rw [if_pos ho] at h
    obtain ⟨rfl, hb⟩ := Prod.mk.inj (Option.some.inj h)
    exact hrow ho hb
  · rw [if_neg ho] at h
    exact hrest h

/-- As `encode_of_row`, of a row that holds several words. -/
theorem encode_of_rows {row rest : Parsed} {k : Instr} (h : (if fOp w = op then row else rest) = some (k, []))
    (hrow : fOp w = op → row = some (k, []) → encode k = some w) (hrest : rest = some (k, []) → encode k = some w) :
    encode k = some w := by
  by_cases ho : fOp w = op
  · exact hrow ho (by rwa [if_pos ho] at h)
  · exact hrest (by rwa [if_neg ho] at h)

theorem encode_bare (ht : fTag w = t) (ho : fOp w = op) (hz : zero3 (fLow w) = [])
    (he : encode i = some (packL t op (hdrOf w) 0 0)) : encode i = some w :=
  encode_packL ht ho he (low_zero_iff.2 hz).1 (low_zero_iff.2 hz).2

theorem fReg_eq_code {c : BitVec 4} (h : (if c = 0 then zero3 (fReg w) else badName (fReg w)) = []) :
    fReg w = (nameIn (fReg w)).code := by
  split at h
  · rw [zero_iff.2 h]; rfl
  · exact code_nameIn h

/-! ## The tables of opcodes, tag by tag (R43 to R47): each row's word is the encoding of what it decodes to -/

theorem encode_of_parseA (ht : fTag w = 6) (h : parseA (fOp w) (hdrOf w) w = some (i, [])) : encode i = some w := by
  unfold parseA at h
  iterate 3 refine encode_of_row h (fun ho hz => encode_bare ht ho hz rfl) fun h => ?_
  cases h

theorem encode_of_parseRep (ho : fOp w = 0x3F) (h : parseRep (hdrOf w) w = some (i, [])) : encode i = some w := by
  obtain ⟨rfl, -⟩ := Prod.mk.inj (Option.some.inj h)
  exact encode_packI rfl ho rfl rfl rfl rfl

/-- A galley word (R235). -/
theorem encode_galley (ht : fTag w = t) (ho : fOp w = op)
    (hb : badName (fD w) ++ badRel ((fGMod w).getLsbD 10) ((fGMod w).extractLsb' 7 3)
      ++ zero3 ((fGMod w).extractLsb' 0 7) = [])
    (he : encode i = some (packG t op (hdrOf w) (nameIn (fD w)).code (fTensor w)
      (relBits (relIn ((fGMod w).getLsbD 10) ((fGMod w).extractLsb' 7 3)) ++ 0#7))) : encode i = some w := by
  obtain ⟨hd, hr, hz⟩ := nil_triple hb
  exact encode_packG ht ho he (code_nameIn hd) rfl (gmod_release_iff.2 ⟨rfl, hr, hz⟩)

/-- A word of format G with mod all zero. -/
theorem encode_card (ht : fTag w = t) (ho : fOp w = op) (hb : badName (fD w) ++ zero3 (fGMod w) = [])
    (he : encode i = some (packG t op (hdrOf w) (nameIn (fD w)).code (fTensor w) 0)) : encode i = some w := by
  obtain ⟨hd, hz⟩ := nil_pair hb
  exact encode_packG ht ho he (code_nameIn hd) rfl (zero_iff.2 hz)

theorem encode_of_parseX (ht : fTag w = 3) (h : parseX (fOp w) (hdrOf w) w = some (i, [])) : encode i = some w := by
  unfold parseX at h
  iterate 5 refine encode_of_row h (fun ho hb => encode_galley ht ho hb rfl) fun h => ?_
  refine encode_of_row h (fun ho hb => encode_card ht ho hb rfl) fun h => ?_
  refine encode_of_row h (fun ho hz => encode_bare ht ho hz rfl) fun h => ?_
  refine encode_of_row h (fun ho hb =>
    encode_checked ht ho hb rfl code_nameIn zero_iff.2 zero_iff.2 noTe_iff.2 (mod_flag_iff.2 ⟨rfl, ·⟩)) fun h => ?_
  cases h

/-- A word of three registers (R38). -/
theorem encode_registers {m : BitVec 5} {lm : List Nat} (ht : fTag w = t) (ho : fOp w = op)
    (hb : badDAB w ++ noTe w ++ lm = [])
    (he : encode i = some (packR t op (hdrOf w) (nameIn (fD w)).code (nameIn (fA w)).code (nameIn (fB w)).code noTeBits m))
    (hm : lm = [] → fMod w = m) : encode i = some w :=
  encode_checked ht ho hb he code_nameIn code_nameIn code_nameIn noTe_iff.2 hm

/-- A word of two registers, its b field zero. -/
theorem encode_pair {m : BitVec 5} {lm : List Nat} (ht : fTag w = t) (ho : fOp w = op)
    (hb : badDA w ++ zero3 (fB w) ++ noTe w ++ lm = [])
    (he : encode i = some (packR t op (hdrOf w) (nameIn (fD w)).code (nameIn (fA w)).code 0 noTeBits m))
    (hm : lm = [] → fMod w = m) : encode i = some w :=
  encode_checked ht ho hb he code_nameIn code_nameIn zero_iff.2 noTe_iff.2 hm

/-- The atomic of an operator (R44). -/
def atomicInstr (h : Hdr) (o : AtomOp) (z u : Bool) (d a b : Name) : Instr :=
  match o with
  | .add => .aadd h z d a b
  | .min => .amin h z u d a b
  | .max => .amax h z u d a b
  | .and => .aand h z d a b
  | .or => .aor h z d a b
  | .xchg => .axchg h z d a b
  | .cas => .acas h z d a b

theorem encode_atomic (h : Hdr) (o : AtomOp) (z u : Bool) (d a b : Name) : encode (atomicInstr h o z u d a b) =
    some (packR 0 0x2C h d.code a.code b.code noTeBits (mOp o.code z (unsignedBit o u))) := by
  cases o <;> rfl

theorem encode_fatom (h : Hdr) (o : AtomOp) (z u : Bool) (d a b : Name) : encode (.fatom h o z u d a b) =
    some (packR 5 0x01 h d.code a.code b.code noTeBits (mOp o.code z (unsignedBit o u))) := by
  cases o <;> rfl

theorem encode_of_parseC (ht : fTag w = 0) (h : parseC (fOp w) (hdrOf w) w = some (i, [])) : encode i = some w := by
  unfold parseC at h
  -- NOP and HALT; LI and LIU; TRAP, SEMI, SLIPW and VIEW
  iterate 2 refine encode_of_row h (fun ho hb => encode_bare ht ho hb rfl) fun h => ?_
  iterate 2 refine encode_of_row h (fun ho hb => encode_packL ht ho rfl (code_nameIn hb) rfl) fun h => ?_
  refine encode_of_row h (fun ho hb => encode_packL ht ho rfl (zero_iff.2 hb) rfl) fun h => ?_
  refine encode_of_row h (fun ho hb => ?_) fun h => ?_
  · obtain ⟨ha, hm⟩ := nil_pair hb
    exact encode_packI ht ho rfl rfl (zero_iff.2 ha) ((padded_iff (m := 7) (n := 8)).2 ⟨rfl, hm⟩)
  refine encode_of_row h (fun ho hb => ?_) fun h => ?_
  · obtain ⟨hd, ha, hm⟩ := nil_triple hb
    exact encode_packI ht ho rfl (zero_iff.2 hd) (zero_iff.2 ha) ((padded_iff (m := 2) (n := 13)).2 ⟨rfl, hm⟩)
  refine encode_of_row h (fun ho hb => ?_) fun h => ?_
  · obtain ⟨hd, ha, hm⟩ := nil_triple hb
    exact encode_packI ht ho rfl (code_nameIn hd) (code_nameIn ha) ((padded_iff (m := 7) (n := 8)).2 ⟨rfl, hm⟩)
  -- ADD to POPC
  iterate 3 refine encode_of_row h (fun ho hb => encode_registers ht ho hb rfl zero_iff.2) fun h => ?_
  refine encode_of_row h (fun ho hb => encode_registers ht ho hb rfl (mod_flag_iff.2 ⟨rfl, ·⟩)) fun h => ?_
  iterate 6 refine encode_of_row h (fun ho hb => encode_registers ht ho hb rfl zero_iff.2) fun h => ?_
  iterate 2 refine encode_of_row h (fun ho hb => encode_registers ht ho hb rfl (mod_flag_iff.2 ⟨rfl, ·⟩)) fun h => ?_
  iterate 3 refine encode_of_row h (fun ho hb => encode_registers ht ho hb rfl zero_iff.2) fun h => ?_
  iterate 2 refine encode_of_row h (fun ho hb => encode_pair ht ho hb rfl zero_iff.2) fun h => ?_
  -- ADDI, ANDI and ORI; BR, CALL, RET and LOOP
  iterate 3 refine encode_of_row h (fun ho hb =>
    encode_packI ht ho rfl (code_nameIn (nil_pair hb).1) (code_nameIn (nil_pair hb).2) rfl) fun h => ?_
  iterate 2 refine encode_of_row h (fun ho hb => encode_packB ht ho rfl rfl (fReg_eq_code hb) rfl) fun h => ?_
  refine encode_of_row h (fun ho hb =>
    encode_packB ht ho rfl rfl (fReg_eq_code (nil_pair hb).1) (zero_iff.2 (nil_pair hb).2)) fun h => ?_
  refine encode_of_row h (fun ho hb => encode_packB ht ho rfl rfl (fReg_eq_code hb) rfl) fun h => ?_
  -- LD, ST, LDA and STL; MARK and FENCE; SPL and FIL; TDEF and TRD
  refine encode_of_row h (fun ho hb => encode_registers ht ho hb rfl (mod_load_iff.2 ⟨rfl, rfl, rfl, ·⟩)) fun h => ?_
  refine encode_of_row h (fun ho hb => encode_registers ht ho hb rfl (mod_store_iff.2 ⟨rfl, rfl, ·⟩)) fun h => ?_
  refine encode_of_row h (fun ho hb =>
    encode_checked ht ho hb rfl code_nameIn code_nameIn (scope_iff.2 ⟨rfl, ·⟩) noTe_iff.2
      (mod_load_iff.2 ⟨rfl, rfl, rfl, ·⟩)) fun h => ?_
  refine encode_of_row h (fun ho hb =>
    encode_checked ht ho hb rfl code_nameIn code_nameIn (scope_iff.2 ⟨rfl, ·⟩) noTe_iff.2
      (mod_store_iff.2 ⟨rfl, rfl, ·⟩)) fun h => ?_
  refine encode_of_row h (fun ho hb => encode_bare ht ho hb rfl) fun h => ?_
  refine encode_of_row h (fun ho hb =>
    encode_checked ht ho hb rfl zero_iff.2 zero_iff.2 (scope_iff.2 ⟨rfl, ·⟩) noTe_iff.2 zero_iff.2) fun h => ?_
  iterate 2 refine encode_of_row h (fun ho hb => encode_packI ht ho rfl (code_nameIn hb) rfl rfl) fun h => ?_
  refine encode_of_row h (fun ho hb => encode_card ht ho hb rfl) fun h => ?_
  refine encode_of_row h (fun ho hb =>
    encode_packG ht ho rfl (code_nameIn (nil_pair hb).1) rfl ((padded_iff (m := 6) (n := 5)).2 ⟨rfl, (nil_pair hb).2⟩))
      fun h => ?_
  -- LAUNCH and WAITL; the atomics; TKTAKE, TKWAIT and TKNEXT
  refine encode_of_row h (fun ho hb => encode_registers ht ho hb rfl ((padded_iff (m := 1) (n := 4)).2 ⟨rfl, ·⟩)) fun h => ?_
  refine encode_of_row h (fun ho hb => encode_pair ht ho hb rfl zero_iff.2) fun h => ?_
  refine encode_of_row h (fun ho hb => ?_) fun h => ?_
  · obtain ⟨hn, hte, h8, h3⟩ := nil_quadruple hb
    obtain ⟨hd, ha, hb⟩ := nil_triple hn
    exact encode_packR ht ho (encode_atomic ..) (code_nameIn hd) (code_nameIn ha) (code_nameIn hb) (noTe_iff.2 hte)
      (mod_atomic_iff.2 ⟨rfl, rfl, unsignedBit_checked h8 h3, h8, h3⟩)
  refine encode_of_row h (fun ho hb => ?_) fun h => ?_
  · obtain ⟨hd, hb, hte, hm⟩ := nil_quadruple hb
    exact encode_packR ht ho rfl (code_nameIn hd) rfl (zero_iff.2 hb) (noTe_iff.2 hte) (zero_iff.2 hm)
  refine encode_of_row h (fun ho hb => ?_) fun h => ?_
  · obtain ⟨ha, hb, hte, hm⟩ := nil_quadruple hb
    exact encode_packR ht ho rfl rfl (code_nameIn ha) (scope_iff.2 ⟨rfl, hb⟩) (noTe_iff.2 hte) (zero_iff.2 hm)
  refine encode_of_row h (fun ho hb => ?_) fun h => ?_
  · obtain ⟨ha, hb, hte, hm⟩ := nil_quadruple hb
    exact encode_packR ht ho rfl rfl (zero_iff.2 ha) (scope_iff.2 ⟨rfl, hb⟩) (noTe_iff.2 hte) (zero_iff.2 hm)
  -- GENADV; the three forms of PSET; FRZ to POLSET
  refine encode_of_row h (fun ho hb => encode_pair ht ho hb rfl zero_iff.2) fun h => ?_
  refine encode_of_rows h (fun ho h => ?_) fun h => ?_
  · dsimp only at h
    split at h
    · next h0 =>
      obtain ⟨rfl, hb⟩ := Prod.mk.inj (Option.some.inj h)
      exact encode_pair ht ho hb rfl (mod_map_run_iff.2 ⟨h0, ·⟩)
    · next h0 =>
      split at h
      · next h1 =>
        obtain ⟨rfl, hb⟩ := Prod.mk.inj (Option.some.inj h)
        exact encode_registers ht ho hb rfl (mod_map_stop_iff.2 ⟨h1, ·⟩)
      · next h1 =>
        obtain ⟨rfl, hb⟩ := Prod.mk.inj (Option.some.inj h)
        obtain ⟨hn, h8⟩ := nil_pair hb
        exact encode_registers ht ho hn rfl (mod_map_iff.2 ⟨h0, h1, ·, h8⟩)
  iterate 3 refine encode_of_row h (fun ho hb => encode_registers ht ho hb rfl zero_iff.2) fun h => ?_
  refine encode_of_row h (fun ho hb => encode_registers ht ho hb rfl (mod_flag_iff.2 ⟨rfl, ·⟩)) fun h => ?_
  refine encode_of_row h (fun ho hb =>
    encode_checked ht ho hb rfl code_nameIn zero_iff.2 zero_iff.2 noTe_iff.2 zero_iff.2) fun h => ?_
  refine encode_of_row h (fun ho hb => encode_registers ht ho hb rfl zero_iff.2) fun h => ?_
  cases h

/-- A word of tag V whose operands may have their TE bits (R23): three registers and mod. -/
theorem encode_views {m : BitVec 5} {lm : List Nat} (ht : fTag w = t) (ho : fOp w = op) (hb : badDAB w ++ lm = [])
    (he : encode i = some (packR t op (hdrOf w) (nameIn (fD w)).code (nameIn (fA w)).code (nameIn (fB w)).code (teOf w) m))
    (hm : lm = [] → fMod w = m) : encode i = some w := by
  obtain ⟨hn, hl⟩ := nil_pair hb
  obtain ⟨hd, ha, hb⟩ := nil_triple hn
  exact encode_packR ht ho he (code_nameIn hd) (code_nameIn ha) (code_nameIn hb) rfl (hm hl)

/-- A word of a destination and one view, which may have its TE bit. -/
theorem encode_view {m : BitVec 5} {lm : List Nat} (ht : fTag w = t) (ho : fOp w = op)
    (hb : badDA w ++ zero3 (fB w) ++ noTeB w ++ lm = [])
    (he : encode i = some (packR t op (hdrOf w) (nameIn (fD w)).code (nameIn (fA w)).code 0 ⟨(teOf w).a, false⟩ m))
    (hm : lm = [] → fMod w = m) : encode i = some w :=
  encode_checked ht ho hb he code_nameIn code_nameIn zero_iff.2 (noTeB_iff.2 ⟨rfl, ·⟩) hm

theorem encode_reduction {m : BitVec 5} {l k : List Nat} (ht : fTag w = t) (ho : fOp w = op)
    (hb : badDA w ++ zero3 (fB w) ++ noTeB w ++ l ++ k = [])
    (he : encode i = some (packR t op (hdrOf w) (nameIn (fD w)).code (nameIn (fA w)).code 0 ⟨(teOf w).a, false⟩ m))
    (hm : l = [] → k = [] → fMod w = m) : encode i = some w :=
  encode_view ht ho (nil_pair hb).1 he (fun hl => hm hl (nil_pair hb).2)

/-- A rotation or broadcast (R183). -/
theorem encode_rotation (ht : fTag w = t) (ho : fOp w = op) (hb : badDA w
      ++ (if (fMod w).getLsbD 4 then badName (fB w) else req 8 ((fB w).extractLsb' 6 2 = 0)) ++ noTeB w
      ++ zero3 ((fMod w).extractLsb' 0 4) = [])
    (he : encode i = some (packR t op (hdrOf w) (nameIn (fD w)).code (nameIn (fA w)).code (amountIn w).byte
      ⟨(teOf w).a, false⟩ (m5 (amountIn w).isReg false false false false))) : encode i = some w := by
  obtain ⟨hn, hk, hte, hz⟩ := nil_quadruple hb
  obtain ⟨hd, ha⟩ := nil_pair hn
  obtain ⟨hb, hr⟩ := amount_iff.2 ⟨rfl, hk⟩
  exact encode_packR ht ho he (code_nameIn hd) (code_nameIn ha) hb (noTeB_iff.2 ⟨rfl, hte⟩) (mod_scalar_iff.2 ⟨hr, hz⟩)

theorem encode_of_parseV (ht : fTag w = 1) (h : parseV (fOp w) (hdrOf w) w = some (i, [])) : encode i = some w := by
  unfold parseV at h
  -- VADD to VFMA; VMIN and VMAX; VABS and VNEG; VAND to VSAR; VCMP; VSEL
  iterate 4 refine encode_of_row h (fun ho hb => encode_views ht ho hb rfl (mod_arith_iff.2 ⟨rfl, rfl, rfl, ·⟩)) fun h => ?_
  iterate 2 refine encode_of_row h (fun ho hb => encode_views ht ho hb rfl (mod_minmax_iff.2 ⟨rfl, rfl, ·⟩)) fun h => ?_
  iterate 2 refine encode_of_row h (fun ho hb => encode_view ht ho hb rfl (mod_rounded_iff.2 ⟨rfl, rfl, ·⟩)) fun h => ?_
  iterate 6 refine encode_of_row h (fun ho hb => encode_views ht ho hb rfl (mod_scalar_iff.2 ⟨rfl, ·⟩)) fun h => ?_
  refine encode_of_row h (fun ho hb => encode_views ht ho hb rfl (mod_compare_iff.2 ⟨rfl, rfl, rfl, ·⟩)) fun h => ?_
  refine encode_of_row h (fun ho hb => encode_views ht ho hb rfl zero_iff.2) fun h => ?_
  -- VCVT to VRSQ; VRND; VLUT; VACC
  iterate 5 refine encode_of_row h (fun ho hb => encode_view ht ho hb rfl (mod_rounded_iff.2 ⟨rfl, rfl, ·⟩)) fun h => ?_
  refine encode_of_row h (fun ho hb => encode_view ht ho hb rfl (mod_rounding_iff.2 ⟨rfl, ·⟩)) fun h => ?_
  refine encode_of_row h (fun ho hb => ?_) fun h => ?_
  · obtain ⟨hn, hte, h3, h1⟩ := nil_quadruple hb
    obtain ⟨hd, ha, hb⟩ := nil_triple hn
    exact encode_packR ht ho rfl (code_nameIn hd) (code_nameIn ha) (code_nameIn hb) (noTeB_iff.2 ⟨rfl, hte⟩)
      (mod_lookup_iff.2 ⟨rfl, rfl, h3, h1⟩)
  refine encode_of_row h (fun ho hb => encode_view ht ho hb rfl zero_iff.2) fun h => ?_
  -- VROTR to VBCC; VREDR and VREDC; VSCANR; VCOMP; VLD and VST; VMOV; VSPLAT
  iterate 4 refine encode_of_row h (fun ho hb => encode_rotation ht ho hb rfl) fun h => ?_
  iterate 2 refine encode_of_row h (fun ho hb =>
    encode_reduction ht ho hb rfl (fun h h' => mod_reduce_iff.2 ⟨rfl, rfl, h, h'⟩)) fun h => ?_
  refine encode_of_row h (fun ho hb => encode_view ht ho hb rfl (mod_scan_iff.2 ⟨rfl, rfl, rfl, ·⟩)) fun h => ?_
  refine encode_of_row h (fun ho hb => encode_views ht ho hb rfl zero_iff.2) fun h => ?_
  iterate 2 refine encode_of_row h (fun ho hb =>
    encode_packM ht ho rfl (code_nameIn (nil_pair hb).1) (code_nameIn (nil_pair hb).2) rfl rfl) fun h => ?_
  refine encode_of_row h (fun ho hb => encode_view ht ho hb rfl zero_iff.2) fun h => ?_
  refine encode_of_row h (fun ho hb => encode_pair ht ho hb rfl zero_iff.2) fun h => ?_
  -- VGETS and VGETS.ST; VIOTA; VSFC
  refine encode_of_rows h (fun ho h => ?_) fun h => ?_
  · split at h
    · next hst =>
      obtain ⟨rfl, hb⟩ := Prod.mk.inj (Option.some.inj h)
      exact encode_checked ht ho hb rfl code_nameIn zero_iff.2 zero_iff.2 noTe_iff.2 (mod_vstat_iff.2 ⟨hst, rfl, ·⟩)
    · next hst =>
      obtain ⟨rfl, hb⟩ := Prod.mk.inj (Option.some.inj h)
      exact encode_checked ht ho hb rfl code_nameIn code_nameIn code_nameIn (noTeB_iff.2 ⟨rfl, ·⟩) (mod_clear_iff.2 ⟨hst, ·⟩)
  refine encode_of_row h (fun ho hb => encode_pair ht ho hb rfl (mod_flag_iff.2 ⟨rfl, ·⟩)) fun h => ?_
  refine encode_of_row h (fun ho hb => encode_views ht ho hb rfl (mod_curve_iff.2 ⟨rfl, ·⟩)) fun h => ?_
  cases h

theorem encode_of_parseM (ht : fTag w = 2) (h : parseM (fOp w) (hdrOf w) w = some (i, [])) : encode i = some w := by
  unfold parseM at h
  -- MNEST, MOPD, MFMT, MDST, MGO and MINIT
  refine encode_of_row h (fun ho hb => ?_) fun h => ?_
  · obtain ⟨ha, hb, hte, hm⟩ := nil_quadruple hb
    exact encode_packR ht ho rfl rfl (code_nameIn ha) (code_nameIn hb) (noTe_iff.2 hte) (zero_iff.2 hm)
  refine encode_of_row h (fun ho hb => ?_) fun h => ?_
  · obtain ⟨hd, hs, hm⟩ := nil_triple hb
    obtain ⟨hf, hk⟩ := source_iff.2 ⟨rfl, hs⟩
    exact encode_packG ht ho rfl (code_nameIn hd) hf (gmod_operand_iff.2 ⟨rfl, hk, hm⟩)
  refine encode_of_row h (fun ho hb => encode_packI ht ho rfl rfl rfl (imm_formats_iff.2 ⟨rfl, rfl, rfl, hb⟩)) fun h => ?_
  refine encode_of_row h (fun ho hb =>
    encode_checked ht ho hb rfl code_nameIn zero_iff.2 zero_iff.2 noTe_iff.2 zero_iff.2) fun h => ?_
  refine encode_of_row h (fun ho hb => ?_) fun h => ?_
  · obtain ⟨hd, ha, hm⟩ := nil_triple hb
    exact encode_packI ht ho rfl (zero_iff.2 hd) (zero_iff.2 ha) (imm_flag_iff.2 ⟨rfl, hm⟩)
  refine encode_of_row h (fun ho hb =>
    encode_packI ht ho rfl (code_nameIn (nil_pair hb).1) (zero_iff.2 (nil_pair hb).2) rfl) fun h => ?_
  -- MZERO and MNORM; MDRAIN; MSTAT; MERRQ; MCBLD; MOCINV; MRSUM
  iterate 2 refine encode_of_row h (fun ho hb =>
    encode_checked ht ho hb rfl code_nameIn zero_iff.2 zero_iff.2 noTe_iff.2 zero_iff.2) fun h => ?_
  refine encode_of_row h (fun ho hb => ?_) fun h => ?_
  · obtain ⟨hd, ha, hs⟩ := nil_triple hb
    exact encode_packR ht ho rfl (code_nameIn hd) (code_nameIn ha) (scaleByte_iff.2 ⟨rfl, hs⟩) rfl
      (mod_drain_iff.2 ⟨rfl, rfl, rfl⟩)
  refine encode_of_row h (fun ho hb => ?_) fun h => ?_
  · obtain ⟨hn, hb, hte⟩ := nil_triple hb
    obtain ⟨hd, ha⟩ := nil_pair hn
    exact encode_packR ht ho rfl (code_nameIn hd) (code_nameIn ha) (zero_iff.2 hb) (noTe_iff.2 hte) rfl
  refine encode_of_row h (fun ho hb =>
    encode_checked ht ho hb rfl code_nameIn zero_iff.2 zero_iff.2 noTe_iff.2 (mod_flag_iff.2 ⟨rfl, ·⟩)) fun h => ?_
  refine encode_of_row h (fun ho hb => encode_pair ht ho hb rfl zero_iff.2) fun h => ?_
  refine encode_of_row h (fun ho hb => encode_bare ht ho hb rfl) fun h => ?_
  refine encode_of_row h (fun ho hb => encode_pair ht ho hb rfl (mod_rounded_iff.2 ⟨rfl, rfl, ·⟩)) fun h => ?_
  cases h

theorem encode_of_parseG (ht : fTag w = 4) (h : parseG (fOp w) (hdrOf w) w = some (i, [])) : encode i = some w := by
  unfold parseG at h
  -- GLOAD and GBIAS; GCOLR; GBETA; GMODE; GSEED; GCLMP; GFREE; GSWP
  iterate 2 refine encode_of_row h (fun ho hb => encode_card ht ho hb rfl) fun h => ?_
  refine encode_of_row h (fun ho hb => ?_) fun h => ?_
  · obtain ⟨ha, hb, hte, hm⟩ := nil_quadruple hb
    exact encode_packR ht ho rfl rfl (code_nameIn ha) (code_nameIn hb) (noTeB_iff.2 ⟨rfl, hte⟩) (zero_iff.2 hm)
  refine encode_of_row h (fun ho hb =>
    encode_checked ht ho hb rfl zero_iff.2 code_nameIn zero_iff.2 noTe_iff.2 zero_iff.2) fun h => ?_
  refine encode_of_row h (fun ho hb =>
    encode_packI ht ho rfl (dest_flags_iff.2 ⟨rfl, rfl, (nil_pair hb).1⟩) (zero_iff.2 (nil_pair hb).2) rfl) fun h => ?_
  refine encode_of_row h (fun ho hb =>
    encode_checked ht ho hb rfl zero_iff.2 code_nameIn zero_iff.2 noTe_iff.2 zero_iff.2) fun h => ?_
  refine encode_of_row h (fun ho hb => ?_) fun h => ?_
  · obtain ⟨hd, ha, hb, hm⟩ := nil_quadruple hb
    exact encode_packR ht ho rfl (zero_iff.2 hd) (code_nameIn ha) (code_nameIn hb) rfl (zero_iff.2 hm)
  refine encode_of_row h (fun ho hb =>
    encode_checked ht ho hb rfl zero_iff.2 code_nameIn zero_iff.2 (noTeB_iff.2 ⟨rfl, ·⟩) zero_iff.2) fun h => ?_
  refine encode_of_row h (fun ho hb =>
    encode_packI ht ho rfl (zero_iff.2 (nil_pair hb).1) (zero_iff.2 (nil_pair hb).2) rfl) fun h => ?_
  -- GRDS; GCNTC; GRDC and GRDF; GXCH; GSTAT
  refine encode_of_row h (fun ho hb =>
    encode_checked ht ho hb rfl code_nameIn zero_iff.2 zero_iff.2 noTe_iff.2 zero_iff.2) fun h => ?_
  refine encode_of_row h (fun ho hb => encode_bare ht ho hb rfl) fun h => ?_
  iterate 2 refine encode_of_row h (fun ho hb => encode_pair ht ho hb rfl zero_iff.2) fun h => ?_
  refine encode_of_row h (fun ho hb => ?_) fun h => ?_
  · obtain ⟨hd, hn, hm⟩ := nil_triple hb
    exact encode_packG ht ho rfl (code_nameIn hd) (zero_iff.2 hn) (zero_iff.2 hm)
  refine encode_of_row h (fun ho hb =>
    encode_checked ht ho hb rfl code_nameIn zero_iff.2 zero_iff.2 noTe_iff.2 (mod_status_iff.2 ⟨rfl, rfl, ·⟩))
      fun h => ?_
  cases h

theorem encode_of_parseF (ht : fTag w = 5) (h : parseF (fOp w) (hdrOf w) w = some (i, [])) : encode i = some w := by
  unfold parseF at h
  -- FPUT, FATOM, FPULL, FFENCE, FCNT, FBAR and FGRP
  refine encode_of_row h (fun ho hb => ?_) fun h => ?_
  · obtain ⟨hd, hr, hm⟩ := nil_triple hb
    exact encode_packG ht ho rfl (code_nameIn hd) rfl (gmod_put_iff.2 ⟨rfl, rfl, hr, hm⟩)
  refine encode_of_row h (fun ho hb => ?_) fun h => ?_
  · obtain ⟨hn, hte, h8, h3⟩ := nil_quadruple hb
    obtain ⟨hd, ha, hb⟩ := nil_triple hn
    exact encode_packR ht ho (encode_fatom ..) (code_nameIn hd) (code_nameIn ha) (code_nameIn hb) (noTe_iff.2 hte)
      (mod_atomic_iff.2 ⟨rfl, rfl, unsignedBit_checked h8 h3, h8, h3⟩)
  refine encode_of_row h (fun ho hb => ?_) fun h => ?_
  · obtain ⟨hd, hn, hm⟩ := nil_triple hb
    exact encode_packG ht ho rfl (code_nameIn hd) (zero_iff.2 hn) ((padded_iff (m := 7) (n := 4)).2 ⟨rfl, hm⟩)
  refine encode_of_row h (fun ho hb =>
    encode_checked ht ho hb rfl zero_iff.2 zero_iff.2 (scope_iff.2 ⟨rfl, ·⟩) noTe_iff.2 zero_iff.2) fun h => ?_
  refine encode_of_row h (fun ho hb =>
    encode_checked ht ho hb rfl code_nameIn (high_iff.2 ⟨rfl, ·⟩) zero_iff.2 noTe_iff.2 (mod_flag_iff.2 ⟨rfl, ·⟩))
      fun h => ?_
  refine encode_of_row h (fun ho hb =>
    encode_checked ht ho hb rfl (high_iff.2 ⟨rfl, ·⟩) zero_iff.2 (scope_iff.2 ⟨rfl, ·⟩) noTe_iff.2 zero_iff.2)
      fun h => ?_
  refine encode_of_row h (fun ho hb => ?_) fun h => ?_
  · obtain ⟨hd, hn, hm⟩ := nil_triple hb
    exact encode_packG ht ho rfl (code_nameIn hd) ((padded_iff (m := 8) (n := 4)).2 ⟨rfl, hn⟩) (zero_iff.2 hm)
  -- FRED, FBCST, FA2A and RPART; FSTAT; FROUT; FPLOW and FLNK
  iterate 4 refine encode_of_row h (fun ho hb =>
    encode_packG ht ho rfl (code_nameIn (nil_pair hb).1) rfl (gmod_pair_iff.2 ⟨rfl, rfl, (nil_pair hb).2⟩)) fun h => ?_
  refine encode_of_row h (fun ho hb =>
    encode_checked ht ho hb rfl code_nameIn zero_iff.2 zero_iff.2 noTe_iff.2
      ((padded_iff (m := 2) (n := 3)).2 ⟨rfl, ·⟩)) fun h => ?_
  refine encode_of_rows h (fun ho h => ?_) fun h => ?_
  · split at h
    · next hld =>
      obtain ⟨rfl, hb⟩ := Prod.mk.inj (Option.some.inj h)
      exact encode_registers ht ho hb rfl (mod_set_iff.2 ⟨hld, ·⟩)
    · next hld =>
      obtain ⟨rfl, hb⟩ := Prod.mk.inj (Option.some.inj h)
      exact encode_pair ht ho hb rfl (mod_clear_iff.2 ⟨hld, ·⟩)
  iterate 2 refine encode_of_row h (fun ho hb => encode_registers ht ho hb rfl zero_iff.2) fun h => ?_
  cases h

/-- The table of a tag (R43 to R47). -/
def tagTable (t : BitVec 3) : BitVec 6 → Hdr → IWord → Parsed :=
  if t = 0 then parseC else if t = 1 then parseV else if t = 2 then parseM else if t = 3 then parseX
  else if t = 4 then parseG else if t = 5 then parseF else if t = 6 then parseA else fun _ _ _ => none

theorem tag_cases : ∀ t : BitVec 3, t = 0 ∨ t = 1 ∨ t = 2 ∨ t = 3 ∨ t = 4 ∨ t = 5 ∨ t = 6 ∨ t = 7 := by decide

/-- A word that is no REP is looked up in the table of its tag. -/
theorem parse_eq_tagTable (ho : fOp w ≠ 0x3F) : parse w = tagTable (fTag w) (fOp w) (hdrOf w) w := by
  unfold parse
  dsimp only
  rw [if_neg ho]
  rcases tag_cases (fTag w) with ht | ht | ht | ht | ht | ht | ht | ht <;> (rw [ht]; rfl)

/-- Every word whose checks pass is the encoding of its instruction. -/
theorem encode_of_parse (h : parse w = some (i, [])) : encode i = some w := by
  by_cases ho : fOp w = 0x3F
  · unfold parse at h
    dsimp only at h
    split at h
    · cases h
    · exact encode_of_parseRep ho h
  rw [parse_eq_tagTable ho] at h
  rcases tag_cases (fTag w) with ht | ht | ht | ht | ht | ht | ht | ht <;> rw [ht] at h
  · exact encode_of_parseC ht h
  · exact encode_of_parseV ht h
  · exact encode_of_parseM ht h
  · exact encode_of_parseX ht h
  · exact encode_of_parseG ht h
  · exact encode_of_parseF ht h
  · exact encode_of_parseA ht h
  · cases h

end
end Sys2Proof
end

section
namespace Sys2Proof

section
variable {w : IWord} {i : Instr}

/-- A word whose row of the tables reads an instruction and finds no failing check. -/
theorem parse_of_row {t : BitVec 3} {op : BitVec 6} {h : Hdr} {j : Instr} {bad : List Nat} (ht : fTag w = t)
    (ho : fOp w = op)
    (hh : hdrOf w = h) (hne : op ≠ 0x3F) (hrow : tagTable t op h w = some (j, bad)) (hj : j = i ∧ bad = []) :
    parse w = some (i, []) := by
  rw [parse_eq_tagTable (ho ▸ hne), ht, ho, hh, hrow, hj.1, hj.2]

section
variable {t : BitVec 3} {op : BitVec 6} {h : Hdr} {d a b : BitVec 8} {j : Instr} {bad : List Nat}

/-! A word of each format is read from its fields: its row has only to read the instruction from them and to pass them. -/

theorem parse_packR {te : Te} {m : BitVec 5} (he : some (packR t op h d a b te m) = some w) (hne : op ≠ 0x3F)
    (hrow : tagTable t op h w = some (j, bad))
    (hf : fD w = d ∧ fA w = a ∧ fB w = b ∧ teOf w = te ∧ fMod w = m → j = i ∧ bad = []) :
    parse w = some (i, []) := by
  obtain ⟨ht, ho, hh, hw⟩ := eq_packR_iff.1 (Option.some.inj he).symm
  exact parse_of_row ht ho hh hne hrow (hf hw)

theorem parse_packI {imm : BitVec 15} (he : some (packI t op h d a imm) = some w) (hne : op ≠ 0x3F)
    (hrow : tagTable t op h w = some (j, bad)) (hf : fD w = d ∧ fA w = a ∧ fImm15 w = imm → j = i ∧ bad = []) :
    parse w = some (i, []) := by
  obtain ⟨ht, ho, hh, hw⟩ := eq_packI_iff.1 (Option.some.inj he).symm
  exact parse_of_row ht ho hh hne hrow (hf hw)

theorem parse_packL {imm : BitVec 23} (he : some (packL t op h d imm) = some w) (hne : op ≠ 0x3F)
    (hrow : tagTable t op h w = some (j, bad)) (hf : fD w = d ∧ fImm23 w = imm → j = i ∧ bad = []) :
    parse w = some (i, []) := by
  obtain ⟨ht, ho, hh, hw⟩ := eq_packL_iff.1 (Option.some.inj he).symm
  exact parse_of_row ht ho hh hne hrow (hf hw)

theorem parse_packM {n : BitVec 7} (he : some (packM t op h d a b n) = some w) (hne : op ≠ 0x3F)
    (hrow : tagTable t op h w = some (j, bad)) (hf : fD w = d ∧ fA w = a ∧ fB w = b ∧ fCount w = n → j = i ∧ bad = []) :
    parse w = some (i, []) := by
  obtain ⟨ht, ho, hh, hw⟩ := eq_packM_iff.1 (Option.some.inj he).symm
  exact parse_of_row ht ho hh hne hrow (hf hw)

theorem parse_packB {c : BitVec 4} {r : BitVec 8} {off : BitVec 19} (he : some (packB op h c r off) = some w)
    (hne : op ≠ 0x3F)
    (hrow : tagTable 0 op h w = some (j, bad)) (hf : fCond w = c ∧ fReg w = r ∧ fOff w = off → j = i ∧ bad = []) :
    parse w = some (i, []) := by
  obtain ⟨ht, ho, hh, hw⟩ := eq_packB_iff.1 (Option.some.inj he).symm
  exact parse_of_row ht ho hh hne hrow (hf hw)

theorem parse_packG {n : BitVec 12} {m : BitVec 11} (he : some (packG t op h d n m) = some w) (hne : op ≠ 0x3F)
    (hrow : tagTable t op h w = some (j, bad)) (hf : fD w = d ∧ fTensor w = n ∧ fGMod w = m → j = i ∧ bad = []) :
    parse w = some (i, []) := by
  obtain ⟨ht, ho, hh, hw⟩ := eq_packG_iff.1 (Option.some.inj he).symm
  exact parse_of_row ht ho hh hne hrow (hf hw)

end

theorem extract_padded {m n : Nat} (y : BitVec n) : (0#m ++ y).extractLsb' 0 n = y := BitVec.extractLsb'_append_eq_right

theorem zero3_padded {m n : Nat} (y : BitVec n) : zero3 ((0#m ++ y).extractLsb' n m) = [] :=
  zero_iff.1 BitVec.extractLsb'_append_eq_left

/-- The register of a branch whose condition names none is x0 (R41). -/
theorem branch_register {cond : BitVec 4} {r : Name} {l : List Nat}
    (hk : (if cond = 0 then req 3 (r = .x 0) else l) = []) (hr : nameIn (fReg w) = r ∧ badName (fReg w) = []) :
    (if cond = 0 then zero3 (fReg w) else badName (fReg w)) = [] := by
  by_cases h0 : cond = 0
  · rw [if_pos h0] at hk ⊢
    have hx : r = .x 0 := by simpa using hk
    rw [code_iff.2 hr, hx]; rfl
  · rw [if_neg h0]; exact hr.2

theorem zero3_zero {n : Nat} : zero3 (0 : BitVec n) = [] := zero_iff.1 rfl

theorem unsignedBit_canonical {h : Hdr} {o : AtomOp} {z u : Bool} {d a b : Name}
    (hc : (Instr.fatom h o z u d a b).canonical = true) : unsignedBit o u = u := by
  cases u with
  | true => cases o with
    | min | max => rfl
    | add | and | or | xchg | cas => cases hc
  | false => cases o <;> rfl

theorem atomicInstr_unsignedBit (h : Hdr) (o : AtomOp) (z u : Bool) (d a b : Name) :
    atomicInstr h o z (unsignedBit o u) d a b = atomicInstr h o z u d a b := by
  cases o <;> rfl

theorem parse_atomic (h : Hdr) (o : AtomOp) (z u : Bool) (d a b : Name)
    (he : some (packR 0 0x2C h d.code a.code b.code noTeBits (mOp o.code z (unsignedBit o u))) = some w) :
    parse w = some (atomicInstr h o z u d a b, []) :=
  parse_packR (bad := badDAB w ++ noTe w ++ req 8 ((fMod w).extractLsb' 2 3 ≠ 7)
      ++ req 3 ((fMod w).extractLsb' 2 3 = 1 || (fMod w).extractLsb' 2 3 = 2 || !(fMod w).getLsbD 0))
    (j := atomicInstr h (AtomOp.ofCode ((fMod w).extractLsb' 2 3)) ((fMod w).getLsbD 1) ((fMod w).getLsbD 0)
      (nameIn (fD w)) (nameIn (fA w)) (nameIn (fB w))) he (by decide) rfl (by
    rintro ⟨hd, ha, hb, hte, hm⟩
    rw [code_iff] at hd ha hb
    obtain ⟨ho, hz, hu, h8, h3⟩ := mod_atomic_iff.1 hm
    refine ⟨?_, by rw [h8, h3, badDAB, hd.2, ha.2, hb.2, noTe_iff.1 hte]; rfl⟩
    rw [ho, hz, hu, hd.1, ha.1, hb.1, atomicInstr_unsignedBit])

theorem parse_of_encode {c : DCtx} (he : encode i = some w) (hc : i.canonical = true)
    (hk : i.check c = []) : parse w = some (i, []) := by
  cases i
  case nop | halt | mark | fork | rdv | ssb | mocinv | xfence | gcntc =>
    exact parse_packL he (by decide) rfl fun hf => ⟨rfl, low_zero_iff.1 hf⟩
  case li | liu | trap =>
    exact parse_packL he (by decide) rfl (by simp +contextual only [code_iff, zero_iff, and_self, implies_true])
  case semi | slipw | view =>
    exact parse_packI he (by decide) rfl
      (by simp +contextual only [badDA, List.append_nil, code_iff, zero_iff, extract_padded, zero3_padded, and_self,
        implies_true])
  case addi | andi | ori | spl | fil | minit | gswp =>
    exact parse_packI he (by decide) rfl
      (by simp +contextual only [badDA, List.append_nil, code_iff, zero_iff, and_self, implies_true])
  case mfmt | mgo | gmode =>
    exact parse_packI he (by decide) rfl
      (by simp +contextual only [List.append_nil, zero_iff, imm_formats_iff, imm_flag_iff, dest_flags_iff, and_self,
        implies_true])
  case br | call | ret | loop =>
    refine parse_packB he (by decide) rfl fun ⟨hc, hr, hf⟩ => ?_
    rw [code_iff] at hr
    have hr0 := branch_register (List.append_eq_nil_iff.1 hk).1 hr
    rw [← hc] at hr0
    exact ⟨by simp only [hc, hr, hf], by simp only [hr0, hf, zero3_zero, List.append_nil]⟩
  case vld | vst =>
    exact parse_packM he (by decide) rfl
      (by simp +contextual only [badDA, List.append_nil, code_iff, and_self, implies_true])
  case tdef | xpref | gload | gbias | gxch | trd | fpull | fgrp =>
    exact parse_packG he (by decide) rfl
      (by simp +contextual only [List.append_nil, code_iff, zero_iff, extract_padded, zero3_padded, and_self,
        implies_true])
  case xcopy | xcopyv | xgath | xscat | xfill | fput =>
    exact parse_packG he (by decide) rfl
      (by simp +contextual only [List.append_nil, code_iff, gmod_release_iff, gmod_put_iff, and_self, implies_true])
  case fred | fbcst | fa2a | rpart =>
    exact parse_packG he (by decide) rfl
      (by simp +contextual only [List.append_nil, code_iff, gmod_pair_iff, and_self, implies_true])
  case mopd =>
    refine parse_packG he (by decide) rfl fun ⟨hd, hn, hm⟩ => ?_
    obtain ⟨hb, hk, hz⟩ := gmod_operand_iff.1 hm
    obtain ⟨hs, hbad⟩ := source_iff.1 ⟨hn, hk⟩
    rw [code_iff] at hd
    simp only [hd, hs, hb, hz, hbad, List.append_nil, and_self]
  case add | sub | mul | and | or | xor | shl | shr | sar | slt | sltu | sel | frz | thaw | keyld | polset | fplow |
    flnkDown | vsel | vcomp | gclmp =>
    exact parse_packR he (by decide) rfl
      (by simp +contextual only [badDAB, List.append_nil, code_iff, zero_iff, noTe_iff, and_self, implies_true])
  case mulh | min | max | keyerase =>
    exact parse_packR he (by decide) rfl
      (by simp +contextual only [badDAB, List.append_nil, code_iff, noTe_iff, mod_flag_iff, and_self, implies_true])
  case clz | popc | waitl | genadv | vsplat | mcbld | grdc | grdf | lapw | mdst | mzero | mnorm | grds | gbeta | gseed |
    tktake | mnest | mstat =>
    exact parse_packR he (by decide) rfl
      (by simp +contextual only [badDA, List.append_nil, code_iff, zero_iff, noTe_iff, and_self, implies_true])
  case viota | merrq | xstat | fcnt =>
    exact parse_packR he (by decide) rfl
      (by simp +contextual only [badDA, List.append_nil, code_iff, zero_iff, noTe_iff, mod_flag_iff, high_iff, and_self,
        implies_true])
  case ld | lda =>
    exact parse_packR he (by decide) rfl
      (by simp +contextual only [badDA, badDAB, List.append_nil, code_iff, noTe_iff, scope_iff, mod_load_iff, and_self,
        implies_true])
  case st | stl =>
    exact parse_packR he (by decide) rfl
      (by simp +contextual only [badDA, badDAB, List.append_nil, code_iff, noTe_iff, scope_iff, mod_store_iff, and_self,
        implies_true])
  case launch =>
    exact parse_packR he (by decide) rfl
      (by simp +contextual only [badDAB, List.append_nil, code_iff, noTe_iff, extract_padded, zero3_padded, and_self,
        implies_true])
  case fence | tkwait | tknext | ffence | fbar =>
    exact parse_packR he (by decide) rfl
      (by simp +contextual only [List.append_nil, code_iff, zero_iff, noTe_iff, scope_iff, high_iff, and_self,
        implies_true])
  case vadd | vsub | vmul | vfma | vcmp | vsfc =>
    exact parse_packR he (by decide) rfl
      (by simp +contextual only [badDAB, List.append_nil, code_iff, mod_arith_iff, mod_compare_iff, mod_curve_iff,
        and_self, implies_true])
  case vmin | vmax =>
    exact parse_packR he (by decide) rfl
      (by simp +contextual only [badDAB, List.append_nil, code_iff, mod_minmax_iff, and_self, implies_true])
  case vand | vor | vxor | vshl | vshr | vsar =>
    exact parse_packR he (by decide) rfl
      (by simp +contextual only [badDAB, List.append_nil, code_iff, mod_scalar_iff, and_self, implies_true])
  case vlut =>
    exact parse_packR he (by decide) rfl
      (by simp +contextual only [badDAB, List.append_nil, code_iff, noTeB_iff, mod_lookup_iff, and_self, implies_true])
  case vabs | vneg | vcvt | vexp2 | vlog2 | vrcp | vrsq =>
    exact parse_packR he (by decide) rfl
      (by simp +contextual only [badDA, List.append_nil, code_iff, zero_iff, noTeB_iff, mod_rounded_iff, and_self,
        implies_true])
  case vrnd =>
    exact parse_packR he (by decide) rfl
      (by simp +contextual only [badDA, List.append_nil, code_iff, zero_iff, noTeB_iff, mod_rounding_iff, and_self,
        implies_true])
  case vmov | vacc | gcolr | gfree =>
    exact parse_packR he (by decide) rfl
      (by simp +contextual only [badDA, List.append_nil, code_iff, zero_iff, noTeB_iff, and_self, implies_true])
  case vredr | vredc =>
    exact parse_packR he (by decide) rfl
      (by simp +contextual only [badDA, List.append_nil, code_iff, zero_iff, noTeB_iff, mod_reduce_iff, and_self,
        implies_true])
  case vscanr =>
    exact parse_packR he (by decide) rfl
      (by simp +contextual only [badDA, List.append_nil, code_iff, zero_iff, noTeB_iff, mod_scan_iff, and_self,
        implies_true])
  case mrsum | gstat | fstat =>
    exact parse_packR he (by decide) rfl
      (by simp +contextual only [badDA, List.append_nil, code_iff, zero_iff, noTe_iff, mod_rounded_iff, mod_status_iff,
        extract_padded, zero3_padded, and_self, implies_true])
  case vrotr | vrotc | vbcr | vbcc =>
    refine parse_packR he (by decide) rfl fun ⟨hd, ha, hb, hte, hm⟩ => ?_
    obtain ⟨hr, hz⟩ := mod_scalar_iff.1 hm
    obtain ⟨hn, hbad⟩ := amount_iff.1 ⟨hb, hr⟩
    rw [code_iff] at hd ha
    rw [noTeB_iff] at hte
    simp only [hd, ha, hte, hn, hz, hbad, badDA, List.append_nil, and_self]
  case mdrain =>
    refine parse_packR he (by decide) rfl fun ⟨hd, ha, hb, hte, hm⟩ => ?_
    rw [code_iff] at hd ha
    simp only [hd, ha, scaleByte_iff.1 hb, hte, mod_drain_iff.1 hm, badDA, List.append_nil, and_self]
  case psetRun =>
    obtain ⟨ht, ho, hh, hd, ha, hb, hte, hm⟩ := eq_packR_iff.1 (Option.some.inj he).symm
    obtain ⟨h0, hz⟩ := mod_map_run_iff.1 hm
    refine parse_of_row ht ho hh (by decide) (if_pos h0) ?_
    simp only [code_iff.1 hd, code_iff.1 ha, zero_iff.1 hb, noTe_iff.1 hte, hz, badDA, List.append_nil, and_self]
  case psetStop =>
    obtain ⟨ht, ho, hh, hd, ha, hb, hte, hm⟩ := eq_packR_iff.1 (Option.some.inj he).symm
    obtain ⟨h1, hz⟩ := mod_map_stop_iff.1 hm
    have h0 : ¬ (fMod w).extractLsb' 0 2 = 0 := by rw [h1]; decide
    refine parse_of_row ht ho hh (by decide) ((if_neg h0).trans (if_pos h1)) ?_
    simp only [code_iff.1 hd, code_iff.1 ha, code_iff.1 hb, noTe_iff.1 hte, hz, badDAB, List.append_nil, and_self]
  case psetMap =>
    obtain ⟨ht, ho, hh, hd, ha, hb, hte, hm⟩ := eq_packR_iff.1 (Option.some.inj he).symm
    obtain ⟨h0, h1, hz, h8⟩ := mod_map_iff.1 hm
    refine parse_of_row ht ho hh (by decide) ((if_neg h0).trans (if_neg h1)) ?_
    simp only [code_iff.1 hd, code_iff.1 ha, code_iff.1 hb, noTe_iff.1 hte, hz, h8, badDAB, List.append_nil, and_self]
  case vgets =>
    obtain ⟨ht, ho, hh, hd, ha, hb, hte, hm⟩ := eq_packR_iff.1 (Option.some.inj he).symm
    obtain ⟨h0, hz⟩ := mod_clear_iff.1 hm
    refine parse_of_row ht ho hh (by decide) (if_neg h0) ?_
    simp only [code_iff.1 hd, code_iff.1 ha, code_iff.1 hb, noTeB_iff.1 hte, hz, badDAB, List.append_nil, and_self]
  case vgetsSt =>
    obtain ⟨ht, ho, hh, hd, ha, hb, hte, hm⟩ := eq_packR_iff.1 (Option.some.inj he).symm
    obtain ⟨h0, h1, hz⟩ := mod_vstat_iff.1 hm
    refine parse_of_row ht ho hh (by decide) (if_pos h0) ?_
    simp only [code_iff.1 hd, zero_iff.1 ha, zero_iff.1 hb, noTe_iff.1 hte, h1, hz, List.append_nil, and_self]
  case frout =>
    obtain ⟨ht, ho, hh, hd, ha, hb, hte, hm⟩ := eq_packR_iff.1 (Option.some.inj he).symm
    obtain ⟨h0, hz⟩ := mod_clear_iff.1 hm
    refine parse_of_row ht ho hh (by decide) (if_neg h0) ?_
    simp only [code_iff.1 hd, code_iff.1 ha, zero_iff.1 hb, noTe_iff.1 hte, hz, badDA, List.append_nil, and_self]
  case froutLd =>
    obtain ⟨ht, ho, hh, hd, ha, hb, hte, hm⟩ := eq_packR_iff.1 (Option.some.inj he).symm
    obtain ⟨h0, hz⟩ := mod_set_iff.1 hm
    refine parse_of_row ht ho hh (by decide) (if_pos h0) ?_
    simp only [code_iff.1 hd, code_iff.1 ha, code_iff.1 hb, noTe_iff.1 hte, hz, badDAB, List.append_nil, and_self]
  case aadd => exact parse_atomic _ .add _ false _ _ _ he
  case amin => exact parse_atomic _ .min _ _ _ _ _ he
  case amax => exact parse_atomic _ .max _ _ _ _ _ he
  case aand => exact parse_atomic _ .and _ false _ _ _ he
  case aor => exact parse_atomic _ .or _ false _ _ _ he
  case axchg => exact parse_atomic _ .xchg _ false _ _ _ he
  case acas => exact parse_atomic _ .cas _ false _ _ _ he
  case fatom h o z u d a b =>
    rw [encode_fatom] at he
    refine parse_packR he (by decide) rfl fun ⟨hd, ha, hb, hte, hm⟩ => ?_
    rw [code_iff] at hd ha hb
    obtain ⟨ho, hz, hu, h8, h3⟩ := mod_atomic_iff.1 hm
    refine ⟨?_, by rw [h8, h3, badDAB, hd.2, ha.2, hb.2, noTe_iff.1 hte]; rfl⟩
    rw [ho, hz, hu, hd.1, ha.1, hb.1, unsignedBit_canonical hc]
  case rep =>
    obtain ⟨ht, ho, hh, hd, ha, hm⟩ := eq_packI_iff.1 (Option.some.inj he).symm
    have h7 : fTag w ≠ 7 := by
      rw [ht]
      simpa using (List.append_eq_nil_iff.1 hk).1
    unfold parse parseRep
    dsimp only
    rw [if_neg h7, if_pos ho, ht, hh, hd, ha, hm]
  case fplowFree | flnkTrain | flnkDrain | flnkRelock | flnkQuery => cases hc
  all_goals cases he

end
end Sys2Proof
end

section
namespace Sys2Proof

/-! ## The checks in their order (R49) -/

theorem lowest_eq_none {l : List Nat} : lowest l = none ↔ l = [] := by
  cases l with
  | nil => simp [lowest]
  | cons n l => cases h : lowest l <;> simp [lowest, h]

theorem checked_eq_ok {i j : Instr} {bad : List Nat} : checked i bad = .ok j ↔ i = j ∧ bad = [] := by
  unfold checked
  rw [← lowest_eq_none]
  cases lowest bad <;> simp

theorem decodeWord_eq_ok {c : DCtx} {w : IWord} {i : Instr} :
    decodeWord c w = .ok i ↔ parse w = some (i, []) ∧ i.check c = [] := by
  unfold decodeWord
  cases parse w with
  | none => simp
  | some p =>
    obtain ⟨j, bad⟩ := p
    simp only [checked_eq_ok, List.append_eq_nil_iff, Option.some.injEq, Prod.mk.injEq, and_assoc]
    constructor
    · rintro ⟨rfl, hb, hk⟩; exact ⟨rfl, hb, hk⟩
    · rintro ⟨rfl, hb, hk⟩; exact ⟨rfl, hb, hk⟩

/-- Settles O4: a word is read from the fields the encoder packs into it, and the checks on its fields pass. -/
theorem decodeOfEncode : Obligations.DecodeOfEncode := by
  unfold Obligations.DecodeOfEncode
  intro c i w he hc hk
  exact decodeWord_eq_ok.2 ⟨parse_of_encode he hc hk, hk⟩

/-- Settles O5: every bit of a word that passes its checks is a bit of a field, so packing the fields gives the word back. -/
theorem encodeOfDecode : Obligations.EncodeOfDecode := by
  unfold Obligations.EncodeOfDecode
  intro c i w h
  exact encode_of_parse (decodeWord_eq_ok.1 h).1

/-! ## Words that no table holds, and privileged words (R43 to R49, R325, R389) -/

section
variable {w : IWord} {h : Hdr} {op : BitVec 6}

theorem parseC_reserved (ho : 0x38 ≤ op) : parseC op h w = none := by
  unfold parseC
  repeat rw [if_neg (by rintro rfl; revert ho; decide)]

theorem parseV_reserved (ho : 0x26 < op) : parseV op h w = none := by
  unfold parseV
  repeat rw [if_neg (by rintro rfl; revert ho; decide)]

theorem parseM_reserved (ho : 0x0D < op) : parseM op h w = none := by
  unfold parseM
  repeat rw [if_neg (by rintro rfl; revert ho; decide)]

theorem parseX_reserved (ho : 0x07 < op) : parseX op h w = none := by
  unfold parseX
  repeat rw [if_neg (by rintro rfl; revert ho; decide)]

theorem parseG_reserved (ho : 0x0E < op) : parseG op h w = none := by
  unfold parseG
  repeat rw [if_neg (by rintro rfl; revert ho; decide)]

theorem parseF_reserved (ho : 0x0B < op ∧ op < 0x30 ∨ 0x32 < op) : parseF op h w = none := by
  unfold parseF
  repeat rw [if_neg (by rintro rfl; revert ho; decide)]

theorem parseA_reserved (ho : 0x02 < op) : parseA op h w = none := by
  unfold parseA
  repeat rw [if_neg (by rintro rfl; revert ho; decide)]

end

/-- The opcodes that the table of a tag leaves reserved (R43, R45 to R47). -/
def reservedOp (t : BitVec 3) (op : BitVec 6) : Prop :=
  t = 0 ∧ 0x38 ≤ op ∨ t = 1 ∧ 0x26 < op ∨ t = 2 ∧ 0x0D < op ∨ t = 3 ∧ 0x07 < op ∨ t = 4 ∧ 0x0E < op ∨
    t = 5 ∧ (0x0B < op ∧ op < 0x30 ∨ 0x32 < op) ∨ t = 6 ∧ 0x02 < op

theorem decode_reserved {c : DCtx} {w : IWord} (hr : reservedOp (fTag w) (fOp w)) (ho : fOp w ≠ 0x3F) :
    decodeWord c w = .error .rsvd := by
  have hp : parse w = none := by
    rw [parse_eq_tagTable ho]
    rcases hr with ⟨ht, hr⟩ | ⟨ht, hr⟩ | ⟨ht, hr⟩ | ⟨ht, hr⟩ | ⟨ht, hr⟩ | ⟨ht, hr⟩ | ⟨ht, hr⟩ <;> rw [ht]
    · exact parseC_reserved hr
    · exact parseV_reserved hr
    · exact parseM_reserved hr
    · exact parseX_reserved hr
    · exact parseG_reserved hr
    · exact parseF_reserved hr
    · exact parseA_reserved hr
  unfold decodeWord
  rw [hp]

/-- No check before the privilege check is among the failing ones. -/
def Late (l : List Nat) : Prop := ∀ n ∈ l, 2 ≤ n

theorem late_append {l k : List Nat} : Late (l ++ k) ↔ Late l ∧ Late k := by
  simp [Late, or_imp, forall_and]

theorem late_req {n : Nat} (hn : 2 ≤ n) (b : Bool) : Late (req n b) := by
  cases b <;> simp [Late, req, hn]

theorem late_zero3 {n : Nat} (b : BitVec n) : Late (zero3 b) := late_req (by decide) _
theorem late_badName (b : BitVec 8) : Late (badName b) := late_req (by decide) _
theorem late_noTe (w : IWord) : Late (noTe w) := late_append.2 ⟨late_req (by decide) _, late_req (by decide) _⟩
theorem late_badDA (w : IWord) : Late (badDA w) := late_append.2 ⟨late_badName _, late_badName _⟩
theorem late_badDAB (w : IWord) : Late (badDAB w) := late_append.2 ⟨late_badDA w, late_badName _⟩

theorem late_kindCheck (k : Kind) (n : Name) : Late (k.check n) := by
  unfold Kind.check
  split
  · simp [Late]
  · split
    · simp [Late]
    · split <;> simp [Late]

theorem lowest_some {l : List Nat} (h : l ≠ []) : ∃ m ∈ l, lowest l = some m ∧ ∀ n ∈ l, m ≤ n := by
  induction l with
  | nil => exact absurd rfl h
  | cons n l ih =>
    by_cases hl : l = []
    · subst hl; exact ⟨n, by simp, rfl, by simp⟩
    · obtain ⟨m, hm, he, hle⟩ := ih hl
      refine ⟨Nat.min n m, ?_, by simp [lowest, he], ?_⟩
      · rcases Nat.le_total n m with hnm | hnm
        · simp [Nat.min_eq_left hnm]
        · simp [Nat.min_eq_right hnm, hm]
      · intro k hk
        rcases List.mem_cons.1 hk with rfl | hk
        · exact Nat.min_le_left ..
        · exact (Nat.min_le_right ..).trans (hle k hk)

theorem lowest_eq_two {l : List Nat} (h : 2 ∈ l) (hl : Late l) : lowest l = some 2 := by
  obtain ⟨m, hm, he, hle⟩ := lowest_some (List.ne_nil_of_mem h)
  rw [he, Nat.le_antisymm (hle 2 h) (hl m hm)]

/-- The contexts, Proof's and Press's, that a privileged word permits (R49, R325, R389). -/
def permits : Instr → Option (Bool × Bool)
  | .genadv .. | .psetRun .. | .psetStop .. | .psetMap .. | .keyld .. | .keyerase .. | .polset .. => some (true, false)
  | .frz .. | .thaw .. | .lapw .. => some (true, true)
  | .frout .. | .froutLd .. | .fplow .. | .flnkDown .. => some (false, true)
  | _ => none

/-- The checks of a privileged word: its context first, then its names. -/
theorem check_of_permits {c : DCtx} {i : Instr} {proof press : Bool} (h : permits i = some (proof, press)) :
    ∃ l, i.check c = privCheck c proof press ++ l ∧ Late l := by
  have hx := late_kindCheck .xAny
  have hd : ∀ l : List Name, Late (l.flatMap Kind.xAny.check) := fun l n hn => by
    obtain ⟨a, -, ha⟩ := List.mem_flatMap.1 hn
    exact hx a n ha
  cases i <;> cases h
  case keyerase => exact ⟨_, List.append_assoc .., late_append.2 ⟨hd _, late_req (by decide) _⟩⟩
  case lapw => exact ⟨_, rfl, hx _⟩
  all_goals exact ⟨_, rfl, hd _⟩

theorem decode_priv {c : DCtx} {w : IWord} {i : Instr} {bad : List Nat} {proof press : Bool} (hp : parse w = some (i, bad))
    (hb : Late bad) (hi : permits i = some (proof, press)) (hc : privCheck c proof press = [2]) :
    decodeWord c w = .error .priv := by
  obtain ⟨l, hl, hlate⟩ := check_of_permits (c := c) hi
  unfold decodeWord
  rw [hp]
  unfold checked
  dsimp only
  rw [lowest_eq_two]
  · rfl
  · simp [hl, hc]
  · rw [hl, hc]
    exact late_append.2 ⟨hb, late_append.2 ⟨by simp [Late], hlate⟩⟩

/-- A word that reads as one which permits these contexts, whatever fails in its other bits. -/
def ReadsPrivileged (w : IWord) (proof press : Bool) : Prop :=
  ∃ i bad, parse w = some (i, bad) ∧ Late bad ∧ permits i = some (proof, press)

theorem readsPrivileged_C {w : IWord} (ht : fTag w = 0) (hl : 0x30 ≤ fOp w) (hu : fOp w ≤ 0x37) :
    ReadsPrivileged w true (fOp w = 0x32 ∨ fOp w = 0x33 ∨ fOp w = 0x36) := by
  have hop : ∀ op : BitVec 6, 0x30 ≤ op → op ≤ 0x37 → op = 0x30 ∨ op = 0x31 ∨ op = 0x32 ∨ op = 0x33 ∨ op = 0x34 ∨ op = 0x35 ∨
    op = 0x36 ∨ op = 0x37 := by decide
  have hne : fOp w ≠ 0x3F := by intro h; rw [h] at hu; exact absurd hu (by decide)
  unfold ReadsPrivileged
  rw [parse_eq_tagTable hne, ht]
  rcases hop _ hl hu with ho | ho | ho | ho | ho | ho | ho | ho <;> rw [ho]
  case inl => exact ⟨_, _, rfl, by simp [late_append, late_noTe, late_zero3, late_badDA], rfl⟩
  case inr.inl =>
    by_cases h0 : (fMod w).extractLsb' 0 2 = 0
    · exact ⟨_, _, if_pos h0, by simp [late_append, late_noTe, late_zero3, late_badDA], rfl⟩
    by_cases h1 : (fMod w).extractLsb' 0 2 = 1
    · exact ⟨_, _, (if_neg h0).trans (if_pos h1), by simp [late_append, late_noTe, late_zero3, late_badDAB], rfl⟩
    · exact ⟨_, _, (if_neg h0).trans (if_neg h1), by simp [late_append, late_noTe, late_zero3, late_badDAB, late_req], rfl⟩
  all_goals exact ⟨_, _, rfl, by simp [late_append, late_noTe, late_zero3, late_badDAB, late_badName], rfl⟩

theorem readsPrivileged_F {w : IWord} (ht : fTag w = 5) (hl : 0x30 ≤ fOp w) (hu : fOp w ≤ 0x32) :
    ReadsPrivileged w false true := by
  have hop : ∀ op : BitVec 6, 0x30 ≤ op → op ≤ 0x32 → op = 0x30 ∨ op = 0x31 ∨ op = 0x32 := by decide
  have hne : fOp w ≠ 0x3F := by intro h; rw [h] at hu; exact absurd hu (by decide)
  unfold ReadsPrivileged
  rw [parse_eq_tagTable hne, ht]
  rcases hop _ hl hu with ho | ho | ho <;> rw [ho]
  case inl =>
    by_cases h0 : (fMod w).getLsbD 0 = true
    · exact ⟨_, _, if_pos h0, by simp [late_append, late_noTe, late_zero3, late_badDAB], rfl⟩
    · exact ⟨_, _, if_neg h0, by simp [late_append, late_noTe, late_zero3, late_badDA], rfl⟩
  all_goals exact ⟨_, _, rfl, by simp [late_append, late_noTe, late_zero3, late_badDAB], rfl⟩

theorem ReadsPrivileged.decode {c : DCtx} {w : IWord} {proof press : Bool} (h : ReadsPrivileged w proof press)
    (hc : privCheck c proof press = [2]) : decodeWord c w = .error .priv := by
  obtain ⟨i, bad, hp, hb, hi⟩ := h
  exact decode_priv hp hb hi hc

/-- FRZ is decoded by both firmware contexts, and by no tenant (R49, R328). -/
theorem decode_frz {l : BitVec 4} {h : Hdr} {d a b : BitVec 6} {w : IWord}
    (he : encode (.frz h (.x d) (.x a) (.x b)) = some w) :
    decodeWord ⟨.tenant, l⟩ w = .error .priv ∧ decodeWord ⟨.proof, l⟩ w = .ok (.frz h (.x d) (.x a) (.x b)) ∧
      decodeWord ⟨.press, l⟩ w = .ok (.frz h (.x d) (.x a) (.x b)) := by
  have hp := parse_of_encode (c := ⟨.proof, l⟩) he rfl rfl
  exact ⟨decode_priv hp (by simp [Late]) rfl rfl, decodeWord_eq_ok.2 ⟨hp, rfl⟩, decodeWord_eq_ok.2 ⟨hp, rfl⟩⟩

/-- Settles O7: reserved opcodes stand in no table, and a privileged word's context is the first of its checks. -/
theorem illegalWordsTrap : Obligations.IllegalWordsTrap := by
  unfold Obligations.IllegalWordsTrap
  refine ⟨?_, ?_, ?_, ?_, ?_, ?_, ?_, ?_⟩
  · intro c w ht
    unfold decodeWord parse
    dsimp only
    rw [if_pos ht]
  · exact fun c w ht hl ho => decode_reserved (.inl ⟨ht, hl⟩) ho
  · intro c w ho hr
    refine decode_reserved ?_ ho
    rcases hr with hV | hM | hX | hG | ⟨ht, hl, hu⟩ | ⟨ht, hl⟩ | hA
    · exact .inr (.inl hV)
    · exact .inr (.inr (.inl hM))
    · exact .inr (.inr (.inr (.inl hX)))
    · exact .inr (.inr (.inr (.inr (.inl hG))))
    · exact .inr (.inr (.inr (.inr (.inr (.inl ⟨ht, .inl ⟨hl, hu⟩⟩)))))
    · exact .inr (.inr (.inr (.inr (.inr (.inl ⟨ht, .inr hl⟩)))))
    · exact .inr (.inr (.inr (.inr (.inr (.inr hA)))))
  · rintro ⟨ctx, l⟩ w rfl ht hl hu
    exact (readsPrivileged_C ht hl hu).decode rfl
  · rintro ⟨ctx, l⟩ w rfl ht hl hu
    exact (readsPrivileged_F ht hl hu).decode rfl
  · rintro ⟨ctx, l⟩ w rfl ht hl hu
    exact (readsPrivileged_F ht hl hu).decode rfl
  · rintro ⟨ctx, l⟩ w rfl ht ho
    have hC := readsPrivileged_C ht (by rcases ho with ho | ho | ho | ho | ho <;> rw [ho] <;> decide)
      (by rcases ho with ho | ho | ho | ho | ho <;> rw [ho] <;> decide)
    refine hC.decode ?_
    rcases ho with ho | ho | ho | ho | ho <;> rw [ho] <;> rfl
  · exact fun l h d a b w he => decode_frz he

end Sys2Proof
end

section
namespace Sys2Proof.Machine

/-! ## Loads and stores enter their queues (R69, R70, R216, R219) -/

section
variable {o : Origin} {s t : State} {size : BitVec 2} {rs : Bool} {ea : Word} {key : Nat}

@[simp] theorem op_stepped (o : Origin) (a : Word) (s : State) :
    (stepped o a).run s = .ok (a + BitVec.ofInt 64 ((s.core o.core).w o.walker).addrAdd, s) := rfl

theorem loadBody_run {sx : Bool} {d : Name} {acq : Option Scope} (hl : (s.core o.core).loads < 16)
    (hp : memPlace s o.core rs false ea.toNat (2 ^ size.toNat) = some key)
    (hf : s.accessFree o.core (some key) (2 ^ size.toNat) = true)
    (hq : ∀ sc, acq = some sc → (demandScope o sc).run s = .ok ((), s)) (hr : (reserve o d).run s = .ok ((), t)) :
    (loadBody o size sx rs d ea acq).run s =
      .ok (.seq, (t.begin o).pushL o.core ⟨o, .load (2 ^ size.toNat) sx key d acq.isSome, none⟩) := by
  unfold loadBody
  rw [op_bind_ok (op_get _), op_bind_ok (op_getCore _ _)]
  dsimp only
  rw [op_bind_ok (op_need (by simpa using hl) _), op_bind_ok (destReady_of_reserve (State.SameRoom.refl s) hr), hp,
    op_bind_ok (op_need hf _)]
  cases acq with
  | none =>
    rw [op_bind_ok (op_pure _ _)]
    dsimp only
    rw [op_bind_ok hr, op_bind_ok (op_modify _ _)]; rfl
  | some sc =>
    rw [op_bind_ok (hq sc rfl)]
    dsimp only
    rw [op_bind_ok hr, op_bind_ok (op_modify _ _)]; rfl

theorem storeBody_run {v : Word} {rel : Option Scope} (hl : (s.core o.core).stores < 16)
    (hp : memPlace s o.core rs true ea.toNat (2 ^ size.toNat) = some key)
    (hf : s.accessFree o.core (some key) (2 ^ size.toNat) = true)
    (hq : ∀ sc, rel = some sc → (demandScope o sc).run s = .ok ((), s))
    (ht : rs = true → (s.core o.core).inText ea.toNat (2 ^ size.toNat) = false) :
    (storeBody o size rs v ea rel).run s = .ok (.seq, (s.begin o).pushS o.core ⟨o, .store (2 ^ size.toNat) key v rel,
      if rel.isNone then some ((s.core o.core).time + memLatency key) else none⟩) := by
  have htext : (!(rs && (s.core o.core).inText ea.toNat (2 ^ size.toNat))) = true := by
    cases rs with
    | true => simp [ht rfl]
    | false => rfl
  unfold storeBody
  rw [op_bind_ok (op_get _), op_bind_ok (op_getCore _ _)]
  dsimp only
  rw [op_bind_ok (op_need (by simpa using hl) _), hp, op_bind_ok (op_need hf _)]
  cases rel with
  | none =>
    rw [op_bind_ok (op_pure _ _)]
    dsimp only
    rw [op_bind_ok (op_demand htext _ _ _), op_bind_ok (op_modify _ _)]; rfl
  | some sc =>
    rw [op_bind_ok (hq sc rfl)]
    dsimp only
    rw [op_bind_ok (op_demand htext _ _ _), op_bind_ok (op_modify _ _)]; rfl

end

theorem execMark_enters {h : Hdr} {s : State} (hm : s.mayIssue .C h.wait) (hl : ((s.waited h.wait).core s.cur).loads < 16)
    (hs : ((s.waited h.wait).core s.cur).stores < 16) :
    execMark h s = .next (((((s.waited h.wait).begin (s.word .C h)).pushS s.cur ⟨s.word .C h, .mark, none⟩).pushL
      s.cur ⟨s.word .C h, .mark, none⟩).advanced s .C 1) := by
  refine issue_seq hm ?_
  rw [op_bind_ok (op_getCore _ _), word_core, op_bind_ok (op_need (by simp [hl, hs]) _), op_bind_ok (op_modify _ _)]
  rfl

theorem execFence_holds {h : Hdr} {sc : Scope} {s : State} (hm : s.mayIssue .C h.wait)
    (hs : (demandScope (s.word .C h) sc).run (s.waited h.wait) = .ok ((), s.waited h.wait)) :
    execFence h sc s = .next (((((s.waited h.wait).begin (s.word .C h)).modW s.cur .C
      (fun v => { v with blocked := true })).later s.cur 2
        (.releaseTakesEffect (s.word .C h) sc (s.word .C h).age .fence)).advanced s .C 1) := by
  refine issue_seq hm ?_
  rw [op_bind_ok hs, op_bind_ok (op_modify _ _), word_core]
  rfl

/-- Settles O21, from the run of the body that the loads share and of the body that the stores share. -/
theorem memoryWordsIssue : Obligations.MemoryWordsIssue := by
  unfold Obligations.MemoryWordsIssue
  refine ⟨⟨?_, ?_⟩, ?_, ?_, ?_, ?_⟩
  · intro h size sx rs d a b s s1 s2 s3 x y key hm ha hb hl ea hp hf hr
    refine issue_seq hm ?_
    rw [op_bind_ok ha, op_bind_ok hb, op_bind_ok (op_stepped _ _ _), word_core, word_walker,
      loadBody_run (by rwa [word_core]) (by rwa [word_core]) (by rwa [word_core]) (fun _ h => by cases h) hr, word_core]
    rfl
  · intro h size sx rs sc d a s s1 s3 x key hm ha hq hl ea hp hf hr
    refine issue_seq hm ?_
    rw [op_bind_ok ha, op_bind_ok (op_stepped _ _ _), word_core, word_walker,
      loadBody_run (by rwa [word_core]) (by rwa [word_core]) (by rwa [word_core]) (fun _ h => by cases h; exact hq) hr,
        word_core]
    rfl
  · intro h size rs d a b s s1 s2 s3 v x y key hm hd ha hb hl ea hp hf ht
    refine issue_seq hm ?_
    rw [op_bind_ok hd, op_bind_ok ha, op_bind_ok hb, op_bind_ok (op_stepped _ _ _), word_core, word_walker,
      storeBody_run (by rwa [word_core]) (by rwa [word_core]) (by rwa [word_core]) (fun _ h => by cases h)
        (by rwa [word_core]),
      word_core]
    rfl
  · intro h size rs sc d a s s1 s2 v x key hm hd ha hq hl ea hp hf ht
    refine issue_seq hm ?_
    rw [op_bind_ok hd, op_bind_ok ha, op_bind_ok (op_stepped _ _ _), word_core, word_walker,
      storeBody_run (by rwa [word_core]) (by rwa [word_core]) (by rwa [word_core]) (fun _ h => by cases h; exact hq)
        (by rwa [word_core]), word_core]
    rfl
  · exact fun h s hm hl hs => execMark_enters hm hl hs
  · exact fun h sc s hm hs => execFence_holds hm hs

/-! ## The atomics enter the store queue (R44, R248, R251) -/

theorem exec_of_atomicWord {i : Instr} {h : Hdr} {op : AtomOp} {z u : Bool} {d a b : Name}
    (hi : atomicWord i = some (h, op, z, u, d, a, b)) (s : State) : exec i s = atomWord h op z u d a b s := by
  cases i <;> cases hi <;> rfl

/-- An atomic reads the value it expects first, where it has one. -/
theorem op_expected_bind {o : Origin} {op : AtomOp} {d : Name} {s s1 : State} {e : Word} {f : Word → Op Flow}
    (he : if op = .cas then (src o d).run s = .ok (e, s1) else e = 0 ∧ s1 = s) :
    (if op = .cas then src o d >>= f else pure 0 >>= f : Op Flow).run s = (f e).run s1 := by
  by_cases hop : op = .cas
  · rw [if_pos hop] at he ⊢; exact op_bind_ok he
  · rw [if_neg hop] at he ⊢; obtain ⟨rfl, rfl⟩ := he; rfl

/-- Settles O24: the seven atomics are one word, whose destination was free before it was reserved. -/
theorem atomicsIssue : Obligations.AtomicsIssue := by
  unfold Obligations.AtomicsIssue
  intro i h op z u d a b s s1 s2 s3 s4 e x v key hi hm he ha hb hl hc hal hk hf hr
  rw [exec_of_atomicWord hi]
  refine issue_seq hm ((op_expected_bind he).trans ?_)
  rw [op_bind_ok ha]
  dsimp only
  rw [op_bind_ok hb, op_bind_ok (op_get _), op_bind_ok (op_getCore _ _), word_core, hc, hk]
  simp only [decide_true, Bool.true_and, hal, if_true]
  rw [op_bind_ok (op_need (by simpa using hl) _), op_bind_ok (destReady_of_reserve (State.SameRoom.refl s3) hr),
    op_bind_ok (op_need hf _), op_bind_ok hr, op_bind_ok (op_modify _ _)]
  rfl

/-! ## REP (R51 to R53) -/

theorem execRep_arms {h : Hdr} {tag : BitVec 3} {count rs : Byte} {as : BitVec 15} {s : State} {i : Nat}
    (hm : s.mayIssue s.curW h.wait) (ht : tag = s.curW.tag ∨ tag = 6)
    (hi : repTarget (s.waited h.wait) s.cur s.curW ((s.waited h.wait).core s.cur).words
      (((s.waited h.wait).core s.cur).words + 1) ((s.word s.curW h).index + 1) = some i)
    (hok : repOk ((s.waited h.wait).textWord s.cur i) (count.toNat + 1) rs.toInt as.toInt = true) :
    execRep h tag count rs as s = .next ((s.waited h.wait).modW s.cur s.curW (fun v =>
      { v.advance (((s.waited h.wait).core s.cur).time + 1) with
        rep := some ⟨count.toNat + 1, 0, rs.toInt, as.toInt, h.post⟩ })) := by
  refine issue_own hm ?_
  rw [op_bind_ok (op_get _), op_bind_ok (op_getCore _ _), word_core]
  dsimp only
  have harm : ((decide (tag = s.curW.tag) || decide (tag = 6)) &&
      repOk ((s.waited h.wait).textWord s.cur i) (count.toNat + 1) rs.toInt as.toInt) = true := by
    rw [hok, Bool.and_true]; simpa using ht
  rw [hi, op_bind_ok (op_demand harm _ _ _), op_bind_ok (op_modify _ _)]
  rfl

/-! ## FORK, RDV and SSB (R84 to R87) -/

/-- The control walker takes the wait and post of FORK, RDV and SSB, and no other walker does (R84). -/
theorem allHdr_C (h : Hdr) : allHdr .C h = h := rfl
theorem allHdr_other {w : Walker} (hw : w ≠ .C) (h : Hdr) : allHdr w h = ⟨0, 0⟩ := if_neg hw

theorem execRdv_arrives {h : Hdr} {s u : State} {w : Walker} (hw : s.curW = w) (hm : s.mayIssue w (allHdr w h).wait)
    (hu : s.waited (allHdr w h).wait = u) :
    execRdv h s = .next ((u.modW s.cur w (fun v => { v with st := .rendezvous })).release s.cur) := by
  subst hw hu
  refine issue_own hm ?_
  rw [op_bind_ok (op_modify _ _), word_core]
  rfl

theorem execSsb_arrives {h : Hdr} {s u : State} {w : Walker} (hw : s.curW = w) (hm : s.mayIssue w (allHdr w h).wait)
    (hu : s.waited (allHdr w h).wait = u) (hx : u.exchangeBad s.cur = false) :
    execSsb h s = .next (u.modW s.cur w (fun v => { v with st := .barrier })) := by
  subst hw hu
  refine issue_own hm ?_
  rw [op_bind_ok (op_get _), word_core, op_bind_ok (op_demand (by rw [hx]; rfl) _ _ _), op_bind_ok (op_modify _ _)]
  rfl

theorem release_waits {c : Nat} {s : State}
    (h : (s.core c).wC.st ≠ .rendezvous ∨ ∃ w ∈ [Walker.V, .M, .X, .G, .F], ((s.core c).w w).st = .running) :
    s.release c = s := by
  unfold State.release
  refine if_neg ?_
  simp only [Bool.and_eq_true, decide_eq_true_eq, List.all_eq_true, not_and]
  intro hr hall
  obtain hn | ⟨w, hw, hst⟩ := h
  · exact hn hr
  · exact hall w hw hst

theorem arrivedOrigin_core (s : State) (c : Nat) : (s.arrivedOrigin c).core = c := by
  unfold State.arrivedOrigin Core.origin; dsimp only; split <;> rfl

theorem arrivedOrigin_walker (s : State) (c : Nat) : (s.arrivedOrigin c).walker = .C := by
  unfold State.arrivedOrigin Core.origin; dsimp only; split <;> rfl

/-- A walker that has arrived at a rendezvous which releases (R86). -/
def WalkerSt.idled (v : WalkerSt) : WalkerSt := if v.st = .rendezvous then { v with st := .idle } else v

/-- A core whose rendezvous releases: its control walker goes on, and the others are idle (R86). -/
def Core.released (k : Core) : Core :=
  { k with
    wC := { k.wC.advance (k.time + 2) with st := .running }
    wV := k.wV.idled, wM := k.wM.idled, wX := k.wX.idled, wG := k.wG.idled, wF := k.wF.idled }

theorem w_released (k : Core) {w : Walker} (hne : w ≠ .C) : k.released.w w = (k.w w).idled := by
  cases w with
  | C => exact absurd rfl hne
  | V | M | X | G | F => rfl

/-- The walkers of a core but for what an origin's begin and the agenda add. -/
theorem walkers_begin_later {s : State} {o : Origin} {n : Nat} {i : Instr} (hw : o.walker = .C) {w : Walker}
    (hne : w ≠ .C) :
    (((s.begin o).later o.core n i).core o.core).w w = (s.core o.core).w w := by
  rw [core_later, State.begin, core_modW, hw]
  cases w with
  | C => exact absurd rfl hne
  | V | M | X | G | F => rfl

theorem release_of_arrived {c : Nat} {s : State} (hc : (s.core c).wC.st = .rendezvous)
    (ha : ∀ w ∈ [Walker.V, .M, .X, .G, .F], ((s.core c).w w).st ≠ .running) :
    s.release c = (((s.modCore c Core.released).begin (s.arrivedOrigin c)).later c 2
      (.scalarResultLands (s.arrivedOrigin c) (.x 0) 0)) := by
  unfold State.release
  refine if_pos ?_
  simp only [Bool.and_eq_true, decide_eq_true_eq, List.all_eq_true]
  exact ⟨hc, ha⟩

theorem w_release {c : Nat} {s : State} (hc : (s.core c).wC.st = .rendezvous)
    (ha : ∀ w ∈ [Walker.V, .M, .X, .G, .F], ((s.core c).w w).st ≠ .running) {w : Walker} (hne : w ≠ .C) :
    ((s.release c).core c).w w = ((s.core c).w w).idled := by
  rw [release_of_arrived hc ha]
  have h := walkers_begin_later (s := s.modCore c Core.released) (n := 2)
    (i := .scalarResultLands (s.arrivedOrigin c) (.x 0) 0) (arrivedOrigin_walker s c) hne
  rw [arrivedOrigin_core, core_modCore] at h
  rw [h, w_released _ hne]

/-- The control walker after the release, but for its word's effect still to come. -/
theorem wC_release {c : Nat} {s : State} (hc : (s.core c).wC.st = .rendezvous)
    (ha : ∀ w ∈ [Walker.V, .M, .X, .G, .F], ((s.core c).w w).st ≠ .running) :
    ((s.release c).core c).wC = { (s.core c).wC.advance ((s.core c).time + 2) with
      st := .running, pend := ((s.core c).wC.advance ((s.core c).time + 2)).pend + 1 } := by
  rw [release_of_arrived hc ha, core_later, State.begin, arrivedOrigin_core, arrivedOrigin_walker, core_modW, core_modCore]
  rfl

/-- A core whose control walker forks (R85). -/
def Core.forked (k : Core) : Core :=
  { k with
    retStack := []
    wC := { k.wC.advance (k.time + 1) with steps := 0, outcomes := [] }
    wV := k.wV.fork (k.wC.index + 1) (k.time + 2), wM := k.wM.fork (k.wC.index + 1) (k.time + 2)
    wX := k.wX.fork (k.wC.index + 1) (k.time + 2), wG := k.wG.fork (k.wC.index + 1) (k.time + 2)
    wF := k.wF.fork (k.wC.index + 1) (k.time + 2) }

theorem w_forked (k : Core) {w : Walker} (hne : w ≠ .C) : k.forked.w w = (k.w w).fork (k.wC.index + 1) (k.time + 2) := by
  cases w with
  | C => exact absurd rfl hne
  | V | M | X | G | F => rfl

theorem execFork_forks {h : Hdr} {s : State} (hw : s.curW = .C) (hm : s.mayIssue .C h.wait)
    (hp : ((s.waited h.wait).core s.cur).wC.pend = 0)
    (hr : ∀ w ∈ [Walker.V, .M, .X, .G, .F], (((s.waited h.wait).core s.cur).w w).st ≠ .running) :
    execFork h s = .next ((((s.waited h.wait).begin (s.word .C h)).later s.cur 2
      (.scalarResultLands (s.word .C h) (.x 0) 0)).modCore s.cur Core.forked) := by
  unfold execFork
  dsimp only
  rw [hw]
  have hnone : ([Walker.V, .M, .X, .G, .F].any fun w =>
      decide ((((s.waited h.wait).core s.cur).w w).st = .running)) = false := by
    rw [List.any_eq_false]
    exact fun w hmem => by simpa using hr w hmem
  refine issue_own hm ?_
  rw [allHdr_C, op_bind_ok (op_getCore _ _), word_core]
  rw [if_neg (by rw [hnone]; simp), op_bind_ok (op_need (by simpa using hp) _), op_bind_ok (op_modify _ _),
    op_bind_ok (op_modifyCore _ _ _), word_core]
  rfl

/-- Settles O34: each word's effect after issue is run to its end; a rendezvous is released by the walker
that arrives last, and only then do the walkers change. -/
theorem allWalkerWordsComplete : Obligations.AllWalkerWordsComplete := by
  unfold Obligations.AllWalkerWordsComplete
  have hother : ∀ w ∈ [Walker.V, .M, .X, .G, .F], w ≠ .C := by decide
  refine ⟨?_, ?_, ?_, ?_, ?_, ?_, ?_, ?_⟩
  · exact fun h tag count rs as s i hm ht hi hok => execRep_arms hm ht hi hok
  · intro h s hw hm hp hr
    refine ⟨_, execFork_forks hw hm hp hr, fun w hmem => ?_, ?_⟩
    · rw [core_modCore, w_forked _ (hother w hmem), core_later, State.begin, word_core, word_walker, core_modW]
      refine ⟨rfl, ?_, ?_, rfl, rfl⟩
      · show ((s.waited h.wait).core s.cur).wC.index + 1 = _
        exact congrArg (·.index + 1) (waited_w s h.wait .C)
      · show ((s.waited h.wait).core s.cur).time + 2 = _
        rw [time_waited]
    · rw [core_modCore]; rfl
  · exact fun h s hw hm => execRdv_arrives hw hm rfl
  · intro h s hw hm
    refine execRdv_arrives rfl ?_ ?_ <;> rw [allHdr_other hw]
    · exact hm
    · rfl
  · exact fun c s h => release_waits h
  · intro c s hc hrep ha
    have hadv : (s.core c).wC.advance ((s.core c).time + 2) = { (s.core c).wC with
        index := (s.core c).wC.index + 1, steps := (s.core c).wC.steps + 1, readyAt := (s.core c).time + 2
        access := 0, grant := 0, run := none, asked := none } := by
      simp only [WalkerSt.advance, hrep]
    rw [wC_release hc ha, hadv]
    refine ⟨rfl, rfl, rfl, fun w hmem hst => ?_, release_mem s c⟩
    rw [w_release hc ha (hother w hmem), WalkerSt.idled, if_pos hst]
  · intro h s hw hm hx
    refine execSsb_arrives rfl ?_ ?_ hx <;> rw [allHdr_other hw]
    · exact hm
    · rfl
  · exact fun h s hw hm hx => execSsb_arrives hw hm rfl hx

end Sys2Proof.Machine
end

section
namespace Sys2Proof.Machine

/-! ## The spec's encoded examples (R65, R148, R246, R272 to R279) -/

/-- Settles O6: each word is what the encoder gives for its statement, so it decodes to it. -/
theorem encodedExamples : Obligations.EncodedExamples := by
  unfold Obligations.EncodedExamples
  have hdec {i : Instr} {w : IWord} (he : encode i = some w) (hc : i.canonical = true) (hk : i.check ⟨.tenant, 0⟩ = []) :
      decodeWord ⟨.tenant, 0⟩ w = .ok i := decodeOfEncode ⟨.tenant, 0⟩ i w he hc hk
  refine ⟨?_, ?_, ?_, ?_, ?_, ?_, ?_, ?_, ?_, ?_, ?_, ?_, ?_, ?_, ?_, ?_, ?_, ?_, ?_, ?_, ?_, ?_, ?_, ?_, ?_, ?_, ?_⟩ <;>
    exact hdec rfl rfl rfl

/-! ## NOP under generation 0 (R9, R19, R62)

The statement lets the posting core's generation be 0. No tag of generation 0 is ok, so a semaphore of such a core reads 0
whatever is posted to it. -/

/-- Core 0 with its control walker running, its VF at generation 0. -/
def voidGeneration : State :=
  { State.reset with
    cores := [(0, { Core.reset with live := true, wC := { WalkerSt.start with st := .running } })]
    vfs := [(0, { Vf.reset with created := true, gen := 0 })] }

/-- Semaphore 1 of core 0 after a step, as the core reads it. -/
def firstSemAfter : Host.Outcome State Fault Refusal → Nat
  | .next t => t.semVal 0 1
  | _ => 0

/-- Refutes O13: a NOP that posts to semaphore 1 leaves it reading 0 under generation 0, where the statement says 1. -/
theorem not_nopRule : ¬ Obligations.NopRule := by
  unfold Obligations.NopRule
  rintro ⟨-, -, h, -⟩
  have hm : voidGeneration.mayIssue .C 0 := ⟨rfl, by decide, rfl, rfl, by decide, .inl rfl⟩
  obtain ⟨t, ht, hsem, -⟩ := h ⟨0, 1⟩ voidGeneration 1 hm rfl rfl (by decide) (by decide) (by decide)
  have hmodel : firstSemAfter (exec (.nop ⟨0, 1⟩) voidGeneration) = 0 := by decide +kernel
  rw [ht] at hmodel
  have hone : t.semVal 0 1 = 1 := hsem
  exact absurd (hmodel.symm.trans hone) (by decide)

/-! ## HALT and TRAP (R82, R83) -/

/-- A word that may issue and whose body stalls is tried again in the next cycle (R13). -/
theorem issue_stall {w : Walker} {h : Hdr} {cost : Nat} {body : Origin → Op Flow} {s : State} (hm : s.mayIssue w h.wait)
    (hb : (body (s.word w h)).run (s.waited h.wait) = .error .stall) :
    issue w h cost body s = .next (s.stalled s.cur w) := by
  have htry := tryWord_of_mayIssue (nowait := false) hm rfl (body := body)
  obtain ⟨-, -, -, -, hslip, -⟩ := hm
  unfold issue issueAt
  rw [htry, hb]
  exact congrArg Host.Outcome.next (if_pos hslip)

/-- Settles O19. -/
theorem haltTrapComplete : Obligations.HaltTrapComplete := by
  unfold Obligations.HaltTrapComplete
  refine ⟨fun h s hm hidle => issue_own hm ?_, fun h s hm hstarted => issue_stall hm ?_, fun h code s hm => issue_own hm ?_⟩
  · rw [op_bind_ok (op_getCore _ _), word_core, op_bind_ok (op_need (List.isEmpty_iff.2 hidle) _), op_bind_ok (op_modify _ _)]
    rfl
  · rw [op_bind_ok (op_getCore _ _), word_core, op_bind_error (op_need_not (by simpa using hstarted) _)]
  · rw [op_bind_ok (op_getCore _ _), word_core, op_bind_ok (op_modify _ _)]
    rfl

end Sys2Proof.Machine
end

section
namespace Sys2Proof.Machine

/-! ## Tensor entries (R77 to R79, R116, R118) -/

section
variable {h : Hdr} {card : Name} {t : BitVec 12} {s s1 : State} {b : List Byte}

/-- A TDEF whose record is read and valid, or of format 0, goes on with what it does to the entry. -/
theorem tdefBody_run {o : Origin} {s s1 : State} (ha : (s.core o.core).acquiring = false)
    (hb : (steppedRecord o card 64 64).run s = .ok (b, s1)) (f : List Byte → Op Flow) :
    (do
      need (!(← getCore o).acquiring)
      let b ← steppedRecord o card 64 64
      demand (field b 8 1 = 0 || tdefOk b) .rsvd 0
      f b : Op Flow).run s = (do demand (field b 8 1 = 0 || tdefOk b) .rsvd 0; f b : Op Flow).run s1 := by
  rw [op_bind_ok (op_getCore _ _), op_bind_ok (op_need (by rw [ha]; rfl) _), op_bind_ok hb]

variable (hm : s.mayIssue .C h.wait) (ha : ((s.waited h.wait).core s.cur).acquiring = false)
  (hb : (steppedRecord (s.word .C h) card 64 64).run (s.waited h.wait) = .ok (b, s1))
include hm ha hb

theorem execTdef_lands (hok : field b 8 1 = 0 ∨ tdefOk b = true) :
    execTdef h card t s = .next (s1.landsLater s .C h 1 8 (if (s1.core s.cur).ctx ≠ .tenant then
        .scalarResultLands (s.word .C h) (.x 0) 0
      else .vectorResultLands (s.word .C h) (keyTensor (s1.core s.cur).vf.toNat t.toNat)
        (tdefBytes b (s1.core s.cur).vf (s1.gen (s1.core s.cur).vf)) 0)) := by
  refine issue_seq hm ((tdefBody_run (by rwa [word_core]) hb _).trans ?_)
  rw [op_bind_ok (op_demand (by simpa using hok) _ _ _), op_bind_ok (op_get _), op_bind_ok (op_getCore _ _), word_core]
  dsimp only
  split
  · exact (op_doneLater ..).trans (by rw [word_core])
  · exact (op_doneLater ..).trans (by rw [word_core])

theorem execTdef_traps (hf : field b 8 1 ≠ 0) (hok : tdefOk b = false) :
    execTdef h card t s = .next ((s.takeTrap { s.word .C h with post2 := 0 } .rsvd 0 0).stalled s.cur .C) := by
  refine issue_trap hm ((tdefBody_run (by rwa [word_core]) hb _).trans ?_)
  rw [op_bind_error (op_demand_not (by simp [hf, hok]) _ _ _)]

end

theorem execTrd_lands {h : Hdr} {d : Name} {t : BitVec 12} {f : BitVec 5} {s s1 : State} (hm : s.mayIssue .C h.wait)
    (hp : ((s.waited h.wait).core s.cur).tdefPending t = false)
    (hr : (reserve (s.word .C h) d).run (s.waited h.wait) = .ok ((), s1)) :
    execTrd h d t f s = .next (s1.landsLater s .C h 1 4 (.scalarResultLands (s.word .C h) d
      (if ((s.waited h.wait).core s.cur).ctx = .tenant ∧ (s.waited h.wait).entryLive ((s.waited h.wait).core s.cur).vf
          ((s.waited h.wait).tensorBytes ((s.waited h.wait).core s.cur).vf t) = true then
        trdField ((s.waited h.wait).tensorBytes ((s.waited h.wait).core s.cur).vf t) f.toNat else 0))) := by
  refine issue_seq hm ?_
  rw [op_bind_ok (op_get _), op_bind_ok (op_getCore _ _), word_core, op_bind_ok (op_need (by rw [hp]; rfl) _)]
  unfold resultLater
  rw [op_bind_ok hr, op_doneLater, word_core]
  simp only [Bool.and_eq_true, decide_eq_true_eq]

/-- Settles O28: a TDEF by what its record says and who writes it, TRD by the entry it finds. -/
theorem tensorEntries : Obligations.TensorEntries := by
  unfold Obligations.TensorEntries
  refine ⟨?_, ?_, ?_, ?_⟩
  · intro h card t s s1 b hm ha hb hok hctx
    exact (execTdef_lands hm ha hb hok).trans (by rw [if_pos hctx])
  · intro h card t s s1 b hm ha hb hok hctx
    exact (execTdef_lands hm ha hb hok).trans (by rw [if_neg (not_not_intro hctx)]; rfl)
  · exact fun h card t s s1 b hm ha hb hf hok => execTdef_traps hm ha hb hf hok
  · exact fun h d t f s s1 hm hp hr => execTrd_lands hm hp hr

/-! ## Rings and counters of queues (R297, R298) -/

section
variable (s : State) (v : BitVec 6) (q : BitVec 4)

@[simp] theorem vf_later (c d : Nat) (i : Instr) (n : Nat) : (s.later c d i).vf n = s.vf n := rfl

@[simp] theorem vf_joinRing (k : Kick) : (s.joinRing v q k).vf v.toNat =
    { s.vf v.toNat with rings := Tbl.upd (s.vf v.toNat).rings q.toNat [] (fun l => l ++ [k]) } :=
  vf_modVf s v.toNat (fun f => { f with rings := Tbl.upd f.rings q.toNat [] (fun l => l ++ [k]) })

theorem rings_joinRing (k : Kick) : Tbl.get ((s.joinRing v q k).vf v.toNat).rings q.toNat [] =
    Tbl.get (s.vf v.toNat).rings q.toNat [] ++ [k] := by
  rw [vf_joinRing]
  exact get_upd (s.vf v.toNat).rings q.toNat [] (fun l => l ++ [k])

@[simp] theorem vf_countDropped : (s.countDropped v q).vf v.toNat =
    { s.vf v.toNat with dropped := bump (s.vf v.toNat).dropped q } :=
  vf_modVf s v.toNat (fun f => { f with dropped := bump f.dropped q })

end

/-! ## LAUNCH and WAITL (R80, R81) -/

theorem execLaunch_releases {h : Hdr} {d a b : Name} {q : BitVec 4} {s s1 s2 s3 : State} {x y : Word}
    (hm : s.mayIssue .C h.wait) (ha : (src (s.word .C h) a).run (s.waited h.wait) = .ok (x, s1))
    (hb : (src (s.word .C h) b).run s1 = .ok (y, s2)) (hd : (reserve (s.word .C h) d).run s2 = .ok ((), s3))
    (hctx : (s2.core s.cur).ctx = .tenant) (hx : x.toNat % 256 = 0) (hmap : s2.mapped (s2.core s.cur).vf x.toNat 256 = true)
    (hy : y.toNat = 0 ∨ (s2.vaultKey (s2.core s.cur).vf y.toNat).isSome = true) :
    execLaunch h d a b q s = .next (s3.landsLater s .C h 1 0
      (.releaseTakesEffect (s.word .C h) .ten (s.word .C h).age (.launch x.toNat y.toNat q d))) := by
  refine issue_seq hm ?_
  rw [op_bind_ok ha, op_bind_ok hb, op_bind_ok (op_get _), word_core, op_bind_ok hd,
    op_bind_ok (op_demand (by simp [hctx, hx, hmap]) _ _ _), op_bind_ok (op_demand (by simpa using hy) _ _ _),
    op_bind_ok (op_modify _ _)]
  rfl

section
variable {h : Hdr} {d a : Name} {s s1 s2 : State} {x : Word} (hm : s.mayIssue .C h.wait)
  (ha : (src (s.word .C h) a).run (s.waited h.wait) = .ok (x, s1)) (hd : (reserve (s.word .C h) d).run s1 = .ok ((), s2))
include hm ha hd

theorem execWaitl_unknown (hl : s1.handled (s1.core s.cur).gang x = none) :
    execWaitl h d a s = .next (s2.landsLater s .C h 1 1 (.scalarResultLands (s.word .C h) d 2)) := by
  refine issue_seq hm ?_
  rw [op_bind_ok ha, op_bind_ok (op_get _), op_bind_ok (op_getCore _ _), op_bind_ok hd, word_core, hl]
  exact (op_doneLater ..).trans (by rw [word_core])

/-- WAITL on a handle of its gang sleeps; where the launch is over its answer is due in 4 cycles (R81). -/
theorem execWaitl_sleeps {l : Launch} (hl : s1.handled (s1.core s.cur).gang x = some l) :
    execWaitl h d a s = .next (State.advanced
      (let t := (s2.modCore s.cur (fun k => { k.modW .C (fun v => { v with blocked := true }) with
        waitl := some ⟨s.word .C h, d, x⟩ })).begin (s.word .C h)
      if l.over then t.later s.cur 4 (.waitlWake (s.word .C h) d x) else t) s .C 1) := by
  refine issue_seq hm ?_
  rw [op_bind_ok ha, op_bind_ok (op_get _), op_bind_ok (op_getCore _ _), op_bind_ok hd, word_core, hl]
  dsimp only
  rw [op_bind_ok (op_modifyCore _ _ _), op_bind_ok (op_modify _ _), word_core]
  split
  · rfl
  · rfl

end

section
variable {o : Origin} {age a patch : Nat} {q : BitVec 4} {d : Name} {s : State} {g : Gang} {l : Launch}

/-- The launches of a gang that no WAITL has collected (R80). -/
def State.uncollected (s : State) (gang : Nat) : Nat :=
  (s.launches.filter (fun e => e.2.byGang = some gang && !e.2.collected)).length

/-- The launch that a LAUNCH of a running kernel makes, waiting for its acceptance (R80). -/
def State.launched (s : State) (c a : Nat) (q : BitVec 4) (g : Gang) (l : Launch) : Launch :=
  { vf := (s.core c).vf, gen := s.gen (s.core c).vf, queue := q, addr := a, rcb := l.rcb, parent := some g.launch
    listed := false, byGang := some (s.core c).gang, depth := l.depth + 1, patch := none, patchBad := [], reason := 0
    st := if s.ringFull (s.core c).vf q then .refused else .waiting
    collected := false, nextChild := 0, order := 0, ready := 0 }

variable (hg : s.gang (s.core o.core).gang = some g) (hl : Tbl.find s.launches g.launch = some l)
include hg hl

theorem handOver_of_room (hroom : s.uncollected (s.core o.core).gang < 64) :
    s.handOver o a patch q d = State.later
      (let t : State := { s with
        launches := Tbl.put s.launches s.nextLaunch (s.launched o.core a q g l), nextLaunch := s.nextLaunch + 1 }
      if s.ringFull (s.core o.core).vf q then t.countDropped (s.core o.core).vf q
      else t.joinRing (s.core o.core).vf q ⟨patch, patch ≠ 0, false, some s.nextLaunch, none⟩)
      o.core 32 (.launchHandleReady o d (BitVec.ofNat 64 s.nextLaunch)) := by
  unfold State.handOver
  extract_lets k ready held
  rw [hg, Option.bind_some, hl]
  exact if_neg (Nat.not_le.2 hroom)

theorem handOver_of_full (hfull : 64 ≤ s.uncollected (s.core o.core).gang) :
    s.handOver o a patch q d = s.later o.core 32 (.launchHandleReady o d (BitVec.ofNat 64 (4 * 2 ^ 56))) := by
  unfold State.handOver
  extract_lets k ready held
  rw [hg, Option.bind_some, hl]
  exact if_pos hfull

end

theorem exec_release_launch {o : Origin} {age a patch : Nat} {q : BitVec 4} {d : Name} {s : State}
    (hr : s.relHolds o.core age .ten none = true) :
    exec (.releaseTakesEffect o .ten age (.launch a patch q d)) s = .next (s.handOver o a patch q d) :=
  congrArg Host.Outcome.next (if_pos hr)

/-- Settles O29, each word by its lemma and the release of a LAUNCH by what the dispatcher is given. -/
theorem launchWordsComplete : Obligations.LaunchWordsComplete := by
  unfold Obligations.LaunchWordsComplete
  refine ⟨?_, ?_, ?_, ?_, ?_⟩
  · exact fun h d a b q s s1 s2 s3 x y hm ha hb hd hctx hx hmap hy => execLaunch_releases hm ha hb hd hctx hx hmap hy
  · intro h d a s s1 s2 x hm ha hd
    refine ⟨fun hl => execWaitl_unknown hm ha hd hl, fun l hl ho => ?_, fun l hl ho => ?_⟩
    · exact (execWaitl_sleeps hm ha hd hl).trans (by rw [ho]; rfl)
    · exact (execWaitl_sleeps hm ha hd hl).trans (by rw [ho]; rfl)
  · intro o age a patch q d s g l hr hg hl hroom hring
    refine ⟨_, exec_release_launch hr, ?_⟩
    rw [handOver_of_room hg hl hroom, hring]
    refine ⟨by rw [core_later]; rfl, ?_, rfl, s.launched o.core a q g l, find_put .., rfl, ?_, rfl, rfl, rfl, rfl⟩
    · rw [vf_later]
      dsimp only
      rw [if_neg Bool.false_ne_true]
      exact rings_joinRing ..
    unfold State.launched
    rw [hring]; rfl
  · intro o age a patch q d s g l hr hg hl hroom hring
    refine ⟨_, exec_release_launch hr, ?_⟩
    rw [handOver_of_room hg hl hroom, hring]
    rw [vf_later]
    dsimp only
    rw [if_pos rfl, vf_countDropped]
    refine ⟨rfl, rfl, s.launched o.core a q g l, find_put .., ?_⟩
    unfold State.launched
    rw [hring]; rfl
  · intro o age a patch q d s g l hr hg hl hfull
    rw [exec_release_launch hr, handOver_of_full hg hl hfull]

end Sys2Proof.Machine
end

section
namespace Sys2Proof.Machine

/-! ## Frames of folds and of changes to a core at home -/

/-- What every step of a fold leaves alone, the fold does. -/
theorem foldl_frame {σ α β : Type} {P : σ → α} {f : σ → β → σ} (h : ∀ s b, P (f s b) = P s) (l : List β) :
    ∀ s, P (l.foldl f s) = P s := by
  induction l with
  | nil => exact fun _ => rfl
  | cons b l ih => exact fun s => (ih _).trans (h s b)

/-- A change of a core at home is one of the cores or of the saves. -/
theorem modHome_frame {α : Type} {P : State → α} (hcores : ∀ s x, P { s with cores := x } = P s)
    (hsaves : ∀ s x, P { s with saves := x } = P s) (s : State) (gang c : Nat) (f : Core → Core) :
    P (s.modHome gang c f) = P s := by
  unfold State.modHome
  split
  · exact hcores s _
  · exact hsaves s _

/-- Waking the waiters of a launch changes cores and saves alone (R81). -/
theorem wakeWaiters_frame {α : Type} {P : State → α} (hcores : ∀ s x, P { s with cores := x } = P s)
    (hsaves : ∀ s x, P { s with saves := x } = P s) (s : State) (id : Nat) (l : Launch) : P (s.wakeWaiters id l) = P s := by
  unfold State.wakeWaiters
  split
  · rfl
  · exact foldl_frame (fun t c => modHome_frame hcores hsaves t _ c _) _ s

theorem wakeWaiters_launches (s : State) (id : Nat) (l : Launch) : (s.wakeWaiters id l).launches = s.launches :=
  wakeWaiters_frame (P := State.launches) (fun _ _ => rfl) (fun _ _ => rfl) s id l

theorem wakeWaiters_vf (s : State) (id : Nat) (l : Launch) (v : Nat) : (s.wakeWaiters id l).vf v = s.vf v :=
  wakeWaiters_frame (P := (State.vf · v)) (fun _ _ => rfl) (fun _ _ => rfl) s id l

/-! ## Launches in the table -/

section
variable {s : State} {id : Nat} {l : Launch}

theorem modLaunch_of_find (h : Tbl.find s.launches id = some l) (f : Launch → Launch) :
    s.modLaunch id f = { s with launches := Tbl.put s.launches id (f l) } := by
  unfold State.modLaunch
  rw [h]

theorem find_modLaunch (h : Tbl.find s.launches id = some l) (f : Launch → Launch) :
    Tbl.find (s.modLaunch id f).launches id = some (f l) := by
  rw [modLaunch_of_find h]
  exact find_put ..

theorem vf_modLaunch (s : State) (id : Nat) (f : Launch → Launch) (v : Nat) : (s.modLaunch id f).vf v = s.vf v := by
  unfold State.modLaunch
  split
  · rfl
  · rfl

end

/-! ## The host's writes (R297) -/

section
variable {v : BitVec 6} {x : Word} {s : State}

theorem execKick_drops (hc : (s.vf v.toNat).created = true) (h : s.ringFull v (x.setWidth 4) = true) :
    execKick v x s = .next (s.countDropped v (x.setWidth 4)) := by
  unfold execKick
  dsimp only
  rw [hc, h]
  rfl

theorem execKick_joins (hc : (s.vf v.toNat).created = true) (h : s.ringFull v (x.setWidth 4) = false) :
    execKick v x s = .next (s.joinRing v (x.setWidth 4) ⟨x.toNat / 4096 * 4096, x.getLsbD 4,
      bitsOf x.toNat 11 5 ≠ 0 || bitsOf x.toNat 63 52 ≠ 0, none, none⟩) := by
  unfold execKick
  dsimp only
  rw [hc, h]
  rfl

theorem execRegisterWrite_unserved {off : Nat} (h : s.serving = false) : execRegisterWrite v off x s = .next s := by
  unfold execRegisterWrite
  rw [h]
  rfl

theorem execRegisterWrite_kick (h : s.serving = true) : execRegisterWrite v 0 x s = .next (s.after 0 (.kick v x)) := by
  unfold execRegisterWrite
  rw [h]
  rfl

/-- A write to 0x40 + 8 q binds queue q to a block. -/
theorem execRegisterWrite_binds {q : Nat} (h : s.serving = true) (hq : q < 16) : execRegisterWrite v (0x40 + 8 * q) x s =
    .next (s.modVf v.toNat (fun f => { f with qrcb := Tbl.put f.qrcb q x })) := by
  have hoff : (0x40 + 8 * q - 0x40) / 8 = q := by omega
  unfold execRegisterWrite
  rw [h, if_neg (by decide), if_neg (by omega), if_pos ⟨by omega, by omega, by omega⟩, hoff]

end

/-! ## The head of a ring (R291, R293, R298, R414) -/

section
variable (s : State) (v : BitVec 6) (q : BitVec 4)

@[simp] theorem vf_after (d : Nat) (i : Instr) (n : Nat) : (s.after d i).vf n = s.vf n := rfl

@[simp] theorem vf_popRing : (s.popRing v q).vf v.toNat =
    { s.vf v.toNat with rings := Tbl.upd (s.vf v.toNat).rings q.toNat [] List.tail } :=
  vf_modVf s v.toNat (fun f => { f with rings := Tbl.upd f.rings q.toNat [] List.tail })

@[simp] theorem vf_countRefused : (s.countRefused v q).vf v.toNat =
    { s.vf v.toNat with refused := bump (s.vf v.toNat).refused q } :=
  vf_modVf s v.toNat (fun f => { f with refused := bump f.refused q })

@[simp] theorem vf_countAccepted : (s.countAccepted v q).vf v.toNat =
    { s.vf v.toNat with accepted := bump (s.vf v.toNat).accepted q } :=
  vf_modVf s v.toNat (fun f => { f with accepted := bump f.accepted q })

theorem rings_popRing : Tbl.get ((s.popRing v q).vf v.toNat).rings q.toNat [] =
    (Tbl.get (s.vf v.toNat).rings q.toNat []).tail := by
  rw [vf_popRing]
  exact get_upd (s.vf v.toNat).rings q.toNat [] List.tail

end

section
variable {v : BitVec 6} {q : BitVec 4} {s : State} {k : Kick} {l : List Kick}

theorem rings_takeKick (hr : Tbl.get (s.vf v.toNat).rings q.toNat [] = k :: l) (ro : Option Rcb)
    (patch : Option (List Byte × List Nat)) (d : Nat) :
    Tbl.get ((s.takeKick v q ro patch d).vf v.toNat).rings q.toNat [] = { k with taken := some (s.now + d, ro, patch) } :: l := by
  unfold State.takeKick
  rw [vf_after, vf_modVf]
  dsimp only
  rw [get_upd, hr]

/-- The head of a ring that is refused leaves it. -/
theorem rings_refuseKick (s : State) (v : BitVec 6) (q : BitVec 4) (k : Kick) :
    Tbl.get ((s.refuseKick v q k).vf v.toNat).rings q.toNat [] = (Tbl.get (s.vf v.toNat).rings q.toNat []).tail := by
  unfold State.refuseKick
  dsimp only
  split
  · rw [vf_countRefused]
    exact rings_popRing s v q
  · rw [wakeWaiters_vf, vf_modLaunch]
    exact rings_popRing s v q

theorem refuseKick_kick (h : k.fromLaunch = none) : s.refuseKick v q k = (s.popRing v q).countRefused v q := by
  unfold State.refuseKick
  rw [h]
  rfl

theorem refuseKick_launch {id : Nat} {c : Launch} (h : k.fromLaunch = some id) (hc : Tbl.find s.launches id = some c) :
    s.refuseKick v q k = ((s.popRing v q).modLaunch id (fun l => { l with st := .refused })).wakeWaiters id c := by
  unfold State.refuseKick
  rw [h, Option.bind_some, hc]
  rfl

theorem kickBlock_kick (h : k.fromLaunch = none) : s.kickBlock v q k =
    if k.bad = true ∨ (Tbl.get (s.vf v.toNat).qrcb q.toNat 0).toNat = 0 then .error 5
    else s.readRcb v (Tbl.get (s.vf v.toNat).qrcb q.toNat 0).toNat (s.rootRcb v.toNat) 1 false := by
  unfold State.kickBlock State.kickAddr
  rw [h]
  simp only [Option.bind_none, Bool.or_eq_true, decide_eq_true_eq]

theorem kickBlock_launch {id p : Nat} {c pl : Launch} (h : k.fromLaunch = some id) (hc : Tbl.find s.launches id = some c)
    (hp : c.parent = some p) (hpl : Tbl.find s.launches p = some pl) :
    s.kickBlock v q k = s.readRcb v c.addr pl.rcb c.depth true := by
  unfold State.kickBlock State.kickAddr
  rw [h, Option.bind_some, hc]
  dsimp only
  rw [hp, Option.bind_some, hpl]
  rfl

theorem find_noteReason {id e : Nat} {c : Launch} (h : k.fromLaunch = some id) (hc : Tbl.find s.launches id = some c) :
    Tbl.find (s.noteReason k e).launches id = some { c with reason := e } := by
  unfold State.noteReason
  rw [h]
  exact find_modLaunch hc _

/-- A launch that its acceptance makes of a kick (R298, R300). -/
def State.freshLaunch (s : State) (v : BitVec 6) (q : BitVec 4) (k : Kick) (r : Rcb) (patch : Option (List Byte × List Nat)) :
    Launch :=
  { vf := v, gen := s.gen v, queue := q, addr := s.kickAddr v q k, rcb := r, parent := none, listed := false, byGang := none
    depth := 1, st := .waiting, patch := patch.map (fun p => p.1), patchBad := (patch.map (fun p => p.2)).getD [], reason := 0
    collected := false, nextChild := 0, order := s.nextLaunch, ready := s.now }

/-- The launch of a LAUNCH after its acceptance (R80). -/
def Launch.acceptedIn (c : Launch) (s : State) (v : BitVec 6) (r : Rcb) (patch : Option (List Byte × List Nat)) : Launch :=
  { c with
    gen := s.gen v, rcb := r, patch := patch.map (fun p => p.1), patchBad := (patch.map (fun p => p.2)).getD []
    order := s.nextLaunch, ready := s.now }

/-- The head of a ring has become a launch, which begins in this cycle. -/
def State.acceptedAs (s : State) (v : BitVec 6) (q : BitVec 4) (id : Nat) (c : Launch) : State :=
  (State.countAccepted { s.popRing v q with launches := Tbl.put s.launches id c, nextLaunch := s.nextLaunch + 1 } v q).after 0
    (c.begin id)

theorem acceptKick_kick {r : Rcb} {patch : Option (List Byte × List Nat)} (h : k.fromLaunch = none) :
    s.acceptKick v q k r patch = s.acceptedAs v q s.nextLaunch (s.freshLaunch v q k r patch) := by
  unfold State.acceptKick
  rw [h]
  rfl

theorem acceptKick_launch {r : Rcb} {patch : Option (List Byte × List Nat)} {id : Nat} {c : Launch} (h : k.fromLaunch = some id)
    (hc : Tbl.find s.launches id = some c) : s.acceptKick v q k r patch = s.acceptedAs v q id (c.acceptedIn s v r patch) := by
  unfold State.acceptKick
  rw [h, Option.bind_some, hc]
  rfl

/-- What is true of a head of a ring that is accepted, whatever launch it becomes. -/
theorem acceptedAs_spec (hr : Tbl.get (s.vf v.toNat).rings q.toNat [] = k :: l) (id : Nat) (c : Launch) :
    Tbl.find (s.acceptedAs v q id c).launches id = some c ∧
    Tbl.get ((s.acceptedAs v q id c).vf v.toNat).rings q.toNat [] = l ∧
    ((s.acceptedAs v q id c).vf v.toNat).accepted = bump (s.vf v.toNat).accepted q ∧
    (s.acceptedAs v q id c).agenda = addDue s.now (c.begin id) s.agenda := by
  have hv : (s.acceptedAs v q id c).vf v.toNat =
      { (s.popRing v q).vf v.toNat with accepted := bump ((s.popRing v q).vf v.toNat).accepted q } := vf_countAccepted ..
  refine ⟨find_put .., ?_, ?_, rfl⟩
  · rw [hv]
    exact (rings_popRing s v q).trans (by rw [hr]; rfl)
  · rw [hv, vf_popRing]

end

/-! ## KICK_ACCEPT (R291, R298, R301, R414) -/

theorem execKickAccept_empty {v : BitVec 6} {q : BitVec 4} {s : State} (hr : Tbl.get (s.vf v.toNat).rings q.toNat [] = []) :
    execKickAccept v q s = .next s := by
  unfold execKickAccept
  rw [hr]

section
variable {v : BitVec 6} {q : BitVec 4} {s : State} {k : Kick} {l : List Kick}
  (hr : Tbl.get (s.vf v.toNat).rings q.toNat [] = k :: l)
include hr

theorem execKickAccept_waits (h : s.scheduled v = false ∨ s.queueWaits v q = true) :
    execKickAccept v q s = .next (s.after 1 (.kickAccept v q)) := by
  unfold execKickAccept
  rw [hr]
  exact congrArg Host.Outcome.next (if_pos (by rcases h with h | h <;> simp [h]))

variable (hs : s.scheduled v = true) (hq : s.queueWaits v q = false)
include hs hq

theorem execKickAccept_bad {e : Nat} (ht : k.taken = none) (hb : s.kickBlock v q k = .error e) :
    execKickAccept v q s = .next ((s.noteReason k e).takeKick v q none none 128) := by
  unfold execKickAccept
  rw [hr, hs, hq]
  dsimp only
  rw [if_neg (by decide), ht]
  dsimp only
  rw [hb]
  rfl

theorem execKickAccept_reads {r : Rcb} (ht : k.taken = none) (hb : s.kickBlock v q k = .ok r) :
    execKickAccept v q s = .next (if s.thirdReplay v (s.kickAddr v q k) r then s.after 1 (.kickAccept v q)
      else s.takeKick v q (some r) none 128) := by
  unfold execKickAccept
  rw [hr, hs, hq]
  dsimp only
  rw [if_neg (by decide), ht]
  dsimp only
  rw [hb]
  rfl

variable {due : Nat} {ro : Option Rcb} {patch : Option (List Byte × List Nat)} (ht : k.taken = some (due, ro, patch))
include ht

theorem execKickAccept_checks (hd : s.now < due) : execKickAccept v q s = .next (s.after 1 (.kickAccept v q)) := by
  unfold execKickAccept
  rw [hr, hs, hq]
  dsimp only
  rw [if_neg (by decide), ht]
  exact congrArg Host.Outcome.next (if_pos hd)

variable (hd : due ≤ s.now)
include hd

theorem execKickAccept_refuses (ho : ro = none) : execKickAccept v q s = .next (s.refuseKick v q k) := by
  subst ho
  unfold execKickAccept
  rw [hr, hs, hq]
  dsimp only
  rw [if_neg (by decide), ht]
  exact congrArg Host.Outcome.next (if_neg (Nat.not_lt.2 hd))

variable {r : Rcb} (ho : ro = some r) (h3 : s.thirdReplay v (s.kickAddr v q k) r = false)
include ho h3

/-- The head of a ring whose block is read goes on: it is accepted where it has its patch or needs none. -/
theorem execKickAccept_accepts (hp : k.pv = false ∨ patch ≠ none) :
    execKickAccept v q s = .next (s.acceptKick v q k r patch) := by
  subst ho
  have hp' : (!k.pv || patch.isSome) = true := by
    rcases hp with hp | hp
    · rw [hp]; rfl
    · rw [Option.isSome_iff_ne_none.2 hp, Bool.or_true]
  unfold execKickAccept
  rw [hr, hs, hq]
  dsimp only
  rw [if_neg (by decide), ht]
  dsimp only
  rw [if_neg (Nat.not_lt.2 hd), h3, if_neg Bool.false_ne_true, if_pos hp']

section
variable (hpv : k.pv = true) (hpatch : patch = none)
include hpv hpatch

theorem execKickAccept_unmapped (hk : s.kickPatch v k r.paramlen = none) :
    execKickAccept v q s = .next (s.refuseKick v q k) := by
  subst ho hpatch
  unfold execKickAccept
  rw [hr, hs, hq]
  dsimp only
  rw [if_neg (by decide), ht]
  dsimp only
  rw [if_neg (Nat.not_lt.2 hd), h3, if_neg Bool.false_ne_true, hpv, if_neg (by decide), hk]

theorem execKickAccept_copies {b : List Byte × List Nat} (hk : s.kickPatch v k r.paramlen = some b) :
    execKickAccept v q s = .next (s.takeKick v q (some r) (some b) (s.patchTime v k r.paramlen)) := by
  subst ho hpatch
  unfold execKickAccept
  rw [hr, hs, hq]
  dsimp only
  rw [if_neg (by decide), ht]
  dsimp only
  rw [if_neg (Nat.not_lt.2 hd), h3, if_neg Bool.false_ne_true, hpv, if_neg (by decide), hk]

end
end

end Sys2Proof.Machine
end

section
namespace Sys2Proof.Machine

/-! ## The cores of a launch (R296, R315) -/

/-- The cores that a launch may take now, lowest first. -/
def State.freeCores (s : State) (l : Launch) : List Nat := (s.coresOf l.rcb.coreset).filter s.coreFree

theorem chosen_eq_some {s : State} {l : Launch} {cores : List Nat} : s.chosen l = some cores ↔
    l.rcb.ncores ≤ (s.freeCores l).length ∧ (s.freeCores l).take l.rcb.ncores = cores := by
  unfold State.chosen State.freeCores
  simp only [Option.ite_none_right_eq_some, Option.some.injEq]

theorem mem_freeCores {s : State} {l : Launch} {c : Nat} : c ∈ s.freeCores l ↔
    c < (if s.phase = 6 then 256 else 64) ∧ bitOf l.rcb.coreset c = true ∧ s.coreFree c = true := by
  unfold State.freeCores State.coresOf
  simp only [List.mem_filter, List.mem_range, and_assoc]

theorem freeCores_increase (s : State) (l : Launch) : (s.freeCores l).Pairwise (· < ·) :=
  (List.pairwise_lt_range.filter _).filter _

/-- What a list in increasing order keeps back lies above all that is taken from its head. -/
theorem lt_of_not_mem_take {l : List Nat} (hl : l.Pairwise (· < ·)) {n c d : Nat} (hc : c ∈ l) (hn : c ∉ l.take n)
    (hd : d ∈ l.take n) : d < c := by
  rw [← List.take_append_drop n l] at hl hc
  obtain ⟨-, -, hlt⟩ := List.pairwise_append.1 hl
  exact hlt d hd c ((List.mem_append.1 hc).resolve_left hn)

/-- A launch's cores: as many as it asks for, the lowest free ones of its set. -/
theorem chosen_spec {s : State} {l : Launch} {cores : List Nat} (h : s.chosen l = some cores) :
    cores.length = l.rcb.ncores ∧ (∀ c ∈ cores, bitOf l.rcb.coreset c = true ∧ s.coreFree c = true) ∧
    cores.Pairwise (· < ·) ∧
    (∀ c, c < (if s.phase = 6 then 256 else 64) → bitOf l.rcb.coreset c = true → s.coreFree c = true → c ∉ cores →
      ∀ d ∈ cores, d < c) := by
  obtain ⟨hlen, rfl⟩ := chosen_eq_some.1 h
  refine ⟨List.length_take_of_le hlen, fun c hc => ?_, (freeCores_increase s l).take, fun c hc hb hf hn d hd => ?_⟩
  · exact (mem_freeCores.1 (List.mem_of_mem_take hc)).2
  · exact lt_of_not_mem_take (freeCores_increase s l) (mem_freeCores.2 ⟨hc, hb, hf⟩) hn hd

/-! ## A core prepared for a kernel (R294, R295, R315) -/

theorem core_mark (s : State) (key n : Nat) (poison : Bool) (d : Nat) : (s.mark key n poison).core d = s.core d := by
  cases poison
  · rfl
  · rfl

/-- What kernel start sets of a core and no write to its memory touches. -/
def Core.atStart (k : Core) := (k.x, k.words, k.base, k.gang, k.vf, k.live, k.wC, k.wV, k.retStack, k.step)

/-- What no write to memory and no mark touches is after the placing of a kernel as its start leaves it. -/
theorem placeCore_frame {α : Type} {P : State → α} (hmark : ∀ (t : State) key n b, P (t.mark key n b) = P t)
    (hwrite : ∀ (t : State) tag k bs, P (t.write tag k bs) = P t) (s : State) (v : BitVec 6) (g c i n : Nat) (r : Rcb)
    (img : List Byte) (secs : List (Nat × List Byte)) (param : List Byte) (bad : List Nat) :
    P (s.placeCore v g c i n r img secs param bad) = P (((s.displace c).voidCore c).setCore c
      ((((s.displace c).voidCore c).core c).started? s.now v g i n r)) := by
  unfold State.placeCore
  extract_lets s1 s2 tag
  have hmarks := foldl_frame (P := P) (f := fun (t : State) o => t.mark (keyRS c (r.paramoff + o)) 4 true)
    (fun t o => hmark t _ _ _) bad
  have hwrites := foldl_frame (P := P) (f := fun (t : State) (x : Nat × List Byte) => t.write tag (keyRS c x.1) x.2)
    (fun t x => hwrite t _ _ _)
  exact (hmarks _).trans (hwrites _ s2)

theorem atStart_placeCore (s : State) (v : BitVec 6) (g c i n : Nat) (r : Rcb) (img : List Byte) (secs : List (Nat × List Byte))
    (param : List Byte) (bad : List Nat) : ((s.placeCore v g c i n r img secs param bad).core c).atStart =
      ([], r.words, r.textoff, g, v, false, { WalkerSt.start with st := .running }, WalkerSt.start, [], 0) := by
  refine (placeCore_frame (P := fun t => (t.core c).atStart) (fun t _ _ _ => congrArg Core.atStart (core_mark t ..))
    (fun t _ _ _ => field_write Core.atStart (fun _ _ => rfl) (fun _ _ _ => rfl) ..) ..).trans ?_
  dsimp only
  rw [core_setCore]
  rfl

/-! ## Launches stand while cores are placed

The frames are stated for any `P`: with a field of the state in its place the kernel would evaluate the states it compares, down
to the literals of a save's layout. -/

theorem writeUnit_launches (s : State) (tag : Tag) (k : Nat) (bs : List Byte) : (s.writeUnit tag k bs).launches = s.launches := by
  unfold State.writeUnit
  extract_lets u fresh mem0 s1
  split
  · rfl
  · split
    · rfl
    · rfl

theorem write_launches (s : State) (tag : Tag) (k : Nat) (bs : List Byte) : (s.write tag k bs).launches = s.launches := by
  unfold State.write
  split
  · generalize unitRuns k bs.length = l
    have hfold : ∀ a : State × List Byte, (l.foldl (fun (a : State × List Byte) r =>
        (a.1.writeUnit tag r.1 (a.2.take r.2), a.2.drop r.2)) a).1.launches = a.1.launches := by
      induction l with
      | nil => exact fun _ => rfl
      | cons r l ih => exact fun a => (ih _).trans (writeUnit_launches ..)
    exact hfold _
  · rfl

theorem mark_launches (s : State) (key n : Nat) (poison : Bool) : (s.mark key n poison).launches = s.launches := by
  cases poison
  · rfl
  · rfl

theorem notePoison_launches (s : State) (g : Galley) (poison : Bool) : (s.notePoison g poison).launches = s.launches := by
  unfold State.notePoison
  split
  · exact modHome_frame (P := State.launches) (fun _ _ => rfl) (fun _ _ => rfl) ..
  · rfl

/-- A held line that reaches a save writes the save's memory and may count as poisoned, or counts as stale. -/
theorem lineToSlot_frame {α : Type} {P : State → α} (hwrite : ∀ (t : State) tag k bs, P (t.write tag k bs) = P t)
    (hstale : ∀ (t : State) v n, P (t.staleDrop v n) = P t) (hpoison : ∀ (t : State) g b, P (t.notePoison g b) = P t)
    (s : State) (sv : Save) (l : HeldLine) : P (s.lineToSlot sv l).1 = P s := by
  unfold State.lineToSlot
  dsimp only
  generalize s.vaultKey sv.vf (sv.addr + rsOff l.key) = target
  generalize s.heldGalley l = owner
  split
  · exact hstale ..
  split
  · rfl
  cases target with
  | none =>
    cases owner with
    | none => rfl
    | some g =>
      dsimp only
      split
      · rfl
      · exact hpoison ..
  | some key =>
    cases owner with
    | none => exact hwrite ..
    | some g =>
      dsimp only
      split
      · exact hwrite ..
      · exact (hpoison ..).trans (hwrite ..)

theorem lineToSlot_launches (s : State) (sv : Save) (l : HeldLine) : (s.lineToSlot sv l).1.launches = s.launches :=
  lineToSlot_frame (P := State.launches) write_launches (fun _ _ _ => rfl) notePoison_launches s sv l

theorem modGalley_launches (s : State) (id : Nat) (f : Galley → Galley) : (s.modGalley id f).launches = s.launches := by
  unfold State.modGalley
  split
  · rfl
  · rfl

theorem lineDone_launches (s : State) (l : HeldLine) : (s.lineDone l).launches = s.launches := by
  unfold State.lineDone
  extract_lets s1
  have hs1 : s1.launches = s.launches := by
    unfold s1
    split
    · exact modGalley_launches ..
    · rfl
  split
  · exact hs1
  · exact hs1

/-- What a core that gives way to another gang's does with one of its held lines (R316). -/
def heldApplied (a : State × Save) (l : HeldLine) : State × Save :=
  ((a.1.lineToSlot a.2 l).1.lineDone l, (a.1.lineToSlot a.2 l).2)

/-- A core gives way by applying held lines, writing memory and putting back its save. -/
theorem displace_frame {α : Type} {P : State → α} (hline : ∀ (a : State × Save) l, P (heldApplied a l).1 = P a.1)
    (hwrite : ∀ (t : State) tag k bs, P (t.write tag k bs) = P t) (hsaves : ∀ (t : State) x, P { t with saves := x } = P t)
    (s : State) (c : Nat) : P (s.displace c) = P s := by
  unfold State.displace
  generalize List.range 0x80000 = offsets
  extract_lets k waits
  split
  · rfl
  · extract_lets sv0
    split
    next sv _ _ t sv1 hfold =>
    have ht : P t = P s := by
      have h := foldl_frame (P := fun a : State × Save => P a.1) (f := heldApplied) hline
        (k.held.filter (fun l => !(waits l))) (s, sv0)
      exact (congrArg (fun a : State × Save => P a.1) hfold).symm.trans h
    generalize t.vaultKey sv.vf _ = target
    refine (hsaves _ _).trans ?_
    cases target with
    | none => exact ht
    | some key => exact (hwrite ..).trans ht

theorem heldApplied_launches (a : State × Save) (l : HeldLine) : (heldApplied a l).1.launches = a.1.launches :=
  (lineDone_launches ..).trans (lineToSlot_launches ..)

theorem displace_launches (s : State) (c : Nat) : (s.displace c).launches = s.launches :=
  displace_frame (P := State.launches) heldApplied_launches write_launches (fun _ _ => rfl) s c

theorem voidCore_launches (s : State) (c : Nat) : (s.voidCore c).launches = s.launches := rfl

theorem placeCore_launches (s : State) (v : BitVec 6) (g c i n : Nat) (r : Rcb) (img : List Byte) (secs : List (Nat × List Byte))
    (param : List Byte) (bad : List Nat) : (s.placeCore v g c i n r img secs param bad).launches = s.launches :=
  (placeCore_frame (P := State.launches) mark_launches write_launches ..).trans
    ((setCore_launches ..).trans ((voidCore_launches ..).trans (displace_launches s c)))

end Sys2Proof.Machine
end

section
namespace Sys2Proof.Machine
/-! ## GANG_START (R82, R296, R299, R414) -/

theorem not_running_of_over {l : Launch} (ho : l.over = true) : l.st ≠ .running := by
  intro h
  unfold Launch.over at ho
  rw [h] at ho
  exact absurd ho (by decide)

section
variable {s : State} {id : Nat} {l : Launch} (hl : Tbl.find s.launches id = some l)
include hl

theorem execGangStart_over (ho : l.over = true) : execGangStart id s = .next s := by
  unfold execGangStart
  rw [hl]
  dsimp only
  rw [if_neg (not_running_of_over ho), if_pos ho]

/-- The first cycle of a gang of one core. -/
theorem execGangStart_first {g c : Nat} {gv : Gang} (hrun : l.st = .running) (hg : s.gangs = [(g, gv)]) (hid : gv.launch = id)
    (hc : gv.cores = [c]) (hcg : (s.core c).gang = g) :
    execGangStart id s = .next (State.after { s.modCore c (fun k => { k with live := true }) with
      gangs := Tbl.put s.gangs g { gv with sliceAt := s.now + l.rcb.sliceCycles } } l.rcb.sliceCycles (.sliceEnd g)) := by
  have hfind : s.gangs.find? (fun g => g.2.launch = id) = some (g, gv) := by
    rw [hg]
    exact List.find?_cons_of_pos (by simpa using hid)
  unfold execGangStart
  rw [hl]
  dsimp only
  rw [if_pos hrun, hfind]
  dsimp only
  rw [hc, List.foldl_cons, List.foldl_nil, if_pos hcg]

section
variable (hw : l.st = .waiting)
include hw

theorem execGangStart_waits (h : s.runnable id l = false ∨ s.chosen l = none) :
    execGangStart id s = .next (s.after 1 (.gangStart id)) := by
  unfold execGangStart
  rw [hl]
  dsimp only
  rw [if_neg (by rw [hw]; decide), if_neg (by unfold Launch.over; rw [hw]; decide)]
  split
  · rfl
  · next hr =>
    rw [h.resolve_left (by simpa using hr)]

variable {cores : List Nat} (hr : s.runnable id l = true) (hc : s.chosen l = some cores)
include hr hc

theorem execGangStart_yields (h : s.wanted (some id) none l.rcb.prio l.order cores = true) :
    execGangStart id s = .next (s.after 1 (.gangStart id)) := by
  unfold execGangStart
  rw [hl]
  dsimp only
  rw [if_neg (by rw [hw]; decide), if_neg (by unfold Launch.over; rw [hw]; decide), hr, if_neg (by decide), hc]
  exact if_pos h

/-- A launch that nobody keeps from its cores has its gang placed on them. -/
theorem execGangStart_places (h : s.wanted (some id) none l.rcb.prio l.order cores = false) :
    ∃ (t : State) (g : Gang) (c : Launch), execGangStart id s = .next t ∧ Tbl.find t.gangs s.nextGang = some g ∧
      g.vf = l.vf ∧ g.launch = id ∧ g.cores = cores ∧ g.frozen = none ∧ g.ended = [] ∧ t.nextGang = s.nextGang + 1 ∧
      Tbl.find t.launches id = some c ∧ c.st = .running := by
  unfold execGangStart
  rw [hl]
  dsimp only
  rw [if_neg (by rw [hw]; decide), if_neg (by unfold Launch.over; rw [hw]; decide), hr, if_neg (by decide), hc]
  dsimp only
  rw [h, if_neg Bool.false_ne_true]
  generalize s.faultOwner l.vf 8 id = owner
  obtain ⟨area, host⟩ := owner
  dsimp only
  generalize hs1 : List.foldl _ s cores.zipIdx = s1
  have hl1 : Tbl.find s1.launches id = some l := by
    rw [← hs1, foldl_frame (P := State.launches) (fun t c => placeCore_launches t ..)]
    exact hl
  have hmod (x : State) (hx : x.launches = s1.launches) (f : Launch → Launch) :
      x.modLaunch id f = { x with launches := Tbl.put x.launches id (f l) } := modLaunch_of_find (by rw [hx]; exact hl1) f
  rw [hmod]
  · exact ⟨_, _, { l with st := .running }, rfl, find_put .., rfl, rfl, rfl, rfl, rfl, rfl, find_put .., rfl⟩
  · rfl

end
end

/-! ## The end of kernels and launches (R82, R296) -/

theorem modGang_of_some {s : State} {g : Nat} {gv : Gang} (h : s.gang g = some gv) (f : Gang → Gang) :
    s.modGang g f = { s with gangs := Tbl.put s.gangs g (f gv) } := by
  unfold State.modGang
  rw [h]

theorem gang_modGang {s : State} {g : Nat} {gv : Gang} (h : s.gang g = some gv) (f : Gang → Gang) :
    (s.modGang g f).gang g = some (f gv) := by
  rw [modGang_of_some h]
  exact find_put ..

/-- The end of a core's kernel: with the gang's last core its launch may retire, and HALT is complete. -/
theorem execKernelEnd_ends {c : Nat} {s : State} {g : Gang} (hg : s.gang (s.core c).gang = some g) :
    ∃ o : Origin, o.core = c ∧ o.walker = .C ∧ execKernelEnd c s = .next (State.finish
      (if g.cores.all (g.ended ++ [c]).contains then
        (s.modGang (s.core c).gang (fun g => { g with ended := g.ended ++ [c] })).after 0 (.launchRetire g.launch)
      else s.modGang (s.core c).gang (fun g => { g with ended := g.ended ++ [c] })) o) := by
  refine ⟨⟨c, .C, (s.core c).wC.index, 0, (s.core c).time * 8, (s.core c).wC.steps,
    fPost (s.textWord c (s.core c).wC.index), 0⟩, rfl, rfl, ?_⟩
  unfold execKernelEnd
  dsimp only
  rw [gang_modGang hg]

theorem execLaunchRetire_over {s : State} {id : Nat} {l : Launch} (hl : Tbl.find s.launches id = some l) (ho : l.over = true) :
    execLaunchRetire id s = .next s := by
  unfold execLaunchRetire
  rw [hl]
  exact if_pos ho

section
variable {s : State} {id g : Nat} {l : Launch} {gv : Gang} (hl : Tbl.find s.launches id = some l) (ho : l.over = false)
  (hg : s.gangs = [(g, gv)]) (hid : gv.launch = id) (he : gv.cores.all gv.ended.contains = true)
include hl ho hg hid he

theorem execLaunchRetire_ended : execLaunchRetire id s =
    if gv.frozen.isSome || s.coalescer.any (fun e => !e.2.host && e.2.owners.any (fun w => gv.cores.contains w.1)) then
      .next (s.after 1 (.launchRetire id))
    else .next ((s.releaseGang g).endLaunch id .retired) := by
  have hfind : s.gangs.find? (fun g => g.2.launch = id) = some (g, gv) := by
    rw [hg]
    exact List.find?_cons_of_pos (by simpa using hid)
  unfold execLaunchRetire
  rw [hl]
  dsimp only
  rw [ho, if_neg Bool.false_ne_true, hfind]
  dsimp only
  rw [he, if_neg (by decide)]

end

/-- A launch that no node lists and no LAUNCH made is over: its queue counts it. -/
theorem endLaunch_root {s : State} {id : Nat} {l : Launch} (st : LaunchSt) (hl : Tbl.find s.launches id = some l)
    (hn : l.listed = false) (hb : l.byGang = none) : s.endLaunch id st =
      (s.modLaunch id (fun l => { l with st := st })).modVf l.vf.toNat (fun f => { f with retired := bump f.retired l.queue }) := by
  unfold State.endLaunch
  rw [hl]
  dsimp only
  rw [hn, if_neg Bool.false_ne_true]
  unfold State.wakeWaiters
  rw [hb]
  rfl

/-! ## GRAPH_CHILD_START (R291, R293, R295, R301) -/

section
variable {s : State} {id p : Nat} {l u : Launch} (hp : l.parent = some p) (hu : Tbl.find s.launches p = some u)
include hp hu

theorem parentBlock_eq : ((l.parent.bind (Tbl.find s.launches)).map (fun p => p.rcb)).getD l.rcb = u.rcb := by
  rw [hp, Option.bind_some, hu]
  rfl

theorem acceptChild_refused {e : Nat} (hb : s.readRcb l.vf l.addr u.rcb l.depth false = .error e) : s.acceptChild id l =
    (s.modLaunch id (fun l => { l with st := .refused })).after 0 (.graphChildStart p) := by
  unfold State.acceptChild
  dsimp only
  rw [parentBlock_eq hp hu, hb, hp]

/-- A listed child after its acceptance (R292, R301). -/
def Launch.childIn (l : Launch) (s : State) (r : Rcb) : Launch :=
  { l with rcb := r, patch := if rcbOvr (s.vaultBytes l.vf l.addr 256) 3 then none else l.patch, order := s.nextLaunch
           ready := s.now }

theorem acceptChild_accepted {r : Rcb} (hb : s.readRcb l.vf l.addr u.rcb l.depth false = .ok r) : s.acceptChild id l =
    if s.thirdReplay l.vf l.addr r then s.after 1 (.graphChildStart id)
    else State.after { s with launches := Tbl.put s.launches id (l.childIn s r), nextLaunch := s.nextLaunch + 1 } 0
      ((l.childIn s r).begin id) := by
  unfold State.acceptChild
  dsimp only
  rw [parentBlock_eq hp hu, hb]
  rfl

end

section
variable {s : State} {id : Nat} {l : Launch} (hl : Tbl.find s.launches id = some l)
include hl

theorem execGraphChildStart_over (ho : l.over = true) : execGraphChildStart id s = .next s := by
  unfold execGraphChildStart
  rw [hl]
  exact if_pos ho

/-- A listed child is accepted before anything else, where its VF is scheduled. -/
theorem execGraphChildStart_child (ho : l.over = false) (hn : l.listed = true) (h0 : l.order = 0) : execGraphChildStart id s =
    .next (if s.scheduled l.vf then s.acceptChild id l else s.after 1 (.graphChildStart id)) := by
  unfold execGraphChildStart
  rw [hl]
  dsimp only
  rw [ho, if_neg Bool.false_ne_true, hn, if_pos (by simpa using h0)]

/-- A graph that runs starts its next child once no other is open, and retires with none left. -/
theorem execGraphChildStart_graph (hrun : l.st = .running) (hk : l.rcb.kind = 3) (hn : l.listed = false ∨ l.order ≠ 0) :
    execGraphChildStart id s = .next (if s.openChildren id then s
      else (l.rcb.listed[l.nextChild]?).elim (s.after 0 (.launchRetire id)) (fun a =>
        (s.modLaunch id (fun l => { l with st := .running, nextChild := l.nextChild + 1 })).startChild id l a)) := by
  have hlisted : (l.listed && decide (l.order = 0)) = false := by
    rcases hn with h | h <;> simp [h]
  unfold execGraphChildStart
  rw [hl]
  dsimp only
  rw [if_neg (by unfold Launch.over; rw [hrun]; decide), hlisted, if_neg Bool.false_ne_true,
    if_neg (by rw [hrun]; simp), if_neg (by rw [hk]; decide)]
  split
  · rfl
  · split
    · next h => rw [h]; rfl
    · next h => rw [h]; rfl

end

end Sys2Proof.Machine
end

section
namespace Sys2Proof.Machine

/-! ## The obligation about launches (R294 to R301, R395, R414) -/

/-- Settles O54, each event by the lemmas about it. -/
theorem launchEvents : Obligations.LaunchEvents := by
  unfold Obligations.LaunchEvents
  refine ⟨?_, ?_, ?_, ?_, ?_, ?_, ?_, ?_, ?_, ?_, ?_, ?_⟩
  · intro v x s hc
    refine ⟨fun hfull => execKick_drops hc (decide_eq_true hfull), fun hroom => ?_⟩
    exact ⟨_, _, execKick_joins hc (decide_eq_false (Nat.not_le.2 hroom)), rings_joinRing .., rfl, rfl, rfl, rfl, rfl, rfl⟩
  · exact fun v off x s hs => execRegisterWrite_unserved hs
  · exact fun v x s hs => ⟨execRegisterWrite_kick hs, fun q hq => execRegisterWrite_binds hs hq⟩
  · intro v q s
    refine ⟨execKickAccept_empty, fun k l hr => ⟨execKickAccept_waits hr, fun hs hq ht => ⟨?_, ?_, ?_⟩, ?_, ?_, ?_, ?_, ?_⟩⟩
    · exact fun e hb => execKickAccept_bad hr hs hq ht hb
    · exact fun r hb h3 => (execKickAccept_reads hr hs hq ht hb).trans (by rw [if_pos h3])
    · exact fun r hb h3 => (execKickAccept_reads hr hs hq ht hb).trans (by rw [h3, if_neg Bool.false_ne_true])
    · intro due ro patch hs hq ht
      refine ⟨execKickAccept_checks hr hs hq ht, fun ho hd => execKickAccept_refuses hr hs hq ht hd ho,
        fun r ho hd h3 => ⟨?_, ?_, ?_, ?_⟩⟩
      · exact fun hpv hpatch hk => execKickAccept_unmapped hr hs hq ht hd ho h3 hpv hpatch hk
      · exact fun b hpv hpatch hk => execKickAccept_copies hr hs hq ht hd ho h3 hpv hpatch hk
      · intro hp hk
        obtain ⟨hfind, hrings, hacc, hagenda⟩ := acceptedAs_spec hr s.nextLaunch (s.freshLaunch v q k r patch)
        refine ⟨_, s.freshLaunch v q k r patch, (execKickAccept_accepts hr hs hq ht hd ho h3 hp).trans
          (congrArg Host.Outcome.next (acceptKick_kick hk)), hfind, rfl, rfl, rfl, rfl, rfl, rfl, rfl, rfl, rfl, rfl, hrings, hacc,
          rfl, hagenda⟩
      · intro id c0 hp hk hc
        obtain ⟨hfind, hrings, hacc, hagenda⟩ := acceptedAs_spec hr id (c0.acceptedIn s v r patch)
        exact ⟨_, c0.acceptedIn s v r patch, (execKickAccept_accepts hr hs hq ht hd ho h3 hp).trans
          (congrArg Host.Outcome.next (acceptKick_launch hk hc)), hfind, rfl, rfl, rfl, rfl, rfl, rfl, rfl, hrings, hacc, rfl,
          hagenda⟩
    · exact fun ro patch d => ⟨rings_takeKick hr ro patch d, rfl, rfl⟩
    · exact (rings_refuseKick s v q k).trans (by rw [hr]; rfl)
    · intro hk
      refine ⟨?_, fun h => (kickBlock_kick hk).trans (if_pos h), fun hb h0 => (kickBlock_kick hk).trans (if_neg ?_)⟩
      · rw [refuseKick_kick hk, vf_countRefused, vf_popRing]
      · rw [hb]
        exact fun h => h.elim Bool.false_ne_true h0
    · intro id c hk hc
      refine ⟨?_, fun e => find_noteReason hk hc, fun p pl hp hpl => kickBlock_launch hk hc hp hpl⟩
      rw [refuseKick_launch hk hc, wakeWaiters_launches]
      exact find_modLaunch (s := s.popRing v q) hc _
  · intro id s l hl
    refine ⟨fun ho => ⟨execGangStart_over hl ho, execLaunchRetire_over hl ho, execGraphChildStart_over hl ho⟩,
      execGangStart_waits hl, fun cores hw hr hc => ⟨execGangStart_yields hl hw hr hc, execGangStart_places hl hw hr hc⟩, ?_⟩
    intro g gv hrun hg hid c hc hcg
    have hlive : ((s.modCore c (fun k => { k with live := true })).core c).live = true := by rw [core_modCore]
    have hx : ((s.modCore c (fun k => { k with live := true })).core c).x = (s.core c).x := by rw [core_modCore]
    exact ⟨_, execGangStart_first hl hrun hg hid hc hcg, hlive, hx, rfl, rfl⟩
  · exact fun s l cores h => chosen_spec h
  · intro s v g c i n r img param secs bad
    have h := atStart_placeCore s v g c i n r img secs param bad
    simp only [Core.atStart, Prod.mk.injEq] at h
    obtain ⟨hx, hwords, hbase, hgang, hvf, hlive, hC, hV, hstack, hstep⟩ := h
    exact ⟨hx, hwords, hbase, hgang, hvf, hlive, congrArg WalkerSt.st hC, congrArg WalkerSt.index hC, congrArg WalkerSt.st hV,
      hstack, hstep⟩
  · intro c s g hg
    obtain ⟨o, hc, hw, he⟩ := execKernelEnd_ends hg
    refine ⟨fun hall => ⟨o, hc, hw, he.trans ?_⟩, fun hall => ⟨o, hc, hw, he.trans ?_⟩⟩
    · rw [hall, if_neg Bool.false_ne_true]
    · rw [if_pos hall]
  · intro id g s l gv hl ho hg hid hall
    have he := execLaunchRetire_ended hl ho hg hid hall
    refine ⟨fun hf => he.trans (if_pos ?_), fun hf hcoal => he.trans (if_neg ?_)⟩
    · rw [Option.isSome_iff_ne_none.2 hf, Bool.true_or]
    · rw [hf, hcoal]
      exact Bool.false_ne_true
  · intro id st s l hl hn hb
    rw [endLaunch_root st hl hn hb]
    refine ⟨find_modLaunch hl _, ?_⟩
    rw [vf_modVf, vf_modLaunch]
  · intro id s l hl ho hn h0
    have he := execGraphChildStart_child hl ho hn h0
    refine ⟨fun hs => he.trans (by rw [hs, if_neg Bool.false_ne_true]), fun p u hs hp hu => ?_⟩
    rw [hs, if_pos rfl] at he
    refine ⟨fun e hb => he.trans (by rw [acceptChild_refused hp hu hb]), fun r hb => ?_⟩
    rw [acceptChild_accepted hp hu hb] at he
    refine ⟨fun h3 => he.trans (by rw [if_pos h3]), fun h3 => ?_⟩
    rw [h3, if_neg Bool.false_ne_true] at he
    exact ⟨_, l.childIn s r, he, find_put .., rfl, rfl, rfl, hp, rfl, rfl, rfl⟩
  · intro id s l hl hrun hk hn
    have he := execGraphChildStart_graph hl hrun hk hn
    refine ⟨fun ho => he.trans (by rw [if_pos ho]), fun ho => ?_⟩
    rw [ho, if_neg Bool.false_ne_true] at he
    exact ⟨fun hnone => he.trans (by rw [hnone]; rfl), fun a ha => he.trans (by rw [ha]; rfl)⟩

end Sys2Proof.Machine
end

section
namespace Sys2Proof.Machine

/-! ## A save's answer that posts into the gang it saved (R19, R318, R328)

The statement lets the origin of the FRZ that SAVE_WRITTEN answers stand on a core of the frozen gang and lets that core run. Its
post can then take a SEM trap, whose record the same step puts into the owner's fault area, while the statement ends with the
answer. FRZ comes from a management core, so no run reaches this; the statement's premises do not say so. -/

/-- Gang 1 of core 0, frozen by its owner; the core still runs, with semaphore 1 at its limit. -/
def postIntoFrozenGang : State :=
  { State.reset with
    cores := [(0, { Core.reset with gang := 1, sems := [(1, ⟨⟨false, 0, 1⟩, 255⟩)] })]
    gangs := [(1, {
      vf := 0, gen := 1, launch := 0, cores := [0], frozen := some .owner, saved := false, area := 0, areaHost := false,
      ended := [], closing := false, phase := none, sliceAt := 0, level := 0, nextLevel := 0, order := 0, records := [],
      thaw := [] })] }

/-- A word of core 0 that posts to semaphore 1. -/
def postingOrigin : Origin := { core := 0, walker := .C, index := 0, rep := 0, age := 0, steps := 0, post := 1, post2 := 0 }

/-- How many trap records of gang 1 wait for the fault area after a step. -/
def recordsAfter : Host.Outcome State Fault Refusal → Nat
  | .next t => (t.gang 1).elim 0 (fun v => v.records.length)
  | _ => 0

/-- Refutes O55: the answer of the owner's FRZ posts to a full semaphore of a running core of gang 1; the model puts the
record of that trap, the statement leaves it waiting. -/
theorem not_gangEvents : ¬ Obligations.GangEvents := by
  unfold Obligations.GangEvents
  rintro ⟨-, -, -, hsaved, -⟩
  obtain ⟨gv, hgang, hfrozen, hidle, hrecords⟩ : ∃ gv, postIntoFrozenGang.gang 1 = some gv ∧ gv.frozen ≠ none ∧
      (∀ c ∈ gv.cores, (postIntoFrozenGang.home 1 c).wordsOut = false) ∧ gv.records = [] :=
    ⟨_, rfl, by decide, by decide, rfl⟩
  obtain ⟨-, hstated⟩ := (hsaved 1 .owner postingOrigin (.x 0) postIntoFrozenGang gv hgang hfrozen).2 hidle hrecords
  have hmodel : recordsAfter (exec (.saveWritten 1 .owner postingOrigin (.x 0)) postIntoFrozenGang) = 0 := by decide +kernel
  have hone : recordsAfter (.next ((postIntoFrozenGang.saveNow 1).privDone postingOrigin (.x 0) 0)) = 1 := by decide +kernel
  rw [hstated, hone] at hmodel
  exact absurd hmodel (by decide)

end Sys2Proof.Machine
end

section
namespace Sys2Proof.Machine

/-! ## MGO on a port that is armed (R26, R126, R136)

MGO reads the descriptor of an armed port that is its A source, and so asks for the descriptor's bank as it issues. The statement
asks for the descriptor's granules alone. In a cycle that has granted the bank already MGO loses it and its nest does not start;
in a cycle where the bank is free MGO leaves it granted, which the statement's next state does not show. -/

/-- A port descriptor: one block of BF16 elements at offset 0, its rows 128 bytes apart (R127). -/
def oneBlockDesc : List Byte :=
  leBytes 8 0 ++ [2, 0, 0, 0] ++ leBytes 4 128 ++ (List.replicate 4 (leBytes 4 1)).flatten ++ zeros 32

/-- Core 0 with its matrix walker at work, its text in the first 600 bytes of register space, and a nest set up from port 0 and
view 0 into a0. The cycle has granted bank 24, that of port 0's descriptor. -/
def takenDescBank : State :=
  { State.reset with
    cores := [(0, { Core.reset with
      live := true, words := 100, wM := { WalkerSt.start with st := .running }, views := [(0, ⟨2, 4⟩)], aviews := [(0, ⟨1, 8⟩)]
      shadow := { NestCfg.reset with asrc := some (.port 0), bsrc := some (.view 0) }, claimed := 1#32 <<< 24 })]
    vfs := [(0, { Vf.reset with created := true })]
    mem := memWrite [] (keyRS 0 (portDesc 0)) oneBlockDesc
    tags := [(keyRS 0 (portDesc 0), ⟨false, 0, 1⟩)] }

/-- Whether core 0 has a nest after a step. -/
def nestAfter : Host.Outcome State Fault Refusal → Bool
  | .next t => (t.core 0).nest.isSome
  | _ => false

/-- The checks of R136 pass there: the nest may be started. -/
theorem takenDescBank_nestOf : ∃ n, nestOf takenDescBank (takenDescBank.word .M ⟨0, 0⟩) false = .ok n := by
  have h : (nestOf takenDescBank (takenDescBank.word .M ⟨0, 0⟩) false).toBool = true := by decide +kernel
  cases hn : nestOf takenDescBank (takenDescBank.word .M ⟨0, 0⟩) false with
  | ok n => exact ⟨n, rfl⟩
  | error cls => rw [hn] at h; exact absurd h Bool.false_ne_true

/-- Refutes O41: the checks of MGO pass and give a nest, but its port's descriptor lies in a bank that the cycle has granted. The
model's core has no nest after the step, the statement's has one. -/
theorem not_matrixWordsStart : ¬ Obligations.MatrixWordsStart := by
  unfold Obligations.MatrixWordsStart
  rintro ⟨hmgo, -⟩
  obtain ⟨n, hn⟩ := takenDescBank_nestOf
  have hissue : takenDescBank.mayIssue .M 0 := ⟨rfl, by decide, rfl, rfl, by decide, .inl rfl⟩
  have hfull : takenDescBank.full 0 (portDesc 0) 64 = true := rfl
  obtain ⟨hstarts, -⟩ := hmgo ⟨0, 0⟩ false takenDescBank hissue rfl rfl (by rintro p ⟨⟩ -; exact hfull)
  obtain ⟨hstated, -⟩ := hstarts n hn
  have hnest : nestAfter (exec (.mgo ⟨0, 0⟩ false) takenDescBank) = true := by rw [hstated]; rfl
  have hmodel : nestAfter (exec (.mgo ⟨0, 0⟩ false) takenDescBank) = false := by decide +kernel
  exact absurd (hnest.symm.trans hmodel) (by decide)

end Sys2Proof.Machine
end

section
namespace Sys2Proof.Machine

/-! ## The landing of MZERO goes through the fixed port (R125, R149)

MZERO's bytes are written as those of a vector result are: until the cycle ends the core keeps the run that was written and the
rank of its word, so that of two words which write a byte in one cycle the later in R125's order has it. The statement writes
the tile and completes the word, and leaves no such record. -/

/-- An MZERO of core 0 on a tile at offset 0x10000 whose 8 cycles end in cycle 0. -/
def landingMzero : MatWait :=
  { o := ⟨0, .M, 0, 0, 0, 0, 0, 0⟩, tile := 0x10000, op := .zero, lands := some 0 }

/-- Core 0 with that word alone on its tiles. -/
def mzeroLanding : State :=
  { State.reset with cores := [(0, { Core.reset with
      live := true, words := 100, wM := { WalkerSt.start with st := .running, pend := 1 }, matq := [landingMzero] })] }

/-- The runs written through the fixed port of core 0 in this cycle, after a step. -/
def fixedRunsAfter : Host.Outcome State Fault Refusal → List (Nat × Nat)
  | .next t => (t.core 0).fixedNow.map (fun e => (e.1, e.2.1))
  | _ => []

/-- Refutes O43: where MZERO lands, the model's core has the tile among the runs written through the fixed port in the cycle, the
statement's has none. -/
theorem not_mzeroRule : ¬ Obligations.MzeroRule := by
  unfold Obligations.MzeroRule
  rintro ⟨-, -, -, -, hwaits⟩
  obtain ⟨-, hlands⟩ := hwaits mzeroLanding 0 landingMzero rfl rfl rfl rfl rfl
  have hstated := hlands 0 rfl (by decide)
  have hmodel : fixedRunsAfter (exec (.bankArbitration 0 [⟨landingMzero.o.age, 0⟩]) mzeroLanding) = [(keyRS 0 0x10000, 0x2A00)] := by
    decide +kernel
  have hnone : fixedRunsAfter (.next (((mzeroLanding.modCore 0 (fun k => { k with matq := [] })).putTile 0 landingMzero.tile
      ((mzeroLanding.tile 0 landingMzero.tile).map MatOp.zero.row)).finish landingMzero.o)) = [] := by
    decide +kernel
  rw [hstated, hnone] at hmodel
  exact absurd hmodel (by decide)

end Sys2Proof.Machine
end

section
namespace Sys2Proof.Machine

/-! ## Integer results and their SATURATE bit (R162, R168) -/

/-- Equal bits raised element by element come together as one bit. -/
theorem orFlags_flagIf {n : Nat} {α : Type} (p : α → Bool) (f : BitVec n) (l : List α) :
    orFlags (l.map (fun x => flagIf (p x) f)) = flagIf (l.any p) f := by
  have hfold (acc : Bool) : (l.map (fun x => flagIf (p x) f)).foldl (· ||| ·) (flagIf acc f) = flagIf (acc || l.any p) f := by
    induction l generalizing acc with
    | nil => simp
    | cons x l ih =>
      have hor : flagIf acc f ||| flagIf (p x) f = flagIf (acc || p x) f := by cases acc <;> cases p x <;> simp [flagIf]
      rw [List.map_cons, List.foldl_cons, hor, ih, List.any_cons, Bool.or_assoc]
  exact hfold false

theorem lowBits_cast (w : Nat) (x : Int) : (lowBits w x : Int) = x % 2 ^ w :=
  Int.toNat_of_nonneg (Int.emod_nonneg x (by positivity))

theorem intResult_fst (f : Byte) (sat : Bool) (x : Int) :
    (intResult f sat x).1 = lowBits (intBits f) (if sat then clampInt (intBits f) x else x) := by
  cases sat <;> rfl

theorem intResult_snd (f : Byte) (sat : Bool) (x : Int) :
    (intResult f sat x).2 = flagIf (sat && decide (clampInt (intBits f) x ≠ x)) vSaturate := by
  cases sat <;> rfl

/-- The elements of a view whose exact integer results are z, with the status bits of the word. -/
def intElements (f : Byte) (sat : Bool) (z : Nat → Int) : List Nat × BitVec 7 :=
  gather ((List.range 1024).map (fun n => intResult f sat (z n)))

section
variable {f : Byte} {sat : Bool} {z : Nat → Int}

theorem intElements_congr {z' : Nat → Int} (h : ∀ n, n < 1024 → z n = z' n) : intElements f sat z = intElements f sat z' :=
  congrArg gather (List.map_congr_left fun n hn => by rw [h n (List.mem_range.mp hn)])

theorem intElements_getD {n : Nat} (hn : n < 1024) :
    (intElements f sat z).1.getD n 0 = lowBits (intBits f) (if sat then clampInt (intBits f) (z n) else z n) := by
  simp [intElements, gather, intResult_fst, hn]

theorem intElements_wrap {n : Nat} (hn : n < 1024) :
    ((intElements f false z).1.getD n 0 : Int) % 2 ^ intBits f = z n % 2 ^ intBits f := by
  rw [intElements_getD hn, lowBits_cast, Int.emod_emod_of_dvd _ dvd_rfl]
  rfl

/-- SATURATE stands for the word when .SAT has changed some element. -/
theorem intElements_flags :
    (intElements f sat z).2 =
      flagIf ((List.range 1024).any (fun n => sat && decide (clampInt (intBits f) (z n) ≠ z n))) vSaturate := by
  simp only [intElements, gather, List.map_map, Function.comp_def, intResult_snd, orFlags_flagIf]

theorem intElements_not_saturated (h : sat = true → ∀ n, n < 1024 → clampInt (intBits f) (z n) = z n) :
    (intElements f sat z).2 = 0 := by
  have hnone : (List.range 1024).any (fun n => sat && decide (clampInt (intBits f) (z n) ≠ z n)) = false := by
    rw [List.any_eq_false]
    intro n hn hclamped
    rw [Bool.and_eq_true, decide_eq_true_eq] at hclamped
    exact hclamped.2 (h hclamped.1 n (List.mem_range.mp hn))
  rw [intElements_flags, hnone]
  rfl

theorem intElements_saturated {n : Nat} (hsat : sat = true) (hn : n < 1024) (hz : clampInt (intBits f) (z n) ≠ z n) :
    (intElements f sat z).2 = vSaturate := by
  have hsome : (List.range 1024).any (fun n => sat && decide (clampInt (intBits f) (z n) ≠ z n)) = true :=
    List.any_eq_true.mpr ⟨n, List.mem_range.mpr hn, by rw [hsat, decide_eq_true hz]; rfl⟩
  rw [intElements_flags, hsome]
  rfl

end

/-! ## VADD, VSUB and VMUL on integer views (R160, R170) -/

/-- The exact integer that element n of a word's result comes from: a's element with b's, or with the scalar of .X. -/
def exactInt (op : Int → Int → Int) (f : Byte) (bx : Bool) (x : Word) (as bs : List Nat) (n : Nat) : Int :=
  op (signedOf (intBits f) (as.getD n 0)) (signedOf (intBits f) (if bx then x.toNat % 2 ^ intBits f else bs.getD n 0))

/-- Elements of two lists, and zero for a third operand, taken by their places. -/
theorem zipWith_zip_replicate {α : Type} {k : Nat} {as bs : List Nat} (ha : as.length = k) (hb : bs.length = k)
    (g : Nat × Nat → Nat → α) :
    List.zipWith g (as.zip bs) (List.replicate k 0) = (List.range k).map (fun n => g (as.getD n 0, bs.getD n 0) 0) := by
  refine List.ext_getElem (by simp [ha, hb]) fun n hn hn' => ?_
  have hn : n < k := by simpa using hn'
  simp [ha, hb, hn]

/-- The element arithmetic on views of one integer format takes element n of each. -/
theorem arith_int {f : Byte} (hf : f = 5 ∨ f = 6) (opF : Val → Val → Val → Val × Bool) (op : Int → Int → Int) (rnd : Rnd)
    (sat : Bool) {as bs : List Nat} (ha : as.length = 1024) (hb : bs.length = 1024) :
    arith opF (fun p q _ => op p q) false rnd sat f f f as bs [] =
      intElements f sat (fun n => op (signedOf (intBits f) (as.getD n 0)) (signedOf (intBits f) (bs.getD n 0))) := by
  have hint : isFloat f = false := by rcases hf with rfl | rfl <;> rfl
  unfold arith intElements
  rw [List.isEmpty_nil, if_pos rfl, zipWith_zip_replicate ha hb]
  simp only [hint, Bool.false_eq_true, if_false, elemInt]

section
variable {h : Hdr} {cost lat : Nat} {d a b : Name} {te : Te} {readD : Bool} {chk : Byte → Byte → Byte → Bool} {x : Word}
  {g : Byte → Byte → Byte → List Nat → List Nat → List Nat → List Nat × BitVec 7} {fd : Byte} {old : List Nat} {sa sb : Source}

theorem spec2_views :
    (spec2 h cost lat d a b te false readD chk g).f x fd old [sa, sb] = g fd sa.fmt sb.fmt sa.elems sb.elems old := rfl

theorem spec2_scalar :
    (spec2 h cost lat d a b te true readD chk g).f x fd old [sa] =
      g fd sa.fmt sa.fmt sa.elems (List.replicate 1024 (x.toNat % 2 ^ (8 * fmtSize sa.fmt))) old := rfl

/-- A two-source integer word makes its exact integers into elements. -/
theorem spec2_arith_int {f : Byte} (hf : f = 5 ∨ f = 6) {bx sat : Bool} {opF : Val → Val → Val → Val × Bool}
    {op : Int → Int → Int} {rnd : Rnd} (hfa : sa.fmt = f) (hfb : sb.fmt = f) (ha : sa.elems.length = 1024)
    (hb : sb.elems.length = 1024) :
    (spec2 h cost lat d a b te bx false chk (arith opF (fun p q _ => op p q) false rnd sat)).f x f []
      (if bx then [sa] else [sa, sb]) = intElements f sat (exactInt op f bx x sa.elems sb.elems) := by
  cases bx with
  | false =>
    rw [if_neg Bool.false_ne_true, spec2_views, hfa, hfb, arith_int hf opF op rnd sat ha hb]
    exact intElements_congr fun n _ => rfl
  | true =>
    have hbits : 8 * fmtSize f = intBits f := by rcases hf with rfl | rfl <;> rfl
    rw [if_pos rfl, spec2_scalar, hfa, hbits, arith_int hf opF op rnd sat ha List.length_replicate]
    refine intElements_congr fun n hn => ?_
    rw [List.getD_replicate _ hn]
    rfl

end

/-- VADD, VSUB and VMUL are such words. -/
theorem elementWord_int {i : Instr} {h : Hdr} {te : Te} {bx sat : Bool} {rnd : Rnd} {d a b : Name} {op : Int → Int → Int}
    {v : ViewSpec} (hi : i = .vadd h te bx sat rnd d a b ∧ op = (fun p q => p + q) ∨
      i = .vsub h te bx sat rnd d a b ∧ op = (fun p q => p - q) ∨ i = .vmul h te bx sat rnd d a b ∧ op = (fun p q => p * q))
    (hv : elementWord i = some v) :
    ∃ opF, v = spec2 h 4 6 d a b te bx false sameClass (arith opF (fun p q _ => op p q) false rnd sat) := by
  rcases hi with ⟨rfl, rfl⟩ | ⟨rfl, rfl⟩ | ⟨rfl, rfl⟩ <;> exact ⟨_, (Option.some.inj hv).symm⟩

/-! ## Rotations and broadcasts (R183) -/

/-- A moving word's element (i, j) is the source's at the place that its amount gives. -/
theorem specMove_getD {h : Hdr} {cost lat : Nat} {d a : Name} {tea : Bool} {m : BitVec 6} {limit : Nat}
    {place : Nat → Nat → Nat → Nat × Nat} {x : Word} {fmt : Byte} {old : List Nat} {src : Source} {i j : Nat}
    (hi : i < 16) (hj : j < 64) :
    ((specMove h cost lat d a tea (.val m) limit place).f x fmt old [src]).1.getD (64 * i + j) 0 =
      src.elems.getD (64 * (place m.toNat i j).1 + (place m.toNat i j).2) 0 := by
  have hn : 64 * i + j < 1024 := by omega
  have hrow : (64 * i + j) / 64 = i := by omega
  have hcol : (64 * i + j) % 64 = j := by omega
  simp [specMove, spec1, amountOf, hn, hrow, hcol]

/-- Settles O36: VADD, VSUB and VMUL make exact integers into elements, which wrap or clamp; each moving word gives its place. -/
theorem integerElements : Obligations.IntegerElements := by
  unfold Obligations.IntegerElements
  refine ⟨?_, ?_⟩
  · intro i h te bx sat rnd d a b op v x f sa sb hi hv hf hfa hfb ha hb
    obtain ⟨opF, rfl⟩ := elementWord_int hi hv
    rw [spec2_arith_int hf hfa hfb ha hb]
    refine ⟨fun n hn => intElements_getD hn, fun n hn hs => ?_, fun hs => intElements_not_saturated fun ht => ?_,
      fun hfit => intElements_not_saturated fun _ => hfit, fun hs ⟨n, hn, hz⟩ => intElements_saturated hs hn hz⟩
    · subst hs
      exact intElements_wrap hn
    · exact absurd (ht.symm.trans hs) (by decide)
  · intro h tea d a m v x fmt old src i j hi hj _
    exact ⟨fun hv => Option.some.inj hv ▸ specMove_getD hi hj, fun hv _ => Option.some.inj hv ▸ specMove_getD hi hj,
      fun hv => Option.some.inj hv ▸ specMove_getD hi hj, fun hv _ => Option.some.inj hv ▸ specMove_getD hi hj⟩

end Sys2Proof.Machine
end

section
namespace Sys2Proof.Machine

/-! ## An atomic at its target's write queue (R248 to R251) -/

/-- The model's choice by the smaller or the greater of two numbers is the least and the greatest of R249. -/
theorem atomNew_eq_atomRule (op : AtomOp) (n : Nat) (uns : Bool) (old v expected : Nat) :
    atomNew op n uns old v expected = atomRule op n uns old v expected := by
  cases op
  case min =>
    cases uns
    · simp [atomNew, atomRule]
    · simp only [atomNew, if_true, decide_eq_true_eq]
      exact ((min_comm old v).trans (min_def_lt v old)).symm
  case max =>
    cases uns
    · simp [atomNew, atomRule]
    · simp only [atomNew, if_true, decide_eq_true_eq]
      exact (max_def_lt old v).symm
  all_goals rfl

section
variable {s : State} {req : AtomicReq}

theorem atomicAt_stale (hg : s.gen req.vf ≠ req.gen) : s.atomicAt req = (s.staleDrop req.vf 1, 0) := if_pos hg

theorem atomicAt_bad (hg : s.gen req.vf = req.gen)
    (hb : s.anyBad ⟨false, req.vf, req.gen⟩ req.key (if req.dbl then 8 else 4) = true) :
    s.atomicAt req = (s.vaultError (markOf req.key), 0) :=
  (if_neg (not_not_intro hg)).trans (if_pos hb)

theorem atomicAt_current {n old : Nat} {tag : Tag} (hg : s.gen req.vf = req.gen) (hn : n = if req.dbl then 8 else 4)
    (ht : tag = ⟨false, req.vf, req.gen⟩) (ho : old = leNat (s.read tag req.key n)) (hb : s.anyBad tag req.key n = false) :
    s.atomicAt req = ((s.writeUser tag req.key (leBytes n (atomRule req.op n req.uns old
      (req.opnd.toNat % 2 ^ (8 * n)) (req.expected.toNat % 2 ^ (8 * n))))).noteAction req.key n, old) := by
  subst hn ht ho
  unfold State.atomicAt
  dsimp only
  rw [if_neg (not_not_intro hg), hb, if_neg Bool.false_ne_true, atomNew_eq_atomRule]

end

section
variable {o : Origin} {req : AtomicReq} {d : Name} {rem : Nat} {s : State}

/-- An atomic before which no lower core's is due at its line acts (R250). -/
theorem execAtomicAtWriteQueue_acts (hfirst : ∀ e ∈ s.agenda, e.1 ≤ s.now → ∀ o' r d' m,
      e.2 = .atomicAtWriteQueue o' r d' m → o'.core < o.core → r.key / 64 ≠ req.key / 64)
    {t : State} {old : Nat} (hact : s.atomicAt req = (t, old)) :
    execAtomicAtWriteQueue o req d rem s =
      .next ((t.popAway o).later o.core rem (.atomicResultLands o d (BitVec.ofNat 64 old))) := by
  unfold execAtomicAtWriteQueue
  rw [if_neg, hact]
  intro hlower
  obtain ⟨⟨due, i⟩, he, hi⟩ := List.any_eq_true.1 hlower
  obtain ⟨hdue, hi⟩ := (Bool.and_eq_true ..).mp hi
  dsimp only at hi
  split at hi
  · obtain ⟨hcore, hline⟩ := (Bool.and_eq_true ..).mp hi
    exact hfirst _ he (of_decide_eq_true hdue) _ _ _ _ rfl (of_decide_eq_true hcore) (of_decide_eq_true hline)
  · exact Bool.false_ne_true hi

theorem execAtomicAtWriteQueue_yields {p : Origin} {r : AtomicReq} {d' : Name} {m due : Nat}
    (hmem : (due, Instr.atomicAtWriteQueue p r d' m) ∈ s.agenda) (hdue : due ≤ s.now) (hcore : p.core < o.core)
    (hline : r.key / 64 = req.key / 64) :
    execAtomicAtWriteQueue o req d rem s = .next (s.after 0 (.atomicAtWriteQueue o req d rem)) :=
  if_pos (List.any_eq_true.2 ⟨_, hmem, by simp [hdue, hcore, hline]⟩)

end

/-- Settles O25: what acts is one of the three outcomes of `State.atomicAt`, and a lower core's atomic at the line goes first. -/
theorem atomicActs : Obligations.AtomicActs := by
  unfold Obligations.AtomicActs
  refine ⟨?_, ?_, ?_, ?_⟩
  · exact fun o req d rem s hfirst hgen hbad => execAtomicAtWriteQueue_acts hfirst (atomicAt_current hgen rfl rfl rfl hbad)
  · exact fun o req d rem s hfirst hgen => execAtomicAtWriteQueue_acts hfirst (atomicAt_stale hgen)
  · exact fun o p req r d d' rem m t s hmem hdue hcore hline => execAtomicAtWriteQueue_yields hmem hdue hcore hline
  · exact fun o req d rem s hfirst hgen hbad => execAtomicAtWriteQueue_acts hfirst (atomicAt_bad hgen hbad)

end Sys2Proof.Machine
end

section
namespace Sys2Proof.Machine

/-! ## What the registration of a galley leaves alone (R206) -/

/-- A state after changes that leave the galleys, the time and the x registers, and take no event of the module away. -/
structure State.KeepsGalleys (s t : State) : Prop where
  galleys : t.galleys = s.galleys
  nextGalley : t.nextGalley = s.nextGalley
  now : t.now = s.now
  agenda : ∀ e ∈ s.agenda, e ∈ t.agenda
  x : ∀ c, (t.core c).x = (s.core c).x

theorem State.KeepsGalleys.refl (s : State) : s.KeepsGalleys s := ⟨rfl, rfl, rfl, fun _ h => h, fun _ => rfl⟩

theorem State.KeepsGalleys.trans {s t u : State} (h : s.KeepsGalleys t) (h' : t.KeepsGalleys u) : s.KeepsGalleys u :=
  ⟨h'.galleys.trans h.galleys, h'.nextGalley.trans h.nextGalley, h'.now.trans h.now, fun e he => h'.agenda e (h.agenda e he),
    fun c => (h'.x c).trans (h.x c)⟩

theorem keepsGalleys_modCore (s : State) (c : Nat) (f : Core → Core) (hf : ∀ k, (f k).x = k.x := by exact fun _ => rfl) :
    s.KeepsGalleys (s.modCore c f) :=
  ⟨rfl, rfl, rfl, fun _ h => h, fun d => core_modCore_field Core.x hf d⟩

theorem keepsGalleys_modW (s : State) (c : Nat) (w : Walker) (f : WalkerSt → WalkerSt) : s.KeepsGalleys (s.modW c w f) :=
  keepsGalleys_modCore s c _ fun k => by cases w <;> rfl

theorem keepsGalleys_after (s : State) (d : Nat) (i : Instr) : s.KeepsGalleys (s.after d i) :=
  ⟨rfl, rfl, rfl, fun _ h => mem_addDue.2 (.inr h), fun _ => rfl⟩

theorem keepsGalleys_foldl {α : Type} {f : State → α → State} (hf : ∀ (s : State) a, s.KeepsGalleys (f s a)) (l : List α) :
    ∀ s : State, s.KeepsGalleys (l.foldl f s) := by
  induction l with
  | nil => exact .refl
  | cons a l ih => exact fun s => (hf s a).trans (ih _)

theorem keepsGalleys_writeUnit (s : State) (tag : Tag) (k : Nat) (bs : List Byte) :
    s.KeepsGalleys (s.writeUnit tag k bs) := by
  have hx : ∀ c, ((s.writeUnit tag k bs).core c).x = (s.core c).x := fun c =>
    congrArg (fun r => r.2.2.2.2.2.1) ((quiet_writeUnit (p := fun _ => True) s tag k bs).core c).rest
  refine ⟨writeUnit_galleys .., ?_, writeUnit_now .., ?_, hx⟩
  · unfold State.writeUnit
    dsimp only
    split
    · rfl
    · split
      · rfl
      · rfl
  · unfold State.writeUnit
    dsimp only
    split
    · exact fun _ h => h
    · split
      · exact fun _ h => h
      · exact fun _ h => h

theorem keepsGalleys_markEmpty (s : State) (tag : Tag) (c off n : Nat) : s.KeepsGalleys (s.markEmpty tag c off n) := by
  unfold State.markEmpty
  refine (keepsGalleys_foldl (fun t r => ?_) _ s).trans (keepsGalleys_modCore ..)
  split
  · exact keepsGalleys_writeUnit ..
  · exact .refl t

theorem readX_of_x {k l : Core} (h : l.x = k.x) (r : BitVec 6) : l.readX r = k.readX r := by
  rw [Core.readX, Core.readX, h]

/-! ## The registration, step by step (R206, R236) -/

/-- The galley that an order makes for a word whose card is read. -/
def Order.galley (ord : Order) (s : State) (o : Origin) (rel : Option Scope) (card : List Byte) (pages : List Nat) : Galley :=
  { core := o.core, gang := (s.core o.core).gang, o := o, vf := (s.core o.core).vf, gen := s.gen (s.core o.core).vf
    job := ord.job, reads := ord.reads, writes := ord.writes, disp := BitVec.ofNat 16 (field card 4 2), rel := rel
    exch := bitOf (field card 1 1) 0, accepted := false, started := false, moved := false, plan := ord.plan, flight := []
    lines := [], pages := pages, stream := ord.stream, counter := ord.counter, code := 0, lastAt := 0, ack := 0, waitAck := 0
    farAge := none }

/-- The next galley of the table is g. -/
def State.addGalley (s : State) (g : Galley) : State :=
  { s with galleys := Tbl.put s.galleys s.nextGalley g, nextGalley := s.nextGalley + 1 }

/-- The register-space targets of an order on its own core are empty. -/
def State.emptied (s : State) (c : Nat) (runs : List (Nat × Nat)) : State :=
  runs.foldl (fun t r => t.markEmpty (t.ownTag c) c r.1 r.2) s

/-- The tensor entry that an order writes, where it writes one. -/
def State.putEntry (s : State) (v : BitVec 6) : Option (BitVec 12 × List Byte) → State
  | some (t, b) => { s with mem := memWrite s.mem (keyTensor v.toNat t.toNat) b }
  | none => s

/-- A member's operation in its group counts. -/
def Core.countMember (k : Core) (l : Coll) : Core :=
  if l.code = 0 then { k with groups := k.groups.map (fun e =>
    if e.1 = l.group.toNat then (e.1, { e.2 with seq := e.2.seq + 1 }) else e) } else k

theorem x_countMember (k : Core) (l : Coll) : (k.countMember l).x = k.x := by
  unfold Core.countMember
  split
  · rfl
  · rfl

/-- The collective of an order, where it has one: it stands by its galley, and its group's count goes on. -/
def State.addColl (s : State) (c id : Nat) : Option Coll → State
  | some l => State.modCore { s with
      colls := Tbl.put s.colls s.nextColl { l with galley := some id }, nextColl := s.nextColl + 1 } c (fun k => k.countMember l)
  | none => s

/-- The release of a word, where it has one, is tried at once. -/
def State.dueRelease (s : State) (o : Origin) (id : Nat) : Option Scope → State
  | some sc => s.after 0 (.releaseTakesEffect o sc o.age (.galley id))
  | none => s

/-- What an order does to its core and to memory beside adding its galley. -/
def State.ordered (s : State) (c id : Nat) (v : BitVec 6) (ord : Order) (pages : List Nat) : State :=
  (((s.modCore c (fun k => k.holdPages pages (· + 1))).emptied c ord.empties).putEntry v ord.entry).addColl c id ord.coll

/-- The state in which a galley is registered, ready to be started. -/
def State.registered (s : State) (o : Origin) (rel : Option Scope) (card : List Byte) (ord : Order) (pages : List Nat) : State :=
  ((((s.addGalley (ord.galley s o rel card pages)).ordered o.core s.nextGalley (s.core o.core).vf ord pages).dueRelease o
    s.nextGalley rel).begin o).after 0 (.galleyStart s.nextGalley)

theorem op_putEntry (s : State) (v : BitVec 6) (e : Option (BitVec 12 × List Byte)) :
    (match e with
      | some (t, b) => modify (fun s => { s with mem := memWrite s.mem (keyTensor v.toNat t.toNat) b })
      | none => pure () : Op Unit).run s = .ok ((), s.putEntry v e) := by
  cases e <;> rfl

theorem op_addColl (s : State) (o : Origin) (id : Nat) (l : Option Coll) :
    (match l with
      | some l => do
        modify (fun s => { s with colls := Tbl.put s.colls s.nextColl { l with galley := some id }, nextColl := s.nextColl + 1 })
        modifyCore o (fun k => k.countMember l)
      | none => pure () : Op Unit).run s = .ok ((), s.addColl o.core id l) := by
  cases l <;> rfl

theorem op_dueRelease (s : State) (o : Origin) (id : Nat) (rel : Option Scope) :
    (match rel with
      | some sc => modify (fun s => s.after 0 (.releaseTakesEffect o sc o.age (.galley id)))
      | none => pure () : Op Unit).run s = .ok ((), s.dueRelease o id rel) := by
  cases rel <;> rfl

theorem registerGalley_run (o : Origin) (rel : Option Scope) (card : List Byte) (ord : Order) (pages : List Nat) (s : State) :
    (registerGalley o rel card ord pages).run s = .ok (.seq, s.registered o rel card ord pages) := by
  unfold registerGalley
  rw [op_bind_ok (op_get _), op_bind_ok (op_getCore _ _)]
  dsimp only
  rw [op_bind_ok (op_modify _ _), op_bind_ok (op_modifyCore _ _ _), op_bind_ok (op_modify _ _)]
  refine (op_bind_ok (op_putEntry _ _ ord.entry)).trans ?_
  refine (op_bind_ok (op_addColl _ o s.nextGalley ord.coll)).trans ?_
  refine (op_bind_ok (op_dueRelease _ o s.nextGalley rel)).trans ?_
  rfl

section
variable (s : State)

theorem keepsGalleys_emptied (c : Nat) (runs : List (Nat × Nat)) : s.KeepsGalleys (s.emptied c runs) :=
  keepsGalleys_foldl (α := Nat × Nat) (f := fun t r => t.markEmpty (t.ownTag c) c r.1 r.2)
    (fun _ _ => keepsGalleys_markEmpty ..) runs s

theorem keepsGalleys_putEntry (v : BitVec 6) (e : Option (BitVec 12 × List Byte)) : s.KeepsGalleys (s.putEntry v e) := by
  cases e with
  | none => exact .refl s
  | some e => exact ⟨rfl, rfl, rfl, fun _ h => h, fun _ => rfl⟩

theorem keepsGalleys_addColl (c id : Nat) (l : Option Coll) : s.KeepsGalleys (s.addColl c id l) := by
  cases l with
  | none => exact .refl s
  | some l =>
    refine State.KeepsGalleys.trans ?_ (keepsGalleys_modCore _ c (fun k => k.countMember l) fun k => x_countMember k l)
    exact ⟨rfl, rfl, rfl, fun _ h => h, fun _ => rfl⟩

theorem keepsGalleys_dueRelease (o : Origin) (id : Nat) (rel : Option Scope) : s.KeepsGalleys (s.dueRelease o id rel) := by
  cases rel with
  | none => exact .refl s
  | some sc => exact keepsGalleys_after ..

theorem addColl_mem (c id : Nat) (l : Option Coll) : (s.addColl c id l).mem = s.mem := by
  cases l <;> rfl

theorem dueRelease_mem (o : Origin) (id : Nat) (rel : Option Scope) : (s.dueRelease o id rel).mem = s.mem := by
  cases rel <;> rfl

theorem keepsGalleys_ordered (c id : Nat) (v : BitVec 6) (ord : Order) (pages : List Nat) :
    s.KeepsGalleys (s.ordered c id v ord pages) :=
  (keepsGalleys_modCore s c (fun k => k.holdPages pages (· + 1))).trans <|
    (keepsGalleys_emptied ..).trans <| (keepsGalleys_putEntry ..).trans (keepsGalleys_addColl ..)

theorem ordered_mem (c id : Nat) (v : BitVec 6) {ord : Order} (pages : List Nat) (he : ord.entry = none) (hr : ord.empties = []) :
    (s.ordered c id v ord pages).mem = s.mem := by
  unfold State.ordered
  rw [addColl_mem, he, hr]
  rfl

variable (o : Origin) (rel : Option Scope) (card : List Byte) (ord : Order) (pages : List Nat)

/-- A registration adds the galley; beside it the table, the time and the x registers stay, and no event goes. -/
theorem keepsGalleys_registered :
    (s.addGalley (ord.galley s o rel card pages)).KeepsGalleys (s.registered o rel card ord pages) :=
  (keepsGalleys_ordered ..).trans <| (keepsGalleys_dueRelease ..).trans <| (keepsGalleys_modW ..).trans (keepsGalleys_after ..)

theorem registered_start : (s.now, Instr.galleyStart s.nextGalley) ∈ (s.registered o rel card ord pages).agenda := by
  have hnow := ((keepsGalleys_ordered (s.addGalley (ord.galley s o rel card pages)) o.core s.nextGalley (s.core o.core).vf ord
    pages).trans (keepsGalleys_dueRelease _ o s.nextGalley rel)).now
  exact mem_addDue.2 (.inl (congrArg (·, _) hnow.symm))

theorem registered_release (sc : Scope) : (s.now, Instr.releaseTakesEffect o sc o.age (.galley s.nextGalley)) ∈
    (s.registered o (some sc) card ord pages).agenda := by
  have hnow := (keepsGalleys_ordered (s.addGalley (ord.galley s o (some sc) card pages)) o.core s.nextGalley (s.core o.core).vf
    ord pages).now
  exact mem_addDue.2 (.inr (mem_addDue.2 (.inl (congrArg (·, _) hnow.symm))))

theorem registered_mem (he : ord.entry = none) (hr : ord.empties = []) : (s.registered o rel card ord pages).mem = s.mem :=
  (dueRelease_mem ..).trans (ordered_mem _ _ _ _ pages he hr)

end

/-! ## The enqueue (R206) -/

theorem waited_cur (s : State) (n : BitVec 4) : (s.waited n).cur = s.cur := by
  unfold State.waited
  split
  · rfl
  · rfl

/-- A card is read where the core stands that reads it. -/
theorem steppedRecord_cur {o : Origin} {card : Name} {align n : Nat} {s s1 : State} {b : List Byte}
    (h : (steppedRecord o card align n).run s = .ok (b, s1)) : s1.cur = s.cur := by
  have hread : (recordAt o card align n).Reads := by
    refine reads_bind (does_getCore_bind fun k => reads_bind (reads_need _) fun _ => reads_pure _) fun a =>
      does_getCore_bind fun k => does_get_bind fun s => ?_
    split
    · exact does_trapNow (fun _ _ _ => trivial) _ _ _
    · exact reads_bind (reads_need _) fun _ => reads_pure _
  unfold steppedRecord at h
  obtain ⟨p, s2, hp, hrest⟩ := op_bind_eq_ok h
  obtain rfl := hread.ok _ _ _ hp
  obtain hc | hc := claimBanks_cases o (banksOf p n) s2
  · rw [op_bind_ok hc] at hrest
    cases hrest
    rfl
  · rw [op_bind_error hc] at hrest
    cases hrest

/-- A scope that a word or a card names is allowed, where it names one. -/
theorem op_demandScope? {o : Origin} {s : State} (sc? : Option Scope) : (∀ sc, sc? = some sc → s.scopeOk o.core sc = true) →
    (match sc? with
      | some sc => demandScope o sc
      | none => pure () : Op Unit).run s = .ok ((), s) := by
  intro h
  cases sc? with
  | none => rfl
  | some sc => exact op_demandScope (h sc rfl)

theorem enqueue_run {o : Origin} {rel : Option Scope} {card : Name} {kind : Nat} {exch : Bool} {mk : List Byte → Op Order}
    {s s1 : State} {b : List Byte} {ord : Order} {pages : List Nat} (hb : (cardRecord o card).run s = .ok (b, s1))
    (hctx : (s1.core o.core).ctx = .tenant) (hcard : cardOk kind exch b = true)
    (hsc : ∀ sc, rel = some sc ∨ cardScope b = some sc → s1.scopeOk o.core sc = true)
    (hord : (mk b).run s1 = .ok (ord, s1)) (hcur : s1.cur = o.core) (hadm : s1.admits ord = true)
    (hpages : (translate o ord.pages).run s1 = .ok (pages, s1)) :
    (enqueue o rel card kind exch mk).run s = .ok (.seq, s1.registered o rel b ord pages) := by
  unfold State.admits at hadm
  rw [hcur] at hadm
  simp only [Bool.and_eq_true] at hadm
  obtain ⟨⟨⟨⟨⟨htext, hreads⟩, hwrites⟩, hpool⟩, hroom⟩, hfull⟩ := hadm
  unfold enqueue
  rw [op_bind_ok hb, op_bind_ok (op_getCore _ _), op_bind_ok (op_demand (decide_eq_true hctx) _ _ _)]
  refine (op_bind_ok (op_demand hcard _ _ _)).trans ?_
  refine (op_bind_ok (op_demandScope? rel fun sc h => hsc sc (.inl h))).trans ?_
  refine (op_bind_ok (op_demandScope? (cardScope b) fun sc h => hsc sc (.inr h))).trans ?_
  rw [op_bind_ok hord, op_bind_ok (op_get _), op_bind_ok (op_demand htext _ _ _),
    op_bind_ok (op_demand (by rw [hreads, hwrites]; rfl) _ _ _), op_bind_ok (op_demand hpool _ _ _), op_bind_ok hpages,
    op_bind_ok (op_need hroom _), op_bind_ok (op_need hfull _)]
  exact registerGalley_run ..

theorem exec_of_galleyWord {i : Instr} {v : GalleySpec} (hi : galleyWord i = some v) (s : State) :
    exec i s = issue v.w v.h 1 (fun o => enqueue o v.rel v.card v.kind v.exch (v.order o)) s := by
  cases i <;> cases hi <;> rfl

/-- Settles O47: the word's enqueue runs to its end, and what it does beside adding the galley keeps the table of galleys. -/
theorem galleyWordsEnqueue : Obligations.GalleyWordsEnqueue := by
  unfold Obligations.GalleyWordsEnqueue
  intro i v s s1 b ord pages hi hm hb hctx hcard hsc hord hadm hpages
  have hcore : (s.word v.w v.h).core = s.cur := word_core s v.w v.h
  have hcur : s1.cur = s.cur := (steppedRecord_cur hb).trans (waited_cur s v.h.wait)
  have hrun := enqueue_run hb (by rwa [hcore]) hcard (by rwa [hcore]) hord (hcur.trans hcore.symm) hadm hpages
  have hkeeps := (keepsGalleys_registered s1 (s.word v.w v.h) v.rel b ord pages).trans
    (keepsGalleys_modW _ s.cur v.w fun w => w.advance ((s.core s.cur).time + 1))
  refine ⟨_, ord.galley s1 (s.word v.w v.h) v.rel b pages, (exec_of_galleyWord hi s).trans (issue_seq hm hrun), ?_, hcore,
    congrArg (fun c => (s1.core c).gang) hcore, rfl, congrArg (fun c => (s1.core c).vf) hcore,
    congrArg (fun c => s1.gen (s1.core c).vf) hcore, rfl, rfl, rfl, rfl, rfl, rfl, rfl, rfl, rfl, hkeeps.nextGalley,
    fun n hn => ?_, registered_start .., fun sc hrel => ?_, fun r => ?_, fun he hr => registered_mem _ _ _ _ _ _ he hr⟩
  · exact (congrArg (Tbl.find · s1.nextGalley) hkeeps.galleys).trans (find_put ..)
  · exact (congrArg (Tbl.find · n) hkeeps.galleys).trans (find_put_ne _ _ hn)
  · rw [hrel]
    exact registered_release ..
  · exact readX_of_x (hkeeps.x s.cur) r

end Sys2Proof.Machine
end

section
namespace Sys2Proof.Machine

/-! ## The condition of a release, part by part (R221) -/

theorem any_lt_eq_false {α : Type} (l : List α) (f : α → Nat) (age : Nat) :
    l.any (fun e => decide (f e < age)) = false ↔ ∀ e ∈ l, age ≤ f e := by
  simp only [List.any_eq_false, decide_eq_true_eq, Nat.not_lt]

/-- What a galley before a release must have done (R221, R227, R228): nothing more to write in the core's bytes, and by scope
all read, or all done but for those of the fabric walker. -/
theorem galleysHold_eq_false (s : State) (c gang age : Nat) (sc : Scope) :
    s.galleysHold c gang age sc none = false ↔
      ∀ e ∈ s.galleys, e.2.core = c → e.2.gang = gang → e.2.o.age < age → ownWrites c e.2 = false ∧
        (sc = .core ∧ e.2.reading = false ∨ sc = .chip ∧ e.2.o.walker = .F) := by
  unfold State.galleysHold
  cases sc <;> simp

theorem opsHold_eq_false (s : State) (c gang age : Nat) (sc : Scope) :
    s.opsHold c gang age sc = false ↔
      (sc = .core ∨ sc = .chip ∨ ∀ e ∈ s.ops, e.2.core = c → e.2.gang = gang → ∀ o, e.2.word = some o → age ≤ o.age) := by
  have hword (w : Option Origin) : w.any (fun o => decide (o.age < age)) = false ↔ ∀ o, w = some o → age ≤ o.age := by
    cases w <;> simp
  unfold State.opsHold
  cases sc <;> simp [hword]

/-- The streaming lines a release does not wait for (R233). -/
theorem linesHold_eq_false (s : State) (c age : Nat) (sc : Scope) :
    s.linesHold c age sc = false ↔
      ∀ e ∈ s.coalescer, (∃ w ∈ e.2.owners, w.1 = c ∧ w.2.1 < age) →
        sc = .core ∨ sc = .chip ∨ (sc = .ten ∨ sc = .dom) ∧ e.2.host = true := by
  unfold State.linesHold
  cases sc <;> simp

theorem relHolds_iff (s : State) (c age : Nat) (sc : Scope) : s.relHolds c age sc none = true ↔
    (∀ e ∈ (s.core c).lq, age ≤ e.o.age) ∧ (∀ e ∈ (s.core c).sq, age ≤ e.o.age) ∧
    (∀ e ∈ (s.core c).agenda, ∀ a, pendingAge e.2 = some a → age ≤ a) ∧
    (∀ n, (s.core c).nest = some n → age ≤ n.o.age) ∧ (s.core c).arrayReads age = false ∧
    (∀ e ∈ (s.core c).matq, age ≤ e.o.age) ∧ (∀ a ∈ (s.core c).moves, age ≤ a) ∧
    s.galleysHold c (s.core c).gang age sc none = false ∧ s.opsHold c (s.core c).gang age sc = false ∧
    s.linesHold c age sc = false := by
  unfold State.relHolds State.relHoldsAt
  simp only [Bool.and_eq_true, Bool.not_eq_true', any_lt_eq_false, and_assoc]
  refine and_congr_right' (and_congr_right' (and_congr ?pending (and_congr_left' ?nest)))
  case pending =>
    rw [List.any_eq_false]
    refine forall₂_congr fun e _ => ?_
    cases pendingAge e.2 <;> simp
  case nest => cases (s.core c).nest <;> simp

/-! ## What waits on a release (R222, R223, R254, R312) -/

section
variable {o : Origin} {sc : Scope} {age : Nat} {s : State}

theorem exec_release_fence : exec (.releaseTakesEffect o sc age .fence) s =
    .next (if s.relHolds o.core age sc none then (s.unblock o).finish o
      else s.later o.core 1 (.releaseTakesEffect o sc age .fence)) := rfl

theorem exec_release_ffence : exec (.releaseTakesEffect o sc age .ffence) s =
    .next (if s.relHolds o.core age sc none && s.fabricOpen o.core (s.core o.core).gang (some age) = 0 then s.doneF o
      else s.later o.core 1 (.releaseTakesEffect o sc age .ffence)) := rfl

theorem exec_release_galley {id : Nat} {g : Galley} (hg : Tbl.find s.galleys id = some g) :
    exec (.releaseTakesEffect o sc age (.galley id)) s =
      .next (if s.relHoldsAt (s.home g.gang o.core) o.core age sc (some id) then s.modGalley id (fun g => { g with rel := none })
        else s.after 1 (.releaseTakesEffect o sc age (.galley id))) := by
  show execReleaseTakesEffect o sc age (.galley id) s = _
  simp only [execReleaseTakesEffect, hg]

theorem exec_release_advance {gang : Nat} {n : Byte} {v : BitVec 6} {g : Byte} :
    exec (.releaseTakesEffect o sc age (.advance gang n v g)) s =
      .next (if (if (s.gang gang).isNone then !(s.linesHold o.core age sc)
          else s.relHoldsAt (s.home gang o.core) o.core age sc none) then s.after 4 (.dispenserAdvance o.core ⟨false, v, g⟩ n)
        else s.after 1 (.releaseTakesEffect o sc age (.advance gang n v g))) := rfl

end

/-! ## The stop of a VF (R312) -/

theorem writesOut_iff (s : State) (v : BitVec 6) : s.writesOut v = true ↔ (∃ e ∈ s.coalescer, e.2.vf = v) ∨
    ∃ e ∈ s.galleys, e.2.vf = v ∧ ∃ p ∈ e.2.flight, isVirt p.dst = true := by
  simp only [State.writesOut, Bool.or_eq_true, List.any_eq_true, Bool.and_eq_true, decide_eq_true_eq]

section
variable {s : State} {o : Origin} {v : BitVec 6} {report : Nat} {d : Name}

theorem stopGo_of_writesOut (h : s.writesOut v = true) :
    s.stopGo o v report d = s.after 1 (.releaseTakesEffect o .sys o.age (.stop v report d)) := if_pos h

/-- A part of the state that neither the lines sent to the host nor the event to come can change, after a stop's report. -/
theorem stopGo_frame {α : Type} {P : State → α} (hout : ∀ s x, P { s with outbox := x } = P s)
    (hagenda : ∀ s x, P { s with agenda := x } = P s) (h : s.writesOut v = false) :
    P (s.stopGo o v report d) = P { (s.dirtyReport v).2 with mem := memWrite s.mem (keyHost report) (s.dirtyReport v).1 } := by
  unfold State.stopGo
  rw [if_neg (ne_true_of_eq_false h)]
  exact (hagenda _ _).trans (foldl_frame (fun t p => hout t _) _ _)

theorem stopGo_agenda (h : s.writesOut v = false) : (s.stopGo o v report d).agenda =
    (s.after (1 + Config.deviceDelay s.now) (.releaseTakesEffect o .sys o.age (.stopped v d))).agenda := by
  unfold State.stopGo
  rw [if_neg (ne_true_of_eq_false h)]
  dsimp only [State.after]
  rw [foldl_frame (P := State.agenda) (fun t p => send_agenda t _), foldl_frame (P := State.now) (fun t p => send_now t _)]
  rfl

end

/-- Settles O30: the condition part by part, then each kind of release by what the dispatcher gives it. -/
theorem releasesTakeEffect : Obligations.ReleasesTakeEffect := by
  unfold Obligations.ReleasesTakeEffect
  refine ⟨?condition, ?fence, ?fenceWaits, ?ffence, ?ffenceWaits, ?galleyWaits, ?advanceWaits, ?stopWaits, ?stop, writesOut_iff,
    ?galley, ?advance, fun o age v d s => rfl⟩
  case condition =>
    intro s c age sc
    rw [relHolds_iff, galleysHold_eq_false, opsHold_eq_false, linesHold_eq_false]
  case fence =>
    intro o sc age s h
    rw [exec_release_fence, if_pos h]
  case fenceWaits =>
    intro o sc age s h
    rw [exec_release_fence, if_neg (ne_true_of_eq_false h)]
  case ffence =>
    intro o sc age s h hopen
    rw [exec_release_ffence, h, hopen]
    rfl
  case ffenceWaits =>
    intro o sc age s h
    rw [exec_release_ffence, if_neg]
    rcases h with h | hopen
    · simp [h]
    · simp [hopen]
  case galleyWaits =>
    intro o sc age id s g hg h
    rw [exec_release_galley hg, if_neg (ne_true_of_eq_false h)]
  case galley =>
    intro o sc age id s g hg h
    rw [exec_release_galley hg, if_pos h, modGalley_of_find hg]
  case advanceWaits =>
    intro o sc age gang n v g s h
    rw [exec_release_advance, if_neg]
    split at h <;> simp [*]
  case advance =>
    intro o sc age gang n v g s h
    rw [exec_release_advance, if_pos]
    split at h <;> simp [*]
  case stopWaits =>
    intro o v report d s h
    exact congrArg Host.Outcome.next (stopGo_of_writesOut h)
  case stop =>
    intro o v report d s h
    refine ⟨_, rfl, ?_, ?_, stopGo_agenda h⟩
    · exact stopGo_frame (P := State.mem) (fun _ _ => rfl) (fun _ _ => rfl) h
    · rw [stopGo_frame (P := fun t => (t.vf v.toNat).dirty) (fun _ _ => rfl) (fun _ _ => rfl) h]
      exact congrArg Vf.dirty (vf_modVf s v.toNat fun f => { f with dirty := [] })

end Sys2Proof.Machine
end

section
namespace Sys2Proof.Machine

/-! ## Tickets enter their queues (R252, R253) -/

section
variable {h : Hdr} {sc : Scope} {n : Byte} {s t : State}

theorem execTktake_enters {d : Name} (hm : s.mayIssue .C h.wait) (hroom : ((s.waited h.wait).core s.cur).stores < 16)
    (hr : (reserve (s.word .C h) d).run (s.waited h.wait) = .ok ((), t)) :
    execTktake h d n s = .next (((t.begin (s.word .C h)).pushS s.cur ⟨s.word .C h, .tktake n d, none⟩).advanced s .C 1) := by
  refine issue_seq hm ?_
  rw [op_bind_ok (op_getCore _ _), word_core, op_bind_ok (op_need (decide_eq_true hroom) _), op_bind_ok hr,
    op_bind_ok (op_modify _ _)]
  rfl

theorem execTkwait_enters {a : Name} {x : Word} (hm : s.mayIssue .C h.wait)
    (ha : (src (s.word .C h) a).run (s.waited h.wait) = .ok (x, t)) (hroom : (t.core s.cur).loads < 16)
    (hsc : (demandScope (s.word .C h) sc).run t = .ok ((), t)) :
    execTkwait h sc n a s = .next ((((t.begin (s.word .C h)).modW s.cur .C (fun v => { v with blocked := true })).pushL
      s.cur ⟨s.word .C h, .tkwait n (x.setWidth 32), none⟩).advanced s .C 1) := by
  refine issue_seq hm ?_
  rw [op_bind_ok ha, op_bind_ok (op_getCore _ _), word_core, op_bind_ok (op_need (decide_eq_true hroom) _), op_bind_ok hsc,
    op_bind_ok (op_modify _ _)]
  rfl

theorem execTknext_enters (hm : s.mayIssue .C h.wait) (hroom : ((s.waited h.wait).core s.cur).stores < 16)
    (hsc : (demandScope (s.word .C h) sc).run (s.waited h.wait) = .ok ((), s.waited h.wait)) :
    execTknext h sc n s = .next ((((s.waited h.wait).begin (s.word .C h)).pushS s.cur
      ⟨s.word .C h, .tknext n sc, none⟩).advanced s .C 1) := by
  refine issue_seq hm ?_
  rw [op_bind_ok (op_getCore _ _), word_core, op_bind_ok (op_need (decide_eq_true hroom) _), op_bind_ok hsc,
    op_bind_ok (op_modify _ _)]
  rfl

end

/-! ## Dispensers and their tags (R9, R252) -/

section
variable {s : State} {tag : Tag} {n : Byte}

theorem tagCurrent_of_gen {v : BitVec 6} (hg : s.gen v ≠ 0) : s.tagCurrent ⟨false, v, s.gen v⟩ = true := by
  simpa [State.tagCurrent] using hg

@[simp] theorem ownDispenser_tag (c : Nat) : (s.ownDispenser c tag n).tag = tag := by
  unfold State.ownDispenser
  dsimp only
  split
  · assumption
  · rfl

/-- A context sees a dispenser that carries its tag, or 0 and 0. -/
theorem dispenser_tag_or : (s.dispenser tag n).tag = tag ∨ s.dispenser tag n = ⟨voidTag, 0, 0, 0, 0⟩ := by
  unfold State.dispenser
  dsimp only
  split
  · next hok => exact .inl (of_decide_eq_true ((Bool.and_eq_true ..).mp hok).1)
  · exact .inr rfl

/-- Retagging a dispenser keeps the value that its writer reads in NEXT. -/
theorem ownDispenser_next (c : Nat) : (s.ownDispenser c tag n).next = (s.dispenser tag n).next := by
  unfold State.ownDispenser
  rcases dispenser_tag_or (s := s) (tag := tag) (n := n) with htag | hvoid
  · rw [if_pos htag]
  · rw [hvoid]
    dsimp only
    split <;> rfl

theorem dispenser_setDispenser {d : Dispenser} (htag : d.tag = tag) (hg : tag.gen ≠ 0) :
    (s.setDispenser n d).dispenser tag n = d := by
  subst htag
  simp [State.dispenser, State.setDispenser, tagOk_self hg]

end

/-! ## Operations at a dispenser, lower cores first (R253, R254) -/

theorem lowerFirst_eq_false {s : State} {p : Instr → Bool} :
    s.lowerFirst p = false ↔ ∀ e ∈ s.agenda, e.1 ≤ s.now → p e.2 = false := by
  simp [State.lowerFirst]

theorem lowerFirst_of_mem {s : State} {p : Instr → Bool} {due : Nat} {i : Instr} (hmem : (due, i) ∈ s.agenda)
    (hdue : due ≤ s.now) (hi : p i = true) : s.lowerFirst p = true :=
  List.any_eq_true.2 ⟨_, hmem, by simp [hdue, hi]⟩

section
variable {o : Origin} {tag : Tag} {n : Byte} {d : Name} {s : State}

theorem execTktakeAtDispenser_yields (h : s.lowerFirst (atDispenser o.core tag.vf n) = true) :
    execTktakeAtDispenser o tag n d s = .next (s.after 0 (.tktakeAtDispenser o tag n d)) := if_pos h

theorem execTktakeAtDispenser_stale (hfirst : s.lowerFirst (atDispenser o.core tag.vf n) = false)
    (h : s.tagCurrent tag = false) : execTktakeAtDispenser o tag n d s =
      .next (((s.staleDrop tag.vf 1).popAway o).later o.core 12 (.ticketLands o d 0)) := by
  unfold execTktakeAtDispenser
  rw [if_neg (ne_true_of_eq_false hfirst), if_pos (by rw [h]; rfl)]

theorem execTktakeAtDispenser_takes (hfirst : s.lowerFirst (atDispenser o.core tag.vf n) = false)
    (h : s.tagCurrent tag = true) (hfw : tag.fw = false) : execTktakeAtDispenser o tag n d s =
      .next (((s.setDispenser n { s.ownDispenser o.core tag n with next := (s.ownDispenser o.core tag n).next + 1 }).popAway
        o).later o.core 12 (.ticketLands o d ((s.ownDispenser o.core tag n).next.setWidth 64))) := by
  unfold execTktakeAtDispenser
  rw [if_neg (ne_true_of_eq_false hfirst), if_neg (by simp [h]), if_neg (ne_true_of_eq_false hfw)]

end

section
variable {c : Nat} {tag : Tag} {n : Byte} {s : State}

theorem execDispenserAdvance_yields (h : s.lowerFirst (atDispenser c tag.vf n) = true) :
    execDispenserAdvance c tag n s = .next (s.after 0 (.dispenserAdvance c tag n)) := if_pos h

theorem execDispenserAdvance_advances (hfirst : s.lowerFirst (atDispenser c tag.vf n) = false)
    (h : s.tagCurrent tag = true) (hfw : tag.fw = false) : execDispenserAdvance c tag n s =
      .next ((s.setDispenser n { s.ownDispenser c tag n with serving := (s.ownDispenser c tag n).serving + 1 }).after 8
        (.nowServingBroadcast tag.vf n ((s.ownDispenser c tag n).serving + 1))) := by
  unfold execDispenserAdvance
  rw [if_neg (ne_true_of_eq_false hfirst), if_neg (ne_true_of_eq_false hfw), if_neg (by simp [h])]

end

/-- A change of the entries of one number, as its reader sees it. -/
theorem find_map_at {α : Type} (m : Tbl α) (f : α → α) (n : Nat) :
    Tbl.find (m.map (fun e => if e.1 = n then (e.1, f e.2) else e)) n = (Tbl.find m n).map f := by
  induction m with
  | nil => rfl
  | cons e m ih =>
    obtain ⟨k, w⟩ := e
    by_cases hk : k = n <;> simp [Tbl.find, hk, ih]

/-- Settles O27: the words by how they enter their queues, the dispenser's events by what is due before them and by the tag. -/
theorem ticketsComplete : Obligations.TicketsComplete := by
  unfold Obligations.TicketsComplete
  refine ⟨?take, ?wait, ?next, ?handsOut, ?stale, ?advance, ?yields, ?lower, ?broadcast, fun o s => rfl⟩
  case take => exact fun h d n s t hm hroom hr => execTktake_enters hm hroom hr
  case wait => exact fun h sc n a s t x hm ha hroom hsc => execTkwait_enters hm ha hroom hsc
  case next => exact fun h sc n s hm hroom hsc => execTknext_enters hm hroom hsc
  case handsOut =>
    intro o v n d s hfirst hg tag p
    refine ⟨execTktakeAtDispenser_takes (lowerFirst_eq_false.2 hfirst) (tagCurrent_of_gen hg) rfl, ?_, ownDispenser_next _⟩
    exact congrArg Dispenser.next
      (dispenser_setDispenser (d := { p with next := p.next + 1 }) (ownDispenser_tag (tag := tag) o.core) hg)
  case stale =>
    exact fun o tag n d s hfirst hstale => execTktakeAtDispenser_stale (lowerFirst_eq_false.2 hfirst) hstale
  case advance =>
    exact fun c v n s hfirst hg =>
      execDispenserAdvance_advances (lowerFirst_eq_false.2 hfirst) (tagCurrent_of_gen hg) rfl
  case yields =>
    intro o tag n d t i s hmem hdue hi
    have hlower := lowerFirst_of_mem hmem hdue hi
    exact ⟨execTktakeAtDispenser_yields hlower, execDispenserAdvance_yields hlower⟩
  case lower => simp [atDispenser, and_assoc]
  case broadcast =>
    intro v n x s
    refine ⟨_, rfl, fun p hp => ?_, rfl⟩
    exact (find_map_at s.dispensers (fun e => { e with seen := x }) _).trans (congrArg _ hp)

end Sys2Proof.Machine
end

section
namespace Sys2Proof.Machine

/-! ## The words of the Gibbs walker at their issue (R263, R268, R271) -/

/-- The status word that GSTAT selects (R270, R276). -/
def State.statusWord (s : State) (c : Nat) (sel : BitVec 3) : Word :=
  match sel.toNat with
  | 0 => gstatWord (s.gctl c) (s.gstatus c)
  | 1 => (s.gctl c).sweep
  | 2 => (s.gctl c).seed
  | 3 => BitVec.ofNat 64 ((s.gctl c).gates * 2 ^ 48 + (s.gctl c).nact * 2 ^ 32 + (s.gctl c).beta.toNat)
  | _ => BitVec.ofNat 64 (s.couplingsUsed c)

/-- The first cell that a word reads the array from: that of its register, or cell 0 (R280). -/
def State.firstArg (s : State) (h : Hdr) (first : Option Name) : Nat := first.elim 0 (fun a => (s.xArg h a).toNat)

section
variable {s t : State} {h : Hdr}

theorem gibbsTurn_run {o : Origin} (hp : (s.core o.core).wG.pend = s.gxchs o.core) :
    (gibbsTurn o).run s = .ok ((), s) := by
  unfold gibbsTurn
  rw [op_bind_ok (op_get _), op_need (decide_eq_true hp)]

theorem firstCell_run {n : Name} (hx : ((s.waited h.wait).core s.cur).scoreboard.contains (xNum n).toNat = false) :
    (firstCell (s.word .G h) n).run (s.waited h.wait) = .ok ((s.xArg h n).toNat, s.waited h.wait) := by
  unfold firstCell
  rw [op_bind_ok (srcX_run (by rwa [word_core])), word_core, op_pure]
  rfl

theorem gibbsLater_run (o : Origin) (lat : Nat) (op : GibbsOp) (t : State) : (gibbsLater o lat op).run t =
    .ok (.seq, ((t.modGibbs o.core (fun a => { a with word := some op })).begin o).later o.core lat
      (.vectorResultLands o keyGibbs [] 0)) := by
  unfold gibbsLater
  rw [op_bind_ok (op_modify _ _), op_doneLater]

section
variable {rest : Origin → Op Flow} (hm : s.mayIssue .G h.wait)
  (hp : ((s.waited h.wait).core s.cur).wG.pend = (s.waited h.wait).gxchs s.cur)
include hm hp

/-- A Gibbs word in its turn does the rest of its issue. -/
theorem issue_gibbsTurn (hr : (rest (s.word .G h)).run (s.waited h.wait) = .ok (.seq, t)) :
    issue .G h 1 (fun o => do gibbsTurn o; rest o) s = .next (t.advanced s .G 1) :=
  issue_seq hm ((op_bind_ok (gibbsTurn_run (by rwa [word_core]))).trans hr)

/-- A Gibbs word in its turn whose rest comes to an effect on the array. -/
theorem issue_arrayWord {lat : Nat} {op : GibbsOp}
    (hr : (rest (s.word .G h)).run (s.waited h.wait) = (gibbsLater (s.word .G h) lat op).run t) :
    issue .G h 1 (fun o => do gibbsTurn o; rest o) s = .next (t.arrayWord s h lat op) := by
  rw [gibbsLater_run, word_core] at hr
  exact issue_gibbsTurn hm hp hr

end

section
variable (hm : s.mayIssue .G h.wait) (hp : ((s.waited h.wait).core s.cur).wG.pend = (s.waited h.wait).gxchs s.cur)
include hm hp

theorem execGmode_enters (replay bip : Bool) (n : BitVec 15) :
    execGmode h replay bip n s = .next ((s.waited h.wait).arrayWord s h 2 (.mode bip replay n.toNat)) :=
  issue_arrayWord hm hp rfl

theorem execGcntc_enters : execGcntc h s = .next ((s.waited h.wait).arrayWord s h 2 .clear) := issue_arrayWord hm hp rfl

theorem execGswp_skips {k : BitVec 15} (hg : ((s.waited h.wait).gctl s.cur).gates = 0) :
    execGswp h k s = .next ((s.waited h.wait).arrayWord s h 1 (.skip k.toNat)) :=
  issue_arrayWord hm hp (by rw [op_bind_ok (op_get _), word_core, if_pos hg])

theorem execGswp_begins {k : BitVec 15} (hg : ((s.waited h.wait).gctl s.cur).gates ≠ 0) :
    execGswp h k s = .next ((State.beginPhase ((s.waited h.wait).begin (s.word .G h))
      ⟨s.word .G h, k.toNat, 0, voidTag, []⟩).advanced s .G 1) :=
  issue_gibbsTurn hm hp (by rw [op_bind_ok (op_get _), word_core, if_neg hg, op_bind_ok (op_modify _ _), op_pure])

section
variable {rows : Bool} {card : Name} {t : BitVec 12} {mk : List Byte → Nat → GibbsOp} {b : List Byte}
  (hx : ((s.waited h.wait).core s.cur).scoreboard.contains (xNum card).toNat = false)
  (hb : b = (s.waited h.wait).tensorBytes ((s.waited h.wait).core s.cur).vf t)
include hx hb

/-- A void or stale entry is read as zeros (R122). -/
theorem loadWord_void (hl : (s.waited h.wait).entryLive ((s.waited h.wait).core s.cur).vf b = false) :
    loadWord h rows card t mk s = .next ((s.waited h.wait).arrayWord s h 12 (mk (zeros 64) (s.xArg h card).toNat)) := by
  subst hb
  refine issue_arrayWord hm hp ?_
  rw [op_bind_ok (firstCell_run hx), op_bind_ok (op_get _), word_core, if_neg (ne_true_of_eq_false hl)]

/-- A live entry within its limits: the rows that the word reads are transferred at 64 bytes a cycle (R268). -/
theorem loadWord_live {n : Nat} (hl : (s.waited h.wait).entryLive ((s.waited h.wait).core s.cur).vf b = true) (hf : (entOf b).fmt = 6)
    (hsp : (entOf b).space = 0) (hn : 1 ≤ (entOf b).sz 0) (hr : (loadShape b rows).sz 1 = n)
    (hlim : if rows then (entOf b).sz 0 ≤ 64 ∧ (s.xArg h card).toNat + n ≤ 8192
      else (s.xArg h card).toNat + (entOf b).sz 0 ≤ 8192)
    (he : (s.waited h.wait).extentLocal s.cur (loadShape b rows) = true) :
    loadWord h rows card t mk s = .next ((s.waited h.wait).arrayWord s h
      (12 + ceilDiv (4 * (entOf b).sz 0 * n) 64) (mk b (s.xArg h card).toNat)) := by
  subst hb hr
  refine issue_arrayWord hm hp ?_
  rw [op_bind_ok (firstCell_run hx), op_bind_ok (op_get _), word_core, if_pos hl]
  generalize (s.waited h.wait).tensorBytes ((s.waited h.wait).core s.cur).vf t = b at *
  have hf' : (loadShape b rows).fmt = 6 := hf
  have hsp' : (loadShape b rows).space = 0 := hsp
  have hz : (loadShape b rows).sz 0 = (entOf b).sz 0 := rfl
  dsimp only
  rw [op_bind_ok (op_demand ?size _ _ _), op_bind_ok (op_demand (by rw [he, hsp']; rfl) _ _ _), hz]
  case size =>
    cases rows with
    | true => obtain ⟨hw, hlim⟩ : _ ∧ _ := hlim; simp [hf', hz, hn, hw, hlim]
    | false => simp [hf', hz, hn, show _ ≤ _ from hlim]

end

section
variable {card : Name} {t : BitVec 12} {b : List Byte}
  (hx : ((s.waited h.wait).core s.cur).scoreboard.contains (xNum card).toNat = false)
  (hb : b = (s.waited h.wait).tensorBytes ((s.waited h.wait).core s.cur).vf t)
  (hl : (s.waited h.wait).entryLive ((s.waited h.wait).core s.cur).vf b = true) (hf : (entOf b).fmt = 6)
  (hsp : (entOf b).space = 0) (hn : 1 ≤ (entOf b).sz 0)
include hx hb hl hf hsp hn

theorem execGload_live (hw : (entOf b).sz 0 ≤ 64) (hlim : (s.xArg h card).toNat + (entOf b).sz 1 ≤ 8192)
    (he : (s.waited h.wait).extentLocal s.cur (loadShape b true) = true) :
    execGload h card t s = .next ((s.waited h.wait).arrayWord s h
      (12 + ceilDiv (4 * (entOf b).sz 0 * (entOf b).sz 1) 64) (.load b (s.xArg h card).toNat)) :=
  loadWord_live hm hp hx hb hl hf hsp hn rfl ((if_pos rfl).mpr ⟨hw, hlim⟩) he

theorem execGbias_live (hlim : (s.xArg h card).toNat + (entOf b).sz 0 ≤ 8192)
    (he : (s.waited h.wait).extentLocal s.cur (loadShape b false) = true) :
    execGbias h card t s = .next ((s.waited h.wait).arrayWord s h
      (12 + ceilDiv (4 * (entOf b).sz 0) 64) (.bias b (s.xArg h card).toNat)) := by
  rw [← Nat.mul_one (4 * (entOf b).sz 0)]
  exact loadWord_live hm hp hx hb hl hf hsp hn rfl ((if_neg Bool.false_ne_true).mpr hlim) he

end

theorem execGcolr_enters {tea : Bool} {c : Byte} {a b : Name} {v : List Byte}
    (hx : ((s.waited h.wait).core s.cur).scoreboard.contains (xNum b).toNat = false)
    (hv : (gibbsViews (s.word .G h) 5 [(a, tea)]).run (s.waited h.wait) = .ok ([v], t))
    (hf : firstOk (s.xArg h b).toNat = true) :
    execGcolr h tea c a b s = .next (t.arrayWord s h 4 (.colour c.toNat (s.xArg h b).toNat v)) := by
  refine issue_arrayWord hm hp ?_
  rw [op_bind_ok (firstCell_run hx), op_bind_ok hv, op_bind_ok (op_demand hf _ _ _)]
  rfl

theorem execGbeta_enters {a : Name} {v : Word} (hv : (src (s.word .G h) a).run (s.waited h.wait) = .ok (v, t))
    (hf : (fp32.decode (v.toNat % 2 ^ 32)).isFin = true) :
    execGbeta h a s = .next (t.arrayWord s h 2 (.beta (v.setWidth 32))) :=
  issue_arrayWord hm hp ((op_bind_ok hv).trans (op_bind_ok (op_demand hf _ _ _)))

theorem execGseed_enters {a : Name} {v : Word} (hv : (src (s.word .G h) a).run (s.waited h.wait) = .ok (v, t)) :
    execGseed h a s = .next (t.arrayWord s h 2 (.seed v)) :=
  issue_arrayWord hm hp (op_bind_ok hv)

theorem execGclmp_enters {te : Te} {a b : Name} {m v : List Byte}
    (hv : (gibbsViews (s.word .G h) 0x0B [(a, te.a), (b, te.b)]).run (s.waited h.wait) = .ok ([m, v], t)) :
    execGclmp h te a b s = .next (t.arrayWord s h 2 (.clamp m v)) :=
  issue_arrayWord hm hp (op_bind_ok hv)

theorem execGfree_enters {tea : Bool} {a : Name} {m : List Byte}
    (hv : (gibbsViews (s.word .G h) 0x0B [(a, tea)]).run (s.waited h.wait) = .ok ([m], t)) :
    execGfree h tea a s = .next (t.arrayWord s h 2 (.free m)) :=
  issue_arrayWord hm hp (op_bind_ok hv)

section
variable {d : Name} {r : Nat × Nat}
  (hh : (s.waited h.wait).hits s.cur (keyRS s.cur r.1) r.2 = false) (hfull : (s.waited h.wait).full s.cur r.1 r.2 = true)
  (ht : ((s.waited h.wait).core s.cur).inText r.1 r.2 = false)
include hh hfull ht

/-- A word that reads the array empties its view and writes its image there, from the first cell that it names (R280). -/
theorem readArray_lands {fmt : Byte} {first : Option Name} {image : State → Nat → Nat → List Byte × Nat}
    {bytes : List Byte} {lat : Nat} (hd : destView (s.waited h.wait) s.cur d = some (fmt, r))
    (hx : ∀ a ∈ first, ((s.waited h.wait).core s.cur).scoreboard.contains (xNum a).toNat = false)
    (hf : firstOk (s.firstArg h first) = true)
    (hi : image (s.waited h.wait) s.cur (s.firstArg h first) = (bytes, lat + 1)) :
    readArray h d fmt first image s = .next
      (((s.waited h.wait).markEmpty ((s.waited h.wait).ownTag s.cur) s.cur r.1 r.2).landsLater s .G h 1 lat
        (.longLatencyWriteComplete (s.word .G h) r.1 bytes)) := by
  refine issue_gibbsTurn hm hp ((op_bind_ok (s1 := s.waited h.wait) (a := s.firstArg h first) ?_).trans ?_)
  · cases first with
    | none => rfl
    | some a => exact firstCell_run (hx a rfl)
  · rw [op_bind_ok (op_get _), word_core, hd]
    dsimp only
    rw [op_bind_ok (op_need (by rw [hh, hfull]; rfl) _), op_bind_ok (op_demand (by rw [hf]; simp) _ _ _),
      op_bind_ok (op_demand (by rw [ht]; rfl) _ _ _), op_bind_ok (op_modify _ _), hi, op_doneLater, word_core]
    rfl

theorem execGrds_lands (hd : destView (s.waited h.wait) s.cur d = some (0x0B, r)) : execGrds h d s = .next
    (((s.waited h.wait).markEmpty ((s.waited h.wait).ownTag s.cur) s.cur r.1 r.2).landsLater s .G h 1 7
      (.longLatencyWriteComplete (s.word .G h) r.1 ((s.waited h.wait).stateImage s.cur))) := by
  unfold execGrds
  exact readArray_lands hm hp hh hfull ht hd nofun rfl rfl

section
variable {a : Name} (hd : destView (s.waited h.wait) s.cur d = some (6, r))
  (hx : ((s.waited h.wait).core s.cur).scoreboard.contains (xNum a).toNat = false)
  (hf : firstOk (s.xArg h a).toNat = true)
include hd hx hf

theorem execGrdc_lands : execGrdc h d a s = .next
    (((s.waited h.wait).markEmpty ((s.waited h.wait).ownTag s.cur) s.cur r.1 r.2).landsLater s .G h 1 7
      (.longLatencyWriteComplete (s.word .G h) r.1 ((List.range 1024).flatMap (fun n =>
        leBytes 4 ((s.waited h.wait).cellCount s.cur ((s.xArg h a).toNat + n)))))) := by
  unfold execGrdc
  exact readArray_lands hm hp hh hfull ht hd (fun _ e => by cases e; exact hx) hf rfl

theorem execGrdf_lands : execGrdf h d a s = .next
    (((s.waited h.wait).markEmpty ((s.waited h.wait).ownTag s.cur) s.cur r.1 r.2).landsLater s .G h 1
      (7 + ceilDiv ((List.range 1024).foldl (fun t n =>
        t + ((s.waited h.wait).couplings s.cur ((s.xArg h a).toNat + n)).length) 0) 64)
      (.longLatencyWriteComplete (s.word .G h) r.1 ((List.range 1024).flatMap (fun n =>
        leBytes 4 (lowBits 32 ((s.waited h.wait).gibbsField s.cur ((s.xArg h a).toNat + n))))))) := by
  unfold execGrdf
  exact readArray_lands hm hp hh hfull ht hd (fun _ e => by cases e; exact hx) hf
    (congrArg _ (Nat.add_right_comm 7 1 _))

end
end

/-- GSTAT reads its word before it clears the sticky bits (R270, R276). -/
theorem execGstat_lands {clr : Bool} {sel : BitVec 3} {d : Name}
    (hr : (reserve (s.word .G h) d).run (if clr = true ∧ (s.waited h.wait).gstatus s.cur ≠ GStatus.reset then
      (s.waited h.wait).modStatus s.cur (fun _ => GStatus.reset) else s.waited h.wait) = .ok ((), t)) :
    execGstat h clr sel d s = .next (t.landsLater s .G h 1 3 (.scalarResultLands (s.word .G h) d
      ((s.waited h.wait).statusWord s.cur sel))) := by
  refine issue_gibbsTurn hm hp ?_
  rw [op_bind_ok (op_get _), word_core]
  by_cases hc : clr = true ∧ (s.waited h.wait).gstatus s.cur ≠ GStatus.reset
  · rw [if_pos hc] at hr
    rw [if_pos (by simpa using hc), op_bind_ok (op_modify _ _), resultLater_run hr, word_core]
    rfl
  · rw [if_neg hc] at hr
    rw [if_neg (by simpa using hc), resultLater_run hr, word_core]
    rfl

end
end

/-! ## The landing of an array word (R264, R268) -/

/-- A word that reads no held bytes and needs no colouring check has its effect and is complete. -/
theorem exec_arrayWord_lands {o : Origin} {op : GibbsOp} {s : State} (hw : (s.core o.core).gibbs.word = some op)
    (hb : ∀ e f, op ≠ .load e f ∧ op ≠ .bias e f)
    (hc : op.checks ((s.gibbsDo o.core op).gctl o.core).gates = false) :
    exec (.vectorResultLands o keyGibbs [] 0) s = .next ((State.modGibbs (s.gibbsDo o.core op) o.core (fun a => { a with
      word := none })).finish o) := by
  show execVectorResultLands o keyGibbs [] 0 s = _
  unfold execVectorResultLands State.gibbsLands
  rw [if_pos rfl]
  dsimp only
  rw [hw]
  dsimp only
  cases op with
  | load e f => exact absurd rfl (hb e f).1
  | bias e f => exact absurd rfl (hb e f).2
  | _ => rw [if_neg Bool.false_ne_true, if_neg (ne_true_of_eq_false hc)]

/-- Settles O44: each word by what the rest of its issue comes to after its turn, and the landing of an array word. -/
theorem gibbsWordsComplete : Obligations.GibbsWordsComplete := by
  unfold Obligations.GibbsWordsComplete
  refine ⟨fun h s hm => ?issue, fun _ _ _ hw hb hc => exec_arrayWord_lands hw hb hc⟩
  intro w hp
  refine ⟨execGmode_enters hm hp, execGcntc_enters hm hp, fun k => execGswp_skips hm hp, fun k => execGswp_begins hm hp,
    ?load, fun _ _ _ _ _ _ hx hv hf => execGcolr_enters hm hp hx hv hf,
    fun _ _ _ hv => ⟨execGbeta_enters hm hp hv, execGseed_enters hm hp hv⟩,
    fun _ _ _ _ _ _ hv => execGclmp_enters hm hp hv, fun _ _ _ _ hv => execGfree_enters hm hp hv, ?read,
    fun _ _ _ _ hr => (execGstat_lands hm hp hr).trans rfl⟩
  case load =>
    intro card t hx e first
    exact ⟨fun hl => ⟨loadWord_void hm hp hx rfl hl, loadWord_void hm hp hx rfl hl⟩, fun hl hf hsp hn =>
      ⟨execGload_live hm hp hx rfl hl hf hsp hn, execGbias_live hm hp hx rfl hl hf hsp hn⟩⟩
  case read =>
    intro d r hh hfull ht e
    exact ⟨execGrds_lands hm hp hh hfull ht, fun a hd hx hf =>
      ⟨execGrdc_lands hm hp hh hfull ht hd hx hf, execGrdf_lands hm hp hh hfull ht hd hx hf⟩⟩

end Sys2Proof.Machine
end

section
namespace Sys2Proof.Machine

/-! ## The tagged units of the Gibbs array (R258, R259) -/

section
variable {s : State} {c : Nat}

@[simp] theorem core_modGibbs (s : State) (c : Nat) (f : Gibbs → Gibbs) :
    (s.modGibbs c f).core c = { s.core c with gibbs := f (s.core c).gibbs } := core_modCore ..

@[simp] theorem ownTag_modGibbs (s : State) (c : Nat) (f : Gibbs → Gibbs) : (s.modGibbs c f).ownTag c = s.ownTag c := by
  unfold State.ownTag
  rw [core_modGibbs]
  rfl

theorem tagOk_iff {own t : Tag} : tagOk own t = true ↔ t = own ∧ t.gen ≠ 0 := by simp [tagOk]

theorem cells_tag (s : State) (c g : Nat) : (s.cells c g).tag = s.ownTag c := by
  unfold State.cells
  dsimp only
  split
  · next h => exact (tagOk_iff.1 h).1
  · rfl

/-- A core whose own tag is void reads every group as empty. -/
theorem cells_void {g : Nat} (h : tagOk (s.ownTag c) (s.ownTag c) = false) :
    s.cells c g = ⟨s.ownTag c, 0, 0, [], [], []⟩ :=
  if_neg fun ht => by
    obtain ⟨he, hg⟩ := tagOk_iff.1 ht
    rw [tagOk_self (he ▸ hg)] at h
    cases h

theorem cells_modGibbs {f : Gibbs → Gibbs} (hf : ∀ a, (f a).groups = a.groups) (g : Nat) :
    (s.modGibbs c f).cells c g = s.cells c g := by
  unfold State.cells
  rw [ownTag_modGibbs, core_modGibbs, hf]

theorem gctl_modGibbs {f : Gibbs → Gibbs} (hf : ∀ a, (f a).ctl = a.ctl) : (s.modGibbs c f).gctl c = s.gctl c := by
  unfold State.gctl
  rw [ownTag_modGibbs, core_modGibbs, hf]

end

/-! ## A write to a group of cells -/

section
variable {s : State} {c g : Nat} {f : CellGroup → CellGroup}

@[simp] theorem ownTag_modCells (s : State) (c g : Nat) (f : CellGroup → CellGroup) :
    (s.modCells c g f).ownTag c = s.ownTag c := ownTag_modGibbs ..

@[simp] theorem gctl_modCells (s : State) (c g : Nat) (f : CellGroup → CellGroup) : (s.modCells c g f).gctl c = s.gctl c :=
  gctl_modGibbs fun _ => by rfl

theorem cells_modCells_ne {j : Nat} (h : j ≠ g) : (s.modCells c g f).cells c j = s.cells c j := by
  unfold State.cells State.modCells
  rw [ownTag_modGibbs, core_modGibbs, get_put_ne _ _ _ h]

theorem cells_modCells (ht : tagOk (s.ownTag c) (s.ownTag c) = true) (hf : ∀ v, (f v).tag = v.tag) :
    (s.modCells c g f).cells c g = f (s.cells c g) := by
  have hown : tagOk (s.ownTag c) (f (s.cells c g)).tag = true := by rw [hf, cells_tag]; exact ht
  conv_lhs => unfold State.cells State.modCells
  rw [ownTag_modGibbs, core_modGibbs, get_put, if_pos hown]

/-- What a write to a group leaves of every group. -/
theorem cells_modCells_field {α : Type} (P : CellGroup → α) (hf : ∀ v, (f v).tag = v.tag) (hP : ∀ v, P (f v) = P v)
    (j : Nat) : P ((s.modCells c g f).cells c j) = P (s.cells c j) := by
  by_cases hj : j = g
  · subst hj
    cases ht : tagOk (s.ownTag c) (s.ownTag c) with
    | true => rw [cells_modCells ht hf, hP]
    | false => rw [cells_void ht, cells_void (by rwa [ownTag_modCells]), ownTag_modCells]
  · rw [cells_modCells_ne hj]

end

/-! ## GCNTC (R279) -/

/-- Clears the counts of a group. -/
def CellGroup.uncounted (v : CellGroup) : CellGroup := { v with count := [] }

/-- Clears the counts of the groups of a list. -/
def State.clearCounts (s : State) (c : Nat) (l : Tbl CellGroup) : State :=
  l.foldl (fun t e => t.modCells c e.1 CellGroup.uncounted) s

theorem gibbsDo_clear (s : State) (c : Nat) : s.gibbsDo c .clear = s.clearCounts c (s.core c).gibbs.groups := rfl

theorem cells_clearCounts_field {α : Type} (P : CellGroup → α) (hP : ∀ v, P v.uncounted = P v) (s : State) (c : Nat)
    (l : Tbl CellGroup) (g : Nat) : P ((s.clearCounts c l).cells c g) = P (s.cells c g) :=
  foldl_frame (P := fun t => P (State.cells t c g))
    (fun _ _ => cells_modCells_field (f := CellGroup.uncounted) P (fun _ => rfl) hP g) l s

/-- A group that stands in the list, or whose counts are clear already, has its counts clear after. -/
theorem count_clearCounts {c g : Nat} (l : Tbl CellGroup) :
    ∀ s : State, (∃ v, (g, v) ∈ l) ∨ (s.cells c g).count = [] → ((s.clearCounts c l).cells c g).count = [] := by
  have hclear (s : State) : ((s.modCells c g CellGroup.uncounted).cells c g).count = [] := by
    cases ht : tagOk (s.ownTag c) (s.ownTag c) with
    | true => rw [cells_modCells (f := CellGroup.uncounted) ht fun _ => rfl]; rfl
    | false => rw [cells_void (by rwa [ownTag_modCells])]
  induction l with
  | nil => exact fun s h => h.elim (fun ⟨_, hv⟩ => absurd hv List.not_mem_nil) id
  | cons e l ih =>
    intro s h
    refine ih (s.modCells c e.1 CellGroup.uncounted) ?_
    by_cases he : g = e.1
    · subst he; exact .inr (hclear s)
    · rw [cells_modCells_ne he]
      exact h.imp_left fun ⟨v, hv⟩ => ⟨v, (List.mem_cons.1 hv).resolve_left fun hev => he (congrArg Prod.fst hev)⟩

/-- GCNTC leaves no count in any group: one without an entry has none. -/
theorem count_gibbsDo_clear (s : State) (c g : Nat) : ((s.gibbsDo c .clear).cells c g).count = [] := by
  rw [gibbsDo_clear]
  apply count_clearCounts
  cases hg : Tbl.find (s.core c).gibbs.groups g with
  | some v => exact .inl ⟨v, find_mem hg⟩
  | none =>
    refine .inr ?_
    unfold State.cells Tbl.get
    rw [hg]
    dsimp only
    split
    · rfl
    · rfl

/-- A word of the opcode of GCNTC reads it, and the bits below its fields must be 0. -/
theorem parse_gcntc {w : IWord} (ht : fTag w = 4) (ho : fOp w = 0x0A) : parse w = some (.gcntc (hdrOf w), zero3 (fLow w)) := by
  rw [parse_eq_tagTable (by rw [ho]; decide), ht, ho]
  rfl

theorem toNat_fLow (w : IWord) : (fLow w).toNat = w.toNat % 2 ^ 31 := by
  unfold fLow
  rw [BitVec.extractLsb'_toNat, Nat.shiftRight_zero]

/-- The bits of a word below its header are 0 exactly where no check fails on them. -/
theorem zero3_fLow_iff {w : IWord} : zero3 (fLow w) = [] ↔ w.toNat % 2 ^ 31 = 0 := by
  rw [← zero_iff, ← toNat_fLow, ← BitVec.toNat_inj]
  rfl

/-- Settles O46: the word's bits by its row of the tables and its encoding, its issue and its landing by the rules of array
words, and the counts group by group. -/
theorem gcntcRule : Obligations.GcntcRule := by
  unfold Obligations.GcntcRule
  refine ⟨fun l => decodeOfEncode _ _ _ rfl rfl rfl, fun c w ht ho hz i hd => ?reserved, fun c w h hd => ?bits,
    fun h s hm hp => execGcntc_enters hm hp, fun o s hw => ?lands⟩
  case reserved =>
    have hp := (decodeWord_eq_ok.1 hd).1
    rw [parse_gcntc ht ho] at hp
    simp only [Option.some.injEq, Prod.mk.injEq] at hp
    exact hz (zero3_fLow_iff.1 hp.2)
  case bits =>
    have he : w = packL 4 0x0A h 0 0 := (Option.some.inj (encodeOfDecode c (.gcntc h) w hd)).symm
    obtain ⟨-, -, -, hd, himm⟩ := eq_packL_iff.1 he
    exact zero3_fLow_iff.1 (low_zero_iff.1 ⟨hd, himm⟩)
  case lands =>
    have hcells (g : Nat) : ((s.gibbsDo o.core .clear).modGibbs o.core (fun a => { a with word := none })).cells o.core g =
        (s.gibbsDo o.core .clear).cells o.core g := cells_modGibbs (fun _ => by rfl) g
    refine ⟨_, exec_arrayWord_lands hw (fun _ _ => ⟨nofun, nofun⟩) rfl,
      fun i => ?count, fun i => ?state, fun i => ?bias, (modGibbs_mem ..).trans (gibbsDo_mem ..)⟩
    case count =>
      unfold State.cellCount
      rw [hcells, count_gibbsDo_clear]
      rfl
    case state =>
      unfold State.cellS
      rw [hcells, gibbsDo_clear, cells_clearCounts_field CellGroup.s fun _ => rfl]
    case bias =>
      unfold State.cellBias
      rw [hcells, gibbsDo_clear, cells_clearCounts_field CellGroup.bias fun _ => rfl]

end Sys2Proof.Machine
end

section
namespace Sys2Proof.Machine

/-! ## A cell takes its state (R258, R261) -/

theorem getLsbD_one_shift (j k : Nat) (hk : k < 64) : (1#64 <<< j).getLsbD k = decide (k = j) := by
  rw [← BitVec.twoPow_eq, BitVec.getLsbD_twoPow]
  grind

theorem getLsbD_setBit {w : BitVec 64} {j k : Nat} {b : Bool} (hk : k < 64) :
    (setBit w j b).getLsbD k = if k = j then b else w.getLsbD k := by
  cases b with
  | true =>
    show (w ||| 1#64 <<< j).getLsbD k = _
    rw [BitVec.getLsbD_or, getLsbD_one_shift j k hk]
    by_cases hkj : k = j
    · simp [hkj]
    · simp [hkj]
  | false =>
    show (w &&& ~~~(1#64 <<< j)).getLsbD k = _
    rw [BitVec.getLsbD_and, BitVec.getLsbD_not, getLsbD_one_shift j k hk]
    by_cases hkj : k = j
    · simp [hkj]
    · simp [hkj, hk]

section
variable {s : State} {c i j : Nat} {b : Bool}

@[simp] theorem gctl_setS (s : State) (c i : Nat) (b : Bool) : (s.setS c i b).gctl c = s.gctl c := gctl_modCells ..
@[simp] theorem ownTag_setS (s : State) (c i : Nat) (b : Bool) : (s.setS c i b).ownTag c = s.ownTag c := ownTag_modCells ..

theorem cellS_setS (ht : tagOk (s.ownTag c) (s.ownTag c) = true) : (s.setS c i b).cellS c i = b := by
  unfold State.cellS State.setS
  rw [cells_modCells ht fun _ => by rfl, getLsbD_setBit (Nat.mod_lt _ (by decide)), if_pos rfl]

theorem cellS_setS_ne (h : j ≠ i) : (s.setS c i b).cellS c j = s.cellS c j := by
  unfold State.cellS State.setS
  by_cases hg : j / 64 = i / 64
  · have hb : j % 64 ≠ i % 64 := fun e => h (by rw [← Nat.div_add_mod j 64, ← Nat.div_add_mod i 64, hg, e])
    exact cells_modCells_field (fun v => v.s.getLsbD (j % 64)) (fun _ => by rfl)
      (fun _ => (getLsbD_setBit (Nat.mod_lt _ (by decide))).trans (if_neg hb)) _
  · rw [cells_modCells_ne hg]

end

/-! ## The draws of a gate's cells (R261, R265, R266) -/

/-- A cell of a gate takes its state, by its draw and its P16. -/
def State.updateCell (c : Nat) (p : Nat → Nat) (s : State) (i : Nat) : State :=
  (s.draw c i).2.setS c i (decide ((s.draw c i).1.toNat < p i))

/-- The P16 of the cells of a sweep's gate, from the states and the halo at its start (R262, R263). -/
def State.gateP16 (s : State) (c : Nat) (w : Sweep) (i : Nat) : Nat :=
  gibbsP16 (s.gctl c).beta ((s.modGibbs c (fun a => { a with haloTag := w.h0Tag, halo := w.h0 })).gibbsField c i)

theorem updateGate_eq (s : State) (c : Nat) (w : Sweep) :
    s.updateGate c w = (s.gateCells c w.gate).foldl (State.updateCell c (s.gateP16 c w)) s := rfl

section
variable {s : State} {c i j k : Nat} {p : Nat → Nat} {l : List Nat}

theorem draw_replay (h : (s.gctl c).replay = true) : s.draw c i = (replayDraw (s.gctl c).seed (s.gctl c).sweep i, s) :=
  if_pos h

theorem draw_noise (h : (s.gctl c).replay = false) :
    s.draw c i = (Config.noise s.nextFree, { s with nextFree := s.nextFree + 1 }) := if_neg (ne_true_of_eq_false h)

/-- A draw takes the noise at most. -/
theorem draw_state (s : State) (c i : Nat) : ∃ n, (s.draw c i).2 = { s with nextFree := n } := by
  cases h : (s.gctl c).replay with
  | true => exact ⟨s.nextFree, by rw [draw_replay h]⟩
  | false => exact ⟨_, by rw [draw_noise h]⟩

theorem gctl_updateCell (s : State) : (s.updateCell c p i).gctl c = s.gctl c := by
  obtain ⟨n, hn⟩ := draw_state s c i
  rw [State.updateCell, gctl_setS, hn]
  rfl

theorem ownTag_updateCell (s : State) : (s.updateCell c p i).ownTag c = s.ownTag c := by
  obtain ⟨n, hn⟩ := draw_state s c i
  rw [State.updateCell, ownTag_setS, hn]
  rfl

theorem cellS_updateCell (ht : tagOk (s.ownTag c) (s.ownTag c) = true) :
    (s.updateCell c p i).cellS c i = decide ((s.draw c i).1.toNat < p i) := by
  obtain ⟨n, hn⟩ := draw_state s c i
  exact cellS_setS (by rw [hn]; exact ht)

theorem cellS_updateCell_ne (h : j ≠ i) : (s.updateCell c p i).cellS c j = s.cellS c j := by
  obtain ⟨n, hn⟩ := draw_state s c i
  rw [State.updateCell, hn, cellS_setS_ne h]
  rfl

theorem nextFree_updateCell_replay (h : (s.gctl c).replay = true) : (s.updateCell c p i).nextFree = s.nextFree := by
  rw [State.updateCell, draw_replay h]
  rfl

theorem nextFree_updateCell_noise (h : (s.gctl c).replay = false) :
    (s.updateCell c p i).nextFree = s.nextFree + 1 := by
  rw [State.updateCell, draw_noise h]
  rfl

/-! ## A gate's cells, one after the other -/

theorem gctl_updateCells (l : List Nat) (s : State) : (l.foldl (State.updateCell c p) s).gctl c = s.gctl c :=
  foldl_frame (P := (State.gctl · c)) (fun t _ => gctl_updateCell t) l s

theorem cellS_updateCells_of_notMem (h : i ∉ l) (s : State) :
    (l.foldl (State.updateCell c p) s).cellS c i = s.cellS c i := by
  induction l generalizing s with
  | nil => rfl
  | cons j l ih =>
    rw [List.mem_cons, not_or] at h
    rw [List.foldl_cons, ih h.2, cellS_updateCell_ne h.1]

theorem nextFree_updateCells_replay (l : List Nat) :
    ∀ s : State, (s.gctl c).replay = true → (l.foldl (State.updateCell c p) s).nextFree = s.nextFree := by
  induction l with
  | nil => exact fun _ _ => rfl
  | cons j l ih =>
    intro s h
    rw [List.foldl_cons, ih _ (by rwa [gctl_updateCell]), nextFree_updateCell_replay h]

theorem nextFree_updateCells_noise (l : List Nat) :
    ∀ s : State, (s.gctl c).replay = false → (l.foldl (State.updateCell c p) s).nextFree = s.nextFree + l.length := by
  induction l with
  | nil => exact fun _ _ => rfl
  | cons j l ih =>
    intro s h
    rw [List.foldl_cons, ih _ (by rwa [gctl_updateCell]), nextFree_updateCell_noise h, List.length_cons, Nat.add_right_comm,
      Nat.add_assoc]

/-- The k-th cell of a gate takes its state by the draw it finds after the cells before it. -/
theorem cellS_updateCells (hl : l.Nodup) (hk : l[k]? = some i) (s : State)
    (ht : tagOk (s.ownTag c) (s.ownTag c) = true) : (l.foldl (State.updateCell c p) s).cellS c i =
      decide (((((l.take k).foldl (State.updateCell c p) s).draw c i).1).toNat < p i) := by
  induction l generalizing k s with
  | nil => cases hk
  | cons j l ih =>
    obtain ⟨hj, hl⟩ := List.nodup_cons.1 hl
    cases k with
    | zero =>
      cases hk
      exact (cellS_updateCells_of_notMem hj _).trans (cellS_updateCell ht)
    | succ k => exact ih hl hk _ (by rwa [ownTag_updateCell])

end

/-! ## The gate of a colour phase (R261, R263) -/

section
variable {s : State} {c i k : Nat} {w : Sweep}

theorem mem_gateCells {gate : Nat} : i ∈ s.gateCells c gate ↔
    i < (s.gctl c).nact ∧ s.cellColour c i = gate ∧ s.cellClamp c i = false := by
  simp [State.gateCells]

theorem gateCells_nodup (s : State) (c gate : Nat) : (s.gateCells c gate).Nodup := List.nodup_range.filter _

theorem cellS_updateGate_noise (ht : tagOk (s.ownTag c) (s.ownTag c) = true) (hk : (s.gateCells c w.gate)[k]? = some i)
    (hr : (s.gctl c).replay = false) :
    (s.updateGate c w).cellS c i = decide ((Config.noise (s.nextFree + k)).toNat < s.gateP16 c w i) := by
  have hlen : ((s.gateCells c w.gate).take k).length = k :=
    List.length_take_of_le (List.getElem?_eq_some_iff.1 hk).1.le
  rw [updateGate_eq, cellS_updateCells (gateCells_nodup ..) hk s ht, draw_noise (by rwa [gctl_updateCells]),
    nextFree_updateCells_noise _ _ hr, hlen]

theorem cellS_updateGate_replay (ht : tagOk (s.ownTag c) (s.ownTag c) = true) (hi : i ∈ s.gateCells c w.gate)
    (hr : (s.gctl c).replay = true) : (s.updateGate c w).cellS c i =
      decide ((replayDraw (s.gctl c).seed (s.gctl c).sweep i).toNat < s.gateP16 c w i) := by
  obtain ⟨k, hk⟩ := List.mem_iff_getElem?.1 hi
  rw [updateGate_eq, cellS_updateCells (gateCells_nodup ..) hk s ht, draw_replay (by rwa [gctl_updateCells]),
    gctl_updateCells]

end

/-! ## The halo at the start of a gate (R263, R267) -/

/-- A core whose halo is replaced. -/
def State.withHalo (s : State) (c : Nat) (tag : Tag) (h : List Byte) : State :=
  s.modGibbs c (fun a => { a with haloTag := tag, halo := h })

theorem put_put {α : Type} (m : Tbl α) (n : Nat) (v w : α) : Tbl.put (Tbl.put m n v) n w = Tbl.put m n w := by
  induction m with
  | nil => simp [Tbl.put]
  | cons e m ih =>
    obtain ⟨k, u⟩ := e
    by_cases hlt : n < k
    · simp [Tbl.put, hlt]
    · by_cases he : k = n
      · simp [Tbl.put, he]
      · simp [Tbl.put, hlt, he, ih]

theorem modCore_modCore (s : State) (c : Nat) (f g : Core → Core) :
    (s.modCore c f).modCore c g = s.modCore c (fun k => g (f k)) := by
  unfold State.modCore
  rw [core_setCore]
  unfold State.setCore
  rw [put_put]

theorem modGibbs_modGibbs (s : State) (c : Nat) (f g : Gibbs → Gibbs) :
    (s.modGibbs c f).modGibbs c g = s.modGibbs c (fun a => g (f a)) := modCore_modCore ..

section
variable (s : State) (c : Nat) (tag : Tag) (h : List Byte)

theorem gctl_withHalo : (s.withHalo c tag h).gctl c = s.gctl c := gctl_modGibbs fun _ => by rfl

theorem cells_withHalo (g : Nat) : (s.withHalo c tag h).cells c g = s.cells c g := cells_modGibbs (fun _ => by rfl) g

theorem withHalo_withHalo (tag' : Tag) (h' : List Byte) :
    (s.withHalo c tag h).withHalo c tag' h' = s.withHalo c tag' h' := modGibbs_modGibbs ..

theorem modCells_withHalo (g : Nat) (f : CellGroup → CellGroup) :
    (s.withHalo c tag h).modCells c g f = (s.modCells c g f).withHalo c tag h := by
  unfold State.modCells
  rw [cells_withHalo]
  unfold State.withHalo
  rw [modGibbs_modGibbs, modGibbs_modGibbs]

theorem draw_withHalo (i : Nat) :
    (s.withHalo c tag h).draw c i = ((s.draw c i).1, (s.draw c i).2.withHalo c tag h) := by
  cases hr : (s.gctl c).replay with
  | true => rw [draw_replay hr, draw_replay (by rwa [gctl_withHalo]), gctl_withHalo]
  | false => rw [draw_noise hr, draw_noise (by rwa [gctl_withHalo])]; rfl

theorem updateCell_withHalo (p : Nat → Nat) (i : Nat) :
    (s.withHalo c tag h).updateCell c p i = (s.updateCell c p i).withHalo c tag h := by
  unfold State.updateCell
  rw [draw_withHalo]
  exact modCells_withHalo ..

theorem gateCells_withHalo (gate : Nat) : (s.withHalo c tag h).gateCells c gate = s.gateCells c gate := by
  unfold State.gateCells State.cellColour State.cellClamp
  rw [gctl_withHalo]
  simp only [cells_withHalo]

theorem gateP16_withHalo (w : Sweep) : (s.withHalo c tag h).gateP16 c w = s.gateP16 c w := by
  funext i
  unfold State.gateP16
  rw [gctl_withHalo]
  exact congrArg (fun t => gibbsP16 (s.gctl c).beta (State.gibbsField t c i)) (withHalo_withHalo ..)

/-- A gate reads the halo that its phase holds, whatever the halo is since. -/
theorem updateGate_withHalo (w : Sweep) : (s.withHalo c tag h).updateGate c w = (s.updateGate c w).withHalo c tag h := by
  rw [updateGate_eq, updateGate_eq, gateCells_withHalo, gateP16_withHalo]
  exact (List.foldl_hom (State.withHalo · c tag h) fun t i => updateCell_withHalo t c tag h _ i)

end

/-! ## Phases and sweeps (R263, R266) -/

theorem gibbs_putRecord (s : State) (v : BitVec 6) (area : Nat) (host : Bool) (bytes : List Byte) (d : Nat) :
    ((s.putRecord v area host bytes).core d).gibbs = (s.core d).gibbs := by
  have hwrite (s : State) (tag : Tag) (k : Nat) (bs : List Byte) : ((s.write tag k bs).core d).gibbs = (s.core d).gibbs :=
    field_write Core.gibbs (fun _ _ => rfl) (fun _ _ _ => rfl) s tag k bs d
  unfold State.putRecord
  extract_lets tag
  split
  · rfl
  · extract_lets hdr count lost s1
    have hs1 : (s1.core d).gibbs = (s.core d).gibbs := by
      unfold s1
      split
      · rw [hwrite, hwrite]
      · rw [hwrite]
    split
    · rwa [core_send]
    · exact hs1

/-- A failed health test writes the control block and its status alone of the array (R266). -/
theorem halo_healthFail (s : State) (o : Origin) : (((s.healthFail o).core o.core).gibbs.haloTag,
    ((s.healthFail o).core o.core).gibbs.halo) = ((s.core o.core).gibbs.haloTag, (s.core o.core).gibbs.halo) := by
  unfold State.healthFail
  extract_lets k s1 s2
  have hs2 : (s2.core o.core).gibbs = (s1.core o.core).gibbs := by
    unfold s2
    split
    · exact gibbs_putRecord ..
    · rfl
  rw [core_send, hs2]
  unfold s1 State.setCtl
  rw [core_modGibbs]

/-- A phase that begins holds the halo as it stands (R263). -/
theorem sweep_beginPhase (w : Sweep) (s : State) : ((s.beginPhase w).core w.o.core).gibbs.sweep = some { w with
    h0Tag := (s.core w.o.core).gibbs.haloTag, h0 := (s.core w.o.core).gibbs.halo } := by
  unfold State.beginPhase
  extract_lets c t s1 e
  have hs1 : ((s1.core c).gibbs.haloTag, (s1.core c).gibbs.halo) = ((s.core c).gibbs.haloTag, (s.core c).gibbs.halo) := by
    unfold s1
    split
    · rfl
    · split
      · rfl
      · exact halo_healthFail t w.o
  obtain ⟨htag, hhalo⟩ := Prod.mk.inj hs1
  rw [core_later, core_modGibbs, htag, hhalo]

section
variable {c : Nat} {s : State} {w : Sweep}

theorem execColourPhase_idle (h : (s.core c).gibbs.sweep = none) : execColourPhase c s = .next s := by
  unfold execColourPhase
  rw [h]

theorem execColourPhase_nextGate (h : (s.core c).gibbs.sweep = some w) (hg : w.gate + 1 < (s.gctl c).gates) :
    execColourPhase c s = .next ((s.updateGate c w).beginPhase { w with gate := w.gate + 1 }) := by
  unfold execColourPhase
  rw [h]
  exact if_pos hg

theorem execColourPhase_lastGate (h : (s.core c).gibbs.sweep = some w) (hg : (s.gctl c).gates ≤ w.gate + 1) :
    execColourPhase c s =
      if 1 < w.left then .next (((s.updateGate c w).countSweeps c 1).beginPhase { w with left := w.left - 1, gate := 0 })
      else .next ((State.modGibbs ((s.updateGate c w).countSweeps c 1) c (fun a => { a with sweep := none })).finish w.o) := by
  unfold execColourPhase
  rw [h]
  exact if_neg hg.not_gt

end

theorem foldl_add_eq_add_sum {α : Type} (f : α → Int) (l : List α) :
    ∀ b : Int, l.foldl (fun x e => x + f e) b = b + (l.map f).sum := by
  induction l with
  | nil => exact fun b => (Int.add_zero b).symm
  | cons e l ih => exact fun b => by rw [List.foldl_cons, ih, List.map_cons, List.sum_cons, Int.add_assoc]

/-- The field is the bias plus each coupling times its neighbour's spin (R261). -/
theorem gibbsField_eq (c i : Nat) (s : State) : s.gibbsField c i = s.cellBias c i + ((s.couplings c i).map (fun e => e.1 *
    (if (if e.2.1 then s.haloBit c e.2.2 else s.cellS c e.2.2) then 1 else if (s.gctl c).bip then -1 else 0))).sum := by
  have hspin (bip b : Bool) : (if bip = true then (if b = true then (1 : Int) else -1) else if b = true then 1 else 0) =
      if b = true then 1 else if bip = true then -1 else 0 := by cases bip <;> cases b <;> rfl
  unfold State.gibbsField
  dsimp only
  rw [foldl_add_eq_add_sum]
  simp only [hspin]

/-- Settles O45: the ends of a phase by its gate and its sweeps, the halo by what a gate reads of it, and the states cell by
cell in the order of the gate. -/
theorem colourPhasesRun : Obligations.ColourPhasesRun := by
  unfold Obligations.ColourPhasesRun
  refine ⟨fun c s => execColourPhase_idle,
    fun c s w hw => ⟨execColourPhase_nextGate hw, fun hg hl => ?last, fun hg hl => ?sweep⟩,
    sweep_beginPhase, fun c w s tag h => updateGate_withHalo s c tag h w, fun c i w s hr _ hi => ?kept,
    fun c i w s ht hn hcol hcl hr => cellS_updateGate_replay ht (mem_gateCells.2 ⟨hn, hcol, hcl⟩) hr,
    fun c k i w s ht hk hr => cellS_updateGate_noise ht hk hr, gibbsField_eq⟩
  case last => exact (execColourPhase_lastGate hw hg).trans (if_neg hl.not_gt)
  case sweep => exact (execColourPhase_lastGate hw hg).trans (if_pos hl)
  case kept =>
    have hnot : i ∉ s.gateCells c w.gate := fun hmem => by
      obtain ⟨hact, hcol, hcl⟩ := mem_gateCells.1 hmem
      rcases hi with h | h | h
      · exact h hcol
      · rw [hcl] at h; cases h
      · exact h.not_gt hact
    exact ⟨cellS_updateCells_of_notMem hnot s, nextFree_updateCells_replay _ s hr⟩

end Sys2Proof.Machine
end

section
namespace Sys2Proof.Machine

/-! ## Privileged words (R325) -/

section
variable {w : Walker} {h : Hdr} {d a b : Name} {f : Origin → Word → Word → Op PrivAns} {s t u : State}
  (hp : s.mayPrivilege w h d a b t)
include hp

/-- What a privileged word that may issue does in its core once its body has answered (R325). -/
theorem privOn_answers {r : PrivAns} (hf : (f (s.word w h) (s.xArg h a) (s.xArg h b)).run t = .ok (r, u)) :
    privOn w h d a b f s = .next (State.advanced
      (match r with
        | .done v lat => ((u.begin (s.word w h)).modW s.cur w (fun x => { x with blocked := true })).later s.cur lat
            (.scalarResultLands (s.word w h) d v)
        | .later => (u.begin (s.word w h)).modW s.cur w (fun x => { x with blocked := true })) s w 1) := by
  obtain ⟨hm, hpend, ha, hb, hd⟩ := hp
  refine issue_seq hm ?_
  rw [op_bind_ok (op_getCore _ _), op_bind_ok (op_need (by simpa using hpend) _),
    op_bind_ok (srcX_run (by simpa using ha)), op_bind_ok (srcX_run (by simpa using hb)), op_bind_ok hd]
  unfold State.xArg at hf
  rw [word_core, op_bind_ok hf, op_bind_ok (op_modify _ _)]
  cases r with
  | done v lat => rw [op_bind_ok (op_modify _ _)]; rfl
  | later => rfl

/-- A body that gives a value: it lands in the word's destination, and the walker waits for it. -/
theorem privOn_done {v : Word} {lat : Nat}
    (hf : (f (s.word w h) (s.xArg h a) (s.xArg h b)).run t = .ok (.done v lat, u)) :
    privOn w h d a b f s = .next (u.privileged s w h d v lat) := privOn_answers hp hf

/-- A body whose word an event completes. -/
theorem privOn_later (hf : (f (s.word w h) (s.xArg h a) (s.xArg h b)).run t = .ok (.later, u)) :
    privOn w h d a b f s = .next (u.awaits s w h) := privOn_answers hp hf

end

/-! ## What reset leaves (R252, R307, R323, R399) -/

theorem coreDefault_live (c : Nat) : (coreDefault c).live = false := by
  unfold coreDefault; split_ifs <;> rfl

theorem coreDefault_x (c : Nat) : (coreDefault c).x = [] := by
  unfold coreDefault; split_ifs <;> rfl

/-- Settles O1: tables are empty at reset, so each entry reads as its default. -/
theorem resetLeaves : Obligations.ResetLeaves := by
  refine ⟨rfl, rfl, rfl, fun _ => ⟨rfl, rfl⟩, fun _ => rfl, fun t n => ?_, rfl, rfl, rfl, rfl, rfl, fun c r => ?_,
    coreDefault_live⟩
  · have hd : State.reset.dispenser t n = ⟨voidTag, 0, 0, 0, 0⟩ := ite_self _
    exact ⟨by rw [hd], by rw [hd]⟩
  · show (coreDefault c).readX r = 0
    unfold Core.readX
    rw [coreDefault_x]
    exact ite_self 0

end Sys2Proof.Machine
end

section
namespace Sys2Proof.Machine

/-! ## Privileged control words that name a VF (R325) -/

section
variable {h : Hdr} {d a b : Name} {s t u : State} {g : Origin → Word → Word → State → BitVec 6 → Op PrivAns} {v : BitVec 6}
  (hp : s.mayPrivilege .C h d a b t)
include hp

theorem privWord_unnamed (hn : t.namedVf (s.xArg h a) = none) :
    privWord h d a b (fun o x y => do
      let s ← get
      match s.namedVf x with
      | none => return .done (refusal 1) 1
      | some v => g o x y s v) s = .next (t.privileged s .C h d (refusal 1) 1) :=
  privOn_done hp (by rw [op_bind_ok (op_get _), hn]; rfl)

variable (hn : t.namedVf (s.xArg h a) = some v)
include hn

theorem privWord_done {val : Word} {lat : Nat}
    (hg : (g (s.word .C h) (s.xArg h a) (s.xArg h b) t v).run t = .ok (.done val lat, u)) :
    privWord h d a b (fun o x y => do
      let s ← get
      match s.namedVf x with
      | none => return .done (refusal 1) 1
      | some v => g o x y s v) s = .next (u.privileged s .C h d val lat) :=
  privOn_done hp (by rw [op_bind_ok (op_get _), hn]; exact hg)

theorem privWord_later (hg : (g (s.word .C h) (s.xArg h a) (s.xArg h b) t v).run t = .ok (.later, u)) :
    privWord h d a b (fun o x y => do
      let s ← get
      match s.namedVf x with
      | none => return .done (refusal 1) 1
      | some v => g o x y s v) s = .next (u.awaits s .C h) :=
  privOn_later hp (by rw [op_bind_ok (op_get _), hn]; exact hg)

end

/-- Settles O33: each word's checks come in the order of its rule, and the first that fails answers. -/
theorem privilegedWordsRefuse : Obligations.PrivilegedWordsRefuse := by
  unfold Obligations.PrivilegedWordsRefuse
  refine ⟨fun h d a b s t hp hn => ⟨privWord_unnamed hp hn, privWord_unnamed hp hn, privWord_unnamed hp hn,
      privWord_unnamed hp hn, fun all => privWord_unnamed hp hn, privWord_unnamed hp hn⟩,
    fun h d a s t hp hn => ⟨privWord_unnamed hp hn, privWord_unnamed hp hn⟩, fun h d a b s t hp hx => privOn_done hp ?map,
    fun h d a s t v hp hn hr => privWord_done hp hn ?advRunning,
    fun h d a b s t v hp hn hr => privWord_done hp hn ?stopRunning,
    fun h d a s t v hp hn hr hs => privWord_done hp hn ?advUnstopped,
    fun h d a b s t v hp hn hx => privWord_done hp hn ?policy⟩
  case map => rw [op_bind_ok (op_get _), if_pos hx]; rfl
  case advRunning => rw [if_pos hr]; rfl
  case stopRunning => rw [if_pos hr]; rfl
  case advUnstopped => rw [if_neg (by simp [hr]), if_pos hs]; rfl
  case policy => rw [if_pos hx]; rfl

end Sys2Proof.Machine
end

section
namespace Sys2Proof.Machine

/-! ## Privileged words that complete (R306, R311 to R313, R325 to R330) -/

section
variable {h : Hdr} {d a b : Name} {s t : State} {v : BitVec 6} {g : Nat} {gv : Gang} {r : List Byte}
  (hp : s.mayPrivilege .C h d a b t)
include hp

/-- PSET.MAP of a VF that is not created creates it stopped (R327). -/
theorem execPsetMap_creates (hx : (s.xArg h a).toNat < 64) (hc : (t.vf (s.xArg h a).toNat).created = false)
    (hg : t.hasGang ((s.xArg h a).setWidth 6) = false) (hr : t.mgmtRecord (s.xArg h b).toNat 1024 = some r)
    (hok : t.recordOk (s.xArg h a).toNat r = true) :
    execPsetMap h d a b s = .next (State.privileged ((t.modVf (s.xArg h a).toNat (fun _ =>
      { Vf.reset with created := true, record := r, status := .stopped, statusGen := 1 })).send
        (.msix (some ((s.xArg h a).setWidth 6)) 1)) s .C h d 0 1) := by
  refine privOn_done hp ?_
  have hv : ((s.xArg h a).setWidth 6).toNat = (s.xArg h a).toNat := by
    rw [BitVec.toNat_setWidth]; exact Nat.mod_eq_of_lt hx
  rw [op_bind_ok (op_get _), if_neg hx.not_ge]
  dsimp only
  rw [hv, if_neg (by simp [hc]), if_neg (by simp [hc]), if_neg (by simp [hg]), hr]
  dsimp only
  rw [if_neg (by simp [hok]), op_bind_ok (op_modify _ _), if_neg (by simp [hc])]
  rfl

variable (hn : t.namedVf (s.xArg h a) = some v)
include hn

theorem execPsetStop_begins (hrun : t.hasRunning v = false) (ha : (s.xArg h b).toNat % 64 = 0)
    (hb : (s.xArg h b).toNat < 2 ^ 52) :
    execPsetStop h d a b s = .next (((t.setStatus v .stopping).after 1 (.releaseTakesEffect (s.word .C h) .sys
      (s.word .C h).age (.stop v (s.xArg h b).toNat d))).awaits s .C h) := by
  refine privWord_later hp hn ?_
  rw [if_neg (by simp [hrun]), if_neg (by simpa [ha] using hb)]
  rfl

/-- FRZ of a running gang: its gate is due at the end of the 16th uncore cycle (R328). -/
theorem execFrz_begins (hg : t.gangHolding v (s.xArg h b).toNat = some (g, gv)) (hf : gv.frozen = none)
    (hs : gv.cores.length ≤ t.freeSlots v) :
    execFrz h d a b s = .next ((t.after 33 (.freezeGate g .owner (s.word .C h) d)).awaits s .C h) := by
  refine privWord_later hp hn ?_
  rw [hg]
  dsimp only
  rw [hf]
  dsimp only
  rw [if_neg hs.not_gt]
  rfl

theorem execThaw_resumes (hst : (t.vf v.toNat).status ≠ .stopped)
    (hg : t.gangHolding v (s.xArg h b).toNat = some (g, gv)) (hf : gv.frozen = some .trap) (hs : gv.saved = true)
    (hr : gv.records = []) (hc : gv.cores.all (t.coreFreeFor g) = true) :
    execThaw h d a b s = .next ((((t.clearArea v gv.area).modGang g (fun w => { w with
      thaw := w.thaw ++ [(s.word .C h, d)] })).after 1 (.gangResume g)).awaits s .C h) := by
  refine privWord_later hp hn ?_
  rw [if_neg hst, hg]
  dsimp only
  rw [if_neg (by simp [hf]), if_neg (by simp [hc]), op_bind_ok (op_need (by simp [hs, hr]) _), op_bind_ok (op_modify _ _), if_pos hf]
  rfl

/-- KEYLD of a well-formed record: its key where it unwraps, else reason 0x0A (R329). -/
theorem execKeyld_answers (hr : t.mgmtRecord (s.xArg h b).toNat 64 = some r) (h1 : field r 41 1 ≤ 1)
    (h2 : field r 42 2 ≤ 63) (h3 : field r 44 20 = 0) :
    let slot := fun key => (⟨⟨false, v, t.gen v⟩, key, field r 41 1 = 1, field r 42 2⟩ : KeySlot)
    execKeyld h d a b s = .next (match keyUnwrap Config.wrappingKey (r.take 40) with
      | some key => State.privileged { t with
          keys := Tbl.put t.keys (v.toNat * 256 + field r 40 1) (slot key) } s .C h d 0 1
      | none => t.privileged s .C h d (refusal 0x0A) 1) := by
  intro slot
  have hwf : ¬ (decide (1 < field r 41 1) || decide (63 < field r 42 2) || decide (field r 44 20 ≠ 0)) = true := by
    simp [h1.not_gt, h2.not_gt, h3]
  cases hk : keyUnwrap Config.wrappingKey (r.take 40) with
  | none =>
    refine privWord_done hp hn ?_
    rw [hr]
    dsimp only
    rw [if_neg hwf, hk]
    rfl
  | some key =>
    refine privWord_done hp hn ?_
    rw [hr]
    dsimp only
    rw [if_neg hwf, hk]
    rfl

theorem execKeyerase_empties {all : Bool} (hk : all = true ∨ (s.xArg h b).toNat < 256) :
    execKeyerase h all d a b s = .next (State.privileged { t with
      keys := t.keys.filter (fun e => !(e.1 / 256 = v.toNat && (all || e.1 % 256 = (s.xArg h b).toNat))) } s .C h d 0 1) := by
  refine privWord_done hp hn ?_
  rw [if_neg (by rcases hk with hk | hk <;> simp [hk, Nat.not_le.2])]
  rfl

theorem execPolset_sets (hx : (s.xArg h b).toNat < 4) :
    execPolset h d a b s = .next (State.privileged (t.modVf v.toNat
      (fun f => { f with policy := (s.xArg h b).setWidth 2 })) s .C h d 0 1) :=
  privWord_done hp hn (by rw [if_neg hx.not_ge]; rfl)

end

/-- Settles O31, word by word. -/
theorem privilegedWordsComplete : Obligations.PrivilegedWordsComplete := by
  unfold Obligations.PrivilegedWordsComplete
  exact ⟨fun h d a s t v hp hn => privWord_done hp hn rfl,
    fun h d a b s t v hp hn => execPsetStop_begins hp hn,
    fun h d a b s t r hp => execPsetMap_creates hp,
    fun h d a b s t v g gv hp hn => execFrz_begins hp hn,
    fun h d a b s t v g gv hp hn => execThaw_resumes hp hn,
    fun h d a b s t v r hp hn => execKeyld_answers hp hn,
    fun h all d a b s t v hp hn => execKeyerase_empties hp hn,
    fun h d a b s t v hp hn => execPolset_sets hp hn,
    fun h d s t hp => privOn_later hp rfl⟩

end Sys2Proof.Machine
end

section
namespace Sys2Proof.Machine

/-! ## What writes, saves and marks leave alone (R3, R214, R307, R315) -/

section
variable {α : Type} {P : State → α} (hP : ∀ (s : State) cores mem tags poison bad, P { s with
  cores := cores, mem := mem, tags := tags, poison := poison, badLines := bad } = P s)
include hP

theorem writeUnit_frame (s : State) (tag : Tag) (k : Nat) (bs : List Byte) : P (s.writeUnit tag k bs) = P s := by
  unfold State.writeUnit
  extract_lets u fresh mem0 s1
  split
  · exact hP s _ _ _ _ _
  · split
    · exact hP s _ _ _ _ _
    · exact hP s _ _ _ _ _

theorem write_frame (s : State) (tag : Tag) (k : Nat) (bs : List Byte) : P (s.write tag k bs) = P s := by
  unfold State.write
  split
  · exact foldl_frame (P := fun a : State × List Byte => P a.1) (fun a r => writeUnit_frame hP a.1 ..) _ (s, bs)
  · exact hP s _ _ _ _ _

theorem mark_frame (s : State) (key n : Nat) (poison : Bool) : P (s.mark key n poison) = P s := by
  cases poison
  · rfl
  · exact hP s _ _ _ _ _

theorem markEmpty_frame (s : State) (tag : Tag) (c off n : Nat) : P (s.markEmpty tag c off n) = P s := by
  unfold State.markEmpty
  extract_lets s1
  refine (hP s1 _ _ _ _ _).trans (foldl_frame (P := P) (fun a r => ?_) _ s)
  split
  · exact writeUnit_frame hP ..
  · rfl

/-- The save of a core adds one save to the table, or none. -/
theorem saveCore_frame (hsaves : ∀ s x, P { s with saves := x } = P s) (s : State) (c g : Nat) : P (s.saveCore c g) = P s := by
  unfold State.saveCore
  extract_lets k tag
  split
  · rfl
  · extract_lets s1
    refine (hsaves s1 _).trans (foldl_frame (P := P) (fun t p => ?_) _ s)
    split
    · exact write_frame hP ..
    · rfl

end

/-- The save of a core is the gang's, or there is no room for it (R315). -/
theorem saves_saveCore (s : State) (c g : Nat) : (s.saveCore c g).saves = s.saves ∨
    ∃ n sv, sv.gang = g ∧ (s.saveCore c g).saves = Tbl.put s.saves n sv := by
  unfold State.saveCore
  generalize ((0, zeros 0x47000) :: s.saveBytes c) = l
  extract_lets k tag
  split
  · exact .inl rfl
  · next a _ =>
    have hfold (l : List (Nat × List Byte)) : (l.foldl (fun (t : State) p => match t.vaultKey k.vf (a + p.1) with
        | some key => t.write tag key p.2
        | none => t) s).saves = s.saves := by
      refine foldl_frame (P := State.saves) (fun t p => ?_) l s
      split
      · exact write_frame (P := State.saves) (fun _ _ _ _ _ _ => rfl) ..
      · rfl
    exact .inr ⟨_, _, rfl, congrArg (Tbl.put · _ _) (hfold l)⟩

/-! ## What the end of a gang leaves (R284, R285, R309, R321) -/

theorem mem_of_mem_put {α : Type} {m : Tbl α} {n : Nat} {v : α} {e : Nat × α} (h : e ∈ Tbl.put m n v) : e = (n, v) ∨ e ∈ m := by
  induction m with
  | nil => exact .inl (List.mem_singleton.1 h)
  | cons a m ih =>
    unfold Tbl.put at h
    split at h
    · exact (List.mem_cons.1 h)
    · split at h
      · exact (List.mem_cons.1 h).imp id (List.mem_cons_of_mem _)
      · obtain rfl | h := List.mem_cons.1 h
        · exact .inr List.mem_cons_self
        · exact (ih h).imp id (List.mem_cons_of_mem _)

/-- A state after changes that begin no gang and move none to another VF, save none that is not there, and leave every VF its
generation with the sets of its old ones. -/
structure State.Leaves (s t : State) : Prop where
  vfs : ∀ n, ((t.vf n).gen, (t.vf n).pend, (t.vf n).old) = ((s.vf n).gen, (s.vf n).pend, (s.vf n).old)
  gangs : ∀ e ∈ t.gangs, ∃ e' ∈ s.gangs, e'.1 = e.1 ∧ e'.2.vf = e.2.vf
  saves : ∀ e ∈ t.saves, (∃ e' ∈ s.saves, e'.2.gang = e.2.gang) ∨ ∃ e' ∈ s.gangs, e'.1 = e.2.gang

namespace State.Leaves

theorem of_eq {s t : State} (hv : t.vfs = s.vfs) (hg : t.gangs = s.gangs) (hs : t.saves = s.saves) : s.Leaves t := by
  refine ⟨fun n => ?_, fun e he => ⟨e, hg ▸ he, rfl, rfl⟩, fun e he => .inl ⟨e, hs ▸ he, rfl⟩⟩
  unfold State.vf
  rw [hv]

theorem refl (s : State) : s.Leaves s := of_eq rfl rfl rfl

theorem trans {s t u : State} (h : s.Leaves t) (h' : t.Leaves u) : s.Leaves u := by
  refine ⟨fun n => (h'.vfs n).trans (h.vfs n), fun e he => ?_, fun e he => ?_⟩
  · obtain ⟨e', he', hn, hv⟩ := h'.gangs e he
    obtain ⟨e'', he'', hn', hv'⟩ := h.gangs e' he'
    exact ⟨e'', he'', hn'.trans hn, hv'.trans hv⟩
  · obtain ⟨e', he', hn⟩ | ⟨e', he', hn⟩ := h'.saves e he
    · exact hn ▸ h.saves e' he'
    · obtain ⟨e'', he'', hn', -⟩ := h.gangs e' he'
      exact .inr ⟨e'', he'', hn'.trans hn⟩

theorem foldl {β : Type} {f : State → β → State} (h : ∀ (s : State) b, s.Leaves (f s b)) (l : List β) :
    ∀ s : State, s.Leaves (l.foldl f s) := by
  induction l with
  | nil => exact refl
  | cons b l ih => exact fun s => (h s b).trans (ih _)

/-- A frame that covers the VFs, the gangs and the saves. -/
theorem of_frame {s t : State} (h : ∀ {α : Type} {P : State → α}, (∀ (s : State) cores mem tags poison bad, P { s with
    cores := cores, mem := mem, tags := tags, poison := poison, badLines := bad } = P s) → P t = P s) : s.Leaves t :=
  of_eq (h (P := State.vfs) fun _ _ _ _ _ _ => rfl) (h (P := State.gangs) fun _ _ _ _ _ _ => rfl)
    (h (P := State.saves) fun _ _ _ _ _ _ => rfl)

theorem write (s : State) (tag : Tag) (k : Nat) (bs : List Byte) : s.Leaves (s.write tag k bs) :=
  of_frame fun hP => write_frame hP ..

theorem modCore (s : State) (c : Nat) (f : Core → Core) : s.Leaves (s.modCore c f) := of_eq rfl rfl rfl

theorem after (s : State) (d : Nat) (i : Instr) : s.Leaves (s.after d i) := of_eq rfl rfl rfl

theorem later (s : State) (c d : Nat) (i : Instr) : s.Leaves (s.later c d i) := of_eq rfl rfl rfl

theorem send (s : State) (m : Sent) : s.Leaves (s.send m) := of_eq rfl rfl rfl

theorem modVf (s : State) (v : Nat) {f : Vf → Vf} (hf : ∀ x, ((f x).gen, (f x).pend, (f x).old) = (x.gen, x.pend, x.old)) :
    s.Leaves (s.modVf v f) := by
  refine ⟨fun n => ?_, fun e he => ⟨e, he, rfl, rfl⟩, fun e he => .inl ⟨e, he, rfl⟩⟩
  by_cases hn : n = v
  · rw [hn, vf_modVf]; exact hf _
  · rw [vf_modVf_ne s f hn]

theorem staleDrop (s : State) (v : BitVec 6) (n : Nat) : s.Leaves (s.staleDrop v n) := modVf s _ fun _ => rfl

theorem modGang (s : State) (g : Nat) {f : Gang → Gang} (hf : ∀ x, (f x).vf = x.vf) : s.Leaves (s.modGang g f) := by
  unfold State.modGang
  split
  · next gv hg =>
    refine ⟨fun n => rfl, fun e he => ?_, fun e he => .inl ⟨e, he, rfl⟩⟩
    obtain rfl | he := mem_of_mem_put he
    · exact ⟨(g, gv), find_mem hg, rfl, (hf gv).symm⟩
    · exact ⟨e, he, rfl, rfl⟩
  · exact refl s

theorem modHome (s : State) (g c : Nat) (f : Core → Core) : s.Leaves (s.modHome g c f) := by
  unfold State.modHome
  split
  · exact modCore ..
  · refine ⟨fun n => rfl, fun e he => ⟨e, he, rfl, rfl⟩, fun e he => ?_⟩
    obtain ⟨e', he', rfl⟩ := List.mem_map.1 he
    refine .inl ⟨e', he', ?_⟩
    dsimp only
    split
    · rfl
    · rfl

theorem notePoison (s : State) (g : Galley) (poison : Bool) : s.Leaves (s.notePoison g poison) := by
  unfold State.notePoison
  split
  · exact modHome ..
  · exact refl s

/-- The save of a core that a gang of the table has. -/
theorem saveCore {s : State} {c g : Nat} {gv : Gang} (hg : s.gang g = some gv) : s.Leaves (s.saveCore c g) := by
  have hvfs : (s.saveCore c g).vfs = s.vfs :=
    saveCore_frame (P := State.vfs) (fun _ _ _ _ _ _ => rfl) (fun _ _ => rfl) s c g
  have hgangs : (s.saveCore c g).gangs = s.gangs :=
    saveCore_frame (P := State.gangs) (fun _ _ _ _ _ _ => rfl) (fun _ _ => rfl) s c g
  refine ⟨(of_eq (t := { s.saveCore c g with saves := s.saves }) hvfs hgangs rfl).vfs,
    fun e he => ⟨e, hgangs ▸ he, rfl, rfl⟩, fun e he => ?_⟩
  obtain h | ⟨a, sv, hsv, h⟩ := saves_saveCore s c g
  · exact .inl ⟨e, h ▸ he, rfl⟩
  · rw [h] at he
    obtain rfl | he := mem_of_mem_put he
    · exact .inr ⟨(g, gv), find_mem hg, hsv.symm⟩
    · exact .inl ⟨e, he, rfl⟩

theorem takeTrap (s : State) (o : Origin) (cls : TrapClass) (code addr : Nat) : s.Leaves (s.takeTrap o cls code addr) := by
  unfold State.takeTrap
  extract_lets k s1 g
  have h1 : s.Leaves s1 := modCore ..
  split
  · exact refl s
  · split
    next gv _ hg =>
      extract_lets bytes s2
      have hsave : s1.Leaves (s1.saveCore o.core k.gang) := saveCore (gv := gv) hg
      have h2 : s.Leaves s2 := (h1.trans hsave).trans (modGang (s1.saveCore o.core k.gang) k.gang fun _ => rfl)
      split
      · exact h2
      · split
        · exact h2.trans (after ..)
        · exact h2.trans (after ..)
    next => exact h1.trans (send ..)

theorem post (s : State) (o : Origin) (n : BitVec 4) : s.Leaves (s.post o n) := by
  unfold State.post
  extract_lets v w s1
  split
  · exact refl s
  · split
    · exact of_eq rfl rfl rfl
    · have h1 : s.Leaves s1 := of_eq rfl rfl rfl
      split
      · exact h1.trans (later ..)
      · exact h1.trans (takeTrap ..)

theorem land (s : State) (o : Origin) (d : Name) (v : Word) : s.Leaves (s.land o d v) := by
  unfold State.land
  split
  · exact modCore ..
  · unfold State.sendEntry
    split
    · split
      · exact of_eq rfl rfl rfl
      · exact of_eq rfl rfl rfl
    · exact refl s
  · exact refl s

theorem privDone (s : State) (o : Origin) (d : Name) (v : Word) : s.Leaves (s.privDone o d v) := by
  unfold State.privDone State.finish State.complete
  refine ((land s o d v).trans ?_).trans ((post _ o _).trans (post ..))
  exact of_eq rfl rfl rfl

theorem modGalley (s : State) (id : Nat) (f : Galley → Galley) : s.Leaves (s.modGalley id f) := by
  unfold State.modGalley
  split
  · exact of_eq rfl rfl rfl
  · exact refl s

theorem lineDone (s : State) (l : HeldLine) : s.Leaves (s.lineDone l) := by
  unfold State.lineDone
  extract_lets s1
  have h1 : s.Leaves s1 := by
    unfold s1
    split
    · exact (modGalley ..).trans (after ..)
    · exact refl s
  split
  · exact h1.trans (after ..)
  · exact h1

theorem accept (s : State) (id : Nat) (g : Galley) : s.Leaves (s.accept id g) :=
  (foldl (fun t _ => of_frame fun hP => markEmpty_frame hP t ..) _ s).trans (modGalley ..)

theorem returnLine (s : State) (id : Nat) (l : HeldLine) : s.Leaves (s.returnLine id l) := by
  unfold State.returnLine
  split
  · exact refl s
  · extract_lets back t
    have ht : s.Leaves t := modGalley ..
    split
    · exact ht.trans (after ..)
    · exact ht

theorem putLine {filled : State → State} (hf : ∀ t : State, t.Leaves (filled t)) (s : State) (key : Nat) (bytes : List Byte)
    (vf : BitVec 6) (gen : BitVec 8) (poison : Bool) : s.Leaves (s.putLine key bytes vf gen poison filled) := by
  unfold State.putLine
  split
  · exact ((write ..).trans (of_frame fun hP => mark_frame hP ..)).trans (hf _)
  · split
    · exact staleDrop ..
    · exact refl s

theorem releaseHeld (s : State) (c : Nat) : s.Leaves (s.releaseHeld c) := by
  unfold State.releaseHeld
  refine (modCore s c _).trans (foldl (fun t l => ?_) _ _)
  extract_lets g written
  clear_value g
  have hw : ∀ u : State, u.Leaves (written u) := fun u => by
    refine (putLine (fun v => ?_) u ..).trans (lineDone ..)
    have hn : v.Leaves (match g with
        | some (_, g) => v.notePoison g l.poison
        | none => v) := by
      split
      · exact notePoison ..
      · exact refl v
    exact hn.trans (modCore ..)
  split
  · split
    · exact hw t
    · split
      · exact (accept ..).trans (hw _)
      · exact returnLine ..
  · exact hw t

theorem releaseGalley (s : State) (id : Nat) (g : Galley) : s.Leaves (s.releaseGalley id g) := by
  unfold State.releaseGalley
  extract_lets stale fl s1 s2
  have h2 : s.Leaves s2 := by
    refine State.Leaves.trans (?_ : s.Leaves s1) (of_eq rfl rfl rfl)
    unfold s1
    split
    · exact staleDrop ..
    · exact refl s
  split
  · exact h2.trans (after ..)
  · exact h2

theorem endLaunch (s : State) (id : Nat) (st : LaunchSt) : s.Leaves (s.endLaunch id st) := by
  unfold State.endLaunch
  split
  · exact refl s
  · extract_lets s1 s2 s3
    have h1 : s.Leaves s1 := by
      unfold s1 State.modLaunch
      split
      · exact of_eq rfl rfl rfl
      · exact refl s
    have h2 : s.Leaves s2 := by
      unfold s2
      split
      · exact h1
      · exact h1.trans (modVf _ _ fun _ => rfl)
    have h3 : s.Leaves s3 := by
      unfold s3
      split
      · exact h2.trans (after ..)
      · exact h2
    refine h3.trans ?_
    unfold State.wakeWaiters
    split
    · exact refl _
    · exact foldl (fun t c => modHome ..) _ _

end State.Leaves

end Sys2Proof.Machine
end

section
namespace Sys2Proof.Machine

/-! ## Gangs that end (R284, R285, R321) -/

theorem ne_of_find_none {α : Type} {m : Tbl α} {n : Nat} (h : Tbl.find m n = none) : ∀ e ∈ m, e.1 ≠ n := by
  induction m with
  | nil => exact fun e he => absurd he List.not_mem_nil
  | cons a m ih =>
    obtain ⟨k, x⟩ := a
    unfold Tbl.find at h
    split at h
    · cases h
    · next hk =>
      intro e he
      obtain rfl | he := List.mem_cons.1 he
      · exact hk
      · exact ih h e he

theorem find_none_of_ne {α : Type} {m : Tbl α} {n : Nat} (h : ∀ e ∈ m, e.1 ≠ n) : Tbl.find m n = none := by
  cases hf : Tbl.find m n with
  | none => rfl
  | some v => exact absurd rfl (h _ (find_mem hf))

/-- A gang that is released is taken from the gangs and the saves, and what comes before and after brings neither back. -/
theorem releaseGang_leaves {s : State} {g : Nat} {gv : Gang} (h : s.gang g = some gv) : ∃ t : State, s.Leaves t ∧
    (∀ e ∈ t.gangs, e.1 ≠ g) ∧ (∀ e ∈ t.saves, e.2.gang ≠ g) ∧ t.Leaves (s.releaseGang g) := by
  unfold State.releaseGang
  rw [h]
  dsimp only
  generalize hs0 : gv.cores.foldl _ s = s0
  have h0 : s.Leaves s0 := by
    rw [← hs0]
    refine State.Leaves.foldl (fun t c => ?_) _ s
    split
    · exact (State.Leaves.releaseHeld ..).trans (.modCore ..)
    · exact .foldl (fun u l => .staleDrop ..) _ t
  refine ⟨{ s0 with
      gangs := Tbl.del s0.gangs g
      saves := s0.saves.filter (fun e => e.2.gang ≠ g)
      ops := s0.ops.filter (fun e => e.2.gang ≠ g || e.2.word.isNone)
      colls := s0.colls.filter (fun e => e.2.gang ≠ g) },
    h0.trans ⟨fun n => rfl, fun e he => ⟨e, (List.mem_filter.1 he).1, rfl, rfl⟩,
      fun e he => .inl ⟨e, (List.mem_filter.1 he).1, rfl⟩⟩,
    fun e he => by simpa using (List.mem_filter.1 he).2, fun e he => by simpa using (List.mem_filter.1 he).2, ?_⟩
  exact (State.Leaves.foldl (fun t e => .releaseGalley ..) _ _).trans (.foldl (fun t w => .privDone ..) _ _)

theorem gangs_releaseGang {s : State} {g : Nat} {gv : Gang} (h : s.gang g = some gv) :
    ∀ e ∈ (s.releaseGang g).gangs, e.1 ≠ g := by
  obtain ⟨t, -, hg, -, ht⟩ := releaseGang_leaves h
  intro e he
  obtain ⟨e', he', hn, -⟩ := ht.gangs e he
  exact hn ▸ hg e' he'

theorem saves_releaseGang {s : State} {g : Nat} {gv : Gang} (h : s.gang g = some gv) :
    ∀ e ∈ (s.releaseGang g).saves, e.2.gang ≠ g := by
  obtain ⟨t, -, hg, hs, ht⟩ := releaseGang_leaves h
  intro e he
  obtain ⟨e', he', hn⟩ | ⟨e', he', hn⟩ := ht.saves e he
  · exact hn ▸ hs e' he'
  · exact hn ▸ hg e' he'

theorem abortGang_leaves (s : State) (g : Nat) : s.Leaves (s.abortGang g) ∧ ∀ e ∈ (s.abortGang g).gangs, e.1 ≠ g := by
  unfold State.abortGang
  split
  · next h => exact ⟨.refl s, ne_of_find_none h⟩
  · next gv h =>
    obtain ⟨t, h1, -, -, h2⟩ := releaseGang_leaves h
    have hend := State.Leaves.endLaunch (s.releaseGang g) gv.launch .aborted
    refine ⟨(h1.trans h2).trans hend, fun e he => ?_⟩
    obtain ⟨e', he', hn, -⟩ := hend.gangs e he
    exact hn ▸ gangs_releaseGang h e' he'

theorem foldl_abortGang_leaves (l : List Nat) :
    ∀ s : State, s.Leaves (l.foldl State.abortGang s) ∧ ∀ e ∈ (l.foldl State.abortGang s).gangs, e.1 ∉ l := by
  induction l with
  | nil => exact fun s => ⟨.refl s, fun e _ => List.not_mem_nil⟩
  | cons g l ih =>
    intro s
    obtain ⟨h1, hg⟩ := abortGang_leaves s g
    obtain ⟨h2, hl⟩ := ih (s.abortGang g)
    refine ⟨h1.trans h2, fun e he hmem => ?_⟩
    obtain heq | hmem := List.mem_cons.1 hmem
    · obtain ⟨e', he', hn, -⟩ := h2.gangs e he
      exact hg e' he' (hn.trans heq)
    · exact hl e he hmem

/-! ## Generations (R285, R287, R326) -/

/-- A value of 1 to 255 that is neither the present one nor in a set. -/
theorem nextGen_spec {g c : Nat} {used : List Nat} (hg : 1 ≤ g) (hg' : g ≤ 255) (h : nextGen g used = some c) :
    1 ≤ c ∧ c ≤ 255 ∧ c ≠ g ∧ c ∉ used := by
  unfold nextGen at h
  obtain ⟨k, hk, hc⟩ := List.exists_of_findSome?_eq_some h
  rw [List.mem_range] at hk
  dsimp only at hc
  split at hc
  · cases hc
  · next hu =>
    cases hc
    exact ⟨by omega, by omega, by omega, by simpa using hu⟩

/-- A VF that leaves its generation: it has the new one, the old one is pending, and no gang, reply, operation or cached line of
it is left. -/
theorem advanceGen_leaves (s : State) (v : BitVec 6) (c : Nat) : let u := (s.advanceGen v c).1
    u.gen v = BitVec.ofNat 8 c ∧ (u.vf v.toNat).pend = (s.vf v.toNat).pend ++ [(s.gen v).toNat] ∧
    (u.vf v.toNat).old = (s.vf v.toNat).old ∧ (∀ e ∈ u.gangs, e.2.vf ≠ v) ∧ (∀ r ∈ u.replies, r.key.vf ≠ v) ∧
    (∀ e ∈ u.ops, e.2.pkt.vf ≠ v) ∧ (∀ e ∈ u.cores, (∀ l ∈ e.2.ocache, l.vf ≠ v) ∧ (∀ x ∈ e.2.tcache, x.vf ≠ v)) := by
  unfold State.advanceGen
  extract_lets mine held s1 s2 s3 s4 u
  obtain ⟨h2, hmine⟩ := foldl_abortGang_leaves mine s1
  have h3 : s2.Leaves s3 := .foldl (fun t e => by
    split
    · exact .endLaunch ..
    · exact .refl t) _ s2
  have h4 : s3.Leaves s4 := .foldl (fun t e => .releaseGalley ..) _ s3
  have hs1 : s1.vf v.toNat = { s.vf v.toNat with
      pend := (s.vf v.toNat).pend ++ [(s.gen v).toNat], gen := BitVec.ofNat 8 c
      rings := (s.vf v.toNat).rings.map (fun e => (e.1, e.2.map (fun (k : Kick) => { k with taken := none }))) } := vf_modVf ..
  have hvf := (h2.trans (h3.trans h4)).vfs v.toNat
  rw [hs1] at hvf
  obtain ⟨hgen, hvf⟩ := Prod.mk.inj hvf
  obtain ⟨hpend, hold⟩ := Prod.mk.inj hvf
  refine ⟨hgen, hpend, hold, fun e he hv => ?gang, fun r hr => by simpa using (List.mem_filter.1 hr).2,
    fun e he => by simpa using (List.mem_filter.1 he).2, fun e he => ?cache⟩
  case gang =>
    obtain ⟨e', he', hn', hv'⟩ := (h3.trans h4).gangs e he
    obtain ⟨e'', he'', hn'', hv''⟩ := h2.gangs e' he'
    refine hmine e' he' (List.mem_map.2 ⟨e'', List.mem_filter.2 ⟨he'', ?_⟩, hn''⟩)
    rw [hv'', hv', hv]
    exact decide_eq_true rfl
  case cache =>
    obtain ⟨e', -, rfl⟩ := List.mem_map.1 he
    exact ⟨fun l hl => by simpa using (List.mem_filter.1 hl).2, fun x hx => by simpa using (List.mem_filter.1 hx).2⟩

section
variable {h : Hdr} {d a : Name} {s t : State} {v : BitVec 6} (hp : s.mayPrivilege .C h d a (.x 0) t)
  (hn : t.namedVf (s.xArg h a) = some v) (hrun : t.hasRunning v = false) (hst : (t.vf v.toNat).status = .stopped)
include hp hn hrun hst

theorem execGenadv_advances {u : State} {c n : Nat} (hg : t.tryGen v = some (u, c, n)) :
    execGenadv h d a s = .next (u.privileged s .C h d (BitVec.ofNat 64 c) n) := by
  refine privWord_done hp hn ?_
  rw [if_neg (by simp [hrun]), if_neg (not_not_intro hst), hg]
  rfl

/-- With no value free the word sleeps to a lap end. -/
theorem execGenadv_waits (hg : t.tryGen v = none) : execGenadv h d a s =
    .next (State.awaits { t with genWaiters := t.genWaiters ++ [(s.word .C h, d, v)] } s .C h) := by
  refine privWord_later hp hn ?_
  rw [if_neg (by simp [hrun]), if_neg (not_not_intro hst), hg]
  rfl

end

/-- Settles O32: GENADV by what it finds, and the action by what a VF that leaves its generation leaves. -/
theorem generationAdvances : Obligations.GenerationAdvances := by
  unfold Obligations.GenerationAdvances
  refine ⟨fun h d a s t u v c n hp hn hr hs hg => execGenadv_advances hp hn hr hs hg,
    fun h d a s t v hp hn hr hs hg => execGenadv_waits hp hn hr hs hg, fun s u v c n hgen hg => ?_⟩
  obtain ⟨c', hc, heq⟩ := Option.map_eq_some_iff.1 hg
  obtain ⟨rfl, rfl, -⟩ : (s.advanceGen v c').1 = u ∧ c' = c ∧ _ := by simpa using heq
  obtain ⟨h1, h255, hne, hfree⟩ := nextGen_spec hgen (Nat.le_of_lt_succ (s.gen v).isLt) hc
  rw [List.mem_append, not_or] at hfree
  obtain ⟨hnew, hpend, hold, hgangs, hreplies, hops, hcores⟩ := advanceGen_leaves s v c'
  exact ⟨h1, h255, hne, hfree.1, hfree.2, hnew, by rw [hpend]; exact List.mem_append_right _ (List.mem_singleton.2 rfl), hold,
    hgangs, hreplies, hops, hcores⟩

end Sys2Proof.Machine
end

section
namespace Sys2Proof.Machine

/-- The port as the word that drives it waits for what follows (R392). -/
def State.driven (t : State) (o : Origin) (d : Name) (p : Nat) (st : PortState) (f : FPort → FPort) : State :=
  (t.modPort p (fun k => { k with waiter := some (o, d) })).setPortState p st f

theorem driveTo_run (o : Origin) (d : Name) (p : Nat) (st : PortState) (f : FPort → FPort) (t : State) :
    (driveTo o d p st f).run t = .ok (.later, t.driven o d p st f) := rfl

/-! ## FROUT (R363, R390) -/

section
variable {h : Hdr} {d a b : Name} {s t u : State}

section
variable (hp : s.mayPrivilege .F h d a (.x 0) t)
include hp

theorem execFrout_noVersion (hx : 2 ≤ (s.xArg h a).toNat) :
    execFrout h d a s = .next (t.privileged s .F h d (refusal 5) 1) :=
  privOn_done hp (by rw [op_bind_ok (op_get _), if_pos hx]; rfl)

variable (hx : (s.xArg h a).toNat < 2)
include hx

theorem execFrout_unloaded (hl : (t.table (decide ((s.xArg h a).toNat = 1))).loaded = false) :
    execFrout h d a s = .next (t.privileged s .F h d (refusal 0x0B) 1) := by
  refine privOn_done hp ?_
  rw [op_bind_ok (op_get _), if_neg hx.not_ge]
  dsimp only
  rw [hl]
  rfl

theorem execFrout_sets (hl : (t.table (decide ((s.xArg h a).toNat = 1))).loaded = true) :
    execFrout h d a s = .next (State.privileged
      (((t.useTable t.rv).useTable (decide ((s.xArg h a).toNat = 1))).modCore s.cur (fun k => { k with
        latches := k.latches ++ [.version (decide ((s.xArg h a).toNat = 1))] })) s .F h d 0 1) := by
  refine privOn_done hp ?_
  rw [op_bind_ok (op_get _), if_neg hx.not_ge]
  dsimp only
  rw [hl, if_neg (by decide), op_bind_ok (op_modify _ _), op_bind_ok (op_modifyCore _ _ _), word_core]
  rfl

end

section
variable (hp : s.mayPrivilege .F h d a b t)
include hp

theorem execFroutLd_noVersion (hx : 2 ≤ (s.xArg h a).toNat ∨ 0x40000 < (s.xArg h b).toNat + 4096) :
    execFroutLd h d a b s = .next (t.privileged s .F h d (refusal 5) 1) :=
  privOn_done hp (by rw [op_bind_ok (op_get _), if_pos (by simpa using hx)]; rfl)

section
variable (hx : (s.xArg h a).toNat < 2) (hoff : (s.xArg h b).toNat + 4096 ≤ 0x40000)
  (hfull : t.full s.cur (s.xArg h b).toNat 4096 = true)
  (hhits : t.hits s.cur (keyRS s.cur (s.xArg h b).toNat) 4096 = false)
  (hbanks : (claimBanks (s.word .F h) (banksOf (s.xArg h b).toNat 4096)).run t = .ok ((), u))
include hx hoff hfull hhits hbanks

/-- FROUT.LD whose banks are won: its image is loaded into a version that is not busy, where it is well formed (R390). -/
theorem execFroutLd_reads : execFroutLd h d a b s = .next (
    if t.versionBusy (decide ((s.xArg h a).toNat = 1)) then u.privileged s .F h d (refusal 0x0D) 1
    else (t.tableOf (t.read (t.ownTag s.cur) (keyRS s.cur (s.xArg h b).toNat) 4096)).elim
      (u.privileged s .F h d (refusal 5) 1)
      (fun r => (u.setTable (decide ((s.xArg h a).toNat = 1)) r).privileged s .F h d 0 1)) := by
  have hrange : ¬ ((decide (2 ≤ (s.xArg h a).toNat) || decide (0x40000 < (s.xArg h b).toNat + 4096)) = true) := by
    simpa using ⟨Nat.le_of_lt_succ hx, Nat.le_sub_of_add_le hoff⟩
  have hready : (t.full s.cur (s.xArg h b).toNat 4096 && !(t.hits s.cur (keyRS s.cur (s.xArg h b).toNat) 4096)) = true := by
    rw [hfull, hhits]; rfl
  by_cases hbusy : t.versionBusy (decide ((s.xArg h a).toNat = 1)) = true
  · rw [if_pos hbusy]
    refine privOn_done hp ?_
    rw [op_bind_ok (op_get _)]
    dsimp only
    rw [if_neg hrange, word_core, op_bind_ok (op_need hready _), op_bind_ok hbanks, if_pos hbusy]
    rfl
  · rw [if_neg hbusy]
    cases htab : t.tableOf (t.read (t.ownTag s.cur) (keyRS s.cur (s.xArg h b).toNat) 4096) with
    | none =>
      refine privOn_done hp ?_
      rw [op_bind_ok (op_get _)]
      dsimp only
      rw [if_neg hrange, word_core, op_bind_ok (op_need hready _), op_bind_ok hbanks, if_neg hbusy, htab]
      rfl
    | some r =>
      refine privOn_done hp ?_
      rw [op_bind_ok (op_get _)]
      dsimp only
      rw [if_neg hrange, word_core, op_bind_ok (op_need hready _), op_bind_ok hbanks, if_neg hbusy, htab]
      rfl

end

/-! ## FPLOW (R365, R391) -/

section
variable (hx : (s.xArg h a).toNat < 2) (hl : (t.table (decide ((s.xArg h a).toNat = 1))).loaded = true)
include hx hl

theorem execFplow_inForce (hrv : t.rv = decide ((s.xArg h a).toNat = 1)) :
    execFplow h d a b s = .next (t.privileged s .F h d (refusal 0x0D) 1) := by
  refine privOn_done hp ?_
  rw [op_bind_ok (op_get _)]
  dsimp only
  rw [if_neg hx.not_ge, hl, if_neg (by decide), if_pos hrv]
  rfl

/-- The module as a round begins: what the round is, and the echoes to come. -/
def State.roundBegun (t : State) (v : Bool) (r : Nat) : State :=
  { t with ploughRound := r, ploughVersion := v
           roundsEnded := if t.ploughVersion = v then t.roundsEnded else 0
           ploughOut := t.activePorts.flatMap (fun p => [(p, 0), (p, 1), (p, 3)]) }

/-- The module once the round's PLOUGHs have gone to the ports. -/
def State.ploughsOut (t : State) (v : Bool) (r : Nat) : State :=
  State.pumpAll (t.activePorts.foldl (fun (u : State) p => u.plough p [0, 1, 3] v r) (t.roundBegun v r))

section
variable (hrv : t.rv ≠ decide ((s.xArg h a).toNat = 1)) (hr : 1 ≤ (s.xArg h b).toNat)
  (hhops : (s.xArg h b).toNat ≤ (t.table (decide ((s.xArg h a).toNat = 1))).hops)
include hrv hr hhops

theorem execFplow_endsAtOnce (hports : t.activePorts = []) : execFplow h d a b s = .next (State.privileged
    { t.ploughsOut (decide ((s.xArg h a).toNat = 1)) (s.xArg h b).toNat with
      roundsEnded := (s.xArg h b).toNat } s .F h d 0 1) := by
  have hround : ¬ ((decide ((s.xArg h b).toNat = 0) ||
      decide ((t.table (decide ((s.xArg h a).toNat = 1))).hops < (s.xArg h b).toNat)) = true) := by
    simpa [hhops] using Nat.ne_of_gt hr
  refine privOn_done hp ?_
  rw [op_bind_ok (op_get _)]
  dsimp only
  rw [if_neg hx.not_ge, hl, if_neg (by decide), if_neg hrv, if_neg hround]
  exact congrArg (fun m : Op PrivAns => m.run t) (if_pos (List.isEmpty_iff.2 hports))

/-- The word waits for the echoes of its round (R365). -/
theorem execFplow_waits (hports : t.activePorts ≠ []) : execFplow h d a b s = .next (State.awaits
    { t.ploughsOut (decide ((s.xArg h a).toNat = 1)) (s.xArg h b).toNat with
      ploughWait := some (s.word .F h, d) } s .F h) := by
  have hround : ¬ ((decide ((s.xArg h b).toNat = 0) ||
      decide ((t.table (decide ((s.xArg h a).toNat = 1))).hops < (s.xArg h b).toNat)) = true) := by
    simpa [hhops] using Nat.ne_of_gt hr
  refine privOn_later hp ?_
  rw [op_bind_ok (op_get _)]
  dsimp only
  rw [if_neg hx.not_ge, hl, if_neg (by decide), if_neg hrv, if_neg hround]
  exact congrArg (fun m : Op PrivAns => m.run t) (if_neg (mt List.isEmpty_iff.1 hports))

end

theorem execFplowFree_unloads (hrv : t.rv ≠ decide ((s.xArg h a).toNat = 1))
    (hv : t.ploughVersion = decide ((s.xArg h a).toNat = 1))
    (hends : t.roundsEnded = (t.table (decide ((s.xArg h a).toNat = 1))).hops) :
    execFplowFree h d a b s = .next (State.privileged { t.setTable (decide ((s.xArg h a).toNat = 1)) RouteTbl.reset with
      roundsEnded := 0, ploughRound := 0 } s .F h d 0 1) := by
  refine privOn_done hp ?_
  rw [op_bind_ok (op_get _)]
  dsimp only
  rw [if_neg hx.not_ge, hl, if_neg (by decide), if_neg (by simp [hrv, hv, hends])]
  rfl

theorem execFplowFree_busy (hb : t.rv = decide ((s.xArg h a).toNat = 1) ∨ t.ploughVersion ≠ decide ((s.xArg h a).toNat = 1) ∨
      t.roundsEnded ≠ (t.table (decide ((s.xArg h a).toNat = 1))).hops) :
    execFplowFree h d a b s = .next (t.privileged s .F h d (refusal 0x0D) 1) := by
  refine privOn_done hp ?_
  rw [op_bind_ok (op_get _)]
  dsimp only
  rw [if_neg hx.not_ge, hl, if_neg (by decide), if_pos (by simpa [or_assoc] using hb)]
  rfl

end

/-! ## FLNK (R367, R392) -/

section
variable {needs : Nat → FPort → Bool} {f : Origin → Nat → Op PrivAns}

theorem linkWord_noPort (he : t.portExists (s.xArg h a).toNat = false) :
    linkWord h d a b needs f s = .next (t.privileged s .F h d (refusal 5) 1) :=
  privOn_done hp (by rw [op_bind_ok (op_get _), he]; rfl)

theorem linkWord_otherState (he : t.portExists (s.xArg h a).toNat = true)
    (hs : needs (s.xArg h a).toNat (t.port (s.xArg h a).toNat) = false) :
    linkWord h d a b needs f s = .next (t.privileged s .F h d (refusal 0x0C) 1) :=
  privOn_done hp (by rw [op_bind_ok (op_get _), he, hs]; rfl)

variable (he : t.portExists (s.xArg h a).toNat = true)
  (hs : needs (s.xArg h a).toNat (t.port (s.xArg h a).toNat) = true)
include he hs

theorem linkWord_done {v : Word} {lat : Nat} (hf : (f (s.word .F h) (s.xArg h a).toNat).run t = .ok (.done v lat, u)) :
    linkWord h d a b needs f s = .next (u.privileged s .F h d v lat) :=
  privOn_done hp (by rw [op_bind_ok (op_get _), he, if_neg (by decide), hs]; exact hf)

theorem linkWord_later (hf : (f (s.word .F h) (s.xArg h a).toNat).run t = .ok (.later, u)) :
    linkWord h d a b needs f s = .next (u.awaits s .F h) :=
  privOn_later hp (by rw [op_bind_ok (op_get _), he, if_neg (by decide), hs]; exact hf)

end

theorem execFlnkTrain_trains (he : t.portExists (s.xArg h a).toNat = true) (hst : (t.port (s.xArg h a).toNat).st = .down) :
    execFlnkTrain h d a b s = .next ((t.driven (s.word .F h) d (s.xArg h a).toNat .training
      (startTraining (s.xArg h a).toNat)).awaits s .F h) :=
  linkWord_later hp he (decide_eq_true hst) (driveTo_run ..)

theorem execFlnkTrain_otherState (he : t.portExists (s.xArg h a).toNat = true)
    (hst : (t.port (s.xArg h a).toNat).st ≠ .down) :
    execFlnkTrain h d a b s = .next (t.privileged s .F h d (refusal 0x0C) 1) :=
  linkWord_otherState hp he (decide_eq_false hst)

theorem execFlnkQuery_answers (he : t.portExists (s.xArg h a).toNat = true) :
    execFlnkQuery h d a b s = .next (t.privileged s .F h d (t.port (s.xArg h a).toNat).word 1) :=
  linkWord_done hp he rfl rfl

theorem execFlnkRelock_locks (he : t.portExists (s.xArg h a).toNat = true) (hst : (t.port (s.xArg h a).toNat).st = .dark)
    (hc : (t.port (s.xArg h a).toNat).newCircuit = true) :
    execFlnkRelock h d a b s = .next ((t.driven (s.word .F h) d (s.xArg h a).toNat .relock id).awaits s .F h) :=
  linkWord_later hp he (by rw [hst, hc]; rfl) (driveTo_run ..)

/-- FLNK DRAIN sends a PLOUGH of each VC behind what the port still has to send (R367). -/
theorem execFlnkDrain_drains (he : t.portExists (s.xArg h a).toNat = true) (hst : (t.port (s.xArg h a).toNat).st = .active)
    (hg : isGlobal (s.xArg h a).toNat = true) :
    let p := (s.xArg h a).toNat
    let t1 := t.driven (s.word .F h) d p .draining id
    execFlnkDrain h d a b s = .next (State.awaits (State.pumpAll ((t1.modPort p (fun k => { k with
      ploughed := [0, 1, 2, 3] })).plough p [0, 1, 2, 3] t1.rv 0)) s .F h) :=
  linkWord_later hp he (by rw [hst, hg]; rfl) (by rw [op_bind_ok (driveTo_run ..), op_bind_ok (op_modify _ _)]; rfl)

theorem execFlnkDown_noPort (he : t.portExists (s.xArg h a).toNat = false) :
    execFlnkDown h d a b s = .next (t.privileged s .F h d (refusal 5) 1) :=
  privOn_done hp (by rw [op_bind_ok (op_get _), he]; rfl)

theorem execFlnkDown_downs (he : t.portExists (s.xArg h a).toNat = true) (hy : (s.xArg h b).toNat = 0) :
    execFlnkDown h d a b s = .next ((t.portDown (s.xArg h a).toNat 4).pumpAll.privileged s .F h d 0 1) :=
  privOn_done hp (by rw [op_bind_ok (op_get _), he, hy]; rfl)

end
end

/-- Settles O51: the routing words by their versions, and the words of a port by its state. -/
theorem linkWordsComplete : Obligations.LinkWordsComplete := by
  unfold Obligations.LinkWordsComplete
  refine ⟨fun h d a s t hp => ?frout, fun h d a b s t hp => ?load, fun h d a b s t hp hx => ?plough, fun h d a b s t hp => ?link⟩
  case frout => exact ⟨execFrout_noVersion hp, execFrout_unloaded hp, execFrout_sets hp⟩
  case load =>
    refine ⟨execFroutLd_noVersion hp, fun u hx hoff hfull hhits hbanks => ?_⟩
    have hrun := execFroutLd_reads hp hx hoff hfull hhits hbanks
    refine ⟨fun hb => ?_, fun hb htab => ?_, fun hb r htab => ?_⟩
    · exact hrun.trans (by rw [if_pos hb]; rfl)
    · exact hrun.trans (by rw [if_neg (by simp [hb]), htab]; rfl)
    · exact hrun.trans (by rw [if_neg (by simp [hb]), htab]; rfl)
  case plough =>
    refine ⟨execFplow_inForce hp hx, fun hl hrv hr hhops => ⟨?_, ?_⟩, execFplowFree_unloads hp hx,
      execFplowFree_busy hp hx⟩
    · exact execFplow_endsAtOnce hp hx hl hrv hr hhops
    · exact execFplow_waits hp hx hl hrv hr hhops
  case link =>
    refine ⟨?none, execFlnkDown_downs hp, execFlnkTrain_trains hp, execFlnkTrain_otherState hp, execFlnkDrain_drains hp,
      execFlnkRelock_locks hp, execFlnkQuery_answers hp⟩
    case none =>
      intro he
      simp only [List.forall_mem_cons, List.not_mem_nil, false_implies, implies_true, and_true]
      exact ⟨(linkWord_noPort hp he : execFlnkTrain h d a b s = _), (linkWord_noPort hp he : execFlnkDrain h d a b s = _),
        (linkWord_noPort hp he : execFlnkRelock h d a b s = _), (linkWord_noPort hp he : execFlnkQuery h d a b s = _),
        execFlnkDown_noPort hp he⟩

end Sys2Proof.Machine
end

section
namespace Sys2Proof.Machine

/-! ## Traps (R315, R318, R319, R342) -/

section
variable {o : Origin} {s : State}

theorem takeTrap_of_frozen (cls : TrapClass) (code addr : Nat) (h : (s.core o.core).frozen ≠ none) :
    s.takeTrap o cls code addr = s :=
  if_pos (Option.isSome_iff_ne_none.2 h)

variable (cls : TrapClass) (code addr : Nat) (h : (s.core o.core).frozen = none)
include h

/-- A management core's trap freezes it, and its record goes to Press's log (log entry 19). -/
theorem takeTrap_of_management (hctx : (s.core o.core).ctx ≠ .tenant) : s.takeTrap o cls code addr =
    (s.modCore o.core (fun k => { k with frozen := some .trap })).send
      (.pressLog (recordBytes true cls o (s.core o.core) (s.gen (s.core o.core).vf) code addr s.now)) := by
  unfold State.takeTrap
  extract_lets k s1 g
  rw [if_neg (by rw [show k.frozen = none from h]; decide)]
  split
  · next hk _ => exact absurd hk hctx
  · rfl

/-- A tenant's trap is taken at its core, and what follows is the others' freeze, or with no other core the save (R318). -/
theorem takeTrap_of_gang {gv : Gang} (hctx : (s.core o.core).ctx = .tenant)
    (hg : s.gang (s.core o.core).gang = some gv) (hf : gv.frozen = none) : s.takeTrap o cls code addr =
    if gv.cores.length ≤ 1 then
      (s.trapped o gv cls code addr).after 2700 (.saveWritten (s.core o.core).gang .trap o (.x 0))
    else (s.trapped o gv cls code addr).after 32 (.gangFreezeFollow (s.core o.core).gang) := by
  unfold State.takeTrap
  dsimp only
  rw [h, if_neg (by decide), hctx, hg]
  dsimp only
  rw [hf]
  rfl

end

theorem recordBytes_length (reduced : Bool) (cls : TrapClass) (o : Origin) (k : Core) (gen : BitVec 8) (code addr now : Nat) :
    (recordBytes reduced cls o k gen code addr now).length = 64 := by
  have hz : (zeros 22).length = 22 := List.length_replicate
  cases reduced <;> simp [recordBytes, hz]

/-! ## The save of a gang that a trap has frozen (R318) -/

section
variable {gang : Nat} {s : State} {gv : Gang} (hg : s.gang gang = some gv)
include hg

theorem gang_saveNow : (s.saveNow gang).gang gang = some { gv with saved := true } :=
  gang_modGang (s := { s with saves := s.saves.map (fun (e : Nat × Save) =>
    if e.2.gang = gang && (s.core e.2.core).gang = gang then (e.1, { e.2 with image := s.core e.2.core }) else e) }) hg _

/-- Once no word of the gang is on its way its save is what its cores hold, and the one record that waits goes out (R251, R319). -/
theorem execSaveWritten_puts {o p : Origin} {bs : List Byte} (hf : gv.frozen = some .trap)
    (hout : gv.cores.any (fun c => (s.home gang c).wordsOut) = false) (hr : gv.records = [(p, bs)])
    (hmay : (s.saveNow gang).recordMay gang p = true) :
    execSaveWritten gang .trap o (.x 0) s = .next (((s.saveNow gang).putRecord gv.vf gv.area gv.areaHost bs).modGang gang
      (fun v => { v with records := [] })) := by
  unfold execSaveWritten
  dsimp only
  rw [hg]
  dsimp only
  rw [hf, hout, if_neg (by decide), if_neg (by decide), if_pos (by decide)]
  unfold State.putNext
  rw [gang_saveNow hg]
  dsimp only
  rw [hr]
  dsimp only
  rw [if_pos hmay]
  rfl

end

/-- Settles O20: the trap by its core, and the save and the record by the gang. -/
theorem trapEntry : Obligations.TrapEntry := by
  unfold Obligations.TrapEntry
  refine ⟨fun o cls code addr s h => congrArg Host.Outcome.next (takeTrap_of_frozen cls code addr h),
    fun o cls code addr s gv h hctx hg hf hn => congrArg Host.Outcome.next
      ((takeTrap_of_gang cls code addr h hctx hg hf).trans (if_neg hn.not_ge)),
    fun o cls code addr s gv h hctx hg hf hn => congrArg Host.Outcome.next
      ((takeTrap_of_gang cls code addr h hctx hg hf).trans (if_pos hn)),
    fun o cls code addr s h hctx => congrArg Host.Outcome.next (takeTrap_of_management cls code addr h hctx),
    fun gang s gv hg => ?follow, fun gang o s gv p bs hg hf hout hr hmay => execSaveWritten_puts hg hf hout hr hmay,
    fun o cls k gen code addr now => ⟨recordBytes_length .., recordBytes_length ..⟩⟩
  case follow =>
    show execGangFreezeFollow gang s = _
    unfold execGangFreezeFollow
    rw [hg]
    rfl

end Sys2Proof.Machine
end

section
namespace Sys2Proof.Machine

/-! ## The owner's actions (R318, R321) -/

section
variable {v : BitVec 6} {a g : Nat} {s : State} {gv : Gang}

theorem recording_single (hg : s.gang g = some gv) : s.recording [g] = !gv.records.isEmpty := by
  unfold State.recording
  rw [List.any_cons, List.any_nil, Bool.or_false, hg]
  rfl

section
variable (hf : s.faulted v a = [])
include hf

theorem execFaultActionThaw_none : execFaultActionThaw v a s = .next s := by
  unfold execFaultActionThaw; rw [hf]; rfl

theorem execFaultActionRestart_none : execFaultActionRestart v a s = .next s := by
  unfold execFaultActionRestart; rw [hf]; rfl

theorem execFaultActionAbort_none : execFaultActionAbort v a s = .next s := by
  unfold execFaultActionAbort; rw [hf]; rfl

end

section
variable (hf : s.faulted v a = [g]) (hg : s.gang g = some gv)
include hf hg

/-- The action of one faulted gang's owner waits for its records (log entry 35). -/
theorem execFaultActionThaw_one : execFaultActionThaw v a s = .next (
    if gv.records = [] then (s.after 0 (.gangResume g)).clearArea v a else s.after 1 (.faultActionThaw v a)) := by
  unfold execFaultActionThaw
  rw [hf]
  dsimp only
  rw [recording_single hg]
  cases gv.records <;> rfl

theorem execFaultActionAbort_one : execFaultActionAbort v a s = .next (
    if gv.records = [] then ((s.releaseGang g).endLaunch gv.launch .aborted).clearArea v a
    else s.after 1 (.faultActionAbort v a)) := by
  have habort : s.abortGang g = (s.releaseGang g).endLaunch gv.launch .aborted := by
    unfold State.abortGang; rw [hg]
  unfold execFaultActionAbort
  rw [hf]
  dsimp only
  rw [recording_single hg, List.foldl_cons, List.foldl_nil, habort]
  cases gv.records <;> rfl

theorem execFaultActionRestart_one : execFaultActionRestart v a s = .next (
    if gv.records = [] then State.clearArea (((s.releaseGang g).modLaunch gv.launch (fun l => { l with
      st := .waiting, ready := s.now + 144 })).after 0 (.gangStart gv.launch)) v a
    else s.after 1 (.faultActionRestart v a)) := by
  have hrestart : s.restart g = ((s.releaseGang g).modLaunch gv.launch (fun l => { l with
      st := .waiting, ready := s.now + 144 })).after 0 (.gangStart gv.launch) := by
    unfold State.restart; rw [hg]; rfl
  unfold execFaultActionRestart
  rw [hf]
  dsimp only
  rw [recording_single hg, List.foldl_cons, List.foldl_nil, hrestart]
  cases gv.records <;> rfl

end
end

/-! ## The resurfacer and laps (R287, R310) -/

theorem find_filter_of_key {α : Type} {m : Tbl α} {q : Nat × α → Bool} {k : Nat} (h : ∀ e ∈ m, e.1 = k → q e = true) :
    Tbl.find (m.filter q) k = Tbl.find m k := by
  induction m with
  | nil => rfl
  | cons e m ih =>
    obtain ⟨j, x⟩ := e
    have ih := ih fun e he => h e (List.mem_cons_of_mem _ he)
    by_cases hj : j = k
    · rw [List.filter_cons_of_pos (h (j, x) List.mem_cons_self hj)]
      simp [Tbl.find, hj]
    · rw [List.filter_cons]
      split <;> simp [Tbl.find, hj, ih]

theorem eq_of_find_of_nodup {α : Type} {m : Tbl α} (hm : (m.map (fun e => e.1)).Nodup) {n : Nat} {v : α}
    (h : Tbl.find m n = some v) {e : Nat × α} (he : e ∈ m) (hn : e.1 = n) : e = (n, v) :=
  List.inj_on_of_nodup_map hm he (find_mem h) hn

/-- The tags once the resurfacer has met the unit of a key. -/
def State.resurfaced (s : State) (key : Nat) : State :=
  { s with tags := s.tags.filter (fun e => e.1 ≠ unitOf key || s.tagCurrent e.2) }

section
variable {s : State} {key : Nat}

theorem tagAt_resurfaced_ne {k : Nat} (h : unitOf k ≠ unitOf key) : (s.resurfaced key).tagAt k = s.tagAt k :=
  congrArg (Option.getD · voidTag) (find_filter_of_key fun e _ he => by
    rw [Bool.or_eq_true]; exact .inl (decide_eq_true (he ▸ h)))

variable (hm : (s.tags.map (fun e => e.1)).Nodup)
include hm

/-- A unit of a current tag keeps it, and one of another becomes void (R310). -/
theorem tagAt_resurfaced : (s.resurfaced key).tagAt key = if s.tagCurrent (s.tagAt key) then s.tagAt key else voidTag := by
  unfold State.tagAt State.resurfaced Tbl.get
  cases hf : Tbl.find s.tags (unitOf key) with
  | none =>
    rw [find_none_of_ne fun e he => ne_of_find_none hf e (List.mem_filter.1 he).1]
    exact (ite_self _).symm
  | some t =>
    have honly : ∀ e ∈ s.tags, e.1 = unitOf key → e = (unitOf key, t) := fun e he hn => eq_of_find_of_nodup hm hf he hn
    rw [Option.getD_some]
    split
    · next hc =>
      rw [find_filter_of_key fun e he hn => by rw [honly e he hn]; exact Bool.or_eq_true_iff.2 (.inr hc), hf, Option.getD_some]
    · next hc =>
      rw [find_none_of_ne fun e he hn => ?_, Option.getD_none]
      obtain ⟨he, hq⟩ := List.mem_filter.1 he
      rw [honly e he hn] at hq
      simp [hc] at hq

end

/-- What the resurfacer meets in a core is neither an x register nor an entry of its load and store queues. -/
theorem execResurfaceUnit_keeps (u : UnitRef) (s : State) : ∃ t : State, execResurfaceUnit u s = .next t ∧ t.vfs = s.vfs ∧
    t.galleys = s.galleys ∧ ∀ c, (t.core c).x = (s.core c).x ∧ (t.core c).lq = (s.core c).lq ∧ (t.core c).sq = (s.core c).sq := by
  have hcore (d : Nat) (f : Core → Core) (hf : ∀ k, (f k).x = k.x ∧ (f k).lq = k.lq ∧ (f k).sq = k.sq) (c : Nat) :
      ((s.modCore d f).core c).x = (s.core c).x ∧ ((s.modCore d f).core c).lq = (s.core c).lq ∧
        ((s.modCore d f).core c).sq = (s.core c).sq := by
    rw [core_modCore_any]
    split
    · exact hf _
    · exact ⟨rfl, rfl, rfl⟩
  refine ⟨_, rfl, ?_⟩
  cases u with
  | line | tensor | dispenser | reply | macCell | keySlot => exact ⟨rfl, rfl, fun c => ⟨rfl, rfl, rfl⟩⟩
  | _ => exact ⟨rfl, rfl, hcore _ _ fun k => ⟨rfl, rfl, rfl⟩⟩

theorem find_map_key {α β : Type} (m : Tbl α) (f : Nat → α → β) (n : Nat) :
    Tbl.find (m.map (fun e => (e.1, f e.1 e.2))) n = (Tbl.find m n).map (f n) := by
  induction m with
  | nil => rfl
  | cons e m ih =>
    obtain ⟨k, x⟩ := e
    by_cases hk : k = n
    · subst hk; simp [Tbl.find]
    · simp [Tbl.find, hk, ih]

/-- A lap end at which nothing sleeps: the units, and then the sets of every VF (R287). -/
theorem execLapEnd_moves {s : State} (hg : s.genWaiters = []) (hl : s.lapWaiters = []) : execLapEnd s =
    .next (State.after { s.voidStale with
      laps := s.laps + 1
      vfs := s.vfs.map (fun (e : Nat × Vf) => (e.1, { e.2 with old := e.2.pend, pend := [] }))
      genWaiters := [], lapWaiters := [] } (max 345600 (min 2700000 (Config.lapLength (s.laps + 1)))) .lapEnd) := by
  unfold execLapEnd State.wakeLap
  extract_lets s1 s2 s3
  have hg2 : s2.genWaiters = [] := hg
  have hl2 : s2.lapWaiters = [] := hl
  have hs3 : s3 = { s2 with genWaiters := [] } := by
    unfold s3
    rw [hg2, List.foldl_nil]
  rw [hs3]
  rw [hl2, List.foldl_nil]
  rfl

/-! ## Shared structures (R322) -/

section
variable {n : BitVec 8} {q : BitVec 2} {u : UnitRef} {s : State}

theorem execSharedStructureError_none (h : s.owners n.toNat q = []) :
    execSharedStructureError n q u s = .next (s.spoil n.toNat u) := by
  unfold execSharedStructureError; rw [h]; rfl

theorem execSharedStructureError_one {v : BitVec 6} (h : s.owners n.toNat q = [v]) :
    execSharedStructureError n q u s = .next ((s.spoil n.toNat u).errorRecord v n.toNat (s.users u)) := by
  unfold execSharedStructureError; rw [h]; rfl

end

section
variable (v : BitVec 6) (q : BitVec 2) (s : State)

theorem mem_owners_coalescer : v ∈ s.owners 2 q ↔ ∃ e ∈ s.coalescer, e.2.sent = false ∧ e.2.vf = v := by
  simp [State.owners, and_assoc]

theorem mem_owners_dispensers : v ∈ s.owners 3 q ↔ ∃ e ∈ s.dispensers, s.tagCurrent e.2.tag = true ∧ e.2.tag.vf = v := by
  simp [State.owners, and_assoc]

theorem mem_owners_replies : v ∈ s.owners 4 q ↔ ∃ r ∈ s.replies, s.gen r.key.vf = r.key.gen ∧ r.key.vf = v := by
  simp [State.owners, and_assoc]

theorem mem_owners_translations : v ∈ s.owners 1 q ↔
    ∃ e ∈ s.cores, quarter e.1 = q.toNat ∧ ∃ t ∈ e.2.tcache, t.gen = s.gen t.vf ∧ t.vf = v := by
  unfold State.owners
  rw [List.mem_eraseDups]
  change v ∈ List.flatMap _ s.cores ↔ _
  rw [List.mem_flatMap]
  refine exists_congr fun e => and_congr_right fun _ => ?_
  split
  · next h => simp [h, and_assoc]
  · next h => simp [h]

theorem mem_owners_links : v ∈ s.owners 5 q ↔ ∃ e ∈ s.galleys, quarter e.2.core = q.toNat ∧ e.2.vf = v ∧
    ∃ p ∈ e.2.flight, ∃ d, siteOf p.dst = some d ∧ d ≠ e.2.core := by
  unfold State.owners
  rw [List.mem_eraseDups]
  change v ∈ List.map _ _ ↔ _
  rw [List.mem_map]
  refine exists_congr fun e => ?_
  rw [List.mem_filter, and_assoc]
  refine and_congr_right fun _ => ?_
  simp only [Bool.and_eq_true, decide_eq_true_eq, List.any_eq_true, Option.any_eq_true, ne_eq]
  tauto

end

/-! ## Host accesses (R313, R394, R399) -/

section
variable {v : BitVec 6} {a n : Nat} {w : Option (List Byte)} {s : State}

theorem execHostMemAccess_held (hs : s.serving = true) (hc : (s.vf v.toNat).created = true)
    (hst : (s.vf v.toNat).status ≠ .running) : execHostMemAccess v a w n s =
      .next (s.modVf v.toNat (fun f => { f with heldHost := f.heldHost ++ [(a, w, n)] })) := by
  unfold execHostMemAccess
  dsimp only
  rw [hs, if_neg (by decide), if_pos (by rw [hc]; exact decide_eq_true hst)]

theorem execHostMemAccess_made (hs : s.serving = true) (hst : (s.vf v.toNat).status = .running) :
    execHostMemAccess v a w n s = .next (s.hostAccess v a w n) := by
  unfold execHostMemAccess
  dsimp only
  rw [hs, if_neg (by decide), if_neg (by simp [hst])]

theorem execHostMemAccess_unserved (hs : s.serving = false) : execHostMemAccess v a w n s =
    .next (if w.isSome then s else s.send (.hostRead v a (zeros n))) := by
  unfold execHostMemAccess
  dsimp only
  rw [hs, if_pos (by decide)]

end

/-! ## Coarsened counters (R28, R341) -/

theorem coarsen_spec (n : Nat) : coarsen n ≤ n ∧ n < 2 * max 1 (coarsen n) ∧ (n ≠ 0 → ∃ k, coarsen n = 2 ^ k) := by
  unfold coarsen
  split
  · next h => subst h; exact ⟨Nat.le_refl 0, by decide, fun h => absurd rfl h⟩
  · next h =>
    refine ⟨Nat.log2_self_le h, ?_, fun _ => ⟨_, rfl⟩⟩
    have hlt : n < 2 ^ (n.log2 + 1) := Nat.lt_log2_self
    rw [pow_succ] at hlt
    omega

/-- Settles O56, each event by its lemma. -/
theorem tenancyEvents : Obligations.TenancyEvents := by
  unfold Obligations.TenancyEvents
  refine ⟨fun v a s => ⟨fun hf => ?none, fun g gv hf hg hr => ?wait, fun g gv hf hg hr => ?act⟩,
    fun g s gv hg => ⟨find_none_of_ne (gangs_releaseGang hg), saves_releaseGang hg⟩,
    fun key s => ⟨s.resurfaced key, rfl, rfl, rfl, fun k hk => tagAt_resurfaced_ne hk, fun hc hm => ?current, fun hc hm => ?stale⟩,
    execResurfaceUnit_keeps, fun s hg hl => ?lap,
    fun n q u s => ⟨execSharedStructureError_none, fun v => execSharedStructureError_one⟩,
    fun v q s => ⟨mem_owners_coalescer v q s, mem_owners_dispensers v q s, mem_owners_replies v q s,
      mem_owners_translations v q s, mem_owners_links v q s, rfl⟩,
    fun v a n w s => ⟨execHostMemAccess_held, execHostMemAccess_made, fun bs => execHostMemAccess_made,
      fun hs => ⟨execHostMemAccess_unserved hs, fun bs => execHostMemAccess_unserved hs⟩⟩,
    fun s => ?sample, fun s t c b k ht hc hlt hb => ?banks, coarsen_spec⟩
  case none => exact ⟨execFaultActionThaw_none hf, execFaultActionRestart_none hf, execFaultActionAbort_none hf⟩
  case wait =>
    exact ⟨(execFaultActionThaw_one hf hg).trans (by rw [if_neg hr]), (execFaultActionRestart_one hf hg).trans (by rw [if_neg hr]),
      (execFaultActionAbort_one hf hg).trans (by rw [if_neg hr])⟩
  case act =>
    exact ⟨(execFaultActionThaw_one hf hg).trans (by rw [if_pos hr]), (execFaultActionAbort_one hf hg).trans (by rw [if_pos hr]),
      (execFaultActionRestart_one hf hg).trans (by rw [if_pos hr])⟩
  case current => rw [tagAt_resurfaced hm, hc]; rfl
  case stale => rw [tagAt_resurfaced hm, hc]; rfl
  case lap =>
    refine ⟨_, _, execLapEnd_moves hg hl, rfl, le_max_left .., max_le (by decide) (min_le_left ..),
      fun e he => (List.mem_filter.1 he).2, fun e he hc => List.mem_filter.2 ⟨he, hc⟩, fun e he => (List.mem_filter.1 he).2,
      fun e he => (List.mem_filter.1 he).2, fun v e he => ?_⟩
    exact (find_map s.vfs (fun e => { e with pend := [], old := e.pend }) v).trans (congrArg _ he)
  case sample =>
    refine ⟨_, 270000000 - s.now % 270000000, rfl, by omega, by omega, rfl, fun v e he => ?_⟩
    exact (find_map_key s.vfs (fun v e => { e with coarse := (s.coarseOf v).zipIdx.map (fun (x : Nat × Nat) => (x.2, x.1)) }) v).trans
      (congrArg _ he)
  case banks =>
    cases ht
    refine ⟨(List.range 32).map (fun b => coarsen (Tbl.get k.bankLoss b 0)), ?_, ?_⟩
    · refine (find_map (s.cores.filter (fun e => e.1 < 256))
        (fun k => (List.range 32).map (fun b => coarsen (Tbl.get k.bankLoss b 0))) c).trans ?_
      rw [find_filter_key s.cores (fun n => n < 256) c, if_pos (decide_eq_true hlt), hc]
      rfl
    · rw [List.getElem?_map, List.getElem?_range hb]
      rfl

end Sys2Proof.Machine
end

section
namespace Sys2Proof.Machine

/-! ## Bring-up (R399, R400) -/

section
variable {s : State}

theorem execBootPhase_done (hp : s.phase ≠ 4) : execBootPhase true s = .next s.nextPhase := by
  unfold execBootPhase
  rw [if_pos rfl]
  dsimp only
  rw [if_neg hp]

theorem nextPhase_reset (hp : s.phase = 0) : s.nextPhase = ((s.enterPhase 1).after s.lapCycles .lapEnd).after
    (270000000 - s.now % 270000000) .coarsenedCounterSample := by
  unfold State.nextPhase; rw [hp]; rfl

theorem nextPhase_rom (hp : s.phase = 1) : s.nextPhase = s.enterPhase 2 := by
  unfold State.nextPhase; rw [hp]; rfl

theorem nextPhase_auth (hp : s.phase = 2) : s.nextPhase = s := by
  unfold State.nextPhase; rw [hp]; rfl

theorem nextPhase_q0 (hp : s.phase = 3) (hq : s.q0up = false) : s.nextPhase = State.allIslands { s with q0up := true } := by
  unfold State.nextPhase; rw [hp, hq]; rfl

theorem nextPhase_vault (hp : s.phase = 3) (hq : s.q0up = true) : s.nextPhase = s.enterPhase 4 := by
  unfold State.nextPhase; rw [hp, hq]; rfl

theorem nextPhase_pool (hp : s.phase = 4) : s.nextPhase =
    State.enterPhase { s with moduleId := Config.moduleIdOf s.configRecord } 5 := by
  unfold State.nextPhase; rw [hp]; rfl

theorem nextPhase_fabric (hp : s.phase = 5) : s.nextPhase =
    (State.enterPhase { s with reduced := s.gangs.map (fun g => g.1) } 6).allIslands := by
  unfold State.nextPhase; rw [hp]; rfl

theorem execBootPhase_auth (hp : s.phase = 2) : execBootPhase false s = .next s := by
  unfold execBootPhase
  rw [if_neg (by decide), if_neg (by rw [hp]; decide)]

/-- The ports take their states in the port table and in the log of events. -/
theorem trainFabric_frame {α : Type} {P : State → α} (hP : ∀ (s : State) ports events head outbox, P { s with
    fports := ports, events := events, eventHead := head, outbox := outbox } = P s) : P s.trainFabric = P s := by
  refine foldl_frame (P := P) (fun t p => ?_) _ s
  split
  · exact hP t ..
  · rfl

/-- What the training of the ports leaves. -/
def State.besidesPorts (s : State) : BitVec 4 × Memory × Tbl Core × BitVec 12 := (s.phase, s.mem, s.cores, s.moduleId)

theorem execBootPhase_pool (hp : s.phase = 4) : ∃ t : State, execBootPhase true s = .next t ∧ t.phase = 5 ∧ t.mem = s.mem ∧
    t.cores = s.cores ∧ t.moduleId = Config.moduleIdOf s.configRecord := by
  unfold execBootPhase
  rw [if_pos rfl]
  dsimp only
  rw [if_pos hp, nextPhase_pool hp]
  generalize hu : State.enterPhase { s with moduleId := Config.moduleIdOf s.configRecord } 5 = u
  have hframe : u.trainFabric.besidesPorts = u.besidesPorts := trainFabric_frame (P := State.besidesPorts) fun _ _ _ _ _ => rfl
  simp only [State.besidesPorts, Prod.mk.injEq] at hframe
  obtain ⟨hphase, hmem, hcores, hid⟩ := hframe
  subst hu
  exact ⟨_, rfl, hphase, hmem, hcores, hid⟩

theorem execBootPhase_fails (hp : s.phase = 3 ∨ s.phase = 4 ∨ s.phase = 5) :
    execBootPhase false s = .next s.bootFailed := by
  unfold execBootPhase
  rw [if_neg (by decide), if_pos]
  obtain hp | hp | hp := hp <;> rw [hp] <;> rfl

/-- RESP keeps the number of the phase that failed (log entry 40). -/
theorem resp_bootFailed : s.bootFailed.resp.toNat % 2 ^ 16 = s.phase.toNat := by
  have hlow : s.bootFailed.resp.setWidth 16 = s.phase.setWidth 16 := by
    change ((s.resp &&& ~~~0xFFFF) ||| s.phase.setWidth 64).setWidth 16 = _
    ext i hi
    simp
  have hnat := congrArg BitVec.toNat hlow
  rw [BitVec.toNat_setWidth, BitVec.toNat_setWidth] at hnat
  exact hnat.trans (Nat.mod_eq_of_lt (by omega))

theorem live_stopCores (which : Nat → Bool) {e : Nat × Core} (he : e ∈ (s.stopCores which).cores) (hw : which e.1 = true) :
    e.2.live = false := by
  obtain ⟨e', -, rfl⟩ := List.mem_map.1 he
  dsimp only at hw ⊢
  split at hw
  · next h => rw [if_pos h]
  · next h => exact absurd hw h

end

/-! ## The mailbox (R401, R402) -/

/-- The module as a command begins. -/
def State.commanded (s : State) (req : List Byte) : State := { s with
  reqbuf := (req ++ s.reqbuf.drop req.length).take 256
  resp := (s.resp &&& ~~~(respDone ||| respOverrun)) ||| respBusy }

section
variable {s : State} {req : List Byte} {act : State → State × BitVec 16 × List Byte}

theorem doorbell_busy (h : s.resp &&& 0x4000000000000000 ≠ 0) : s.doorbell req act = { s with
    reqbuf := (req ++ s.reqbuf.drop req.length).take 256, resp := s.resp ||| 0x2000000000000000 } := by
  unfold State.doorbell
  exact if_pos h

theorem doorbell_idle (h : s.resp &&& 0x4000000000000000 = 0) : s.doorbell req act =
    (act (s.commanded req)).1.after (1 + Config.deviceDelay s.now) (.mailboxComplete (act (s.commanded req)).2.1
      (act (s.commanded req)).2.2) := by
  unfold State.doorbell
  exact if_neg (not_not.2 h)

theorem resp_commanded : (s.commanded req).resp &&& 0x4000000000000000 ≠ 0 := by
  intro h
  have := congrArg (BitVec.getLsbD · 62) h
  simp [State.commanded, respBusy] at this

end

theorem leNat_leBytes (n : Nat) : ∀ x : Nat, leNat (leBytes n x) = x % 256 ^ n := by
  induction n with
  | zero => exact fun x => (Nat.mod_one x).symm
  | succ n ih =>
    intro x
    change (BitVec.ofNat 8 x).toNat + 256 * leNat (leBytes n (x / 256)) = _
    rw [ih, BitVec.toNat_ofNat, pow_succ' 256 n]
    exact Nat.mod_mul.symm

theorem field_leBytes (n x : Nat) (bs : List Byte) : field (leBytes n x ++ bs) 0 n = x % 256 ^ n := by
  unfold field
  rw [List.drop_zero, List.take_left' (leBytes_length n x), leNat_leBytes]

theorem field_append (as bs : List Byte) (off n : Nat) : field (as ++ bs) (as.length + off) n = field bs off n := by
  unfold field
  rw [List.drop_append, List.drop_eq_nil_of_le (by omega), List.nil_append, Nat.add_sub_cancel_left]

theorem field_take (bs : List Byte) {off n m : Nat} (h : off + n ≤ m) : field (bs.take m) off n = field bs off n := by
  unfold field
  rw [List.drop_take, List.take_take, Nat.min_eq_left (by omega)]


/-- The arguments that a command writes stand at the beginning of REQ (R401). -/
theorem field_reqbuf_commanded (s : State) (req : List Byte) {off n : Nat} (h : off + n ≤ req.length) (hlen : req.length ≤ 256) :
    field (s.commanded req).reqbuf off n = field req off n := by
  refine (field_take _ (by omega)).trans ?_
  unfold field
  rw [List.drop_append_of_le_length (by omega), List.take_append_of_le_length (by simp; omega)]

/-! ### LOAD (R332) -/

/-- The address and length that LOAD gives of each image. -/
def loadArgs (a b c : Nat × Nat) : List Byte := [a, b, c].flatMap (fun p => leBytes 8 p.1 ++ leBytes 8 p.2)

theorem loadArgs_eq (a b c : Nat × Nat) : loadArgs a b c =
    leBytes 8 a.1 ++ (leBytes 8 a.2 ++ (leBytes 8 b.1 ++ (leBytes 8 b.2 ++ (leBytes 8 c.1 ++ (leBytes 8 c.2 ++ []))))) := by
  simp [loadArgs]

theorem loadArgs_length (a b c : Nat × Nat) : (loadArgs a b c).length = 48 := by simp [loadArgs_eq]

theorem field_append_leBytes (x : Nat) (bs : List Byte) (off : Nat) : field (leBytes 8 x ++ bs) (8 + off) 8 = field bs off 8 := by
  have h := field_append (leBytes 8 x) bs off 8
  rwa [leBytes_length] at h

theorem field_leBytes_small {x : Nat} (bs : List Byte) (h : x ≤ 2 ^ 52) : field (leBytes 8 x ++ bs) 0 8 = x :=
  (field_leBytes ..).trans (Nat.mod_eq_of_lt (by omega))

section
variable {s : State} {a b c : Nat × Nat}

theorem hostImage_commanded {off : Nat} {p : Nat × Nat} (hoff : off + 16 ≤ 48) (hp : p.1 + p.2 ≤ 2 ^ 52)
    (h1 : field (loadArgs a b c) off 8 = p.1) (h2 : field (loadArgs a b c) (off + 8) 8 = p.2) :
    (s.commanded (loadArgs a b c)).hostImage off = some (memRead s.mem (keyHost p.1) p.2) := by
  unfold State.hostImage
  rw [field_reqbuf_commanded s _ (by rw [loadArgs_length]; omega) (by rw [loadArgs_length]; decide), h1,
    field_reqbuf_commanded s _ (by rw [loadArgs_length]; omega) (by rw [loadArgs_length]; decide), h2]
  exact if_pos hp

/-- What LOAD does with what REQ names. -/
def loadNamed (t : State) : State × BitVec 16 × List Byte :=
  match t.hostImage 0, t.hostImage 16, t.hostImage 32 with
  | some a, some b, some c => t.load a b c
  | _, _, _ => notAccepted t

theorem execMailboxLoad_eq : execMailboxLoad a b c s = .next (s.doorbell (loadArgs a b c) loadNamed) := rfl

theorem loadNamed_commanded (ha : a.1 + a.2 ≤ 2 ^ 52) (hb : b.1 + b.2 ≤ 2 ^ 52) (hc : c.1 + c.2 ≤ 2 ^ 52) :
    loadNamed (s.commanded (loadArgs a b c)) = (s.commanded (loadArgs a b c)).load (memRead s.mem (keyHost a.1) a.2)
      (memRead s.mem (keyHost b.1) b.2) (memRead s.mem (keyHost c.1) c.2) := by
  unfold loadNamed
  rw [hostImage_commanded (p := a) (by decide) ha
      (by rw [loadArgs_eq]; exact field_leBytes_small _ (by omega))
      (by rw [loadArgs_eq]; exact (field_append_leBytes _ _ 0).trans (field_leBytes_small _ (by omega))),
    hostImage_commanded (p := b) (by decide) hb
      (by rw [loadArgs_eq]; exact (field_append_leBytes _ _ 8).trans ((field_append_leBytes _ _ 0).trans
        (field_leBytes_small _ (by omega))))
      (by rw [loadArgs_eq]; exact (field_append_leBytes _ _ 16).trans ((field_append_leBytes _ _ 8).trans
        ((field_append_leBytes _ _ 0).trans (field_leBytes_small _ (by omega))))),
    hostImage_commanded (p := c) (by decide) hc
      (by rw [loadArgs_eq]; exact (field_append_leBytes _ _ 24).trans ((field_append_leBytes _ _ 16).trans
        ((field_append_leBytes _ _ 8).trans ((field_append_leBytes _ _ 0).trans (field_leBytes_small _ (by omega))))))
      (by rw [loadArgs_eq]; exact (field_append_leBytes _ _ 32).trans ((field_append_leBytes _ _ 24).trans
        ((field_append_leBytes _ _ 16).trans ((field_append_leBytes _ _ 8).trans ((field_append_leBytes _ _ 0).trans
          (field_leBytes_small _ (by omega)))))))]

theorem execMailboxLoad_idle (h : s.resp &&& 0x4000000000000000 = 0) (ha : a.1 + a.2 ≤ 2 ^ 52) (hb : b.1 + b.2 ≤ 2 ^ 52)
    (hc : c.1 + c.2 ≤ 2 ^ 52) {r : State × BitVec 16 × List Byte}
    (hr : (s.commanded (loadArgs a b c)).load (memRead s.mem (keyHost a.1) a.2) (memRead s.mem (keyHost b.1) b.2)
      (memRead s.mem (keyHost c.1) c.2) = r) :
    execMailboxLoad a b c s = .next (r.1.after (1 + Config.deviceDelay s.now) (.mailboxComplete r.2.1 r.2.2)) := by
  rw [execMailboxLoad_eq, doorbell_idle h, loadNamed_commanded ha hb hc, hr]

end

/-! ### The firmware runs (R332, R399) -/

section
variable {s : State}

theorem startFirmware_frame {α : Type} {P : State → α} (hP : ∀ (s : State) cores mem tags poison bad, P { s with
    cores := cores, mem := mem, tags := tags, poison := poison, badLines := bad } = P s) (image : List Byte) (c : Nat) :
    P (s.startFirmware image c) = P s :=
  (write_frame hP ..).trans (hP s ..)

/-- A management core that runs its image from word 0. -/
def Core.runsImage (k : Core) : Prop := k.live = true ∧ k.wC.st = .running ∧ k.wC.index = 0

theorem runsImage_write (t : State) (tag : Tag) (key : Nat) (bs : List Byte) (c : Nat) :
    ((t.write tag key bs).core c).runsImage = (t.core c).runsImage :=
  field_write Core.runsImage (fun _ _ => rfl) (fun _ _ _ => rfl) t tag key bs c

theorem runsImage_startFirmware (image : List Byte) (c : Nat) : ((s.startFirmware image c).core c).runsImage := by
  refine (runsImage_write ..).mpr ?_
  rw [core_setCore]
  exact ⟨rfl, rfl, rfl⟩

theorem runsImage_startFirmware_kept (image : List Byte) (c : Nat) {d : Nat} (h : (s.core d).runsImage) :
    ((s.startFirmware image c).core d).runsImage := by
  by_cases hd : d = c
  · exact hd ▸ runsImage_startFirmware ..
  · refine (runsImage_write ..).mpr ?_
    rwa [core_setCore_ne _ _ hd]

/-- Each core of a list runs the image once all have been started, and one that ran runs on. -/
theorem runsImage_foldl_startFirmware (image : List Byte) (l : List Nat) : ∀ s : State, ∀ d, d ∈ l ∨ (s.core d).runsImage →
    ((l.foldl (State.startFirmware · image) s).core d).runsImage := by
  induction l with
  | nil => exact fun s d h => h.resolve_left (List.not_mem_nil)
  | cons c l ih =>
    refine fun s d h => ih _ d (h.elim (fun h => ?_) fun h => .inr (runsImage_startFirmware_kept image c h))
    obtain rfl | h := List.mem_cons.1 h
    · exact .inr (runsImage_startFirmware ..)
    · exact .inl h

end

end Sys2Proof.Machine
end

section
namespace Sys2Proof.Machine

section
variable {s : State} {patch press config : List Byte}

/-- The module as LOAD leaves it: the digests kept, the firmware running, and VAULT begun. -/
def State.loaded (s : State) (patch press config : List Byte) : State :=
  let s1 : State := { s with
    digestPatch := sha512 (Config.proofRom ++ patch), digestPress := sha512 press, digestConfig := sha512 config
    configRecord := config }
  ([257, 258, 259, 260].foldl (State.startFirmware · press) (s1.startFirmware patch proofCore)).enterPhase 3

theorem load_refused (hp : s.phase ≠ 2) : s.load patch press config = notAccepted s := if_pos hp

theorem load_authentic (hp : s.phase = 2) (hv : (Config.signatureValid patch && Config.signatureValid press &&
    Config.signatureValid config) = true) : s.load patch press config = (s.loaded patch press config, 0, []) := by
  unfold State.load
  rw [if_neg (not_not.2 hp), if_pos hv]
  rfl

theorem load_false (hp : s.phase = 2) (hv : ¬(Config.signatureValid patch && Config.signatureValid press &&
    Config.signatureValid config) = true) : s.load patch press config = (s.enterPhase 0xF, 2, []) := by
  unfold State.load
  rw [if_neg (not_not.2 hp), if_neg hv]

/-- What LOAD keeps of the images. -/
def State.imagesKept (s : State) : List Byte × List Byte × List Byte := (s.digestPress, s.digestConfig, s.configRecord)

theorem imagesKept_startFirmware (s : State) (image : List Byte) (c : Nat) :
    (s.startFirmware image c).imagesKept = s.imagesKept :=
  startFirmware_frame (P := State.imagesKept) (fun _ _ _ _ _ _ => rfl) image c

theorem imagesKept_enterPhase (s : State) (p : BitVec 4) : (s.enterPhase p).imagesKept = s.imagesKept := rfl

theorem imagesKept_loaded (s : State) (patch press config : List Byte) :
    (s.loaded patch press config).imagesKept = (sha512 press, sha512 config, config) := by
  unfold State.loaded
  rw [imagesKept_enterPhase, foldl_frame (P := State.imagesKept) (fun t c => imagesKept_startFirmware t press c),
    imagesKept_startFirmware]
  rfl

theorem runsImage_loaded {m : Nat} (h : 256 ≤ m) (h' : m ≤ 260) : ((s.loaded patch press config).core m).runsImage := by
  refine runsImage_foldl_startFirmware press [257, 258, 259, 260] _ m ?_
  obtain rfl | hm : m = proofCore ∨ m ∈ [257, 258, 259, 260] := by
    simp only [proofCore, List.mem_cons, List.not_mem_nil]; omega
  · exact .inr (runsImage_startFirmware ..)
  · exact .inl hm

end

/-! ## The sensors and the host's reset (R339) -/

section
variable {s : State}

theorem isVirt_lock {g : Galley} {p : Piece} (h : p ∈ g.lock.plan ++ g.lock.flight) : isVirt p.dst = false := by
  obtain h | h := List.mem_append.1 h
  · simpa using (List.mem_filter.1 h).2
  · simpa using (List.mem_filter.1 h).2

theorem memByte_execHostReset {a : Nat} (h : isPool a = true) :
    memByte (s.mem.filter (fun c => 2 ^ 53 ≤ c.1 && c.1 < 2 ^ 55)) a = memByte s.mem a := by
  refine memByte_filter s.mem (fun n => 2 ^ 53 ≤ n && n < 2 ^ 55) a ?_
  simp only [isPool, Bool.and_eq_true, decide_eq_true_eq] at h ⊢
  omega

/-! ## Emergencies (R305, R403, R404) -/

theorem emergencyLevel_le_islandLevel (i : Nat) : s.emergencyLevel.toNat ≤ (s.islandLevel i).toNat := by
  unfold State.islandLevel
  extract_lets least
  have hleast : s.emergencyLevel.toNat ≤ least.toNat := by
    dsimp only [least]
    split
    · next h => simp only [Bool.and_eq_true, decide_eq_true_eq] at h; exact Nat.le_of_lt h.1.1.1
    · exact Nat.le_refl _
  clear_value least
  revert least
  induction s.gangs with
  | nil => exact fun least h => h
  | cons g l ih =>
    refine fun least h => ih _ ?_
    dsimp only
    split
    · next hg => simp only [Bool.and_eq_true, decide_eq_true_eq] at hg; omega
    · exact h

/-- Every island of a set of cores takes its level. -/
theorem get_foldl_put {α : Type} (f : Nat → α) (d : α) (l : List Nat) : ∀ (m : Tbl α) (i : Nat), i ∈ l ∨ Tbl.get m i d = f i →
    Tbl.get (l.foldl (fun m i => Tbl.put m i (f i)) m) i d = f i := by
  induction l with
  | nil => exact fun m i h => h.resolve_left List.not_mem_nil
  | cons n l ih =>
    refine fun m i h => ih _ i ?_
    by_cases hn : i = n
    · exact .inr (by rw [hn, get_put])
    · exact h.elim (fun h => .inl ((List.mem_cons.1 h).resolve_left hn))
        fun h => .inr (by rw [get_put_ne _ _ _ hn, h])

theorem islands_setIslands {cores : List Nat} {c : Nat} (h : c ∈ cores) :
    Tbl.get (s.setIslands cores).islands (c / 2) 0 = s.islandLevel (c / 2) :=
  get_foldl_put s.islandLevel 0 _ s.islands _ (.inl (List.mem_eraseDups.2 (List.mem_map_of_mem h)))

theorem islands_allIslands {i : Nat} (h : i < 128) : Tbl.get s.allIslands.islands i 0 = s.islandLevel i := by
  have hi := islands_setIslands (s := s) (List.mem_range.2 (show 2 * i < 256 by omega))
  rwa [Nat.mul_div_cancel_left i (by decide)] at hi

theorem emergencyLevel_le_islands {i : Nat} (h : i < 128) :
    s.emergencyLevel.toNat ≤ (Tbl.get s.allIslands.islands i 0).toNat := by
  rw [islands_allIslands h]
  exact emergencyLevel_le_islandLevel i

theorem emergencyLevel_hot (h : s.forcedHot = true) : 8 ≤ s.emergencyLevel.toNat := by
  unfold State.emergencyLevel
  rw [if_pos h]
  dsimp only
  split
  · next h => exact Nat.le_of_lt h
  · exact Nat.le_refl 8

theorem supply_le_emergencyLevel : s.supply.toNat ≤ s.emergencyLevel.toNat := by
  unfold State.emergencyLevel
  extract_lets hot
  split
  · exact Nat.le_refl _
  · omega

end

/-! ## Pool ports (R398) -/

/-- The ports that are down, and the galleys with their lines on their way. -/
def State.poolFlights (s : State) : List Nat × Tbl Galley := (s.poolDown, s.galleys)

/-- No line is on its way by a port, and these ports are down. -/
def State.noneBy (s : State) (port : Nat) (down : List Nat) : Prop :=
  s.poolDown = down ∧ ∀ e ∈ s.galleys, ∀ q ∈ e.2.flight, q.byPort port = false

theorem noneBy_of_poolFlights {s t : State} {port : Nat} {down : List Nat} (h : t.poolFlights = s.poolFlights)
    (hs : s.noneBy port down) : t.noneBy port down := by
  obtain ⟨hd, hg⟩ := Prod.mk.inj h
  exact ⟨hd.trans hs.1, fun e he => hs.2 e (hg ▸ he)⟩

theorem noneBy_modGalley {s : State} {port : Nat} {down : List Nat} (id : Nat) {f : Galley → Galley}
    (hf : ∀ g, (f g).flight = g.flight) (hs : s.noneBy port down) : (s.modGalley id f).noneBy port down := by
  unfold State.modGalley
  split
  · next g hg =>
    refine ⟨hs.1, fun e he => ?_⟩
    obtain rfl | he := mem_of_mem_put he
    · rw [hf g]
      exact hs.2 _ (find_mem hg)
    · exact hs.2 e he
  · exact hs

theorem noneBy_loseLine {s : State} {port : Nat} {down : List Nat} (line : Nat) (l : CoalLine) (hs : s.noneBy port down) :
    (s.loseLine line l).noneBy port down := by
  unfold State.loseLine
  extract_lets s1 s2
  have h2 : s2.noneBy port down := noneBy_of_poolFlights
    (foldl_frame (P := State.poolFlights) (fun t w => modHome_frame (P := State.poolFlights) (fun _ _ => rfl) (fun _ _ => rfl) ..) _ s1)
    (s := s1) hs
  split
  · exact noneBy_modGalley (s := s2) _ (f := fun g => { g with waitAck := g.waitAck - 1 }) (fun _ => rfl) h2
  · exact h2

theorem poolFlights_putRecord (s : State) (v : BitVec 6) (area : Nat) (host : Bool) (bytes : List Byte) :
    (s.putRecord v area host bytes).poolFlights = s.poolFlights := by
  have hw (t : State) (tag : Tag) (k : Nat) (bs : List Byte) : (t.write tag k bs).poolFlights = t.poolFlights :=
    write_frame (P := State.poolFlights) (fun _ _ _ _ _ _ => rfl) ..
  unfold State.putRecord
  extract_lets tag
  split
  · rfl
  · extract_lets hdr count lost s1
    have h1 : s1.poolFlights = s.poolFlights := by
      dsimp only [s1]
      split
      · exact (hw ..).trans (hw ..)
      · exact hw ..
    split
    · exact h1
    · exact h1

theorem poolFlights_freezeRest (s : State) (g : Nat) (gv : Gang) (cause : FreezeCause) :
    (s.freezeRest g gv cause).poolFlights = s.poolFlights := by
  refine foldl_frame (P := State.poolFlights) (fun t c => ?_) _ s
  dsimp only
  split
  · exact saveCore_frame (P := State.poolFlights) (fun _ _ _ _ _ _ => rfl) (fun _ _ => rfl) ..
  · rfl

theorem poolFlights_modGang (s : State) (g : Nat) (f : Gang → Gang) : (s.modGang g f).poolFlights = s.poolFlights := by
  unfold State.modGang
  split
  · rfl
  · rfl

theorem poolFlights_errorRecord (s : State) (v : BitVec 6) (n : Nat) (gangs : List Nat) :
    (s.errorRecord v n gangs).poolFlights = s.poolFlights := by
  unfold State.errorRecord
  refine (foldl_frame (P := State.poolFlights) (fun t g => ?_) _ _).trans (poolFlights_putRecord ..)
  split
  · split
    · exact (poolFlights_modGang ..).trans (poolFlights_freezeRest ..)
    · rfl
  · rfl

theorem byPort_lose (port now : Nat) (p : Piece) : (p.lose port now).byPort port = false := by
  unfold Piece.lose
  split
  · rfl
  · next h => exact Bool.eq_false_iff.2 h

theorem poolFlights_foldl_send {β : Type} (m : β → Sent) (l : List β) (s : State) :
    (l.foldl (fun (t : State) e => t.send (m e)) s).poolFlights = s.poolFlights :=
  foldl_frame (P := State.poolFlights) (f := fun t e => t.send (m e)) (fun _ _ => rfl) l s

theorem execPoolPortDown_loses (p : BitVec 4) (s : State) : ∃ t : State, execPoolPortDown p s = .next t ∧
    t.noneBy p.toNat (if s.poolDown.contains p.toNat then s.poolDown else p.toNat :: s.poolDown) := by
  unfold execPoolPortDown
  extract_lets port reads lines vfs gangs s1 s2 s3 pages s4
  have h1 : s1.noneBy p.toNat (if s.poolDown.contains p.toNat then s.poolDown else p.toNat :: s.poolDown) := by
    refine ⟨rfl, fun e he q hq => ?_⟩
    obtain ⟨e', -, rfl⟩ := List.mem_map.1 he
    obtain ⟨q', -, rfl⟩ := List.mem_map.1 hq
    exact byPort_lose ..
  clear_value s1
  have h2 := noneBy_of_poolFlights (t := s2) (foldl_frame (P := State.poolFlights)
    (f := fun (t : State) e => t.after 0 (.galleyLineWrite e.1)) (fun _ _ => rfl) reads s1) h1
  clear_value s2
  have h3 : s3.noneBy p.toNat (if s.poolDown.contains p.toNat then s.poolDown else p.toNat :: s.poolDown) :=
    List.foldlRecOn (motive := fun (t : State) => t.noneBy p.toNat (if s.poolDown.contains p.toNat then s.poolDown
      else p.toNat :: s.poolDown)) lines _ h2 (fun t ht e _ => noneBy_loseLine e.1 e.2 ht)
  clear_value s3
  clear_value pages
  have h4 := noneBy_of_poolFlights (t := s4) (poolFlights_foldl_send _ pages.eraseDups s3) h3
  exact ⟨_, rfl, noneBy_of_poolFlights (foldl_frame (P := State.poolFlights)
    (fun _ _ => poolFlights_errorRecord ..) vfs s4) h4⟩

theorem execPoolPortDown_idle {p : BitVec 4} {s : State} (hg : s.galleys = []) (hc : s.coalescer = []) :
    execPoolPortDown p s = .next { s with
      poolDown := if s.poolDown.contains p.toNat then s.poolDown else p.toNat :: s.poolDown } := by
  unfold execPoolPortDown
  rw [hg, hc]
  rfl

end Sys2Proof.Machine
end

section
namespace Sys2Proof.Machine

/-! ## The commands' answers (R401 to R404) -/

section
variable {s : State}

/-- A command while BUSY leaves its arguments in REQ and sets OVERRUN (R401). -/
def State.overrun (s : State) (req : List Byte) : State := { s with
  reqbuf := (req ++ s.reqbuf.drop req.length).take 256, resp := s.resp ||| 0x2000000000000000 }

section
variable (h : s.resp &&& 0x4000000000000000 ≠ 0)
include h

theorem execMailboxLoad_busy {a b c : Nat × Nat} : execMailboxLoad a b c s =
    .next (s.overrun ([a, b, c].flatMap (fun p => leBytes 8 p.1 ++ leBytes 8 p.2))) := by
  unfold execMailboxLoad
  rw [doorbell_busy h]
  rfl

theorem execMailboxAttest_busy {nonce : List Byte} {v : BitVec 8} :
    execMailboxAttest nonce v s = .next (s.overrun (padTo 64 nonce ++ [v])) := by
  unfold execMailboxAttest
  rw [doorbell_busy h]
  rfl

theorem execMailboxLimit_busy {w : Nat} : execMailboxLimit w s = .next (s.overrun (leBytes 8 w)) := by
  unfold execMailboxLimit
  rw [doorbell_busy h]
  rfl

theorem execMailboxThermal_busy : execMailboxThermal s = .next (s.overrun []) := by
  unfold execMailboxThermal
  rw [doorbell_busy h]
  rfl

theorem execMailboxProofRequest_busy {cmd : Byte} {req : List Byte} : execMailboxProofRequest cmd req s =
    .next (s.overrun req) := by
  unfold execMailboxProofRequest
  rw [doorbell_busy h]
  rfl

end

theorem execMailboxComplete_resp (code : BitVec 16) (r : Word) :
    let t := (r &&& respOverrun) ||| respDone ||| code.setWidth 64
    t &&& 0x4000000000000000 = 0 ∧ t &&& 0x8000000000000000 ≠ 0 ∧ t.toNat % 2 ^ 16 = code.toNat := by
  intro t
  refine ⟨?busy, fun h => ?done, ?code⟩
  case busy =>
    have hbit : (0x4000000000000000 : Word) = BitVec.twoPow 64 62 := rfl
    have hclear : t.getLsbD 62 = false := by simp [t, respOverrun, respDone]
    rw [hbit, BitVec.and_twoPow, hclear]
    rfl
  case done =>
    have := congrArg (BitVec.getLsbD · 63) h
    simp [t, respOverrun, respDone] at this
  case code =>
    have hlow : t.setWidth 16 = code := by
      ext i hi
      simp [t, respOverrun, respDone]
    exact (BitVec.toNat_setWidth ..).symm.trans (congrArg BitVec.toNat hlow)

theorem execMailboxLimit_idle (w : Nat) (h : s.resp &&& 0x4000000000000000 = 0) (hw : 1200 ≤ w ∧ w ≤ 2400) :
    execMailboxLimit w s = .next (State.after { s.commanded (leBytes 8 w) with limit := w } (1 + Config.deviceDelay s.now)
      (.mailboxComplete 0 (leBytes 8 w))) := by
  refine congrArg Host.Outcome.next ((doorbell_idle h).trans ?_)
  rw [if_pos hw]

theorem execMailboxLimit_refused (w : Nat) (h : s.resp &&& 0x4000000000000000 = 0) (hw : ¬(1200 ≤ w ∧ w ≤ 2400)) :
    execMailboxLimit w s = .next ((s.commanded (leBytes 8 w)).after (1 + Config.deviceDelay s.now) (.mailboxComplete 5 [])) := by
  refine congrArg Host.Outcome.next ((doorbell_idle h).trans ?_)
  rw [if_neg hw]
  rfl

theorem execMailboxThermal_idle (h : s.resp &&& 0x4000000000000000 = 0) : execMailboxThermal s =
    .next (State.after { s.commanded [] with nextFree := s.nextFree + 1 } (1 + Config.deviceDelay s.now)
      (.mailboxComplete 0 (leBytes 2 (Config.thermal s.nextFree).1.toNat ++ leBytes 2 (Config.thermal s.nextFree).2.toNat))) :=
  congrArg Host.Outcome.next (doorbell_idle h)

section
variable {nonce : List Byte} {v : BitVec 8}

theorem take_reqbuf_commanded (req tail : List Byte) (h : (req ++ tail).length ≤ 256) :
    (s.commanded (req ++ tail)).reqbuf.take req.length = req := by
  have hlen : req.length ≤ 256 := (List.length_append ▸ h).trans' (Nat.le_add_right ..)
  change List.take req.length (List.take 256 ((req ++ tail) ++ _)) = req
  rw [List.take_take, Nat.min_eq_left hlen, List.append_assoc, List.take_left]

theorem padTo_of_length {n : Nat} {bs : List Byte} (h : bs.length = n) : padTo n bs = bs :=
  List.take_left' h

/-- What ATTEST reads in REQ is what it was given. -/
theorem attest_reqbuf (hn : nonce.length = 64) : (s.commanded (nonce ++ [v])).reqbuf.take 64 = nonce ∧
    field (s.commanded (nonce ++ [v])).reqbuf 64 1 = v.toNat := by
  refine ⟨hn ▸ take_reqbuf_commanded nonce [v] (by simp [hn]), ?_⟩
  rw [field_reqbuf_commanded s (nonce ++ [v]) (by simp [hn]) (by simp [hn])]
  have h := field_append nonce [v] 0 1
  rw [hn] at h
  exact h

theorem execMailboxAttest_idle (h : s.resp &&& 0x4000000000000000 = 0) (hn : nonce.length = 64) (hv : v.toNat < 64) :
    execMailboxAttest nonce v s = .next ((s.commanded (nonce ++ [v])).after (1 + Config.deviceDelay s.now) (.mailboxComplete 0
      ((s.commanded (nonce ++ [v])).report nonce (v.setWidth 6)))) := by
  obtain ⟨htake, hfield⟩ := attest_reqbuf (s := s) (v := v) hn
  unfold execMailboxAttest
  rw [padTo_of_length hn, doorbell_idle h, hfield]
  dsimp only
  rw [if_pos hv, htake]
  have hvf : BitVec.ofNat 6 v.toNat = v.setWidth 6 := BitVec.eq_of_toNat_eq (by simp)
  rw [hvf]

theorem execMailboxAttest_refused (h : s.resp &&& 0x4000000000000000 = 0) (hn : nonce.length = 64) (hv : 64 ≤ v.toNat) :
    execMailboxAttest nonce v s = .next ((s.commanded (nonce ++ [v])).after (1 + Config.deviceDelay s.now)
      (.mailboxComplete 5 [])) := by
  obtain ⟨-, hfield⟩ := attest_reqbuf (s := s) (v := v) hn
  unfold execMailboxAttest
  rw [padTo_of_length hn, doorbell_idle h, hfield]
  dsimp only
  rw [if_neg hv.not_gt]
  rfl

end

section
variable {cmd : Byte} {req : List Byte} (h : s.resp &&& 0x4000000000000000 = 0)
include h

theorem execMailboxProofRequest_refused (hc : cmd.toNat < 0x10 ∨ 0x7F < cmd.toNat ∨ s.phase.toNat < 3 ∨ 6 < s.phase.toNat) :
    execMailboxProofRequest cmd req s = .next ((s.commanded req).after (1 + Config.deviceDelay s.now) (.mailboxComplete 5 [])) := by
  unfold execMailboxProofRequest
  rw [doorbell_idle h]
  rw [if_pos (by change (_ || _ || decide (s.phase.toNat < 3) || decide (6 < s.phase.toNat)) = true; simpa [or_assoc] using hc)]
  rfl

theorem execMailboxProofRequest_idle (h1 : 0x10 ≤ cmd.toNat) (h2 : cmd.toNat ≤ 0x7F) (h3 : 3 ≤ s.phase.toNat)
    (h4 : s.phase.toNat ≤ 6) : ∃ m : Memory, execMailboxProofRequest cmd req s =
    .next (State.after { s.commanded req with mem := m } (1 + Config.deviceDelay s.now)
      (.mailboxComplete (Config.proofPatch cmd req).1 (Config.proofPatch cmd req).2.1)) := by
  unfold execMailboxProofRequest
  rw [doorbell_idle h]
  rw [if_neg (by change ¬ (_ || _ || decide (s.phase.toNat < 3) || decide (6 < s.phase.toNat)) = true; simp; omega)]
  exact ⟨_, rfl⟩

end
end

theorem sources_setIslands (s : State) (cores : List Nat) : (s.setIslands cores).forcedHot = s.forcedHot ∧
    (s.setIslands cores).supply = s.supply ∧ (s.setIslands cores).mem = s.mem := ⟨rfl, rfl, rfl⟩

theorem sources_allIslands (s : State) : s.allIslands.forcedHot = s.forcedHot ∧ s.allIslands.supply = s.supply ∧
    s.allIslands.mem = s.mem := sources_setIslands ..

/-- Settles O57, each event by its lemma. -/
theorem platformEvents : Obligations.PlatformEvents := by
  unfold Obligations.PlatformEvents
  refine ⟨fun s => ⟨fun hp => ?reset, fun hp => ?rom, fun hp => ?auth, fun hp hq => ?q0, fun hp hq => ?vault,
      fun hp => ?pool, fun hp => ?fabric, fun hp => ?failed⟩,
    fun s h => ⟨fun a b c => execMailboxLoad_busy h, fun a b => ?attestBusy, fun a => execMailboxLimit_busy h,
      execMailboxThermal_busy h, fun a b => execMailboxProofRequest_busy h⟩,
    fun code rsp s => ?complete, fun s w h => ⟨fun h1 h2 => ?limit, fun hw => ?noLimit⟩,
    fun s a b c h ha hb hc => ?load, fun s nonce v h hn => ⟨fun hv => ?attest, fun hv => ?noAttest⟩,
    fun s h => ⟨_, _, execMailboxThermal_idle h, rfl⟩,
    fun s cmd req h => ⟨fun hc => ⟨_, _, execMailboxProofRequest_refused h hc, rfl⟩, fun h1 h2 h3 h4 => ?proof⟩,
    fun s => ?trip, fun s => ?host, fun s => ⟨?hot, ?cool, fun l => ?supply⟩,
    fun p s => ⟨rfl, fun hd hg hc => ?down, fun hd hg hc => ?goesDown, fun hd => ?loses⟩⟩
  case reset => exact ⟨_, (execBootPhase_done (by rw [hp]; decide)).trans (congrArg _ (nextPhase_reset hp)), rfl, rfl⟩
  case rom => exact (execBootPhase_done (by rw [hp]; decide)).trans (congrArg _ (nextPhase_rom hp))
  case auth => exact ⟨(execBootPhase_done (by rw [hp]; decide)).trans (congrArg _ (nextPhase_auth hp)), execBootPhase_auth hp⟩
  case q0 => exact (execBootPhase_done (by rw [hp]; decide)).trans (congrArg _ (nextPhase_q0 hp hq))
  case vault => exact (execBootPhase_done (by rw [hp]; decide)).trans (congrArg _ (nextPhase_vault hp hq))
  case pool => exact execBootPhase_pool hp
  case fabric => exact (execBootPhase_done (by rw [hp]; decide)).trans (congrArg _ (nextPhase_fabric hp))
  case failed =>
    refine ⟨_, execBootPhase_fails hp, rfl, resp_bootFailed, rfl, rfl, rfl, fun e he hlt => ?_⟩
    exact live_stopCores (s := { s with resp := _ }) (· < 256) he (decide_eq_true hlt)
  case attestBusy => exact execMailboxAttest_busy h
  case complete =>
    obtain ⟨hbusy, hdone, hcode⟩ := execMailboxComplete_resp code s.resp
    exact ⟨_, rfl, hbusy, hdone, hcode, rfl, rfl⟩
  case limit => exact ⟨_, _, execMailboxLimit_idle w h ⟨h1, h2⟩, Nat.le_add_right .., rfl⟩
  case noLimit => exact ⟨_, _, execMailboxLimit_refused w h (by omega), rfl, resp_commanded⟩
  case load =>
    intro image
    refine ⟨fun hp => ⟨_, _, execMailboxLoad_idle h ha hb hc (load_refused hp), rfl⟩, fun hp => ?_⟩
    by_cases hv : (Config.signatureValid (image a) && Config.signatureValid (image b) && Config.signatureValid (image c)) = true
    · have hkept := imagesKept_loaded (s.commanded (loadArgs a b c)) (image a) (image b) (image c)
      simp only [State.imagesKept, Prod.mk.injEq] at hkept
      obtain ⟨hpress, hconfig, hrecord⟩ := hkept
      refine ⟨(s.commanded (loadArgs a b c)).loaded (image a) (image b) (image c), 1 + Config.deviceDelay s.now, ?_⟩
      rw [if_pos hv]
      exact ⟨execMailboxLoad_idle h ha hb hc (load_authentic hp hv), rfl, hpress, hconfig, hrecord, fun m h1 h2 => runsImage_loaded h1 h2⟩
    · refine ⟨(s.commanded (loadArgs a b c)).enterPhase 0xF, 1 + Config.deviceDelay s.now, ?_⟩
      rw [if_neg hv]
      exact ⟨execMailboxLoad_idle h ha hb hc (load_false hp hv), rfl⟩
  case attest => exact ⟨_, _, execMailboxAttest_idle h hn hv, rfl, rfl⟩
  case noAttest => exact ⟨_, _, execMailboxAttest_refused h hn hv, rfl, rfl⟩
  case proof =>
    obtain ⟨m, hm⟩ := execMailboxProofRequest_idle (req := req) h h1 h2 h3 h4
    exact ⟨_, _, hm, rfl⟩
  case trip =>
    refine ⟨_, rfl, rfl, rfl, rfl, rfl, rfl, fun e he => live_stopCores (s := s) (fun _ => true) he rfl, fun e he => (List.mem_filter.1 he).2,
      fun e he p hp => ?_⟩
    obtain ⟨e', -, rfl⟩ := List.mem_map.1 he
    exact isVirt_lock hp
  case host => exact ⟨_, rfl, rfl, rfl, rfl, rfl, rfl, rfl, fun a ha _ => memByte_execHostReset ha⟩
  case cool =>
    obtain ⟨hhot, -, hmem⟩ := sources_allIslands { s with forcedHot := false }
    exact ⟨_, rfl, hhot, hmem⟩
  case hot =>
    obtain ⟨hhot, -, hmem⟩ := sources_allIslands { s with forcedHot := true }
    exact ⟨_, rfl, hhot, hmem, fun i hi => (emergencyLevel_hot rfl).trans (emergencyLevel_le_islands hi)⟩
  case supply =>
    obtain ⟨-, hsupply, hmem⟩ := sources_allIslands { s with supply := l }
    exact ⟨_, rfl, hsupply, hmem, fun i hi => (supply_le_emergencyLevel (s := { s with supply := l })).trans (emergencyLevel_le_islands hi)⟩
  case down => exact (execPoolPortDown_idle hg hc).trans (by rw [hd]; rfl)
  case goesDown => exact (execPoolPortDown_idle hg hc).trans (by rw [hd]; rfl)
  case loses =>
    obtain ⟨t, ht, hdown, hnone⟩ := execPoolPortDown_loses p s
    exact ⟨t, ht, hdown.trans (by rw [hd]; rfl), hnone⟩

end Sys2Proof.Machine
end

section
namespace Sys2Proof.Machine

/-! ## What a flit that is sent leaves (R353, R354) -/

theorem port_modPort (s : State) (p : Nat) (f : FPort → FPort) : (s.modPort p f).port p = f (s.port p) := get_upd ..

theorem port_modPort_ne (s : State) {p q : Nat} (f : FPort → FPort) (h : q ≠ p) : (s.modPort p f).port q = s.port q :=
  get_upd_ne _ _ _ _ h

/-- A state after some flits have been sent: held flits are joined by others, and no port has received anything. -/
structure State.Tells (s t : State) : Prop where
  tx : ∀ q, ∃ sent, (t.port q).tx = (s.port q).tx ++ sent
  heard : ∀ q, (t.port q).lastRx = (s.port q).lastRx ∧ (t.port q).allow = (s.port q).allow
  mem : t.mem = s.mem
  cores : t.cores = s.cores

namespace State.Tells

theorem refl (s : State) : s.Tells s := ⟨fun _ => ⟨[], (List.append_nil _).symm⟩, fun _ => ⟨rfl, rfl⟩, rfl, rfl⟩

theorem trans {s t u : State} (h : s.Tells t) (h' : t.Tells u) : s.Tells u := by
  refine ⟨fun q => ?_, fun q => ⟨(h'.heard q).1.trans (h.heard q).1, (h'.heard q).2.trans (h.heard q).2⟩,
    h'.mem.trans h.mem, h'.cores.trans h.cores⟩
  obtain ⟨l, hl⟩ := h.tx q
  obtain ⟨l', hl'⟩ := h'.tx q
  exact ⟨l ++ l', by rw [hl', hl, List.append_assoc]⟩

theorem foldl {β : Type} {f : State → β → State} (h : ∀ s b, State.Tells s (f s b)) (l : List β) : ∀ s : State, s.Tells (l.foldl f s) := by
  induction l with
  | nil => exact refl
  | cons b l ih => exact fun s => (h s b).trans (ih _)

theorem after (s : State) (d : Nat) (i : Instr) : s.Tells (s.after d i) :=
  ⟨fun _ => ⟨[], (List.append_nil _).symm⟩, fun _ => ⟨rfl, rfl⟩, rfl, rfl⟩

theorem send (s : State) (m : Sent) : s.Tells (s.send m) :=
  ⟨fun _ => ⟨[], (List.append_nil _).symm⟩, fun _ => ⟨rfl, rfl⟩, rfl, rfl⟩

theorem modPort (s : State) (p : Nat) (f : FPort → FPort) (hf : ∀ t, ∃ sent, (f t).tx = t.tx ++ sent)
    (hh : ∀ t, (f t).lastRx = t.lastRx ∧ (f t).allow = t.allow) : s.Tells (s.modPort p f) := by
  refine ⟨fun q => ?_, fun q => ?_, rfl, rfl⟩
  · by_cases hq : q = p
    · rw [hq, port_modPort]; exact hf _
    · rw [port_modPort_ne s f hq]; exact ⟨[], (List.append_nil _).symm⟩
  · by_cases hq : q = p
    · rw [hq, port_modPort]; exact hh _
    · rw [port_modPort_ne s f hq]; exact ⟨rfl, rfl⟩

theorem sendFlit (s : State) (p : Nat) (rv : Bool) (segs : List Seg) : s.Tells (s.sendFlit p rv segs) := by
  unfold State.sendFlit
  extract_lets t f s1 s2
  have h1 : s.Tells s1 := modPort s p (fun t => { t with
    tx := t.tx ++ [(t.nextSeq, s.now, f)], nextSeq := (t.nextSeq + 1) % 4096, rreq := false }) (fun _ => ⟨_, rfl⟩) fun _ => ⟨rfl, rfl⟩
  have h : s.Tells s2 := h1.trans (send ..)
  split
  · exact h.trans (after ..)
  · exact h

theorem sendIdle (s : State) (p : Nat) : s.Tells (s.sendIdle p) := by
  unfold State.sendIdle
  split
  · exact sendFlit ..
  · exact refl s

theorem drainCheck (s : State) (p : Nat) : s.Tells (s.drainCheck p) := by
  unfold State.drainCheck
  dsimp only
  split
  · exact after ..
  · exact refl s

end State.Tells

/-! ## A module with nothing to send (R353 to R356) -/

/-- A port with no packet, response or begun packet to send. -/
def FPort.idle (t : FPort) : Bool := t.queue.all (fun q => q.2.isEmpty) && t.resps.isEmpty && t.rest.isEmpty

theorem pump_of_idle {s : State} {p : Nat} (h : (s.port p).idle = true) : s.pump p = s := by
  simp only [FPort.idle, Bool.and_eq_true, List.all_eq_true, List.isEmpty_iff] at h
  obtain ⟨⟨hqueue, hresps⟩, hrest⟩ := h
  have hempty (l : List (Nat × List Queued)) (hl : ∀ q ∈ l, q.2 = []) : l.foldl (fun a e => a + e.2.length) 0 = 0 := by
    induction l with
    | nil => rfl
    | cons q l ih =>
      rw [List.foldl_cons, hl q List.mem_cons_self]
      exact ih fun q hq => hl q (List.mem_cons_of_mem _ hq)
  unfold State.pump FPort.waiting
  rw [hrest, hresps, hempty _ hqueue]
  rfl

theorem idle_port {s : State} (h : s.fports.all (fun e => e.2.idle) = true) (p : Nat) : (s.port p).idle = true := by
  unfold State.port Tbl.get
  cases hp : Tbl.find s.fports p with
  | none => rfl
  | some t => exact List.all_eq_true.1 h _ (find_mem hp)

/-- With nothing to send, the ports only tell their peers of the units that have been freed. -/
theorem tells_pumpAll {s : State} (h : ∀ p, (s.port p).idle = true) : s.Tells s.pumpAll := by
  unfold State.pumpAll
  have hpump : s.fports.foldl (fun t e => t.pump e.1) s = s := by
    induction s.fports with
    | nil => rfl
    | cons e l ih => rw [List.foldl_cons, pump_of_idle (h e.1), ih]
  rw [hpump]
  extract_lets s1 s2
  have h2 : s.Tells s2 := by
    refine State.Tells.foldl (f := fun (t : State) (e : Nat × FPort) => if e.2.owes then t.sendIdle e.1 else t) (fun t e => ?_) s.fports s
    split
    · exact .sendIdle ..
    · exact .refl t
  refine h2.trans (State.Tells.foldl (fun t e => ?_) _ s2)
  dsimp only
  split
  · exact .after ..
  · exact .refl t

/-! ## Credits and acknowledgements (R353, R355) -/

section
variable {t : FPort} {v n : Nat}

theorem creditVc_allow : Tbl.get (t.creditVc v n).allow v 0 = Tbl.get t.allow v 0 + (n + 256 - Tbl.get t.credited v 0) % 256 :=
  get_upd t.allow v 0 (· + (n + 256 - Tbl.get t.credited v 0) % 256)

theorem creditVc_ne {w : Nat} (h : w ≠ v) : Tbl.get (t.creditVc v n).allow w 0 = Tbl.get t.allow w 0 ∧
    Tbl.get (t.creditVc v n).credited w 0 = Tbl.get t.credited w 0 := 
  ⟨get_upd_ne t.allow 0 0 (· + (n + 256 - Tbl.get t.credited v 0) % 256) h, get_put_ne t.credited n 0 h⟩

end

/-- The units of each VC return to it, and no more. -/
theorem foldl_creditVc_allow (count : Nat → Nat) (l : List Nat) (hl : l.Nodup) {v : Nat} : ∀ t : FPort, v ∈ l →
    Tbl.get (l.foldl (fun (t : FPort) w => t.creditVc w (count w)) t).allow v 0 =
      Tbl.get t.allow v 0 + (count v + 256 - Tbl.get t.credited v 0) % 256 := by
  have hout (l : List Nat) (hv : v ∉ l) : ∀ t : FPort, Tbl.get (l.foldl (fun (t : FPort) w => t.creditVc w (count w)) t).allow v 0 =
      Tbl.get t.allow v 0 := by
    induction l with
    | nil => exact fun _ => rfl
    | cons w l ih =>
      obtain ⟨hw, hv⟩ := not_or.1 (mt List.mem_cons.2 hv)
      exact fun t => (ih hv _).trans (creditVc_ne hw).1
  induction l with
  | nil => exact fun _ h => absurd h List.not_mem_nil
  | cons w l ih =>
    intro t h
    obtain ⟨hw, hl⟩ := List.nodup_cons.1 hl
    by_cases hv : v = w
    · subst hv
      exact (hout l hw _).trans creditVc_allow
    · rw [List.foldl_cons, ih hl _ ((List.mem_cons.1 h).resolve_left hv), (creditVc_ne hv).1, (creditVc_ne hv).2]

/-- A port after a good flit: what it acknowledges is freed, and its credits return. -/
def FPort.received (t : FPort) (flit : List Byte) : FPort :=
  (List.range 4).foldl (fun (u : FPort) v => u.creditVc v (flitCredit flit v))
    { t.heard (flitAck flit) with lastRx := flitSeq flit, replaying := t.replaying || flitRreq flit }

theorem heard_tx (t : FPort) (ack : Nat) : (t.heard ack).tx = ackTx t.tx ack := by
  unfold FPort.heard
  split
  · next h =>
    unfold ackTx
    rw [List.findIdx?_eq_none_iff.2 fun e he => ?_]
    simpa using List.find?_eq_none.1 h e he
  · rfl

theorem received_frame (t : FPort) (flit : List Byte) : (t.received flit).tx = ackTx t.tx (flitAck flit) ∧
    (t.received flit).lastRx = flitSeq flit ∧ (t.received flit).idle = t.idle := by
  have hcredit := foldl_frame (P := fun t : FPort => (t.tx, t.lastRx, t.idle)) (f := fun (u : FPort) v => u.creditVc v (flitCredit flit v))
    (fun _ _ => rfl) (List.range 4) { t.heard (flitAck flit) with lastRx := flitSeq flit, replaying := t.replaying || flitRreq flit }
  have hidle : (t.heard (flitAck flit)).idle = t.idle := by
    unfold FPort.heard
    split
    · rfl
    · rfl
  obtain ⟨htx, hrest⟩ := Prod.mk.inj hcredit
  obtain ⟨hlast, hidle'⟩ := Prod.mk.inj hrest
  exact ⟨htx.trans (heard_tx ..), hlast, hidle'.trans hidle⟩

theorem received_allow (t : FPort) (flit : List Byte) {v : Nat} (h : v < 4) : Tbl.get (t.received flit).allow v 0 =
    Tbl.get t.allow v 0 + (flitCredit flit v + 256 - Tbl.get t.credited v 0) % 256 := by
  have hheard : (t.heard (flitAck flit)).allow = t.allow ∧ (t.heard (flitAck flit)).credited = t.credited := by
    unfold FPort.heard
    split
    · exact ⟨rfl, rfl⟩
    · exact ⟨rfl, rfl⟩
  refine (foldl_creditVc_allow (flitCredit flit) _ List.nodup_range _ (List.mem_range.2 h)).trans ?_
  dsimp only
  rw [hheard.1, hheard.2]

/-! ## FLIT_RECEIVE -/

section
variable {p : BitVec 7} {f : List Byte} {s : State} (he : s.portExists p.toNat = true)
include he

theorem execFlitReceive_closed (ha : (s.port p.toNat).st ≠ .active) (hd : (s.port p.toNat).st ≠ .draining) :
    execFlitReceive p f s = .next s := by
  unfold execFlitReceive
  dsimp only
  rw [he, if_neg (by decide), if_pos (by simp [ha, hd])]

section
variable (ha : (s.port p.toNat).st = .active)
include ha

theorem execFlitReceive_refused (h : flitDamaged f = true ∨ flitSeq f ≠ ((s.port p.toNat).lastRx + 1) % 4096) :
    execFlitReceive p f s = .next ((s.modPort p.toNat (fun t => { t with rreq := true })).sendIdle p.toNat) := by
  unfold execFlitReceive
  dsimp only
  rw [he, if_neg (by decide), if_neg (by simp [ha]), if_pos (by simpa using h)]

theorem execFlitReceive_idle (hd : flitDamaged f = false) (hseq : flitSeq f = ((s.port p.toNat).lastRx + 1) % 4096)
    (hr : flitRreq f = false) (hk : ∀ k, k < 10 → segKind f k = 0) :
    execFlitReceive p f s = .next (((s.modPort p.toNat (fun t => t.received f)).pumpAll).drainCheck p.toNat) := by
  have hsegs (t : State) : (List.range 10).foldl (fun (a : State) k => a.segmentIn p.toNat (segKind f k) (segBytes f k)) t = t := by
    have h (l : List Nat) (hl : ∀ k ∈ l, k < 10) :
        l.foldl (fun (a : State) k => a.segmentIn p.toNat (segKind f k) (segBytes f k)) t = t := by
      induction l with
      | nil => rfl
      | cons k l ih =>
        rw [List.foldl_cons, hk k (hl k List.mem_cons_self)]
        exact ih fun k hk => hl k (List.mem_cons_of_mem _ hk)
    exact h _ fun k hk => List.mem_range.1 hk
  have hbusy : (List.range 10).any (fun k => segKind f k ≠ 0) = false := by
    rw [List.any_eq_false]
    exact fun k hk' => by simp [hk k (List.mem_range.1 hk')]
  unfold execFlitReceive
  dsimp only
  rw [he, if_neg (by decide), if_neg (by simp [ha]), if_neg (by simp [hd, hseq]), hsegs, hbusy, if_neg (show ¬flitRreq f = true by simp [hr])]
  rfl

end
end

/-! ## FLIT_REPLAY and REPLAY_TIMEOUT (R354) -/

section
variable {p : BitVec 7} {s : State}

theorem port_foldl_send {β : Type} (m : β → Sent) (l : List β) (t : State) (q : Nat) :
    (l.foldl (fun (a : State) e => a.send (m e)) t).port q = t.port q :=
  foldl_frame (P := fun t : State => t.port q) (f := fun a e => a.send (m e)) (fun _ _ => rfl) l t

theorem outbox_foldl_send {β : Type} (m : β → Sent) (l : List β) : ∀ t : State,
    (l.foldl (fun (a : State) e => a.send (m e)) t).outbox = t.outbox ++ l.map m := by
  induction l with
  | nil => exact fun t => (List.append_nil _).symm
  | cons b l ih =>
    intro t
    rw [List.foldl_cons, ih]
    exact List.append_assoc ..

theorem replay_tx (q : Nat) : ((s.replay q).port q).tx.map (fun e => e.1) = (s.port q).tx.map (fun e => e.1) := by
  unfold State.replay
  dsimp only
  rw [port_foldl_send, port_modPort, List.map_map]
  rfl

theorem replay_outbox (q : Nat) : (s.replay q).outbox.length = s.outbox.length + (s.port q).tx.length := by
  unfold State.replay
  dsimp only
  rw [outbox_foldl_send, List.length_append, List.length_map]
  rfl

section
variable (he : s.portExists p.toNat = true)
include he

theorem execFlitReplay_empty (h : (s.port p.toNat).tx = []) :
    execFlitReplay p s = .next ((s.replay p.toNat).sendIdle p.toNat).pumpAll := by
  unfold execFlitReplay
  dsimp only
  rw [he, if_neg (by decide), if_pos (by rw [h]; rfl)]

theorem execFlitReplay_held (h : (s.port p.toNat).tx ≠ []) : execFlitReplay p s = .next (s.replay p.toNat).pumpAll := by
  unfold execFlitReplay
  dsimp only
  rw [he, if_neg (by decide), if_neg (by simpa using h)]

theorem execReplayTimeout_none (h : (s.port p.toNat).tx = []) : execReplayTimeout p s = .next s.pumpAll := by
  unfold execReplayTimeout
  dsimp only
  rw [he, if_neg (by decide), h]

theorem execReplayTimeout_held {e : Nat × Nat × List Byte} {l : List (Nat × Nat × List Byte)} (h : (s.port p.toNat).tx = e :: l) :
    execReplayTimeout p s = if s.now < e.2.1 + 5400 then .next (s.after (e.2.1 + 5400 - s.now) (.replayTimeout p)).pumpAll
      else .next ((s.replay p.toNat).after 5400 (.replayTimeout p)) := by
  unfold execReplayTimeout
  dsimp only
  rw [he, if_neg (by decide), h]

/-! ## Optical ports (R366, R367) -/

section
variable {g : BitVec 2}

theorem execLossOfLight_local (hg : isGlobal p.toNat = false) : execLossOfLight p g s = .next s := by
  unfold execLossOfLight
  dsimp only
  rw [he, if_neg (by decide), if_pos (by simp [hg])]

section
variable (hg : isGlobal p.toNat = true) (ha : (s.port p.toNat).st = .active)
include hg ha

theorem execLossOfLight_last (hm : (s.port p.toNat).mask &&& ~~~(groupMask g.toNat) = 0) :
    execLossOfLight p g s = .next ((s.portDown p.toNat 1).pumpAll) := by
  unfold execLossOfLight
  dsimp only
  rw [he, if_neg (by decide), if_neg (by simp [hg, ha]), if_pos (by simp [ha, hm])]

theorem execLossOfLight_narrows (hm : (s.port p.toNat).mask &&& ~~~(groupMask g.toNat) ≠ 0)
    (hr : (s.port p.toNat).retraining ≠ some g) :
    execLossOfLight p g s = .next (((s.modPort p.toNat (fun t => { t with
      mask := (s.port p.toNat).mask &&& ~~~(groupMask g.toNat) })).portEvent 1 p.toNat (s.port p.toNat).width).replay p.toNat) := by
  unfold execLossOfLight
  dsimp only
  rw [he, if_neg (by decide), if_neg (by simp [hg, ha]), if_neg (by simpa [ha] using hm), if_neg hr, if_pos ha]
  rfl

end

theorem execRetrainDone_returns (hr : (s.port p.toNat).retraining = some g) :
    execRetrainDone p g s = .next ((s.modPort p.toNat (fun t => { t with
      mask := t.mask ||| groupMask g.toNat, retraining := none })).portEvent 3 p.toNat (s.port p.toNat).width) := by
  unfold execRetrainDone
  dsimp only
  rw [he, if_neg (by decide), if_neg (not_not.2 hr)]

theorem execRetrainDone_other (hr : (s.port p.toNat).retraining ≠ some g) : execRetrainDone p g s = .next s := by
  unfold execRetrainDone
  dsimp only
  rw [he, if_neg (by decide), if_pos hr]

end

section
variable {w : BitVec 4}

theorem execRetrainStart_none (h : (s.port p.toNat).retraining ≠ none ∨
    (s.port p.toNat).mask &&& ~~~(groupMask (w.toNat / 4)) = 0) : execRetrainStart p w s = .next s := by
  unfold execRetrainStart
  dsimp only
  rw [he, if_neg (by decide), if_pos]
  obtain h | h := h
  · simp [Option.isSome_iff_ne_none.2 h]
  · simp [h]

theorem execRetrainStart_leaves (hg : isGlobal p.toNat = true) (ha : (s.port p.toNat).st = .active)
    (hr : (s.port p.toNat).retraining = none) (hm : (s.port p.toNat).mask &&& ~~~(groupMask (w.toNat / 4)) ≠ (s.port p.toNat).mask)
    (hm' : (s.port p.toNat).mask &&& ~~~(groupMask (w.toNat / 4)) ≠ 0) :
    execRetrainStart p w s = .next ((s.modPort p.toNat (fun t => { t with
      mask := (s.port p.toNat).mask &&& ~~~(groupMask (w.toNat / 4)), retraining := some (BitVec.ofNat 2 (w.toNat / 4)) })).portEvent
        2 p.toNat (s.port p.toNat).width) := by
  unfold execRetrainStart
  dsimp only
  rw [he, if_neg (by decide), if_neg (by simpa [hg, ha, hr, hm] using hm')]

end

/-! ## Training and draining (R358, R367) -/

theorem execTrainingDone_other (ht : (s.port p.toNat).st ≠ .training) (hr : (s.port p.toNat).st ≠ .relock) (ok : Bool) :
    execTrainingDone p ok s = .next s := by
  unfold execTrainingDone
  dsimp only
  rw [he, if_neg (by decide), if_pos (by simp [ht, hr])]

section
variable (ht : (s.port p.toNat).st = .training ∨ (s.port p.toNat).st = .relock)
include ht

theorem execTrainingDone_fails : execTrainingDone p false s = .next ((s.portDown p.toNat 4).pumpAll) := by
  unfold execTrainingDone
  dsimp only
  rw [he, if_neg (by decide), if_neg (by simpa [or_iff_not_imp_left] using ht), if_pos (by rfl)]

theorem execTrainingDone_active (hm : isGlobal p.toNat = false ∨ (s.port p.toNat).mask ≠ 0) :
    execTrainingDone p true s = .next (((s.joinDomain.setPortState p.toNat .active FPort.trained).flnkAnswer p.toNat 0).pumpAll) := by
  unfold execTrainingDone
  dsimp only
  rw [he, if_neg (by decide), if_neg (by simpa [or_iff_not_imp_left] using ht), if_neg]
  obtain hm | hm := hm
  · simp [hm]
  · simpa using fun _ => hm

end

theorem execDrainDone_dark (hd : (s.port p.toNat).st = .draining) (hp : (s.port p.toNat).ploughed = [])
    (ht : (s.port p.toNat).tx = []) : execDrainDone p s = .next ((s.setPortState p.toNat .dark id).flnkAnswer p.toNat 0) := by
  unfold execDrainDone
  dsimp only
  rw [he, if_neg (by decide), if_pos (by simp [hd, hp, ht])]

theorem execDrainDone_early (h : (s.port p.toNat).st ≠ .draining ∨ (s.port p.toNat).ploughed ≠ [] ∨ (s.port p.toNat).tx ≠ []) :
    execDrainDone p s = .next s := by
  unfold execDrainDone
  dsimp only
  rw [he, if_neg (by decide), if_neg]
  simp only [Bool.and_eq_true, decide_eq_true_eq, List.isEmpty_iff]
  tauto

theorem execCircuitReported_dark (hd : (s.port p.toNat).st = .dark) :
    execCircuitReported p s = .next (s.modPort p.toNat (fun t => { t with newCircuit := true })) := by
  unfold execCircuitReported
  dsimp only
  rw [he, if_neg (by decide)]
  refine congrArg Host.Outcome.next (congrArg (fun m => { s with fports := m }) (congrArg (Tbl.put s.fports p.toNat) ?_))
  exact if_pos hd

end

theorem joinDomain_first (h : s.joined = false) : s.joinDomain =
    { s with domainTime := Config.domainOffset s.nextFree, nextFree := s.nextFree + 1, joined := true } :=
  if_neg (by simp [h])

end

/-- Settles O52, each event by its lemma. -/
theorem linkEvents : Obligations.LinkEvents := by
  unfold Obligations.LinkEvents
  refine ⟨fun p s he i hi => ?missing, fun p s f he => ?receive, fun p s he => ?replay, fun p g s he => ?light,
    fun p w s he hg => ?retrain, fun p s he => ?training, fun t => ⟨rfl, rfl, rfl, rfl, rfl, rfl, rfl⟩⟩
  case missing =>
    have hn : (!(s.portExists p.toNat)) = true := by rw [he]; rfl
    obtain ⟨f, rfl⟩ | rfl | rfl | ⟨g, rfl⟩ | ⟨w, rfl⟩ | ⟨g, rfl⟩ | ⟨b, rfl⟩ | rfl | rfl := hi
    all_goals exact if_pos hn
  case receive =>
    intro t
    refine ⟨fun ha hd => execFlitReceive_closed he ha hd, fun ha h => execFlitReceive_refused he ha h,
      fun ha hd hseq hr hk hidle => ?_⟩
    obtain ⟨htx, hlast, hq⟩ := received_frame t f
    have hall (q : Nat) : ((s.modPort p.toNat (fun t => t.received f)).port q).idle = true := by
      by_cases hp : q = p.toNat
      · rw [hp, port_modPort]
        exact hq.trans (idle_port hidle _)
      · rw [port_modPort_ne _ _ hp]
        exact idle_port hidle q
    have htells := (tells_pumpAll hall).trans (State.Tells.drainCheck _ p.toNat)
    obtain ⟨sent, hsent⟩ := htells.tx p.toNat
    obtain ⟨hlast', hallow⟩ := htells.heard p.toNat
    rw [port_modPort] at hsent hlast' hallow
    exact ⟨_, execFlitReceive_idle he ha hd hseq hr hk, hlast'.trans hlast, ⟨sent, hsent.trans (congrArg (· ++ sent) htx)⟩,
      htells.mem, htells.cores, fun vc hvc => (congrArg (Tbl.get · vc 0) hallow).trans (received_allow t f hvc)⟩
  case replay =>
    exact ⟨⟨execFlitReplay_empty he, execFlitReplay_held he, replay_tx _, replay_outbox _⟩,
      fun e l h hle => (execReplayTimeout_held he h).trans (if_neg hle.not_gt),
      fun e l h hlt => (execReplayTimeout_held he h).trans (if_pos hlt), execReplayTimeout_none he⟩
  case light =>
    exact ⟨execLossOfLight_local he, execLossOfLight_last he, execLossOfLight_narrows he, execRetrainDone_returns he,
      execRetrainDone_other he⟩
  case retrain =>
    exact ⟨fun h => execRetrainStart_none he (.inl h), fun h => execRetrainStart_none he (.inr h), execRetrainStart_leaves he hg⟩
  case training =>
    refine ⟨execTrainingDone_fails he, execTrainingDone_active he, fun hj => ?_, fun hj => if_pos hj,
      execTrainingDone_other he, execDrainDone_dark he, execDrainDone_early he, execCircuitReported_dark he⟩
    rw [joinDomain_first hj]
    exact ⟨rfl, rfl, rfl, rfl⟩

end Sys2Proof.Machine
end

section
namespace Sys2Proof.Machine

/-! ## An operation's arrival at its target (R357, R358, R360) -/

section
variable {s t : State} {p : Packet} {perform : State → State × Response × Bool}

theorem arrive_late (h : s.aged p.stamp 64 = true) : s.arrive p perform = s := if_pos h

section
variable (h : s.aged p.stamp 64 = false)
include h

theorem arrive_stale (hg : s.gen p.vf ≠ p.gen) : s.arrive p perform = (s.staleDrop p.vf 1).sendResp (answerTo p .ack 1 0) := by
  unfold State.arrive
  rw [if_neg (by simp [h]), if_pos hg]

section
variable (hg : s.gen p.vf = p.gen)
include hg

theorem arrive_again {r : Reply} (hr : s.reply (replyKeyOf p) = some r) : s.arrive p perform = s.sendResp r.resp := by
  unfold State.arrive
  rw [if_neg (by simp [h]), if_neg (not_not.2 hg), hr]

variable (hr : s.reply (replyKeyOf p) = none) (hf : s.replyFull = false) {r : Response}
include hr hf

theorem arrive_performs (hp : perform s = (t, r, true)) :
    s.arrive p perform = (t.keepReply (replyKeyOf p) r p.stamp).sendResp r := by
  unfold State.arrive
  rw [if_neg (by simp [h]), if_neg (not_not.2 hg), hr]
  dsimp only
  rw [hf, if_neg (by decide), hp]
  rfl

theorem arrive_declines (hp : perform s = (t, r, false)) : s.arrive p perform = t.sendResp r := by
  unfold State.arrive
  rw [if_neg (by simp [h]), if_neg (not_not.2 hg), hr]
  dsimp only
  rw [hf, if_neg (by decide), hp]
  rfl

end
end

/-! ## PUT (R372, R386) -/

theorem execPutArrive_answered (hd : p.data = []) :
    execPutArrive p s = .next (s.sendResp (answerTo p .ack (s.putStatus p) 0)) := by
  unfold execPutArrive
  dsimp only
  rw [if_pos (by simp [hd])]

theorem putStatus_current (hg : s.gen p.vf = p.gen) : s.putStatus p = if p.poisoned then 3 else 0 := if_neg (not_not.2 hg)

/-- A PUT to register space at its core (R24, R27, R71, R284, R372; log entry 49). -/
def State.putToCore (s : State) (p : Packet) (keys : List Nat) : Host.Outcome State Fault Refusal :=
  let c := p.dstCore.toNat
  let off := p.addr.toNat % 2 ^ 18
  let n := p.data.length
  if (s.core c).inText off n then .next (s.sendResp (answerTo p .ack 4 0))
  else if (s.core c).frozen.isSome then .next (s.holdPut p keys)
  else if p.opnd0 = 0 then
    if !(s.full c off n) then .next (s.after 1 (.putArrive p))
    else .next ((s.markEmpty ⟨false, p.vf, p.gen⟩ c off n).after 1
      (.putArrive { p with opnd0 := BitVec.ofNat 64 ((s.core c).time * 8 + 8) }))
  else match s.grant c (p.opnd0.toNat - 1) (banksOf off n) with
    | (true, t) => .next ((t.writePut p keys).sendResp (answerTo p .ack (s.putStatus p) 0))
    | (false, t) => .next (t.after 1 (.putArrive p))

section
variable (hd : p.data ≠ [])
include hd

theorem execPutArrive_late (h : s.aged p.stamp 64 = true) (ho : p.opnd0 = 0) : execPutArrive p s = .next s := by
  unfold execPutArrive
  dsimp only
  rw [if_neg (by simpa using hd), if_pos (by simp [h, ho])]

section
variable (h : s.aged p.stamp 64 = false ∨ p.opnd0 ≠ 0)
include h

/-- A PUT with lines that comes in time: what R308, R386 and R372 make of it in turn. -/
theorem execPutArrive_timely : execPutArrive p s =
    if s.gen p.vf ≠ p.gen then .next ((s.staleDrop p.vf 1).sendResp (answerTo p .ack 1 0))
    else if p.opnd1 ≠ 0 then (match s.rowIn p with
      | none => .next (s.sendResp (answerTo p .ack 4 0))
      | some t => .next (t.sendResp (answerTo p .ack (s.putStatus p) 0)))
    else match s.putKeys p with
      | none => .next (s.sendResp (answerTo p .ack 4 0))
      | some keys =>
        if p.addr.getLsbD 63 then s.putToCore p keys
        else .next ((s.writePut p keys).sendResp (answerTo p .ack (s.putStatus p) 0)) := by
  have htimely : ¬(s.aged p.stamp 64 && decide (p.opnd0 = 0)) = true := by
    rw [Bool.and_eq_true, decide_eq_true_eq, not_and_or, Bool.not_eq_true]
    exact h
  unfold execPutArrive
  dsimp only
  rw [if_neg (by simpa using hd), if_neg htimely]
  cases s.putKeys p with
  | none => rfl
  | some keys => cases p.addr.getLsbD 63 <;> rfl

theorem execPutArrive_stale (hg : s.gen p.vf ≠ p.gen) :
    execPutArrive p s = .next ((s.staleDrop p.vf 1).sendResp (answerTo p .ack 1 0)) :=
  (execPutArrive_timely hd h).trans (if_pos hg)

section
variable (hg : s.gen p.vf = p.gen)
include hg

theorem execPutArrive_noRow (h1 : p.opnd1 ≠ 0) (hr : s.rowIn p = none) :
    execPutArrive p s = .next (s.sendResp (answerTo p .ack 4 0)) := by
  rw [execPutArrive_timely hd h, if_neg (not_not.2 hg), if_pos h1, hr]

theorem execPutArrive_row (h1 : p.opnd1 ≠ 0) (hr : s.rowIn p = some t) :
    execPutArrive p s = .next (t.sendResp (answerTo p .ack (s.putStatus p) 0)) := by
  rw [execPutArrive_timely hd h, if_neg (not_not.2 hg), if_pos h1, hr]

section
variable (h1 : p.opnd1 = 0)
include h1

theorem execPutArrive_outside (hk : s.putKeys p = none) : execPutArrive p s = .next (s.sendResp (answerTo p .ack 4 0)) := by
  rw [execPutArrive_timely hd h, if_neg (not_not.2 hg), if_neg (not_not.2 h1), hk]

variable {keys : List Nat} (hk : s.putKeys p = some keys)
include hk

theorem execPutArrive_vault (h63 : p.addr.getLsbD 63 = false) : execPutArrive p s =
    .next ((s.writePut p keys).sendResp (answerTo p .ack (if p.poisoned then 3 else 0) 0)) := by
  rw [execPutArrive_timely hd h, if_neg (not_not.2 hg), if_neg (not_not.2 h1), hk, ← putStatus_current hg]
  dsimp only
  rw [h63, if_neg (by decide)]

theorem execPutArrive_core (h63 : p.addr.getLsbD 63 = true) : execPutArrive p s = s.putToCore p keys := by
  rw [execPutArrive_timely hd h, if_neg (not_not.2 hg), if_neg (not_not.2 h1), hk]
  dsimp only
  rw [h63, if_pos rfl]

end
end
end
end

section
variable {keys : List Nat}

theorem putToCore_text (ht : (s.core p.dstCore.toNat).inText (p.addr.toNat % 2 ^ 18) p.data.length = true) :
    s.putToCore p keys = .next (s.sendResp (answerTo p .ack 4 0)) := if_pos ht

section
variable (ht : (s.core p.dstCore.toNat).inText (p.addr.toNat % 2 ^ 18) p.data.length = false)
include ht

theorem putToCore_frozen (hf : (s.core p.dstCore.toNat).frozen ≠ none) : s.putToCore p keys = .next (s.holdPut p keys) :=
  (if_neg (Bool.eq_false_iff.1 ht)).trans (if_pos (Option.isSome_iff_ne_none.2 hf))

section
variable (hf : (s.core p.dstCore.toNat).frozen = none)
include hf

theorem putToCore_waits (ho : p.opnd0 = 0) (hfull : s.full p.dstCore.toNat (p.addr.toNat % 2 ^ 18) p.data.length = false) :
    s.putToCore p keys = .next (s.after 1 (.putArrive p)) := by
  unfold State.putToCore
  dsimp only
  rw [if_neg (Bool.eq_false_iff.1 ht), if_neg (by simp [hf]), if_pos ho, hfull, if_pos (by decide)]

theorem putToCore_accepts (ho : p.opnd0 = 0) (hfull : s.full p.dstCore.toNat (p.addr.toNat % 2 ^ 18) p.data.length = true) :
    s.putToCore p keys = .next ((s.markEmpty ⟨false, p.vf, p.gen⟩ p.dstCore.toNat (p.addr.toNat % 2 ^ 18) p.data.length).after 1
      (.putArrive { p with opnd0 := BitVec.ofNat 64 ((s.core p.dstCore.toNat).time * 8 + 8) })) := by
  unfold State.putToCore
  dsimp only
  rw [if_neg (Bool.eq_false_iff.1 ht), if_neg (by simp [hf]), if_pos ho, hfull, if_neg (by decide)]

variable (ho : p.opnd0 ≠ 0)
include ho

theorem putToCore_writes (hg : s.gen p.vf = p.gen) (hb : (s.core p.dstCore.toNat).banksLost (p.opnd0.toNat - 1)
    (banksOf (p.addr.toNat % 2 ^ 18) p.data.length) = 0) : s.putToCore p keys = .next (State.sendResp (State.writePut
      (s.modCore p.dstCore.toNat (fun k => k.winBanks (p.opnd0.toNat - 1) (banksOf (p.addr.toNat % 2 ^ 18) p.data.length))) p keys)
        (answerTo p .ack (if p.poisoned then 3 else 0) 0)) := by
  unfold State.putToCore State.grant Core.requestBanks
  dsimp only
  rw [if_neg (Bool.eq_false_iff.1 ht), if_neg (by simp [hf]), if_neg ho, if_pos hb, ← putStatus_current hg]
  rfl

theorem putToCore_loses (hb : (s.core p.dstCore.toNat).banksLost (p.opnd0.toNat - 1)
    (banksOf (p.addr.toNat % 2 ^ 18) p.data.length) ≠ 0) : s.putToCore p keys = .next (State.after
      (s.modCore p.dstCore.toNat (fun k => k.missBanks (p.opnd0.toNat - 1) (banksOf (p.addr.toNat % 2 ^ 18) p.data.length))) 1
        (.putArrive p)) := by
  unfold State.putToCore State.grant Core.requestBanks
  dsimp only
  rw [if_neg (Bool.eq_false_iff.1 ht), if_neg (by simp [hf]), if_neg ho, if_neg hb]

end
end
end

/-! ### The row of a record (R344, R386) -/

section
variable {α : Type} {P : State → α} (hP : ∀ (s : State) cores mem tags poison bad, P { s with
  cores := cores, mem := mem, tags := tags, poison := poison, badLines := bad } = P s)
include hP

theorem writeUser_frame (s : State) (tag : Tag) (k : Nat) (bs : List Byte) : P (s.writeUser tag k bs) = P s := by
  unfold State.writeUser
  split
  · exact write_frame hP ..
  · exact write_frame hP ..

theorem writeRuns_frame (s : State) (tag : Tag) (rs : List Rng) (bytes : List Byte) (bad : Bool) :
    P (s.writeRuns tag rs bytes bad) = P s := by
  refine foldl_frame (P := fun a : State × List Byte => P a.1) (fun a r => ?_) rs (s, bytes)
  dsimp only
  split
  · exact (foldl_frame (P := P) (fun u x => mark_frame hP ..) _ _).trans (writeUser_frame hP ..)
  · exact writeUser_frame hP ..

end

theorem noteRow_frame {α : Type} {P : State → α} (hP : ∀ (s : State) colls, P { s with colls := colls } = P s) (s : State)
    (vf : BitVec 6) (gen : BitVec 8) (core : Nat) (group : BitVec 4) (seq addr : Nat) (bad : Bool) :
    P (s.noteRow vf gen core group seq addr bad) = P s := by
  unfold State.noteRow
  split
  · rfl
  · exact hP ..

theorem rowIn_eq_none : s.rowIn p = none ↔ s.vaultRuns p.vf p.addr.toNat (p.data.take p.opnd1.toNat).length = none :=
  Option.map_eq_none_iff

theorem rowIn_of_runs {rs : List Rng} (h : s.vaultRuns p.vf p.addr.toNat (p.data.take p.opnd1.toNat).length = some rs) :
    ∃ t, s.rowIn p = some t ∧ t.mem = (s.writeRuns ⟨false, p.vf, p.gen⟩ rs (p.data.take p.opnd1.toNat) p.poisoned).mem := by
  unfold State.rowIn State.putRow
  rw [h]
  exact ⟨_, rfl, noteRow_frame (P := State.mem) (fun _ _ => rfl) ..⟩

theorem putStatus_rowIn (h : s.rowIn p = some t) : t.putStatus p = s.putStatus p := by
  obtain ⟨rs, -, rfl⟩ := Option.map_eq_some_iff.1 h
  have hvfs : State.vfs _ = s.vfs := (noteRow_frame (P := State.vfs) (fun _ _ => rfl)
    (s.writeRuns ⟨false, p.vf, p.gen⟩ rs (p.data.take p.opnd1.toNat) p.poisoned) p.vf p.gen p.dstCore.toNat (p.opword.setWidth 4)
      (p.opword.toNat / 2 ^ 16) p.addr.toNat p.poisoned).trans (writeRuns_frame (P := State.vfs) (fun _ _ _ _ _ _ => rfl) ..)
  unfold State.putStatus State.gen State.vf
  rw [hvfs]


/-! ## ATOM (R249, R374) -/

theorem bitOf_toNat {n : Nat} (x : BitVec n) (i : Nat) : bitOf x.toNat i = x.getLsbD i := by
  unfold bitOf BitVec.getLsbD
  rw [Nat.testBit_eq_decide_div_mod_eq]

/-- No atomic of this module stands before the packet's at its line in this cycle. -/
def State.noAtomicBefore (s : State) (p : Packet) : Prop :=
  ∀ e ∈ s.agenda, e.1 ≤ s.now → ∀ o r d m key, e.2 = .atomicAtWriteQueue o r d m →
    s.vaultKey p.vf p.addr.toNat = some key → r.key / 64 ≠ key / 64

/-- The atomic of a packet at its target. -/
def atomRequest (p : Packet) (key : Nat) : AtomicReq :=
  ⟨p.vf, p.gen, key, AtomOp.ofCode (BitVec.ofNat 3 (bitsOf p.opword.toNat 4 2)), bitOf p.opword.toNat 1, bitOf p.opword.toNat 0,
    p.opnd0, p.opnd1⟩

/-- Where an ATOM aims, when its operator is one of R249's and its address is aligned in its VF's partition. -/
def State.atomTarget (s : State) (p : Packet) : Option Nat :=
  if p.addr.toNat % (if bitOf p.opword.toNat 1 then 8 else 4) = 0 && bitsOf p.opword.toNat 31 5 = 0 && bitsOf p.opword.toNat 4 2 < 7
    then s.vaultKey p.vf p.addr.toNat else none

/-- What an ATOM does at its target. -/
def atomPerform (p : Packet) (key : Nat) (t : State) : State × Response × Bool :=
  ((t.atomicAt (atomRequest p key)).1, answerTo p .result (if t.anyBad ⟨false, p.vf, p.gen⟩ key (if bitOf p.opword.toNat 1 then 8 else 4)
    then 3 else 0) (BitVec.ofNat 64 (t.atomicAt (atomRequest p key)).2), true)

theorem execAtomArrive_aimless (h : s.atomTarget p = none) :
    execAtomArrive p s = .next (s.arrive p (fun t => (t, answerTo p .ack 4 0, false))) := by
  unfold State.atomTarget at h
  unfold execAtomArrive
  dsimp only
  rw [h]

theorem execAtomArrive_aims {key : Nat} (h : s.atomTarget p = some key) : execAtomArrive p s =
    if s.lowerFirst (fun i => match i with
        | .atomicAtWriteQueue _ r _ _ => r.key / 64 = key / 64
        | _ => false) then .next (s.after 0 (.atomArrive p))
    else .next (s.arrive p (atomPerform p key)) := by
  unfold State.atomTarget at h
  unfold execAtomArrive
  dsimp only
  rw [h]
  rfl

theorem vaultKey_atomTarget {key : Nat} (h : s.atomTarget p = some key) : s.vaultKey p.vf p.addr.toNat = some key := by
  unfold State.atomTarget at h
  exact (Option.ite_none_right_eq_some.1 h).2

theorem execAtomArrive_first {key : Nat} (h : s.atomTarget p = some key) (hfirst : s.noAtomicBefore p) :
    execAtomArrive p s = .next (s.arrive p (atomPerform p key)) := by
  refine (execAtomArrive_aims h).trans (if_neg fun hlower => ?_)
  obtain ⟨⟨due, i⟩, he, hi⟩ := List.any_eq_true.1 hlower
  obtain ⟨hdue, hi⟩ := (Bool.and_eq_true ..).mp hi
  dsimp only at hi
  split at hi
  · exact hfirst _ he (of_decide_eq_true hdue) _ _ _ _ _ rfl (vaultKey_atomTarget h) (of_decide_eq_true hi)
  · exact Bool.false_ne_true hi

/-- With none before it an ATOM arrives like any operation. -/
theorem execAtomArrive_arrives (hfirst : s.noAtomicBefore p) : ∃ perform, execAtomArrive p s = .next (s.arrive p perform) := by
  cases h : s.atomTarget p with
  | none => exact ⟨_, execAtomArrive_aimless h⟩
  | some key => exact ⟨_, execAtomArrive_first h hfirst⟩

section
variable {key n : Nat} (hn : n = if p.opword.getLsbD 1 then 8 else 4) (ha : p.addr.toNat % n = 0) (ho : p.opword.toNat < 28)
  (hk : s.vaultKey p.vf p.addr.toNat = some key)
include hn ha ho hk

theorem atomTarget_of : s.atomTarget p = some key := by
  subst hn
  refine (if_pos ?_).trans hk
  rw [bitOf_toNat, ha]
  have hlow : bitsOf p.opword.toNat 31 5 = 0 := by
    unfold bitsOf
    rw [Nat.div_eq_of_lt (by omega)]
    rfl
  have hop : bitsOf p.opword.toNat 4 2 < 7 := by
    change p.opword.toNat / 4 % 8 < 7
    omega
  rw [hlow, decide_eq_true hop]
  rfl

theorem execAtomArrive_yields {o : Origin} {r : AtomicReq} {d : Name} {m due : Nat}
    (hmem : (due, Instr.atomicAtWriteQueue o r d m) ∈ s.agenda) (hdue : due ≤ s.now) (hline : r.key / 64 = key / 64) :
    execAtomArrive p s = .next (s.after 0 (.atomArrive p)) :=
  (execAtomArrive_aims (atomTarget_of hn ha ho hk)).trans
    (if_pos (List.any_eq_true.2 ⟨_, hmem, by simp [hdue, hline]⟩))

theorem execAtomArrive_acts (h : s.aged p.stamp 64 = false) (hg : s.gen p.vf = p.gen) (hfirst : s.noAtomicBefore p)
    (hr : s.reply (replyKeyOf p) = none) (hf : s.replyFull = false) (hb : s.anyBad ⟨false, p.vf, p.gen⟩ key n = false) :
    execAtomArrive p s = .next (State.sendResp (State.keepReply ((s.writeUser ⟨false, p.vf, p.gen⟩ key (leBytes n
      (atomRule (AtomOp.ofCode (BitVec.ofNat 3 (p.opword.toNat / 4))) n (p.opword.getLsbD 0) (leNat (s.read ⟨false, p.vf, p.gen⟩ key n))
        (p.opnd0.toNat % 2 ^ (8 * n)) (p.opnd1.toNat % 2 ^ (8 * n))))).noteAction key n) (replyKeyOf p)
      (answerTo p .result 0 (BitVec.ofNat 64 (leNat (s.read ⟨false, p.vf, p.gen⟩ key n)))) p.stamp)
      (answerTo p .result 0 (BitVec.ofNat 64 (leNat (s.read ⟨false, p.vf, p.gen⟩ key n))))) := by
  have hop : BitVec.ofNat 3 (bitsOf p.opword.toNat 4 2) = BitVec.ofNat 3 (p.opword.toNat / 4) :=
    BitVec.eq_of_toNat_eq (by simp only [bitsOf, BitVec.toNat_ofNat]; omega)
  have hn' : n = if bitOf p.opword.toNat 1 then 8 else 4 := by rw [bitOf_toNat]; exact hn
  have hact := atomicAt_current (req := atomRequest p key) hg hn' rfl rfl hb
  refine (execAtomArrive_first (atomTarget_of hn ha ho hk) hfirst).trans
    (congrArg Host.Outcome.next (arrive_performs h hg hr hf ?_))
  unfold atomPerform
  rw [hact, ← hn', hb]
  simp only [atomRequest, hop, bitOf_toNat]
  rfl

end

/-! ## PULL (R30, R375) -/

/-- The record of a PULL in q15 (R375). -/
def pullEntries (p : Packet) : List QEntry :=
  [BitVec.ofNat 64 (p.srcMod.toNat * 2 ^ 16 + p.srcCore.toNat), p.addr, p.opnd0, p.opnd1].map (fun v => ⟨⟨false, p.vf, p.gen⟩, v, none⟩)

section
variable (h : s.aged p.stamp 64 = false) (hg : s.gen p.vf = p.gen) (hr : s.reply (replyKeyOf p) = none) (hf : s.replyFull = false)
  (hown : s.ownsCore p.vf p.dstCore.toNat = true)
include h hg hr hf hown

theorem execPullArrive_busy (hb : (s.core p.dstCore.toNat).frozen ≠ none ∨ 12 < (s.queue p.dstCore.toNat 15).length) :
    execPullArrive p s = .next (s.sendResp (answerTo p .busy 0 0)) := by
  refine congrArg Host.Outcome.next (arrive_declines h hg hr hf ?_)
  dsimp only
  rw [hown, if_neg (by decide), if_pos (by simpa [Option.isSome_iff_ne_none] using hb)]

theorem execPullArrive_enters (hfz : (s.core p.dstCore.toNat).frozen = none) (hroom : (s.queue p.dstCore.toNat 15).length ≤ 12) :
    ∃ t : State, execPullArrive p s = .next ((t.keepReply (replyKeyOf p) (answerTo p .ack 0 0) p.stamp).sendResp (answerTo p .ack 0 0)) ∧
      t.mem = s.mem ∧ t.queue p.dstCore.toNat 15 = s.queue p.dstCore.toNat 15 ++ pullEntries p := by
  refine ⟨s.modCore p.dstCore.toNat (fun k => Core.retry { k with queues := Tbl.upd k.queues 15 [] (· ++ pullEntries p) }),
    congrArg Host.Outcome.next (arrive_performs h hg hr hf ?_), rfl, ?_⟩
  · dsimp only
    rw [hown, if_neg (by decide), if_neg (by simp [hfz]; omega)]
    rfl
  · unfold State.queue
    rw [core_modCore, queues_retry]
    exact get_upd (s.core p.dstCore.toNat).queues 15 [] (· ++ pullEntries p)

end

/-! ## PLOUGH and ECHO (R365) -/

theorem find_ploughedIn {port : BitVec 7} {vc : BitVec 2} {ver : Bool} {rnd : BitVec 4} {n : Nat}
    (h : s.ploughedIn = [(port.toNat, vc, ver, rnd, n)]) : s.ploughedIn.find? (fun e => e.1 = port.toNat && e.2.1 = vc &&
      e.2.2.1 = ver && e.2.2.2.1 = rnd) = some (port.toNat, vc, ver, rnd, n) := by
  rw [h]
  exact List.find?_cons_of_pos (by simp)

section
variable {port : BitVec 7} (he : s.portExists port.toNat = true)
include he

theorem execPloughArrive_notes : execPloughArrive port p s = .next (State.after { s with ploughedIn := s.ploughedIn ++
    [(port.toNat, p.vc, p.rv, p.opword.setWidth 4, s.arrivals)] } 0 (.echoSend port p.vc p.rv (p.opword.setWidth 4))) := by
  unfold execPloughArrive
  rw [he, if_neg (by decide)]

theorem execEchoArrive_other (h0 : p.opword.toNat % 16 ≠ 0) (h : p.rv ≠ s.ploughVersion ∨ p.opword.toNat % 16 ≠ s.ploughRound) :
    execEchoArrive port p s = .next s := by
  unfold execEchoArrive
  dsimp only
  rw [he, if_neg (by decide), if_neg h0, if_neg]
  rw [Bool.and_eq_true, decide_eq_true_eq, decide_eq_true_eq, not_and_or]
  exact h

theorem execEchoArrive_round (hr : p.opword.toNat % 16 = s.ploughRound) (h0 : s.ploughRound ≠ 0) (hv : p.rv = s.ploughVersion) :
    execEchoArrive port p s = .next (State.roundCheck { s with
      ploughOut := dropOne (port.toNat, p.opword.toNat / 16 % 4) s.ploughOut }) := by
  unfold execEchoArrive
  dsimp only
  rw [he, if_neg (by decide), if_neg (hr ▸ h0), if_pos (by simp [hr, hv])]

section
variable {vc : BitVec 2} {ver : Bool} {rnd : BitVec 4} {n : Nat}

theorem execEchoSend_none (h : s.ploughedIn = []) : execEchoSend port vc ver rnd s = .next s := by
  unfold execEchoSend
  dsimp only
  rw [he, if_neg (by decide), h]
  rfl

section
variable (h : s.ploughedIn = [(port.toNat, vc, ver, rnd, n)])
include h

theorem execEchoSend_waits (hl : s.leftModule n = false) :
    execEchoSend port vc ver rnd s = .next (s.after 1 (.echoSend port vc ver rnd)) := by
  unfold execEchoSend
  dsimp only
  rw [he, if_neg (by decide), find_ploughedIn h]
  dsimp only
  rw [hl, if_pos (by decide)]

theorem execEchoSend_sends (hl : s.leftModule n = true) : execEchoSend port vc ver rnd s =
    .next (State.pumpAll (State.modPort { s with ploughedIn := [] } port.toNat (fun t => { t with
      queue := Tbl.upd t.queue 3 [] (· ++ [(none, 0, s.markPacket .echo ver 3 rnd.toNat vc.toNat)]) }))) := by
  have hdrop : dropOne (port.toNat, vc, ver, rnd, n) s.ploughedIn = [] := by rw [h]; exact if_pos rfl
  unfold execEchoSend
  dsimp only
  rw [he, if_neg (by decide), find_ploughedIn h]
  dsimp only
  rw [hl, if_neg (by decide), hdrop]

end
end
end

/-! ## Answers, and operations without one (R358 to R360) -/

section
variable {r : Response} {f : FabOp} (hk : r.kind = .ack ∨ r.kind = .result)
  (hop : Tbl.find s.ops (opKey r.dstCore.toNat r.tag) = some f)
include hk hop

theorem execResponseArrive_other (h : f.pkt.vf ≠ r.vf ∨ f.pkt.gen ≠ r.gen ∨ s.gen r.vf ≠ r.gen) :
    execResponseArrive r s = .next s := by
  unfold execResponseArrive
  obtain hk | hk := hk
  all_goals
    rw [hk]
    dsimp only
    rw [hop]
    exact congrArg _ (if_pos (by simpa [or_assoc] using h))

theorem execResponseArrive_completes (hv : f.pkt.vf = r.vf) (hg : f.pkt.gen = r.gen) (hs : s.gen r.vf = r.gen)
    (hput : f.pkt.op = .put) (ht : f.tries = 0) (hst : r.status ≠ 2) :
    execResponseArrive r s = .next (s.opDone (opKey r.dstCore.toNat r.tag) f r.status r.value) := by
  have hrack : s.rackFor f.pkt r = s := if_pos (by simp [hput])
  unfold execResponseArrive
  obtain hk | hk := hk
  all_goals
    rw [hk]
    dsimp only
    rw [hop]
    dsimp only
    rw [if_neg (by simp [hv, hg, hs]), if_neg hst, hrack, if_neg (by simp [ht])]

end

section
variable {core : Nat} {tag : BitVec 16} {f : FabOp}

theorem execReissue_over (h : Tbl.find s.ops (opKey core tag) = none) : execReissue core tag s = .next s := by
  unfold execReissue
  dsimp only
  rw [h]

theorem execTimeout_over (h : Tbl.find s.ops (opKey core tag) = none) : execTimeout core tag s = .next s := by
  unfold execTimeout
  dsimp only
  rw [h]

section
variable (h : Tbl.find s.ops (opKey core tag) = some f)
include h

theorem execReissue_done (ha : f.acked ≠ none ∨ 3 ≤ f.tries) : execReissue core tag s = .next s := by
  unfold execReissue
  dsimp only
  rw [h]
  dsimp only
  rw [if_pos (by simpa [Option.isSome_iff_ne_none] using ha)]

section
variable (ha : f.acked = none)
include ha

theorem execReissue_early (ht : f.tries < 3) (he : s.aged f.pkt.stamp (16 * (f.tries + 1)) = false) : execReissue core tag s =
    .next (s.after (max 1 (s.untilAge f.pkt.stamp (16 * (f.tries + 1)))) (.reissue core tag)) := by
  unfold execReissue
  dsimp only
  rw [h]
  dsimp only
  rw [if_neg (by simp [ha]; omega), he, if_pos (by decide)]

theorem execReissue_again (ht : f.tries < 2) (he : s.aged f.pkt.stamp (16 * (f.tries + 1)) = true) :
    let g := { f with tries := f.tries + 1, pkt := { f.pkt with reissue := true } }
    ∃ n, execReissue core tag s = .next ((State.sendOut { s with ops := Tbl.put s.ops (opKey core tag) g } g).after n
      (.reissue core tag)) := by
  intro g
  refine ⟨s.untilAge f.pkt.stamp (16 * (f.tries + 1 + 1)), ?_⟩
  unfold execReissue
  dsimp only
  rw [h]
  dsimp only
  rw [if_neg (by simp [ha]; omega), he, if_neg (by decide), if_pos (by omega)]

theorem execTimeout_unanswered (he : s.aged f.pkt.stamp 64 = true) :
    execTimeout core tag s = .next ((s.opEvent 5 f.pkt.vf).opDone (opKey core tag) f 5 0) := by
  unfold execTimeout
  dsimp only
  rw [h]
  dsimp only
  rw [he, if_neg (by decide), ha]

end

theorem execTimeout_early (he : s.aged f.pkt.stamp 64 = false) :
    execTimeout core tag s = .next (s.after (max 1 (s.untilAge f.pkt.stamp 64)) (.timeout core tag)) := by
  unfold execTimeout
  dsimp only
  rw [h]
  dsimp only
  rw [he, if_pos (by decide)]

theorem execTimeout_answered {st : Byte} (ha : f.acked = some st) (he : s.aged f.pkt.stamp 64 = true) :
    execTimeout core tag s = .next (s.opDone (opKey core tag) f st 0) := by
  unfold execTimeout
  dsimp only
  rw [h]
  dsimp only
  rw [he, if_neg (by decide), ha]

end
end

/-! ## The reply cache (R360) -/

theorem execRackArrive_marks {k : ReplyKey} {r : Reply} (h : s.reply k = some r) : execRackArrive k s =
    .next (State.after { s with replies := s.replies.map (fun (x : Reply) => if x.key = k then { x with rack := true } else x) }
      (s.untilAge r.stamp 64) (.replyCacheFree k)) := by
  unfold execRackArrive
  rw [h]

theorem mem_replyCacheFree {k : ReplyKey} {r : Reply} : r ∈ s.replies.filter (fun r => !(r.key = k && r.rack && s.aged r.stamp 64)) ↔
    r ∈ s.replies ∧ ¬(r.key = k ∧ r.rack = true ∧ s.aged r.stamp 64 = true) := by
  rw [List.mem_filter, Bool.not_eq_true', Bool.eq_false_iff, ne_eq, Bool.and_eq_true, Bool.and_eq_true, decide_eq_true_eq, and_assoc]

/-! ## Group messages (R344, R380, R386) -/

section
variable {m : CollMsg}

theorem deliver_keeps : (s.deliver m).collWaits = s.collWaits ++ [m] ∧ (s.deliver m).mem = s.mem := by
  unfold State.deliver
  extract_lets t
  split
  · next e _ =>
    exact ⟨modHome_frame (P := State.collWaits) (fun _ _ => rfl) (fun _ _ => rfl) t e.2.gang e.2.core _,
      modHome_frame (P := State.mem) (fun _ _ => rfl) (fun _ _ => rfl) t e.2.gang e.2.core _⟩
  · exact ⟨rfl, rfl⟩

theorem execCollArrive_leaves (hd : m.dstMod ≠ s.moduleId) : execCollArrive m s = .next (s.sendColl m) :=
  congrArg Host.Outcome.next (if_pos hd)

section
variable (hd : m.dstMod = s.moduleId)
include hd

section
variable (hs : m.srcMod = s.moduleId)
include hs

theorem execCollArrive_stale (hg : s.gen m.vf ≠ m.gen) : execCollArrive m s = .next (s.staleDrop m.vf 1) := by
  unfold execCollArrive
  rw [if_neg (not_not.2 hd), if_pos hs, if_pos hg]

theorem execCollArrive_local (hg : s.gen m.vf = m.gen) : execCollArrive m s = .next (s.localArrive m) := by
  unfold execCollArrive
  rw [if_neg (not_not.2 hd), if_pos hs, if_neg (not_not.2 hg)]

end

theorem execCollArrive_far (hs : m.srcMod ≠ s.moduleId) (hrow : isRow m.body = false) : execCollArrive m s =
    .next (s.arrive (collPacket m) (fun t =>
      if t.ownsCore m.vf m.dstCore then (t.deliver m, answerTo (collPacket m) .ack 0 0, true)
      else (t, answerTo (collPacket m) .ack 4 0, false))) := by
  unfold execCollArrive
  rw [if_neg (not_not.2 hd), if_neg hs, hrow, if_neg (by decide)]

end

theorem localArrive_delivers (hrow : isRow m.body = false) : s.localArrive m = s.deliver m := by
  unfold State.localArrive
  split
  · next h => rw [h] at hrow; cases hrow
  · rfl

section
variable {a : Nat} {bad : Bool} {data : List Byte} (hb : m.body = .row a bad data)
include hb

theorem localArrive_noRow (hr : s.putRow m.vf m.gen m.dstCore m.group m.seq a data bad = none) :
    s.localArrive m = s.answerColl m 4 := by
  unfold State.localArrive
  rw [hb]
  dsimp only
  rw [hr]

theorem localArrive_row (hr : s.putRow m.vf m.gen m.dstCore m.group m.seq a data bad = some t) :
    s.localArrive m = t.answerColl m (if bad then 3 else 0) := by
  unfold State.localArrive
  rw [hb]
  dsimp only
  rw [hr]

end

theorem collPacket_tag (m : CollMsg) : (collPacket m).vf = m.vf ∧ (collPacket m).gen = m.gen := by
  unfold collPacket
  extract_lets p
  split
  · exact ⟨rfl, rfl⟩
  · exact ⟨rfl, rfl⟩

end

end

/-- Settles O53, each arrival by its lemma. -/
theorem fabricArrivals : Obligations.FabricArrivals := by
  unfold Obligations.FabricArrivals
  refine ⟨fun p s h => ⟨fun hd ho => execPutArrive_late hd h ho, ?latePull, fun hfirst => ?lateAtom⟩,
    fun p s h hg => ⟨fun hd => execPutArrive_stale hd (.inl h) hg, ?stalePull, fun hfirst => ?staleAtom⟩,
    fun p s o r d m t key n hn ha ho hk hmem hdue hline => execAtomArrive_yields hn ha ho hk hmem hdue hline,
    fun p s r h hg hr => ⟨?againPull, fun hfirst => ?againAtom⟩,
    fun p s hd => execPutArrive_answered hd,
    fun p s hd h hg h1 => ⟨execPutArrive_noRow hd (.inl h) hg h1, fun t ht => ?row⟩,
    fun p s => ⟨rowIn_eq_none, fun rs hrs => rowIn_of_runs hrs⟩,
    fun p s hd h hg h1 => ⟨execPutArrive_outside hd h hg h1, fun keys hk h63 => execPutArrive_vault hd h hg h1 hk h63,
      fun keys hk h63 => ?core⟩,
    fun p s key n h hg hfirst hr hf hn ha ho hk hb => execAtomArrive_acts hn ha ho hk h hg hfirst hr hf hb,
    fun p s h hg hr hf hown => ⟨execPullArrive_busy h hg hr hf hown, execPullArrive_enters h hg hr hf hown⟩,
    fun port p s he => ⟨execPloughArrive_notes he, execEchoArrive_other he, execEchoArrive_round he⟩,
    fun port vc ver rnd n s he => ⟨execEchoSend_none he, execEchoSend_waits he, execEchoSend_sends he⟩,
    fun r s f hk hop => ⟨execResponseArrive_other hk hop, execResponseArrive_completes hk hop⟩,
    fun core tag s f => ⟨fun h => ⟨execReissue_over h, execTimeout_over h⟩, fun h => ⟨execReissue_again h, execReissue_early h,
      execReissue_done h, execTimeout_early h, fun st => execTimeout_answered h, execTimeout_unanswered h⟩⟩,
    fun k s r h => ⟨_, execRackArrive_marks h⟩,
    fun k s => ⟨_, rfl, rfl, fun r => mem_replyCacheFree⟩,
    fun m s => ⟨execCollArrive_leaves, execCollArrive_stale, fun hd hs hg hrow => ?kept, fun a bad data hd hs hg hb => ?rowHere,
      fun hd hs hrow => ?far⟩⟩
  case latePull => exact congrArg Host.Outcome.next (arrive_late h)
  case lateAtom =>
    obtain ⟨perform, hp⟩ := execAtomArrive_arrives hfirst
    exact hp.trans (congrArg Host.Outcome.next (arrive_late h))
  case stalePull => exact congrArg Host.Outcome.next (arrive_stale h hg)
  case staleAtom =>
    obtain ⟨perform, hp⟩ := execAtomArrive_arrives hfirst
    exact hp.trans (congrArg Host.Outcome.next (arrive_stale h hg))
  case againPull => exact congrArg Host.Outcome.next (arrive_again h hg hr)
  case againAtom =>
    obtain ⟨perform, hp⟩ := execAtomArrive_arrives hfirst
    exact hp.trans (congrArg Host.Outcome.next (arrive_again h hg hr))
  case row => exact putStatus_rowIn ht ▸ execPutArrive_row hd (.inl h) hg h1 ht
  case core =>
    intro c off
    have hcore := execPutArrive_core hd h hg h1 hk h63
    exact ⟨fun ht => hcore.trans (putToCore_text ht), fun ht hf => hcore.trans (putToCore_frozen ht hf), fun ht hf =>
      ⟨fun ho hfull => hcore.trans (putToCore_waits ht hf ho hfull), fun ho hfull => hcore.trans (putToCore_accepts ht hf ho hfull),
        fun ho hb => hcore.trans (putToCore_writes ht hf ho hg hb), fun ho hb => hcore.trans (putToCore_loses ht hf ho hb)⟩⟩
  case kept =>
    exact ⟨_, execCollArrive_local hd hs hg, by rw [localArrive_delivers hrow]; exact deliver_keeps.1,
      by rw [localArrive_delivers hrow]; exact deliver_keeps.2⟩
  case rowHere =>
    exact ⟨fun hr => (execCollArrive_local hd hs hg).trans (congrArg _ (localArrive_noRow hb hr)),
      fun t hr => (execCollArrive_local hd hs hg).trans (congrArg _ (localArrive_row hb hr))⟩
  case far =>
    intro p
    obtain ⟨hv, hgen⟩ := collPacket_tag m
    have hfar := execCollArrive_far hd hs hrow
    refine ⟨fun h => hfar.trans (congrArg _ (arrive_late h)), fun h hg hr hf hown => ⟨s.deliver m, ?_, deliver_keeps.1, deliver_keeps.2⟩⟩
    exact hfar.trans (congrArg _ (arrive_performs h (hv ▸ hgen ▸ hg) hr hf (if_pos hown)))

end Sys2Proof.Machine
end
